-- ==== Sys2Proof/Word.lean ====
section
/-! DEFINITION. The words of the ports: a byte, and a byte address of the 34-bit address space (0.8, 8.11). -/

namespace Sys2Proof

/-- One byte of a record, a lane or a frame. -/
abbrev Byte := BitVec 8

/-- A byte address on the host port or the memory port (0.8: 34-bit byte address). -/
abbrev Addr := BitVec 34

/-- A record array or a memory: entries by number, rising, holding only what differs from the
array's default (the canonical form; `Machine.Table.wf`). -/
abbrev Table (α : Type) := List (Nat × α)

/-- FFFFFFFFh: the block number, pool index and 32-bit field value that stands for "none" (R7, R136). -/
def none32 : Nat := 0xFFFFFFFF

/-- FFFFh: the record index, room code and tariff index that stands for "none" (R30, R183, R129). -/
def none16 : Nat := 0xFFFF

end Sys2Proof
end

