-- ==== Sys2Proof/Syntax.lean ====
section
/-! DEFINITION. The commands of the block: one constructor for each row of spec/opcode_table.json.
A row carries an operand only where the step takes something from outside the part: the strap levels,
a host request, the bytes of a return frame, and the mirror writer that takes its turn. -/

namespace Sys2Proof

/-- One request of the host port (R150): a read or a write of 1 to 8 beats from a byte address.
`lanes` holds one entry for each byte of the burst, in address order: `none` where the byte enable is
clear, `some b` where it is set, `b` being the byte written (00h in a read). -/
structure HostRequest where
  write : Bool
  addr  : Addr
  beats : Nat
  lanes : List (Option Byte)
  deriving DecidableEq, Repr

/-- The three engines that write mirrors into room part halves (R82, R83). -/
inductive MirrorEngine where
  | directory
  | rating
  | lamp
  deriving DecidableEq, Repr

/-- The steps of the part, in the order of the table. -/
inductive Instr where
  | powerOn (straps : BitVec 3)
  | reset (straps : BitVec 3)
  | hostRequest (req : HostRequest)
  | hostWrite
  | hostReadData
  | guardedWrite
  | recordApertureWrite
  | playApertureRead
  | stallExpiry
  | checkIn
  | checkoutWriteHeld
  | checkout
  | creditLimitChange
  | mailboxQuotaChange
  | lampPresentChange
  | trunkSeize
  | trunkAnswer
  | trunkClear
  | trunkIdleWrite
  | trunkUnknownState
  | tariffWrite
  | orderPost
  | orderCancel
  | consumerIndexWrite
  | overflowFlagClear
  | format
  | adopt
  | stop
  | profileValidation
  | loadReadReturn
  | startingWorkBegin
  | adoptSlotRead
  | adoptRecordRead
  | adoptHeaderRead
  | adoptFolioRead
  | endOfStarting
  | tenthSecondEvent
  | returnFrame (bytes : List Byte)
  | returnWindowClose
  | arbiterDecision
  | memoryAcknowledge
  | mirrorWriteRaise (engine : MirrorEngine)
  | stackPop
  | popReadReturn
  | stackPush
  | walkHeaderRead
  | releaseLineGrant
  | blockWriteFinish
  | headerPatchFinish
  | blockFetchArrival
  | offsetWalkRead
  | folioQueueWriteDone
  | takeStart
  | takeReadReturn
  | takePlacesGranted
  | noticeWrite
  | recordOpen
  | recordClose
  | recordAbandon
  | playOpen
  | playClose
  | messageSave
  | messageMarkNew
  | messageDelete
  | mailboxPurge
  | lampOverride
  | lampFaultClear
  | folioAdjust
  | folioRelease
  | clockSet
  | returnWindowOpen
  deriving DecidableEq, Repr

end Sys2Proof
end

