-- ==== Sys2Proof/WellFormed.lean ====
section
/-! DEFINITION. Which commands the ports can carry (0.8, R150). Only a host request has a form to keep:
the strap levels are three bits, and the bytes of a return frame may be any number (R98). -/

namespace Sys2Proof

/-- A burst is 1 to 8 beats (R150). -/
def HostRequest.beatsOk (r : HostRequest) : Bool := decide (1 ≤ r.beats) && decide (r.beats ≤ 8)

/-- A beat has eight byte lanes (R150). -/
def HostRequest.lanesOk (r : HostRequest) : Bool := decide (r.lanes.length = 8 * r.beats)

/-- A request the host port can present (R150). -/
def HostRequest.wellFormed (r : HostRequest) : Bool :=
  r.beatsOk && r.lanesOk

/-- A command the ports can carry. -/
def Instr.wellFormed : Instr → Bool
  | .hostRequest r => r.wellFormed
  | _ => true

end Sys2Proof
end

