-- ==== Sys2Proof/Decode.lean ====
section
/-! DEFINITION. No row of spec/opcode_table.json gives bits (every row has "fields": [] and no match), so
no word spells a command; a command reaches the part as a step of its own. -/

namespace Sys2Proof

/-- The command a word of the table's bits spells: none, for the table gives no row any bits. -/
def decodeTableWord (_nbits _w : Nat) : Option Instr := none

end Sys2Proof
end

