-- ==== Sys2Proof/Config.lean ====
section
/-! DEFINITION. What is fixed for every LQ32: the sizes of its queues and tables, and the one free value,
a choice the manual leaves open. -/

namespace Sys2Proof.Config

/-- The `n`-th open choice. The manual says of several pairs of events that "either" may come first
(R150, R164, R183); each such case reads the next of these. So does each byte a read is given past the
end of the address space (notes/assumptions/6.md). It has no body, so no proof can rest on what it is
(notes/assumptions/4.md). -/
opaque freeChoice : Nat → Nat

/-- Entries of the host request FIFO (R150). -/
def fifoDepth : Nat := 32
/-- Requests a requester's line holds (R164). -/
def lineDepth : Nat := 16
/-- Entries of the block pocket (R21). -/
def pocketDepth : Nat := 16
/-- A refill pop is started while the pocket holds this many or fewer (R21). -/
def refillLevel : Nat := 8
/-- Entries of the release queue (R26). -/
def releaseDepth : Nat := 64
/-- Entries of the folio write queue (R140). -/
def folioQueueDepth : Nat := 64
/-- Entries of the table of orders in flight (R173). -/
def inFlightMax : Nat := 8
/-- Notices the notice queue holds (R183). -/
def noticeDepth : Nat := 16
/-- Places of a mailbox (R34). -/
def mailboxMax : Nat := 32
/-- Samples of a full block (R7). -/
def blockSamples : Nat := 1008
/-- Samples in a tenth of a second (R47). -/
def samplesPerTenth : Nat := 800
/-- Tenths in a day (R181). -/
def tenthsPerDay : Nat := 864000
/-- Bytes of the address space (R154). -/
def addressSpace : Nat := 2 ^ 34
/-- Bytes of the voice aperture space (R48). -/
def apertureSpace : Nat := 1048576
/-- Bytes of a whole return frame (12.8). -/
def returnFrameBytes : Nat := 11

end Sys2Proof.Config
end

