-- ==== Sys2Proof/Machine/State.lean ====
section
/-! DEFINITION. The state of the LQ32, block by block as 0.3 lists them, and its value after reset.
Every field is plain data. A field marked "model" is not named by the manual: it holds what the manual
says the part knows (which burst a channel waits for, which order caused a release). -/

namespace Sys2Proof.Machine

/-! ### The reasons a step can stop -/

/-- What stops the machine: nothing does, the manual gives the part no fault, and every request is completed
(8.11). -/
inductive Fault where
  deriving DecidableEq, Repr

/-- Why a command has no meaning. -/
inductive Refusal where
  /-- Raised by `exec` for a row without a meaning yet. Safe: the machine stops. -/
  | notModelled (mnemonic : String)
  /-- Raised by HOST_REQUEST for a term that is no request of the host port: a length outside 1 to 8
  beats, or a number of byte lanes other than eight a beat (R150). Safe: no port can present it. -/
  | notAPortRequest
  deriving DecidableEq, Repr

/-! ### Settings -/

/-- The validated copy of the profile (R186): the clamped settings the engines use. -/
structure Profile where
  noticeEnable  : BitVec 32 := 0#32
  apertureBase  : Nat := 0
  roomBase      : Nat := 0
  trunkBase     : Nat := 0
  tariffBase    : Nat := 0
  orderBase     : Nat := 0
  noticeBase    : Nat := 0
  messageBase   : Nat := 0
  poolBase      : Nat := 0
  stackBase     : Nat := 0
  storeBase     : Nat := 0
  floors        : Nat := 0
  cards         : Nat := 0
  loadLimit     : Nat := 0
  trunks        : Nat := 0
  tariffs       : Nat := 0
  orderSlots    : Nat := 0
  noticeSlots   : Nat := 0
  records       : Nat := 0
  poolRecords   : Nat := 0
  blocks        : Nat := 0
  reserve       : Nat := 0
  storeLowLevel : Nat := 0
  defaultQuota  : Nat := 0
  stepIndex     : Nat := 0
  recordLimit   : Nat := 0
  minRecord     : Nat := 0
  stallLimit    : Nat := 0
  dayStart      : Nat := 0
  nightStart    : Nat := 0
  logUnanswered : Bool := false
  deriving DecidableEq, Repr

/-- The five requesters of the arbiter, 0 to 4 (0.3). -/
inductive Requester where
  | host | voice | directory | rating | lamp
  deriving DecidableEq, Repr

/-- The direction of an arbiter list entry (R166). -/
inductive BusDir where
  | either | read | write
  deriving DecidableEq, Repr

/-- One entry of an arbiter list (R166). -/
structure ListEntry where
  who : Requester
  dir : BusDir
  deriving DecidableEq, Repr

/-- The three lists in use (R166). After reset and STOP they are the PASSIVE arrangement (R170). -/
structure Lists where
  wheel      : List ListEntry := []
  priority   : List ListEntry := []
  roundRobin : List ListEntry :=
    [⟨.host, .either⟩, ⟨.voice, .either⟩, ⟨.directory, .either⟩, ⟨.rating, .either⟩, ⟨.lamp, .either⟩]
  deriving DecidableEq, Repr

/-! ### Time -/

/-- The time base (R181). -/
structure TimeBase where
  clock    : Nat := 0
  day      : BitVec 16 := 0#16
  elapsed  : BitVec 32 := 0#32
  clockSet : Bool := false
  deriving DecidableEq, Repr

/-- A stamp (R181). -/
structure Stamp where
  day      : BitVec 16 := 0#16
  clock    : Nat := 0
  clockSet : Bool := false
  deriving DecidableEq, Repr

/-! ### Requests of the arbiter -/

/-- What a burst is for (9.1): the source that raised it. -/
inductive Source where
  | hostPart | hostTail | loadRead
  | validation (line : Nat)
  | activation | pathStatus | arbiterStatus
  | blockWrite (ch : Nat) (second : Bool) (burst : Nat)
  | headerPatch (ch : Nat)
  | blockFetch (ch : Nat) (second : Bool) (burst : Nat)
  | offsetWalk (ch : Nat)
  | push | pop | walkHeader
  | record (index : Nat)
  | mailMirror
  | takeRead | executing (slot : Nat) | completion (slot : Nat)
  | noticeSlot
  | noticeHeader (advance : Bool)
  | storeStatus | ringStatus
  | startWork
  | folioQueue | folioMirror | ratingStatus | folioStatus
  | lampMirror | linkHeader
  | linkEntry (card : Nat)
  /-- a burst in flight whose requester was reset by STOP (R165, R170) -/
  | orphan
  deriving DecidableEq, Repr

/-- One request of the arbiter (R164): one burst within one line. `lanes` is the data of a write, `none`
where the byte enable is clear; the sources whose contents are taken at the grant leave it empty. -/
structure Request where
  source : Source
  write  : Bool
  addr   : Nat
  beats  : Nat
  lanes  : List (Option Byte) := []
  deriving DecidableEq, Repr

/-- The burst the port is carrying (R165), with the data a read burst took at its grant, and what stood under the
enabled lanes of a write before it (model: power-on and RESET lose a burst in flight, R170, R194). -/
structure Carried where
  req   : Request
  data  : List Byte := []
  under : List (Option Byte) := []
  deriving DecidableEq, Repr

/-- An acknowledged burst whose requester has not yet acted on it (model): read data on its way back, or
the end of a write that a step waits for (R55, R140). -/
structure Returned where
  source : Source
  data   : List Byte := []
  deriving DecidableEq, Repr

/-- The requests raised and not granted, a list for each requester. The first 16 of a list are the
requester's line, the rest the sources that wait to enter it, in the order they began to wait (R164). -/
structure Lines where
  host      : List Request := []
  voice     : List Request := []
  directory : List Request := []
  rating    : List Request := []
  lamp      : List Request := []
  deriving DecidableEq, Repr

/-- The memory port arbiter (R164 to R171). -/
structure Arbiter where
  lists        : Lists := {}
  wheelPos     : Nat := 0
  roundPos     : Nat := 4
  lines        : Lines := {}
  port         : Option Carried := none
  returned     : List Returned := []
  grantsHost      : Nat := 0
  grantsVoice     : Nat := 0
  grantsDirectory : Nat := 0
  grantsRating    : Nat := 0
  grantsLamp      : Nat := 0
  grantsWheel     : Nat := 0
  grantsPriority  : Nat := 0
  grantsRound     : Nat := 0
  passedOver      : Nat := 0
  /-- the arbiter status words as last written (R171) -/
  written      : Option (List Byte) := none
  deriving DecidableEq, Repr

/-! ### Host path -/

/-- The part state (R187). -/
inductive PartState where
  | passive | starting | active
  deriving DecidableEq, Repr

/-- The entry a load read fetches (R158). -/
inductive LoadTarget where
  | room (code : Nat)
  | trunk (number : Nat)
  | tariff (index : Nat)
  deriving DecidableEq, Repr

/-- One entry of the request FIFO (R150): a host request or an inserted load read. -/
inductive FifoEntry where
  | host (req : HostRequest)
  | load (target : LoadTarget)
  deriving DecidableEq, Repr

/-- A run of byte lanes of a request that lies within one line (R152). -/
structure Part where
  addr  : Nat
  lanes : List (Option Byte)
  deriving DecidableEq, Repr

/-- Where the request at the head stands (R151). -/
inductive HeadPhase where
  /-- nothing outstanding: the work left needs no burst -/
  | ready
  /-- the burst of the first part is raised; a write waits for its grant, a read for its data -/
  | burst
  /-- the first part lies in the voice aperture space and waits for the voice engine -/
  | voice
  /-- a play read is stalled on this channel; `seen` are the channels this read has met (R65, R66) -/
  | stalled (ch : Nat) (seen : List Nat)
  /-- a checkout write that has not asked for places (R76) -/
  | checkout
  /-- a checkout write whose request waits in the release line (R76) -/
  | held
  deriving DecidableEq, Repr

/-- The work on the request at the head of the FIFO: the part state it was classed under (R155), the
parts still to handle, the bytes a read has been given, and the phase. -/
structure HeadWork where
  mode   : PartState
  parts  : List Part := []
  answer : List (Option Byte) := []
  phase  : HeadPhase := .ready
  deriving DecidableEq, Repr

/-- The shadow of one room host half, trunk entry or tariff entry (R73, R112, R123): a loaded mark and
the entry's 64 bytes, of which only the bytes of shadowed fields are ever set. -/
structure Shadow where
  loaded : Bool := false
  bytes  : List Byte := List.replicate 64 0#8
  deriving DecidableEq, Repr

/-- The host path (chapter 8). -/
structure HostPath where
  fifo       : List FifoEntry := []
  /-- requests the host presented while ready was held back (R150) -/
  waiting    : List HostRequest := []
  head       : Option HeadWork := none
  /-- what the host port has passed to the host: the lanes of each read answered, oldest first; `none` for a lane not
  enabled (model; R150, R151) -/
  answers    : List (List (Option Byte)) := []
  /-- load reads still to join the FIFO (R188) -/
  loads      : List LoadTarget := []
  rooms      : Table Shadow := []
  trunks     : Table Shadow := []
  tariffs    : Table Shadow := []
  guardCount : Nat := 0
  /-- the path status word as last written (R161) -/
  written    : Option (List Byte) := none
  deriving DecidableEq, Repr

/-! ### Voice engine -/

/-- Channel states (R45, R46). -/
inductive ChannelState where
  | free | opening | recording | stopped | closing | playing | ended
  deriving DecidableEq, Repr

/-- Channel directions (R45). -/
inductive Direction where
  | none | record | play
  deriving DecidableEq, Repr

/-- Stop reasons (R45). -/
inductive StopReason where
  | none | storeFull | quota | length | checkedOut
  deriving DecidableEq, Repr

/-- Buffer conditions (R45). -/
inductive BufferCond where
  | empty | filling | full | writing | fetching | arrived
  deriving DecidableEq, Repr

/-- One of the two block buffers of a channel: 512 bytes while it holds a block (R45). -/
structure Buffer where
  block : Nat := none32
  cond  : BufferCond := .empty
  data  : List Byte := []
  deriving DecidableEq, Repr

/-- Status codes of orders (R178). -/
inductive Status where
  | done | unknownOrder | badParameter | noChannel | channelState | roomVacant | mailboxFull
  | tableFull | noSuchMessage | messageBusy | notReady | storeFull | quota | tooShort | noSuchFolio
  deriving DecidableEq, Repr

/-- Which order put a recording channel into CLOSING (model; R46). -/
inductive Closing where
  | none | close | abandon
  deriving DecidableEq, Repr

/-- How far the release that a channel asks for has come (model; R26, R57, R60). -/
inductive ReleaseProgress where
  | none | asked | queued | finished
  deriving DecidableEq, Repr

/-- One channel context (R2, R45). -/
structure Channel where
  state       : ChannelState := .free
  dir         : Direction := .none
  stopReason  : StopReason := .none
  checkedOut  : Bool := false
  index       : Nat := none16
  generation  : Nat := 0
  room        : Nat := 0
  buffer0     : Buffer := {}
  buffer1     : Buffer := {}
  /-- the current buffer: true for buffer 1 -/
  current     : Bool := false
  prediction  : Int := 0
  stepIndex   : Nat := 0
  startPred   : Int := 0
  startIndex  : Nat := 0
  sampleCount : Nat := 0
  blockPos    : Nat := 0
  pendingGap  : Bool := false
  position    : Nat := 0
  accepted    : Nat := 0
  dropped     : Nat := 0
  refused     : Nat := 0
  underruns   : Nat := 0
  pastEnd     : Nat := 0
  /-- gap flag of the filling block (R10) -/
  blockGap    : Bool := false
  /-- a taken block that waits for a buffer (R52) -/
  waitingBlock : Option Nat := none
  /-- number and header of the block closed last (R58: the block a header patch names) -/
  lastBlock   : Option (Nat × List Byte) := none
  /-- block writes and header patches raised and not finished (model; R57) -/
  writes      : Nat := 0
  /-- order slot of the order in flight for the channel (model) -/
  order       : Option Nat := none
  closing     : Closing := .none
  release     : ReleaseProgress := .none
  /-- the status a decided RECORD CLOSE will answer (model; R57) -/
  verdict     : Status := .done
  /-- offset walk: the block whose header is read, and the headers still to read (R15) -/
  walkBlock   : Nat := 0
  walkLeft    : Nat := 0
  /-- samples still to be discarded before the start offset (R15) -/
  discard     : Nat := 0
  /-- the start offset in samples (R15) -/
  offset      : Nat := 0
  /-- the stream position the discard has reached (model; R15, R62) -/
  reached     : Nat := 0
  deriving DecidableEq, Repr

/-- The voice engine. -/
structure Voice where
  channels : Table Channel := []
  deriving DecidableEq, Repr

/-! ### Directory engine -/

/-- Message states (R31). -/
inductive MessageState where
  | free | recording | new | heard | saved | deleting
  deriving DecidableEq, Repr

/-- One message record (R30). -/
structure Message where
  generation : Nat := 0
  state      : MessageState := .free
  room       : Nat := 0
  urgent     : Bool := false
  gapped     : Bool := false
  truncated  : Bool := false
  damaged    : Bool := false
  serial     : Nat := 0
  stamp      : Stamp := {}
  length     : Nat := 0
  blocks     : Nat := 0
  first      : Nat := none32
  readers    : Nat := 0
  next       : Nat := none16
  digits     : List Nat := []
  deriving DecidableEq, Repr

/-- The mailbox summary of a room (R34). The head index is the first of `list`. -/
structure Mailbox where
  list       : List Nat := []
  places     : Nat := 0
  newCount   : Nat := 0
  urgentNew  : Nat := 0
  heardCount : Nat := 0
  savedCount : Nat := 0
  blocksUsed : Nat := 0
  deriving DecidableEq, Repr

/-- An entry of the block pocket (R21). -/
inductive PocketEntry where
  | ready (block : Nat)
  | arriving
  deriving DecidableEq, Repr

/-- The stack operation that is running (R19). -/
inductive StackOp where
  | none | push | pop
  deriving DecidableEq, Repr

/-- What caused a release, and so who is told of its end (R29). -/
inductive Cause where
  | order (slot : Nat)
  | channel (ch : Nat)
  | silent
  deriving DecidableEq, Repr

/-- An entry of the release queue (R26). -/
structure ReleaseEntry where
  first : Nat
  count : Nat
  index : Nat
  cause : Cause := .silent
  deriving DecidableEq, Repr

/-- Who waits in the release line (R26). -/
inductive Waiter where
  | take
  | checkout
  | channel (ch : Nat)
  deriving DecidableEq, Repr

/-- A request of the release line: who asks, and for how many places (R26). -/
structure ReleaseRequest where
  who  : Waiter
  need : Nat
  deriving DecidableEq, Repr

/-- The walk of the oldest release entry: the block in hand and the count remaining (R27). -/
structure Walk where
  block     : Nat
  remaining : Nat
  deriving DecidableEq, Repr

/-- The store-low state (R25). -/
inductive StoreLow where
  | armed | raised
  deriving DecidableEq, Repr

/-- The store side of the directory engine (chapter 2). -/
structure Store where
  stackPtr    : Addr := 0#34
  stackOp     : StackOp := .none
  /-- pushes decided and not started, oldest first (R22) -/
  pushLine    : List Nat := []
  /-- the pocket, top first (R21) -/
  pocket      : List PocketEntry := []
  /-- the take line: the channels whose requests wait, oldest first (R24) -/
  takeLine    : List Nat := []
  releaseQueue : List ReleaseEntry := []
  releaseLine : List ReleaseRequest := []
  walk        : Option Walk := none
  /-- the free bitmap of the message table: the record indexes marked free, rising (R30) -/
  freeRecords : List Nat := []
  /-- the message records as the engine last changed them (R30) -/
  messages    : Table Message := []
  mailboxes   : Table Mailbox := []
  serial      : Nat := 0
  storeLow    : StoreLow := .armed
  /-- rooms whose mailbox mirror is marked (R83) -/
  marks       : List Nat := []
  mirrorRaised : Option Nat := none
  mirrorLast  : Option Nat := none
  /-- the store status words as last written (R43) -/
  written     : Option (List Byte) := none
  deriving DecidableEq, Repr

/-- Where an order stands between the start of its take and its completion (R175 to R177). -/
inductive OrderStage where
  /-- the take read is raised -/
  | raised
  /-- the take read is granted: the slot is held -/
  | reading
  /-- the take waits for release-queue places (R176) -/
  | waiting
  /-- taken; its completion write is not yet raised -/
  | executing
  /-- its completion write is raised -/
  | completing
  deriving DecidableEq, Repr

/-- An entry of the in-flight table (R173). `left` counts what the order still waits for: releases of a
MAILBOX PURGE or MESSAGE DELETE, queue entries of a FOLIO ADJUST. -/
structure InFlight where
  slot     : Nat
  code     : Nat := 0
  copy     : List Byte := []
  stage    : OrderStage := .raised
  deferred : Bool := false
  result   : List Byte := []
  left     : Nat := 0
  deriving DecidableEq, Repr

/-- The order ring (R173, R180). -/
structure Ring where
  consumer    : Nat := 0
  /-- the posted marks: the slots marked, rising -/
  marks       : List Nat := []
  taking      : Option Nat := none
  inFlight    : List InFlight := []
  ordersTaken : Nat := 0
  ringErrors  : Nat := 0
  /-- the ring status words as last written (R180) -/
  written     : Option (List Byte) := none
  deriving DecidableEq, Repr

/-- Notice kinds (R183). -/
inductive NoticeKind where
  | lampFault | cardDown | cardUp | creditStop | creditClear | lateCharge | unbilledCharge
  | unratedCall | trunkSequence | folioDiscarded | poolFull | storeLow | guard | ringError
  | recordingStopped | adoptRepair
  deriving DecidableEq, Repr

/-- A notice (R183). -/
structure Notice where
  kind    : NoticeKind
  room    : Nat
  stamp   : Stamp
  detail1 : Nat
  detail2 : Nat
  deriving DecidableEq, Repr

/-- The notice queue and the state of the notice ring (R183, R184). -/
structure Notices where
  queue    : List Notice := []
  /-- notice writing is open (R188) -/
  isOpen   : Bool := false
  producer : Nat := 0
  consumer : Nat := 0
  overflow : Bool := false
  dropped  : Nat := 0
  /-- a notice is being written: its header write is not yet granted (model; R184) -/
  writing  : Bool := false
  deriving DecidableEq, Repr

/-! ### Rating engine -/

/-- Trunk context states (R114). -/
inductive TrunkState where
  | idle | seized | answered
  deriving DecidableEq, Repr

/-- A trunk context (R114). Serial 0 is "none" (R136). -/
structure Trunk where
  state        : TrunkState := .idle
  seizeCount   : BitVec 32 := 0#32
  answerCount  : BitVec 32 := 0#32
  answerStamp  : Stamp := {}
  missedSeize  : Bool := false
  room         : Nat := 0
  serial       : Nat := 0
  incoming     : Bool := false
  digits       : List Nat := []
  deriving DecidableEq, Repr

/-- Charge kinds (R129, R135). -/
inductive ChargeKind where
  | rated | free | unrated | unanswered | adjust
  deriving DecidableEq, Repr

/-- A priced charge (R129), or the content of an ADJUST record (R135). -/
structure Charge where
  kind       : ChargeKind
  implicit   : Bool := false
  missed     : Bool := false
  clockUnset : Bool := false
  late       : Bool := false
  trunk      : Nat := 0
  room       : Nat := 0
  serial     : Nat := 0
  digits     : List Nat := []
  stamp      : Stamp := {}
  duration   : Nat := 0
  tariff     : Nat := none16
  night      : Bool := false
  pulses     : Nat := 0
  base       : Nat := 0
  marked     : Nat := 0
  amount     : Int := 0
  reason     : Nat := 0
  deriving DecidableEq, Repr

/-- A folio (R136). `records` is the engine's own list of the records appended (R142); the record count,
the head and the tail are its length, its first and its last. -/
structure Folio where
  serial     : Nat
  total      : Int := 0
  records    : List Nat := []
  incomplete : Bool := false
  late       : Nat := 0
  deriving DecidableEq, Repr

/-- The folio places of a room and its toll-barred flag (R136, R145). -/
structure RoomFolios where
  opened : Option Folio := none
  closed : Option Folio := none
  barred : Bool := false
  deriving DecidableEq, Repr

/-- An entry of the folio write queue (R140): a record write of 64 bytes, or a link write of 8 lanes of
which four are enabled. `order` is the FOLIO ADJUST that waits for it (R143). -/
structure FolioWrite where
  addr  : Nat
  lanes : List (Option Byte)
  order : Option Nat := none
  deriving DecidableEq, Repr

/-- The rating engine (chapters 6 and 7). -/
structure Rating where
  trunks      : Table Trunk := []
  folios      : Table RoomFolios := []
  /-- the charge pool bitmap: the record indexes marked free, rising (R135) -/
  freePool    : List Nat := []
  serial      : Nat := 0
  queue       : List FolioWrite := []
  /-- entries at the front of the queue that have been granted (model; R140) -/
  queueGranted : Nat := 0
  /-- the next entry is raised and not granted (R140) -/
  queueRaised : Bool := false
  outgoing    : Nat := 0
  incoming    : Nat := 0
  rated       : Nat := 0
  free        : Nat := 0
  unrated     : Nat := 0
  unanswered  : Nat := 0
  implicits   : Nat := 0
  missedSeizes : Nat := 0
  unknownStates : Nat := 0
  lateCount   : Nat := 0
  unbilledCount : Nat := 0
  poolFullCount : Nat := 0
  discardedCount : Nat := 0
  marks       : List Nat := []
  mirrorRaised : Option Nat := none
  mirrorLast  : Option Nat := none
  /-- the rating status words as last written (R131) -/
  written     : Option (List Byte) := none
  /-- the folio status words as last written (R148) -/
  folioWritten : Option (List Byte) := none
  deriving DecidableEq, Repr

/-! ### Lamp engine -/

/-- Lamp patterns (R90). -/
inductive Pattern where
  | off | steady | slow | fast
  deriving DecidableEq, Repr

/-- Lamp phases (R89). -/
inductive Phase where
  | none | a | b
  deriving DecidableEq, Repr

/-- Lamp overrides (R89). -/
inductive Override where
  | none | desk | testOn | testOff
  deriving DecidableEq, Repr

/-- Fault latches (R89). -/
inductive Latch where
  | none | isOpen | stuck
  deriving DecidableEq, Repr

/-- The lamp of a room (R89). -/
structure Lamp where
  pattern  : Pattern := .off
  phase    : Phase := .none
  override : Override := .none
  mismatch : Nat := 0
  latch    : Latch := .none
  deriving DecidableEq, Repr

/-- Card link states (R99). -/
inductive LinkState where
  | up | suspect | down | recovering
  deriving DecidableEq, Repr

/-- Reasons of a bad return (R98). -/
inductive BadReason where
  | none | noReturn | check | wrongCard
  deriving DecidableEq, Repr

/-- What the lamp engine keeps for a card (R89, R99, R100, R106). -/
structure Card where
  link       : LinkState := .recovering
  run        : Nat := 0
  reason     : BadReason := .none
  supplyGood : Bool := false
  sense      : BitVec 64 := 0#64
  good       : Nat := 0
  bad        : Nat := 0
  fastA      : Nat := 0
  fastB      : Nat := 0
  slowA      : Nat := 0
  slowB      : Nat := 0
  deriving DecidableEq, Repr

/-- The sweep under way (R96): the card just sent, the frame counter of its event, the drive set sent,
whether the return window is open, the bytes received in it, and the cards whose fields changed. -/
structure Sweep where
  card     : Nat
  frame    : BitVec 32
  drive    : BitVec 64
  isOpen   : Bool := false
  received : List Byte := []
  changed  : List Nat := []
  deriving DecidableEq, Repr

/-- The lamp engine (chapter 5). -/
structure LampEngine where
  lamps      : Table Lamp := []
  cards      : Table Card := []
  sweep      : Option Sweep := none
  /-- lamp link data out: the output frame sent last; empty while the link is idle (R96, R97) -/
  dataOut    : List Byte := []
  marks      : List Nat := []
  mirrorRaised : Option Nat := none
  mirrorLast : Option Nat := none
  deriving DecidableEq, Repr

/-! ### Profile control -/

/-- Activation results (R187). -/
inductive ActResult where
  | none | started | overlap | alignment | range | lists | refused | stopped
  deriving DecidableEq, Repr

/-- How STARTING treats the store (R189, R190). -/
inductive StartKind where
  | format | adopt
  deriving DecidableEq, Repr

/-- The steps of FORMAT (R189) and ADOPT (R190 to R192), in the order they are made. -/
inductive WorkStage where
  /-- not begun: load reads are still in the FIFO (R188) -/
  | loading
  | records | stack | pool | roomHalves | slots | noticeSlots | noticeHeader
  | adoptSlots | adoptRecords | adoptWalk | adoptWrite | adoptFolios
  /-- every burst has been granted -/
  | finished
  deriving DecidableEq, Repr

/-- The folio list that ADOPT is walking (R192). -/
structure FolioWalk where
  inClosed : Bool
  serial   : Nat
  flagged  : Bool
  next     : Nat
  records  : List Nat := []
  total    : Int := 0
  late     : Nat := 0
  lastRead : List Byte := []
  /-- the room's CLOSED place, walked after the OPEN one: the summary bytes -/
  summary  : List Byte := []
  deriving DecidableEq, Repr

/-- The work of STARTING (R188 to R192): how far it has come and what ADOPT has found so far. -/
structure StartWork where
  kind      : StartKind := .format
  stage     : WorkStage := .loading
  /-- the record, slot, line or room in hand -/
  index     : Nat := 0
  /-- writes made ready and not granted, oldest first; the first is raised -/
  writes    : List (Nat × List (Option Byte)) := []
  /-- a read is raised and its data has not been dealt with -/
  reading   : Bool := false
  /-- blocks claimed by kept chains (R190) -/
  claims    : List Nat := []
  /-- the chain kept for each record, last block first (R190) -/
  chains    : Table (List Nat) := []
  /-- the block the chain walk reads (R190) -/
  block     : Nat := 0
  /-- header of the block kept last in the walk (R190) -/
  header    : List Byte := []
  /-- samples of the blocks kept in the walk (R190) -/
  samples   : Nat := 0
  /-- the records counted as damaged messages, each once, rising (R190 to R192) -/
  damaged   : List Nat := []
  cutFolios : Nat := 0
  poolClaims : List Nat := []
  folio     : Option FolioWalk := none
  deriving DecidableEq, Repr

/-- Profile control (R186 to R188). -/
structure Control where
  state    : PartState := .passive
  result   : ActResult := .none
  /-- the last activation value acted on (R187) -/
  lastValue : Nat := 0
  profile  : Profile := {}
  /-- the activation whose validation is under way (R186) -/
  validating : Option StartKind := none
  work     : StartWork := {}
  deriving DecidableEq, Repr

/-! ### The machine -/

/-- What the step under way has raised and not yet placed (model): the requests for the arbiter and the
notices, each with the block that raised it. Empty between steps. -/
structure Outbox where
  requests : List Request := []
  notices  : List (Requester × Notice) := []
  deriving DecidableEq, Repr

/-- The state of the LQ32 and of the backing memory it drives. -/
structure State where
  /-- commands waiting, first in, first out -/
  pending  : List Instr := []
  /-- the strap levels as last sampled (R153, R194) -/
  straps   : BitVec 3 := 0#3
  /-- backing memory: the bytes that are not 00h, by address -/
  mem      : Table Byte := []
  time     : TimeBase := {}
  /-- the lamp frame counter f (R93) -/
  frame    : BitVec 32 := 0#32
  control  : Control := {}
  host     : HostPath := {}
  arbiter  : Arbiter := {}
  voice    : Voice := {}
  store    : Store := {}
  ring     : Ring := {}
  notices  : Notices := {}
  rating   : Rating := {}
  lamp     : LampEngine := {}
  out      : Outbox := {}
  /-- open choices made so far (model): the argument of the next `Config.freeChoice` -/
  choices  : Nat := 0
  deriving DecidableEq, Repr

/-- The machine after reset (R194): every on-chip value at the initial value its chapter gives. The
straps read 0 and the backing memory lists nothing (notes/assumptions/1.md, 2.md). -/
def State.reset : State := {}

end Sys2Proof.Machine
end

