-- ==== Sys2Proof/Machine/Table.lean ====
section
/-! DEFINITION. Tables, sets of marks, bytes and bit fields: the plain operations every block uses. -/

namespace Sys2Proof.Machine

/-! ### Tables -/

/-- What a table holds at `i`, `d` where it lists nothing. -/
def Table.get {α : Type} (d : α) : Table α → Nat → α
  | [], _ => d
  | (k, v) :: t, i => if k = i then v else Table.get d t i

/-- The table without an entry for `i`. -/
def Table.erase {α : Type} (t : Table α) (i : Nat) : Table α := t.filter fun e => e.1 ≠ i

/-- The table with an entry `(i, v)` put before the first greater key. -/
def Table.insert {α : Type} : Table α → Nat → α → Table α
  | [], i, v => [(i, v)]
  | (k, w) :: t, i, v => if i < k then (i, v) :: (k, w) :: t else (k, w) :: Table.insert t i v

/-- The table that holds `v` at `i`: writing the default removes the entry. -/
def Table.set {α : Type} [DecidableEq α] (d : α) (t : Table α) (i : Nat) (v : α) : Table α :=
  if v = d then Table.erase t i else Table.insert (Table.erase t i) i v

/-- Keys strictly rising. -/
def Table.rising {α : Type} : Table α → Bool
  | [] => true
  | [_] => true
  | (k, _) :: (k', v) :: t => decide (k < k') && Table.rising ((k', v) :: t)

/-- The canonical form: keys strictly rising, and no entry equal to what an unlisted key reads as. -/
def Table.wf {α : Type} [DecidableEq α] (d : α) (t : Table α) : Bool :=
  Table.rising t && t.all fun e => decide (e.2 ≠ d)

/-! ### Sets of marks -/

/-- The rising list with `i` in it. -/
def addMark : List Nat → Nat → List Nat
  | [], i => [i]
  | k :: t, i => if i < k then i :: k :: t else if i = k then k :: t else k :: addMark t i

/-- The list without `i`. -/
def dropMark (l : List Nat) (i : Nat) : List Nat := l.filter fun k => k ≠ i

/-! ### Bytes and bit fields -/

/-- A value in `n` bytes, lower-order byte first (12). -/
def le : Nat → Nat → List Byte
  | 0, _ => []
  | n + 1, v => BitVec.ofNat 8 v :: le n (v / 256)

/-- The value of bytes stored lower-order byte first (12). -/
def ofLe : List Byte → Nat
  | [] => 0
  | b :: bs => b.toNat + 256 * ofLe bs

/-- A signed value in `n` bytes, two's complement, lower-order byte first. -/
def leInt (n : Nat) (v : Int) : List Byte := le n (v % (256 ^ n : Nat)).toNat

/-- The signed value of a 16-bit field. -/
def signed16 (v : Nat) : Int := if v < 32768 then (v : Int) else (v : Int) - 65536

/-- The signed value of a 32-bit field. -/
def signed32 (v : Nat) : Int := if v < 2147483648 then (v : Int) else (v : Int) - 4294967296

/-- `n` bytes from offset `off`. -/
def slice (bs : List Byte) (off n : Nat) : List Byte := (bs.drop off).take n

/-- The byte at offset `off`, 00h past the end. -/
def byteAt (bs : List Byte) (off : Nat) : Byte := bs.getD off 0#8

/-- The unsigned field of `n` bytes at offset `off`. -/
def field (bs : List Byte) (off n : Nat) : Nat := ofLe (slice bs off n)

/-- `n` bytes of 00h: the unused bytes of a record the part writes (R196). -/
def zeros (n : Nat) : List Byte := List.replicate n 0#8

/-- One bit of a flags byte. -/
def bit (b : Bool) (n : Nat) : Nat := if b then 2 ^ n else 0

/-- A flag that fills a byte: 01h yes, 00h no, for the fields R195 names. DESIGN CHOICE (notes/assumptions/43.md): the
flags that R195 does not name take the same codes. -/
def boolByte (b : Bool) : List Byte := le 1 (bit b 0)

/-- Digits packed two to a byte, position 0 in the low nibble of the first byte (R113, R195), in `n`
bytes. DESIGN CHOICE (notes/assumptions/39.md): no rule says what the positions past the last digit hold; they hold 0. -/
def packDigits (ds : List Nat) : Nat → List Byte
  | 0 => []
  | n + 1 => BitVec.ofNat 8 (ds.getD 0 0 % 16 + 16 * (ds.getD 1 0 % 16)) :: packDigits (ds.drop 2) n

/-- The nibble of position `k`, low nibble first (R113). -/
def nibble (bs : List Byte) (k : Nat) : Nat :=
  if k % 2 = 0 then (byteAt bs (k / 2)).toNat % 16 else (byteAt bs (k / 2)).toNat / 16

/-- The first `n` nibbles. -/
def nibbles (bs : List Byte) (n : Nat) : List Nat := (List.range n).map (nibble bs)

/-- A count that stays at FFFFFFFFh once it reaches it. -/
def sat32 (n : Nat) : Nat := if n ≥ none32 then none32 else n + 1

/-- All lanes of a write enabled. -/
def allLanes (bs : List Byte) : List (Option Byte) := bs.map some

/-- The lanes of an 8-byte beat and its neighbours that carry `bs` from lane `lead` on, no other lane
enabled, `total` lanes in all. -/
def someLanes (lead : Nat) (bs : List Byte) (total : Nat) : List (Option Byte) :=
  List.replicate lead none ++ bs.map some ++ List.replicate (total - lead - bs.length) none

/-- The bytes with the enabled lanes put in from offset `off` on. -/
def putLanes (bs : List Byte) (off : Nat) : List (Option Byte) → List Byte
  | [] => bs
  | none :: ls => putLanes bs (off + 1) ls
  | some b :: ls => putLanes (bs.set off b) (off + 1) ls

/-! ### Backing memory -/

/-- What a byte of backing memory that nothing has written reads as (notes/assumptions/2.md). -/
def unwritten : Byte := 0#8

/-- A byte of backing memory; the port has 34 address bits (0.8). -/
def readByte (m : Table Byte) (a : Nat) : Byte := Table.get unwritten m (a % 2 ^ 34)

/-- `n` bytes from `a` on. -/
def readBytes (m : Table Byte) (a : Nat) : Nat → List Byte
  | 0 => []
  | n + 1 => readByte m a :: readBytes m (a + 1) n

/-- Memory after one byte is written. -/
def writeByte (m : Table Byte) (a : Nat) (b : Byte) : Table Byte := Table.set unwritten m (a % 2 ^ 34) b

/-- Memory after a write burst: a byte whose enable is clear keeps its value (R152). -/
def writeLanes (m : Table Byte) (a : Nat) : List (Option Byte) → Table Byte
  | [] => m
  | none :: ls => writeLanes m (a + 1) ls
  | some b :: ls => writeLanes (writeByte m a b) (a + 1) ls

/-- The canonical form of backing memory: addresses strictly rising, no entry that reads as an unlisted
address does. -/
def Memory.wf (m : Table Byte) : Bool := Table.wf unwritten m

end Sys2Proof.Machine
end

