-- ==== Sys2Proof/Machine/Ops.lean ====
section
/-! DEFINITION. The shared operations of a step: accessors of the arrays, raising a request or a notice,
open choices, and placing at the end of a step what the step has raised. -/

namespace Sys2Proof.Machine

/-! ### Arrays of the engines -/

def State.channel (s : State) (c : Nat) : Channel := Table.get {} s.voice.channels c
def State.setChannel (s : State) (c : Nat) (v : Channel) : State :=
  { s with voice.channels := Table.set {} s.voice.channels c v }

def State.message (s : State) (i : Nat) : Message := Table.get {} s.store.messages i
def State.setMessage (s : State) (i : Nat) (v : Message) : State :=
  { s with store.messages := Table.set {} s.store.messages i v }

def State.mailbox (s : State) (r : Nat) : Mailbox := Table.get {} s.store.mailboxes r
def State.setMailbox (s : State) (r : Nat) (v : Mailbox) : State :=
  { s with store.mailboxes := Table.set {} s.store.mailboxes r v }

def State.trunk (s : State) (t : Nat) : Trunk := Table.get {} s.rating.trunks t
def State.setTrunk (s : State) (t : Nat) (v : Trunk) : State :=
  { s with rating.trunks := Table.set {} s.rating.trunks t v }

def State.folios (s : State) (r : Nat) : RoomFolios := Table.get {} s.rating.folios r
def State.setFolios (s : State) (r : Nat) (v : RoomFolios) : State :=
  { s with rating.folios := Table.set {} s.rating.folios r v }

def State.lampOf (s : State) (r : Nat) : Lamp := Table.get {} s.lamp.lamps r
def State.setLamp (s : State) (r : Nat) (v : Lamp) : State :=
  { s with lamp.lamps := Table.set {} s.lamp.lamps r v }

def State.card (s : State) (k : Nat) : Card := Table.get {} s.lamp.cards k
def State.setCard (s : State) (k : Nat) (v : Card) : State :=
  { s with lamp.cards := Table.set {} s.lamp.cards k v }

def State.roomShadow (s : State) (r : Nat) : Shadow := Table.get {} s.host.rooms r
def State.setRoomShadow (s : State) (r : Nat) (v : Shadow) : State :=
  { s with host.rooms := Table.set {} s.host.rooms r v }

def State.trunkShadow (s : State) (t : Nat) : Shadow := Table.get {} s.host.trunks t
def State.setTrunkShadow (s : State) (t : Nat) (v : Shadow) : State :=
  { s with host.trunks := Table.set {} s.host.trunks t v }

def State.tariffShadow (s : State) (i : Nat) : Shadow := Table.get {} s.host.tariffs i
def State.setTariffShadow (s : State) (i : Nat) (v : Shadow) : State :=
  { s with host.tariffs := Table.set {} s.host.tariffs i v }

/-- The settings in use (R186). -/
def State.profile (s : State) : Profile := s.control.profile

/-- 64 rooms a floor (R71). -/
def State.roomCount (s : State) : Nat := 64 * s.profile.floors

/-- The part is ACTIVE. -/
def State.active (s : State) : Bool := decide (s.control.state = .active)

/-! ### Time -/

/-- The stamp of this moment (R181). -/
def State.stamp (s : State) : Stamp := ⟨s.time.day, s.time.clock, s.time.clockSet⟩

/-! ### Requesters and lines -/

def Lines.get (l : Lines) : Requester → List Request
  | .host => l.host
  | .voice => l.voice
  | .directory => l.directory
  | .rating => l.rating
  | .lamp => l.lamp

def Lines.set (l : Lines) (r : Requester) (v : List Request) : Lines :=
  match r with
  | .host => { l with host := v }
  | .voice => { l with voice := v }
  | .directory => { l with directory := v }
  | .rating => { l with rating := v }
  | .lamp => { l with lamp := v }

/-- The requester a source belongs to (9.1). -/
def Source.requester : Source → Requester
  | .hostPart | .hostTail | .loadRead | .validation _ | .activation | .pathStatus | .arbiterStatus => .host
  | .blockWrite .. | .headerPatch _ | .blockFetch .. | .offsetWalk _ => .voice
  | .push | .pop | .walkHeader | .record _ | .mailMirror | .takeRead | .executing _ | .completion _
  | .noticeSlot | .noticeHeader _ | .storeStatus | .ringStatus | .startWork => .directory
  | .folioQueue | .folioMirror | .ratingStatus | .folioStatus => .rating
  | .lampMirror | .linkHeader | .linkEntry _ => .lamp
  | .orphan => .host

/-- Which source of its requester raised a request: what one source raises keeps its order, and what two
sources raise at the same moment enters the line in either order (R164). A channel is one source
(R55); the order ring's writes are one, and so are the notice ring's. -/
def Source.key : Source → Nat
  | .hostPart | .hostTail | .loadRead | .validation _ => 0
  | .activation => 1
  | .pathStatus => 2
  | .arbiterStatus => 3
  | .blockWrite ch _ _ | .headerPatch ch | .blockFetch ch _ _ | .offsetWalk ch => ch
  | .push | .pop => 0
  | .walkHeader => 1
  | .record _ => 2
  | .mailMirror => 3
  | .takeRead | .executing _ | .completion _ => 4
  | .noticeSlot | .noticeHeader _ => 5
  | .storeStatus => 6
  | .ringStatus => 7
  | .startWork => 8
  | .folioQueue => 0
  | .folioMirror => 1
  | .ratingStatus => 2
  | .folioStatus => 3
  | .lampMirror => 0
  | .linkHeader | .linkEntry _ => 1
  | .orphan => 0

/-- Raise a request (R164): it is placed in its line when the step ends. -/
def raise (r : Request) (s : State) : State := { s with out.requests := s.out.requests ++ [r] }

/-- Raise requests of one source in order. -/
def raiseAll (rs : List Request) (s : State) : State := { s with out.requests := s.out.requests ++ rs }

/-! ### Notices -/

def NoticeKind.code : NoticeKind → Nat
  | .lampFault => 0 | .cardDown => 1 | .cardUp => 2 | .creditStop => 3 | .creditClear => 4
  | .lateCharge => 5 | .unbilledCharge => 6 | .unratedCall => 7 | .trunkSequence => 8
  | .folioDiscarded => 9 | .poolFull => 10 | .storeLow => 11 | .guard => 12 | .ringError => 13
  | .recordingStopped => 14 | .adoptRepair => 15

/-- The kind is enabled in the notice enable set (R183, R195: bit n enables the kind of code n). -/
def State.enabled (s : State) (k : NoticeKind) : Bool := s.profile.noticeEnable.getLsbD k.code

/-- Block `who` raises a notice (R183): it is stamped now, and a disabled kind is not queued. -/
def notify (who : Requester) (k : NoticeKind) (room detail1 detail2 : Nat) (s : State) : State :=
  if s.enabled k then
    { s with out.notices := s.out.notices ++ [(who, ⟨k, room, s.stamp, detail1, detail2⟩)] }
  else s

/-- A detail word of two items: the first in bits 0 to 15, the second in bits 16 to 31 (R195). -/
def twoItems (a b : Nat) : Nat := a % 65536 + 65536 * (b % 65536)

/-- A signed amount as a 32-bit detail word or field. -/
def word32 (v : Int) : Nat := (v % 4294967296).toNat

/-- The ATTN output (R184): asserted while the part is STARTING or ACTIVE and p differs from k. -/
def State.attn (s : State) : Bool :=
  decide (s.control.state ≠ .passive) && decide (s.notices.producer ≠ s.notices.consumer)

/-- The ready output of the host port (R150): held back while all 32 entries of the FIFO are in use. -/
def State.hostReady (s : State) : Bool := decide (s.host.fifo.length < Config.fifoDepth)

/-! ### Open choices -/

/-- The next open choice, below `n`; nothing is chosen among fewer than two. -/
def choose (n : Nat) (s : State) : Nat × State :=
  if n ≤ 1 then (0, s) else (Config.freeChoice s.choices % n, { s with choices := s.choices + 1 })

/-- The number of places a new element may take in a batch: after every element of its own source. -/
def lastOfKey {α : Type} (key : α → Nat) (k : Nat) : List α → Nat
  | [] => 0
  | x :: xs =>
    let n := lastOfKey key k xs
    if n = 0 then (if key x = k then 1 else 0) else n + 1

/-- Put what several sources raised at the same moment in some order: each source's own order is kept,
the rest is open (R164, R183). -/
def interleave {α : Type} (key : α → Nat) : List α → List α → State → List α × State
  | [], batch, s => (batch, s)
  | x :: xs, batch, s =>
    let low := lastOfKey key (key x) batch
    let (k, s') := choose (batch.length - low + 1) s
    interleave key xs (batch.insertIdx (low + k) x) s'

/-! ### Placing what a step has raised -/

/-- The notice ring header is written: its contents are taken at the grant (R184). -/
def headerRequest (advance : Bool) (s : State) : Request :=
  { source := .noticeHeader advance, write := true, addr := s.profile.noticeBase, beats := 4 }

/-- A notice is dropped (R184): the flag, the count, and the header again. -/
def dropNotice (s : State) : State :=
  raise (headerRequest false s)
    { s with notices.overflow := true, notices.dropped := sat32 s.notices.dropped }

/-- A notice reaches the queue, or is dropped when the queue holds 16 (R183). -/
def queueNotice (n : Notice) (s : State) : State :=
  if s.notices.queue.length < Config.noticeDepth then
    { s with notices.queue := s.notices.queue ++ [n] }
  else dropNotice s

def requesterIndex : Requester → Nat
  | .host => 0 | .voice => 1 | .directory => 2 | .rating => 3 | .lamp => 4

/-- The notices of the step reach the queue: those of one block in the order it raised them, those of
different blocks in either order (R183). -/
def commitNotices (s : State) : State :=
  let (batch, s1) := interleave (fun n : Requester × Notice => requesterIndex n.1) s.out.notices [] s
  batch.foldl (fun t n => queueNotice n.2 t) { s1 with out.notices := [] }

/-- The requests of the step that belong to `who` join its line (R164). DESIGN CHOICE (notes/assumptions/42.md): a source
that raises several bursts at one moment begins to wait once, for all of them; they stay ahead of what another source
raises later. -/
def commitLine (who : Requester) (rs : List Request) (s : State) : State :=
  let (batch, s1) :=
    interleave (fun r : Request => r.source.key) (rs.filter fun r => r.source.requester = who) [] s
  { s1 with arbiter.lines := s1.arbiter.lines.set who (s1.arbiter.lines.get who ++ batch) }

/-- Place what the step has raised; the outbox is empty afterwards. -/
def commit (s : State) : State :=
  let s1 := commitNotices s
  let rs := s1.out.requests
  let s2 := { s1 with out.requests := [] }
  [Requester.host, .voice, .directory, .rating, .lamp].foldl (fun t who => commitLine who rs t) s2

/-- A step begins with an empty outbox. -/
def beginStep (s : State) : State := { s with out := {} }

/-! ### Returned bursts -/

/-- The oldest acknowledged burst whose source satisfies `p` (R165: in grant order). -/
def State.returnOf (s : State) (p : Source → Bool) : Option Returned :=
  s.arbiter.returned.find? fun r => p r.source

/-- The list without its first element that satisfies `p`. -/
def dropFirst {α : Type} (p : α → Bool) : List α → List α
  | [] => []
  | x :: xs => if p x then xs else x :: dropFirst p xs

/-- The requester deals with the oldest acknowledged burst whose source satisfies `p`. -/
def takeReturn (p : Source → Bool) (s : State) : State :=
  { s with arbiter.returned := dropFirst (fun r => p r.source) s.arbiter.returned }

end Sys2Proof.Machine
end

