-- ==== Sys2Proof/Machine/Codec.lean ====
section
/-! DEFINITION. The voice code (chapter 1): the step table, coding a sample, decoding a code. -/

namespace Sys2Proof.Machine

/-- The step table (R1). -/
def stepTable : List Nat :=
  [8, 10, 12, 14, 16, 19, 22, 25, 29, 33, 38, 43, 49, 56, 64, 73] ++
  [83, 94, 106, 120, 136, 154, 174, 196, 221, 249, 281, 317, 357, 402, 453, 510] ++
  [574, 646, 727, 818, 921, 1037, 1167, 1313, 1478, 1663, 1871, 2105, 2369, 2666, 3000, 3376] ++
  [3799, 4274, 4809, 5411, 6088, 6850, 7707, 8671, 9755, 10975, 12347, 13891, 15628, 17582, 19780, 22253]

/-- The step of index `k` (R1). -/
def stepSize (k : Nat) : Nat := stepTable.getD k 22253

/-- The 4-bit code of sample `x` against prediction `p` and step index `i` (R3). -/
def encodeSample (p : Int) (i : Nat) (x : Int) : Nat :=
  let d := x - p
  let m := min 7 (2 * d.natAbs / stepSize i)
  if d < 0 then m + 8 else m

/-- The adjustment of the step index by magnitude (R4). -/
def indexAdjust : Nat → Int
  | 4 => 2
  | 5 => 4
  | 6 => 6
  | 7 => 8
  | _ => -1

/-- The quantised difference of magnitude `m` at step `s` (R4). -/
def quantised (m s : Nat) : Nat := (2 * m + 1) * s / 4

/-- An exact sum clamped to the sample range (R4). -/
def clampSample (v : Int) : Int := max (-32768) (min 32767 v)

/-- The new prediction (R4). -/
def nextPrediction (p : Int) (i code : Nat) : Int :=
  let dq : Int := quantised (code % 8) (stepSize i)
  clampSample (if code < 8 then p + dq else p - dq)

/-- The new step index, clamped to 0 to 63 (R4). -/
def nextIndex (i code : Nat) : Nat := (max 0 (min 63 ((i : Int) + indexAdjust (code % 8)))).toNat

end Sys2Proof.Machine
end

