-- ==== Sys2Proof/Machine/Layout.lean ====
section
/-! DEFINITION. The encodings of R195 and the record layouts of chapter 12. -/

namespace Sys2Proof.Machine

/-! ### Codes (R195) -/

/-- Room status as the part takes it (R72). -/
inductive RoomStatus where
  | vacant | occupied | outOfOrder
  deriving DecidableEq, Repr

/-- A byte that holds none of the three codes is taken as OUT-OF-ORDER (R72). -/
def roomStatusOf (b : Byte) : RoomStatus :=
  if b = 0#8 then .vacant else if b = 1#8 then .occupied else .outOfOrder

def MessageState.code : MessageState → Nat
  | .free => 0 | .recording => 1 | .new => 2 | .heard => 3 | .saved => 4 | .deleting => 5

/-- The message state of a record byte; none of the six codes gives `none` (R190). -/
def messageStateOf (b : Byte) : Option MessageState :=
  if b = 0#8 then some .free else if b = 1#8 then some .recording else if b = 2#8 then some .new
  else if b = 3#8 then some .heard else if b = 4#8 then some .saved else if b = 5#8 then some .deleting
  else none

def ChannelState.code : ChannelState → Nat
  | .free => 0 | .opening => 1 | .recording => 2 | .stopped => 3 | .closing => 4 | .playing => 5 | .ended => 6

def Direction.code : Direction → Nat
  | .none => 0 | .record => 1 | .play => 2

def StopReason.code : StopReason → Nat
  | .none => 0 | .storeFull => 1 | .quota => 2 | .length => 3 | .checkedOut => 4

def Pattern.code : Pattern → Nat
  | .off => 0 | .steady => 1 | .slow => 2 | .fast => 3

def Phase.code : Phase → Nat
  | .none => 0 | .a => 1 | .b => 2

def Override.code : Override → Nat
  | .none => 0 | .desk => 1 | .testOn => 2 | .testOff => 3

def overrideOf (n : Nat) : Option Override :=
  if n = 0 then some .none else if n = 1 then some .desk else if n = 2 then some .testOn
  else if n = 3 then some .testOff else none

def Latch.code : Latch → Nat
  | .none => 0 | .isOpen => 1 | .stuck => 2

def LinkState.code : LinkState → Nat
  | .up => 0 | .suspect => 1 | .down => 2 | .recovering => 3

def BadReason.code : BadReason → Nat
  | .none => 0 | .noReturn => 1 | .check => 2 | .wrongCard => 3

def ChargeKind.code : ChargeKind → Nat
  | .rated => 0 | .free => 1 | .unrated => 2 | .unanswered => 3 | .adjust => 4

def Status.code : Status → Nat
  | .done => 0 | .unknownOrder => 1 | .badParameter => 2 | .noChannel => 3 | .channelState => 4
  | .roomVacant => 5 | .mailboxFull => 6 | .tableFull => 7 | .noSuchMessage => 8 | .messageBusy => 9
  | .notReady => 10 | .storeFull => 11 | .quota => 12 | .tooShort => 13 | .noSuchFolio => 14

def PartState.code : PartState → Nat
  | .passive => 0 | .starting => 1 | .active => 2

def StoreLow.code : StoreLow → Nat
  | .armed => 0 | .raised => 1

def ActResult.code : ActResult → Nat
  | .none => 0 | .started => 1 | .overlap => 2 | .alignment => 3 | .range => 4 | .lists => 5
  | .refused => 6 | .stopped => 7

/-- The fourteen orders (10.6), 01h to 0Eh. -/
inductive Order where
  | recordOpen | recordClose | recordAbandon | playOpen | playClose | messageSave | messageMarkNew
  | messageDelete | mailboxPurge | lampOverride | lampFaultClear | folioAdjust | folioRelease | clockSet
  deriving DecidableEq, Repr

/-- The order a code names (R195): 00h and 0Fh to FFh name none. -/
def orderOf (code : Nat) : Option Order :=
  if code = 1 then some .recordOpen else if code = 2 then some .recordClose
  else if code = 3 then some .recordAbandon else if code = 4 then some .playOpen
  else if code = 5 then some .playClose else if code = 6 then some .messageSave
  else if code = 7 then some .messageMarkNew else if code = 8 then some .messageDelete
  else if code = 9 then some .mailboxPurge else if code = 10 then some .lampOverride
  else if code = 11 then some .lampFaultClear else if code = 12 then some .folioAdjust
  else if code = 13 then some .folioRelease else if code = 14 then some .clockSet else none

/-! ### Store records (12.4) -/

/-- The 8-byte block header: link word, start prediction, count and step index (R195, 12.4). -/
def blockHeader (next : Nat) (pred : Int) (index : Nat) (gap : Bool) (count : Nat) : List Byte :=
  le 4 (next % 2147483648 + (if gap then 0 else 2147483648)) ++ leInt 2 pred
    ++ le 2 (count % 1024 + 1024 * index)

/-- The next block field: all ones in bits 0 to 30 stand for none (R195). -/
def headerNext (h : List Byte) : Nat :=
  let n := field h 0 4 % 2147483648
  if n = 2147483647 then none32 else n

def headerPrediction (h : List Byte) : Int := signed16 (field h 4 2)

def headerIndex (h : List Byte) : Nat := field h 6 2 / 1024

/-- The sample count: 0, or above 1008, is taken as 1008 (R12). -/
def headerCount (h : List Byte) : Nat :=
  let n := field h 6 2 % 1024
  if n = 0 ∨ n > Config.blockSamples then Config.blockSamples else n

/-- The header with its next block field set to none, the gap flag and the rest kept (R58, R190). -/
def patchedHeader (h : List Byte) : List Byte :=
  le 4 (2147483647 + 2147483648 * (field h 0 4 / 2147483648)) ++ slice h 4 4

/-- The 64-byte message record (12.4). DESIGN CHOICE (notes/assumptions/39.md): bits of the flags byte that the layout does
not name are written 0. -/
def messageRecord (m : Message) : List Byte :=
  le 2 m.generation ++ le 1 m.state.code
    ++ le 1 (bit m.urgent 0 + bit m.gapped 1 + bit m.truncated 2 + bit m.damaged 3 + bit m.stamp.clockSet 4)
    ++ le 2 m.room ++ le 1 m.readers ++ le 1 m.digits.length
    ++ le 4 m.serial ++ le 2 m.stamp.day.toNat ++ le 2 m.next ++ le 4 m.stamp.clock
    ++ le 4 m.length ++ le 4 m.blocks ++ le 4 m.first
    ++ packDigits m.digits 10 ++ zeros 22

/-- A message record as ADOPT reads it (R190); the state is read apart. -/
def messageOfRecord (r : List Byte) (st : MessageState) : Message :=
  let flags := field r 3 1
  { generation := field r 0 2, state := st, room := field r 4 2
    urgent := flags.testBit 0, gapped := flags.testBit 1, truncated := flags.testBit 2
    damaged := flags.testBit 3
    serial := field r 8 4
    stamp := ⟨BitVec.ofNat 16 (field r 12 2), field r 16 4, flags.testBit 4⟩
    length := field r 20 4, blocks := field r 24 4, first := field r 28 4
    readers := field r 6 1, next := field r 14 2
    digits := nibbles (slice r 32 10) (field r 7 1) }

/-! ### Room part half (12.3) -/

/-- The head index of a mailbox (R34). -/
def Mailbox.head (m : Mailbox) : Nat := m.list.headD none16

/-- Bytes 64 to 79: the mailbox summary (R84). -/
def mailboxBytes (m : Mailbox) : List Byte :=
  le 1 m.newCount ++ le 1 m.urgentNew ++ le 1 m.heardCount ++ le 1 m.savedCount
    ++ le 1 m.places ++ zeros 1 ++ le 2 m.head ++ le 4 m.blocksUsed ++ zeros 4

/-- The head of a folio's list: none while it is empty (R136). -/
def Folio.head (f : Folio) : Nat := f.records.headD none32

/-- The tail of a folio's list: none while it is empty (R136). -/
def Folio.tail (f : Folio) : Nat := f.records.getLastD none32

/-- The record count of a folio (R136). -/
def Folio.count (f : Folio) : Nat := f.records.length

/-- One place of the folio summary: serial, total, low halves of count, head and tail; an absent place
has serial, total and count 0 and no head or tail (R147, R195). -/
def folioPlaceBytes : Option Folio → List Byte
  | none => le 4 0 ++ le 4 0 ++ le 2 0 ++ le 2 none16 ++ le 2 none16
  | some f => le 4 f.serial ++ leInt 4 f.total ++ le 2 f.count ++ le 2 f.head ++ le 2 f.tail

/-- Bytes 80 to 111: the folio summary (R84, R195); bit 7 of byte 80, which no layout names, is written 0
(notes/assumptions/39.md). -/
def folioBytes (r : RoomFolios) : List Byte :=
  let inc (o : Option Folio) := o.any fun f => f.incomplete
  let big (o : Option Folio) := o.any fun f => f.count.testBit 16
  let late := match r.closed with | some f => f.late | none => 0
  le 1 (bit r.opened.isSome 0 + bit (inc r.opened) 1 + bit r.closed.isSome 2 + bit (inc r.closed) 3
      + bit r.barred 4 + bit (big r.opened) 5 + bit (big r.closed) 6)
    ++ zeros 1 ++ le 2 late ++ folioPlaceBytes r.opened ++ folioPlaceBytes r.closed

/-- Bytes 112 to 127: the lamp status and zeros (R82, R107). -/
def lampBytes (l : Lamp) : List Byte :=
  le 1 l.pattern.code ++ le 1 l.phase.code ++ le 1 l.override.code ++ le 1 l.latch.code ++ zeros 12

/-! ### Charge record (12.5) -/

/-- The 64-byte charge record (12.5); bits 5 to 7 of the flags byte, which no layout names, are written 0
(notes/assumptions/39.md). -/
def chargeRecord (c : Charge) (next : Nat) : List Byte :=
  le 1 c.kind.code
    ++ le 1 (bit c.implicit 0 + bit c.missed 1 + bit c.clockUnset 2 + bit c.late 3 + bit c.stamp.clockSet 4)
    ++ le 2 c.trunk ++ le 2 c.room ++ le 2 c.tariff ++ le 1 (bit c.night 0) ++ le 1 c.digits.length
    ++ le 2 c.reason ++ le 4 c.serial ++ le 2 c.stamp.day.toNat ++ zeros 2 ++ le 4 c.stamp.clock
    ++ le 4 c.duration ++ le 4 c.pulses ++ le 4 c.base ++ le 4 c.marked ++ leInt 4 c.amount
    ++ packDigits c.digits 12 ++ zeros 4 ++ le 4 next

/-! ### Order slot (12.6) -/

/-- The parameter field of `n` bytes at slot offset `off`. -/
def param (copy : List Byte) (off n : Nat) : Nat := field copy off n

/-- Result bytes filled up to the 32 of the slot. -/
def results (bs : List Byte) : List Byte := bs ++ zeros (32 - bs.length)

/-- The slot as the part writes it: the given state, the order code, host tag and parameters as read,
the status, the DEFERRED flag and the results (R175, R177); bits 1 to 7 of byte 5, which no layout names, are written 0
(notes/assumptions/39.md). -/
def slotBytes (copy : List Byte) (state : Nat) (status : Status) (deferred : Bool) (res : List Byte) :
    List Byte :=
  le 1 state ++ slice copy 1 3 ++ le 1 status.code ++ le 1 (bit deferred 0) ++ zeros 2
    ++ slice copy 8 24 ++ results res

/-! ### Notices and channel status (12.7) -/

def noticeBytes (n : Notice) : List Byte :=
  le 1 n.kind.code ++ zeros 1 ++ le 2 n.room ++ le 2 n.stamp.day.toNat ++ boolByte n.stamp.clockSet
    ++ zeros 1 ++ le 4 n.stamp.clock ++ le 4 n.detail1 ++ le 4 n.detail2 ++ zeros 12

/-- The part's 32 bytes of the ring header (R160, R184). -/
def headerBytes (producer : Nat) (overflow : Bool) (dropped slots : Nat) : List Byte :=
  le 4 producer ++ boolByte overflow ++ zeros 3 ++ le 4 dropped ++ le 4 slots ++ zeros 16

/-- The 64-byte channel status record (R69). -/
def channelStatus (c : Channel) (held : Nat) : List Byte :=
  le 1 c.state.code ++ le 1 c.dir.code ++ le 1 c.stopReason.code ++ boolByte c.checkedOut
    ++ le 2 c.index ++ le 2 c.generation ++ le 2 c.room ++ zeros 2
    ++ le 4 c.position ++ le 4 c.accepted ++ le 4 c.dropped ++ le 4 c.refused
    ++ le 4 c.underruns ++ le 4 c.pastEnd ++ le 4 held ++ zeros 24

/-! ### Lamp link frames (12.8) -/

/-- One bit of the CRC-8 of R97. -/
def crcShift (c : BitVec 8) : BitVec 8 := if c.msb then (c <<< 1) ^^^ 0x07#8 else c <<< 1

/-- The CRC-8 after one more byte, most significant bit first (R97). -/
def crcByte (c : BitVec 8) (b : Byte) : BitVec 8 :=
  crcShift (crcShift (crcShift (crcShift (crcShift (crcShift (crcShift (crcShift (c ^^^ b))))))))

/-- The check of R97: polynomial 07h, initial value 00h, no inversion. -/
def crc8 (bs : List Byte) : BitVec 8 := bs.foldl crcByte 0#8

/-- The output frame of a card (R97, 12.8). -/
def outputFrame (card : Nat) (drive : BitVec 64) : List Byte :=
  let body := le 1 card ++ le 8 drive.toNat
  body ++ [crc8 body]

/-- The link status entry of a card (12.2); bits 4 to 6 of its byte 1, which no layout names, are written 0
(notes/assumptions/39.md). -/
def linkEntryBytes (c : Card) : List Byte :=
  let shown (n : Nat) := le 3 (if n < 0xFFFFFF then n else 0xFFFFFF)
  le 1 (c.link.code + 16 * c.run) ++ le 1 (c.reason.code + 128 * bit c.supplyGood 0)
    ++ le 8 c.sense.toNat ++ shown c.good ++ shown c.bad

end Sys2Proof.Machine
end

