-- ==== Sys2Proof/Machine/Region.lean ====
section
/-! DEFINITION. Regions and classes of access (8.3, 8.4), the fields the host path shadows, and the
observations a write carries (8.5). -/

namespace Sys2Proof.Machine

/-- The regions of R153. -/
inductive Region where
  | unlisted | profile | aperture | room | trunk | tariff | order | notice
  | message | pool | stack | store
  deriving DecidableEq, Repr

/-- The profile block lies at s × 1 GiB (R153). -/
def State.profileBlock (s : State) : Nat := s.straps.toNat * 1073741824

/-- The regions with their bases and lengths (R153). -/
def regionsOf (block : Nat) (p : Profile) : List (Region × Nat × Nat) :=
  [(.profile, block, 4096), (.aperture, p.apertureBase, Config.apertureSpace),
   (.room, p.roomBase, 8192 * p.floors), (.trunk, p.trunkBase, 64 * p.trunks),
   (.tariff, p.tariffBase, 64 * p.tariffs), (.order, p.orderBase, 64 * p.orderSlots),
   (.notice, p.noticeBase, 64 + 32 * p.noticeSlots), (.message, p.messageBase, 64 * p.records),
   (.pool, p.poolBase, 64 * p.poolRecords), (.stack, p.stackBase, 4 * p.blocks),
   (.store, p.storeBase, 512 * p.blocks)]

/-- The region a byte lies in, and its offset in the region. -/
def findRegion (a : Nat) : List (Region × Nat × Nat) → Region × Nat
  | [] => (.unlisted, a)
  | (r, base, len) :: rest => if base ≤ a ∧ a < base + len then (r, a - base) else findRegion a rest

/-- The region of address `a` with the regions in force (R153). -/
def State.regionOf (s : State) (a : Nat) : Region × Nat :=
  findRegion a (regionsOf s.profileBlock s.profile)

/-- How a byte of a host write is treated (R155). The number is the GUARD region kind (R156, R195). -/
inductive WriteClass where
  | passes
  | guarded (kind : Nat)
  | flagRequest
  | aperture
  deriving DecidableEq, Repr

/-- The class of one byte of a host write while STARTING or ACTIVE (R155). -/
def State.writeClass (s : State) (a : Nat) : WriteClass :=
  match s.regionOf a with
  | (.profile, off) => if off < 2048 then .passes else .guarded 1
  | (.room, off) => if off % 128 < 64 then .passes else .guarded 2
  | (.notice, off) =>
    if 32 ≤ off ∧ off < 36 then .passes else if off = 4 then .flagRequest else .guarded 3
  | (.message, _) => .guarded 4
  | (.pool, _) => .guarded 5
  | (.stack, _) => .guarded 6
  | (.store, _) => .guarded 7
  | (.aperture, _) => .aperture
  | (.unlisted, _) | (.trunk, _) | (.tariff, _) | (.order, _) => .passes

/-- The class of a byte under the part state its request was classed with: PASSIVE classes nothing
(R162). -/
def State.classUnder (s : State) (mode : PartState) (a : Nat) : WriteClass :=
  if mode = .passive then .passes else s.writeClass a

/-! ### Parts of a request (R152) -/

/-- The starting address with its low three bits taken as 0 (R150). -/
def reqStart (r : HostRequest) : Nat := 8 * (r.addr.toNat / 8)

/-- The lanes of a request that carry a byte of the address space (R150, R154). DESIGN CHOICE (notes/assumptions/6.md):
a lane past its end carries no byte, and takes no part in what the request does. -/
def reqLanes (r : HostRequest) : List (Option Byte) := r.lanes.take (Config.addressSpace - reqStart r)

/-- The lanes of a request past the end of the address space. -/
def pastLanes (r : HostRequest) : List (Option Byte) := r.lanes.drop (Config.addressSpace - reqStart r)

/-- One or two parts, one for each line, in rising address order (R152). -/
def reqParts (r : HostRequest) : List Part :=
  let first := 64 - reqStart r % 64
  if (reqLanes r).length ≤ first then [⟨reqStart r, reqLanes r⟩]
  else [⟨reqStart r, (reqLanes r).take first⟩, ⟨reqStart r + first, (reqLanes r).drop first⟩]

/-- The enabled bytes of a run of lanes with their addresses. -/
def enabledFrom : Nat → List (Option Byte) → List (Nat × Byte)
  | _, [] => []
  | a, none :: ls => enabledFrom (a + 1) ls
  | a, some b :: ls => (a, b) :: enabledFrom (a + 1) ls

/-- The enabled bytes of a request, in rising address order. -/
def reqEnabled (r : HostRequest) : List (Nat × Byte) := enabledFrom (reqStart r) (reqLanes r)

/-- The lanes of a part that go on to memory: bytes masked, dropped or consumed lose their enable (R152). -/
def State.passing (s : State) (mode : PartState) : Nat → List (Option Byte) → List (Option Byte)
  | _, [] => []
  | a, l :: ls => (if s.classUnder mode a = .passes then l else none) :: State.passing s mode (a + 1) ls

/-- A part lies wholly in the voice aperture space or wholly outside it, the space being 1 MiB aligned. -/
def State.inAperture (s : State) (mode : PartState) (p : Part) : Bool :=
  decide (s.classUnder mode p.addr = .aperture)

/-- The masked or dropped bytes of a write that count as guarded, lowest first (R156). -/
def State.guardedBytes (s : State) (mode : PartState) (r : HostRequest) : List (Nat × Nat) :=
  (reqEnabled r).filterMap fun e =>
    match s.classUnder mode e.1 with
    | .guarded kind => some (e.1, kind)
    | _ => none

/-- A byte of a write that is masked or dropped (R155); a byte of the voice aperture space is consumed. -/
def WriteClass.masks : WriteClass → Bool
  | .guarded _ | .flagRequest => true
  | .passes | .aperture => false

/-- How many bytes of a write are masked or dropped: the count a GUARD carries (R156). -/
def State.maskedCount (s : State) (mode : PartState) (r : HostRequest) : Nat :=
  ((reqEnabled r).filter fun e => (s.classUnder mode e.1).masks).length

/-! ### Shadowed fields -/

/-- The bytes of a room host half that are shadowed (R73, 12.3). -/
def roomField (off : Nat) : Bool := off = 0 || off = 1 || (decide (4 ≤ off) && decide (off < 12))

/-- The bytes of a trunk entry that are shadowed (R112, 12.3). -/
def trunkField (off : Nat) : Bool := decide (off < 5) || (decide (8 ≤ off) && decide (off < 20))

/-- The bytes of a tariff entry that are shadowed (R123, 12.3). -/
def tariffField (off : Nat) : Bool := off = 0 || off = 1 || (decide (4 ≤ off) && decide (off < 44))

/-- A line read by a load, reduced to its shadowed bytes (R85, R132). -/
def loadedBytes (isField : Nat → Bool) (line : List Byte) : List Byte :=
  (List.range 64).map fun k => if isField k then byteAt line k else 0#8

/-- Shadow bytes after the enabled bytes of a write, given with their offsets (R74, R112, R123). -/
def mergeBytes (isField : Nat → Bool) (bytes : List Byte) (es : List (Nat × Byte)) : List Byte :=
  es.foldl (fun bs e => if isField e.1 then bs.set e.1 e.2 else bs) bytes

/-! #### Room fields as the part takes them (R72) -/

def Shadow.status (h : Shadow) : RoomStatus := roomStatusOf (byteAt h.bytes 0)
def Shadow.lampPresent (h : Shadow) : Bool := decide (byteAt h.bytes 1 = 1#8)
def Shadow.creditLimit (h : Shadow) : Nat := field h.bytes 4 4
def Shadow.quota (h : Shadow) : Nat := field h.bytes 8 4

/-- A room is OCCUPIED, read from its loaded shadow (R72, R73). -/
def State.occupied (s : State) (r : Nat) : Bool :=
  (s.roomShadow r).loaded && decide ((s.roomShadow r).status = .occupied)

/-! #### Trunk fields as the part takes them (R111, R113) -/

def Shadow.trunkIncoming (h : Shadow) : Bool := decide (byteAt h.bytes 1 = 1#8)
def Shadow.trunkRoom (h : Shadow) : Nat := field h.bytes 2 2

/-- A digit string: positions below `n`, up to the first nibble of 12 to 15 (R113). -/
def digitString (bs : List Byte) (n : Nat) : List Nat := (nibbles bs n).takeWhile fun d => decide (d < 12)

/-- The dialled number (R113); the digit count is at most 24 (R111). -/
def Shadow.trunkDigits (h : Shadow) : List Nat :=
  digitString (slice h.bytes 8 12) (min 24 (byteAt h.bytes 4).toNat)

/-! #### Tariff fields as the part takes them (R122) -/

def Shadow.inService (h : Shadow) : Bool := decide (byteAt h.bytes 0 = 1#8)
def Shadow.prefixLength (h : Shadow) : Nat := min 16 (byteAt h.bytes 1).toNat
/-- The prefix: nibbles of 12 to 15 stay in it, and match no dialled digit (R122). -/
def Shadow.prefixDigits (h : Shadow) : List Nat := nibbles (slice h.bytes 4 8) h.prefixLength
def Shadow.grace (h : Shadow) : Nat := field h.bytes 12 2
def Shadow.firstPeriod (h : Shadow) : Nat := max 1 (field h.bytes 14 2)
def Shadow.pulsePeriod (h : Shadow) : Nat := max 1 (field h.bytes 16 2)
def Shadow.surcharge (h : Shadow) : Nat := min 50000 (field h.bytes 18 2)
def Shadow.connectionFee (h : Shadow) : Nat := field h.bytes 20 4
def Shadow.firstCharge (h : Shadow) (night : Bool) : Nat := field h.bytes (if night then 28 else 24) 4
def Shadow.pulseCharge (h : Shadow) (night : Bool) : Nat := field h.bytes (if night then 36 else 32) 4
def Shadow.cap (h : Shadow) : Nat := field h.bytes 40 4

/-! ### Observations (R157) -/

/-- What a write carries for an owner (R157): offsets are within the entry, the line or the word. -/
inductive Observation where
  | activation (value : Nat)
  | room (code : Nat) (es : List (Nat × Byte))
  | trunk (number : Nat) (es : List (Nat × Byte))
  | tariff (index : Nat) (es : List (Nat × Byte))
  | slot (index : Nat) (value : Byte)
  | clearOverflow
  | consumer (value : Nat)
  deriving DecidableEq, Repr

/-- The 4-byte word at `a` with the enabled bytes of the write put in: the bytes the write leaves out
are those of memory (notes/assumptions/9.md). -/
def State.mergedWord (s : State) (a : Nat) (es : List (Nat × Byte)) : Nat :=
  ofLe ((List.range 4).map fun k =>
    match es.find? fun e => e.1 = a + k with
    | some e => e.2
    | none => readByte s.mem (a + k))

/-- The observations of the part of a write that lies in one line, in rising address order (R157). -/
def State.observe (s : State) (es : List (Nat × Byte)) : List Observation :=
  match es with
  | [] => []
  | (a, b) :: _ =>
    let rel (base : Nat) := es.map fun e => (e.1 - base, e.2)
    let lineStart := 64 * (a / 64)
    match s.regionOf lineStart with
    | (.profile, 0) =>
      if es.any fun e => decide (e.1 < lineStart + 4) then [.activation (s.mergedWord lineStart es)] else []
    | (.room, off) => if off % 128 = 0 then [.room (off / 128) (rel lineStart)] else []
    | (.trunk, off) => [.trunk (off / 64) (rel lineStart)]
    | (.tariff, off) => [.tariff (off / 64) (rel lineStart)]
    | (.order, off) => if a = lineStart then [.slot (off / 64) b] else []
    | (.notice, 0) =>
      (if es.any fun e => decide (e.1 = lineStart + 4) then [.clearOverflow] else []) ++
      (if es.any fun e => decide (lineStart + 32 ≤ e.1 ∧ e.1 < lineStart + 36)
        then [.consumer (s.mergedWord (lineStart + 32) es)] else [])
    | _ => []

/-- In PASSIVE only the activation word is observed (R162). -/
def Observation.passive : Observation → Bool
  | .activation _ => true
  | _ => false

/-- The observations a write carries, in rising address order (R157, R162). -/
def State.observations (s : State) (mode : PartState) (r : HostRequest) : List Observation :=
  let all := (reqParts r).flatMap fun p => s.observe (enabledFrom p.addr p.lanes)
  if mode = .passive then all.filter Observation.passive else all

/-! ### What a room write changes (R74, R75) -/

/-- The shadow of a room after a write of its host half (R74). -/
def State.roomAfter (s : State) (room : Nat) (es : List (Nat × Byte)) : Shadow :=
  let h := s.roomShadow room
  { h with bytes := mergeBytes roomField h.bytes es }

/-- A check-in (R75). -/
def isCheckIn (old new : Shadow) : Bool :=
  decide (old.status ≠ .occupied) && decide (new.status = .occupied)

/-- A checkout (R75). -/
def isCheckout (old new : Shadow) : Bool :=
  decide (old.status = .occupied) && decide (new.status ≠ .occupied)

end Sys2Proof.Machine
end

