-- ==== Sys2Proof/Machine/Pattern.lean ====
section
/-! DEFINITION. The pattern and phase of a lamp (5.2), and the pending marks of the three mirror writers
(R83). -/

namespace Sys2Proof.Machine

/-- Mark the room's mailbox summary for a mirror write (R36, R83). -/
def markMail (r : Nat) (s : State) : State := { s with store.marks := addMark s.store.marks r }

/-- Mark the room's folio summary for a mirror write (R83, R147). -/
def markFolio (r : Nat) (s : State) : State := { s with rating.marks := addMark s.rating.marks r }

/-- Mark the room's lamp status for a mirror write (R83, R107). -/
def markLamp (r : Nat) (s : State) : State := { s with lamp.marks := addMark s.lamp.marks r }

/-- The effective pattern: the first line of R90's table that matches. -/
def effectivePattern (o : Override) (present occupied : Bool) (m : Mailbox) : Pattern :=
  if o = .testOn then .steady
  else if o = .testOff then .off
  else if !present then .off
  else if !occupied then .off
  else if m.urgentNew > 0 then .fast
  else if m.newCount > 0 then .steady
  else if o = .desk then .slow
  else .off

/-- The pattern of a room as its state stands (R90). -/
def State.patternOf (s : State) (r : Nat) : Pattern :=
  effectivePattern (s.lampOf r).override (s.roomShadow r).lampPresent (s.occupied r) (s.mailbox r)

/-- The phase count of a card for a pattern and phase (R89). -/
def Card.count (c : Card) : Pattern → Phase → Nat
  | .fast, .a => c.fastA
  | .fast, .b => c.fastB
  | .slow, .a => c.slowA
  | .slow, .b => c.slowB
  | _, _ => 0

/-- The card with that phase count changed. -/
def Card.withCount (c : Card) (p : Pattern) (ph : Phase) (n : Nat) : Card :=
  match p, ph with
  | .fast, .a => { c with fastA := n }
  | .fast, .b => { c with fastB := n }
  | .slow, .a => { c with slowA := n }
  | .slow, .b => { c with slowB := n }
  | _, _ => c

/-- A lamp leaves its pattern and phase: the count falls by 1 (R91). -/
def Card.leave (c : Card) (p : Pattern) (ph : Phase) : Card := c.withCount p ph (c.count p ph - 1)

/-- A lamp enters a pattern and phase: the count rises by 1 (R92). -/
def Card.enter (c : Card) (p : Pattern) (ph : Phase) : Card := c.withCount p ph (c.count p ph + 1)

/-- The phase given to a lamp that enters a pattern: that of fewer holders, A on a tie; none for OFF and
STEADY (R91, R92). -/
def phaseFor (c : Card) (p : Pattern) : Phase :=
  match p with
  | .fast | .slow => if c.count p .b < c.count p .a then .b else .a
  | _ => .none

/-- Compute a room's pattern again (R91). -/
def recomputeLamp (r : Nat) (s : State) : State :=
  let l := s.lampOf r
  let p := s.patternOf r
  if p = l.pattern then s
  else
    let c := (s.card (r / 64)).leave l.pattern l.phase
    let ph := phaseFor c p
    markLamp r ((s.setCard (r / 64) (c.enter p ph)).setLamp r { l with pattern := p, phase := ph })

/-- Set a room's override and compute its pattern (R104). -/
def setOverride (o : Override) (r : Nat) (s : State) : State :=
  let l := s.lampOf r
  let s1 := if l.override = o then s else markLamp r (s.setLamp r { l with override := o })
  recomputeLamp r s1

/-- Check-in and checkout clear a DESK override, compute the pattern and mark a mirror write (R77, R79). -/
def clearDesk (r : Nat) (s : State) : State :=
  let l := s.lampOf r
  let s1 := if l.override = .desk then s.setLamp r { l with override := .none } else s
  markLamp r (recomputeLamp r s1)

end Sys2Proof.Machine
end

