-- ==== Sys2Proof/Machine/Store.lean ====
section
/-! DEFINITION. The message store and mailboxes (chapter 2): free blocks, takes, message records, lists,
releases. -/

namespace Sys2Proof.Machine

/-! ### Free blocks (2.3, 2.4) -/

/-- The first address past the free-stack region (R19). -/
def State.stackTop (s : State) : Addr := BitVec.ofNat 34 (s.profile.stackBase + 4 * s.profile.blocks)

/-- The stack count, from the pointer (R19). -/
def State.stackCount (s : State) : Nat := (s.stackTop - 4#34 - s.store.stackPtr).toNat / 4

/-- The free count (R20). -/
def State.freeCount (s : State) : Nat :=
  s.stackCount + s.store.pocket.length + s.store.pushLine.length

/-- Remove the topmost ready entry of the pocket; an arriving entry above it stays (R21). -/
def takeReady : List PocketEntry → Option (Nat × List PocketEntry)
  | [] => none
  | .ready b :: t => some (b, t)
  | .arriving :: t => (takeReady t).map fun r => (r.1, .arriving :: r.2)

/-- The topmost arriving entry becomes ready with the number read (R21; at most one arrives at a time). -/
def arrive (b : Nat) : List PocketEntry → List PocketEntry
  | [] => []
  | .arriving :: t => .ready b :: t
  | .ready n :: t => .ready n :: arrive b t

/-! ### Message records (2.8) -/

/-- Raise the write of a message record, unless one is pending: a pending write carries the newer
contents, taken at its grant (R30). -/
def recordWrite (i : Nat) (s : State) : State :=
  if (s.arbiter.lines.directory ++ s.out.requests).any fun r => decide (r.source = .record i) then s
  else raise { source := .record i, write := true, addr := s.profile.messageBase + 64 * i, beats := 8 } s

/-- Change a message record and raise its write (R30). -/
def updateMessage (i : Nat) (m : Message) (s : State) : State := recordWrite i (s.setMessage i m)

/-- A record becomes FREE (R29): generation kept, next none, marked free unless retired (R30). -/
def freeRecord (i : Nat) (s : State) : State :=
  let m := s.message i
  let s1 := updateMessage i { m with state := .free, next := none16 } s
  if m.generation ≥ 65535 then s1 else { s1 with store.freeRecords := addMark s1.store.freeRecords i }

/-! ### Mailbox lists (2.9) -/

/-- A message in NEW, HEARD or SAVED is listed (R34). -/
def MessageState.listed : MessageState → Bool
  | .new | .heard | .saved => true
  | _ => false

/-- The class of a listed message in play order (R34). -/
def Message.playClass (m : Message) : Nat :=
  match m.state with
  | .new => if m.urgent then 0 else 1
  | .heard => 2
  | _ => 3

/-- Play order: class, then arrival serial, then record index (R34). -/
def playBefore (a : Message) (i : Nat) (b : Message) (j : Nat) : Bool :=
  decide (a.playClass < b.playClass) ||
  (decide (a.playClass = b.playClass) &&
    (decide (a.serial < b.serial) || (decide (a.serial = b.serial) && decide (i < j))))

/-- Put a message into a list in play order (R34). -/
def insertPlay (s : State) (i : Nat) : List Nat → List Nat
  | [] => [i]
  | j :: t => if playBefore (s.message i) i (s.message j) j then i :: j :: t else j :: insertPlay s i t

/-- The index that follows `i` in a list: none for the last, and for one not listed (R36). -/
def successor : List Nat → Nat → Nat
  | [], _ => none16
  | [_], _ => none16
  | j :: k :: t, i => if i = j then k else successor (k :: t) i

/-- Write the next index of a message whose successor has changed (R36). -/
def relink (list : List Nat) (i : Nat) (s : State) : State :=
  let m := s.message i
  if m.next = successor list i then s else updateMessage i { m with next := successor list i } s

/-- How many messages of a list satisfy `p`. -/
def countListed (s : State) (p : Message → Bool) (list : List Nat) : Nat :=
  (list.filter fun i => p (s.message i)).length

/-- The summary with the counts of its list (R34). -/
def recounted (s : State) (b : Mailbox) (list : List Nat) : Mailbox :=
  { b with
    list := list
    newCount := countListed s (fun m => decide (m.state = .new)) list
    urgentNew := countListed s (fun m => decide (m.state = .new) && m.urgent) list
    heardCount := countListed s (fun m => decide (m.state = .heard)) list
    savedCount := countListed s (fun m => decide (m.state = .saved)) list }

/-- The four counts of a summary. -/
def Mailbox.counts (b : Mailbox) : Nat × Nat × Nat × Nat :=
  (b.newCount, b.urgentNew, b.heardCount, b.savedCount)

/-- After a change to a room's list (R36): next indexes, counts, mirror mark, and the lamp when any of the
four counts changed. DESIGN CHOICE (notes/assumptions/30.md): R36 names the records written and no order among them;
the record of the message that moved is raised first, then those whose successor changed in the order of the old
list, all as one source. -/
def setList (r : Nat) (list : List Nat) (s : State) : State :=
  let old := s.mailbox r
  let s1 := (old.list ++ list).foldl (fun t i => relink list i t) s
  let new := recounted s1 old list
  let s2 := markMail r (s1.setMailbox r new)
  if new.counts = old.counts then s2 else recomputeLamp r s2

/-- Change the places of a room (R34, R36). -/
def setPlaces (r n : Nat) (s : State) : State :=
  markMail r (s.setMailbox r { s.mailbox r with places := n })

/-- Change the blocks used of a room (R35, R36). -/
def setBlocksUsed (r n : Nat) (s : State) : State :=
  markMail r (s.setMailbox r { s.mailbox r with blocksUsed := n })

/-- A listed message takes a new listed state and moves to its place (R34, R39, R40). -/
def moveMessage (i : Nat) (st : MessageState) (s : State) : State :=
  let m := s.message i
  let s1 := updateMessage i { m with state := st } s
  setList m.room (insertPlay s1 i ((s1.mailbox m.room).list.filter fun j => j ≠ i)) s1

/-! ### Taking a block (2.5) -/

/-- The answer to a take request (R23). -/
inductive TakeAnswer where
  | block (b : Nat)
  | refused (status : Status)
  | wait
  deriving DecidableEq, Repr

/-- The quota of a room (R35). -/
def State.quotaOf (s : State) (r : Nat) : Nat :=
  let q := (s.roomShadow r).quota
  if q = 0 then s.profile.defaultQuota else q

/-- Steps 1 and 2 of R23: the refusal they give, if any. -/
def State.takeRefusal (s : State) (r : Nat) (urgent : Bool) : Option Status :=
  if s.freeCount ≤ (if urgent then 0 else s.profile.reserve) then some .storeFull
  else if (s.mailbox r).blocksUsed + 1 > s.quotaOf r then some .quota
  else none

/-- The store-low state after a take from free count `n` (R25). -/
def storeLowAfterTake (n : Nat) (s : State) : State :=
  let t := s.profile.storeLowLevel
  if s.store.storeLow = .armed ∧ n ≥ t ∧ n - 1 < t then
    notify .directory .storeLow none16 (n - 1) t { s with store.storeLow := .raised }
  else s

/-- Evaluate a take request for message `i` (R23): the answer, and the state with the block taken. -/
def evalTake (i : Nat) (s : State) : TakeAnswer × State :=
  let m := s.message i
  match s.takeRefusal m.room m.urgent with
  | some st => (.refused st, s)
  | none =>
    match takeReady s.store.pocket with
    | none => (.wait, s)
    | some (b, pocket) =>
      let n := s.freeCount
      let s1 := { s with store.pocket := pocket }
      let s2 := updateMessage i
        { m with blocks := m.blocks + 1, first := if m.first = none32 then b else m.first } s1
      (.block b, storeLowAfterTake n (setBlocksUsed m.room ((s.mailbox m.room).blocksUsed + 1) s2))

/-! ### Releasing (2.7, 2.10) -/

/-- A block is released: to the top of the pocket, or to the line of pushes when the pocket holds 16
(R22). The free count rises, and the store-low state is armed again at the threshold (R25). -/
def releaseBlock (b : Nat) (s : State) : State :=
  let s1 :=
    if s.store.pocket.length < Config.pocketDepth then
      { s with store.pocket := .ready b :: s.store.pocket }
    else { s with store.pushLine := s.store.pushLine ++ [b] }
  if s1.freeCount ≥ s1.profile.storeLowLevel then { s1 with store.storeLow := .armed } else s1

/-- The address of a store block (R7). -/
def State.blockAddr (s : State) (b : Nat) : Nat := s.profile.storeBase + 512 * b

/-- The walk takes the header of the block in hand, in a single-beat read burst (R27). -/
def raiseWalk (w : Walk) (s : State) : State :=
  raise { source := .walkHeader, write := false, addr := s.blockAddr w.block, beats := 1 }
    { s with store.walk := some w }

/-- Start the walk of the oldest entry when none is running (R27). -/
def startWalk (s : State) : State :=
  match s.store.walk, s.store.releaseQueue with
  | none, e :: _ => raiseWalk ⟨e.first, e.count⟩ s
  | _, _ => s

/-- Free places of the release queue (R26). -/
def State.freePlaces (s : State) : Nat := Config.releaseDepth - s.store.releaseQueue.length

/-- Places are granted at once when enough are free and no earlier request waits (R26). -/
def State.grantsAtOnce (s : State) (n : Nat) : Bool :=
  n = 0 || (s.store.releaseLine.isEmpty && decide (n ≤ s.freePlaces))

/-- The places the release of a message needs (R37). -/
def Message.placesNeeded (m : Message) : Nat := if m.readers = 0 ∧ m.blocks > 0 then 1 else 0

/-- Step 2 of R37: the chain joins the release queue, or a message with no blocks becomes FREE at once. -/
def queueChain (i : Nat) (cause : Cause) (s : State) : State :=
  let m := s.message i
  if m.blocks > 0 then
    startWalk { s with store.releaseQueue := s.store.releaseQueue ++ [⟨m.first, m.blocks, i, cause⟩] }
  else freeRecord i s

/-- Release a message (R37). -/
def releaseMessage (i : Nat) (cause : Cause) (s : State) : State :=
  let m := s.message i
  let s1 := updateMessage i { m with state := .deleting } s
  let s2 :=
    if m.state.listed then
      setList m.room ((s1.mailbox m.room).list.filter fun j => j ≠ i)
        (setPlaces m.room ((s1.mailbox m.room).places - 1) s1)
    else if m.state = .recording then setPlaces m.room ((s1.mailbox m.room).places - 1) s1
    else s1
  if m.readers = 0 then queueChain i cause s2 else s2

/-- The release queue joins a request to its line (R26). -/
def joinReleaseLine (who : Waiter) (n : Nat) (s : State) : State :=
  { s with store.releaseLine := s.store.releaseLine ++ [⟨who, n⟩] }

/-! ### Store status (2.13) -/

/-- Records not FREE (R43). -/
def State.recordsInUse (s : State) : Nat :=
  (s.store.messages.filter fun e => decide (e.2.state ≠ .free)).length

/-- Retired records: FREE with generation 65535 (R30, R43). -/
def State.recordsRetired (s : State) : Nat :=
  (s.store.messages.filter fun e => decide (e.2.state = .free) && decide (e.2.generation = 65535)).length

/-- The store status words, offsets 2144 to 2160 (12.2). -/
def State.storeStatus (s : State) : List Byte :=
  le 4 s.freeCount ++ le 4 s.recordsInUse ++ le 4 s.recordsRetired
    ++ le 2 s.store.releaseQueue.length ++ le 2 s.store.releaseLine.length ++ le 1 s.store.storeLow.code

end Sys2Proof.Machine
end

