-- ==== Sys2Proof/Machine/RingOps.lean ====
section
/-! DEFINITION. Operations on the order ring that the engines use (chapter 10): in-flight entries, held
slots, the EXECUTING and completion writes. -/

namespace Sys2Proof.Machine

/-- The in-flight entry of a slot (R173). -/
def State.entryOf (s : State) (slot : Nat) : Option InFlight :=
  s.ring.inFlight.find? fun e => decide (e.slot = slot)

/-- Change the in-flight entry of a slot. -/
def updateEntry (slot : Nat) (f : InFlight → InFlight) (s : State) : State :=
  { s with ring.inFlight := s.ring.inFlight.map fun e => if e.slot = slot then f e else e }

/-- Free the in-flight entry of a slot (R173). -/
def freeEntry (slot : Nat) (s : State) : State :=
  { s with ring.inFlight := s.ring.inFlight.filter fun e => decide (e.slot ≠ slot) }

/-- An entry holds its slot from the grant of its take read on (R173). -/
def InFlight.holds (e : InFlight) : Bool := decide (e.stage ≠ .raised)

/-- The slot is held (R173). -/
def State.slotHeld (s : State) (slot : Nat) : Bool :=
  s.ring.inFlight.any fun e => decide (e.slot = slot) && e.holds

/-- The address of a slot (R172). -/
def State.slotAddr (s : State) (slot : Nat) : Nat := s.profile.orderBase + 64 * slot

/-- Raise the EXECUTING write of a slot (R175): status and result fields 0. -/
def raiseExecuting (slot : Nat) (copy : List Byte) (s : State) : State :=
  raise { source := .executing slot, write := true, addr := s.slotAddr slot, beats := 8
          lanes := allLanes (slotBytes copy 2 .done false []) } s

/-- An order is complete: its completion write is raised (R177). DESIGN CHOICE (notes/assumptions/34.md): result bytes
that no rule gives, all 32 of them with a status other than DONE, are written 00h. -/
def completeOrder (slot : Nat) (status : Status) (deferred : Bool) (res : List Byte) (s : State) : State :=
  match s.entryOf slot with
  | none => s
  | some e =>
    raise { source := .completion slot, write := true, addr := s.slotAddr slot, beats := 8
            lanes := allLanes (slotBytes e.copy 3 status deferred res) }
      (updateEntry slot (fun e => { e with stage := .completing }) s)

/-- Complete the order of a channel, if one is in flight for it. -/
def completeFor (order : Option Nat) (status : Status) (res : List Byte) (s : State) : State :=
  match order with
  | none => s
  | some slot => completeOrder slot status false res s

/-- One of the things an order waits for has ended; at 0 the order is DONE with the results it holds
(R29, R143). -/
def orderStep (slot : Nat) (s : State) : State :=
  match s.entryOf slot with
  | none => s
  | some e =>
    if e.left ≤ 1 then completeOrder slot .done e.deferred e.result (updateEntry slot (fun e => { e with left := 0 }) s)
    else updateEntry slot (fun e => { e with left := e.left - 1 }) s

/-- The ring status words, offsets 2176 to 2191 (12.2); the gap at 2179 is written 00h (notes/assumptions/35.md). -/
def State.ringStatus (s : State) : List Byte :=
  le 2 s.ring.consumer ++ le 1 s.ring.inFlight.length ++ zeros 1
    ++ le 2 (s.ring.taking.getD none16) ++ le 2 s.ring.marks.length
    ++ le 4 s.ring.ordersTaken ++ le 4 s.ring.ringErrors

end Sys2Proof.Machine
end

