-- ==== Sys2Proof/Machine/Record.lean ====
section
/-! DEFINITION. Recording (3.3): buffers and block writes, takes, samples, stops, closing, checkout. -/

namespace Sys2Proof.Machine

/-! ### Buffers -/

def Channel.buffer (c : Channel) (second : Bool) : Buffer := if second then c.buffer1 else c.buffer0

def Channel.setBuffer (c : Channel) (second : Bool) (b : Buffer) : Channel :=
  if second then { c with buffer1 := b } else { c with buffer0 := b }

/-- The buffer in a condition, buffer 0 first; at most one is FILLING or FULL. -/
def Channel.bufferIn (c : Channel) (cond : BufferCond) : Option Bool :=
  if c.buffer0.cond = cond then some false else if c.buffer1.cond = cond then some true else none

/-- A block becomes FILLING in a buffer: its start state is captured (R8), and a pending gap becomes the
block's gap flag and the message's gapped flag (R54). DESIGN CHOICE (notes/assumptions/31.md): the rules set a current
buffer for playback alone; a recording's is the one that is FILLING or filled last. -/
def startFilling (ch : Nat) (second : Bool) (b : Nat) (s : State) : State :=
  let c := s.channel ch
  let s1 := s.setChannel ch
    { c.setBuffer second ⟨b, .filling, zeros 512⟩ with
      current := second, startPred := c.prediction, startIndex := c.stepIndex, sampleCount := 0
      blockPos := 0, blockGap := c.pendingGap, pendingGap := false, waitingBlock := none }
  if c.pendingGap then updateMessage c.index { s1.message c.index with gapped := true } s1 else s1

/-- The eight write bursts of a block (R55). -/
def blockWrites (s : State) (ch : Nat) (second : Bool) (b : Nat) (data : List Byte) : List Request :=
  (List.range 8).map fun k =>
    { source := .blockWrite ch second k, write := true, addr := s.blockAddr b + 64 * k, beats := 8
      lanes := allLanes (slice data (64 * k) 64) }

/-- A block closes with the given next block and its write is raised (R8, R55). -/
def writeBlock (ch : Nat) (second : Bool) (next : Nat) (s : State) : State :=
  let c := s.channel ch
  let buf := c.buffer second
  let header := blockHeader next c.startPred c.startIndex c.blockGap c.sampleCount
  let data := header ++ buf.data.drop 8
  raiseAll (blockWrites s ch second buf.block data)
    (s.setChannel ch
      { c.setBuffer second { buf with cond := .writing, data := data } with
        lastBlock := some (buf.block, header), writes := c.writes + 1 })

/-- The message record's length is brought up to date (R51). -/
def updateLength (ch : Nat) (s : State) : State :=
  let c := s.channel ch
  updateMessage c.index { s.message c.index with length := c.position } s

/-! ### Stopping (R56) -/

/-- The notice RECORDING STOPPED (R56). -/
def noticeStopped (ch : Nat) (reason : StopReason) (s : State) : State :=
  let m := s.message (s.channel ch).index
  notify .directory .recordingStopped m.room (twoItems ch reason.code) m.length s

/-- A recording stops for LENGTH, STORE FULL or QUOTA (R56): truncated, STOPPED, and the notice. -/
def stopRecording (ch : Nat) (reason : StopReason) (s : State) : State :=
  let c := s.channel ch
  let s1 := updateMessage c.index
    { s.message c.index with truncated := true, length := c.position }
    (s.setChannel ch { c with state := .stopped, stopReason := reason })
  noticeStopped ch reason s1

/-! ### Answers to takes (R50, R52) -/

/-- The results of RECORD OPEN (12.6). -/
def recordOpenResults (ch : Nat) (c : Channel) : List Byte :=
  le 1 ch ++ zeros 1 ++ le 2 c.index ++ le 2 c.generation

/-- The take for the first block of a recording is answered (R50). -/
def answerOpening (ch : Nat) (a : TakeAnswer) (s : State) : State :=
  let c := s.channel ch
  match a with
  | .wait => s
  | .block b =>
    let s1 := startFilling ch false b s
    completeFor c.order .done (recordOpenResults ch c)
      (s1.setChannel ch { s1.channel ch with state := .recording, order := none })
  | .refused st =>
    let s1 := releaseMessage c.index .silent s
    completeFor c.order st [] (s1.setChannel ch { c with state := .free, order := none })

/-- The take for the block after a FULL buffer is answered (R52). -/
def answerRecording (ch : Nat) (a : TakeAnswer) (s : State) : State :=
  match (s.channel ch).bufferIn .full with
  | none => s
  | some second =>
    match a with
    | .wait => s
    | .block b =>
      let s1 := writeBlock ch second b s
      let c1 := s1.channel ch
      if (c1.buffer (!second)).cond = .empty then startFilling ch (!second) b s1
      else s1.setChannel ch { c1 with waitingBlock := some b }
    | .refused st =>
      stopRecording ch (if st = .quota then .quota else .storeFull) (writeBlock ch second none32 s)

/-- A take request of a channel is answered. -/
def answerTake (ch : Nat) (a : TakeAnswer) (s : State) : State :=
  if (s.channel ch).state = .opening then answerOpening ch a s else answerRecording ch a s

/-- The channel makes a take request (R23): answered at once, or placed in the take line (R24). -/
def requestTake (ch : Nat) (s : State) : State :=
  let (a, s1) := evalTake (s.channel ch).index s
  match a with
  | .wait => { s1 with store.takeLine := s1.store.takeLine ++ [ch] }
  | _ => answerTake ch a s1

/-- Some entry of the pocket is ready. -/
def State.pocketReady (s : State) : Bool := (takeReady s.store.pocket).isSome

/-- Evaluate the take line again, oldest first, while ready entries remain (R24). -/
def serveTakeLine : Nat → State → State
  | 0, s => s
  | n + 1, s =>
    match s.store.takeLine with
    | [] => s
    | ch :: rest =>
      if s.pocketReady then
        let (a, s1) := evalTake (s.channel ch).index s
        match a with
        | .wait => s
        | _ => serveTakeLine n (answerTake ch a { s1 with store.takeLine := rest })
      else s

/-- A pocket entry has become ready: the whole take line may be served (R24; at most 16 requests). -/
def takeLineTurn (s : State) : State := serveTakeLine s.store.takeLine.length s

/-- The channel withdraws its take request (R24, R52). -/
def withdrawTake (ch : Nat) (s : State) : State :=
  { s with store.takeLine := s.store.takeLine.filter fun c => decide (c ≠ ch) }

/-- A block leaves its message's chain and is released without a walk (R28). DESIGN CHOICE (notes/assumptions/41.md):
R58 gives a message whose last block is returned the first block none at RECORD CLOSE; RECORD ABANDON and a checkout
do the same here. -/
def returnBlock (ch b : Nat) (s : State) : State :=
  let i := (s.channel ch).index
  let m := s.message i
  let n := m.blocks - 1
  let s1 := updateMessage i { m with blocks := n, first := if n = 0 then none32 else m.first } s
  takeLineTurn (releaseBlock b (setBlocksUsed m.room ((s1.mailbox m.room).blocksUsed - 1) s1))

/-! ### Samples (R51 to R54) -/

/-- A code is put into code byte floor(k / 2), low nibble first (R6). -/
def putCode (data : List Byte) (k code : Nat) : List Byte :=
  data.set (8 + k / 2)
    (byteAt data (8 + k / 2) + BitVec.ofNat 8 (if k % 2 = 0 then code else 16 * code))

/-- The record length limit in samples (R47). -/
def State.recordLimit (s : State) : Nat := Config.samplesPerTenth * s.profile.recordLimit

/-- A sample is coded into the filling buffer (R3, R6, R51). -/
def codeSample (ch : Nat) (second : Bool) (x : Int) (s : State) : State :=
  let c := s.channel ch
  let code := encodeSample c.prediction c.stepIndex x
  let buf := c.buffer second
  s.setChannel ch
    { c.setBuffer second { buf with data := putCode buf.data c.sampleCount code } with
      prediction := nextPrediction c.prediction c.stepIndex code
      stepIndex := nextIndex c.stepIndex code
      sampleCount := c.sampleCount + 1, position := c.position + 1, accepted := sat32 c.accepted }

/-- The two tests after a sample (R51): the length limit, then a full block (R52). -/
def afterSample (ch : Nat) (second : Bool) (s : State) : State :=
  let c := s.channel ch
  if c.position = s.recordLimit then stopRecording ch .length (writeBlock ch second none32 s)
  else if c.sampleCount = Config.blockSamples then
    requestTake ch (updateLength ch
      (s.setChannel ch (c.setBuffer second { c.buffer second with cond := .full })))
  else s

/-- A sample refused (R53). -/
def refuseSample (ch : Nat) (s : State) : State :=
  let c := s.channel ch
  s.setChannel ch { c with refused := sat32 c.refused }

/-- A sample dropped for overrun (R54). -/
def dropSample (ch : Nat) (s : State) : State :=
  let c := s.channel ch
  s.setChannel ch { c with dropped := sat32 c.dropped, pendingGap := true }

/-- A sample written to a record aperture (R53). -/
def takeSample (ch : Nat) (x : Int) (s : State) : State :=
  let c := s.channel ch
  if c.dir = .record ∧ c.state = .recording then
    match c.bufferIn .filling with
    | some second => afterSample ch second (codeSample ch second x s)
    | none => dropSample ch s
  else refuseSample ch s

/-- One aligned 2-byte position of an aperture write (R48, R53): `off` is its offset in the space. -/
def takePosition (off : Nat) (lo hi : Option Byte) (s : State) : State :=
  if off % 65536 ≥ 32768 then s
  else
    match lo, hi with
    | some a, some b => takeSample (off / 65536) (signed16 (ofLe [a, b])) s
    | none, none => s
    | _, _ => refuseSample (off / 65536) s

/-- The samples of a run of lanes, lowest address first (R53). -/
def takeLanes : Nat → List (Option Byte) → State → State
  | off, lo :: hi :: ls, s => takeLanes (off + 2) ls (takePosition off lo hi s)
  | _, _, s => s

/-! ### The end of a recording's writes (R57, R59, R60) -/

/-- The results of a committed RECORD CLOSE (12.6). -/
def recordCloseResults (c : Channel) (m : Message) : List Byte :=
  le 4 m.length ++ le 4 m.blocks ++ le 1 (bit m.gapped 0 + bit m.truncated 1) ++ le 1 c.stopReason.code

/-- The channel returns to FREE, and its order is answered. -/
def freeChannel (ch : Nat) (st : Status) (res : List Byte) (s : State) : State :=
  let c := s.channel ch
  completeFor c.order st res (s.setChannel ch { c with state := .free, order := none, closing := .none })

/-- The release a channel asked for is finished (R29): a CLOSING channel answers its order and becomes
FREE; a STOPPED one stays claimed (R60). -/
def channelReleased (ch : Nat) (s : State) : State :=
  let c := s.channel ch
  let s1 := s.setChannel ch { c with release := .finished }
  if c.state = .closing then freeChannel ch c.verdict [] s1 else s1

/-- The release of a channel's message starts, its place granted (R37). -/
def startChannelRelease (ch : Nat) (s : State) : State :=
  let c := s.channel ch
  let s1 := s.setChannel ch { c with release := .queued }
  if (s.message c.index).placesNeeded = 0 then channelReleased ch (releaseMessage c.index (.channel ch) s1)
  else releaseMessage c.index (.channel ch) s1

/-- The channel asks for its message's release (R26, R57, R59, R60). -/
def askRelease (ch : Nat) (s : State) : State :=
  let c := s.channel ch
  let n := (s.message c.index).placesNeeded
  if s.grantsAtOnce n then startChannelRelease ch s
  else joinReleaseLine (.channel ch) n (s.setChannel ch { c with release := .asked })

/-- The minimum record length in samples (R47). -/
def State.minSamples (s : State) : Nat := Config.samplesPerTenth * s.profile.minRecord

/-- The answer a RECORD CLOSE will give, other than DONE (R57, cases 1 to 4). -/
def closeRefusal (ch : Nat) (s : State) : Option Status :=
  let c := s.channel ch
  let m := s.message c.index
  if c.stopReason = .checkedOut then some .roomVacant
  else if c.checkedOut then some .roomVacant
  else if m.length = 0 ∨ m.length < s.minSamples then some .tooShort
  else if !s.occupied m.room then some .roomVacant
  else none

/-- The message becomes NEW and joins its room's list (R57, case 5). -/
def commitRecording (ch : Nat) (s : State) : State :=
  let c := s.channel ch
  let s1 := moveMessage c.index .new s
  freeChannel ch .done (recordCloseResults c (s1.message c.index)) s1

/-- Ask for the release unless it has been asked for; when it is finished, answer (R57, R59). -/
def closeByRelease (ch : Nat) (st : Status) (s : State) : State :=
  let c := s.channel ch
  let s1 := s.setChannel ch { c with verdict := st }
  match c.release with
  | .none => askRelease ch s1
  | .finished => freeChannel ch st [] s1
  | _ => s1

/-- Every write the channel has raised has finished: a RECORD CLOSE is decided (R57), an abandon or a
checkout releases the message (R59, R60). -/
def afterWrites (ch : Nat) (s : State) : State :=
  let c := s.channel ch
  if c.dir = .record ∧ c.writes = 0 then
    if c.state = .closing then
      match c.closing with
      | .none => s
      | .abandon => closeByRelease ch .done s
      | .close =>
        match closeRefusal ch s with
        | some st => closeByRelease ch st s
        | none => commitRecording ch s
    else if c.state = .stopped ∧ c.stopReason = .checkedOut ∧ c.release = .none then askRelease ch s
    else s
  else s

/-- A buffer's unwritten block is returned and the buffer becomes EMPTY (R28, R59). -/
def returnBuffer (ch : Nat) (second : Bool) (s : State) : State :=
  let c := s.channel ch
  let buf := c.buffer second
  if buf.cond = .filling ∨ buf.cond = .full then
    returnBlock ch buf.block (s.setChannel ch (c.setBuffer second {}))
  else s

/-- A taken block that waits for a buffer is returned (R28, R59). -/
def returnWaiting (ch : Nat) (s : State) : State :=
  let c := s.channel ch
  match c.waitingBlock with
  | none => s
  | some b => returnBlock ch b (s.setChannel ch { c with waitingBlock := none })

/-- Unwritten blocks are returned and a waiting take is withdrawn; writes in flight go on (R59). -/
def dropUnwritten (ch : Nat) (s : State) : State :=
  returnWaiting ch (returnBuffer ch true (returnBuffer ch false (withdrawTake ch s)))

/-- The header patch of the block closed last: next block none (R55, R58). -/
def patchLast (ch : Nat) (s : State) : State :=
  let c := s.channel ch
  match c.lastBlock with
  | none => s
  | some (b, h) =>
    raise { source := .headerPatch ch, write := true, addr := s.blockAddr b, beats := 1
            lanes := allLanes (patchedHeader h) }
      (s.setChannel ch { c with writes := c.writes + 1, lastBlock := some (b, patchedHeader h) })

/-- A taken block that holds no sample is returned, and the block before it is patched (R58). -/
def returnEmpty (ch b : Nat) (s : State) : State :=
  let s1 := returnBlock ch b s
  if (s1.message (s1.channel ch).index).blocks = 0 then s1 else patchLast ch s1

/-- What RECORD CLOSE leaves to be written, by the state it finds (R58). -/
def closeBlocks (ch : Nat) (s : State) : State :=
  let c := s.channel ch
  match c.bufferIn .full with
  | some second => writeBlock ch second none32 (withdrawTake ch s)
  | none =>
    match c.bufferIn .filling with
    | some second =>
      if c.sampleCount > 0 then writeBlock ch second none32 s
      else returnEmpty ch (c.buffer second).block (s.setChannel ch (c.setBuffer second {}))
    | none =>
      match c.waitingBlock with
      | some b => returnEmpty ch b (s.setChannel ch { c with waitingBlock := none })
      | none => s

/-- The write of a block has finished: the buffer becomes EMPTY and a waiting block becomes FILLING in it
(R55); then what hangs on the channel's writes (R57, R59, R60). -/
def blockWritten (ch : Nat) (second : Bool) (s : State) : State :=
  let c := s.channel ch
  let s1 := s.setChannel ch { c.setBuffer second {} with writes := c.writes - 1 }
  let s2 :=
    match c.waitingBlock with
    | some b => startFilling ch second b s1
    | none => s1
  afterWrites ch s2

/-- A header patch has finished (R55). -/
def patchWritten (ch : Nat) (s : State) : State :=
  let c := s.channel ch
  afterWrites ch (s.setChannel ch { c with writes := c.writes - 1 })

/-- A checkout meets a channel that records for the room (R60). -/
def checkoutChannel (ch : Nat) (s : State) : State :=
  let c := s.channel ch
  match c.state with
  | .opening =>
    let s1 := releaseMessage c.index .silent (withdrawTake ch s)
    freeChannel ch .roomVacant [] s1
  | .recording =>
    let s1 := updateLength ch (s.setChannel ch { c with state := .stopped, stopReason := .checkedOut })
    afterWrites ch (dropUnwritten ch (noticeStopped ch .checkedOut s1))
  | .stopped =>
    if c.stopReason = .checkedOut then s
    else afterWrites ch (s.setChannel ch { c with stopReason := .checkedOut })
  | .closing =>
    if c.closing = .close ∧ c.writes > 0 then s.setChannel ch { c with checkedOut := true } else s
  | _ => s

/-- The channels that record for a room meet its checkout (R60, R78). DESIGN CHOICE (notes/assumptions/32.md): in
rising channel number, the take line being served at each returned block. -/
def checkoutChannels (r : Nat) (s : State) : State :=
  (List.range 16).foldl (fun t ch =>
    if (t.channel ch).dir = .record ∧ (t.channel ch).room = r then checkoutChannel ch t else t) s

end Sys2Proof.Machine
end

