-- ==== Sys2Proof/Machine/Play.lean ====
section
/-! DEFINITION. Playback (3.4): fetches, decoding, the offset walk, aperture reads and their stalls, and the
channel status record (3.6). -/

namespace Sys2Proof.Machine

/-! ### Fetching (R63) -/

/-- The eight read bursts of a block fetch (R63). -/
def fetchReads (s : State) (ch : Nat) (second : Bool) (b : Nat) : List Request :=
  (List.range 8).map fun k =>
    { source := .blockFetch ch second k, write := false, addr := s.blockAddr b + 64 * k, beats := 8 }

/-- Raise the fetch of a block into a buffer (R63). -/
def fetchBlock (ch : Nat) (second : Bool) (b : Nat) (s : State) : State :=
  raiseAll (fetchReads s ch second b)
    (s.setChannel ch ((s.channel ch).setBuffer second ⟨b, .fetching, []⟩))

/-- The header of a buffer's block. -/
def Buffer.header (b : Buffer) : List Byte := b.data.take 8

/-- The block named after the current one, when it lies in the store (R13, R63). -/
def State.nextBlock (s : State) (c : Channel) : Option Nat :=
  let n := headerNext (c.buffer c.current).header
  if n < s.profile.blocks then some n else none

/-- The fetch ahead (R63): the next block, when it lies in the store and the other buffer is EMPTY. -/
def prefetch (ch : Nat) (s : State) : State :=
  let c := s.channel ch
  match s.nextBlock c with
  | some n => if (c.buffer (!c.current)).cond = .empty then fetchBlock ch (!c.current) n s else s
  | none => s

/-- A buffer becomes current and its header state is loaded (R12). -/
def Channel.load (c : Channel) (second : Bool) : Channel :=
  let h := (c.buffer second).header
  { c with
    current := second, prediction := headerPrediction h, stepIndex := headerIndex h
    sampleCount := headerCount h, blockPos := 0 }

/-! ### Decoding (R5, R12, R13) -/

/-- The code of sample `k` of a block (R6). -/
def codeAt (data : List Byte) (k : Nat) : Nat := nibble (data.drop 8) k

/-- Decode the next code of the current block (R5). -/
def Channel.decode (c : Channel) : Channel :=
  let code := codeAt (c.buffer c.current).data c.blockPos
  { c with
    prediction := nextPrediction c.prediction c.stepIndex code
    stepIndex := nextIndex c.stepIndex code, blockPos := c.blockPos + 1 }

/-- The stream has ended, `n` samples having been yielded (R13). -/
def State.streamEnded (s : State) (c : Channel) (n : Nat) : Bool :=
  decide (n ≥ (s.message c.index).length) ||
  (decide (c.blockPos ≥ c.sampleCount) && (s.nextBlock c).isNone)

/-- The channel enters ENDED: its current buffer is left behind (R64). DESIGN CHOICE (notes/assumptions/24.md): a
block fetched ahead, FETCHING or ARRIVED, stays in the other buffer until PLAY CLOSE. -/
def Channel.finish (c : Channel) : Channel := { c.setBuffer c.current {} with state := .ended }

/-- What a play read gets at one position (R64). -/
inductive PlayStep where
  | sample (v : Int)
  | stall
  | ended
  deriving DecidableEq, Repr

/-- The next sample of the stream from the current block (R64); the stream ends as R13 says. -/
def yieldSample (ch : Nat) (s : State) : PlayStep × State :=
  let c := s.channel ch
  let d := { c.decode with position := c.position + 1, accepted := sat32 c.accepted }
  (.sample d.prediction, s.setChannel ch (if s.streamEnded d d.position then d.finish else d))

/-- Decoding moves to the other buffer: the one left becomes EMPTY, the header is loaded, and the fetch
ahead follows (R63, R64). -/
def moveBuffer (ch : Nat) (s : State) : State :=
  let c := s.channel ch
  prefetch ch (s.setChannel ch ((c.setBuffer c.current {}).load (!c.current)))

/-- One position of a play read on a PLAYING channel (R64). -/
def playStep (ch : Nat) (s : State) : PlayStep × State :=
  let c := s.channel ch
  if s.streamEnded c c.position then (.ended, s.setChannel ch c.finish)
  else if c.blockPos < c.sampleCount then yieldSample ch s
  else if (c.buffer (!c.current)).cond = .arrived then yieldSample ch (moveBuffer ch s)
  else (.stall, s)

/-! ### The channel status record (R69) -/

/-- Blocks held (R69): for a recording, its message's block count until its release is asked for; for a
playback, the buffers FETCHING or ARRIVED. DESIGN CHOICE (notes/assumptions/31.md): R69 gives the field no content for
direction none; it reads 0. -/
def State.blocksHeld (s : State) (c : Channel) : Nat :=
  match c.dir with
  | .none => 0
  | .record =>
    let m := s.message c.index
    if c.release = .none ∧ m.generation = c.generation ∧ m.state ≠ .free ∧ m.state ≠ .deleting then m.blocks
    else 0
  | .play =>
    ([c.buffer0, c.buffer1].filter fun b => decide (b.cond = .fetching) || decide (b.cond = .arrived)).length

/-- The channel status record (R69). -/
def State.statusRecord (s : State) (ch : Nat) : List Byte :=
  channelStatus (s.channel ch) (s.blocksHeld (s.channel ch))

/-! ### Aperture reads (R64 to R66, R69) -/

/-- A read in ENDED counts as one past-end read, whatever its length (R66): counted where the read first
meets the channel. -/
def meetChannel (ch : Nat) (seen : List Nat) (s : State) : State :=
  let c := s.channel ch
  if ch ∉ seen ∧ c.state = .ended then s.setChannel ch { c with pastEnd := sat32 c.pastEnd } else s

/-- One sample's two bytes, lower-order byte at the lower address (0.6). -/
def sampleBytes (v : Int) : List (Option Byte) := allLanes (leInt 2 v)

/-- What is left of a read that stalls: the channel it waits for, the channels it has met, the offset in
the space of the position that waits, and the lanes from there on. -/
structure Stall where
  ch    : Nat
  seen  : List Nat
  off   : Nat
  lanes : List (Option Byte)
  deriving DecidableEq, Repr

/-- Serve the positions of an aperture read in address order (R64 to R66, R69). `zeroed` is a channel
whose stall has expired: its positions return 0 (R65). -/
def serveRead (zeroed : Option Nat) :
    Nat → List (Option Byte) → List Nat → State → List (Option Byte) × Option Stall × State
  | off, lo :: hi :: ls, seen, s =>
    let ch := off / 65536
    if off % 65536 < 32768 then
      let r := s.statusRecord ch
      let (out, st, s') := serveRead zeroed (off + 2) ls seen s
      (some (byteAt r (off % 64)) :: some (byteAt r (off % 64 + 1)) :: out, st, s')
    else
      let s1 := meetChannel ch seen s
      let seen1 := if ch ∈ seen then seen else ch :: seen
      let c := s1.channel ch
      let zero (s2 : State) :=
        let (out, st, s') := serveRead zeroed (off + 2) ls seen1 s2
        (some 0#8 :: some 0#8 :: out, st, s')
      if lo.isNone ∨ hi.isNone ∨ zeroed = some ch then zero s1
      else if c.state = .opening ∧ c.dir = .play then ([], some ⟨ch, seen1, off, lo :: hi :: ls⟩, s1)
      else if c.state = .playing then
        match playStep ch s1 with
        | (.sample v, s2) =>
          let (out, st, s') := serveRead zeroed (off + 2) ls seen1 s2
          (sampleBytes v ++ out, st, s')
        | (.stall, s2) => ([], some ⟨ch, seen1, off, lo :: hi :: ls⟩, s2)
        | (.ended, s2) => zero s2
      else zero s1
  | _, _, _, s => ([], none, s)

/-! ### Opening a playback (R15, R62) -/

/-- The results of PLAY OPEN (R62, 12.6): an o above FFFFFFFFh is carried as FFFFFFFFh. -/
def playOpenResults (ch : Nat) (c : Channel) (ended : Bool) (length : Nat) : List Byte :=
  le 1 ch ++ boolByte ended ++ le 2 c.index ++ le 2 c.generation ++ zeros 2 ++ le 4 length
    ++ le 4 (min c.offset none32)

/-- The opening is over: PLAY OPEN is DONE (R62). -/
def openDone (ch : Nat) (ended : Bool) (s : State) : State :=
  let c := s.channel ch
  completeFor c.order .done (playOpenResults ch c ended (s.message c.index).length)
    (s.setChannel ch { c with order := none })

/-- The channel opens ENDED: at take or at the end of the walk (R15, R62). DESIGN CHOICE (notes/assumptions/28.md):
no rule gives its position; it keeps the one of the claim, the start offset. -/
def openEnded (ch : Nat) (s : State) : State :=
  openDone ch true (s.setChannel ch { s.channel ch with state := .ended })

/-- Decode and discard up to `n` samples of the loaded block (R15); they count toward the end of the
stream (R13). -/
def discardSamples (s : State) : Nat → Channel → Channel
  | 0, c => c
  | n + 1, c =>
    if c.blockPos < c.sampleCount then
      let d := { c.decode with reached := c.reached + 1, discard := c.discard - 1 }
      if s.streamEnded d d.reached then d.finish else discardSamples s n d
    else c

/-- The block an OPENING playback waits for has arrived (R62): its state is loaded, the samples before
the offset are discarded, and the channel enters PLAYING, or ENDED where the stream ends first. A block
that holds fewer samples than are still to be discarded is followed by the next one. -/
def openArrived (ch : Nat) (second : Bool) (s : State) : State :=
  let c := ((s.channel ch).setBuffer (!second) {}).load second
  let d := discardSamples s c.discard c
  if d.state = .ended then openDone ch true (s.setChannel ch { d with position := d.reached })
  else if d.discard = 0 then
    openDone ch false (prefetch ch (s.setChannel ch { d with state := .playing, position := d.offset }))
  else prefetch ch (s.setChannel ch d)

/-- The address of a block header read (R15). -/
def raiseOffsetRead (ch b : Nat) (s : State) : State :=
  raise { source := .offsetWalk ch, write := false, addr := s.blockAddr b, beats := 1 }
    (s.setChannel ch { s.channel ch with walkBlock := b })

/-- A header of the offset walk has been read (R15, steps 4 and 5). -/
def walkStep (ch : Nat) (header : List Byte) (s : State) : State :=
  let c := s.channel ch
  let n := headerNext header
  let s1 := s.setChannel ch { c with walkLeft := c.walkLeft - 1 }
  if n ≥ s.profile.blocks then openEnded ch s1
  else if c.walkLeft ≤ 1 then fetchBlock ch false n s1
  else raiseOffsetRead ch n s1

/-- The last burst of a fetch has arrived (R63): the buffer is ARRIVED; a CLOSING channel discards it and
becomes FREE (R67), an OPENING one goes on (R62). -/
def fetchArrived (ch : Nat) (second : Bool) (data : List Byte) (s : State) : State :=
  let c := s.channel ch
  let buf := c.buffer second
  if c.state = .closing then s.setChannel ch { c.setBuffer second {} with state := .free }
  else
    let s1 := s.setChannel ch
      (c.setBuffer second { buf with cond := .arrived, data := buf.data ++ data })
    if c.state = .opening then openArrived ch second s1 else s1

end Sys2Proof.Machine
end

