-- ==== Sys2Proof/Machine/Folio.lean ====
section
/-! DEFINITION. Folios and credit (chapter 7): toll-barred, the folio write queue, appends, the hand-over of
charges, opening, closing and discarding folios. -/

namespace Sys2Proof.Machine

/-! ### Toll-barred (R145, R146) -/

/-- Toll-barred as it works out (R145). -/
def barredBy (opened : Option Folio) (limit : Nat) : Bool :=
  match opened with
  | none => false
  | some f => decide (limit > 0) && decide (f.total ≥ (limit : Int))

/-- The credit limit of a room, read from its shadow (R145). -/
def State.creditLimit (s : State) (r : Nat) : Nat := (s.roomShadow r).creditLimit

/-- Work out toll-barred again (R145): a change marks the mirror and raises CREDIT STOP or CREDIT CLEAR
with `total` (R146). -/
def workOutBarred (r : Nat) (total : Int) (s : State) : State :=
  let f := s.folios r
  let b := barredBy f.opened (s.creditLimit r)
  if b = f.barred then s
  else
    notify .rating (if b then .creditStop else .creditClear) r (word32 total) (s.creditLimit r)
      (markFolio r (s.setFolios r { f with barred := b }))

/-- Work out toll-barred at the end of STARTING: no notice is raised (R86, R146). -/
def settleBarred (r : Nat) (s : State) : State :=
  let f := s.folios r
  s.setFolios r { f with barred := barredBy f.opened (s.creditLimit r) }

/-- The OPEN total of a room, 0 without an OPEN folio. -/
def State.openTotal (s : State) (r : Nat) : Int :=
  match (s.folios r).opened with
  | some f => f.total
  | none => 0

/-! ### The folio write queue (R140) -/

/-- Raise the next entry of the queue when none is raised (R140). -/
def raiseFolioWrite (s : State) : State :=
  if s.rating.queueRaised then s
  else
    match s.rating.queue[s.rating.queueGranted]? with
    | none => s
    | some w =>
      raise { source := .folioQueue, write := true, addr := w.addr, beats := w.lanes.length / 8, lanes := w.lanes }
        { s with rating.queueRaised := true }

/-- An entry joins the queue. -/
def queueFolioWrite (w : FolioWrite) (s : State) : State :=
  raiseFolioWrite { s with rating.queue := s.rating.queue ++ [w] }

/-- The address of a pool record (R135). -/
def State.poolAddr (s : State) (k : Nat) : Nat := s.profile.poolBase + 64 * k

/-- The link write of a record: only the four bytes of its next index are enabled (R140). -/
def linkWrite (s : State) (k next : Nat) (order : Option Nat) : FolioWrite :=
  ⟨s.poolAddr k + 56, someLanes 4 (le 4 next) 8, order⟩

/-! ### Appending (R139) -/

/-- A sum held to the range of a folio total (R136). -/
def saturate32 (v : Int) : Int := max (-2147483648) (min 2147483647 v)

/-- Which place of a room. -/
inductive Place where
  | opened | closed
  deriving DecidableEq, Repr

def RoomFolios.place (f : RoomFolios) : Place → Option Folio
  | .opened => f.opened
  | .closed => f.closed

def RoomFolios.setPlace (f : RoomFolios) (p : Place) (v : Option Folio) : RoomFolios :=
  match p with
  | .opened => { f with opened := v }
  | .closed => { f with closed := v }

/-- Queue entries an append needs (R139). -/
def Folio.entriesNeeded (f : Folio) : Nat := if f.records = [] then 1 else 2

/-- Free entries of the folio write queue (R140). -/
def State.freeEntries (s : State) : Nat := Config.folioQueueDepth - s.rating.queue.length

/-- Append a charge or adjustment to a folio of room `r` (R139). The answer is the pool record it was
stored in, if it was. -/
def appendCharge (r : Nat) (p : Place) (f : Folio) (c : Charge) (order : Option Nat) (s : State) :
    Option Nat × State :=
  let f1 := { f with total := saturate32 (f.total + c.amount) }
  let fin (s' : State) := markFolio r (if p = .opened then workOutBarred r f1.total s' else s')
  match s.rating.freePool with
  | k :: rest =>
    if f.entriesNeeded ≤ s.freeEntries then
      let s1 := { s with rating.freePool := rest }
      let s2 := queueFolioWrite ⟨s.poolAddr k, allLanes (chargeRecord c none32), order⟩ s1
      let s3 :=
        match f.records.getLast? with
        | some tail => queueFolioWrite (linkWrite s tail k order) s2
        | none => s2
      let g := { f1 with records := f1.records ++ [k] }
      (some k, fin (s3.setFolios r ((s3.folios r).setPlace p (some g))))
    else
      (none, fin (notify .rating .poolFull r f.serial 2
        { s.setFolios r ((s.folios r).setPlace p (some { f1 with incomplete := true })) with
          rating.poolFullCount := sat32 s.rating.poolFullCount }))
  | [] =>
    (none, fin (notify .rating .poolFull r f.serial 1
      { s.setFolios r ((s.folios r).setPlace p (some { f1 with incomplete := true })) with
        rating.poolFullCount := sat32 s.rating.poolFullCount }))

/-! ### Receiving a charge (R138) -/

/-- The late count stays at 65,535 once there (R136). -/
def lateStep (n : Nat) : Nat := min 65535 (n + 1)

/-- A charge no folio holds (R138, third row). -/
def unbilled (c : Charge) (s : State) : State :=
  notify .rating .unbilledCharge (if c.room < s.roomCount then c.room else none16)
    (twoItems c.trunk c.kind.code) (word32 c.amount)
    { s with rating.unbilledCount := sat32 s.rating.unbilledCount }

/-- A late charge (R138, second row): the late count, LATE CHARGE, and the append with the LATE flag. -/
def lateCharge (f : Folio) (c : Charge) (s : State) : State :=
  let s1 := notify .rating .lateCharge c.room f.serial (word32 c.amount)
    { s with rating.lateCount := sat32 s.rating.lateCount }
  (appendCharge c.room .closed { f with late := lateStep f.late } { c with late := true } none s1).2

/-- A priced charge is handed over and routed (R138). -/
def handOver (c : Charge) (s : State) : State :=
  if c.room < s.roomCount ∧ c.serial ≠ 0 then
    match (s.folios c.room).opened with
    | some f =>
      if f.serial = c.serial then (appendCharge c.room .opened f c none s).2
      else
        match (s.folios c.room).closed with
        | some g => if g.serial = c.serial then lateCharge g c s else unbilled c s
        | none => unbilled c s
    | none =>
      match (s.folios c.room).closed with
      | some g => if g.serial = c.serial then lateCharge g c s else unbilled c s
      | none => unbilled c s
  else unbilled c s

/-! ### Opening, closing, returning (R137, R141, R142) -/

/-- A counter that would pass FFFFFFFFh wraps to 1 (R136). -/
def nextSerial (n : Nat) : Nat := if n ≥ none32 then 1 else n + 1

/-- Open a folio in the OPEN place (R137). -/
def openFolio (r : Nat) (s : State) : State :=
  let f := s.folios r
  let clash := match f.closed with | some g => decide (g.serial = s.rating.serial) | none => false
  let n := if clash then nextSerial s.rating.serial else s.rating.serial
  { s.setFolios r { f with opened := some { serial := n } } with rating.serial := nextSerial n }

/-- A folio's records are marked free in the pool bitmap (R142). -/
def returnRecords (f : Folio) (s : State) : State :=
  { s with rating.freePool := f.records.foldl addMark s.rating.freePool }

/-- The room's CLOSED folio, if any, is discarded (R141, step 1). -/
def discardClosed (r : Nat) (s : State) : State :=
  match (s.folios r).closed with
  | none => s
  | some g =>
    let s1 := returnRecords g s
    notify .rating .folioDiscarded r g.serial (word32 g.total)
      { s1.setFolios r { s1.folios r with closed := none } with
        rating.discardedCount := sat32 s1.rating.discardedCount }

/-- The OPEN folio becomes the CLOSED one (R141). -/
def closeFolio (r : Nat) (s : State) : State :=
  let s1 := discardClosed r s
  let f := s1.folios r
  match f.opened with
  | none => s1
  | some g =>
    markFolio r (s1.setFolios r { f with opened := none, closed := some { g with late := 0 } })

/-! ### Folio status (R148) -/

/-- The folio status words, offsets 2272 to 2299 (12.2). -/
def State.folioStatus (s : State) : List Byte :=
  le 4 s.rating.freePool.length ++ le 4 s.rating.queue.length ++ le 4 s.rating.lateCount
    ++ le 4 s.rating.unbilledCount ++ le 4 s.rating.poolFullCount ++ le 4 s.rating.discardedCount
    ++ le 4 s.rating.serial

end Sys2Proof.Machine
end

