-- ==== Sys2Proof/Machine/Rating.lean ====
section
/-! DEFINITION. Call rating (chapter 6): the band, the prefix match, the arithmetic, and the step of a trunk
context. -/

namespace Sys2Proof.Machine

/-! ### The band (R125) -/

/-- A clock of day lies in the night band of a day start and a night start (R125). -/
def isNight (dayStart nightStart t : Nat) : Bool :=
  if dayStart = nightStart then false
  else if nightStart < dayStart then decide (nightStart ≤ t) && decide (t < dayStart)
  else decide (nightStart ≤ t) || decide (t < dayStart)

/-! ### The prefix match (R124) -/

/-- An entry matches a digit string (R124). -/
def Shadow.matchesDigits (h : Shadow) (ds : List Nat) : Bool :=
  h.loaded && h.inService && decide (h.prefixLength ≤ ds.length)
    && decide (ds.take h.prefixLength = h.prefixDigits)

/-- The better of two matches: the longer prefix, the lower index on a tie (R124). -/
def longerMatch (s : State) (best : Option Nat) (i : Nat) : Option Nat :=
  match best with
  | none => some i
  | some j => if (s.tariffShadow i).prefixLength > (s.tariffShadow j).prefixLength then some i else some j

/-- The entry the prefix match chooses (R124). -/
def State.matchTariff (s : State) (ds : List Nat) : Option Nat :=
  ((List.range s.profile.tariffs).filter fun i => (s.tariffShadow i).matchesDigits ds).foldl
    (longerMatch s) none

/-! ### The arithmetic (R126 to R128) -/

/-- An amount held at no more than 2^32 − 1. -/
def hold32 (n : Nat) : Nat := min n 4294967295

/-- The number of pulse periods (R127). -/
def pulseCount (duration first pulse : Nat) : Nat :=
  if duration > first then (duration - first + pulse - 1) / pulse else 0

/-- The base in mils (R127). -/
def baseMils (fee first pulses perPulse : Nat) : Nat := hold32 (fee + first + pulses * perPulse)

/-- The base raised by the surcharge, capped and held (R128). -/
def markedMils (base surcharge cap : Nat) : Nat :=
  let m := (base * (10000 + surcharge) + 5000) / 10000
  hold32 (if cap > 0 ∧ m > cap then cap else m)

/-- Rounded to minor units, halves up (R128). -/
def minorUnits (marked : Nat) : Nat := (marked + 500) / 1000

/-- The charge with the price of a tariff put in (R126 to R128). -/
def priceBy (h : Shadow) (index duration : Nat) (c : Charge) : Charge :=
  if duration ≤ h.grace then { c with kind := .free, tariff := index }
  else
    let n := pulseCount duration h.firstPeriod h.pulsePeriod
    let base := baseMils h.connectionFee (h.firstCharge c.night) n (h.pulseCharge c.night)
    let marked := markedMils base h.surcharge h.cap
    { c with
      kind := .rated, tariff := index, pulses := n, base := base, marked := marked
      amount := (minorUnits marked : Int) }

/-! ### Trunk contexts (R115 to R121) -/

/-- The written trunk states (R111). -/
inductive WrittenState where
  | idle | seized | answered | cleared | unknown
  deriving DecidableEq, Repr

def writtenStateOf (b : Byte) : WrittenState :=
  if b = 0#8 then .idle else if b = 1#8 then .seized else if b = 2#8 then .answered
  else if b = 3#8 then .cleared else .unknown

/-- A room code as a notice carries it: FFFFh at or beyond the room count (R118, R124). -/
def State.noticeRoom (s : State) (r : Nat) : Nat := if r < s.roomCount then r else none16

/-- TRUNK SEQUENCE (R118): anomaly 1 is MISSED SEIZE, 2 is UNKNOWN STATE. -/
def trunkSequence (t anomaly : Nat) (written : Byte) (s : State) : State :=
  notify .rating .trunkSequence (s.noticeRoom (s.trunkShadow t).trunkRoom) (twoItems t anomaly)
    written.toNat s

/-- The serial of a room's OPEN folio, 0 when it has none (R116, R136). -/
def State.openSerial (s : State) (r : Nat) : Nat :=
  if r < s.roomCount then
    match (s.folios r).opened with
    | some f => f.serial
    | none => 0
  else 0

/-- A seize stamps the context (R116). -/
def seizeTrunk (t : Nat) (s : State) : State :=
  s.setTrunk t { s.trunk t with state := .seized, seizeCount := s.time.elapsed, missedSeize := false }

/-- An answer captures the call (R116). -/
def captureCall (t : Nat) (s : State) : State :=
  let h := s.trunkShadow t
  s.setTrunk t
    { s.trunk t with
      state := .answered, answerCount := s.time.elapsed, answerStamp := s.stamp
      room := h.trunkRoom, incoming := h.trunkIncoming, digits := h.trunkDigits
      serial := s.openSerial h.trunkRoom }

/-- An answer is counted by its captured direction (R131). -/
def countAnswer (t : Nat) (s : State) : State :=
  if (s.trunk t).incoming then { s with rating.incoming := sat32 s.rating.incoming }
  else { s with rating.outgoing := sat32 s.rating.outgoing }

/-- An answer from IDLE (R117). -/
def missedSeize (t : Nat) (s : State) : State :=
  let s1 := s.setTrunk t { s.trunk t with seizeCount := s.time.elapsed, missedSeize := true }
  trunkSequence t 1 (byteAt (s.trunkShadow t).bytes 0)
    { countAnswer t (captureCall t s1) with
      rating.missedSeizes := sat32 s.rating.missedSeizes }

/-- The context enters IDLE. -/
def idleTrunk (t : Nat) (s : State) : State := s.setTrunk t { s.trunk t with state := .idle }

/-- The end of an unanswered call (R119): the charge is handed over only where its room has an OPEN
folio. -/
def unansweredClear (t : Nat) (s : State) : State :=
  let h := s.trunkShadow t
  if !s.profile.logUnanswered ∨ h.trunkIncoming then s
  else
    let c : Charge :=
      { kind := .unanswered, missed := (s.trunk t).missedSeize, clockUnset := !s.time.clockSet
        trunk := t, room := h.trunkRoom, serial := s.openSerial h.trunkRoom, digits := h.trunkDigits
        stamp := s.stamp, duration := (s.time.elapsed - (s.trunk t).seizeCount).toNat
        night := isNight s.profile.dayStart s.profile.nightStart s.time.clock }
    let s1 := { s with rating.unanswered := sat32 s.rating.unanswered }
    if c.serial = 0 then s1 else handOver c s1

/-- The charge of an answered call before it is priced (R129). -/
def callCharge (t : Nat) (implicit : Bool) (s : State) : Charge :=
  let k := s.trunk t
  { kind := .unrated, implicit := implicit, missed := k.missedSeize
    clockUnset := !s.time.clockSet || !k.answerStamp.clockSet
    trunk := t, room := k.room, serial := k.serial, digits := k.digits, stamp := k.answerStamp
    duration := (s.time.elapsed - k.answerCount).toNat
    night := isNight s.profile.dayStart s.profile.nightStart k.answerStamp.clock }

/-- UNRATED CALL (R124). -/
def noticeUnrated (c : Charge) (s : State) : State :=
  notify .rating .unratedCall (s.noticeRoom c.room) c.trunk c.duration s

/-- Price an answered outgoing call and hand its charge over (R120, R124, R129, R130). -/
def rateCall (t : Nat) (implicit : Bool) (s : State) : State :=
  let c := callCharge t implicit s
  match s.matchTariff c.digits with
  | none => handOver c (noticeUnrated c { s with rating.unrated := sat32 s.rating.unrated })
  | some i =>
    let p := priceBy (s.tariffShadow i) i c.duration c
    handOver p
      (if p.kind = .free then { s with rating.free := sat32 s.rating.free }
       else { s with rating.rated := sat32 s.rating.rated })

/-- The end of an answered call (R120, R121). -/
def answeredClear (t : Nat) (implicit : Bool) (s : State) : State :=
  let s1 := if implicit then { s with rating.implicits := sat32 s.rating.implicits } else s
  if (s.trunk t).incoming then s1 else rateCall t implicit s1

/-- The step of a trunk context (R115). `unknown` steps as IDLE. -/
def stepTrunk (t : Nat) (w : WrittenState) (s : State) : State :=
  match (s.trunk t).state, w with
  | .idle, .seized => seizeTrunk t s
  | .idle, .answered => missedSeize t s
  | .idle, _ => s
  | .seized, .answered => countAnswer t (captureCall t s)
  | .seized, .seized => s
  | .seized, _ => idleTrunk t (unansweredClear t s)
  | .answered, .answered => s
  | .answered, .seized => seizeTrunk t (answeredClear t true s)
  | .answered, .cleared => idleTrunk t (answeredClear t false s)
  | .answered, _ => idleTrunk t (answeredClear t true s)

/-- The rating engine is handed a written state byte (R112, R118): a byte that has changed to none of the
four codes raises TRUNK SEQUENCE before the step. -/
def trunkWritten (t : Nat) (old new : Byte) (s : State) : State :=
  let w := writtenStateOf new
  if w = .unknown ∧ old ≠ new then
    stepTrunk t w (trunkSequence t 2 new { s with rating.unknownStates := sat32 s.rating.unknownStates })
  else stepTrunk t w s

/-- The context of a trunk at the end of STARTING (R133). -/
def settleTrunk (t : Nat) (s : State) : State :=
  let h := s.trunkShadow t
  match writtenStateOf (byteAt h.bytes 0) with
  | .seized =>
    s.setTrunk t { s.trunk t with state := .seized, seizeCount := s.time.elapsed, missedSeize := true }
  | .answered =>
    captureCall t
      (s.setTrunk t { s.trunk t with seizeCount := s.time.elapsed, missedSeize := true })
  | _ => idleTrunk t s

/-! ### Rating status (R131) -/

/-- Contexts in a state. -/
def State.contextsIn (s : State) (st : TrunkState) : Nat :=
  (s.rating.trunks.filter fun e => decide (e.2.state = st)).length

/-- The rating status words: offsets 2208 to 2235, then 2240 to 2251 (12.2). -/
def State.ratingStatus (s : State) : List Byte × List Byte :=
  (le 4 s.rating.outgoing ++ le 4 s.rating.incoming ++ le 4 s.rating.rated ++ le 4 s.rating.free
    ++ le 4 s.rating.unrated ++ le 4 s.rating.unanswered
    ++ le 2 (s.contextsIn .seized) ++ le 2 (s.contextsIn .answered),
   le 4 s.rating.implicits ++ le 4 s.rating.missedSeizes ++ le 4 s.rating.unknownStates)

end Sys2Proof.Machine
end

