-- ==== Sys2Proof/Machine/LampLink.lean ====
section
/-! DEFINITION. The lamp link (5.3 to 5.5, 5.8): drive sets, sweeps, return frames and their judgement, lamp
faults, the link status area. -/

namespace Sys2Proof.Machine

/-! ### Frames and the load limit (R93 to R95) -/

/-- A lamp of a pattern and phase is a candidate in the frames with this place `c` in the cycle (R93). -/
def candidate (p : Pattern) (ph : Phase) (c : Nat) : Bool :=
  match p, ph with
  | .steady, _ => true
  | .fast, .a => decide (c % 4 < 2)
  | .fast, .b => decide (2 ≤ c % 4)
  | .slow, .a => decide (c < 8)
  | .slow, .b => decide (8 ≤ c)
  | _, _ => false

/-- The candidate positions of card `k`, rising (R94). -/
def State.candidates (s : State) (k c : Nat) : List Nat :=
  (List.range 64).filter fun p => candidate (s.lampOf (64 * k + p)).pattern (s.lampOf (64 * k + p)).phase c

/-- The candidates left under the load limit (R95): flashing lamps are removed first, then STEADY ones, each
from the highest position, so the lowest STEADY positions are kept first and then the lowest flashing ones. -/
def State.litPositions (s : State) (k c : Nat) : List Nat :=
  let steady (p : Nat) := decide ((s.lampOf (64 * k + p)).pattern = .steady)
  let all := s.candidates k c
  ((all.filter steady) ++ (all.filter fun p => !steady p)).take s.profile.loadLimit

/-- A set of positions as a drive set: bit p for position p (12.8). -/
def positionSet (ps : List Nat) : BitVec 64 := ps.foldl (fun v p => v ||| BitVec.ofNat 64 (2 ^ p)) 0#64

/-- The drive set of card `k` in the frame of counter value `f` (R93 to R95). -/
def State.driveSet (s : State) (k : Nat) (f : BitVec 32) : BitVec 64 :=
  positionSet (s.litPositions k (f.toNat % 16))

/-! ### The sweep (R96) -/

/-- The output frame of card `k` is built and sent (R94, R96, R97). -/
def sendFrame (k : Nat) (f : BitVec 32) (changed : List Nat) (s : State) : State :=
  let d := s.driveSet k f
  { s with lamp.sweep := some { card := k, frame := f, drive := d, changed := changed }
           lamp.dataOut := outputFrame k d }

/-- A sweep starts on a tenth-second event while the part is ACTIVE with a card count above 0 (R96). -/
def startSweep (s : State) : State :=
  if s.active && decide (s.profile.cards > 0) && s.lamp.sweep.isNone then sendFrame 0 s.frame [] s else s

/-! ### The link status area (R106) -/

/-- The link header: the frame counter, the card count and the load limit (12.2). -/
def State.linkHeader (s : State) : List Byte :=
  le 4 s.frame.toNat ++ le 1 s.profile.cards ++ le 1 s.profile.loadLimit

/-- Raise the write of the link header: offsets 3040 to 3045 (R106). -/
def writeLinkHeader (s : State) : State :=
  raise { source := .linkHeader, write := true, addr := s.profileBlock + 3040, beats := 1
          lanes := someLanes 0 s.linkHeader 8 } s

/-- Raise the write of the link status entry of card `k` (R106). -/
def writeLinkEntry (k : Nat) (s : State) : State :=
  raise { source := .linkEntry k, write := true, addr := s.profileBlock + 3072 + 16 * k, beats := 2
          lanes := allLanes (linkEntryBytes (s.card k)) } s

/-- The fields of a card that its entry shows. -/
def Card.shown (c : Card) : LinkState × Nat × BadReason × Bool × BitVec 64 × Nat × Nat :=
  (c.link, c.run, c.reason, c.supplyGood, c.sense, c.good, c.bad)

/-! ### Judging a return (R98) -/

/-- The judgement of what was received in the window of card `k`: NONE stands for good (R98). -/
def judgeReturn (k : Nat) (received : List Byte) : BadReason :=
  if received.length < Config.returnFrameBytes then .noReturn
  else if crc8 (received.take 10) ≠ byteAt received 10 then .check
  else if byteAt received 0 ≠ BitVec.ofNat 8 k then .wrongCard
  else .none

/-- The step of a card's link state on a good return (R99). -/
def Card.stepGood (c : Card) : Card :=
  match c.link with
  | .up => { c with run := 0 }
  | .suspect => { c with link := .up, run := 0 }
  | .down => { c with link := .recovering, run := 1 }
  | .recovering => if c.run < 3 then { c with run := c.run + 1 } else { c with link := .up, run := 0 }

/-- The step of a card's link state on a bad return (R99). -/
def Card.stepBad (c : Card) : Card :=
  match c.link with
  | .up => { c with link := .suspect, run := 1 }
  | .suspect => if c.run < 3 then { c with run := c.run + 1 } else { c with link := .down, run := 0 }
  | .down => { c with run := 0 }
  | .recovering => { c with link := .down, run := 0 }

/-- The mismatch counts of a card's 64 lamps become 0 (R99). -/
def clearMismatches (k : Nat) (s : State) : State :=
  (List.range 64).foldl
    (fun t p => t.setLamp (64 * k + p) { t.lampOf (64 * k + p) with mismatch := 0 }) s

/-- A bad return (R98 to R100): the counts, the link state, CARD DOWN at the fourth in a row. -/
def badReturn (k : Nat) (r : BadReason) (s : State) : State :=
  let c := s.card k
  let d := { c.stepBad with reason := r, bad := sat32 c.bad }
  let s1 := s.setCard k d
  if c.link = .suspect ∧ d.link = .down then notify .lamp .cardDown none16 k r.code s1 else s1

/-! ### Lamp faults (R101, R102) -/

/-- A lamp whose mismatch count has reached 3 with a clear latch is latched (R102). -/
def latchFault (r : Nat) (kind : Latch) (f : BitVec 32) (s : State) : State :=
  let l := s.lampOf r
  if l.mismatch = 3 ∧ l.latch = .none then
    notify .lamp .lampFault r kind.code f.toNat (markLamp r (s.setLamp r { l with latch := kind }))
  else s

/-- Evaluate the lamp of room `r`, commanded and sensed as given (R101, R102). -/
def evaluateLamp (r : Nat) (on sensed : Bool) (f : BitVec 32) (s : State) : State :=
  let l := s.lampOf r
  if !(s.roomShadow r).lampPresent then s
  else if on = sensed then s.setLamp r { l with mismatch := 0 }
  else latchFault r (if on then .isOpen else .stuck) f (s.setLamp r { l with mismatch := min 3 (l.mismatch + 1) })

/-- Compare the sense set with the drive set sent, position by position (R101). DESIGN CHOICE (notes/assumptions/38.md):
no rule orders the LAMP FAULT notices of one return; they are raised in rising position. -/
def evaluateCard (k : Nat) (drive sense : BitVec 64) (f : BitVec 32) (s : State) : State :=
  (List.range 64).foldl
    (fun t p => evaluateLamp (64 * k + p) (drive.getLsbD p) (sense.getLsbD p) f t) s

/-- A good return (R99, R100): the counts, the link state, CARD UP, the held sense set, and the evaluation
on a card that is UP. DESIGN CHOICE (notes/assumptions/33.md): a return with supply-good clear that brings the card from
RECOVERING to UP sets the mismatch counts to 0 as R99 says, though R100 says that such a return leaves them. -/
def goodReturn (w : Sweep) (s : State) : State :=
  let k := w.card
  let c := s.card k
  let supply := decide (byteAt w.received 9 = 1#8)
  let sense := BitVec.ofNat 64 (field w.received 1 8)
  let d := { c.stepGood with
    good := sat32 c.good, supplyGood := supply, sense := if supply then sense else c.sense }
  let s1 := s.setCard k d
  let s2 :=
    if c.link = .recovering ∧ d.link = .up then
      notify .lamp .cardUp none16 k d.bad (clearMismatches k s1)
    else s1
  if supply ∧ d.link = .up then evaluateCard k w.drive sense w.frame s2 else s2

/-- The return of the card just sent is judged and handled (R98). -/
def judgeCard (w : Sweep) (s : State) : State :=
  match judgeReturn w.card w.received with
  | .none => goodReturn w s
  | r => badReturn w.card r s

/-- The cards whose fields changed so far in the sweep, this card counted (R106). -/
def sweepChanged (w : Sweep) (before after : Card) : List Nat :=
  if before.shown = after.shown then w.changed else w.changed ++ [w.card]

/-- The window closes (R96, R98): the return is judged, then the next card's frame is sent, or the sweep
ends and the changed entries are written (R106). DESIGN CHOICE (notes/assumptions/38.md): they are raised in rising card
order. -/
def closeWindow (w : Sweep) (s : State) : State :=
  let s1 := judgeCard w s
  let changed := sweepChanged w (s.card w.card) (s1.card w.card)
  if w.card + 1 < s1.profile.cards then sendFrame (w.card + 1) w.frame changed s1
  else
    changed.foldl (fun t k => writeLinkEntry k t) { s1 with lamp.sweep := none, lamp.dataOut := [] }

/-! ### Selectors (R103) -/

/-- The rooms a selector names, rising; `none` where it is refused (R103). -/
def State.selected (s : State) (kind value : Nat) : Option (List Nat) :=
  if kind = 0 then if value < s.roomCount then some [value] else none
  else if kind = 1 then
    if value < s.profile.floors then some ((List.range 64).map fun p => 64 * value + p) else none
  else if kind = 2 then
    if value < 64 then some ((List.range s.profile.floors).map fun f => 64 * f + value) else none
  else if kind = 3 then some (List.range s.roomCount)
  else none

/-- Clear the fault state of a room (R105). -/
def clearFault (r : Nat) (s : State) : State :=
  let l := s.lampOf r
  let s1 := s.setLamp r { l with latch := .none, mismatch := 0 }
  if l.latch = .none then s1 else markLamp r s1

end Sys2Proof.Machine
end

