-- ==== Sys2Proof/Machine/Orders.lean ====
section
/-! DEFINITION. The fourteen orders (10.6), each as a refusal, the release-queue places it needs, and what it
does at take; then the take itself (10.4). `c` is the copy of the slot read at take. -/

namespace Sys2Proof.Machine

/-! ### Channels named by an order -/

/-- The channels that are FREE, rising. -/
def State.freeChannels (s : State) : List Nat :=
  (List.range 16).filter fun ch => decide ((s.channel ch).state = .free)

/-- The channel byte is 0 to 15 or ANY (R49, R61). -/
def channelByteOk (b : Nat) : Bool := decide (b < 16) || b = 255

/-- The channel an open names is not to be had: the refusal (R49, R61). -/
def State.channelRefusal (s : State) (b : Nat) : Option Status :=
  if b = 255 then (if s.freeChannels = [] then some .noChannel else none)
  else if (s.channel b).state = .free then none else some .channelState

/-- The channel an open claims: the one named, or the lowest-numbered FREE one (R49). DESIGN CHOICE
(notes/assumptions/45.md): R61 does not say which FREE channel PLAY OPEN claims for ANY; it is the lowest-numbered one
too. -/
def State.claimed (s : State) (b : Nat) : Nat := if b = 255 then s.freeChannels.headD 0 else b

/-! ### RECORD OPEN (R49, R50) -/

/-- The caller digits of the order (12.6). -/
def callerDigits (c : List Byte) : List Nat := nibbles (slice c 16 10) (param c 12 1)

/-- The checks of RECORD OPEN, in order (R49). -/
def recordOpenRefusal (c : List Byte) (s : State) : Option Status :=
  let room := param c 8 2
  let urgent := param c 10 1
  if !(channelByteOk (param c 11 1) && decide (urgent < 2) && decide (param c 12 1 ≤ 20)
      && (callerDigits c).all fun d => decide (d < 12)) then some .badParameter
  else if room ≥ s.roomCount then some .badParameter
  else if !s.occupied room then some .roomVacant
  else if (s.mailbox room).places ≥ Config.mailboxMax then some .mailboxFull
  else if s.store.freeRecords = [] then some .tableFull
  else (s.channelRefusal (param c 11 1)).or (s.takeRefusal room (urgent = 1))

/-- The message RECORD OPEN creates in record `i` (R49, R30, R32). -/
def newMessage (c : List Byte) (i : Nat) (s : State) : Message :=
  { generation := (s.message i).generation + 1, state := .recording, room := param c 8 2
    urgent := param c 10 1 = 1, serial := s.store.serial, stamp := s.stamp, digits := callerDigits c }

/-- Create the message (R49): the record leaves the free bitmap, the serial rises, a place is taken. -/
def createMessage (c : List Byte) (i : Nat) (s : State) : State :=
  let room := param c 8 2
  let s1 := updateMessage i (newMessage c i s) s
  setPlaces room ((s.mailbox room).places + 1)
    { s1 with store.freeRecords := dropMark s1.store.freeRecords i, store.serial := sat32 s.store.serial }

/-- RECORD OPEN at take (R49, R50). -/
def recordOpenAct (slot : Nat) (c : List Byte) (s : State) : State :=
  let i := s.store.freeRecords.headD 0
  let ch := s.claimed (param c 11 1)
  let s1 := createMessage c i s
  requestTake ch (s1.setChannel ch
    { state := .opening, dir := .record, index := i, generation := (s1.message i).generation
      room := param c 8 2, stepIndex := s.profile.stepIndex, order := some slot })

/-! ### RECORD CLOSE (R58), RECORD ABANDON (R59) -/

/-- The checks of RECORD CLOSE and RECORD ABANDON (R58, R59). -/
def recordEndRefusal (c : List Byte) (s : State) : Option Status :=
  let ch := param c 8 1
  if ch > 15 then some .badParameter
  else if (s.channel ch).dir = .record ∧
      ((s.channel ch).state = .recording ∨ (s.channel ch).state = .stopped) then none
  else some .channelState

/-- The channel enters CLOSING for the order; the length of a recording that ends here is brought up to
date (R51, R58, R59). -/
def enterClosing (slot ch : Nat) (how : Closing) (s : State) : State :=
  let c := s.channel ch
  let s1 := if c.state = .recording then updateLength ch s else s
  s1.setChannel ch { c with state := .closing, closing := how, order := some slot }

/-- RECORD CLOSE at take (R58). -/
def recordCloseAct (slot : Nat) (c : List Byte) (s : State) : State :=
  let ch := param c 8 1
  let s1 := enterClosing slot ch .close s
  afterWrites ch (if (s.channel ch).state = .recording then closeBlocks ch s1 else s1)

/-- RECORD ABANDON at take (R59). -/
def recordAbandonAct (slot : Nat) (c : List Byte) (s : State) : State :=
  let ch := param c 8 1
  let s1 := enterClosing slot ch .abandon s
  afterWrites ch (if (s.channel ch).state = .recording then dropUnwritten ch s1 else s1)

/-! ### PLAY OPEN (R61, R62) -/

/-- PLAY OPEN names its message by NEXT (R195). -/
def byNext (c : List Byte) : Bool := decide (param c 10 2 = none16)

/-- The message PLAY OPEN names: the list head with NEXT, the handle's index otherwise. -/
def State.playIndex (s : State) (c : List Byte) : Nat :=
  if byNext c then (s.mailbox (param c 8 2)).list.headD none16 else param c 10 2

/-- The message is there to be played (R61, second and third checks). -/
def State.playFound (s : State) (c : List Byte) : Bool :=
  if byNext c then !(s.mailbox (param c 8 2)).list.isEmpty
  else
    let m := s.message (param c 10 2)
    decide (m.state ≠ .free) && decide (m.generation = param c 12 2) && decide (m.state ≠ .deleting)
      && decide (m.room = param c 8 2)

/-- The checks of PLAY OPEN, in order (R61). -/
def playOpenRefusal (c : List Byte) (s : State) : Option Status :=
  if !(channelByteOk (param c 14 1) && decide (param c 8 2 < s.roomCount)
      && (byNext c || decide (param c 10 2 < s.profile.records))) then some .badParameter
  else if !s.playFound c then some .noSuchMessage
  else if (s.message (s.playIndex c)).state = .recording then some .notReady
  else s.channelRefusal (param c 14 1)

/-- Claim channel `ch` for message `i` (R61). The position is the next stream position to be yielded (R45): the
start offset o, capped where it does not fit the 32-bit field, as DONE carries it (notes/assumptions/28.md). -/
def claimPlay (slot ch i offset : Nat) (s : State) : State :=
  let m := s.message i
  let o := 8 * offset
  let b := o / Config.blockSamples
  let c := s.channel ch
  s.setChannel ch
    { state := .opening, dir := .play, stopReason := c.stopReason, checkedOut := c.checkedOut
      index := i, generation := m.generation, room := m.room, position := min o none32, order := some slot
      walkLeft := b, discard := o - Config.blockSamples * b, offset := o
      reached := Config.blockSamples * b }

/-- PLAY OPEN at take (R61, R62, R15). -/
def playOpenAct (slot : Nat) (c : List Byte) (s : State) : State :=
  let i := s.playIndex c
  let ch := s.claimed (param c 14 1)
  let m := s.message i
  let s1 := claimPlay slot ch i (param c 16 4) (updateMessage i { m with readers := m.readers + 1 } s)
  if 8 * param c 16 4 ≥ m.length then openEnded ch s1
  else if 8 * param c 16 4 < Config.blockSamples then fetchBlock ch false m.first s1
  else raiseOffsetRead ch m.first s1

/-! ### PLAY CLOSE (R67, R38) -/

/-- The checks of PLAY CLOSE (R67). -/
def playCloseRefusal (c : List Byte) (s : State) : Option Status :=
  let ch := param c 8 1
  if ch > 15 ∨ param c 9 1 > 3 then some .badParameter
  else if (s.channel ch).state = .playing ∨ (s.channel ch).state = .ended then none
  else some .channelState

/-- The message as the fall of its reader count leaves it (R67). -/
def State.closedMessage (s : State) (ch : Nat) : Message :=
  let m := s.message (s.channel ch).index
  { m with readers := m.readers - 1 }

/-- The places PLAY CLOSE needs: one when it starts a release (R37, R38). -/
def playClosePlaces (c : List Byte) (s : State) : Nat :=
  let m := s.closedMessage (param c 8 1)
  if m.state = .deleting ∨ (m.state.listed ∧ param c 9 1 = 3) then m.placesNeeded else 0

/-- Apply the disposition to message `i` (R67, R38): 1 is HEARD, 2 is SAVE, 3 is DELETE. -/
def dispose (i d : Nat) (s : State) : State :=
  let m := s.message i
  if m.state = .deleting then (if m.readers = 0 then queueChain i .silent s else s)
  else if d = 1 ∧ m.state = .new then moveMessage i .heard s
  else if d = 2 ∧ (m.state = .new ∨ m.state = .heard) then moveMessage i .saved s
  else if d = 3 ∧ m.state.listed then releaseMessage i .silent s
  else s

/-- A buffer as PLAY CLOSE leaves it: one being fetched is waited for (R67). -/
def Buffer.dropped (b : Buffer) : Buffer := if b.cond = .fetching then b else {}

/-- The channel drops its buffers and becomes FREE, or CLOSING while a fetch is in flight (R67). -/
def dropBuffers (ch : Nat) (s : State) : State :=
  let c := s.channel ch
  let inFlight := decide (c.buffer0.cond = .fetching) || decide (c.buffer1.cond = .fetching)
  s.setChannel ch
    { c with buffer0 := c.buffer0.dropped, buffer1 := c.buffer1.dropped
             state := if inFlight then .closing else .free }

/-- PLAY CLOSE at take (R67). -/
def playCloseAct (slot : Nat) (c : List Byte) (s : State) : State :=
  let ch := param c 8 1
  let d := param c 9 1
  let i := (s.channel ch).index
  let m := s.closedMessage ch
  let s1 := dropBuffers ch (dispose i d (updateMessage i m s))
  completeOrder slot .done (decide (d = 3) && m.state.listed && decide (m.readers > 0))
    (le 1 (s1.message i).state.code) s1

/-! ### The store orders (R39 to R42) -/

/-- The handle check (R33), then MESSAGE BUSY (R39, R40, R41). -/
def handleRefusal (c : List Byte) (s : State) : Option Status :=
  let i := param c 8 2
  let m := s.message i
  if i ≥ s.profile.records then some .badParameter
  else if m.state = .free ∨ m.generation ≠ param c 10 2 then some .noSuchMessage
  else if m.state = .deleting then some .noSuchMessage
  else if m.state = .recording then some .messageBusy
  else none

/-- MESSAGE SAVE at take (R39). -/
def messageSaveAct (slot : Nat) (c : List Byte) (s : State) : State :=
  let i := param c 8 2
  let st := (s.message i).state
  let s1 := if st = .new ∨ st = .heard then moveMessage i .saved s else s
  completeOrder slot .done false (le 1 st.code) s1

/-- MESSAGE MARK NEW at take (R40). -/
def messageMarkNewAct (slot : Nat) (c : List Byte) (s : State) : State :=
  let i := param c 8 2
  let st := (s.message i).state
  let s1 := if st = .heard ∨ st = .saved then moveMessage i .new s else s
  completeOrder slot .done false (le 1 st.code) s1

/-- The order goes on until `left` things have ended, then it is DONE with these results. -/
def holdOrder (slot left : Nat) (deferred : Bool) (res : List Byte) (s : State) : State :=
  updateEntry slot (fun e => { e with left := left, deferred := deferred, result := res }) s

/-- The places MESSAGE DELETE needs (R37, R41). -/
def messageDeletePlaces (c : List Byte) (s : State) : Nat := (s.message (param c 8 2)).placesNeeded

/-- MESSAGE DELETE at take (R41). -/
def messageDeleteAct (slot : Nat) (c : List Byte) (s : State) : State :=
  let i := param c 8 2
  let m := s.message i
  let s1 := releaseMessage i (.order slot) s
  if m.readers > 0 then completeOrder slot .done true (le 4 m.blocks) s1
  else if m.blocks = 0 then completeOrder slot .done false (le 4 m.blocks) s1
  else holdOrder slot 1 false (le 4 m.blocks) s1

/-- The checks of MAILBOX PURGE (R42). -/
def mailboxPurgeRefusal (c : List Byte) (s : State) : Option Status :=
  if param c 8 2 ≥ s.roomCount ∨ param c 10 1 > 1 then some .badParameter else none

/-- The messages in scope, in play order (R42). -/
def State.purgeScope (s : State) (c : List Byte) : List Nat :=
  (s.mailbox (param c 8 2)).list.filter fun i =>
    decide (param c 10 1 = 0) || decide ((s.message i).state = .heard)

/-- The places the release of these messages needs (R42, R76). -/
def State.placesFor (s : State) (list : List Nat) : Nat :=
  (list.map fun i => (s.message i).placesNeeded).sum

/-- MAILBOX PURGE at take (R42). DESIGN CHOICE (notes/assumptions/36.md): R42 gives the releases of one purge no order;
they are made in play order, so the chains join the release queue in that order. -/
def mailboxPurgeAct (slot : Nat) (c : List Byte) (s : State) : State :=
  let list := s.purgeScope c
  let deferred := (list.filter fun i => decide ((s.message i).readers > 0)).length
  let waits := s.placesFor list
  let res := le 2 list.length ++ le 2 deferred
  let s1 := list.foldl (fun t i => releaseMessage i (.order slot) t) s
  if waits = 0 then completeOrder slot .done (decide (deferred > 0)) res s1
  else holdOrder slot waits (decide (deferred > 0)) res s1

/-! ### The lamp orders (R103 to R105) -/

/-- The rooms the order's selector names (R103). -/
def State.orderRooms (s : State) (c : List Byte) : Option (List Nat) := s.selected (param c 8 1) (param c 10 2)

/-- The checks of LAMP OVERRIDE (R103, R104). -/
def lampOverrideRefusal (c : List Byte) (s : State) : Option Status :=
  if (s.orderRooms c).isNone ∨ (overrideOf (param c 12 1)).isNone then some .badParameter else none

/-- LAMP OVERRIDE at take (R104). -/
def lampOverrideAct (slot : Nat) (c : List Byte) (s : State) : State :=
  let rooms := (s.orderRooms c).getD []
  let o := (overrideOf (param c 12 1)).getD .none
  let s1 := rooms.foldl (fun t r => setOverride o r t) s
  let changed := (rooms.filter fun r => decide ((s1.lampOf r).pattern ≠ (s.lampOf r).pattern)).length
  completeOrder slot .done false (le 2 rooms.length ++ le 2 changed) s1

/-- The checks of LAMP FAULT CLEAR (R103). -/
def lampFaultClearRefusal (c : List Byte) (s : State) : Option Status :=
  if (s.orderRooms c).isNone then some .badParameter else none

/-- LAMP FAULT CLEAR at take (R105). -/
def lampFaultClearAct (slot : Nat) (c : List Byte) (s : State) : State :=
  let rooms := (s.orderRooms c).getD []
  let cleared := (rooms.filter fun r => decide ((s.lampOf r).latch ≠ .none)).length
  completeOrder slot .done false (le 2 rooms.length ++ le 2 cleared)
    (rooms.foldl (fun t r => clearFault r t) s)

/-! ### The folio orders (R143, R144) -/

/-- The place FOLIO ADJUST names (R195). -/
def orderPlace (c : List Byte) : Place := if param c 10 1 = 0 then .opened else .closed

/-- The checks of FOLIO ADJUST (R143). -/
def folioAdjustRefusal (c : List Byte) (s : State) : Option Status :=
  if param c 8 2 ≥ s.roomCount ∨ param c 10 1 > 1 then some .badParameter
  else if ((s.folios (param c 8 2)).place (orderPlace c)).isNone then some .noSuchFolio
  else none

/-- The ADJUST record's content (R135, R143). -/
def adjustCharge (c : List Byte) (serial : Nat) (s : State) : Charge :=
  { kind := .adjust, clockUnset := !s.time.clockSet, trunk := none16, room := param c 8 2
    serial := serial, stamp := s.stamp, amount := signed32 (param c 16 4), reason := param c 12 2 }

/-- FOLIO ADJUST at take (R143): DONE when the record's queue entries are written, at once when it is not
stored. -/
def folioAdjustAct (slot : Nat) (c : List Byte) (s : State) : State :=
  let r := param c 8 2
  let p := orderPlace c
  match (s.folios r).place p with
  | none => s
  | some f =>
    let (k, s1) := appendCharge r p f (adjustCharge c f.serial s) (some slot) s
    let total := saturate32 (f.total + signed32 (param c 16 4))
    let res := le 4 f.serial ++ leInt 4 total ++ le 4 (k.getD none32)
    match k with
    | some _ => holdOrder slot f.entriesNeeded false res s1
    | none => completeOrder slot .done false res s1

/-- The checks of FOLIO RELEASE (R144). -/
def folioReleaseRefusal (c : List Byte) (s : State) : Option Status :=
  if param c 8 2 ≥ s.roomCount then some .badParameter
  else if (s.folios (param c 8 2)).closed.any fun f => decide (f.serial = param c 12 4) then none
  else some .noSuchFolio

/-- FOLIO RELEASE at take (R144). -/
def folioReleaseAct (slot : Nat) (c : List Byte) (s : State) : State :=
  let r := param c 8 2
  match (s.folios r).closed with
  | none => s
  | some f =>
    let s1 := returnRecords f s
    completeOrder slot .done false
      (le 4 f.count ++ leInt 4 f.total ++ le 2 f.late ++ boolByte f.incomplete)
      (markFolio r (s1.setFolios r { s1.folios r with closed := none }))

/-! ### CLOCK SET (R182) -/

/-- The check of CLOCK SET (R182). -/
def clockSetRefusal (c : List Byte) (_s : State) : Option Status :=
  if param c 12 4 ≥ Config.tenthsPerDay then some .badParameter else none

/-- CLOCK SET at take (R182). -/
def clockSetAct (slot : Nat) (c : List Byte) (s : State) : State :=
  completeOrder slot .done false
    (le 2 s.time.day.toNat ++ zeros 2 ++ le 4 s.time.clock ++ boolByte s.time.clockSet)
    { s with time.day := BitVec.ofNat 16 (param c 8 2), time.clock := param c 12 4, time.clockSet := true }

/-! ### The fourteen together (10.6) -/

/-- The refusal an order meets, if any (R178, step 2). -/
def orderRefusal (o : Order) (c : List Byte) (s : State) : Option Status :=
  match o with
  | .recordOpen => recordOpenRefusal c s
  | .recordClose => recordEndRefusal c s
  | .recordAbandon => recordEndRefusal c s
  | .playOpen => playOpenRefusal c s
  | .playClose => playCloseRefusal c s
  | .messageSave => handleRefusal c s
  | .messageMarkNew => handleRefusal c s
  | .messageDelete => handleRefusal c s
  | .mailboxPurge => mailboxPurgeRefusal c s
  | .lampOverride => lampOverrideRefusal c s
  | .lampFaultClear => lampFaultClearRefusal c s
  | .folioAdjust => folioAdjustRefusal c s
  | .folioRelease => folioReleaseRefusal c s
  | .clockSet => clockSetRefusal c s

/-- The release-queue places an order needs that is not refused (R26). -/
def orderPlaces (o : Order) (c : List Byte) (s : State) : Nat :=
  match o with
  | .playClose => playClosePlaces c s
  | .messageDelete => messageDeletePlaces c s
  | .mailboxPurge => s.placesFor (s.purgeScope c)
  | _ => 0

/-- What an order that is not refused does at its take (R178, step 3). -/
def orderAct (o : Order) (slot : Nat) (c : List Byte) (s : State) : State :=
  match o with
  | .recordOpen => recordOpenAct slot c s
  | .recordClose => recordCloseAct slot c s
  | .recordAbandon => recordAbandonAct slot c s
  | .playOpen => playOpenAct slot c s
  | .playClose => playCloseAct slot c s
  | .messageSave => messageSaveAct slot c s
  | .messageMarkNew => messageMarkNewAct slot c s
  | .messageDelete => messageDeleteAct slot c s
  | .mailboxPurge => mailboxPurgeAct slot c s
  | .lampOverride => lampOverrideAct slot c s
  | .lampFaultClear => lampFaultClearAct slot c s
  | .folioAdjust => folioAdjustAct slot c s
  | .folioRelease => folioReleaseAct slot c s
  | .clockSet => clockSetAct slot c s

/-! ### The take (R175, R176) -/

/-- The order of a copy. -/
def copyOrder (c : List Byte) : Option Order := orderOf (param c 1 1)

/-- The copy reads POSTED (R175). -/
def copyPosted (c : List Byte) : Bool := decide (byteAt c 0 = 1#8)

/-- The places the order of a copy needs as the state stands; a refused order needs none (R176). -/
def State.placesOf (s : State) (c : List Byte) : Nat :=
  match copyOrder c with
  | none => 0
  | some o => if (orderRefusal o c s).isSome then 0 else orderPlaces o c s

/-- The order is evaluated and acts (R178). An order that is refused carries no results (notes/assumptions/34.md). -/
def actOnCopy (slot : Nat) (c : List Byte) (s : State) : State :=
  match copyOrder c with
  | none => completeOrder slot .unknownOrder false [] s
  | some o =>
    match orderRefusal o c s with
    | some st => completeOrder slot st false [] s
    | none => orderAct o slot c s

/-- The take of slot `slot` completes (R175): the EXECUTING write is raised, the order's changes are
applied, and c advances. -/
def completeTake (slot : Nat) (c : List Byte) (s : State) : State :=
  let s1 := raiseExecuting slot c
    (updateEntry slot (fun e => { e with code := param c 1 1, copy := c, stage := .executing }) s)
  let s2 := actOnCopy slot c
    { s1 with ring.taking := none, ring.ordersTaken := sat32 s1.ring.ordersTaken }
  { s2 with ring.consumer := (s2.ring.consumer + 1) % s2.profile.orderSlots }

/-- The take read has returned with POSTED (R175, R176): the take completes, or waits for places. -/
def takeOrder (slot : Nat) (c : List Byte) (s : State) : State :=
  let n := s.placesOf c
  if s.grantsAtOnce n then completeTake slot c s
  else
    joinReleaseLine .take n
      (updateEntry slot (fun e => { e with code := param c 1 1, copy := c, stage := .waiting }) s)

/-- The take read has returned (R175): a slot no longer POSTED is released without a write. -/
def takeReturned (slot : Nat) (c : List Byte) (s : State) : State :=
  if copyPosted c then takeOrder slot c s
  else freeEntry slot { s with ring.taking := none }

/-- The first request of the release line gets a new number and stays first (R76, R176). -/
def renewFirst (n : Nat) (s : State) : State :=
  match s.store.releaseLine with
  | [] => s
  | w :: t => { s with store.releaseLine := { w with need := n } :: t }

/-- The first request leaves the release line. -/
def leaveReleaseLine (s : State) : State := { s with store.releaseLine := s.store.releaseLine.tail }

/-- Places are granted to the take that waits first in the release line for `need` of them (R176). -/
def takeGranted (slot need : Nat) (c : List Byte) (s : State) : State :=
  if s.placesOf c ≤ need then completeTake slot c (leaveReleaseLine s)
  else renewFirst (s.placesOf c) s

end Sys2Proof.Machine
end

