-- ==== Sys2Proof/Machine/Release.lean ====
section
/-! DEFINITION. The free stack's pops and pushes (2.3, 2.4) and the release walk (2.7). -/

namespace Sys2Proof.Machine

/-! ### Pops and pushes (R19, R21, R22) -/

/-- A pop may start (R21). -/
def State.canPop (s : State) : Bool :=
  s.active && decide (s.store.pocket.length ≤ Config.refillLevel) && decide (s.stackCount > 0)
    && decide (s.store.stackOp = .none) && s.store.pushLine.isEmpty

/-- The beat that holds a free-stack entry, and the entry's lane in it (12.4: an entry is 4 bytes). -/
def stackBeat (p : Addr) : Nat × Nat := (8 * (p.toNat / 8), p.toNat % 8)

/-- Start a pop (R19, R21): the pointer rises, an arriving entry goes on top of the pocket, and the 4 bytes
at the new pointer are read. -/
def startPop (s : State) : State :=
  let p := s.store.stackPtr + 4#34
  raise { source := .pop, write := false, addr := (stackBeat p).1, beats := 1 }
    { s with store.stackPtr := p, store.stackOp := .pop, store.pocket := .arriving :: s.store.pocket }

/-- A pop's read has returned (R21): the entry is ready, and the take line is served (R24). -/
def popReturned (data : List Byte) (s : State) : State :=
  let b := field data (stackBeat s.store.stackPtr).2 4
  takeLineTurn { s with store.stackOp := .none, store.pocket := arrive b s.store.pocket }

/-- A push may start (R22). -/
def State.canPush (s : State) : Bool :=
  !s.store.pushLine.isEmpty && decide (s.store.stackOp = .none)

/-- Start the oldest push that waits (R19, R22): the 4 bytes at the pointer are written, the pointer
falls. -/
def startPush (s : State) : State :=
  match s.store.pushLine with
  | [] => s
  | b :: rest =>
    let p := s.store.stackPtr
    raise { source := .push, write := true, addr := (stackBeat p).1, beats := 1
            lanes := someLanes (stackBeat p).2 (le 4 b) 8 }
      { s with store.pushLine := rest, store.stackOp := .push, store.stackPtr := p - 4#34 }

/-! ### The walk (R27, R29) -/

/-- The end of a release is reported to its cause (R29). -/
def reportRelease (cause : Cause) (s : State) : State :=
  match cause with
  | .order slot => orderStep slot s
  | .channel ch => channelReleased ch s
  | .silent => s

/-- The entry in hand is complete (R27, R29): it leaves the queue, its record becomes FREE, its cause is
told, and the walk of the next entry starts. -/
def completeEntry (e : ReleaseEntry) (rest : List ReleaseEntry) (s : State) : State :=
  startWalk (reportRelease e.cause
    (freeRecord e.index { s with store.releaseQueue := rest, store.walk := none }))

/-- The block in hand is released: the free count rises, the room's blocks used fall (R27), and the take line
is served (R24). -/
def releaseInHand (w : Walk) (e : ReleaseEntry) (s : State) : State :=
  let r := (s.message e.index).room
  takeLineTurn (releaseBlock w.block (setBlocksUsed r ((s.mailbox r).blocksUsed - 1) s))

/-- A header read of the walk has returned (R27). -/
def walkReturned (header : List Byte) (s : State) : State :=
  match s.store.walk, s.store.releaseQueue with
  | some w, e :: rest =>
    let s1 := releaseInHand w e s
    let n := headerNext header
    if w.remaining ≤ 1 ∨ n ≥ s.profile.blocks then completeEntry e rest s1
    else raiseWalk ⟨n, w.remaining - 1⟩ s1
  | _, _ => s

/-- The release line's first request can be granted (R26). -/
def State.lineGrant (s : State) : Option ReleaseRequest :=
  match s.store.releaseLine with
  | [] => none
  | w :: _ => if w.need ≤ s.freePlaces then some w else none

end Sys2Proof.Machine
end

