-- ==== Sys2Proof/Machine/Profile.lean ====
section
/-! DEFINITION. Profile control (11.3): reading the profile, the checks of R186, the activation status, entering
STARTING, and STOP (11.6). `h` is the 2048 bytes of the profile host part. -/

namespace Sys2Proof.Machine

/-! ### Clamps -/

/-- 0 or above the limit: taken as the limit. -/
def clampTo (limit v : Nat) : Nat := if v = 0 ∨ v > limit then limit else v

/-- The settings as the owning chapters clamp them (R9, R17, R47, R71, R88, R110, R135, R172, R184). -/
def parseProfile (h : List Byte) : Profile :=
  let floors := min 64 (field h 88 4)
  let n := min 1048576 (field h 124 4)
  { noticeEnable := BitVec.ofNat 32 (field h 4 4)
    apertureBase := field h 8 8, roomBase := field h 16 8, trunkBase := field h 24 8
    tariffBase := field h 32 8, orderBase := field h 40 8, noticeBase := field h 48 8
    messageBase := field h 56 8, poolBase := field h 64 8, stackBase := field h 72 8
    storeBase := field h 80 8
    floors := floors, cards := min floors (field h 92 4), loadLimit := clampTo 64 (field h 96 4)
    trunks := min 256 (field h 100 4), tariffs := min 512 (field h 104 4)
    orderSlots := max 8 (min 256 (field h 108 4)), noticeSlots := max 16 (min 1024 (field h 112 4))
    records := min 16384 (field h 116 4), poolRecords := min 65536 (field h 120 4), blocks := n
    reserve := min n (field h 128 4), storeLowLevel := min n (field h 132 4)
    defaultQuota := clampTo n (field h 136 4), stepIndex := min 63 (field h 140 4)
    recordLimit := clampTo 36000 (field h 144 4), minRecord := min 600 (field h 148 4)
    stallLimit := max 1 (min 255 (field h 152 4)), dayStart := field h 156 4, nightStart := field h 160 4
    logUnanswered := byteAt h 164 = 1#8 }

/-! ### The arbiter lists (R166) -/

/-- The requester of a number. -/
def requesterOf (n : Nat) : Option Requester :=
  if n = 0 then some .host else if n = 1 then some .voice else if n = 2 then some .directory
  else if n = 3 then some .rating else if n = 4 then some .lamp else none

/-- The direction of a code (R195). -/
def busDirOf (n : Nat) : Option BusDir :=
  if n = 0 then some .either else if n = 1 then some .read else if n = 2 then some .write else none

/-- One entry: requester, then direction; `none` when either is out of range (R166, 12.2). -/
def listEntryAt (h : List Byte) (off : Nat) : Option ListEntry :=
  match requesterOf (field h off 1), busDirOf (field h (off + 1) 1) with
  | some w, some d => some ⟨w, d⟩
  | _, _ => none

/-- The first `n` entries of a list, 2 bytes each from `off`; `none` when one is out of range (R166). -/
def listEntries (h : List Byte) (off : Nat) : Nat → Option (List ListEntry)
  | 0 => some []
  | n + 1 =>
    match listEntryAt h off, listEntries h (off + 2) n with
    | some e, some es => some (e :: es)
    | _, _ => none

/-- Every requester has an EITHER entry in the priority or the round-robin list (R166). -/
def Lists.served (l : Lists) : Bool :=
  [Requester.host, .voice, .directory, .rating, .lamp].all fun w =>
    (l.priority ++ l.roundRobin).any fun e => decide (e = ⟨w, .either⟩)

/-- The three lists, or `none` where R166 fails. -/
def parseLists (h : List Byte) : Option Lists :=
  match listEntries h 172 (min 32 (field h 168 1)), listEntries h 236 (min 5 (field h 169 1)),
      listEntries h 246 (min 8 (field h 170 1)) with
  | some w, some p, some r => if (Lists.mk w p r).served then some ⟨w, p, r⟩ else none
  | _, _, _ => none

/-! ### The checks (R154, R186) -/

/-- Check 1: the ranges that refuse the activation (R186). -/
def rangesOk (p : Profile) : Bool :=
  decide (p.floors ≠ 0) && decide (64 ≤ p.blocks) && decide (64 ≤ p.records)
    && decide (p.dayStart < Config.tenthsPerDay) && decide (p.nightStart < Config.tenthsPerDay)

/-- Check 2: every base aligned as R153 requires. -/
def aligned (p : Profile) : Bool :=
  decide (p.apertureBase % 1048576 = 0) &&
  ([p.roomBase, p.trunkBase, p.tariffBase, p.orderBase, p.noticeBase, p.messageBase, p.poolBase,
    p.stackBase, p.storeBase].all fun b => decide (b % 4096 = 0))

/-- Check 3: every region ends at or below 2^34, and its base lies below it (R154, 12.2). -/
def withinSpace (block : Nat) (p : Profile) : Bool :=
  (regionsOf block p).all fun r =>
    decide (r.2.1 < Config.addressSpace) && decide (r.2.1 + r.2.2 ≤ Config.addressSpace)

/-- Two regions share no byte; a region of length 0 overlaps nothing (R154). -/
def apart (a b : Region × Nat × Nat) : Bool :=
  a.2.2 = 0 || b.2.2 = 0 || decide (a.2.1 + a.2.2 ≤ b.2.1) || decide (b.2.1 + b.2.2 ≤ a.2.1)

/-- Every region of a list is apart from those after it. -/
def allApart : List (Region × Nat × Nat) → Bool
  | [] => true
  | r :: rs => rs.all (apart r) && allApart rs

/-- The result of validation: the error code of the first check that fails, or the settings and lists
(R186). -/
def validate (block : Nat) (h : List Byte) : ActResult ⊕ (Profile × Lists) :=
  let p := parseProfile h
  if !rangesOk p then .inl .range
  else if !aligned p then .inl .alignment
  else if !withinSpace block p then .inl .range
  else if !allApart (regionsOf block p) then .inl .overlap
  else
    match parseLists h with
    | none => .inl .lists
    | some l => .inr (p, l)

/-! ### Activation status (R187) -/

/-- The activation status: part state, result, last activation value acted on (12.2); the gap at 2050 and 2051 is
written 00h (notes/assumptions/35.md). -/
def State.activationStatus (s : State) : List Byte :=
  le 1 s.control.state.code ++ le 1 s.control.result.code ++ zeros 2 ++ le 4 s.control.lastValue

/-- Raise the write of the activation status (R187): offset 2048. -/
def writeActivation (s : State) : State :=
  raise { source := .activation, write := true, addr := s.profileBlock + 2048, beats := 1
          lanes := allLanes s.activationStatus } s

/-- Record a result and write the activation status (R187). -/
def recordResult (r : ActResult) (s : State) : State :=
  writeActivation { s with control.result := r }

/-! ### Validation (R186) -/

/-- The 32 line reads of the host part (R186). -/
def validationReads (s : State) : List Request :=
  (List.range 32).map fun k =>
    { source := .validation k, write := false, addr := s.profileBlock + 64 * k, beats := 8 }

/-- FORMAT or ADOPT written while PASSIVE (R186, R187). -/
def startValidation (kind : StartKind) (s : State) : State :=
  raiseAll (validationReads s) { s with control.validating := some kind }

/-- A validation read. -/
def Source.isValidation : Source → Bool
  | .validation _ => true
  | _ => false

/-- The bytes the validation reads returned, in grant order. -/
def State.validationData (s : State) : List Byte :=
  (s.arbiter.returned.filter fun r => r.source.isValidation).flatMap fun r => r.data

/-- Every line of the host part has been read. -/
def State.validationDone (s : State) : Bool :=
  s.control.validating.isSome &&
    decide ((s.arbiter.returned.filter fun r => r.source.isValidation).length = 32)

/-- The load reads of STARTING, in order (R188). -/
def loadTargets (p : Profile) : List LoadTarget :=
  (List.range (64 * p.floors)).map .room ++ (List.range p.trunks).map .trunk
    ++ (List.range p.tariffs).map .tariff

/-- The part enters STARTING with a validated copy (R170, R187, R188). -/
def enterStarting (kind : StartKind) (p : Profile) (l : Lists) (s : State) : State :=
  recordResult .started
    { s with
      control.state := .starting, control.profile := p, control.work := { kind := kind }
      host.loads := loadTargets p
      arbiter.lists := l, arbiter.wheelPos := 0, arbiter.roundPos := l.roundRobin.length - 1 }

/-- Validation ends (R186, R187). -/
def endValidation (kind : StartKind) (s : State) : State :=
  let h := s.validationData
  let s1 := { s with
    control.validating := none
    arbiter.returned := s.arbiter.returned.filter fun r => !r.source.isValidation }
  match validate s.profileBlock h with
  | .inl r => recordResult r s1
  | .inr (p, l) => enterStarting kind p l s1

/-! ### STOP (R193) -/

/-- What becomes of a burst in flight (R165, R170): requester 0's request bursts keep their meaning, the
others are carried to their acknowledge for nobody. -/
def Carried.stopped (c : Carried) : Carried :=
  if c.req.source.requester = .host ∧ c.req.source ≠ .loadRead then c
  else { c with req := { c.req with source := .orphan } }

/-- Requester 0's requests that STOP keeps: all but those of load reads (R170). -/
def keptAtStop (rs : List Request) : List Request :=
  rs.filter fun r => decide (r.source.requester = .host) && decide (r.source ≠ .loadRead)

/-- The arbiter after STOP (R170, R171). -/
def Arbiter.stopped (a : Arbiter) : Arbiter :=
  { lines := { host := keptAtStop a.lines.host }
    port := a.port.map Carried.stopped
    returned := a.returned.filter fun r => decide (r.source = .hostPart) }

/-- A load read (R162). -/
def FifoEntry.isLoad : FifoEntry → Bool
  | .load _ => true
  | _ => false

/-- The host path after STOP (R163): the FIFO is kept without its load reads. -/
def HostPath.stopped (h : HostPath) : HostPath :=
  { fifo := h.fifo.filter fun e => !e.isLoad, waiting := h.waiting, head := h.head, answers := h.answers }

/-- STOP (R193): every engine drops its contexts; the time base and the frame counter run on. -/
def stopPart (s : State) : State :=
  recordResult .stopped
    { pending := s.pending, straps := s.straps, mem := s.mem, time := s.time, frame := s.frame
      control := { lastValue := s.control.lastValue }
      host := s.host.stopped, arbiter := s.arbiter.stopped
      out := { requests := keptAtStop s.out.requests }, choices := s.choices }

/-! ### Activation writes (R187) -/

/-- The activation word (R195): 1 FORMAT, 2 ADOPT, 3 STOP. Any other value is not acted on (R186). -/
def activationWritten (v : Nat) (s : State) : State :=
  let s1 := { s with control.lastValue := v }
  let passive := decide (s.control.state = .passive)
  if v = 1 then (if passive then startValidation .format s1 else recordResult .refused s1)
  else if v = 2 then (if passive then startValidation .adopt s1 else recordResult .refused s1)
  else if v = 3 then (if passive then recordResult .refused s1 else stopPart s1)
  else s

end Sys2Proof.Machine
end

