-- ==== Sys2Proof/Machine/Startup.lean ====
section
/-! DEFINITION. The work of STARTING (11.4, 11.5): FORMAT and ADOPT, one burst at a time, and the end of
STARTING. -/

namespace Sys2Proof.Machine

/-! ### Raising the work's bursts -/

/-- Raise a write of the work: `lanes` from the beat address `a`. -/
def workWrite (a : Nat) (lanes : List (Option Byte)) (s : State) : State :=
  raise { source := .startWork, write := true, addr := a, beats := lanes.length / 8, lanes := lanes }
    { s with control.work.writes := [(a, lanes)] }

/-- Raise a read of the work. -/
def workRead (a beats : Nat) (s : State) : State :=
  raise { source := .startWork, write := false, addr := a, beats := beats }
    { s with control.work.reading := true }

/-- The work goes on to a stage, from its first element. -/
def toStage (g : WorkStage) (s : State) : State :=
  { s with control.work.stage := g, control.work.index := 0 }

/-- The work goes on to the next element of its stage. -/
def nextElement (s : State) : State :=
  { s with control.work.index := s.control.work.index + 1 }

/-! ### Addresses -/

def State.recordAddr (s : State) (i : Nat) : Nat := s.profile.messageBase + 64 * i
def State.roomPartAddr (s : State) (r : Nat) : Nat := s.profile.roomBase + 128 * r + 64
def State.noticeSlotAddr (s : State) (j : Nat) : Nat := s.profile.noticeBase + 64 + 32 * j

/-! ### The free stack as built at start-up (R19, R189, R191) -/

/-- The blocks no kept chain claims, rising. -/
def State.unclaimed (s : State) : List Nat :=
  (List.range s.profile.blocks).filter fun b => b ∉ s.control.work.claims

/-- The entry of stack slot `j`: pushed in descending block order, the lowest block ends on top, `u` being the
number pushed. -/
def stackEntry (n u : Nat) (blocks : List Nat) (j : Nat) : List (Option Byte) :=
  if n - u ≤ j ∧ j < n then allLanes (le 4 (blocks.getD (j - (n - u)) 0)) else List.replicate 4 none

/-- The lanes of line `l` of the free-stack region; entries that are not pushed are not enabled
(notes/assumptions/19.md). -/
def stackLine (n u : Nat) (blocks : List Nat) (l : Nat) : List (Option Byte) :=
  (List.range 16).flatMap fun k => stackEntry n u blocks (16 * l + k)

/-- The lines of the free-stack region that hold pushed entries, the first written first: from the top of the
region down. -/
def stackLines (n u : Nat) : List Nat :=
  if u = 0 then [] else ((List.range ((n + 15) / 16)).filter fun l => decide (n - u < 16 * l + 16)).reverse

/-- The stack pointer for `u` entries (R19). -/
def State.stackPtrFor (s : State) (u : Nat) : Addr := s.stackTop - 4#34 - BitVec.ofNat 34 (4 * u)

/-! ### The notice ring at start-up (R189) -/

/-- The whole header line as FORMAT and ADOPT write it. -/
def State.headerLine (s : State) : List Byte := headerBytes 0 false 0 s.profile.noticeSlots ++ zeros 32

/-- The header burst is granted: on-chip p, k, flag and count become 0, and notice writing opens (R188,
R189). -/
def openNotices (s : State) : State :=
  { s with notices.isOpen := true, notices.producer := 0, notices.consumer := 0
           notices.overflow := false, notices.dropped := 0 }

/-! ### Sorting records (R190) -/

/-- A message record ADOPT keeps: listed, of a room whose shadow reads OCCUPIED. -/
def State.kept (s : State) (m : Message) : Bool :=
  m.state.listed && decide (m.room < s.roomCount) && s.occupied m.room

/-- The record as sorted (R190): FREE, kept, or released, which DELETING stands for until its write. -/
def sortRecord (r : List Byte) (s : State) : Message :=
  match messageStateOf (byteAt r 2) with
  | some .free => { generation := field r 0 2 }
  | some st =>
    let m := messageOfRecord r st
    if s.kept m then m else { m with state := .deleting }
  | none => messageOfRecord r .deleting

/-! ### The chain walks (R190) -/

/-- The lowest record at or above `i` that is kept. -/
def State.keptFrom (s : State) (i : Nat) : Option Nat :=
  (List.range s.profile.records).find? fun j => decide (i ≤ j) && (s.message j).state.listed

/-- The chain kept so far for record `i`, last block first. -/
def State.chainOf (s : State) (i : Nat) : List Nat := Table.get [] s.control.work.chains i

/-- The block is one a walk stops at before claiming it (R190). -/
def State.stopsAt (s : State) (b : Nat) : Bool :=
  decide (b ≥ s.profile.blocks) || decide (b ∈ s.control.work.claims)

/-- Read the header of block `b`, claimed for record `i` (R190). -/
def claimBlock (i b : Nat) (s : State) : State :=
  workRead (s.blockAddr b) 1
    { s with
      control.work.block := b
      control.work.claims := addMark s.control.work.claims b
      control.work.chains := Table.set [] s.control.work.chains i (b :: s.chainOf i) }

/-- Message `i` is counted damaged, once (R190, R192). -/
def countDamaged (i : Nat) (s : State) : State :=
  { s with control.work.damaged := addMark s.control.work.damaged i }

/-- A record whose walk kept no block is released and counted damaged (R190). -/
def releaseDamaged (i : Nat) (s : State) : State :=
  countDamaged i (s.setMessage i { s.message i with state := .deleting })

/-- The block count and length of a kept record follow from the blocks kept (R190); a cut sets the damaged
flag. -/
def settleRecord (i : Nat) (isCut : Bool) (s : State) : State :=
  let m := s.message i
  let s1 := s.setMessage i
    { m with blocks := (s.chainOf i).length, length := s.control.work.samples
             damaged := m.damaged || isCut, readers := 0 }
  if isCut then countDamaged i s1 else s1

/-- The walk of the record in hand starts (R190): its first block is claimed and read, or it keeps none. The
answer says whether a read is outstanding. -/
def startChain (i : Nat) (s : State) : Bool × State :=
  let m := s.message i
  let s1 := { s with control.work.index := i, control.work.samples := 0, control.work.header := [] }
  if s.stopsAt m.first ∨ m.blocks = 0 then (false, releaseDamaged i s1)
  else (true, claimBlock i m.first s1)

/-- Start walks from record `i` on until one waits for a read; `false` when no kept record is left. -/
def startChains : Nat → Nat → State → Bool × State
  | 0, _, s => (false, s)
  | n + 1, i, s =>
    match s.keptFrom i with
    | none => (false, s)
    | some j =>
      let (reads, s1) := startChain j s
      if reads then (true, s1) else startChains n (j + 1) s1

/-! ### What hangs on the kept records (R191) -/

/-- Place a kept message in its room's list, in play order (R191). -/
def placeKept (i : Nat) (s : State) : State :=
  let m := s.message i
  if m.state.listed then
    let b := s.mailbox m.room
    s.setMailbox m.room { b with list := insertPlay s i b.list }
  else s

/-- A message past the 32nd of its room is released, counted damaged, and its claims cleared (R191). -/
def releaseSurplus (i : Nat) (s : State) : State :=
  releaseDamaged i
    { s with control.work.claims := s.control.work.claims.filter fun b => b ∉ s.chainOf i }

/-- Settle a room's mailbox: the surplus is released, counts, places, links and blocks used follow from the
list (R191). -/
def settleMailbox (r : Nat) (s : State) : State :=
  let b := s.mailbox r
  let s1 := (b.list.drop Config.mailboxMax).foldl (fun t i => releaseSurplus i t) s
  let list := b.list.take Config.mailboxMax
  let s2 := list.foldl
    (fun t i => t.setMessage i { t.message i with next := successor list i }) s1
  s2.setMailbox r
    { recounted s2 b list with
      places := list.length, blocksUsed := (list.map fun i => (s2.message i).blocks).sum }

/-- The arrival serial the next message will carry (R32). -/
def State.adoptedSerial (s : State) : Nat :=
  let kept := (s.store.messages.filter fun e => e.2.state.listed).map fun e => e.2.serial
  if kept = [] then 1 else sat32 (kept.foldl max 0)

/-- The mailboxes and the serial are rebuilt once every chain has been walked (R191). -/
def rebuildMailboxes (s : State) : State :=
  let s1 := (List.range s.profile.records).foldl (fun t i => placeKept i t) s
  let s2 := (List.range s.roomCount).foldl (fun t r => settleMailbox r t) s1
  { s2 with store.serial := s2.adoptedSerial }

/-- The lowest record at or above `i` that ADOPT writes: every one that is not FREE. -/
def State.writtenFrom (s : State) (i : Nat) : Option Nat :=
  (List.range s.profile.records).find? fun j => decide (i ≤ j) && decide ((s.message j).state ≠ .free)

/-- A record as ADOPT writes it: a released one is FREE, its generation kept (R190). -/
def Message.adopted (m : Message) : Message :=
  if m.state = .deleting then { m with state := .free, next := none16 } else m

/-- The free bitmap: every FREE record that is not retired (R30, R190). -/
def State.freeBitmap (s : State) : List Nat :=
  (List.range s.profile.records).filter fun i =>
    decide ((s.message i).state = .free) && decide ((s.message i).generation ≠ 65535)

/-! ### The folios (R192) -/

/-- The head of a folio in a summary place: none while the record count is 0 (R195). -/
def summaryHead (count big head : Nat) : Nat := if count = 0 ∧ big = 0 then none32 else head

/-- The walk of one place of a folio summary, or `none` where no folio is present (R192). `o` is the offset of
the place, `present`, `inc` and `big` its bits in the flags byte. -/
def placeWalk (sum : List Byte) (inClosed : Bool) (o present inc big : Nat) : Option FolioWalk :=
  let flags := field sum 0 1
  if flags.testBit present ∧ field sum o 4 ≠ 0 then
    some { inClosed := inClosed, serial := field sum o 4, flagged := flags.testBit inc
           next := summaryHead (field sum (o + 8) 2) (bit (flags.testBit big) 0) (field sum (o + 10) 2)
           summary := sum }
  else none

/-- The walks of the OPEN and of the CLOSED place (R192, 12.3: offsets from byte 80 of the entry). DESIGN CHOICE
(notes/assumptions/40.md): no rule orders the two places of a room; the OPEN one is walked first. -/
def openWalk (sum : List Byte) : Option FolioWalk := placeWalk sum false 4 0 1 5
def closedWalk (sum : List Byte) : Option FolioWalk := placeWalk sum true 18 2 3 6

/-- The folio a finished walk rebuilds (R192). -/
def FolioWalk.folio (w : FolioWalk) (isCut : Bool) : Folio :=
  { serial := w.serial, total := w.total, records := w.records, incomplete := w.flagged || isCut
    late := if w.inClosed then w.late else 0 }

/-- The folio of a finished walk takes its place; a cut is counted (R192). -/
def endFolio (r : Nat) (w : FolioWalk) (isCut : Bool) (s : State) : State :=
  let s1 := s.setFolios r
    ((s.folios r).setPlace (if w.inClosed then .closed else .opened) (some (w.folio isCut)))
  if isCut then { s1 with control.work.cutFolios := s1.control.work.cutFolios + 1 } else s1

/-- A record read of the walk passes the tests of R192. -/
def folioRecordOk (r : Nat) (w : FolioWalk) (rec : List Byte) : Bool :=
  decide (field rec 4 2 = r) && decide (field rec 12 4 = w.serial)

/-- The record joins the folio's list, total and late count (R192). -/
def FolioWalk.keep (w : FolioWalk) (rec : List Byte) : FolioWalk :=
  { w with
    records := w.records ++ [w.next], total := saturate32 (w.total + signed32 (field rec 40 4))
    late := if (field rec 1 1).testBit 3 then lateStep w.late else w.late
    next := field rec 60 4, lastRead := rec }

/-- The link write that cuts a list: next index none in its last kept record (R192). -/
def cutLink (s : State) (k : Nat) : Nat × List (Option Byte) :=
  (s.poolAddr k + 56, someLanes 4 (le 4 none32) 8)

/-! ### Going on with the work -/

/-- ADOPT has finished its last folio (R192): the unreached pool records are free, the serial counter follows
from the serials kept, and ADOPT REPAIR is raised. -/
def endAdopt (s : State) : State :=
  let serials := s.rating.folios.flatMap fun e =>
    (e.2.opened.map fun f => f.serial).toList ++ (e.2.closed.map fun f => f.serial).toList
  notify .directory .adoptRepair none16 s.control.work.damaged.length s.control.work.cutFolios
    { toStage .finished s with
      rating.freePool := (List.range s.profile.poolRecords).filter fun k => k ∉ s.control.work.poolClaims
      rating.serial := if serials = [] then 1 else nextSerial (serials.foldl max 0) }

/-- FORMAT has made its last write (R189). -/
def endFormat (s : State) : State := toStage .finished s

/-- The free stack has been written (R19, R189, R191). -/
def endStack (s : State) : State :=
  { s with store.stackPtr := s.stackPtrFor s.unclaimed.length }

/-- Read the folio summary of room `r` (R192). -/
def readSummary (r : Nat) (s : State) : State := workRead (s.roomPartAddr r + 16) 4 s

/-- The walk that follows one of a room: the CLOSED place after the OPEN one (notes/assumptions/40.md). -/
def FolioWalk.following (w : FolioWalk) : Option FolioWalk := if w.inClosed then none else closedWalk w.summary

/-- Go on with the folio walk in hand (R192): read its next record, or end it. `false` when nothing is
outstanding. -/
def folioOn (r : Nat) (w : FolioWalk) (s : State) : Bool × State :=
  let s0 := { s with control.work.folio := none }
  if w.next = none32 then (false, endFolio r w false s0)
  else if w.next ≥ s.profile.poolRecords ∨ w.next ∈ s.control.work.poolClaims then
    match w.records.getLast? with
    | some k =>
      (true, workWrite (cutLink s k).1 (cutLink s k).2
        (endFolio r w true { s with control.work.folio := w.following }))
    | none => (false, endFolio r w true s0)
  else (true, workRead (s.poolAddr w.next) 8 { s with control.work.folio := some w })

/-- Go on with the folios of room `r` from walk `w`: at most two places; then the next room. `false` when the
room is done. -/
def folioPlaces (r : Nat) : Nat → Option FolioWalk → State → Bool × State
  | 0, _, s => (false, s)
  | _, none, s => (false, s)
  | n + 1, some w, s =>
    let (busy, s1) := folioOn r w s
    if busy then (true, s1) else folioPlaces r n w.following s1

/-- The room is done: read the next summary, or end ADOPT. -/
def nextRoomFolios (s : State) : State :=
  let s1 := nextElement s
  if s1.control.work.index < s1.roomCount then readSummary s1.control.work.index s1 else endAdopt s1

/-- Go on from a folio walk of the room in hand. -/
def folioWork (w : Option FolioWalk) (s : State) : State :=
  let r := s.control.work.index
  let (busy, s1) := folioPlaces r 2 w s
  if busy then s1 else nextRoomFolios s1

/-- The next burst of the work, the last one done: the stages follow each other in the order of R189 for FORMAT,
and of R190 to R192 for ADOPT. -/
def nextWork : Nat → State → State
  | 0, s => s
  | n + 1, s =>
    let w := s.control.work
    let i := w.index
    match w.stage with
    | .records =>
      if i < s.profile.records then workWrite (s.recordAddr i) (allLanes (messageRecord {})) s
      else nextWork n (toStage .stack
        { s with store.freeRecords := List.range s.profile.records, store.serial := 1 })
    | .stack =>
      match (stackLines s.profile.blocks s.unclaimed.length)[i]? with
      | some l =>
        workWrite (s.profile.stackBase + 64 * l)
          (stackLine s.profile.blocks s.unclaimed.length s.unclaimed l) s
      | none => nextWork n (toStage (if w.kind = .format then .pool else .adoptFolios) (endStack s))
    | .pool =>
      if i < s.profile.poolRecords then workWrite (s.poolAddr i) (allLanes (zeros 64)) s
      else nextWork n (toStage .roomHalves
        { s with rating.freePool := List.range s.profile.poolRecords, rating.serial := 1 })
    | .roomHalves =>
      if i < s.roomCount then workWrite (s.roomPartAddr i) (allLanes (zeros 64)) s
      else nextWork n (toStage .slots s)
    | .slots =>
      if i < s.profile.orderSlots then workWrite (s.slotAddr i) (allLanes (zeros 64)) s
      else nextWork n (toStage .noticeSlots s)
    | .noticeSlots =>
      if i < s.profile.noticeSlots then workWrite (s.noticeSlotAddr i) (allLanes (zeros 32)) s
      else nextWork n (toStage .noticeHeader s)
    | .noticeHeader =>
      if i = 0 then workWrite s.profile.noticeBase (allLanes s.headerLine) s
      else if w.kind = .format then endFormat s
      else nextWork n (toStage .adoptRecords s)
    | .adoptSlots =>
      if i < s.profile.orderSlots then workRead (s.slotAddr i) 8 s
      else nextWork n (toStage .noticeSlots s)
    | .adoptRecords =>
      if i < s.profile.records then workRead (s.recordAddr i) 8 s
      else nextWork n (toStage .adoptWalk s)
    | .adoptWalk =>
      let (reads, s1) := startChains s.profile.records i s
      if reads then s1 else nextWork n (toStage .adoptWrite (rebuildMailboxes s1))
    | .adoptWrite =>
      match s.writtenFrom i with
      | some j =>
        let m := (s.message j).adopted
        workWrite (s.recordAddr j) (allLanes (messageRecord m))
          { s.setMessage j m with control.work.index := j }
      | none => nextWork n (toStage .stack { s with store.freeRecords := s.freeBitmap })
    | .adoptFolios => readSummary i s
    | .loading | .finished => s

/-- The stages that may follow each other without a burst between them. -/
def workFuel : Nat := 12

/-- The work begins (R188 to R190). -/
def beginWork (s : State) : State :=
  nextWork workFuel (toStage (if s.control.work.kind = .format then .records else .adoptSlots) s)

/-! ### The grant of a write of the work -/

/-- What the grant of a write does on chip: FORMAT's slot write clears the slot's mark (R179), the header
write resets the notice ring (R189). -/
def workGrantEffect (s : State) : State :=
  match s.control.work.stage with
  | .slots => { s with ring.marks := dropMark s.ring.marks s.control.work.index }
  | .noticeHeader => openNotices s
  | _ => s

/-- A write of the work has been granted: the next burst of the work follows. -/
def workGranted (s : State) : State :=
  let s1 := { workGrantEffect s with control.work.writes := [] }
  match s.control.work.stage with
  | .adoptFolios =>
    -- a link write cut the list of one place; the record `folio` names what follows in the room
    folioWork s1.control.work.folio { s1 with control.work.folio := none }
  | _ => nextWork workFuel (nextElement s1)

/-! ### The reads of ADOPT -/

/-- A slot read of ADOPT has returned (R179): a slot that reads POSTED is marked. -/
def adoptSlot (data : List Byte) (s : State) : State :=
  let s1 := if copyPosted data then { s with ring.marks := addMark s.ring.marks s.control.work.index } else s
  nextWork workFuel (nextElement s1)

/-- A record read of ADOPT has returned (R190): the record is sorted. -/
def adoptRecord (data : List Byte) (s : State) : State :=
  let i := s.control.work.index
  nextWork workFuel (nextElement (s.setMessage i (sortRecord data s)))

/-- A walk ends (R190): cut, the last block kept gets a header patch; then the next record. -/
def endChain (i : Nat) (isCut : Bool) (b : Nat) (header : List Byte) (s : State) : State :=
  let s1 := settleRecord i isCut s
  if isCut then workWrite (s.blockAddr b) (allLanes (patchedHeader header)) s1
  else nextWork workFuel (nextElement s1)

/-- A header read of ADOPT has returned (R190). -/
def adoptHeader (data : List Byte) (s : State) : State :=
  let i := s.control.work.index
  let b := s.control.work.block
  let n := headerNext data
  let walked := (s.chainOf i).length
  let count := (s.message i).blocks
  let s1 := { s with control.work.samples := s.control.work.samples + headerCount data, control.work.header := data }
  if n = none32 then endChain i (decide (walked < count)) b data s1
  else if walked ≥ count ∨ s.stopsAt n then endChain i true b data s1
  else claimBlock i n s1

/-- A folio summary or charge record read of ADOPT has returned (R192): the OPEN place is walked before the CLOSED one
(notes/assumptions/40.md). -/
def adoptFolio (data : List Byte) (s : State) : State :=
  let r := s.control.work.index
  match s.control.work.folio with
  | none => folioWork ((openWalk data).or (closedWalk data)) s
  | some w =>
    if folioRecordOk r w data then
      folioWork (some (w.keep data))
        { s with control.work.poolClaims := addMark s.control.work.poolClaims w.next }
    else
      let s0 := { endFolio r w true s with control.work.folio := w.following }
      match w.records.getLast? with
      | some k => workWrite (cutLink s k).1 (cutLink s k).2 s0
      | none => folioWork w.following { s0 with control.work.folio := none }

/-! ### The end of STARTING (R188, R86, R133, R25, R108) -/

/-- Settle the folios of a room (R86): an OCCUPIED room without an OPEN folio gets one, another room's OPEN
folio closes as at checkout; toll-barred is worked out without a notice. -/
def settleFolios (r : Nat) (s : State) : State :=
  let has := (s.folios r).opened.isSome
  let s1 :=
    if s.occupied r then (if has then s else openFolio r s)
    else if has then closeFolio r s
    else s
  settleBarred r s1

/-- The store-low state is set from the free count (R25). DESIGN CHOICE (notes/assumptions/44.md): no take is made here,
and R25 gives the first detail word as the count after one; the notice carries the free count of this moment. -/
def settleStoreLow (s : State) : State :=
  if s.freeCount < s.profile.storeLowLevel then
    notify .directory .storeLow none16 s.freeCount s.profile.storeLowLevel
      { s with store.storeLow := .raised }
  else { s with store.storeLow := .armed }

/-- The three engines mark a room (R86). -/
def markRoom (r : Nat) (s : State) : State := markMail r (markFolio r (markLamp r s))

/-- The link entries of cards at or beyond the card count are written once (R106), in rising order
(notes/assumptions/38.md). -/
def writeIdleEntries (s : State) : State :=
  ((List.range 64).filter fun k => decide (s.profile.cards ≤ k)).foldl (fun t k => writeLinkEntry k t) s

/-- The end of STARTING (R188). DESIGN CHOICE (notes/assumptions/37.md): the messages stand as ADOPT sorted them (R190),
also in a room whose status a host write has changed since; the folios and the lamps follow the shadow of this moment
(R86). Rooms are taken in rising order, for the notices too (notes/assumptions/38.md). -/
def endStarting (s : State) : State :=
  let rooms := List.range s.roomCount
  let s1 := rooms.foldl (fun t r => settleFolios r t) s
  let s2 := (List.range s.profile.trunks).foldl (fun t k => settleTrunk k t) s1
  let s3 := settleStoreLow s2
  let s4 := rooms.foldl (fun t r => markRoom r (recomputeLamp r t)) s3
  writeActivation (writeIdleEntries { s4 with control.state := .active, control.work := {} })

end Sys2Proof.Machine
end

