-- ==== Sys2Proof/Machine/HostPath.lean ====
section
/-! DEFINITION. The host path (chapter 8): the FIFO and its head, guarded and watched writes, what each
observation does to its owner, checkout writes, aperture requests. -/

namespace Sys2Proof.Machine

/-! ### What a room write does (4.2 to 4.5) -/

/-- A check-in (R77, R137). -/
def checkIn (r : Nat) (s : State) : State :=
  let s1 := openFolio r s
  clearDesk r (markFolio r (s1.setFolios r { s1.folios r with barred := false }))

/-- The directory engine's part of a checkout (R78): listed messages are released in play order, the list is empty
then and its mirror write and lamp recompute follow, and the recording channels are met. -/
def checkoutMessages (r : Nat) (s : State) : State :=
  checkoutChannels r (setList r [] ((s.mailbox r).list.foldl (fun t i => releaseMessage i .silent t) s))

/-- The rating engine's part of a checkout (R79, R141, R146). -/
def checkoutFolios (r : Nat) (s : State) : State := workOutBarred r (s.openTotal r) (closeFolio r s)

/-- A checkout (R78, R79). -/
def checkOut (r : Nat) (s : State) : State := clearDesk r (checkoutFolios r (checkoutMessages r s))

/-- The change of status a write carries is applied first (R75). -/
def statusChange (r : Nat) (old new : Shadow) (s : State) : State :=
  if isCheckIn old new then checkIn r s else if isCheckout old new then checkOut r s else s

/-- The credit limit changes (R80). -/
def limitChange (r : Nat) (old new : Shadow) (s : State) : State :=
  if old.creditLimit = new.creditLimit then s else workOutBarred r (s.openTotal r) s

/-- Lamp present changes (R80). -/
def lampChange (r : Nat) (old new : Shadow) (s : State) : State :=
  if old.lampPresent = new.lampPresent then s else markLamp r (recomputeLamp r s)

/-- The changes of one write are handed over together (R75, R80). A change of quota is read at the next
take. -/
def handChanges (r : Nat) (old new : Shadow) (s : State) : State :=
  lampChange r old new (limitChange r old new (statusChange r old new s))

/-- A host half of a loaded room has been written (R74): the shadow, and while ACTIVE the changes. -/
def roomWritten (r : Nat) (es : List (Nat × Byte)) (s : State) : State :=
  let old := s.roomShadow r
  let new := s.roomAfter r es
  if !old.loaded then s
  else
    let s1 := s.setRoomShadow r new
    if s.active then handChanges r old new s1 else s1

/-- A loaded trunk entry has been written (R112): the shadow, and while ACTIVE a step of the context when the
write touched the state byte. -/
def trunkEntryWritten (t : Nat) (es : List (Nat × Byte)) (s : State) : State :=
  let old := s.trunkShadow t
  if !old.loaded then s
  else
    let new := { old with bytes := mergeBytes trunkField old.bytes es }
    let s1 := s.setTrunkShadow t new
    if s.active && es.any (fun e => e.1 = 0) then trunkWritten t (byteAt old.bytes 0) (byteAt new.bytes 0) s1
    else s1

/-- A loaded tariff entry has been written (R123). -/
def tariffWritten (i : Nat) (es : List (Nat × Byte)) (s : State) : State :=
  let old := s.tariffShadow i
  if !old.loaded then s
  else s.setTariffShadow i { old with bytes := mergeBytes tariffField old.bytes es }

/-! ### Posting (R174) -/

/-- The condition RING ERROR reports of a held slot: 1 TAKING, 2 EXECUTING (R174, R195). -/
def State.heldCondition (s : State) (slot : Nat) : Nat := if s.ring.taking = some slot then 1 else 2

/-- RING ERROR (R174, R180). -/
def ringError (slot : Nat) (v : Byte) (s : State) : State :=
  notify .directory .ringError none16 (twoItems slot (s.heldCondition slot)) v.toNat
    { s with ring.ringErrors := sat32 s.ring.ringErrors }

/-- A slot's state byte has been written (R174). -/
def slotWritten (slot : Nat) (v : Byte) (s : State) : State :=
  if s.slotHeld slot then ringError slot v s
  else if v = 1#8 then { s with ring.marks := addMark s.ring.marks slot }
  else { s with ring.marks := dropMark s.ring.marks slot }

/-! ### The notice ring header (R185) -/

/-- The consumer index has been written (R185). -/
def consumerWritten (v : Nat) (s : State) : State :=
  if v < s.profile.noticeSlots then { s with notices.consumer := v } else s

/-- The overflow flag is cleared and the header written (R185). -/
def overflowCleared (s : State) : State :=
  raise (headerRequest false s) { s with notices.overflow := false }

/-! ### Guarded writes (R156) -/

/-- The room code a GUARD carries: that of the part half which held the lowest masked byte (R156). -/
def State.guardRoom (s : State) (a : Nat) : Nat :=
  match s.regionOf a with
  | (.room, off) => off / 128
  | _ => none16

/-- A guarded write is counted and noticed (R156, R161): `g` are the bytes that make it guarded, lowest first,
`n` is the number of its bytes masked or dropped. -/
def guardWrite (g : List (Nat × Nat)) (n : Nat) (s : State) : State :=
  match g with
  | [] => s
  | (a, kind) :: _ =>
    notify .host .guard (s.guardRoom a) (a / 64 % 4294967296) (twoItems kind n)
      { s with host.guardCount := sat32 s.host.guardCount }

/-! ### Leaving the FIFO (R151, R157) -/

/-- One observation is handed to its owner (R157). -/
def observed (o : Observation) (s : State) : State :=
  match o with
  | .activation v => activationWritten v s
  | .room r es => roomWritten r es s
  | .trunk t es => trunkEntryWritten t es s
  | .tariff i es => tariffWritten i es s
  | .slot i v => slotWritten i v s
  | .clearOverflow => overflowCleared s
  | .consumer v => consumerWritten v s

/-- A host write leaves the FIFO (R151, R156, R157). DESIGN CHOICE (notes/assumptions/47.md): where it carries the
overflow flag byte and its GUARD notice finds the queue full, R185 lets the clear or the drop be first; the clear is
made here, the drop when the step ends, so the clear is first. -/
def leaveWrite (req : HostRequest) (mode : PartState) (s : State) : State :=
  let obs := s.observations mode req
  let g := s.guardedBytes mode req
  obs.foldl (fun t o => observed o t)
    (guardWrite g (s.maskedCount mode req) { s with host.fifo := s.host.fifo.tail, host.head := none })

/-- What a read is given in its lanes past the end of the address space: free bytes, nothing in a lane not enabled.
DESIGN CHOICE (notes/assumptions/6.md): the read is completed (8.11), and no rule says with what. -/
def givePast : List (Option Byte) → State → List (Option Byte) × State
  | [], s => ([], s)
  | none :: ls, s => ((none :: (givePast ls s).1), (givePast ls s).2)
  | some _ :: ls, s =>
    let (k, s1) := choose 256 s
    let (bs, s2) := givePast ls s1
    (some (BitVec.ofNat 8 k) :: bs, s2)

/-- A read has been answered and leaves (R151); one step may answer several, in the order they joined (R150). -/
def leaveRead (req : HostRequest) (answer : List (Option Byte)) (s : State) : State :=
  let (past, s1) := givePast (pastLanes req) s
  { s1 with host.fifo := s1.host.fifo.tail, host.head := none, host.answers := s1.host.answers ++ [answer ++ past] }

/-! ### The head (R151, R152) -/

/-- The host request at the head. -/
def State.headRequest (s : State) : Option HostRequest :=
  match s.host.fifo with
  | .host r :: _ => some r
  | _ => none

/-- The leading parts that lie in the voice aperture space. -/
def State.voiceParts (s : State) (w : HeadWork) : List Part := w.parts.takeWhile (s.inAperture w.mode)

/-- The lanes of parts that follow each other. -/
def partLanes (ps : List Part) : List (Option Byte) := ps.flatMap fun p => p.lanes

/-- The offset of an address in the voice aperture space (R48). -/
def State.apertureOffset (s : State) (a : Nat) : Nat := a - s.profile.apertureBase

/-- The offset in the space of the first of some parts. -/
def State.voiceOffset (s : State) (ps : List Part) : Nat :=
  match ps with
  | [] => 0
  | p :: _ => s.apertureOffset p.addr

/-- The part lies in a record aperture (R48). -/
def State.inRecordAperture (s : State) (p : Part) : Bool := decide (s.apertureOffset p.addr % 65536 < 32768)

/-- Serve the leading aperture parts of a read (R159, R64, R69): zeros while STARTING; otherwise up to a
stall. The answer is the head's work afterwards and the stall, if any. -/
def serveVoice (zeroed : Option Nat) (seen : List Nat) (w : HeadWork) (s : State) :
    HeadWork × Option (Nat × List Nat) × State :=
  let vs := s.voiceParts w
  let rest := w.parts.drop vs.length
  if w.mode = .starting then
    ({ w with parts := rest, answer := w.answer ++ (partLanes vs).map fun _ => some 0#8 }, none, s)
  else
    match serveRead zeroed (s.voiceOffset vs) (partLanes vs) seen s with
    | (out, none, s') => ({ w with parts := rest, answer := w.answer ++ out }, none, s')
    | (out, some st, s') =>
      ({ w with parts := ⟨s.profile.apertureBase + st.off, st.lanes⟩ :: rest, answer := w.answer ++ out },
        some (st.ch, st.seen), s')

/-- A part of a write that raises no burst and lies outside the voice aperture space: every enabled byte of it is
masked or dropped (R152). -/
def State.raisesNothing (s : State) (mode : PartState) (p : Part) : Bool :=
  !s.inAperture mode p && !(s.passing mode p.addr p.lanes).any Option.isSome

/-- The head goes on to its next part (R152): raise the part's burst, wait for the voice engine, pass over a
part with nothing enabled, answer a status read at once; with no part left a read leaves, and a write waits for
the step of its kind. -/
def advanceHead (req : HostRequest) : Nat → HeadWork → State → State
  | 0, w, s => { s with host.head := some w }
  | n + 1, w, s =>
    match w.parts with
    | [] =>
      if req.write then { s with host.head := some { w with phase := .ready } }
      else leaveRead req w.answer s
    | p :: rest =>
      if s.inAperture w.mode p then
        if !req.write && (s.voiceParts w).all s.inRecordAperture then
          let (w1, _, s1) := serveVoice none [] w s
          advanceHead req n w1 s1
        else { s with host.head := some { w with phase := .voice } }
      else
        let lanes := if req.write then s.passing w.mode p.addr p.lanes else p.lanes
        if lanes.any Option.isSome then
          raise { source := .hostPart, write := req.write, addr := p.addr, beats := p.lanes.length / 8
                  lanes := if req.write then lanes else [] }
            { s with host.head := some { w with phase := .burst } }
        else advanceHead req n { w with parts := rest, answer := w.answer ++ p.lanes } s

/-- A request has at most two parts (R152). -/
def headFuel : Nat := 3

/-! ### Checkout writes (R76) -/

/-- The rooms whose checkout a write carries, while ACTIVE (R75, R157). A write classed in STARTING is asked the
same when it is to leave, since its changes are handed over then (R74, notes/assumptions/12.md). -/
def State.checkoutRooms (s : State) (mode : PartState) (req : HostRequest) : List Nat :=
  if s.active ∧ req.write then
    (s.observations mode req).filterMap fun o =>
      match o with
      | .room r es => if (s.roomShadow r).loaded ∧ isCheckout (s.roomShadow r) (s.roomAfter r es) then some r else none
      | _ => none
  else []

/-- The release-queue places a checkout write needs (R76). -/
def State.checkoutPlaces (s : State) (mode : PartState) (req : HostRequest) : Nat :=
  ((s.checkoutRooms mode req).map fun r => s.placesFor (s.mailbox r).list).sum

/-! ### Starting the head (R151, R155, R158) -/

/-- The line a load read fetches (R158). -/
def State.loadAddr (s : State) (t : LoadTarget) : Nat :=
  match t with
  | .room r => s.profile.roomBase + 128 * r
  | .trunk t => s.profile.trunkBase + 64 * t
  | .tariff i => s.profile.tariffBase + 64 * i

/-- A host request reaches the head and is classed (R155); one that carries a checkout waits to ask for its
places (R76). -/
def startRequest (req : HostRequest) (s : State) : State :=
  let w : HeadWork := { mode := s.control.state, parts := reqParts req }
  if (s.checkoutRooms w.mode req) = [] then advanceHead req headFuel w s
  else { s with host.head := some { w with phase := .checkout } }

/-- The request at the head is started, or the FIFO is empty (R151). The request behind an activation write
waits for the end of validation (R186). -/
def startHead (s : State) : State :=
  if s.host.head.isSome || s.control.validating.isSome then s
  else
    match s.host.fifo with
    | [] => s
    | .host req :: _ => startRequest req s
    | .load t :: _ =>
      raise { source := .loadRead, write := false, addr := s.loadAddr t, beats := 8 }
        { s with host.head := some { mode := s.control.state, phase := .burst } }

/-! ### Joining the FIFO (R150) -/

/-- One waiting request joins the tail: a host request and a load read that both wait may join in either
order. -/
def joinFifo (s : State) : State :=
  let hostJoins (t : State) :=
    match t.host.waiting with
    | [] => t
    | r :: rest => { t with host.fifo := t.host.fifo ++ [.host r], host.waiting := rest }
  let loadJoins (t : State) :=
    match t.host.loads with
    | [] => t
    | l :: rest => { t with host.fifo := t.host.fifo ++ [.load l], host.loads := rest }
  match s.host.waiting, s.host.loads with
  | [], _ => loadJoins s
  | _, [] => hostJoins s
  | _, _ =>
    let (k, s1) := choose 2 s
    if k = 0 then hostJoins s1 else loadJoins s1

/-- Waiting requests join while an entry is free. -/
def fillFifo : Nat → State → State
  | 0, s => s
  | n + 1, s =>
    if s.host.fifo.length < Config.fifoDepth ∧ (s.host.waiting ≠ [] ∨ s.host.loads ≠ []) then
      fillFifo n (joinFifo s)
    else s

/-- Fill the FIFO and start its head, until a head stays. -/
def settleFifo : Nat → State → State
  | 0, s => s
  | n + 1, s =>
    let s1 := fillFifo Config.fifoDepth s
    let s2 := startHead s1
    if s2.host.head.isSome || s2.host.fifo.isEmpty || s2.control.validating.isSome then s2 else settleFifo n s2

/-! ### Stalls (R65) -/

/-- Serve the read at the head from the voice engine, and go on with it: it stalls, or its next part follows. -/
def serveHead (req : HostRequest) (zeroed : Option Nat) (seen : List Nat) (w : HeadWork) (s : State) : State :=
  match serveVoice zeroed seen w s with
  | (w1, none, s1) => advanceHead req headFuel w1 s1
  | (w1, some (ch, seen1), s1) => { s1 with host.head := some { w1 with phase := .stalled ch seen1 } }

/-- A stalled read goes on as far as its channel now lets it (R65). -/
def resumeStall (s : State) : State :=
  match s.headRequest, s.host.head with
  | some req, some w =>
    match w.phase with
    | .stalled _ seen => serveHead req none seen w s
    | _ => s
  | _, _ => s

/-- The end of every step: a stalled read goes on, the FIFO is filled and its head started, and what was raised
is placed. -/
def finish (s : State) : State :=
  let s1 := resumeStall s
  commit (settleFifo (s1.host.fifo.length + s1.host.waiting.length + 1) s1)

/-! ### Aperture requests at the head (R53, R159) -/

/-- The voice engine takes the samples of the leading aperture parts of a write (R53); while STARTING they are
dropped (R159). -/
def takeVoice (w : HeadWork) (s : State) : State :=
  let vs := s.voiceParts w
  if w.mode = .starting then s else takeLanes (s.voiceOffset vs) (partLanes vs) s

/-- A write in the voice aperture space (R53, R159): its samples are taken, and it goes on to its next part or
leaves at once. -/
def voiceWrite (req : HostRequest) (w : HeadWork) (s : State) : State :=
  let rest := w.parts.drop (s.voiceParts w).length
  let s1 := takeVoice w s
  if rest.all (s1.raisesNothing w.mode) then leaveWrite req w.mode s1
  else advanceHead req headFuel { w with parts := rest } s1

/-! ### The checkout leaves (R76, R157) -/

/-- The parts of a checkout write are performed in order as it leaves: samples are taken, bursts are raised. DESIGN
CHOICE (notes/assumptions/46.md): no rule says whether a part in the voice aperture space gives its samples while the
write is held at the head or as its places are granted; it gives them as the write leaves. -/
def performParts (mode : PartState) : List Part → State → State
  | [], s => s
  | p :: ps, s =>
    if s.inAperture mode p then
      performParts mode ps (takeLanes (s.apertureOffset p.addr) p.lanes s)
    else
      let lanes := s.passing mode p.addr p.lanes
      performParts mode ps
        (if lanes.any Option.isSome then
          raise { source := .hostTail, write := true, addr := p.addr, beats := p.lanes.length / 8, lanes := lanes } s
        else s)

/-- A checkout write leaves with its places granted (R76, R157): its bursts are raised, the shadow is updated and
the changes are handed over. -/
def leaveCheckout (req : HostRequest) (w : HeadWork) (s : State) : State :=
  leaveWrite req w.mode (performParts w.mode w.parts s)

/-- The places are granted to the checkout write that waits first in the release line (R76): counted again, it
leaves, or stays first with the greater number. -/
def checkoutGranted (req : HostRequest) (w : HeadWork) (s : State) : State :=
  let n := s.checkoutPlaces w.mode req
  if n ≤ s.freePlaces then leaveCheckout req w (leaveReleaseLine s) else renewFirst n s

end Sys2Proof.Machine
end

