-- ==== Sys2Proof/Machine/Arbiter.lean ====
section
/-! DEFINITION. The memory port arbiter (chapter 9): the decision, the grant and what it does for each source,
the acknowledge; the mirror writers (R83). -/

namespace Sys2Proof.Machine

/-! ### The decision (R167 to R169) -/

/-- The request a requester offers: the head of its line (R164). -/
def State.offer (s : State) (w : Requester) : Option Request := (s.arbiter.lines.get w).head?

/-- The direction admits the request (R167). -/
def BusDir.admits (d : BusDir) (r : Request) : Bool :=
  match d with
  | .either => true
  | .read => !r.write
  | .write => r.write

/-- The request of an entry, when it matches (R167). -/
def State.matched (s : State) (e : ListEntry) : Option Request :=
  match s.offer e.who with
  | some r => if e.dir.admits r then some r else none
  | none => none

/-- The entry of the wheel slot in turn (R167, step 1). -/
def State.wheelEntry (s : State) : Option ListEntry := s.arbiter.lists.wheel[s.arbiter.wheelPos]?

/-- The order in which the round-robin entries are examined (R168): from the one after the position, the entry
at the position last. -/
def roundOrder (n pos : Nat) : List Nat := (List.range n).map fun k => (pos + 1 + k) % n

/-- What a decision answers: the step that grants, the requester, and for step 3 the entry's index. -/
structure Decision where
  step  : Nat
  who   : Requester
  round : Nat := 0
  deriving DecidableEq, Repr

/-- Step 1 (R167). -/
def State.wheelGrant (s : State) : Option Decision :=
  match s.wheelEntry with
  | some e => if (s.matched e).isSome then some { step := 1, who := e.who } else none
  | none => none

/-- Step 2 (R167). -/
def State.priorityGrant (s : State) : Option Decision :=
  (s.arbiter.lists.priority.find? fun e => (s.matched e).isSome).map fun e => { step := 2, who := e.who }

/-- Step 3 (R167, R168). -/
def State.roundGrant (s : State) : Option Decision :=
  (roundOrder s.arbiter.lists.roundRobin.length s.arbiter.roundPos).findSome? fun k =>
    match s.arbiter.lists.roundRobin[k]? with
    | some e => if (s.matched e).isSome then some { step := 3, who := e.who, round := k } else none
    | none => none

/-- The decision the arbiter makes as the lines stand (R167); `none` when the port is busy or no request is
offered (R165). -/
def State.decision (s : State) : Option Decision :=
  if s.arbiter.port.isSome then none
  else (s.wheelGrant.or s.priorityGrant).or s.roundGrant

/-- The request a decision grants. -/
def State.granted (s : State) : Option Request := s.decision.bind fun d => s.offer d.who

/-- The counts after a grant (R171). -/
def Arbiter.count (a : Arbiter) (d : Decision) : Arbiter :=
  { a with
    grantsHost := if d.who = .host then sat32 a.grantsHost else a.grantsHost
    grantsVoice := if d.who = .voice then sat32 a.grantsVoice else a.grantsVoice
    grantsDirectory := if d.who = .directory then sat32 a.grantsDirectory else a.grantsDirectory
    grantsRating := if d.who = .rating then sat32 a.grantsRating else a.grantsRating
    grantsLamp := if d.who = .lamp then sat32 a.grantsLamp else a.grantsLamp
    grantsWheel := if d.step = 1 then sat32 a.grantsWheel else a.grantsWheel
    grantsPriority := if d.step = 2 then sat32 a.grantsPriority else a.grantsPriority
    grantsRound := if d.step = 3 then sat32 a.grantsRound else a.grantsRound
    passedOver :=
      if a.lists.wheel ≠ [] ∧ d.step ≠ 1 then sat32 a.passedOver else a.passedOver }

/-- The positions after a grant (R168, R169). -/
def Arbiter.advance (a : Arbiter) (d : Decision) : Arbiter :=
  { a with
    wheelPos := if a.lists.wheel = [] then 0 else (a.wheelPos + 1) % a.lists.wheel.length
    roundPos := if d.step = 3 then d.round else a.roundPos }

/-! ### Contents taken at the grant -/

/-- The mailbox, folio and lamp sub-ranges of a room (R82 to R84). -/
def State.mailSubRange (s : State) (r : Nat) : List Byte := mailboxBytes (s.mailbox r)
def State.folioSubRange (s : State) (r : Nat) : List Byte := folioBytes (s.folios r)
def State.lampSubRange (s : State) (r : Nat) : List Byte := lampBytes (s.lampOf r)

/-- The header of the notice ring as a write carries it (R184): p raised by 1 when a slot was written. -/
def State.noticeHeader (s : State) (advance : Bool) : List Byte :=
  headerBytes (if advance then (s.notices.producer + 1) % s.profile.noticeSlots else s.notices.producer)
    s.notices.overflow s.notices.dropped s.profile.noticeSlots

/-- The lanes a granted write carries: those of its raising, but for the sources whose contents are taken at
the grant (R30, R83, R184). -/
def State.grantLanes (s : State) (r : Request) : List (Option Byte) :=
  match r.source with
  | .record i => allLanes (messageRecord (s.message i))
  | .mailMirror => allLanes (s.mailSubRange (s.store.mirrorRaised.getD 0))
  | .folioMirror => allLanes (s.folioSubRange (s.rating.mirrorRaised.getD 0))
  | .lampMirror => allLanes (s.lampSubRange (s.lamp.mirrorRaised.getD 0))
  | .noticeHeader advance => allLanes (s.noticeHeader advance)
  | _ => r.lanes

/-! ### What the grant does for its source -/

/-- The last burst of a write has been granted (R151): it leaves, or, where it carries a checkout and was classed
before the part was ACTIVE, asks for its places first (R76, notes/assumptions/12.md). -/
def leaveOrAsk (req : HostRequest) (w : HeadWork) (s : State) : State :=
  if s.checkoutRooms w.mode req = [] then leaveWrite req w.mode s
  else { s with host.head := some { w with parts := [], phase := .checkout } }

/-- A part of the head request has been granted (R151): a write whose burst was out goes on to its next part, or leaves
when no part is left that raises a burst. -/
def hostPartGranted (write : Bool) (s : State) : State :=
  match s.headRequest, s.host.head with
  | some req, some w =>
    if write && req.write && decide (w.phase = .burst) then
      if w.parts.tail.all (s.raisesNothing w.mode) then leaveOrAsk req w s
      else advanceHead req headFuel { w with parts := w.parts.tail, phase := .ready } s
    else s
  | _, _ => s

/-- The mirror of a room has been granted: its mark is cleared (R83). -/
def mailMirrorGranted (s : State) : State :=
  match s.store.mirrorRaised with
  | some r => { s with store.marks := dropMark s.store.marks r, store.mirrorRaised := none, store.mirrorLast := some r }
  | none => s

def folioMirrorGranted (s : State) : State :=
  match s.rating.mirrorRaised with
  | some r => { s with rating.marks := dropMark s.rating.marks r, rating.mirrorRaised := none, rating.mirrorLast := some r }
  | none => s

def lampMirrorGranted (s : State) : State :=
  match s.lamp.mirrorRaised with
  | some r => { s with lamp.marks := dropMark s.lamp.marks r, lamp.mirrorRaised := none, lamp.mirrorLast := some r }
  | none => s

/-- The take read is granted (R175): the slot is held, its mark cleared. -/
def takeGrantedRead (s : State) : State :=
  match s.ring.taking with
  | some slot =>
    updateEntry slot (fun e => { e with stage := .reading })
      { s with ring.marks := dropMark s.ring.marks slot }
  | none => s

/-- A completion write is granted (R177): the slot stops being held. -/
def completionGranted (slot : Nat) (s : State) : State := freeEntry slot s

/-- The header write of a notice is granted (R184): p advances, and the next notice may be taken. -/
def noticeHeaderGranted (advance : Bool) (s : State) : State :=
  if advance then
    { s with notices.producer := (s.notices.producer + 1) % s.profile.noticeSlots, notices.writing := false }
  else s

/-- An entry of the folio write queue is granted (R140): the next one is raised. -/
def folioWriteGranted (s : State) : State :=
  raiseFolioWrite { s with rating.queueRaised := false, rating.queueGranted := s.rating.queueGranted + 1 }

/-- What a grant does for the source of the burst. -/
def grantEffect (r : Request) (s : State) : State :=
  match r.source with
  | .hostPart => hostPartGranted r.write s
  | .mailMirror => mailMirrorGranted s
  | .folioMirror => folioMirrorGranted s
  | .lampMirror => lampMirrorGranted s
  | .takeRead => takeGrantedRead s
  | .completion slot => completionGranted slot s
  | .noticeHeader advance => noticeHeaderGranted advance s
  | .folioQueue => folioWriteGranted s
  | .startWork => if r.write then workGranted s else s
  | _ => s

/-- What stands in memory under the enabled lanes of a burst. -/
def lanesUnder (m : Table Byte) : Nat → List (Option Byte) → List (Option Byte)
  | _, [] => []
  | a, l :: ls => (l.map fun _ => readByte m a) :: lanesUnder m (a + 1) ls

/-- The granted burst takes its place in memory order (R151, R165): a write is performed, a read takes its
data. What the write replaces is kept until its acknowledge, for a reset would lose it (R170). -/
def carry (r : Request) (s : State) : State :=
  if r.write then
    let lanes := s.grantLanes r
    { s with arbiter.port := some { req := { r with lanes := lanes }, under := lanesUnder s.mem r.addr lanes }
             mem := writeLanes s.mem r.addr lanes }
  else { s with arbiter.port := some { req := r, data := readBytes s.mem r.addr (8 * r.beats) } }

/-- The request leaves its line (R164), and the arbiter counts and advances (R167 to R171). -/
def settleGrant (d : Decision) (s : State) : State :=
  { s with arbiter :=
    { (s.arbiter.count d).advance d with
      lines := s.arbiter.lines.set d.who (s.arbiter.lines.get d.who).tail } }

/-- One decision (R167): the request is granted and carried. -/
def grant (d : Decision) (r : Request) (s : State) : State := grantEffect r (carry r (settleGrant d s))

/-! ### The acknowledge (R165) -/

/-- The burst is one of the seven that only fill a buffer (R63). -/
def arrivesInBuffer (ch : Nat) (second : Bool) (data : List Byte) (s : State) : State :=
  let c := s.channel ch
  let b := c.buffer second
  s.setChannel ch (c.setBuffer second { b with data := b.data ++ data })

/-- An acknowledged burst waits for its requester. -/
def returnBurst (c : Carried) (s : State) : State :=
  { s with arbiter.returned := s.arbiter.returned ++ [⟨c.req.source, c.data⟩] }

/-- The acknowledge of a burst (R165): read data returns to its requester; the end of a block write, a header
patch or a queue write waits for the step that takes it; a push ends (R19). -/
def acknowledged (c : Carried) (s : State) : State :=
  match c.req.source with
  | .orphan => s
  | .blockFetch ch second k => if k < 7 then arrivesInBuffer ch second c.data s else returnBurst c s
  | .blockWrite _ _ k => if k < 7 then s else returnBurst c s
  | .headerPatch _ | .folioQueue => returnBurst c s
  | .push => { s with store.stackOp := .none }
  | _ => if c.req.write then s else returnBurst c s

/-- The port becomes free (R165). -/
def freePort (s : State) : State := { s with arbiter.port := none }

/-! ### The mirror writers (R83) -/

/-- The room a mirror writer takes next: the lowest marked above the one it last wrote, else the lowest
(R83, R87). -/
def nextMirror (marks : List Nat) (last : Option Nat) : Option Nat :=
  match last with
  | none => marks.head?
  | some r => (marks.find? fun m => decide (r < m)).or marks.head?

/-- The room each writer would take, when it has no write raised (R83). -/
def State.mirrorNext (s : State) (e : MirrorEngine) : Option Nat :=
  match e with
  | .directory => if s.store.mirrorRaised.isSome then none else nextMirror s.store.marks s.store.mirrorLast
  | .rating => if s.rating.mirrorRaised.isSome then none else nextMirror s.rating.marks s.rating.mirrorLast
  | .lamp => if s.lamp.mirrorRaised.isSome then none else nextMirror s.lamp.marks s.lamp.mirrorLast

/-- A mirror write is raised (R82, R83). -/
def raiseMirror (e : MirrorEngine) (r : Nat) (s : State) : State :=
  let base := s.roomPartAddr r
  match e with
  | .directory =>
    raise { source := .mailMirror, write := true, addr := base, beats := 2 } { s with store.mirrorRaised := some r }
  | .rating =>
    raise { source := .folioMirror, write := true, addr := base + 16, beats := 4 } { s with rating.mirrorRaised := some r }
  | .lamp =>
    raise { source := .lampMirror, write := true, addr := base + 48, beats := 2 } { s with lamp.mirrorRaised := some r }

/-! ### Arbiter status (R171) -/

/-- The grant counts: offsets 2080 to 2099, then 2112 to 2127 (12.2). -/
def State.arbiterStatus (s : State) : List Byte × List Byte :=
  let a := s.arbiter
  (le 4 a.grantsHost ++ le 4 a.grantsVoice ++ le 4 a.grantsDirectory ++ le 4 a.grantsRating ++ le 4 a.grantsLamp,
   le 4 a.grantsWheel ++ le 4 a.grantsPriority ++ le 4 a.grantsRound ++ le 4 a.passedOver)

end Sys2Proof.Machine
end

