-- ==== Sys2Proof/Machine/Time.lean ====
section
/-! DEFINITION. The tenth-second event (11.1) and the status words written on it (R43, R131, R148, R161, R171,
R180). -/

namespace Sys2Proof.Machine

/-- The time base after a tenth (R181). -/
def TimeBase.tick (t : TimeBase) : TimeBase :=
  let wraps := decide (t.clock + 1 ≥ Config.tenthsPerDay)
  { t with
    clock := if wraps then 0 else t.clock + 1
    day := if wraps then t.day + 1#16 else t.day
    elapsed := t.elapsed + 1#32 }

/-- Raise the write of a group of status words at an offset of the profile block. DESIGN CHOICE
(notes/assumptions/35.md): the bytes of the last beat past the group are not enabled. -/
def statusWrite (src : Source) (off beats : Nat) (bytes : List Byte) (s : State) : State :=
  raise { source := src, write := true, addr := s.profileBlock + off, beats := beats
          lanes := someLanes 0 bytes (8 * beats) } s

/-- The path status word, when it has changed since it was last written (R161). -/
def writePathStatus (s : State) : State :=
  let b := le 4 s.host.guardCount
  if s.host.written = some b then s else statusWrite .pathStatus 2064 1 b { s with host.written := some b }

/-- The arbiter status words, when they have changed (R171). DESIGN CHOICE (notes/assumptions/38.md): the group at the
lower offset is raised first. -/
def writeArbiterStatus (s : State) : State :=
  let (a, b) := s.arbiterStatus
  if s.arbiter.written = some (a ++ b) then s
  else statusWrite .arbiterStatus 2112 2 b
    (statusWrite .arbiterStatus 2080 3 a { s with arbiter.written := some (a ++ b) })

/-- The store status words, when they have changed (R43). -/
def writeStoreStatus (s : State) : State :=
  let b := s.storeStatus
  if s.store.written = some b then s else statusWrite .storeStatus 2144 3 b { s with store.written := some b }

/-- The ring status words, when they have changed (R180). -/
def writeRingStatus (s : State) : State :=
  let b := s.ringStatus
  if s.ring.written = some b then s else statusWrite .ringStatus 2176 2 b { s with ring.written := some b }

/-- The rating status words, when they have changed (R131). DESIGN CHOICE (notes/assumptions/38.md): the group at the
lower offset is raised first. -/
def writeRatingStatus (s : State) : State :=
  let (a, b) := s.ratingStatus
  if s.rating.written = some (a ++ b) then s
  else statusWrite .ratingStatus 2240 2 b
    (statusWrite .ratingStatus 2208 4 a { s with rating.written := some (a ++ b) })

/-- The folio status words, when they have changed (R148). -/
def writeFolioStatus (s : State) : State :=
  let b := s.folioStatus
  if s.rating.folioWritten = some b then s
  else statusWrite .folioStatus 2272 4 b { s with rating.folioWritten := some b }

/-- The store status is written from the end of FORMAT or ADOPT on, and while ACTIVE (R43). -/
def State.storeStands (s : State) : Bool :=
  s.active || (decide (s.control.state = .starting) && decide (s.control.work.stage = .finished))

/-- The status words that a tenth-second event writes. -/
def writeStatus (s : State) : State :=
  let s1 := if s.storeStands then writeStoreStatus s else s
  if s.active then
    writeLinkHeader (writeFolioStatus (writeRatingStatus (writeRingStatus
      (writeArbiterStatus (writePathStatus s1)))))
  else s1

/-- A tenth ends (R181, R93): the time base and the frame counter advance; then the engines act on it. -/
def tenth (s : State) : State :=
  startSweep (writeStatus { s with time := s.time.tick, frame := s.frame + 1#32 })

end Sys2Proof.Machine
end

