-- ==== Sys2Proof/Machine/Turn.lean ====
section
/-! DEFINITION. How a step of the table is made: its effect when its moment has come, then the end of the step; a
step whose moment has not come changes nothing (notes/assumptions/3.md). -/

namespace Sys2Proof.Machine

/-- What a step answers. -/
abbrev Answer := Host.Outcome State Fault Refusal

/-- The step takes place: its effect, then the end of every step. -/
def taken (f : State → State) (s : State) : State := finish (f (beginStep s))

/-- The step takes place when `ready` holds. -/
def stepIf (ready : Bool) (f : State → State) (s : State) : Answer :=
  if ready then .next (taken f s) else .next s

/-- The step takes place when there is something to take. -/
def stepOn {α : Type} (o : Option α) (f : α → State → State) (s : State) : Answer :=
  match o with
  | some a => .next (taken (f a) s)
  | none => .next s

/-- The step deals with the oldest acknowledged burst of a kind (R165). -/
def stepReturn (p : Source → Bool) (f : Returned → State → State) (s : State) : Answer :=
  stepOn (s.returnOf p) (fun r t => f r (takeReturn p t)) s

end Sys2Proof.Machine
end

