-- ==== Sys2Proof/Machine/HostSteps.lean ====
section
/-! DEFINITION. The steps of power, reset and the host path: rows POWER_ON to CHECKOUT of the table. -/

namespace Sys2Proof.Machine

/-! ### Power-on and RESET (R194) -/

/-- Memory without the write burst in flight: what stood under it (R149, R170, R194; notes/assumptions/29.md). -/
def State.memoryAtLoss (s : State) : Table Byte :=
  match s.arbiter.port with
  | some c => if c.req.write then writeLanes s.mem c.req.addr c.under else s.mem
  | none => s.mem

/-- Every on-chip value returns to its initial value, the straps are sampled, and a burst in flight is lost; nothing
else of memory changes (R194). -/
def restart (straps : BitVec 3) (s : State) : State :=
  { State.reset with pending := s.pending, straps := straps, mem := s.memoryAtLoss, choices := s.choices }

/-- POWER_ON (R194). -/
def execPowerOn (straps : BitVec 3) (s : State) : Answer := .next (restart straps s)

/-- RESET (R194). -/
def execReset (straps : BitVec 3) (s : State) : Answer := .next (restart straps s)

/-! ### HOST_REQUEST (R150) -/

/-- A host request is presented (R150). -/
def present (r : HostRequest) (s : State) : State := { s with host.waiting := s.host.waiting ++ [r] }

/-- HOST_REQUEST (R150): it joins the FIFO, or waits while the FIFO is full. Every request the port can carry is
completed (8.11), also one whose last beats lie past the end of the address space (notes/assumptions/6.md). -/
def execHostRequest (r : HostRequest) (s : State) : Answer :=
  if !r.wellFormed then .refused .notAPortRequest
  else .next (taken (present r) s)

/-! ### What a write carries -/

/-- The behaviours of the table that a host write can have. -/
inductive WriteMark where
  | guarded | checkIn | limit | quota | lampPresent
  | trunk (w : WrittenState)
  | tariff | post | cancel | consumer | clearOverflow
  | format | adopt | stop
  deriving DecidableEq, Repr

/-- The behaviours of a room write (R75, R80). -/
def roomMarks (old new : Shadow) : List WriteMark :=
  (if isCheckIn old new then [.checkIn] else [])
    ++ (if old.creditLimit ≠ new.creditLimit then [.limit] else [])
    ++ (if old.quota ≠ new.quota then [.quota] else [])
    ++ (if old.lampPresent ≠ new.lampPresent then [.lampPresent] else [])

/-- The behaviours of an activation value (R187). -/
def activationMarks (v : Nat) : List WriteMark :=
  if v = 1 then [.format] else if v = 2 then [.adopt] else if v = 3 then [.stop] else []

/-- The behaviours of an observation as the state stands (R157). -/
def observationMarks (s : State) (o : Observation) : List WriteMark :=
  match o with
  | .activation v => activationMarks v
  | .room r es => if s.active && (s.roomShadow r).loaded then roomMarks (s.roomShadow r) (s.roomAfter r es) else []
  | .trunk t es =>
    let h := s.trunkShadow t
    if s.active && h.loaded && es.any (fun e => e.1 = 0) then
      [.trunk (writtenStateOf (byteAt (mergeBytes trunkField h.bytes es) 0))]
    else []
  | .tariff i _ => if (s.tariffShadow i).loaded then [.tariff] else []
  | .slot i v =>
    if v = 1#8 then [.post] else if i ∈ s.ring.marks ∨ s.slotHeld i then [.cancel] else []
  | .clearOverflow => [.clearOverflow]
  | .consumer _ => [.consumer]

/-- The behaviours of a host write (R155 to R157). -/
def writeMarks (s : State) (mode : PartState) (req : HostRequest) : List WriteMark :=
  (if s.guardedBytes mode req = [] then [] else [.guarded])
    ++ (s.observations mode req).flatMap (observationMarks s)

/-! ### A host write leaves (R151) -/

/-- The state in which the write leaves (R151): that after the grant of its last burst, or the present one when no
burst of it is left. -/
def State.atLeave (s : State) : State :=
  if s.host.head.any fun w => decide (w.phase = .ready) then s
  else
    match s.decision, s.granted with
    | some d, some r => carry r (settleGrant d s)
    | _, _ => s

/-- The write at the head that leaves now: nothing of it is left to do, or the arbiter's decision grants its last
burst and it need not ask for places. -/
def State.leaving (s : State) : Option (HostRequest × HeadWork) :=
  match s.headRequest, s.host.head with
  | some req, some w =>
    if !req.write then none
    else if w.phase = .ready ∧ w.parts = [] then some (req, w)
    else if w.phase = .burst ∧ w.parts.tail.all (s.atLeave.raisesNothing w.mode) ∧
        (s.granted.any fun r => r.write && decide (r.source = .hostPart)) ∧
        s.atLeave.checkoutRooms w.mode req = [] then
      some (req, w)
    else none
  | _, _ => none

/-- The behaviours of the write that leaves now. -/
def State.leavingMarks (s : State) : Option (List WriteMark) :=
  s.leaving.map fun l => writeMarks s.atLeave l.2.mode l.1

/-- The write leaves (R151): at once when nothing of it is left to do, at its grant otherwise. -/
def leaveNow (s : State) : State :=
  match s.leaving with
  | some (req, w) => leaveWrite req w.mode s.atLeave
  | none => s

/-- The write at the head leaves now with this behaviour among its own. -/
def State.leavesWith (s : State) (m : WriteMark) : Bool := s.leavingMarks.any fun l => decide (m ∈ l)

/-- HOST_WRITE (R155): a write with no behaviour of its own. -/
def execHostWrite (s : State) : Answer := stepIf (s.leavingMarks.any fun l => l.isEmpty) leaveNow s

/-- GUARDED_WRITE (R156). -/
def execGuardedWrite (s : State) : Answer := stepIf (s.leavesWith .guarded) leaveNow s

/-! ### HOST_READ_DATA (R151) -/

/-- The read at the head whose burst is out. -/
def State.readOut (s : State) : Option (HostRequest × HeadWork) :=
  match s.headRequest, s.host.head with
  | some req, some w => if !req.write ∧ w.phase = .burst then some (req, w) else none
  | _, _ => none

/-- The bytes a read's lanes are given (R150). -/
def readLanes (lanes : List (Option Byte)) (data : List Byte) : List (Option Byte) :=
  (lanes.zip data).map fun p => p.1.map fun _ => p.2

/-- The data of a part has returned (R151): it is passed to the host, and the read goes on to its next part or
leaves. -/
def readReturned (r : Returned) (s : State) : State :=
  match s.readOut with
  | none => s
  | some (req, w) =>
    match w.parts with
    | [] => s
    | p :: rest =>
      advanceHead req headFuel
        { w with parts := rest, answer := w.answer ++ readLanes p.lanes r.data, phase := .ready } s

/-- A part of the head request. -/
def Source.isHostPart (x : Source) : Bool := decide (x = .hostPart)

/-- HOST_READ_DATA (R151). -/
def execHostReadData (s : State) : Answer := stepReturn Source.isHostPart readReturned s

/-! ### The voice aperture space (R53, R64, R65) -/

/-- The request at the head when it waits for the voice engine. -/
def State.atVoice (s : State) (write : Bool) : Option (HostRequest × HeadWork) :=
  match s.headRequest, s.host.head with
  | some req, some w => if req.write = write ∧ w.phase = .voice then some (req, w) else none
  | _, _ => none

/-- RECORD_APERTURE_WRITE (R53, R159). -/
def execRecordApertureWrite (s : State) : Answer :=
  stepOn (s.atVoice true) (fun h t => voiceWrite h.1 h.2 t) s

/-- PLAY_APERTURE_READ (R64, R159). -/
def execPlayApertureRead (s : State) : Answer :=
  stepOn (s.atVoice false) (fun h t => serveHead h.1 none [] h.2 t) s

/-- The read at the head that is stalled: the request, the work, the channel, the channels met. -/
def State.stalledRead (s : State) : Option (HostRequest × HeadWork × Nat × List Nat) :=
  match s.headRequest, s.host.head with
  | some req, some w =>
    match w.phase with
    | .stalled ch seen => some (req, w, ch, seen)
    | _ => none
  | _, _ => none

/-- The stall limit expires (R65): the underrun count rises, the remaining positions return 0. -/
def expireStall (x : HostRequest × HeadWork × Nat × List Nat) (s : State) : State :=
  let c := s.channel x.2.2.1
  serveHead x.1 (some x.2.2.1) x.2.2.2 x.2.1
    (s.setChannel x.2.2.1 { c with underruns := sat32 c.underruns })

/-- STALL_EXPIRY (R65). -/
def execStallExpiry (s : State) : Answer := stepOn s.stalledRead expireStall s

/-! ### Room writes (R75 to R80) -/

/-- CHECK_IN (R77). -/
def execCheckIn (s : State) : Answer := stepIf (s.leavesWith .checkIn) leaveNow s

/-- The checkout write at the head, in a phase. -/
def State.atCheckout (s : State) (ph : HeadPhase) : Option (HostRequest × HeadWork) :=
  match s.headRequest, s.host.head with
  | some req, some w => if w.phase = ph then some (req, w) else none
  | _, _ => none

/-- A checkout write that has not asked, and whose places are not granted at once (R76). -/
def State.mustHold (s : State) : Option (HostRequest × HeadWork) :=
  (s.atCheckout .checkout).filter fun h => !s.grantsAtOnce (s.checkoutPlaces h.2.mode h.1)

/-- The write asks for its places and is held (R76). -/
def holdCheckout (h : HostRequest × HeadWork) (s : State) : State :=
  joinReleaseLine .checkout (s.checkoutPlaces h.2.mode h.1)
    { s with host.head := some { h.2 with phase := .held } }

/-- CHECKOUT_WRITE_HELD (R76). -/
def execCheckoutWriteHeld (s : State) : Answer := stepOn s.mustHold holdCheckout s

/-- A checkout write that needs no places, or is granted them at once (R76). -/
def State.leavesAtOnce (s : State) : Option (HostRequest × HeadWork) :=
  (s.atCheckout .checkout).filter fun h => s.grantsAtOnce (s.checkoutPlaces h.2.mode h.1)

/-- A held checkout write whose places are granted (R76). -/
def State.placesGranted (s : State) : Option (HostRequest × HeadWork) :=
  (s.atCheckout .held).filter fun _ => s.lineGrant.any fun g => decide (g.who = .checkout)

/-- CHECKOUT (R76, R78, R79). -/
def execCheckout (s : State) : Answer :=
  match s.leavesAtOnce with
  | some h => .next (taken (leaveCheckout h.1 h.2) s)
  | none => stepOn s.placesGranted (fun h t => checkoutGranted h.1 h.2 t) s

/-- CREDIT_LIMIT_CHANGE (R80). -/
def execCreditLimitChange (s : State) : Answer := stepIf (s.leavesWith .limit) leaveNow s

/-- MAILBOX_QUOTA_CHANGE (R80). -/
def execMailboxQuotaChange (s : State) : Answer := stepIf (s.leavesWith .quota) leaveNow s

/-- LAMP_PRESENT_CHANGE (R80). -/
def execLampPresentChange (s : State) : Answer := stepIf (s.leavesWith .lampPresent) leaveNow s

/-! ### Trunk and tariff writes (R112, R115 to R121, R123) -/

/-- TRUNK_SEIZE (R116). -/
def execTrunkSeize (s : State) : Answer := stepIf (s.leavesWith (.trunk .seized)) leaveNow s

/-- TRUNK_ANSWER (R116, R117). -/
def execTrunkAnswer (s : State) : Answer := stepIf (s.leavesWith (.trunk .answered)) leaveNow s

/-- TRUNK_CLEAR (R119, R120). -/
def execTrunkClear (s : State) : Answer := stepIf (s.leavesWith (.trunk .cleared)) leaveNow s

/-- TRUNK_IDLE_WRITE (R115). -/
def execTrunkIdleWrite (s : State) : Answer := stepIf (s.leavesWith (.trunk .idle)) leaveNow s

/-- TRUNK_UNKNOWN_STATE (R118). -/
def execTrunkUnknownState (s : State) : Answer := stepIf (s.leavesWith (.trunk .unknown)) leaveNow s

/-- TARIFF_WRITE (R123). -/
def execTariffWrite (s : State) : Answer := stepIf (s.leavesWith .tariff) leaveNow s

/-! ### Ring writes (R174, R185) -/

/-- ORDER_POST (R174). -/
def execOrderPost (s : State) : Answer := stepIf (s.leavesWith .post) leaveNow s

/-- ORDER_CANCEL (R174). -/
def execOrderCancel (s : State) : Answer := stepIf (s.leavesWith .cancel) leaveNow s

/-- CONSUMER_INDEX_WRITE (R185). -/
def execConsumerIndexWrite (s : State) : Answer := stepIf (s.leavesWith .consumer) leaveNow s

/-- OVERFLOW_FLAG_CLEAR (R185). -/
def execOverflowFlagClear (s : State) : Answer := stepIf (s.leavesWith .clearOverflow) leaveNow s

/-! ### Activation writes (R187) -/

/-- FORMAT (R187, R189). -/
def execFormat (s : State) : Answer := stepIf (s.leavesWith .format) leaveNow s

/-- ADOPT (R187, R190). -/
def execAdopt (s : State) : Answer := stepIf (s.leavesWith .adopt) leaveNow s

/-- STOP (R187, R193). -/
def execStop (s : State) : Answer := stepIf (s.leavesWith .stop) leaveNow s

end Sys2Proof.Machine
end

