-- ==== Sys2Proof/Machine/EngineSteps.lean ====
section
/-! DEFINITION. The steps of the memory port, the store, the channels, the folio queue, the notices and the ring:
rows ARBITER_DECISION to NOTICE_WRITE of the table. -/

namespace Sys2Proof.Machine

/-! ### The memory port (R165, R167) -/

/-- The decision and the request it grants. -/
def State.turn (s : State) : Option (Decision × Request) :=
  match s.decision, s.granted with
  | some d, some r => some (d, r)
  | _, _ => none

/-- ARBITER_DECISION (R167). -/
def execArbiterDecision (s : State) : Answer := stepOn s.turn (fun x t => grant x.1 x.2 t) s

/-- MEMORY_ACKNOWLEDGE (R165). -/
def execMemoryAcknowledge (s : State) : Answer :=
  stepOn s.arbiter.port (fun c t => acknowledged c (freePort t)) s

/-- MIRROR_WRITE_RAISE (R83): while ACTIVE. -/
def execMirrorWriteRaise (e : MirrorEngine) (s : State) : Answer :=
  stepOn (if s.active then s.mirrorNext e else none) (raiseMirror e) s

/-! ### The store (R21, R22, R26, R27) -/

/-- STACK_POP (R21). -/
def execStackPop (s : State) : Answer := stepIf s.canPop startPop s

def Source.isPop (x : Source) : Bool := decide (x = .pop)

/-- POP_READ_RETURN (R21). -/
def execPopReadReturn (s : State) : Answer := stepReturn Source.isPop (fun r t => popReturned r.data t) s

/-- STACK_PUSH (R22). -/
def execStackPush (s : State) : Answer := stepIf s.canPush startPush s

def Source.isWalk (x : Source) : Bool := decide (x = .walkHeader)

/-- WALK_HEADER_READ (R27, R29). -/
def execWalkHeaderRead (s : State) : Answer := stepReturn Source.isWalk (fun r t => walkReturned r.data t) s

/-- The channel whose release request is granted. -/
def State.channelGrant (s : State) : Option Nat :=
  s.lineGrant.bind fun g =>
    match g.who with
    | .channel ch => some ch
    | _ => none

/-- RELEASE_LINE_GRANT (R26, R37). -/
def execReleaseLineGrant (s : State) : Answer :=
  stepOn s.channelGrant (fun ch t => startChannelRelease ch (leaveReleaseLine t)) s

/-! ### The channels (R55, R63, R15) -/

def Source.isBlockWrite (x : Source) : Bool :=
  match x with
  | .blockWrite .. => true
  | _ => false

/-- The write of a block has finished (R55). -/
def blockFinished (r : Returned) (s : State) : State :=
  match r.source with
  | .blockWrite ch second _ => blockWritten ch second s
  | _ => s

/-- BLOCK_WRITE_FINISH (R55). -/
def execBlockWriteFinish (s : State) : Answer := stepReturn Source.isBlockWrite blockFinished s

def Source.isPatch (x : Source) : Bool :=
  match x with
  | .headerPatch _ => true
  | _ => false

/-- A header patch has finished (R55). -/
def patchFinished (r : Returned) (s : State) : State :=
  match r.source with
  | .headerPatch ch => patchWritten ch s
  | _ => s

/-- HEADER_PATCH_FINISH (R55). -/
def execHeaderPatchFinish (s : State) : Answer := stepReturn Source.isPatch patchFinished s

def Source.isFetch (x : Source) : Bool :=
  match x with
  | .blockFetch .. => true
  | _ => false

/-- The eighth burst of a fetch has arrived (R63). -/
def fetchFinished (r : Returned) (s : State) : State :=
  match r.source with
  | .blockFetch ch second _ => fetchArrived ch second r.data s
  | _ => s

/-- BLOCK_FETCH_ARRIVAL (R63). -/
def execBlockFetchArrival (s : State) : Answer := stepReturn Source.isFetch fetchFinished s

def Source.isOffsetWalk (x : Source) : Bool :=
  match x with
  | .offsetWalk _ => true
  | _ => false

/-- A header of the offset walk has been read (R15). -/
def offsetRead (r : Returned) (s : State) : State :=
  match r.source with
  | .offsetWalk ch => walkStep ch r.data s
  | _ => s

/-- OFFSET_WALK_READ (R15, R62). -/
def execOffsetWalkRead (s : State) : Answer := stepReturn Source.isOffsetWalk offsetRead s

/-! ### The folio write queue (R140, R143) -/

def Source.isFolioQueue (x : Source) : Bool := decide (x = .folioQueue)

/-- The entry at the head of the queue has been written (R140): it leaves, and the FOLIO ADJUST that waits for it
is told (R143). -/
def folioEntryWritten (s : State) : State :=
  match s.rating.queue with
  | [] => s
  | e :: rest =>
    let s1 := { s with rating.queue := rest, rating.queueGranted := s.rating.queueGranted - 1 }
    match e.order with
    | some slot => orderStep slot s1
    | none => s1

/-- FOLIO_QUEUE_WRITE_DONE (R140). -/
def execFolioQueueWriteDone (s : State) : Answer :=
  stepReturn Source.isFolioQueue (fun _ t => folioEntryWritten t) s

/-! ### Takes (R175, R176) -/

/-- Slot c can be taken (R175). -/
def State.canTake (s : State) : Bool :=
  s.active && decide (s.ring.consumer ∈ s.ring.marks) && s.ring.taking.isNone
    && decide (s.ring.inFlight.length < Config.inFlightMax)

/-- The take of slot c begins (R175). -/
def startTake (s : State) : State :=
  let c := s.ring.consumer
  raise { source := .takeRead, write := false, addr := s.slotAddr c, beats := 8 }
    { s with ring.taking := some c, ring.inFlight := s.ring.inFlight ++ [{ slot := c }] }

/-- TAKE_START (R175). -/
def execTakeStart (s : State) : Answer := stepIf s.canTake startTake s

def Source.isTake (x : Source) : Bool := decide (x = .takeRead)

/-- The take read has returned for the taking slot (R175). -/
def takeData (r : Returned) (s : State) : State :=
  match s.ring.taking with
  | some slot => takeReturned slot r.data s
  | none => s

/-- TAKE_READ_RETURN (R175). -/
def execTakeReadReturn (s : State) : Answer := stepReturn Source.isTake takeData s

/-- The take that waits and whose places are granted (R176): the slot, the places granted, the copy. -/
def State.takeGrant (s : State) : Option (Nat × Nat × List Byte) :=
  match s.lineGrant, s.ring.taking with
  | some g, some slot =>
    if g.who = .take then (s.entryOf slot).map fun e => (slot, g.need, e.copy) else none
  | _, _ => none

/-- TAKE_PLACES_GRANTED (R176). -/
def execTakePlacesGranted (s : State) : Answer :=
  stepOn s.takeGrant (fun x t => takeGranted x.1 x.2.1 x.2.2 t) s

/-! ### Notices (R184) -/

/-- A notice can be taken from the queue (R184). -/
def State.noticeTurn (s : State) : Option Notice :=
  if s.notices.isOpen && !s.notices.writing then s.notices.queue.head? else none

/-- The notice ring is full (R184). -/
def State.ringFull (s : State) : Bool :=
  decide ((s.notices.producer + 1) % s.profile.noticeSlots = s.notices.consumer)

/-- The oldest notice is written into slot p and the header raised, or dropped when the ring is full (R184). -/
def writeNotice (n : Notice) (s : State) : State :=
  let s1 := { s with notices.queue := s.notices.queue.tail }
  if s.ringFull then dropNotice s1
  else
    raise (headerRequest true s)
      (raise { source := .noticeSlot, write := true, addr := s.noticeSlotAddr s.notices.producer, beats := 4
               lanes := allLanes (noticeBytes n) }
        { s1 with notices.writing := true })

/-- NOTICE_WRITE (R184). -/
def execNoticeWrite (s : State) : Answer := stepOn s.noticeTurn writeNotice s

end Sys2Proof.Machine
end

