-- ==== Sys2Proof/Machine/OrderSteps.lean ====
section
/-! DEFINITION. The steps of the fourteen orders: rows RECORD_OPEN to CLOCK_SET of the table. Each is the take of
a slot whose copy holds that order's code: when the take read returns, or when the places it waits for are granted
(R175, R176). -/

namespace Sys2Proof.Machine

/-- A take read that has returned with this order, POSTED (R175): the slot and the data. -/
def State.takeOf (s : State) (o : Order) : Option (Nat × List Byte) :=
  match s.ring.taking, s.returnOf Source.isTake with
  | some slot, some r =>
    if copyPosted r.data ∧ copyOrder r.data = some o then some (slot, r.data) else none
  | _, _ => none

/-- A waiting take of this order whose places are granted (R176). -/
def State.grantOf (s : State) (o : Order) : Option (Nat × Nat × List Byte) :=
  s.takeGrant.filter fun x => decide (copyOrder x.2.2 = some o)

/-- The order is taken (R175, R176). -/
def stepOrder (o : Order) (s : State) : Answer :=
  match s.takeOf o with
  | some x => .next (taken (fun t => takeOrder x.1 x.2 (takeReturn Source.isTake t)) s)
  | none => stepOn (s.grantOf o) (fun x t => takeGranted x.1 x.2.1 x.2.2 t) s

/-- RECORD_OPEN (R49, R50). -/
def execRecordOpen (s : State) : Answer := stepOrder .recordOpen s

/-- RECORD_CLOSE (R57, R58). -/
def execRecordClose (s : State) : Answer := stepOrder .recordClose s

/-- RECORD_ABANDON (R59). -/
def execRecordAbandon (s : State) : Answer := stepOrder .recordAbandon s

/-- PLAY_OPEN (R61, R62). -/
def execPlayOpen (s : State) : Answer := stepOrder .playOpen s

/-- PLAY_CLOSE (R67). -/
def execPlayClose (s : State) : Answer := stepOrder .playClose s

/-- MESSAGE_SAVE (R39). -/
def execMessageSave (s : State) : Answer := stepOrder .messageSave s

/-- MESSAGE_MARK_NEW (R40). -/
def execMessageMarkNew (s : State) : Answer := stepOrder .messageMarkNew s

/-- MESSAGE_DELETE (R41). -/
def execMessageDelete (s : State) : Answer := stepOrder .messageDelete s

/-- MAILBOX_PURGE (R42). -/
def execMailboxPurge (s : State) : Answer := stepOrder .mailboxPurge s

/-- LAMP_OVERRIDE (R104). -/
def execLampOverride (s : State) : Answer := stepOrder .lampOverride s

/-- LAMP_FAULT_CLEAR (R105). -/
def execLampFaultClear (s : State) : Answer := stepOrder .lampFaultClear s

/-- FOLIO_ADJUST (R143). -/
def execFolioAdjust (s : State) : Answer := stepOrder .folioAdjust s

/-- FOLIO_RELEASE (R144). -/
def execFolioRelease (s : State) : Answer := stepOrder .folioRelease s

/-- CLOCK_SET (R182). -/
def execClockSet (s : State) : Answer := stepOrder .clockSet s

end Sys2Proof.Machine
end

