-- ==== Sys2Proof/Machine/StartSteps.lean ====
section
/-! DEFINITION. The steps of start-up, of the time base and of the lamp link: rows PROFILE_VALIDATION to
RETURN_WINDOW_CLOSE of the table, and RETURN_WINDOW_OPEN. -/

namespace Sys2Proof.Machine

/-! ### Validation and loads (R186, R158) -/

/-- PROFILE_VALIDATION (R186). -/
def execProfileValidation (s : State) : Answer :=
  stepOn (if s.validationDone then s.control.validating else none) endValidation s

/-- The load read at the head. -/
def State.headLoad (s : State) : Option LoadTarget :=
  match s.host.fifo with
  | .load t :: _ => some t
  | _ => none

/-- The data of a load read is placed in its shadow, and the loaded mark is set (R85, R132, R158). -/
def placeLoad (t : LoadTarget) (line : List Byte) (s : State) : State :=
  match t with
  | .room r => s.setRoomShadow r ⟨true, loadedBytes roomField line⟩
  | .trunk k => s.setTrunkShadow k ⟨true, loadedBytes trunkField line⟩
  | .tariff i => s.setTariffShadow i ⟨true, loadedBytes tariffField line⟩

/-- A load read has returned and leaves the FIFO (R158). -/
def loadReturned (r : Returned) (s : State) : State :=
  match s.headLoad with
  | none => s
  | some t => placeLoad t r.data { s with host.fifo := s.host.fifo.tail, host.head := none }

def Source.isLoad (x : Source) : Bool := decide (x = .loadRead)

/-- LOAD_READ_RETURN (R158). -/
def execLoadReadReturn (s : State) : Answer := stepReturn Source.isLoad loadReturned s

/-! ### The work of STARTING (R188 to R192) -/

/-- The last load read has left the FIFO (R188). -/
def State.loadsDone (s : State) : Bool :=
  decide (s.control.state = .starting) && decide (s.control.work.stage = .loading)
    && s.host.loads.isEmpty && !(s.host.fifo.any FifoEntry.isLoad)

/-- STARTING_WORK_BEGIN (R188). -/
def execStartingWorkBegin (s : State) : Answer := stepIf s.loadsDone beginWork s

def Source.isWork (x : Source) : Bool := decide (x = .startWork)

/-- A read of ADOPT has returned in a stage. -/
def State.workReturn (s : State) (g : WorkStage) : Option Returned :=
  if s.control.work.stage = g then s.returnOf Source.isWork else none

/-- The work deals with the data of its read. -/
def workData (f : List Byte → State → State) (r : Returned) (s : State) : State :=
  f r.data { takeReturn Source.isWork s with control.work.reading := false }

/-- ADOPT_SLOT_READ (R179). -/
def execAdoptSlotRead (s : State) : Answer := stepOn (s.workReturn .adoptSlots) (workData adoptSlot) s

/-- ADOPT_RECORD_READ (R190). -/
def execAdoptRecordRead (s : State) : Answer := stepOn (s.workReturn .adoptRecords) (workData adoptRecord) s

/-- ADOPT_HEADER_READ (R190, R191). -/
def execAdoptHeaderRead (s : State) : Answer := stepOn (s.workReturn .adoptWalk) (workData adoptHeader) s

/-- ADOPT_FOLIO_READ (R192). -/
def execAdoptFolioRead (s : State) : Answer := stepOn (s.workReturn .adoptFolios) (workData adoptFolio) s

/-- Every burst of FORMAT or ADOPT has been granted (R188). -/
def State.workDone (s : State) : Bool :=
  decide (s.control.state = .starting) && decide (s.control.work.stage = .finished)

/-- END_OF_STARTING (R188, R86, R133, R25, R108). -/
def execEndOfStarting (s : State) : Answer := stepIf s.workDone endStarting s

/-! ### The time base (R181) -/

/-- TENTH_SECOND_EVENT (R181). -/
def execTenthSecondEvent (s : State) : Answer := .next (taken tenth s)

/-! ### The lamp link (R96 to R102) -/

/-- The sweep whose return window is open, or still closed. -/
def State.window (s : State) (opened : Bool) : Option Sweep :=
  s.lamp.sweep.filter fun w => decide (w.isOpen = opened)

/-- Bytes received in the window (R98). -/
def receive (bytes : List Byte) (w : Sweep) (s : State) : State :=
  { s with lamp.sweep := some { w with received := w.received ++ bytes } }

/-- RETURN_FRAME (R98): what arrives while no window is open is ignored. -/
def execReturnFrame (bytes : List Byte) (s : State) : Answer := stepOn (s.window true) (receive bytes) s

/-- RETURN_WINDOW_CLOSE (R98 to R102). -/
def execReturnWindowClose (s : State) : Answer := stepOn (s.window true) closeWindow s

/-- The last bit of the output frame has been sent (R96). -/
def openWindow (w : Sweep) (s : State) : State :=
  { s with lamp.sweep := some { w with isOpen := true, received := [] } }

/-- RETURN_WINDOW_OPEN (R96). -/
def execReturnWindowOpen (s : State) : Answer := stepOn (s.window false) openWindow s

end Sys2Proof.Machine
end

