-- ==== Sys2Proof/Machine/Dispatch.lean ====
section
/-! DEFINITION. The effect of each command on everything but the queue: one arm per row of the table. -/

namespace Sys2Proof.Machine

def exec (i : Instr) (s : State) : Host.Outcome State Fault Refusal :=
  match i with
  | .powerOn straps => Sys2Proof.Machine.execPowerOn straps s
  | .reset straps => Sys2Proof.Machine.execReset straps s
  | .hostRequest req => Sys2Proof.Machine.execHostRequest req s
  | .hostWrite => Sys2Proof.Machine.execHostWrite s
  | .hostReadData => Sys2Proof.Machine.execHostReadData s
  | .guardedWrite => Sys2Proof.Machine.execGuardedWrite s
  | .recordApertureWrite => Sys2Proof.Machine.execRecordApertureWrite s
  | .playApertureRead => Sys2Proof.Machine.execPlayApertureRead s
  | .stallExpiry => Sys2Proof.Machine.execStallExpiry s
  | .checkIn => Sys2Proof.Machine.execCheckIn s
  | .checkoutWriteHeld => Sys2Proof.Machine.execCheckoutWriteHeld s
  | .checkout => Sys2Proof.Machine.execCheckout s
  | .creditLimitChange => Sys2Proof.Machine.execCreditLimitChange s
  | .mailboxQuotaChange => Sys2Proof.Machine.execMailboxQuotaChange s
  | .lampPresentChange => Sys2Proof.Machine.execLampPresentChange s
  | .trunkSeize => Sys2Proof.Machine.execTrunkSeize s
  | .trunkAnswer => Sys2Proof.Machine.execTrunkAnswer s
  | .trunkClear => Sys2Proof.Machine.execTrunkClear s
  | .trunkIdleWrite => Sys2Proof.Machine.execTrunkIdleWrite s
  | .trunkUnknownState => Sys2Proof.Machine.execTrunkUnknownState s
  | .tariffWrite => Sys2Proof.Machine.execTariffWrite s
  | .orderPost => Sys2Proof.Machine.execOrderPost s
  | .orderCancel => Sys2Proof.Machine.execOrderCancel s
  | .consumerIndexWrite => Sys2Proof.Machine.execConsumerIndexWrite s
  | .overflowFlagClear => Sys2Proof.Machine.execOverflowFlagClear s
  | .format => Sys2Proof.Machine.execFormat s
  | .adopt => Sys2Proof.Machine.execAdopt s
  | .stop => Sys2Proof.Machine.execStop s
  | .profileValidation => Sys2Proof.Machine.execProfileValidation s
  | .loadReadReturn => Sys2Proof.Machine.execLoadReadReturn s
  | .startingWorkBegin => Sys2Proof.Machine.execStartingWorkBegin s
  | .adoptSlotRead => Sys2Proof.Machine.execAdoptSlotRead s
  | .adoptRecordRead => Sys2Proof.Machine.execAdoptRecordRead s
  | .adoptHeaderRead => Sys2Proof.Machine.execAdoptHeaderRead s
  | .adoptFolioRead => Sys2Proof.Machine.execAdoptFolioRead s
  | .endOfStarting => Sys2Proof.Machine.execEndOfStarting s
  | .tenthSecondEvent => Sys2Proof.Machine.execTenthSecondEvent s
  | .returnFrame bytes => Sys2Proof.Machine.execReturnFrame bytes s
  | .returnWindowClose => Sys2Proof.Machine.execReturnWindowClose s
  | .arbiterDecision => Sys2Proof.Machine.execArbiterDecision s
  | .memoryAcknowledge => Sys2Proof.Machine.execMemoryAcknowledge s
  | .mirrorWriteRaise engine => Sys2Proof.Machine.execMirrorWriteRaise engine s
  | .stackPop => Sys2Proof.Machine.execStackPop s
  | .popReadReturn => Sys2Proof.Machine.execPopReadReturn s
  | .stackPush => Sys2Proof.Machine.execStackPush s
  | .walkHeaderRead => Sys2Proof.Machine.execWalkHeaderRead s
  | .releaseLineGrant => Sys2Proof.Machine.execReleaseLineGrant s
  | .blockWriteFinish => Sys2Proof.Machine.execBlockWriteFinish s
  | .headerPatchFinish => Sys2Proof.Machine.execHeaderPatchFinish s
  | .blockFetchArrival => Sys2Proof.Machine.execBlockFetchArrival s
  | .offsetWalkRead => Sys2Proof.Machine.execOffsetWalkRead s
  | .folioQueueWriteDone => Sys2Proof.Machine.execFolioQueueWriteDone s
  | .takeStart => Sys2Proof.Machine.execTakeStart s
  | .takeReadReturn => Sys2Proof.Machine.execTakeReadReturn s
  | .takePlacesGranted => Sys2Proof.Machine.execTakePlacesGranted s
  | .noticeWrite => Sys2Proof.Machine.execNoticeWrite s
  | .recordOpen => Sys2Proof.Machine.execRecordOpen s
  | .recordClose => Sys2Proof.Machine.execRecordClose s
  | .recordAbandon => Sys2Proof.Machine.execRecordAbandon s
  | .playOpen => Sys2Proof.Machine.execPlayOpen s
  | .playClose => Sys2Proof.Machine.execPlayClose s
  | .messageSave => Sys2Proof.Machine.execMessageSave s
  | .messageMarkNew => Sys2Proof.Machine.execMessageMarkNew s
  | .messageDelete => Sys2Proof.Machine.execMessageDelete s
  | .mailboxPurge => Sys2Proof.Machine.execMailboxPurge s
  | .lampOverride => Sys2Proof.Machine.execLampOverride s
  | .lampFaultClear => Sys2Proof.Machine.execLampFaultClear s
  | .folioAdjust => Sys2Proof.Machine.execFolioAdjust s
  | .folioRelease => Sys2Proof.Machine.execFolioRelease s
  | .clockSet => Sys2Proof.Machine.execClockSet s
  | .returnWindowOpen => Sys2Proof.Machine.execReturnWindowOpen s

end Sys2Proof.Machine
end

