-- ==== Sys2Proof/Safety.lean ====
section
/-! DEFINITION. What the statements speak of: the invariant of the part, and the state without what the end of every
step may change. -/

namespace Sys2Proof.Machine

/-- The state without what the end of a step (`finish`) may change: the FIFO and the request at its head, the
channels (a stalled play read goes on), the requesters' lines and the notice queue, where what the step raised is
placed, the outbox, and the count of open choices. -/
def State.steady (s : State) : State :=
  { s with
    host := { s.host with fifo := [], waiting := [], head := none, answers := [], loads := [] }
    arbiter := { s.arbiter with lines := {} }
    voice := {}
    notices := { s.notices with queue := [], overflow := false, dropped := 0 }
    out := {}
    choices := 0 }

/-- A channel that no play read changes: it is neither PLAYING nor ENDED. -/
def State.stillChannel (s : State) (k : Nat) : Prop :=
  (s.channel k).state ≠ .playing ∧ (s.channel k).state ≠ .ended

/-- Every byte of backing memory reads the same (R165: only a granted write changes one). -/
def sameMemory (s t : State) : Prop := ∀ a, readByte t.mem a = readByte s.mem a

/-- The invariant of the part: backing memory keeps its canonical form; between steps nothing that was raised is left
unplaced; the request FIFO, the notice queue, the pocket, the table of orders in flight and the folio write queue
hold no more than R150, R183, R21, R173 and R140 give them; the clock of day is a time of day (R181). -/
structure Inv (s : State) : Prop where
  memory   : Memory.wf s.mem = true
  placed   : s.out = {}
  fifo     : s.host.fifo.length ≤ Config.fifoDepth
  notices  : s.notices.queue.length ≤ Config.noticeDepth
  pocket   : s.store.pocket.length ≤ Config.pocketDepth
  inFlight : s.ring.inFlight.length ≤ Config.inFlightMax
  queue    : s.rating.queue.length ≤ Config.folioQueueDepth
  clock    : s.time.clock < Config.tenthsPerDay

/-- Requests have joined a line behind what it held (R164). -/
def lineGrew (s t : State) (who : Requester) (raised : List Request) : Prop :=
  ∃ l, t.arbiter.lines.get who = s.arbiter.lines.get who ++ l ∧ ∀ r ∈ raised, r ∈ l

/-- The host path waits: its head is held by something other than a stall, or there is no request at all. -/
def State.headWaits (s : State) : Prop :=
  (∃ w, s.host.head = some w ∧ ∀ ch seen, w.phase ≠ .stalled ch seen) ∨
  (s.host.head = none ∧ s.host.fifo = [] ∧ s.host.waiting = [] ∧ s.host.loads = [])

/-- What the step raised for the notice queue fits in it (R183). -/
def State.noticesFit (s : State) : Prop :=
  s.notices.queue.length + s.out.notices.length ≤ Config.noticeDepth

/-- The requests in the outbox that belong to `who`. -/
def State.raisedFor (s : State) (who : Requester) : List Request :=
  s.out.requests.filter fun r => decide (r.source.requester = who)

/-- The host path without what may join it from outside: the FIFO, and what waits for it. -/
def HostPath.still (h : HostPath) : HostPath := { h with fifo := [], waiting := [], loads := [] }

/-- `t` is `u`, its outbox placed, but for what the end of every step may do: the FIFO fills and its head goes on, and
a stalled play read takes samples. What `u` has raised joins the lines behind what they held, and nothing else joins
them where the host path waits; the notices it has raised join the queue. -/
structure EndsAs (u t : State) : Prop where
  steady   : t.steady = u.steady
  channels : ∀ k, u.stillChannel k → t.channel k = u.channel k
  voice    : u.headWaits → t.voice = u.voice
  head     : u.headWaits → t.host.still = u.host.still ∧ ∃ l, t.host.fifo = u.host.fifo ++ l
  lines    : ∀ who, lineGrew u t who (u.raisedFor who)
  exact    : u.headWaits → u.noticesFit → ∀ who, ∃ l,
    t.arbiter.lines.get who = u.arbiter.lines.get who ++ l ∧ l.Perm (u.raisedFor who)
  notices  : u.noticesFit → ∃ q, t.notices = { u.notices with queue := u.notices.queue ++ q } ∧
    q.Perm (u.out.notices.map Prod.snd)
  placed   : t.out = {}

/-- The command answers a next state: `u`, as the end of every step leaves it. -/
def Completes (c : Instr) (s u : State) : Prop := ∃ t, exec c s = .next t ∧ EndsAs u t

/-- `past` is what a read gives in its lanes past the end of the address space: some byte in each enabled one, nothing in
the others (log entry 6). Empty for a read that ends within it. -/
def givenPast (r : HostRequest) (past : List (Option Byte)) : Prop :=
  past.map Option.isSome = (r.lanes.drop (2 ^ 34 - 8 * (r.addr.toNat / 8))).map Option.isSome

/-- Both folio places of room `r` are settled as `f`, with the pool records `claims` claimed and `cuts` folios cut in
all: ADOPT reads the next room's summary, or, after the last room, is finished and raises ADOPT REPAIR (R192). -/
def AdoptRoomDone (s t : State) (r : Nat) (f : RoomFolios) (claims : List Nat) (cuts : Nat) : Prop :=
  t.folios r = f ∧ t.control.work.cutFolios = cuts ∧ (∀ k, k ∈ t.control.work.poolClaims ↔ k ∈ claims) ∧
  (r + 1 < s.roomCount → t.control.work.stage = .adoptFolios ∧ t.control.work.index = r + 1 ∧
    t.control.work.folio = none ∧
    lineGrew s t .directory [{ source := .startWork, write := false
                               addr := s.profile.roomBase + 128 * (r + 1) + 80, beats := 4 }]) ∧
  (s.roomCount ≤ r + 1 → t.control.work.stage = .finished ∧
    (∀ k, k ∈ t.rating.freePool ↔ k < s.profile.poolRecords ∧ k ∉ claims) ∧
    (let serials := t.rating.folios.flatMap fun e => (e.2.opened.toList ++ e.2.closed.toList).map fun f => f.serial
     (serials = [] → t.rating.serial = 1) ∧
     ∀ m ∈ serials, (∀ x ∈ serials, x ≤ m) → m < none32 → t.rating.serial = m + 1) ∧
    (s.profile.noticeEnable.getLsbD 15 = true → s.notices.queue.length < 16 →
      t.notices.queue = s.notices.queue ++ [⟨.adoptRepair, 0xFFFF, s.stamp, s.control.work.damaged.length, cuts⟩]))

/-- The OPEN place of room `r` is settled as in `f`: ADOPT walks the CLOSED place of its summary, if a folio is present
there, from its head; with no record counted, or with a head outside the pool or claimed, that folio has none (R192). -/
def AdoptClosedPlace (s t : State) (r : Nat) (summary : List Byte) (f : RoomFolios) (claims : List Nat) (cuts : Nat) :
    Prop :=
  let flags := field summary 0 1
  let count := field summary 26 2 + (if flags.testBit 6 then 65536 else 0)
  let head := field summary 28 2
  if flags.testBit 2 = true ∧ field summary 18 4 ≠ 0 then
    if count = 0 ∨ s.profile.poolRecords ≤ head ∨ head ∈ claims then
      AdoptRoomDone s t r
        { f with closed := some { serial := field summary 18 4, incomplete := flags.testBit 3 || decide (0 < count) } }
        claims (cuts + if 0 < count then 1 else 0)
    else
      t.folios r = f ∧ t.control.work.cutFolios = cuts ∧ (∀ k, k ∈ t.control.work.poolClaims ↔ k ∈ claims) ∧
      t.control.work.index = r ∧
      (∃ v, t.control.work.folio = some v ∧ v.inClosed = true ∧ v.serial = field summary 18 4 ∧
        v.flagged = flags.testBit 3 ∧ v.next = head ∧ v.records = [] ∧ v.total = 0 ∧ v.late = 0) ∧
      lineGrew s t .directory [{ source := .startWork, write := false
                                 addr := s.profile.poolBase + 64 * head, beats := 8 }]
  else AdoptRoomDone s t r f claims cuts

/-- ADOPT has rebuilt the mailboxes from the records as the walks have left them, `settled` (R191): a room's list holds
its kept messages in play order, 32 at the most, each with its next index, and places, blocks used and counts follow; a
message past the 32nd is released, counted damaged, and its claims are cleared. -/
def MailboxesRebuilt (s t : State) (settled : Nat → Message) : Prop :=
  ∀ r < s.roomCount,
    let all := ((List.range s.profile.records).filter fun j =>
      (s.message j).state.listed && decide ((s.message j).room = r)).foldl (fun l j => insertPlay s j l) []
    let list := all.take 32
    let count (p : Message → Bool) : Nat := (list.filter fun j => p (s.message j)).length
    (t.mailbox r).list = list ∧ (t.mailbox r).places = list.length ∧
    (t.mailbox r).blocksUsed = (list.map fun j => (s.message j).blocks).sum ∧
    (t.mailbox r).counts = (count fun x => decide (x.state = .new),
      count fun x => decide (x.state = .new) && x.urgent, count fun x => decide (x.state = .heard),
      count fun x => decide (x.state = .saved)) ∧
    (∀ j ∈ list, t.message j = { settled j with next := successor list j }) ∧
    (∀ j ∈ all.drop 32, ((t.message j).state = .deleting ∨ (t.message j).state = .free) ∧
      j ∈ t.control.work.damaged ∧ ∀ x ∈ s.chainOf j, x ∉ t.control.work.claims)

/-- The byte at `a` is none of those a burst carries (0.8: 34 address bits). -/
def outsideBurst (r : Request) (a : Nat) : Prop := ∀ k < r.lanes.length, a % 2 ^ 34 ≠ (r.addr + k) % 2 ^ 34

/-- The burst whose grant lets the write at the head leave; none when nothing of it is left to do (R151). -/
def State.leaveBurst (s : State) : Option Request :=
  if s.host.head.any fun w => decide (w.phase = .ready) then none else s.granted

/-- Every byte outside the burst with which the write leaves reads the same; all of memory, when it leaves with
none. -/
def leavesMemory (s t : State) : Prop :=
  ∀ a, (∀ r, s.leaveBurst = some r → outsideBurst r a) → readByte t.mem a = readByte s.mem a

/-- The state in which the write at the head has left the FIFO, before what it carries is handed over (R151). -/
def State.leftHost (s : State) : State :=
  { s.atLeave with host.fifo := s.atLeave.host.fifo.tail, host.head := none }

/-- The write at the head leaves now; it carries `obs`, and no byte of it is guarded (R151, R156, R157). -/
def State.leavesCarrying (s : State) (obs : List Observation) : Prop :=
  ∃ req w, s.leaving = some (req, w) ∧ s.atLeave.observations w.mode req = obs ∧
    s.atLeave.guardedBytes w.mode req = []

/-- The command makes the write at the head leave: the answer is `u` as the end of every step leaves it, and memory
changes in the burst with which the write leaves, and nowhere else. -/
def WriteLeaves (c : Instr) (s u : State) : Prop :=
  ∃ t, exec c s = .next t ∧ EndsAs u t ∧ leavesMemory s t

/-- The bytes that a take raises for its slot: the EXECUTING write (R175). -/
def executingWrite (s : State) (slot : Nat) (copy : List Byte) : Request :=
  { source := .executing slot, write := true, addr := s.slotAddr slot, beats := 8
    lanes := allLanes (slotBytes copy 2 .done false []) }

/-- The completion write of an order (R177). -/
def completionWrite (s : State) (slot : Nat) (copy : List Byte) (st : Status) (deferred : Bool) (res : List Byte) :
    Request :=
  { source := .completion slot, write := true, addr := s.slotAddr slot, beats := 8
    lanes := allLanes (slotBytes copy 3 st deferred res) }

/-- From `s` to `t` slot `slot` has been taken with this copy (R175): no slot is taking, the consumer index and the
count of orders taken have advanced, and the EXECUTING write is raised. -/
structure OrderTaken (s t : State) (slot : Nat) (copy : List Byte) : Prop where
  taking    : t.ring.taking = none
  consumer  : t.ring.consumer = (s.ring.consumer + 1) % s.profile.orderSlots
  taken     : t.ring.ordersTaken = sat32 s.ring.ordersTaken
  executing : lineGrew s t .directory [executingWrite s slot copy]

/-- The order of `slot` is complete (R177): its completion write is raised too. -/
def Answered (s t : State) (slot : Nat) (copy : List Byte) (st : Status) (deferred : Bool) (res : List Byte) : Prop :=
  lineGrew s t .directory [executingWrite s slot copy, completionWrite s slot copy st deferred res]

/-- The bytes that belong to the part, by address (R155): the profile status part, the room part halves, the notice
ring but for the consumer index, the message table, the charge pool, the free stack and the store. A host write while
STARTING or ACTIVE carries none of them to memory. -/
def State.partOwned (s : State) (a : Nat) : Bool :=
  let p := s.profile
  let within (base length : Nat) : Bool := decide (base ≤ a) && decide (a < base + length)
  within (s.profileBlock + 2048) 2048
    || (within p.roomBase (8192 * p.floors) && decide (64 ≤ (a - p.roomBase) % 128))
    || (within p.noticeBase (64 + 32 * p.noticeSlots) && !within (p.noticeBase + 32) 4)
    || within p.messageBase (64 * p.records) || within p.poolBase (64 * p.poolRecords)
    || within p.stackBase (4 * p.blocks) || within p.storeBase (512 * p.blocks)

/-- The byte lies in the voice aperture space (R48, R153). -/
def State.inVoiceSpace (s : State) (a : Nat) : Bool :=
  decide (s.profile.apertureBase ≤ a) && decide (a < s.profile.apertureBase + 1048576)

/-- What of a host write's lanes, from `a` on, goes on to memory: not the bytes of the part, nor those of the voice
aperture space (R152, R155). -/
def State.hostLanes (s : State) (a : Nat) (lanes : List (Option Byte)) : List (Option Byte) :=
  lanes.zipIdx.map fun x => if s.partOwned (a + x.2) || s.inVoiceSpace (a + x.2) then none else x.1

/-- The order of the slot goes on: its entry is EXECUTING, and no completion write of it is raised (R177). -/
def Unanswered (s t : State) (slot : Nat) : Prop :=
  (∃ e, t.entryOf slot = some e ∧ e.stage = .executing) ∧
  ∀ l, t.arbiter.lines.get .directory = s.arbiter.lines.get .directory ++ l → ∀ r ∈ l, r.source ≠ .completion slot

/-- The row of the table that takes an order (10.6). -/
def Order.row : Order → Instr
  | .recordOpen => .recordOpen
  | .recordClose => .recordClose
  | .recordAbandon => .recordAbandon
  | .playOpen => .playOpen
  | .playClose => .playClose
  | .messageSave => .messageSave
  | .messageMarkNew => .messageMarkNew
  | .messageDelete => .messageDelete
  | .mailboxPurge => .mailboxPurge
  | .lampOverride => .lampOverride
  | .lampFaultClear => .lampFaultClear
  | .folioAdjust => .folioAdjust
  | .folioRelease => .folioRelease
  | .clockSet => .clockSet

/-- A take read has returned for slot `slot` with this order POSTED, which is not refused and needs no place of the
release queue that is not granted at once (R175, R178): the take completes. -/
def State.takesNow (s : State) (o : Order) (slot : Nat) (copy : List Byte) : Prop :=
  s.out = {} ∧ s.takeOf o = some (slot, copy) ∧ (∃ e, s.entryOf slot = some e) ∧ orderRefusal o copy s = none ∧
    s.grantsAtOnce (orderPlaces o copy s) = true

/-! ### The list of a room -/

/-- The class of a listed message, the first to be played 0 (R34). -/
def Message.classRank (m : Message) : Nat :=
  if m.state = .new then (if m.urgent then 0 else 1) else if m.state = .heard then 2 else 3

/-- Message `i` stands before message `j` in play order (R34): by class, then arrival serial, then record index. -/
def State.standsBefore (s : State) (i j : Nat) : Prop :=
  let a := s.message i
  let b := s.message j
  a.classRank < b.classRank ∨
    (a.classRank = b.classRank ∧ (a.serial < b.serial ∨ (a.serial = b.serial ∧ i < j)))

/-- The list is in play order (R34); it then holds no message twice. -/
def State.inPlayOrder (s : State) (list : List Nat) : Prop := list.Pairwise s.standsBefore

/-- The numbers of NEW, of NEW and urgent, of HEARD and of SAVED messages of a list (R34). -/
def State.countsOf (s : State) (list : List Nat) : Nat × Nat × Nat × Nat :=
  let among (p : Message → Bool) : Nat := (list.filter fun i => p (s.message i)).length
  (among fun m => decide (m.state = .new), among fun m => decide (m.state = .new) && m.urgent,
   among fun m => decide (m.state = .heard), among fun m => decide (m.state = .saved))

/-- The pattern of room `r`: the first line of R90's table that matches. -/
def State.tablePattern (s : State) (r : Nat) : Pattern :=
  match (s.lampOf r).override with
  | .testOn => .steady
  | .testOff => .off
  | o =>
    if (s.roomShadow r).lampPresent = false ∨ s.occupied r = false then .off
    else if 0 < (s.mailbox r).urgentNew then .fast
    else if 0 < (s.mailbox r).newCount then .steady
    else if o = .desk then .slow
    else .off

/-- From `s` to `t` the list of room `r` has become one that holds `isIn` (R34, R36, R90, R91): in play order if it was;
each next index names the message after it, none for the last and for those that left; the four counts are those of
the list; the mirror is marked; where a count has changed the lamp's pattern is computed, else the lamp is as it was. -/
structure ListFollows (s t : State) (r : Nat) (isIn : Nat → Prop) : Prop where
  members  : ∀ i, i ∈ (t.mailbox r).list ↔ isIn i
  order    : s.inPlayOrder (s.mailbox r).list → t.inPlayOrder (t.mailbox r).list
  next     : s.inPlayOrder (s.mailbox r).list → ∀ n i, (t.mailbox r).list[n]? = some i →
    (t.message i).next = (t.mailbox r).list.getD (n + 1) 0xFFFF
  left     : ∀ i ∈ (s.mailbox r).list, i ∉ (t.mailbox r).list → (t.message i).next = 0xFFFF
  counts   : (t.mailbox r).counts = t.countsOf (t.mailbox r).list
  marked   : r ∈ t.store.marks
  computed : (t.mailbox r).counts ≠ (s.mailbox r).counts → (t.lampOf r).pattern = t.tablePattern r
  kept     : (t.mailbox r).counts = (s.mailbox r).counts → t.lampOf r = s.lampOf r

/-! ### The blocks of a recording -/

/-- The eight write bursts of the block in a buffer of channel `ch`, closed with `next` as its next block (R8, R55). -/
def State.blockBursts (s : State) (ch : Nat) (second : Bool) (next : Nat) : List Request :=
  let c := s.channel ch
  (List.range 8).map fun k =>
    { source := .blockWrite ch second k, write := true
      addr := s.profile.storeBase + 512 * (c.buffer second).block + 64 * k, beats := 8
      lanes := allLanes (slice
        (blockHeader next c.startPred c.startIndex c.blockGap c.sampleCount ++ (c.buffer second).data.drop 8)
        (64 * k) 64) }

/-- The channel with the block in that buffer closed, and its write raised. -/
def Channel.closedIn (c : Channel) (second : Bool) (next : Nat) : Channel :=
  let header := blockHeader next c.startPred c.startIndex c.blockGap c.sampleCount
  { c.setBuffer second { c.buffer second with cond := .writing, data := header ++ (c.buffer second).data.drop 8 } with
    lastBlock := some ((c.buffer second).block, header), writes := c.writes + 1 }

/-- The channel with block `b` FILLING in that buffer, its start state captured (R8, R54). -/
def Channel.fillingIn (c : Channel) (second : Bool) (b : Nat) : Channel :=
  { c.setBuffer second ⟨b, .filling, zeros 512⟩ with
    current := second, startPred := c.prediction, startIndex := c.stepIndex, sampleCount := 0, blockPos := 0
    blockGap := c.pendingGap, pendingGap := false, waitingBlock := none }

/-- With `n` free blocks the take of channel `ch` meets the reserve, or the end of the store for an urgent message: its
answer is STORE FULL (R23, step 1). -/
def State.takeFull (s : State) (ch n : Nat) : Bool :=
  decide (n ≤ if (s.message (s.channel ch).index).urgent then 0 else s.profile.reserve)

/-- With `used` blocks held by the room of its message the take of channel `ch` meets the quota (R23, step 2; R35). -/
def State.takeBeyond (s : State) (ch used : Nat) : Bool :=
  let room := (s.message (s.channel ch).index).room
  decide ((if (s.roomShadow room).quota = 0 then s.profile.defaultQuota else (s.roomShadow room).quota) < used + 1)

/-- The oldest request of the take line, that of channel `ch`, is evaluated again (R24, R23) with `n` free blocks and
`used` blocks held by its room, `b` being the one ready entry of the pocket, on top of `below`, and `rest` the requests
behind it. A block is granted, and the recording starts (R50) or goes on (R52); or, no request being behind it, it is
refused, and the message is FREE (R50) or the recording stops (R52, R56). -/
def TakeServed (s t : State) (ch b : Nat) (rest : List Nat) (below : List PocketEntry) (n used : Nat) : Prop :=
  let c := s.channel ch
  let m := s.message c.index
  let few := s.takeFull ch n
  let beyond := s.takeBeyond ch used
  let answered (st : Status) (results : List Byte) : Prop :=
    ∀ slot e, c.order = some slot → s.entryOf slot = some e →
      lineGrew s t .directory [completionWrite s slot e.copy st false results]
  let taken : Message := { m with blocks := m.blocks + 1, first := if m.first = none32 then b else m.first }
  (few = false → beyond = false →
    t.store.takeLine = rest ∧ t.store.pocket = below ∧ t.freeCount = n - 1 ∧
    (t.mailbox m.room).blocksUsed = used + 1 ∧
    (c.state = .opening → t.channel ch = { c.fillingIn false b with state := .recording, order := none } ∧
      t.message c.index = { taken with gapped := m.gapped || c.pendingGap } ∧
      answered .done (le 1 ch ++ zeros 1 ++ le 2 c.index ++ le 2 c.generation)) ∧
    (∀ full, c.state = .recording → c.bufferIn .full = some full →
      lineGrew s t .voice (s.blockBursts ch full b) ∧
      ((c.buffer (!full)).cond = .empty → t.channel ch = (c.closedIn full b).fillingIn (!full) b ∧
        t.message c.index = { taken with gapped := m.gapped || c.pendingGap }) ∧
      ((c.buffer (!full)).cond ≠ .empty → t.channel ch = { c.closedIn full b with waitingBlock := some b } ∧
        t.message c.index = taken))) ∧
  (few = true ∨ beyond = true → rest = [] →
    t.store.takeLine = [] ∧ t.store.pocket = .ready b :: below ∧ t.freeCount = n ∧
    (t.mailbox m.room).blocksUsed = used ∧
    (c.state = .opening → m.readers = 0 → m.blocks = 0 →
      t.channel ch = { c with state := .free, order := none } ∧
      t.message c.index = { m with state := .free, next := 0xFFFF } ∧
      (t.mailbox m.room).places = (s.mailbox m.room).places - 1 ∧
      answered (if few then .storeFull else .quota) []) ∧
    (∀ full, c.state = .recording → c.bufferIn .full = some full →
      lineGrew s t .voice (s.blockBursts ch full none32) ∧
      t.channel ch =
        { c.closedIn full none32 with state := .stopped, stopReason := if few then .storeFull else .quota } ∧
      t.message c.index = { m with truncated := true, length := c.position } ∧
      (s.enabled .recordingStopped = true → s.notices.queue.length < 16 →
        ⟨.recordingStopped, m.room, s.stamp, twoItems ch (if few then 1 else 2), c.position⟩ ∈ t.notices.queue)))

/-- The last write that channel `ch` waits for finishes with command `cmd` (R55): the header patch, or the write of a
block; the channel is then `d`. -/
def State.lastWrite (s : State) (cmd : Instr) (ch : Nat) (d : Channel) : Prop :=
  let c := s.channel ch
  c.writes = 1 ∧
  ((cmd = .headerPatchFinish ∧ d = { c with writes := 0 } ∧
      ∃ ret, s.returnOf Source.isPatch = some ret ∧ ret.source = .headerPatch ch) ∨
   (cmd = .blockWriteFinish ∧ c.waitingBlock = none ∧
      ∃ ret second k, s.returnOf Source.isBlockWrite = some ret ∧ ret.source = .blockWrite ch second k ∧
        d = { c.setBuffer second {} with writes := 0 }))

/-- No refusal of R57 meets the RECORD CLOSE of a channel `d` with its last write finished: case 5. -/
def State.closeKeeps (s : State) (d : Channel) : Prop :=
  let m := s.message d.index
  d.stopReason ≠ .checkedOut ∧ d.checkedOut = false ∧ 0 < m.length ∧ 800 * s.profile.minRecord ≤ m.length ∧
    s.occupied m.room = true

/-- The refusal that the RECORD CLOSE of a channel `d` with its last write finished meets: cases 1 to 4 of R57. -/
def State.closeMeets (s : State) (d : Channel) (st : Status) : Prop :=
  let m := s.message d.index
  let least := 800 * s.profile.minRecord
  ((d.stopReason = .checkedOut ∨ d.checkedOut = true) ∧ st = .roomVacant) ∨
    (d.stopReason ≠ .checkedOut ∧ d.checkedOut = false ∧ (m.length = 0 ∨ m.length < least) ∧ st = .tooShort) ∨
    (d.stopReason ≠ .checkedOut ∧ d.checkedOut = false ∧ 0 < m.length ∧ least ≤ m.length ∧
      s.occupied m.room = false ∧ st = .roomVacant)

/-- The RECORD CLOSE of channel `ch`, `d` with its last write finished, is decided by case 5 of R57: the message is NEW
and stands in its room's list, and the channel is FREE. -/
structure CloseKept (s t : State) (ch : Nat) (d : Channel) : Prop where
  channel : t.channel ch = { d with state := .free, order := none, closing := .none }
  message : (t.message d.index).state = .new
  list    : ListFollows s t (s.message d.index).room
    fun i => i = d.index ∨ i ∈ (s.mailbox (s.message d.index).room).list
  states  : ∀ i, i ≠ d.index → (t.message i).state = (s.message i).state
  rooms   : ∀ q, q ≠ (s.message d.index).room → t.mailbox q = s.mailbox q ∧ t.lampOf q = s.lampOf q
  others  : ∀ k, k ≠ ch → s.stillChannel k → t.channel k = s.channel k
  rating  : t.rating = s.rating

/-- The results of a RECORD CLOSE that is DONE (12.6). -/
def State.keptResults (s : State) (d : Channel) : List Byte :=
  let m := s.message d.index
  le 4 m.length ++ le 4 m.blocks ++ le 1 (bit m.gapped 0 + bit m.truncated 1) ++ le 1 d.stopReason.code

/-- The RECORD CLOSE of channel `ch`, `d` with its last write finished, is refused with `st` (R57, cases 1 to 4): its
message is released unless its release has been asked for; the order of `slot`, read as `copy`, is answered when the
release is finished, at once where it is, and the channel is FREE then. -/
structure CloseRefused (s t : State) (ch slot : Nat) (copy : List Byte) (d : Channel) (st : Status) : Prop where
  fresh    : d.release = .none → (s.message d.index).readers = 0 →
    let m := s.message d.index
    (m.blocks = 0 →
      t.channel ch = { d with verdict := st, release := .finished, state := .free, order := none, closing := .none } ∧
      t.message d.index = { m with state := .free, next := 0xFFFF } ∧
      (m.generation < 65535 → d.index ∈ t.store.freeRecords) ∧
      (t.mailbox m.room).places = (s.mailbox m.room).places - 1 ∧
      lineGrew s t .directory [completionWrite s slot copy st false []]) ∧
    (0 < m.blocks → s.grantsAtOnce 1 = true →
      t.channel ch = { d with verdict := st, release := .queued } ∧
      t.message d.index = { m with state := .deleting } ∧
      (t.mailbox m.room).places = (s.mailbox m.room).places - 1 ∧
      t.store.releaseQueue = s.store.releaseQueue ++ [⟨m.first, m.blocks, d.index, .channel ch⟩] ∧
      Unanswered s t slot) ∧
    (0 < m.blocks → s.grantsAtOnce 1 = false →
      t.channel ch = { d with verdict := st, release := .asked } ∧
      t.store = { s.store with releaseLine := s.store.releaseLine ++ [⟨.channel ch, 1⟩] } ∧ Unanswered s t slot)
  waits    : d.release = .asked ∨ d.release = .queued →
    t.channel ch = { d with verdict := st } ∧ t.store = s.store ∧ Unanswered s t slot
  finished : d.release = .finished →
    t.channel ch = { d with verdict := st, state := .free, order := none, closing := .none } ∧ t.store = s.store ∧
    lineGrew s t .directory [completionWrite s slot copy st false []]
  messages : ∀ i, i ≠ d.index → t.message i = s.message i
  rooms    : ∀ q, q ≠ (s.message d.index).room → t.mailbox q = s.mailbox q
  others   : ∀ k, k ≠ ch → s.stillChannel k → t.channel k = s.channel k
  rating   : t.rating = s.rating
  lamp     : t.lamp = s.lamp

/-- The entries that an append to folio `f` puts into the folio write queue (R135, R139, R140): the charge record in pool
record `k`, its next index none, and, where the folio has a last record, the link write that names `k` in it. -/
def State.appendWrites (s : State) (f : Folio) (k : Nat) (charge : Charge) (order : Option Nat) : List FolioWrite :=
  ⟨s.profile.poolBase + 64 * k, allLanes (chargeRecord charge none32), order⟩ ::
    f.records.getLast?.toList.map fun tail =>
      ⟨s.profile.poolBase + 64 * tail + 56, List.replicate 4 none ++ allLanes (le 4 k), order⟩

/-- What no command of an engine changes: memory, the time base, the frame counter, the straps, the queue. -/
def sameOuter (s t : State) : Prop :=
  t.mem = s.mem ∧ t.time = s.time ∧ t.frame = s.frame ∧ t.straps = s.straps ∧ t.pending = s.pending

/-- A source whose grant only moves its data: nothing else happens at it, and a write carries what it was raised with. -/
def Source.onlyData : Source → Bool
  | .loadRead | .validation _ | .activation | .pathStatus | .arbiterStatus | .hostTail | .blockWrite .. | .headerPatch _
  | .blockFetch .. | .offsetWalk _ | .push | .pop | .walkHeader | .executing _ | .noticeSlot | .storeStatus | .ringStatus
  | .ratingStatus | .folioStatus | .linkHeader | .linkEntry _ => true
  | _ => false

end Sys2Proof.Machine
end

