-- ==== Sys2Proof/Certificates/Slice0/Obligations.lean ====
section
/-! DEFINITION. The statements for the provers. Each names the rules of the manual it rests on; "the model's choice"
marks what a log entry fixes and no rule does. -/

open Sys2Proof Sys2Proof.Machine

/-! ### Power, reset, the queue, and what holds of every command -/

/-- (1) R194, with log entries 10 and 29 (DESIGN CHOICE, DEDUCED) for what the rule leaves open: power-on and RESET do
the same. Every on-chip value is the initial one, where no rule gives one it is the model's choice, as for the last
activation value and the validated copy; what the reads were given is forgotten; host requests that wait are lost; the
straps are those sampled. Memory is as it was, but for the bytes of a write burst in flight, which is lost: they are
what they were. (The queue of commands and the count of open choices are the model's own fields.) (2) What R194, R170,
R181, R184 and R187 give for reset: PASSIVE with result NONE, ATTN deasserted, the PASSIVE arrangement with
round-robin position 4, the port free, no request anywhere, the time base at 0; and STOP does not sample the straps.
-/
def Obligations.PowerOnAndResetRestart : Prop :=
  (∀ (straps : BitVec 3) (s : State),
     let memory := match s.arbiter.port with
       | some c => if c.req.write then writeLanes s.mem c.req.addr c.under else s.mem
       | none => s.mem
     exec (.powerOn straps) s = .next
       { State.reset with pending := s.pending, straps := straps, mem := memory, choices := s.choices } ∧
     exec (.reset straps) s = .next
       { State.reset with pending := s.pending, straps := straps, mem := memory, choices := s.choices }) ∧
  (State.reset.control.state = .passive ∧ State.reset.control.result = .none ∧ State.reset.attn = false ∧
   State.reset.arbiter.lists.wheel = [] ∧ State.reset.arbiter.lists.priority = [] ∧
   State.reset.arbiter.lists.roundRobin = [⟨.host, .either⟩, ⟨.voice, .either⟩, ⟨.directory, .either⟩,
     ⟨.rating, .either⟩, ⟨.lamp, .either⟩] ∧
   State.reset.arbiter.wheelPos = 0 ∧ State.reset.arbiter.roundPos = 4 ∧ State.reset.arbiter.port = none ∧
   (∀ w, State.reset.arbiter.lines.get w = []) ∧
   State.reset.time = ⟨0, 0#16, 0#32, false⟩ ∧ State.reset.frame = 0#32 ∧
   State.reset.notices.queue = [] ∧ State.reset.notices.producer = 0 ∧ State.reset.notices.consumer = 0 ∧
   State.reset.notices.overflow = false ∧ State.reset.notices.dropped = 0 ∧
   State.reset.host.fifo = [] ∧ State.reset.host.waiting = [] ∧ State.reset.host.head = none ∧
   State.reset.arbiter.returned = [] ∧ State.reset.hostReady = true ∧
   (∀ s t : State, exec .stop s = .next t → t.straps = s.straps))

/-- The invariant holds after reset. -/
def Obligations.ResetMeetsTheInvariant : Prop :=
  Inv State.reset

/-- The invariant is kept by every step, from every state that meets it: memory in canonical form, nothing raised left
unplaced, the request FIFO, the notice queue, the pocket, the table of orders in flight and the folio write queue
within their depths, the clock a time of day. -/
def Obligations.StepKeepsTheInvariant : Prop :=
  ∀ s t : State, Inv s → step s = .next t → Inv t

/-- (1) A step is `exec` of the command at the front of the queue, with the rest of the queue. (2) With no command waiting
the part idles: the model's choice (log entry 5). -/
def Obligations.StepRunsTheFrontCommand : Prop :=
  (∀ (c : Instr) (rest : List Instr) (s : State), s.pending = c :: rest →
     step s = exec c { s with pending := rest }) ∧
  (∀ s : State, s.pending = [] → step s = .next s)

/-- (1) No command touches the queue of commands that wait. (2) R181, R182, R93: the elapsed count and the frame counter
move only at a tenth-second event, power-on and RESET aside, and nothing else clears the clock-set flag. (3) R188: the
part enters ACTIVE only at the end of STARTING. -/
def Obligations.CommandsKeepQueueTimeAndState : Prop :=
  (∀ (c : Instr) (s t : State), exec c s = .next t → t.pending = s.pending) ∧
  (∀ (c : Instr) (s t : State), (∀ p, c ≠ .powerOn p) → (∀ p, c ≠ .reset p) → exec c s = .next t →
     (c ≠ .tenthSecondEvent → t.time.elapsed = s.time.elapsed ∧ t.frame = s.frame) ∧
     (s.time.clockSet = true → t.time.clockSet = true)) ∧
  (∀ (c : Instr) (s t : State), c ≠ .endOfStarting → s.control.state ≠ .active → exec c s = .next t →
     t.control.state ≠ .active)

/-- (1) R165: memory changes only where the arbiter grants a write, and then in the bytes that write carries; and at
power-on and RESET, where a write burst in flight is lost (log entry 29). (2) R149, R170, R194: power-on or RESET
right after the grant of a write burst loses it: every byte of memory reads as it did before the grant. -/
def Obligations.OnlyGrantedWritesChangeMemory : Prop :=
  (∀ (c : Instr) (s t : State), exec c s = .next t →
     t.mem = s.mem ∨
     (∃ r, s.granted = some r ∧ r.write = true ∧ t.mem = writeLanes s.mem r.addr (s.grantLanes r)) ∨
     ((∃ p, c = .powerOn p ∨ c = .reset p) ∧ t.mem = s.memoryAtLoss)) ∧
  (∀ (s t u : State) (r : Request) (p : BitVec 3), s.out = {} → s.granted = some r → r.write = true →
     exec .arbiterDecision s = .next t → (exec (.reset p) t = .next u ∨ exec (.powerOn p) t = .next u) →
     sameMemory s u)

/-! ### Host requests -/

/-- (1) R150: what is no request of the host port is refused; log entry 6. Every request of the port is completed. (2)
R150: behind a request that holds the head, a host request joins the tail of the FIFO while an entry is free; while
all 32 are in use ready is held back, and it waits. Nothing else of the part changes. -/
def Obligations.HostRequestsJoinTheFifo : Prop :=
  (∀ (r : HostRequest) (s : State),
     (r.wellFormed = false → exec (.hostRequest r) s = .refused .notAPortRequest) ∧
     (r.wellFormed = true → ∃ t, exec (.hostRequest r) s = .next t)) ∧
  (∀ (r : HostRequest) (s : State) (w : HeadWork), s.out = {} → r.wellFormed = true →
     s.host.head = some w → (∀ ch seen, w.phase ≠ .stalled ch seen) → s.host.waiting = [] → s.host.loads = [] →
     ∃ t, exec (.hostRequest r) s = .next t ∧ EndsAs s t ∧
       (s.host.fifo.length < 32 → t.host.fifo = s.host.fifo ++ [.host r] ∧ t.host.waiting = []) ∧
       (32 ≤ s.host.fifo.length → t.host.fifo = s.host.fifo ∧ t.host.waiting = [r] ∧ t.hostReady = false))

/-- R151, R152, R162: with nothing before it in a PASSIVE part, a request whose first part has an enabled byte goes to
the head, is classed PASSIVE, and raises the burst of that part as a request of requester 0; a write passes every
byte. No part holds a byte past the end of the address space: log entry 6 (DESIGN CHOICE). -/
def Obligations.PassiveRequestRaisesItsFirstBurst : Prop :=
  ∀ (r : HostRequest) (s : State) (p : Part) (rest : List Part), s.out = {} → r.wellFormed = true →
    s.control.state = .passive → s.control.validating = none → s.host.head = none → s.host.fifo = [] →
    s.host.waiting = [] → s.host.loads = [] → reqParts r = p :: rest → p.lanes.any Option.isSome = true →
    (∀ q ∈ p :: rest, q.addr + q.lanes.length ≤ 2 ^ 34) ∧
    Completes (.hostRequest r) s
      { s with
        host := { s.host with
          fifo := [.host r], head := some { mode := .passive, parts := p :: rest, phase := .burst } }
        out.requests := [{ source := .hostPart, write := r.write, addr := p.addr, beats := p.lanes.length / 8
                           lanes := if r.write then p.lanes else [] }] }

/-! ### Writes leave the FIFO -/

/-- R151, R155: a host write with no behaviour of its own leaves the FIFO: at once when no burst of it is left, at the
grant of its last burst otherwise. Each enabled byte of that burst is in memory then, no other byte has changed, and
each of its observations is handed over in turn. The port carries the burst with what stood under it, which the model
keeps for a reset (log entry 29). -/
def Obligations.HostWriteLeavesAtItsGrant : Prop :=
  ∀ (s : State) (req : HostRequest) (w : HeadWork), s.out = {} → s.leaving = some (req, w) →
    s.leavingMarks = some [] →
    WriteLeaves .hostWrite s ((s.atLeave.observations w.mode req).foldl (fun u o => observed o u) s.leftHost) ∧
    (s.leaveBurst = none → s.atLeave = s) ∧
    (∃ m a, s.atLeave = { s with mem := m, arbiter := a }) ∧
    (∀ r, s.leaveBurst = some r → r.addr + r.lanes.length ≤ 2 ^ 34 →
      s.atLeave.arbiter.port = some { req := r, under := lanesUnder s.mem r.addr r.lanes } ∧
      ∀ k b, r.lanes[k]? = some (some b) → readByte s.atLeave.mem (r.addr + k) = b)

/-- (1) R152, R155: while STARTING or ACTIVE, with nothing before it, a host write whose first part has a byte that goes
on to memory raises the burst of that part; a byte of the profile status part, of a room part half, of the notice ring
but for the consumer index, of the message table, charge pool, free stack or store, and one of the voice aperture
space, has its enable clear in it, and every other byte is as the host gave it. (2) The same for the second part of a
write, raised at the grant of the first. (3) R156, R161: a guarded write that carries nothing to an owner adds 1 to
the guard count, which stays at FFFFFFFFh, and raises GUARD, if it is enabled, with the room, the line number and the
region kind of its lowest guarded byte and the number of its bytes masked or dropped, one of the overflow flag among
them. The regions are apart, as validation checks. -/
def Obligations.GuardedBytesAreMaskedAndCounted : Prop :=
  (∀ (r : HostRequest) (s : State) (p : Part) (rest : List Part), s.out = {} → r.wellFormed = true → r.write = true →
     s.control.state ≠ .passive → s.control.validating = none →
     s.host.head = none → s.host.fifo = [] → s.host.waiting = [] → s.host.loads = [] →
     allApart (regionsOf s.profileBlock s.profile) = true → s.checkoutRooms s.control.state r = [] →
     reqParts r = p :: rest → s.inVoiceSpace p.addr = false → (s.hostLanes p.addr p.lanes).any Option.isSome = true →
     Completes (.hostRequest r) s
       { s with
         host := { s.host with
           fifo := [.host r], head := some { mode := s.control.state, parts := p :: rest, phase := .burst } }
         out.requests := [{ source := .hostPart, write := true, addr := p.addr, beats := p.lanes.length / 8
                            lanes := s.hostLanes p.addr p.lanes }] }) ∧
  (∀ (s : State) (d : Decision) (r : Request) (req : HostRequest) (w : HeadWork) (p q : Part), s.out = {} →
     s.decision = some d → s.granted = some r → r.source = .hostPart → r.write = true →
     s.headRequest = some req → req.write = true → s.host.head = some w → w.phase = .burst → w.mode ≠ .passive →
     w.parts = [p, q] →
     allApart (regionsOf s.profileBlock s.profile) = true →
     s.inVoiceSpace q.addr = false → (s.hostLanes q.addr q.lanes).any Option.isSome = true →
     Completes .arbiterDecision s
       { carry r (settleGrant d s) with
         host.head := some { w with parts := [q], phase := .burst }
         out.requests := [{ source := .hostPart, write := true, addr := q.addr, beats := q.lanes.length / 8
                            lanes := s.hostLanes q.addr q.lanes }] }) ∧
  (∀ (s : State) (req : HostRequest) (w : HeadWork) (a kind : Nat) (more : List (Nat × Nat)), s.out = {} →
     s.leaving = some (req, w) → s.atLeave.observations w.mode req = [] →
     s.atLeave.guardedBytes w.mode req = (a, kind) :: more →
     allApart (regionsOf s.profileBlock s.profile) = true →
     WriteLeaves .guardedWrite s
       { s.leftHost with
         host.guardCount := if s.host.guardCount ≥ 0xFFFFFFFF then 0xFFFFFFFF else s.host.guardCount + 1
         out.notices := if s.enabled .guard then
           [(.host, ⟨.guard, s.guardRoom a, s.stamp, a / 64 % 4294967296,
             twoItems kind ((reqEnabled req).filter fun e => s.partOwned e.1).length⟩)] else [] })

/-! ### Room writes -/

/-- R77, R137: a check-in opens a folio with the next serial, total 0 and no records, keeps the CLOSED folio, clears
toll-barred and a DESK override, computes the pattern again and marks the folio and lamp mirrors of the room; the
room's shadow holds the bytes written. Other rooms, messages, orders, the clock and memory outside the write are as
they were. -/
def Obligations.CheckInOpensAFolio : Prop :=
  ∀ (s : State) (r : Nat) (es : List (Nat × Byte)), s.out = {} → s.leavesCarrying [.room r es] →
    s.control.state = .active → (s.roomShadow r).loaded = true → isCheckIn (s.roomShadow r) (s.roomAfter r es) = true →
    ∃ t n, exec .checkIn s = .next t ∧ leavesMemory s t ∧
      n = (if (s.folios r).closed.any (fun g => decide (g.serial = s.rating.serial)) then nextSerial s.rating.serial
        else s.rating.serial) ∧
      t.folios r = ⟨some { serial := n, total := 0, records := [] }, (s.folios r).closed, false⟩ ∧
      t.rating.serial = nextSerial n ∧ r ∈ t.rating.marks ∧ r ∈ t.lamp.marks ∧
      (t.lampOf r).override = (if (s.lampOf r).override = .desk then .none else (s.lampOf r).override) ∧
      (t.lampOf r).pattern = t.patternOf r ∧
      t.roomShadow r = s.roomAfter r es ∧
      (∀ q, q ≠ r → t.folios q = s.folios q ∧ t.lampOf q = s.lampOf q ∧ t.roomShadow q = s.roomShadow q) ∧
      t.store = s.store ∧ t.ring = s.ring ∧ t.rating.trunks = s.rating.trunks ∧
      t.time = s.time ∧ t.frame = s.frame ∧ t.control = s.control ∧
      (∀ k, s.stillChannel k → t.channel k = s.channel k)

/-- R76: a checkout write whose places are not granted at once asks for them and is held at the head: its request joins
the release line, and no shadow, no memory and no engine state changes. -/
def Obligations.CheckoutWriteIsHeld : Prop :=
  ∀ (s : State) (req : HostRequest) (w : HeadWork), s.out = {} → s.atCheckout .checkout = some (req, w) →
    0 < s.checkoutPlaces w.mode req →
    (s.store.releaseLine ≠ [] ∨ s.freePlaces < s.checkoutPlaces w.mode req) →
    Completes .checkoutWriteHeld s
      { s with
        host.head := some { w with phase := .held }
        store.releaseLine := s.store.releaseLine ++ [⟨.checkout, s.checkoutPlaces w.mode req⟩] }

/-- R79, R141, R145: a checkout, at once or with its places granted, makes the OPEN folio the CLOSED one with a late count
of 0, clears toll-barred and a DESK override, and updates the shadow; the records of the CLOSED folio before it go
back to the pool and the discard is counted. Other rooms' folios and the trunk contexts are as they were. -/
def Obligations.CheckoutClosesTheFolio : Prop :=
  ∀ (s : State) (req : HostRequest) (w : HeadWork) (r : Nat) (es : List (Nat × Byte)) (f : Folio), s.out = {} →
    (s.leavesAtOnce = some (req, w) ∨
      (s.leavesAtOnce = none ∧ s.placesGranted = some (req, w) ∧ s.checkoutPlaces w.mode req ≤ s.freePlaces)) →
    (∀ p ∈ w.parts, s.inAperture w.mode p = false) →
    s.observations w.mode req = [.room r es] → s.guardedBytes w.mode req = [] → s.control.state = .active →
    (s.roomShadow r).loaded = true → isCheckout (s.roomShadow r) (s.roomAfter r es) = true →
    (s.folios r).opened = some f →
    ∃ t, exec .checkout s = .next t ∧
      t.folios r = ⟨none, some { f with late := 0 }, false⟩ ∧
      (∀ q, q ≠ r → t.folios q = s.folios q) ∧ t.rating.trunks = s.rating.trunks ∧
      t.rating.discardedCount =
        (if (s.folios r).closed.isSome then sat32 s.rating.discardedCount else s.rating.discardedCount) ∧
      (∀ g, (s.folios r).closed = some g → ∀ k ∈ g.records, k ∈ t.rating.freePool) ∧
      r ∈ t.rating.marks ∧ r ∈ t.lamp.marks ∧ (t.lampOf r).override ≠ .desk ∧
      t.roomShadow r = s.roomAfter r es ∧ sameMemory s t ∧ t.time = s.time ∧ t.control = s.control

/-- A checkout, at once or with its places granted. (1) R78, R90, R91: whatever records for the room, its list is
empty, the four counts are 0, its mirrors are marked, its lamp's pattern is that of R90's table, and each message that
was listed is DELETING or already FREE; one with readers is DELETING, and the chain of one without joins the release
queue; every RECORDING channel for the room is STOPPED for CHECKED OUT. (2) With no channel that is OPENING,
RECORDING, STOPPED or CLOSING for the room nothing else changes: no other message, no other mailbox, no channel, no
order. (3) R60, R78: the one channel that records for the room. RECORDING: it is STOPPED for CHECKED OUT, its
unwritten blocks are returned, its writes go on, and RECORDING STOPPED is raised; with nothing written the message is
FREE at once. STOPPED for another reason: the reason becomes CHECKED OUT, and with no write left the message is
released. CLOSING after RECORD CLOSE with writes left: the checked-out mark is set. OPENING: the take is withdrawn,
the message FREE, the channel FREE and RECORD OPEN answered ROOM VACANT. Otherwise the channel is as it was. (4) R60,
R78: several channels that record for the room, no take waiting: each is dealt with as if it were the only one. Their
order and the takes served on the way are log entry 32 (DESIGN CHOICE), on which nothing here depends. Result bytes
that no rule gives, all 32 of them with a status other than DONE, are 00h: log entry 34 (DESIGN CHOICE); bits of a
slot that no layout names are 0: log entry 39 (DESIGN CHOICE). The length in RECORDING STOPPED is that of the moment:
log entry 23 (DEDUCED). -/
def Obligations.CheckoutEmptiesTheMailbox : Prop :=
  ∀ (s : State) (req : HostRequest) (w : HeadWork) (r : Nat) (es : List (Nat × Byte)), s.out = {} →
    (s.leavesAtOnce = some (req, w) ∨
      (s.leavesAtOnce = none ∧ s.placesGranted = some (req, w) ∧ s.checkoutPlaces w.mode req ≤ s.freePlaces)) →
    (∀ p ∈ w.parts, s.inAperture w.mode p = false) →
    s.observations w.mode req = [.room r es] → s.guardedBytes w.mode req = [] → s.control.state = .active →
    (s.roomShadow r).loaded = true → isCheckout (s.roomShadow r) (s.roomAfter r es) = true →
    (∀ i ∈ (s.mailbox r).list, (s.message i).room = r ∧ (s.message i).state.listed = true) →
    let recordsHere (k : Nat) : Prop := (s.channel k).dir = .record ∧ (s.channel k).room = r ∧
      ((s.channel k).state = .opening ∨ (s.channel k).state = .recording ∨ (s.channel k).state = .stopped ∨
        (s.channel k).state = .closing)
    let unwritten (b : Buffer) : Bool := decide (b.cond = .filling) || decide (b.cond = .full)
    let returned (k : Nat) : Nat :=
      ([(s.channel k).buffer0, (s.channel k).buffer1].filter unwritten).length + (s.channel k).waitingBlock.toList.length
    let stops (t : State) (k : Nat) : Prop :=
      let c := s.channel k
      let m := s.message c.index
      (t.channel k).state = .stopped ∧ (t.channel k).stopReason = .checkedOut ∧ (t.channel k).writes = c.writes ∧
      (t.channel k).buffer0 = (if unwritten c.buffer0 then {} else c.buffer0) ∧
      (t.channel k).buffer1 = (if unwritten c.buffer1 then {} else c.buffer1) ∧
      (t.channel k).waitingBlock = none ∧ k ∉ t.store.takeLine ∧
      (t.message c.index).length = c.position ∧ (t.message c.index).blocks = m.blocks - returned k ∧
      (0 < c.writes → (t.message c.index).state = m.state) ∧
      (c.writes = 0 → c.release = .none → m.state = .recording → m.readers = 0 → m.blocks = returned k →
        (t.message c.index).state = .free)
    let told (t : State) (k : Nat) : Prop := s.enabled .recordingStopped = true →
      ⟨.recordingStopped, r, s.stamp, twoItems k 4, (s.channel k).position⟩ ∈ t.notices.queue
    let marked (t : State) (k : Nat) : Prop :=
      let c := s.channel k
      let m := s.message c.index
      (c.state = .stopped → c.stopReason ≠ .checkedOut → 0 < c.writes →
        t.channel k = { c with stopReason := .checkedOut } ∧ t.message c.index = m) ∧
      (c.state = .stopped → c.stopReason ≠ .checkedOut → c.writes = 0 → c.release = .none → m.state = .recording →
        m.readers = 0 → (t.channel k).state = .stopped ∧ (t.channel k).stopReason = .checkedOut ∧
          (m.blocks = 0 → (t.message c.index).state = .free) ∧
          (0 < m.blocks → (t.message c.index).state = .deleting ∨
            ((t.message c.index).state = .recording ∧ (t.channel k).release = .asked))) ∧
      (c.state = .closing → c.closing = .close → 0 < c.writes →
        t.channel k = { c with checkedOut := true } ∧ t.message c.index = m) ∧
      ((c.state = .stopped ∧ c.stopReason = .checkedOut) ∨ (c.state = .closing ∧ ¬(c.closing = .close ∧ 0 < c.writes)) →
        t.channel k = c ∧ t.message c.index = m)
    let stopping : List Nat := (List.range 16).filter fun k =>
      decide ((s.channel k).dir = .record) && decide ((s.channel k).room = r) && decide ((s.channel k).state = .recording)
    (∃ t, exec .checkout s = .next t ∧ sameMemory s t ∧
      (t.mailbox r).list = [] ∧ (t.mailbox r).counts = (0, 0, 0, 0) ∧ r ∈ t.store.marks ∧ r ∈ t.lamp.marks ∧
      (t.lampOf r).pattern = t.tablePattern r ∧
      (s.store.takeLine.Nodup → ∀ k ∈ stopping,
        (t.channel k).state = .stopped ∧ (t.channel k).stopReason = .checkedOut ∧ k ∉ t.store.takeLine) ∧
      (∀ i ∈ (s.mailbox r).list, ((t.message i).state = .deleting ∨ (t.message i).state = .free) ∧
        (t.message i).next = 0xFFFF ∧
        (0 < (s.message i).readers → (t.message i).state = .deleting) ∧
        ((s.message i).readers = 0 → 0 < (s.message i).blocks →
          ⟨(s.message i).first, (s.message i).blocks, i, .silent⟩ ∈ t.store.releaseQueue))) ∧
    ((∀ k < 16, ¬recordsHere k) →
      ∃ t, exec .checkout s = .next t ∧
        (∀ i, i ∉ (s.mailbox r).list → t.message i = s.message i) ∧
        (∀ q, q ≠ r → t.mailbox q = s.mailbox q) ∧ t.ring = s.ring ∧ t.time = s.time ∧
        (∀ k, s.stillChannel k → t.channel k = s.channel k)) ∧
    (∀ ch < 16, recordsHere ch → (∀ k < 16, k ≠ ch → ¬recordsHere k) → (s.channel ch).index ∉ (s.mailbox r).list →
      let c := s.channel ch
      let m := s.message c.index
      (c.state = .recording → m.room = r → (∀ k ∈ s.store.takeLine, k = ch) →
        ∃ t, exec .checkout s = .next t ∧ stops t ch ∧ t.freeCount = s.freeCount + returned ch ∧
          (s.notices.queue.length ≤ 12 → told t ch)) ∧
      (c.state = .stopped ∨ c.state = .closing →
        ∃ t, exec .checkout s = .next t ∧ marked t ch ∧ t.ring = s.ring) ∧
      (∀ slot e, c.state = .opening → c.order = some slot → s.entryOf slot = some e →
        m.state = .recording → m.readers = 0 → m.blocks = 0 →
        ∃ t, exec .checkout s = .next t ∧ (t.channel ch).state = .free ∧ (t.channel ch).order = none ∧
          ch ∉ t.store.takeLine ∧ (t.message c.index).state = .free ∧
          lineGrew s t .directory [completionWrite s slot e.copy .roomVacant false []])) ∧
    (s.store.takeLine = [] →
      (∀ k < 16, recordsHere k → (s.channel k).index ∉ (s.mailbox r).list ∧ (s.message (s.channel k).index).room = r ∧
        ∀ j < 16, j ≠ k → recordsHere j → (s.channel j).index ≠ (s.channel k).index) →
      ∃ t, exec .checkout s = .next t ∧
        (∀ k ∈ stopping, stops t k ∧ (s.notices.queue.length + stopping.length ≤ 13 → told t k)) ∧
        (∀ k < 16, recordsHere k → marked t k))

/-- (1) R80, R145, R146: a change of credit limit alone updates the shadow and works out toll-barred against the new
limit: a change of the flag marks the folio mirror and raises CREDIT STOP or CREDIT CLEAR with the OPEN total and the
limit. (2) R80, R91, R92: a change of lamp present alone computes the room's pattern again by the table of R90 and
marks the lamp mirror; a lamp that enters FAST or SLOW gets the phase that fewer lamps of its card hold, itself not
counted, A where they are equal, one that enters OFF or STEADY none, and the phase counts of the card follow; with its
pattern kept it keeps its phase; fault latch, mismatch count and override are kept. No other room's lamp, no folio and
no message changes. -/
def Obligations.LimitAndLampPresentChanges : Prop :=
  (∀ (s : State) (r : Nat) (es : List (Nat × Byte)), s.out = {} → s.leavesCarrying [.room r es] →
     s.control.state = .active → (s.roomShadow r).loaded = true →
     isCheckIn (s.roomShadow r) (s.roomAfter r es) = false → isCheckout (s.roomShadow r) (s.roomAfter r es) = false →
     (s.roomAfter r es).creditLimit ≠ (s.roomShadow r).creditLimit →
     (s.roomAfter r es).lampPresent = (s.roomShadow r).lampPresent →
     let limit := (s.roomAfter r es).creditLimit
     let f := s.folios r
     let barred := f.opened.any fun g => decide (0 < limit) && decide ((limit : Int) ≤ g.total)
     let u := s.leftHost.setRoomShadow r (s.roomAfter r es)
     let v := { u.setFolios r { f with barred := barred } with
       rating.marks := addMark s.rating.marks r
       out.notices :=
         if s.enabled (if barred then .creditStop else .creditClear) then
           [(.rating, ⟨if barred then .creditStop else .creditClear, r, s.stamp, word32 (s.openTotal r), limit⟩)] else [] }
     WriteLeaves .creditLimitChange s (if barred = f.barred then u else v)) ∧
  (∀ (s : State) (r : Nat) (es : List (Nat × Byte)), s.out = {} → s.leavesCarrying [.room r es] →
     s.control.state = .active → (s.roomShadow r).loaded = true →
     isCheckIn (s.roomShadow r) (s.roomAfter r es) = false → isCheckout (s.roomShadow r) (s.roomAfter r es) = false →
     (s.roomAfter r es).creditLimit = (s.roomShadow r).creditLimit →
     (s.roomAfter r es).lampPresent ≠ (s.roomShadow r).lampPresent →
     ∃ t, exec .lampPresentChange s = .next t ∧ leavesMemory s t ∧
       t.roomShadow r = s.roomAfter r es ∧
       (t.lampOf r).pattern = effectivePattern (s.lampOf r).override (s.roomAfter r es).lampPresent
         (decide ((s.roomAfter r es).status = .occupied)) (s.mailbox r) ∧
       (t.lampOf r).override = (s.lampOf r).override ∧ (t.lampOf r).latch = (s.lampOf r).latch ∧
       (t.lampOf r).mismatch = (s.lampOf r).mismatch ∧ r ∈ t.lamp.marks ∧
       (let old := s.lampOf r
        let new := t.lampOf r
        let c := s.card (r / 64)
        let others (p : Pattern) (ph : Phase) : Nat := c.count p ph - if old.pattern = p ∧ old.phase = ph then 1 else 0
        (new.pattern = old.pattern → new.phase = old.phase ∧ t.card (r / 64) = c) ∧
        (new.pattern ≠ old.pattern →
          new.phase = (if new.pattern = .fast ∨ new.pattern = .slow then
            (if others new.pattern .b < others new.pattern .a then .b else .a) else .none) ∧
          ∀ p ph, (p = .fast ∨ p = .slow) → (ph = .a ∨ ph = .b) →
            (t.card (r / 64)).count p ph = others p ph + if new.pattern = p ∧ new.phase = ph then 1 else 0)) ∧
       (∀ k, k ≠ r / 64 → t.card k = s.card k) ∧
       (∀ q, q ≠ r → t.lampOf q = s.lampOf q ∧ t.roomShadow q = s.roomShadow q) ∧
       t.store = s.store ∧ t.ring = s.ring ∧ t.rating = s.rating ∧ t.time = s.time ∧ t.control = s.control)

/-- (1) R80, R35: a change of quota alone does nothing at once: the shadow is updated, and the room's quota is the new
value, or the default quota where that is 0. (2) R123: a write of a loaded tariff entry replaces the shadow bytes of
its fields, and steps nothing. -/
def Obligations.QuotaAndTariffWritesAreRecorded : Prop :=
  (∀ (s : State) (r : Nat) (es : List (Nat × Byte)), s.out = {} → s.leavesCarrying [.room r es] →
     s.control.state = .active → (s.roomShadow r).loaded = true →
     isCheckIn (s.roomShadow r) (s.roomAfter r es) = false → isCheckout (s.roomShadow r) (s.roomAfter r es) = false →
     (s.roomAfter r es).creditLimit = (s.roomShadow r).creditLimit →
     (s.roomAfter r es).lampPresent = (s.roomShadow r).lampPresent →
     (s.roomAfter r es).quota ≠ (s.roomShadow r).quota →
     WriteLeaves .mailboxQuotaChange s (s.leftHost.setRoomShadow r (s.roomAfter r es)) ∧
     (s.leftHost.setRoomShadow r (s.roomAfter r es)).quotaOf r =
       (if (s.roomAfter r es).quota = 0 then s.profile.defaultQuota else (s.roomAfter r es).quota)) ∧
  (∀ (s : State) (i : Nat) (es : List (Nat × Byte)), s.out = {} → s.leavesCarrying [.tariff i es] →
     (s.tariffShadow i).loaded = true →
     WriteLeaves .tariffWrite s
       (s.leftHost.setTariffShadow i
         { s.tariffShadow i with bytes := mergeBytes tariffField (s.tariffShadow i).bytes es }))

/-! ### Trunk and tariff writes -/

/-- The table of R115: the state of a trunk context after a written state; the model's `unknown` steps as IDLE. -/
def Obligations.TrunkContextFollowsTheTable : Prop :=
  ∀ (s : State) (k : Nat) (es : List (Nat × Byte)) (c : Instr) (w : WrittenState), s.out = {} →
    (c, w) ∈ [(Instr.trunkSeize, WrittenState.seized), (.trunkAnswer, .answered), (.trunkClear, .cleared),
      (.trunkIdleWrite, .idle), (.trunkUnknownState, .unknown)] →
    s.leavesCarrying [.trunk k es] → s.control.state = .active → (s.trunkShadow k).loaded = true →
    es.any (fun e => decide (e.1 = 0)) = true →
    writtenStateOf (byteAt (mergeBytes trunkField (s.trunkShadow k).bytes es) 0) = w →
    ∃ t, exec c s = .next t ∧ leavesMemory s t ∧
      (t.trunk k).state =
        (match w, (s.trunk k).state with
          | .seized, _ => .seized
          | .answered, _ => .answered
          | _, _ => .idle) ∧
      (∀ j, j ≠ k → t.trunk j = s.trunk j) ∧
      t.trunkShadow k = { s.trunkShadow k with bytes := mergeBytes trunkField (s.trunkShadow k).bytes es } ∧
      (∀ j, j ≠ k → t.trunkShadow j = s.trunkShadow j) ∧
      t.store = s.store ∧ t.ring = s.ring ∧ t.lamp = s.lamp ∧ t.time = s.time ∧ t.frame = s.frame ∧
      t.control = s.control ∧ (∀ k, s.stillChannel k → t.channel k = s.channel k)

/-- R116, R117, R118, R131: what a seize stamps and an answer captures, and the two anomalies. A seize from IDLE takes
the elapsed count and clears the missed-seize flag; an answer takes the elapsed count, the stamp, and from the shadow
the room, direction and digits, with the serial of the room's OPEN folio, and is counted by its direction. An answer
from IDLE is a missed seize: it takes the elapsed count as both, is counted, and raises TRUNK SEQUENCE with the
shadow's room (FFFFh at or beyond the room count), the trunk, anomaly 1 and the byte written. A byte that is none of
the four codes and has changed is counted as an unknown state and raises TRUNK SEQUENCE with anomaly 2 and the byte,
before what its step as IDLE raises; written again unchanged it does neither. -/
def Obligations.SeizeAndAnswerCaptureTheCall : Prop :=
  ∀ (s : State) (k : Nat) (es : List (Nat × Byte)), s.out = {} → s.leavesCarrying [.trunk k es] →
    s.control.state = .active → (s.trunkShadow k).loaded = true → es.any (fun e => decide (e.1 = 0)) = true →
    let h := { s.trunkShadow k with bytes := mergeBytes trunkField (s.trunkShadow k).bytes es }
    let taken (u : Trunk) (seize : BitVec 32) (missed : Bool) : Trunk :=
      { u with
        state := .answered, seizeCount := seize, answerCount := s.time.elapsed, answerStamp := s.stamp
        missedSeize := missed, room := h.trunkRoom, incoming := h.trunkIncoming, digits := h.trunkDigits
        serial := s.openSerial h.trunkRoom }
    let room := if h.trunkRoom < s.roomCount then h.trunkRoom else 0xFFFF
    (byteAt h.bytes 0 = 1#8 → (s.trunk k).state = .idle →
      ∃ t, exec .trunkSeize s = .next t ∧ leavesMemory s t ∧
        t.trunk k = { s.trunk k with state := .seized, seizeCount := s.time.elapsed, missedSeize := false } ∧
        t.rating.folios = s.rating.folios) ∧
    (byteAt h.bytes 0 = 2#8 → (s.trunk k).state = .seized →
      ∃ t, exec .trunkAnswer s = .next t ∧ leavesMemory s t ∧
        t.trunk k = taken (s.trunk k) (s.trunk k).seizeCount (s.trunk k).missedSeize ∧
        t.rating.folios = s.rating.folios ∧
        t.rating.outgoing = (if h.trunkIncoming then s.rating.outgoing else sat32 s.rating.outgoing) ∧
        t.rating.incoming = (if h.trunkIncoming then sat32 s.rating.incoming else s.rating.incoming)) ∧
    (byteAt h.bytes 0 = 2#8 → (s.trunk k).state = .idle →
      ∃ t, exec .trunkAnswer s = .next t ∧ leavesMemory s t ∧
        t.trunk k = taken (s.trunk k) s.time.elapsed true ∧ t.rating.folios = s.rating.folios ∧
        t.rating.missedSeizes = sat32 s.rating.missedSeizes ∧ t.rating.unknownStates = s.rating.unknownStates ∧
        t.rating.outgoing = (if h.trunkIncoming then s.rating.outgoing else sat32 s.rating.outgoing) ∧
        t.rating.incoming = (if h.trunkIncoming then sat32 s.rating.incoming else s.rating.incoming) ∧
        (s.enabled .trunkSequence = true → s.notices.queue.length < 16 →
          t.notices.queue = s.notices.queue ++ [⟨.trunkSequence, room, s.stamp, twoItems k 1, 2⟩])) ∧
    (writtenStateOf (byteAt h.bytes 0) = .unknown →
      ∃ t, exec .trunkUnknownState s = .next t ∧ leavesMemory s t ∧ t.rating.missedSeizes = s.rating.missedSeizes ∧
        (byteAt h.bytes 0 ≠ byteAt (s.trunkShadow k).bytes 0 →
          t.rating.unknownStates = sat32 s.rating.unknownStates ∧
          (s.enabled .trunkSequence = true → s.notices.queue.length < 16 →
            ∃ l, t.notices.queue = s.notices.queue ++
              ⟨.trunkSequence, room, s.stamp, twoItems k 2, (byteAt h.bytes 0).toNat⟩ :: l)) ∧
        (byteAt h.bytes 0 = byteAt (s.trunkShadow k).bytes 0 →
          t.rating.unknownStates = s.rating.unknownStates ∧
          ∀ n ∈ t.notices.queue, n.kind = .trunkSequence → n ∈ s.notices.queue))

/-- (1) R120, R124, R126 to R128, R138, R139: a CLEARED write over an answered outgoing call is priced by the tariff
entry the prefix match chooses, and its charge is appended to the OPEN folio it was captured with: the total rises by
the minor units, saturating, and the call counts as rated; a duration within the grace is free and adds 0. Stored, the
record is the lowest free one, and the queue takes its record write, with no next index, and then the link write of
the old tail, if there is one. Not stored, for want of a record or of queue entries, the folio is incomplete, nothing
is taken or queued, and POOL FULL is counted and raised with its cause (R140). (2) R115, R120, R121, R124, R129, R130:
the end of an answered call by a write of CLEARED, and, with the implicit-clear flag set and counted, of IDLE, SEIZED
or an unknown value: the context is IDLE, or SEIZED with its seize stamped. Of an incoming call no charge is made. The
charge record of an outgoing one carries what R129 lists, priced by the entry matched; where none matches it is
UNRATED, its charge 0, counted, and UNRATED CALL raised. (3) R119: a write of IDLE, CLEARED or an unknown value ends
an unanswered call: the context is IDLE; nothing is recorded where such calls are not logged or the shadow's direction
is incoming; else it is counted, and its UNANSWERED record, with room, direction and digits of the shadow, is appended
to the room's OPEN folio, or discarded where the room has none. The missed-seize flag of an UNANSWERED charge is log
entry 23 (DEDUCED); digit nibbles past the count and bits of a charge record that no layout names are written 0: log
entry 39 (DESIGN CHOICE). -/
def Obligations.ClearedCallIsPricedOntoItsFolio : Prop :=
  (∀ (s : State) (k : Nat) (es : List (Nat × Byte)) (i : Nat) (f : Folio), s.out = {} →
     s.leavesCarrying [.trunk k es] → s.control.state = .active → (s.trunkShadow k).loaded = true →
     es.any (fun e => decide (e.1 = 0)) = true →
     byteAt (mergeBytes trunkField (s.trunkShadow k).bytes es) 0 = 3#8 →
     (s.trunk k).state = .answered → (s.trunk k).incoming = false →
     (s.trunk k).room < s.roomCount → (s.trunk k).serial ≠ 0 →
     s.matchTariff (s.trunk k).digits = some i →
     (s.folios (s.trunk k).room).opened = some f → f.serial = (s.trunk k).serial →
     let u := s.trunk k
     let h := s.tariffShadow i
     let d := (s.time.elapsed - u.answerCount).toNat
     let night := isNight s.profile.dayStart s.profile.nightStart u.answerStamp.clock
     let n := if d > h.firstPeriod then (d - h.firstPeriod + h.pulsePeriod - 1) / h.pulsePeriod else 0
     let base := min (h.connectionFee + h.firstCharge night + n * h.pulseCharge night) 4294967295
     let marked := (base * (10000 + h.surcharge) + 5000) / 10000
     let capped := min (if h.cap > 0 ∧ marked > h.cap then h.cap else marked) 4294967295
     let amount : Int := if d ≤ h.grace then 0 else ((capped + 500) / 1000 : Nat)
     let call : Charge :=
       { kind := .free, missed := u.missedSeize, clockUnset := !s.time.clockSet || !u.answerStamp.clockSet, trunk := k
         room := u.room, serial := u.serial, digits := u.digits, stamp := u.answerStamp, duration := d, tariff := i
         amount := 0, night := night }
     let charge : Charge :=
       if d ≤ h.grace then call
       else { call with kind := .rated, pulses := n, base := base, marked := capped, amount := amount }
     let total : Int := max (-2147483648) (min 2147483647 (f.total + amount))
     ∃ t, exec .trunkClear s = .next t ∧ leavesMemory s t ∧ (t.trunk k).state = .idle ∧
       (t.folios u.room).closed = (s.folios u.room).closed ∧ (∀ q, q ≠ u.room → t.folios q = s.folios q) ∧
       u.room ∈ t.rating.marks ∧
       t.rating.free = (if d ≤ h.grace then sat32 s.rating.free else s.rating.free) ∧
       t.rating.rated = (if d ≤ h.grace then s.rating.rated else sat32 s.rating.rated) ∧
       (∀ rec pool, s.rating.freePool = rec :: pool → f.entriesNeeded ≤ 64 - s.rating.queue.length →
         (t.folios u.room).opened = some { f with total := total, records := f.records ++ [rec] } ∧
         t.rating.freePool = pool ∧ t.rating.poolFullCount = s.rating.poolFullCount ∧
         t.rating.queue = s.rating.queue ++ s.appendWrites f rec charge none) ∧
       (s.rating.freePool = [] ∨ 64 - s.rating.queue.length < f.entriesNeeded →
         (t.folios u.room).opened = some { f with total := total, incomplete := true } ∧
         t.rating.freePool = s.rating.freePool ∧ t.rating.queue = s.rating.queue ∧
         t.rating.poolFullCount = sat32 s.rating.poolFullCount ∧
         (s.enabled .poolFull = true → s.notices.queue.length < 16 →
           ⟨.poolFull, u.room, s.stamp, f.serial, if s.rating.freePool = [] then 1 else 2⟩ ∈ t.notices.queue))) ∧
  (∀ (s : State) (k : Nat) (es : List (Nat × Byte)) (c : Instr) (w : WrittenState) (implicit : Bool), s.out = {} →
     (c, w, implicit) ∈ [(Instr.trunkClear, WrittenState.cleared, false), (.trunkIdleWrite, .idle, true),
       (.trunkSeize, .seized, true), (.trunkUnknownState, .unknown, true)] →
     s.leavesCarrying [.trunk k es] → s.control.state = .active → (s.trunkShadow k).loaded = true →
     es.any (fun e => decide (e.1 = 0)) = true →
     writtenStateOf (byteAt (mergeBytes trunkField (s.trunkShadow k).bytes es) 0) = w →
     (s.trunk k).state = .answered →
     let u := s.trunk k
     let after : Trunk :=
       if w = .seized then { u with state := .seized, seizeCount := s.time.elapsed, missedSeize := false }
       else { u with state := .idle }
     let implicits := if implicit then sat32 s.rating.implicits else s.rating.implicits
     (u.incoming = true →
       ∃ t, exec c s = .next t ∧ leavesMemory s t ∧ t.trunk k = after ∧ t.rating.implicits = implicits ∧
         t.rating.folios = s.rating.folios ∧ t.rating.queue = s.rating.queue ∧ t.rating.freePool = s.rating.freePool ∧
         t.rating.rated = s.rating.rated ∧ t.rating.free = s.rating.free ∧ t.rating.unrated = s.rating.unrated) ∧
     (∀ f rec pool, u.incoming = false → u.room < s.roomCount → u.serial ≠ 0 →
       (s.folios u.room).opened = some f → f.serial = u.serial →
       s.rating.freePool = rec :: pool → f.entriesNeeded ≤ 64 - s.rating.queue.length →
       let call : Charge :=
         { kind := .unrated, implicit := implicit, missed := u.missedSeize
           clockUnset := !s.time.clockSet || !u.answerStamp.clockSet, trunk := k, room := u.room, serial := u.serial
           digits := u.digits, stamp := u.answerStamp, duration := (s.time.elapsed - u.answerCount).toNat
           tariff := 0xFFFF, amount := 0
           night := isNight s.profile.dayStart s.profile.nightStart u.answerStamp.clock }
       let charge : Charge :=
         match s.matchTariff u.digits with
         | none => call
         | some i => priceBy (s.tariffShadow i) i call.duration call
       ∃ t, exec c s = .next t ∧ leavesMemory s t ∧ t.trunk k = after ∧ t.rating.implicits = implicits ∧
         (t.folios u.room).opened = some { f with
           total := max (-2147483648) (min 2147483647 (f.total + charge.amount)), records := f.records ++ [rec] } ∧
         (t.folios u.room).closed = (s.folios u.room).closed ∧ (∀ q, q ≠ u.room → t.folios q = s.folios q) ∧
         t.rating.freePool = pool ∧ u.room ∈ t.rating.marks ∧
         t.rating.queue = s.rating.queue ++ s.appendWrites f rec charge none ∧
         t.rating.unrated = (if charge.kind = .unrated then sat32 s.rating.unrated else s.rating.unrated) ∧
         t.rating.free = (if charge.kind = .free then sat32 s.rating.free else s.rating.free) ∧
         t.rating.rated = (if charge.kind = .rated then sat32 s.rating.rated else s.rating.rated) ∧
         (s.matchTariff u.digits = none → s.enabled .unratedCall = true →
           s.notices.queue.length < (if w = .unknown then 15 else 16) →
           ⟨.unratedCall, u.room, s.stamp, k, call.duration⟩ ∈ t.notices.queue))) ∧
  (∀ (s : State) (k : Nat) (es : List (Nat × Byte)) (c : Instr) (w : WrittenState), s.out = {} →
     (c, w) ∈ [(Instr.trunkClear, WrittenState.cleared), (.trunkIdleWrite, .idle), (.trunkUnknownState, .unknown)] →
     s.leavesCarrying [.trunk k es] → s.control.state = .active → (s.trunkShadow k).loaded = true →
     es.any (fun e => decide (e.1 = 0)) = true →
     writtenStateOf (byteAt (mergeBytes trunkField (s.trunkShadow k).bytes es) 0) = w →
     (s.trunk k).state = .seized →
     let u := s.trunk k
     let h := { s.trunkShadow k with bytes := mergeBytes trunkField (s.trunkShadow k).bytes es }
     let room := h.trunkRoom
     (s.profile.logUnanswered = false ∨ h.trunkIncoming = true →
       ∃ t, exec c s = .next t ∧ leavesMemory s t ∧ t.trunk k = { u with state := .idle } ∧
         t.rating.unanswered = s.rating.unanswered ∧ t.rating.folios = s.rating.folios ∧
         t.rating.queue = s.rating.queue ∧ t.rating.freePool = s.rating.freePool) ∧
     (s.profile.logUnanswered = true → h.trunkIncoming = false →
       (s.roomCount ≤ room ∨ (s.folios room).opened = none →
         ∃ t, exec c s = .next t ∧ leavesMemory s t ∧ t.trunk k = { u with state := .idle } ∧
           t.rating.unanswered = sat32 s.rating.unanswered ∧ t.rating.folios = s.rating.folios ∧
           t.rating.queue = s.rating.queue ∧ t.rating.freePool = s.rating.freePool ∧
           t.rating.unbilledCount = s.rating.unbilledCount) ∧
       (∀ f rec pool, room < s.roomCount → (s.folios room).opened = some f → f.serial ≠ 0 →
         s.rating.freePool = rec :: pool → f.entriesNeeded ≤ 64 - s.rating.queue.length →
         let charge : Charge :=
           { kind := .unanswered, missed := u.missedSeize, clockUnset := !s.time.clockSet, trunk := k, room := room
             serial := f.serial, digits := h.trunkDigits, stamp := s.stamp
             duration := (s.time.elapsed - u.seizeCount).toNat, tariff := 0xFFFF, amount := 0
             night := isNight s.profile.dayStart s.profile.nightStart s.time.clock }
         ∃ t, exec c s = .next t ∧ leavesMemory s t ∧ t.trunk k = { u with state := .idle } ∧
           t.rating.unanswered = sat32 s.rating.unanswered ∧
           (t.folios room).opened = some { f with
             total := max (-2147483648) (min 2147483647 f.total), records := f.records ++ [rec] } ∧
           (t.folios room).closed = (s.folios room).closed ∧ (∀ q, q ≠ room → t.folios q = s.folios q) ∧
           t.rating.freePool = pool ∧ room ∈ t.rating.marks ∧
           t.rating.queue = s.rating.queue ++ s.appendWrites f rec charge none)))

/-- (1) R125: the band by the three lines of its table. (2) R124: the entry the prefix match chooses matches the digits,
lies below the tariff count, and no matching entry has a longer prefix, nor an equal one at a lower index; where none
is chosen, none matches. -/
def Obligations.BandAndPrefixMatch : Prop :=
  (∀ d n t : Nat,
     (d = n → isNight d n t = false) ∧
     (n < d → (isNight d n t = true ↔ n ≤ t ∧ t < d)) ∧
     (d < n → (isNight d n t = true ↔ n ≤ t ∨ t < d))) ∧
  (∀ (s : State) (ds : List Nat),
     (∀ i, s.matchTariff ds = some i →
       i < s.profile.tariffs ∧ (s.tariffShadow i).matchesDigits ds = true ∧
       ∀ j < s.profile.tariffs, (s.tariffShadow j).matchesDigits ds = true →
         (s.tariffShadow j).prefixLength < (s.tariffShadow i).prefixLength ∨
         ((s.tariffShadow j).prefixLength = (s.tariffShadow i).prefixLength ∧ i ≤ j)) ∧
     (s.matchTariff ds = none → ∀ j < s.profile.tariffs, (s.tariffShadow j).matchesDigits ds = false))

/-! ### Ring and activation writes -/

/-- (1) R174: the table of what a host write of a slot's state byte does: POSTED marks an idle slot, another value clears
the mark of a marked one, and either meets RING ERROR at a held slot, its mark not set, with the slot, its condition
and the byte. (2) R185: a consumer index below the slot count becomes k, and one at or beyond it is not taken; a write
of the overflow flag clears the flag, keeps the dropped count, and raises the header write. -/
def Obligations.RingWritesReachTheRings : Prop :=
  (∀ (s : State) (i : Nat) (v : Byte) (c : Instr), s.out = {} → s.leavesCarrying [.slot i v] →
     ((c = .orderPost ∧ v = 1#8) ∨ (c = .orderCancel ∧ v ≠ 1#8 ∧ (i ∈ s.ring.marks ∨ s.slotHeld i = true))) →
     (s.slotHeld i = true →
       WriteLeaves c s
         { s.leftHost with
           ring.ringErrors := if s.ring.ringErrors ≥ 0xFFFFFFFF then 0xFFFFFFFF else s.ring.ringErrors + 1
           out.notices := if s.enabled .ringError then
             [(.directory, ⟨.ringError, 0xFFFF, s.stamp,
               twoItems i (if s.ring.taking = some i then 1 else 2), v.toNat⟩)] else [] }) ∧
     (s.slotHeld i = false → v = 1#8 →
       WriteLeaves c s { s.leftHost with ring.marks := addMark s.ring.marks i }) ∧
     (s.slotHeld i = false → v ≠ 1#8 →
       WriteLeaves c s { s.leftHost with ring.marks := s.ring.marks.filter fun k => decide (k ≠ i) })) ∧
  (∀ (s : State) (v : Nat), s.out = {} →
     (s.leavesCarrying [.consumer v] →
       WriteLeaves .consumerIndexWrite s
         { s.leftHost with notices.consumer := if v < s.profile.noticeSlots then v else s.notices.consumer }) ∧
     (s.leavesCarrying [.clearOverflow] →
       WriteLeaves .overflowFlagClear s
         { s.leftHost with
           notices.overflow := false
           out.requests := [{ source := .noticeHeader false, write := true, addr := s.profile.noticeBase, beats := 4 }] }))

/-- R186, R187: FORMAT and ADOPT, written while PASSIVE, begin validation: the 32 lines of the profile host part are
read. Written while STARTING or ACTIVE they are not taken: REFUSED is recorded and the activation status written. That
the value of a refused activation is the last one acted on, and is shown as such, is log entry 14 (DEDUCED). That the
status write carries 00h at bytes 2050 and 2051 is log entry 35 (DESIGN CHOICE). -/
def Obligations.ActivationStartsValidation : Prop :=
  ∀ (s : State) (c : Instr) (kind : StartKind) (v : Nat), s.out = {} →
    (c, kind, v) ∈ [(Instr.format, StartKind.format, 1), (.adopt, .adopt, 2)] → s.leavesCarrying [.activation v] →
    (s.control.state = .passive →
      WriteLeaves c s
        { s.leftHost with
          control := { s.control with lastValue := v, validating := some kind }
          out.requests := (List.range 32).map fun k =>
            { source := .validation k, write := false, addr := s.straps.toNat * 2 ^ 30 + 64 * k, beats := 8 } }) ∧
    (s.control.state ≠ .passive →
      WriteLeaves c s
        { s.leftHost with
          control := { s.control with lastValue := v, result := .refused }
          out.requests := [{ source := .activation, write := true, addr := s.straps.toNat * 2 ^ 30 + 2048, beats := 1
                             lanes := allLanes (le 1 s.control.state.code ++ le 1 6 ++ zeros 2 ++ le 4 v) }] })

/-- R163, R170, R193: STOP, taken from STARTING or ACTIVE, leaves a PASSIVE part with STOPPED recorded: the engines,
the orders, the notices and the shadows are at their initial values, the time base and the frame counter run on, the
lists are the PASSIVE arrangement, requester 0 keeps its requests but those of load reads, and the FIFO loses its load
reads. In PASSIVE it is refused. What the rules leave open: the last value 3, also when refused, and what requester 0,
the returned bursts and the requests that wait keep are log entry 14 (DEDUCED); the validated copy is that of reset,
log entry 10 (DESIGN CHOICE); what the reads were given stands. That the status write carries 00h at bytes 2050 and
2051 is log entry 35 (DESIGN CHOICE). -/
def Obligations.StopDropsTheContexts : Prop :=
  ∀ s : State, s.out = {} → s.leavesCarrying [.activation 3] →
    (s.control.state ≠ .passive →
      WriteLeaves .stop s
        { pending := s.pending, straps := s.straps, mem := s.atLeave.mem, time := s.time, frame := s.frame
          control := { result := .stopped, lastValue := 3 }
          host := { fifo := s.host.fifo.tail.filter (fun e => !e.isLoad), waiting := s.host.waiting
                    answers := s.host.answers }
          arbiter := { lines := { host := s.atLeave.arbiter.lines.host.filter fun r =>
                                    decide (r.source.requester = .host) && decide (r.source ≠ .loadRead) }
                       port := s.atLeave.arbiter.port.map Carried.stopped
                       returned := s.arbiter.returned.filter fun r => decide (r.source = .hostPart) }
          out := { requests := [{ source := .activation, write := true, addr := s.straps.toNat * 2 ^ 30 + 2048
                                  beats := 1, lanes := allLanes (le 1 0 ++ le 1 7 ++ zeros 2 ++ le 4 3) }] }
          choices := s.choices }) ∧
    (s.control.state = .passive →
      WriteLeaves .stop s
        { s.leftHost with
          control := { s.control with lastValue := 3, result := .refused }
          out.requests := [{ source := .activation, write := true, addr := s.straps.toNat * 2 ^ 30 + 2048, beats := 1
                             lanes := allLanes (le 1 0 ++ le 1 6 ++ zeros 2 ++ le 4 3) }] })

/-! ### Reads and the voice aperture space -/

/-- R150, R151: the data of a read's last part is passed to the host in the lanes it enabled, behind what the reads
before it were given, and the read leaves. What the reads were given stands in a list: log entry 10 (DESIGN CHOICE).
In lanes past the end of the address space it is given some byte: log entry 6 (DESIGN CHOICE). -/
def Obligations.ReadDataReachesTheHost : Prop :=
  ∀ (s : State) (req : HostRequest) (w : HeadWork) (p : Part) (ret : Returned), s.out = {} →
    s.returnOf Source.isHostPart = some ret → s.readOut = some (req, w) → w.parts = [p] →
    s.host.fifo = [.host req] → s.host.waiting = [] → s.host.loads = [] →
    ∃ past, givenPast req past ∧ Completes .hostReadData s
      { takeReturn Source.isHostPart s with
        host := { s.host with
          fifo := [], head := none
          answers := s.host.answers ++
            [w.answer ++ ((p.lanes.zip ret.data).map fun x => x.1.map fun _ => x.2) ++ past] } }

/-- R53: a host write that lies wholly in the voice aperture space gives its samples to the channels, lowest address
first, and leaves; it reaches no memory. -/
def Obligations.ApertureWriteGivesItsSamples : Prop :=
  ∀ (s : State) (req : HostRequest) (w : HeadWork), s.out = {} → s.atVoice true = some (req, w) →
    w.mode = .active → w.parts.all (s.inAperture w.mode) = true →
    s.observations w.mode req = [] → s.guardedBytes w.mode req = [] →
    ∃ t, exec .recordApertureWrite s = .next t ∧ sameOuter s t ∧
      EndsAs { takeLanes (s.voiceOffset w.parts) (partLanes w.parts) s with
        host := { s.host with fifo := s.host.fifo.tail, head := none } } t

/-- (1) R1: the step table is the one the recurrence gives from 8, row by row as R1 lists it. (2) R3, R4: the code, the
quantised difference, the clamped prediction and the clamped index. -/
def Obligations.CodecArithmetic : Prop :=
  (stepSize 0 = 8 ∧ (∀ k < 63, stepSize (k + 1) = stepSize k + stepSize k / 8 + 1) ∧
   (List.range 64).map stepSize =
     [8, 10, 12, 14, 16, 19, 22, 25, 29, 33, 38, 43, 49, 56, 64, 73, 83, 94, 106, 120, 136, 154, 174, 196,
      221, 249, 281, 317, 357, 402, 453, 510, 574, 646, 727, 818, 921, 1037, 1167, 1313,
      1478, 1663, 1871, 2105, 2369, 2666, 3000, 3376, 3799, 4274, 4809, 5411, 6088, 6850, 7707, 8671,
      9755, 10975, 12347, 13891, 15628, 17582, 19780, 22253]) ∧
  (∀ (p x : Int) (i code : Nat), i ≤ 63 → code < 16 →
     let step := stepSize i
     let m := min 7 (2 * (x - p).natAbs / step)
     encodeSample p i x = (if x - p < 0 then m + 8 else m) ∧
     nextPrediction p i code =
       (let dq : Int := ((2 * (code % 8) + 1) * step / 4 : Nat)
        max (-32768) (min 32767 (if code < 8 then p + dq else p - dq))) ∧
     (nextIndex i code : Int) =
       max 0 (min 63 ((i : Int) + [(-1 : Int), -1, -1, -1, 2, 4, 6, 8].getD (code % 8) 0)))

/-- (1) R64, R13: the next position of a play read on a PLAYING channel whose current block holds a further sample and
whose stream has not ended yields that sample, decoded by R5; position and accepted count rise by 1. (2) R64, R151: a
play read of one position of a PLAYING channel, the seven other lanes or positions not enabled: the next sample of the
stream is passed to the host, lower-order byte first, 0 at the other positions, and the read leaves. (3) R64, R66: a
play read of a channel that plays nothing returns 0 at every position; one that is ENDED counts one past-end read,
whatever its length, and no other channel field changes. (4) R65: where the stall limit expires, the underrun count of
the channel rises by 1 and the positions left in its play aperture are answered with 0; the channel plays on from
where it was. That the channel is ENDED and its buffer EMPTY in the step of its last sample is log entry 24 (DEDUCED).
What the reads were given stands in a list: log entry 10 (DESIGN CHOICE), and some byte in lanes past the end of the
address space: log entry 6 (DESIGN CHOICE). -/
def Obligations.PlayReadsOfTheAperture : Prop :=
  (∀ (s : State) (ch : Nat), s.streamEnded (s.channel ch) (s.channel ch).position = false →
     (s.channel ch).blockPos < (s.channel ch).sampleCount →
     let c := s.channel ch
     let code := nibble ((c.buffer c.current).data.drop 8) c.blockPos
     let d := { c with
       prediction := nextPrediction c.prediction c.stepIndex code, stepIndex := nextIndex c.stepIndex code
       blockPos := c.blockPos + 1, position := c.position + 1, accepted := sat32 c.accepted }
     (playStep ch s).1 = .sample (nextPrediction c.prediction c.stepIndex code) ∧
     (playStep ch s).2 = s.setChannel ch
       (if s.streamEnded d (c.position + 1) then { d.setBuffer d.current {} with state := .ended } else d)) ∧
  (∀ (s : State) (req : HostRequest) (w : HeadWork) (p : Part) (ch : Nat) (v : Int), s.out = {} →
     s.atVoice false = some (req, w) → w.mode = .active → w.parts = [p] → s.inAperture w.mode p = true →
     s.host.fifo = [.host req] → s.host.waiting = [] → s.host.loads = [] →
     p.lanes = [some 0#8, some 0#8, none, none, none, none, none, none] →
     65536 * ch + 32768 ≤ s.apertureOffset p.addr → s.apertureOffset p.addr + 8 ≤ 65536 * (ch + 1) →
     (s.channel ch).state = .playing → (playStep ch s).1 = .sample v →
     ∃ past, givenPast req past ∧ Completes .playApertureRead s
       { (playStep ch s).2 with
         host := { s.host with
           fifo := [], head := none
           answers := s.host.answers ++ [w.answer ++ (allLanes (leInt 2 v) ++ List.replicate 6 (some 0#8)) ++ past] } }) ∧
  (∀ (s : State) (req : HostRequest) (w : HeadWork) (p : Part) (ch : Nat), s.out = {} →
     s.atVoice false = some (req, w) → w.mode = .active → w.parts = [p] → s.inAperture w.mode p = true →
     s.host.fifo = [.host req] → s.host.waiting = [] → s.host.loads = [] →
     0 < p.lanes.length → p.lanes.length % 2 = 0 →
     65536 * ch + 32768 ≤ s.apertureOffset p.addr → s.apertureOffset p.addr + p.lanes.length ≤ 65536 * (ch + 1) →
     (s.channel ch).state ≠ .playing → ¬((s.channel ch).state = .opening ∧ (s.channel ch).dir = .play) →
     let c := s.channel ch
     ∃ past, givenPast req past ∧ Completes .playApertureRead s
       { (if c.state = .ended then s.setChannel ch { c with pastEnd := sat32 c.pastEnd } else s) with
         host := { s.host with
           fifo := [], head := none
           answers := s.host.answers ++ [w.answer ++ List.replicate p.lanes.length (some 0#8) ++ past] } }) ∧
  (∀ (s : State) (req : HostRequest) (w : HeadWork) (p : Part) (ch : Nat) (seen : List Nat), s.out = {} →
     s.stalledRead = some (req, w, ch, seen) → req.write = false → ch ∈ seen →
     w.mode = .active → w.parts = [p] → s.inAperture w.mode p = true →
     s.host.fifo = [.host req] → s.host.waiting = [] → s.host.loads = [] →
     0 < p.lanes.length → p.lanes.length % 2 = 0 →
     65536 * ch + 32768 ≤ s.apertureOffset p.addr → s.apertureOffset p.addr + p.lanes.length ≤ 65536 * (ch + 1) →
     let c := s.channel ch
     ∃ past, givenPast req past ∧ Completes .stallExpiry s
       { s.setChannel ch { c with
           underruns := if c.underruns ≥ 0xFFFFFFFF then 0xFFFFFFFF else c.underruns + 1 } with
         host := { s.host with
           fifo := [], head := none
           answers := s.host.answers ++ [w.answer ++ List.replicate p.lanes.length (some 0#8) ++ past] } })

/-! ### Start-up -/

/-- R186, R187, R170, R188: with the 32 lines read, validation records the code of the first check that fails and the
part stays PASSIVE; or the part enters STARTING with the validated copy and its lists, the wheel at 0 and the round
robin at its last entry, the kind of start kept, the load reads of every room, trunk and tariff in that order, and
STARTED recorded. That the status write carries 00h at bytes 2050 and 2051 is log entry 35 (DESIGN CHOICE). -/
def Obligations.ValidationRefusesOrStarts : Prop :=
  ∀ (s : State) (kind : StartKind), s.out = {} → s.control.validating = some kind →
    (s.arbiter.returned.filter fun r => r.source.isValidation).length = 32 →
    (∀ code, validate (s.straps.toNat * 2 ^ 30) s.validationData = .inl code →
      ∃ t, exec .profileValidation s = .next t ∧ t.control = { s.control with validating := none, result := code } ∧
        t.profile = s.profile ∧ t.arbiter.lists = s.arbiter.lists ∧ t.mem = s.mem ∧
        (∃ r, lineGrew s t .host [r] ∧ r.source = .activation ∧ r.addr = s.straps.toNat * 2 ^ 30 + 2048 ∧
          r.lanes = allLanes (le 1 s.control.state.code ++ le 1 code.code ++ zeros 2 ++ le 4 s.control.lastValue))) ∧
    (∀ p l, validate (s.straps.toNat * 2 ^ 30) s.validationData = .inr (p, l) →
      ∃ t, exec .profileValidation s = .next t ∧
        t.control.state = .starting ∧ t.control.result = .started ∧ t.control.work.kind = kind ∧ t.profile = p ∧
        t.arbiter.lists = l ∧ t.arbiter.wheelPos = 0 ∧ t.arbiter.roundPos = l.roundRobin.length - 1 ∧
        (s.host.head = none → s.host.fifo = [] → s.host.waiting = [] →
          t.host.fifo ++ t.host.loads.map FifoEntry.load =
          ((List.range (64 * p.floors)).map LoadTarget.room ++ (List.range p.trunks).map LoadTarget.trunk
            ++ (List.range p.tariffs).map LoadTarget.tariff).map FifoEntry.load) ∧
        t.mem = s.mem ∧ t.time = s.time)

/-- R153, R154, R166, R186: what a validated copy satisfies: at least one floor, 64 blocks and 64 records, day and night
starts within the day; every base aligned; every region within the address space, no two regions sharing a byte; every
requester served by an EITHER entry; and every other setting within the range its chapter clamps it to (R9, R17, R47,
R71, R88, R110, R135, R172, R184). -/
def Obligations.ValidatedProfileKeepsTheChecks : Prop :=
  ∀ (block : Nat) (h : List Byte) (p : Profile) (l : Lists), validate block h = .inr (p, l) →
    1 ≤ p.floors ∧ 64 ≤ p.blocks ∧ 64 ≤ p.records ∧ p.dayStart < 864000 ∧ p.nightStart < 864000 ∧
    p.apertureBase % 1048576 = 0 ∧ p.roomBase % 4096 = 0 ∧ p.trunkBase % 4096 = 0 ∧ p.tariffBase % 4096 = 0 ∧
    p.orderBase % 4096 = 0 ∧ p.noticeBase % 4096 = 0 ∧ p.messageBase % 4096 = 0 ∧ p.poolBase % 4096 = 0 ∧
    p.stackBase % 4096 = 0 ∧ p.storeBase % 4096 = 0 ∧
    (∀ r ∈ regionsOf block p, r.2.1 + r.2.2 ≤ 2 ^ 34) ∧
    ((regionsOf block p).Pairwise fun a b =>
      ∀ x, ¬(a.2.1 ≤ x ∧ x < a.2.1 + a.2.2 ∧ b.2.1 ≤ x ∧ x < b.2.1 + b.2.2)) ∧
    (∀ w : Requester, ⟨w, .either⟩ ∈ l.priority ++ l.roundRobin) ∧
    l.wheel.length ≤ 32 ∧ l.priority.length ≤ 5 ∧ l.roundRobin.length ≤ 8 ∧
    p.floors ≤ 64 ∧ p.cards ≤ p.floors ∧ 1 ≤ p.loadLimit ∧ p.loadLimit ≤ 64 ∧ p.trunks ≤ 256 ∧ p.tariffs ≤ 512 ∧
    8 ≤ p.orderSlots ∧ p.orderSlots ≤ 256 ∧ 16 ≤ p.noticeSlots ∧ p.noticeSlots ≤ 1024 ∧ p.records ≤ 16384 ∧
    p.poolRecords ≤ 65536 ∧ p.blocks ≤ 1048576 ∧ p.reserve ≤ p.blocks ∧ p.storeLowLevel ≤ p.blocks ∧
    1 ≤ p.defaultQuota ∧ p.defaultQuota ≤ p.blocks ∧ p.stepIndex ≤ 63 ∧ 1 ≤ p.recordLimit ∧ p.recordLimit ≤ 36000 ∧
    p.minRecord ≤ 600 ∧ 1 ≤ p.stallLimit ∧ p.stallLimit ≤ 255

/-- R158, R85, R132: the data of a load read fills the shadow of its room, trunk or tariff, sets the loaded mark, and the
load read leaves the FIFO. -/
def Obligations.LoadReadFillsItsShadow : Prop :=
  ∀ (s : State) (target : LoadTarget) (ret : Returned) (rest : List FifoEntry), s.out = {} →
    s.returnOf Source.isLoad = some ret → s.host.fifo = .load target :: rest →
    let u := { takeReturn Source.isLoad s with host := { s.host with fifo := rest, head := none } }
    Completes .loadReadReturn s
      (match target with
        | .room r => u.setRoomShadow r
            ⟨true, (List.range 64).map fun k => if roomField k then byteAt ret.data k else 0#8⟩
        | .trunk k => u.setTrunkShadow k
            ⟨true, (List.range 64).map fun j => if trunkField j then byteAt ret.data j else 0#8⟩
        | .tariff i => u.setTariffShadow i
            ⟨true, (List.range 64).map fun k => if tariffField k then byteAt ret.data k else 0#8⟩)

/-- (1) R188, R189, R179: once the last load read has left the FIFO the work begins: FORMAT writes the message records
from record 0 on, as FREE with generation 0, and ADOPT reads the order slots from slot 0 on. (2) R179: ADOPT sets the
posted mark of each slot that reads POSTED, and goes on to the next slot; after the last slot it writes the notice
slots. (3) R190: ADOPT sorts each record: FREE stays FREE with its generation, a NEW, HEARD or SAVED message of an
OCCUPIED room is kept as read, every field of it, and every other record is released; the next record is read. After
the last record the chain walks begin: the lowest kept record has its first block claimed and that block's header
read. With none kept, every mailbox is empty, and the lowest record that is not FREE is written, a released one as
FREE; with every record FREE the whole stack is written from its top line down. One burst at a time, the next read
after the return, a mark set at the return, and the entries of a stack line that are not pushed not being enabled are
log entry 19 (DEDUCED); a released record stands as DELETING until it is written, and keeps its other fields, log
entry 20 (DEDUCED). Bits and digit nibbles that no layout gives a value are written 0: log entry 39 (DESIGN CHOICE).
-/
def Obligations.StartingWorkBeginsAndSorts : Prop :=
  (∀ s : State, s.out = {} → s.control.state = .starting → s.control.work.stage = .loading → s.host.loads = [] →
     s.host.fifo.any FifoEntry.isLoad = false →
     (s.control.work.kind = .format → 0 < s.profile.records →
       Completes .startingWorkBegin s
         { s with
           control := { s.control with work := { s.control.work with
             stage := .records, index := 0, writes := [(s.profile.messageBase, allLanes (messageRecord {}))] } }
           out.requests := [{ source := .startWork, write := true, addr := s.profile.messageBase, beats := 8
                              lanes := allLanes (messageRecord {}) }] }) ∧
     (s.control.work.kind = .adopt → 0 < s.profile.orderSlots →
       Completes .startingWorkBegin s
         { s with
           control := { s.control with work := { s.control.work with stage := .adoptSlots, index := 0, reading := true } }
           out.requests := [{ source := .startWork, write := false, addr := s.profile.orderBase, beats := 8 }] })) ∧
  (∀ (s : State) (ret : Returned), s.out = {} → s.control.work.stage = .adoptSlots →
     s.returnOf Source.isWork = some ret →
     let i := s.control.work.index
     let marked : State :=
       { takeReturn Source.isWork s with
         ring.marks := if byteAt ret.data 0 = 1#8 then addMark s.ring.marks i else s.ring.marks }
     (i + 1 < s.profile.orderSlots →
       Completes .adoptSlotRead s
         { marked with
           control := { s.control with work := { s.control.work with index := i + 1, reading := true } }
           out.requests := [{ source := .startWork, write := false, addr := s.profile.orderBase + 64 * (i + 1)
                              beats := 8 }] }) ∧
     (i + 1 = s.profile.orderSlots → 0 < s.profile.noticeSlots →
       Completes .adoptSlotRead s
         { marked with
           control := { s.control with work := { s.control.work with
             stage := .noticeSlots, index := 0, reading := false
             writes := [(s.profile.noticeBase + 64, allLanes (zeros 32))] } }
           out.requests := [{ source := .startWork, write := true, addr := s.profile.noticeBase + 64, beats := 4
                              lanes := allLanes (zeros 32) }] })) ∧
  (∀ (s : State) (ret : Returned), s.out = {} → s.control.work.stage = .adoptRecords →
     s.returnOf Source.isWork = some ret →
     let i := s.control.work.index
     let p := s.profile
     let d := ret.data
     let flags := field d 3 1
     let read : Message :=
       { generation := field d 0 2, room := field d 4 2, urgent := flags.testBit 0, gapped := flags.testBit 1
         truncated := flags.testBit 2, damaged := flags.testBit 3, serial := field d 8 4
         stamp := ⟨BitVec.ofNat 16 (field d 12 2), field d 16 4, flags.testBit 4⟩, length := field d 20 4
         blocks := field d 24 4, first := field d 28 4, readers := field d 6 1, next := field d 14 2
         digits := nibbles (slice d 32 10) (field d 7 1) }
     let stays := read.room < s.roomCount ∧ s.occupied read.room = true
     let m : Message :=
       if byteAt d 2 = 0#8 then { generation := field d 0 2 }
       else { read with
         state :=
           if byteAt d 2 = 2#8 ∧ stays then .new
           else if byteAt d 2 = 3#8 ∧ stays then .heard
           else if byteAt d 2 = 4#8 ∧ stays then .saved
           else .deleting }
     let sorted := (takeReturn Source.isWork s).setMessage i m
     let record (k : Nat) : Message := if k = i then m else s.message k
     (i + 1 < p.records →
       Completes .adoptRecordRead s
         { sorted with
           control := { s.control with work := { s.control.work with index := i + 1, reading := true } }
           out.requests := [{ source := .startWork, write := false, addr := p.messageBase + 64 * (i + 1), beats := 8 }] }) ∧
     (i + 1 = p.records →
       (∀ j < p.records, (record j).state.listed = true → (∀ k < j, (record k).state.listed = false) →
         (record j).first < p.blocks → (record j).first ∉ s.control.work.claims → 0 < (record j).blocks →
         let b := (record j).first
         Completes .adoptRecordRead s
           { sorted with
             control := { s.control with work := { s.control.work with
               stage := .adoptWalk, index := j, reading := true, samples := 0, header := [], block := b
               claims := addMark s.control.work.claims b
               chains := Table.set [] s.control.work.chains j (b :: s.chainOf j) } }
             out.requests := [{ source := .startWork, write := false, addr := p.storeBase + 512 * b, beats := 1 }] }) ∧
       ((∀ k < p.records, (record k).state.listed = false) → (∀ r, (s.mailbox r).list = []) →
         (∀ j < p.records, (record j).state ≠ .free → (∀ k < j, (record k).state = .free) →
           let n := if (record j).state = .deleting then { record j with state := .free, next := 0xFFFF } else record j
           ∃ t, exec .adoptRecordRead s = .next t ∧ sameOuter s t ∧ (∀ r < s.roomCount, t.mailbox r = {}) ∧
             t.control.work.stage = .adoptWrite ∧ t.control.work.index = j ∧ t.message j = n ∧
             (∀ k, k ≠ j → t.message k = record k) ∧ t.ring = s.ring ∧ t.rating = s.rating ∧ t.lamp = s.lamp ∧
             lineGrew s t .directory [{ source := .startWork, write := true, addr := p.messageBase + 64 * j, beats := 8
                                        lanes := allLanes (messageRecord n) }]) ∧
         ((∀ k < p.records, (record k).state = .free) → s.control.work.claims = [] → 0 < p.blocks →
           let top := (p.blocks + 15) / 16 - 1
           ∃ t, exec .adoptRecordRead s = .next t ∧ sameOuter s t ∧ (∀ r < s.roomCount, t.mailbox r = {}) ∧
             t.control.work.stage = .stack ∧ t.control.work.index = 0 ∧ (∀ k, t.message k = record k) ∧
             t.store.freeRecords = ((List.range p.records).filter fun k => decide ((record k).generation ≠ 65535)) ∧
             t.ring = s.ring ∧ t.rating = s.rating ∧ t.lamp = s.lamp ∧
             lineGrew s t .directory [{ source := .startWork, write := true, addr := p.stackBase + 64 * top, beats := 8
                                        lanes := (List.range 16).flatMap fun k =>
                                          if 16 * top + k < p.blocks then allLanes (le 4 (16 * top + k))
                                          else List.replicate 4 none }]))))

/-- (1) R190: while the chain goes on, the walk claims the block that the header just read names, and reads its
header; where the header names none and every counted block was kept, the record takes the blocks and the samples
kept, and the walk of the next kept record starts. A record whose first block is refused, or that counts no block, is
released and counted damaged, and the one after it is walked. (2) R192: a charge record of the folio in hand joins its
list: the total takes its amount, the record is claimed, and the one its link names is read next. (3) R190: a chain
cut short, by a next block of none before the count, one past the count, outside the store or claimed: the record
keeps the blocks and samples walked, is damaged and counted so, and the header of its last block is written with no
next block (a header read holds 8 bytes). (4) R191: when the last chain has ended uncut the mailboxes are rebuilt: a
room's list holds its kept messages in play order, 32 at the most, with their next indexes, and the counts follow; a
message past the 32nd is released, counted damaged, its claims cleared. (5) R192: each place present in the summary
read is walked from its head; with no record counted, or a head that fails the test, its folio has none, the latter
cut and counted; with no place left the next summary is read. (6) R192: a record read ends the list whole, or cuts it
by a link that fails the test, or belongs to another folio and cuts before it: the folio takes its place with its
records, their sum, and, CLOSED, its late count; a cut one is incomplete and counted, and its last record gets the
link write of none. After the last room ADOPT is finished: pool records unclaimed are free, the serial follows, and
ADOPT REPAIR tells both counts. The damaged count, and the record without a block, are log entry 20 (DEDUCED); the
OPEN place first, log entry 40 (DESIGN CHOICE). -/
def Obligations.AdoptWalksChainsAndFolios : Prop :=
  (∀ (s : State) (ret : Returned), s.out = {} → s.control.work.stage = .adoptWalk →
     s.returnOf Source.isWork = some ret →
     let i := s.control.work.index
     let n := headerNext ret.data
     (n < s.profile.blocks → n ≠ none32 → n ∉ s.control.work.claims → (s.chainOf i).length < (s.message i).blocks →
       ∃ t, exec .adoptHeaderRead s = .next t ∧ sameOuter s t ∧
         n ∈ t.control.work.claims ∧ t.control.work.block = n ∧ t.chainOf i = n :: s.chainOf i ∧
         t.control.work.samples = s.control.work.samples + headerCount ret.data ∧
         (∀ j, t.message j = s.message j) ∧
         lineGrew s t .directory
           [{ source := .startWork, write := false, addr := s.profile.storeBase + 512 * n, beats := 1 }]) ∧
     (∀ j, n = none32 → (s.chainOf i).length = (s.message i).blocks → s.keptFrom (i + 1) = some j →
       (s.message j).first < s.profile.blocks → (s.message j).first ∉ s.control.work.claims → 0 < (s.message j).blocks →
       ∃ t, exec .adoptHeaderRead s = .next t ∧ sameOuter s t ∧
         t.message i = { s.message i with
           length := s.control.work.samples + headerCount ret.data, readers := 0 } ∧
         (∀ k, k ≠ i → t.message k = s.message k) ∧
         t.control.work.index = j ∧ t.control.work.block = (s.message j).first ∧
         (s.message j).first ∈ t.control.work.claims ∧
         lineGrew s t .directory [{ source := .startWork, write := false
                                    addr := s.profile.storeBase + 512 * (s.message j).first, beats := 1 }]) ∧
     (∀ j k, n = none32 → (s.chainOf i).length = (s.message i).blocks → s.keptFrom (i + 1) = some j →
       (s.profile.blocks ≤ (s.message j).first ∨ (s.message j).first ∈ s.control.work.claims ∨ (s.message j).blocks = 0) →
       s.keptFrom (j + 1) = some k → (s.message k).first < s.profile.blocks →
       (s.message k).first ∉ s.control.work.claims → 0 < (s.message k).blocks →
       ∃ t, exec .adoptHeaderRead s = .next t ∧ sameOuter s t ∧
         t.message j = { s.message j with state := .deleting } ∧ j ∈ t.control.work.damaged ∧
         (∀ x, x ≠ i → x ≠ j → t.message x = s.message x) ∧ t.control.work.index = k ∧
         (∀ b, b ∈ t.control.work.claims ↔ b = (s.message k).first ∨ b ∈ s.control.work.claims) ∧
         lineGrew s t .directory [{ source := .startWork, write := false
                                    addr := s.profile.storeBase + 512 * (s.message k).first, beats := 1 }])) ∧
  (∀ (s : State) (ret : Returned) (w : FolioWalk), s.out = {} → s.control.work.stage = .adoptFolios →
     s.returnOf Source.isWork = some ret → s.control.work.folio = some w →
     field ret.data 4 2 = s.control.work.index → field ret.data 12 4 = w.serial →
     field ret.data 60 4 < s.profile.poolRecords → field ret.data 60 4 ≠ none32 →
     field ret.data 60 4 ≠ w.next → field ret.data 60 4 ∉ s.control.work.poolClaims →
     ∃ t, exec .adoptFolioRead s = .next t ∧ sameOuter s t ∧
       t.control.work.folio = some { w with
         records := w.records ++ [w.next]
         total := max (-2147483648) (min 2147483647 (w.total + signed32 (field ret.data 40 4)))
         late := if (field ret.data 1 1).testBit 3 then min 65535 (w.late + 1) else w.late
         next := field ret.data 60 4, lastRead := ret.data } ∧
       w.next ∈ t.control.work.poolClaims ∧ t.rating = s.rating ∧
       lineGrew s t .directory
         [{ source := .startWork, write := false, addr := s.profile.poolBase + 64 * field ret.data 60 4, beats := 8 }]) ∧
  (∀ (s : State) (ret : Returned), s.out = {} → s.control.work.stage = .adoptWalk →
     s.returnOf Source.isWork = some ret →
     let i := s.control.work.index
     let m := s.message i
     let n := headerNext ret.data
     let walked := (s.chainOf i).length
     (ret.data.length = 8 → (n = none32 ∧ walked < m.blocks) ∨
       (n ≠ none32 ∧ (m.blocks ≤ walked ∨ s.profile.blocks ≤ n ∨ n ∈ s.control.work.claims)) →
       ∃ t, exec .adoptHeaderRead s = .next t ∧ sameOuter s t ∧
         t.message i = { m with
           blocks := walked, length := s.control.work.samples + headerCount ret.data, damaged := true, readers := 0 } ∧
         (∀ j, j ≠ i → t.message j = s.message j) ∧ i ∈ t.control.work.damaged ∧
         t.control.work.claims = s.control.work.claims ∧ t.control.work.index = i ∧
         lineGrew s t .directory [{ source := .startWork, write := true
                                    addr := s.profile.storeBase + 512 * s.control.work.block, beats := 1
                                    lanes := allLanes (patchedHeader ret.data) }]) ∧
     (n = none32 → walked = m.blocks → i < s.profile.records → m.state.listed = true → s.keptFrom (i + 1) = none →
       (∀ r, (s.mailbox r).list = []) →
       let settled (j : Nat) : Message :=
         if j = i then { m with length := s.control.work.samples + headerCount ret.data, readers := 0 } else s.message j
       ∃ t, exec .adoptHeaderRead s = .next t ∧ sameOuter s t ∧ t.control.work.stage = .adoptWrite ∧
         MailboxesRebuilt s t settled)) ∧
  (∀ (s : State) (ret : Returned), s.out = {} → s.control.work.stage = .adoptFolios →
     s.returnOf Source.isWork = some ret → s.control.work.folio = none →
     let r := s.control.work.index
     let claims := s.control.work.poolClaims
     let cuts := s.control.work.cutFolios
     let flags := field ret.data 0 1
     let present := flags.testBit 0 = true ∧ field ret.data 4 4 ≠ 0
     let count := field ret.data 12 2 + (if flags.testBit 5 then 65536 else 0)
     let head := field ret.data 14 2
     let empty := count = 0 ∨ s.profile.poolRecords ≤ head ∨ head ∈ claims
     let f : Folio := { serial := field ret.data 4 4, incomplete := flags.testBit 1 || decide (0 < count) }
     ∃ t, exec .adoptFolioRead s = .next t ∧ sameOuter s t ∧ t.store = s.store ∧ (∀ q, q ≠ r → t.folios q = s.folios q) ∧
       (¬present → AdoptClosedPlace s t r ret.data (s.folios r) claims cuts) ∧
       (present → empty → AdoptClosedPlace s t r ret.data { s.folios r with opened := some f } claims
         (cuts + if 0 < count then 1 else 0)) ∧
       (present → ¬empty → t.rating = s.rating ∧
         (∃ w, t.control.work = { s.control.work with folio := some w, reading := true } ∧ w.inClosed = false ∧
           w.serial = f.serial ∧ w.flagged = flags.testBit 1 ∧ w.next = head ∧ w.records = [] ∧ w.total = 0 ∧
           w.late = 0 ∧ w.summary = ret.data) ∧
         lineGrew s t .directory [{ source := .startWork, write := false
                                    addr := s.profile.poolBase + 64 * head, beats := 8 }])) ∧
  (∀ (s : State) (ret : Returned) (w : FolioWalk), s.out = {} → s.control.work.stage = .adoptFolios →
     s.returnOf Source.isWork = some ret → s.control.work.folio = some w →
     let r := s.control.work.index
     let claims := s.control.work.poolClaims
     let cuts := s.control.work.cutFolios
     let joins := field ret.data 4 2 = r ∧ field ret.data 12 4 = w.serial
     let next := field ret.data 60 4
     let refused := s.profile.poolRecords ≤ next ∨ next = w.next ∨ next ∈ claims
     let placed (f : Folio) : RoomFolios :=
       if w.inClosed then { s.folios r with closed := some f } else { s.folios r with opened := some f }
     let late := if (field ret.data 1 1).testBit 3 then min 65535 (w.late + 1) else w.late
     let whole : Folio :=
       { serial := w.serial, total := max (-2147483648) (min 2147483647 (w.total + signed32 (field ret.data 40 4)))
         records := w.records ++ [w.next], incomplete := w.flagged, late := if w.inClosed then late else 0 }
     let before : Folio :=
       { serial := w.serial, total := w.total, records := w.records, incomplete := true
         late := if w.inClosed then w.late else 0 }
     let link (k : Nat) : Request :=
       { source := .startWork, write := true, addr := s.profile.poolBase + 64 * k + 56, beats := 1
         lanes := List.replicate 4 none ++ allLanes (le 4 none32) }
     ∃ t, exec .adoptFolioRead s = .next t ∧ sameOuter s t ∧ t.store = s.store ∧ (∀ q, q ≠ r → t.folios q = s.folios q) ∧
       (joins → next = none32 →
         if w.inClosed then AdoptRoomDone s t r (placed whole) (w.next :: claims) cuts
         else AdoptClosedPlace s t r w.summary (placed whole) (w.next :: claims) cuts) ∧
       (joins → next ≠ none32 → refused →
         t.folios r = placed { whole with incomplete := true } ∧ t.control.work.cutFolios = cuts + 1 ∧
         (∀ k, k ∈ t.control.work.poolClaims ↔ k ∈ w.next :: claims) ∧ lineGrew s t .directory [link w.next]) ∧
       (∀ k, ¬joins → w.records.getLast? = some k →
         t.folios r = placed before ∧ t.control.work.cutFolios = cuts + 1 ∧ t.control.work.poolClaims = claims ∧
         lineGrew s t .directory [link k]) ∧
       (¬joins → w.records = [] →
         if w.inClosed then AdoptRoomDone s t r (placed before) claims (cuts + 1)
         else AdoptClosedPlace s t r w.summary (placed before) claims (cuts + 1)))

/-- R188, R86, R145, R90, R133, R25: at the end of STARTING the part is ACTIVE; a room has an OPEN folio if and only if
its shadow reads OCCUPIED, toll-barred is what its OPEN total and credit limit give, and the store-low state follows
from the free count. The trunk contexts follow their shadows, and the three mirrors of every room are marked. -/
def Obligations.EndOfStartingSettlesTheRooms : Prop :=
  ∀ s : State, s.out = {} → s.control.state = .starting → s.control.work.stage = .finished →
    ∃ t, exec .endOfStarting s = .next t ∧ t.control.state = .active ∧ sameMemory s t ∧ t.time = s.time ∧
      (∀ r < s.roomCount, ((t.folios r).opened.isSome = s.occupied r) ∧
        (t.folios r).barred = ((t.folios r).opened.any fun f =>
          decide (0 < s.creditLimit r) && decide ((s.creditLimit r : Int) ≤ f.total)) ∧
        (s.occupied r = true → (s.folios r).opened.isSome = true → (t.folios r).opened = (s.folios r).opened) ∧
        r ∈ t.store.marks ∧ r ∈ t.rating.marks ∧ r ∈ t.lamp.marks ∧ (t.lampOf r).pattern = t.patternOf r) ∧
      (t.store.storeLow = .raised ↔ s.freeCount < s.profile.storeLowLevel) ∧
      (∀ k < s.profile.trunks, (t.trunk k).state =
        (if byteAt (s.trunkShadow k).bytes 0 = 1#8 then .seized
         else if byteAt (s.trunkShadow k).bytes 0 = 2#8 then .answered else .idle))

/-! ### Time and the lamp link -/

/-- (1) R181, R93: a tenth-second event raises the clock of day by 1, to 0 at 864,000 with the day number risen by 1;
the elapsed count and the frame counter rise by 1; in a PASSIVE part nothing else happens. (2) R161, R171, R43, R180,
R131, R148, R106, R96: what it does while ACTIVE, and all it does. Each of the path, arbiter, store, ring, rating and
folio status words is written, with the contents of the moment, where they differ from those written last, and is not
written where they do not; the link header is written; and a sweep starts with the frame of card 0, where none is
under way and there is a card. (3) R43: while STARTING only the store status is written, once FORMAT or ADOPT has made
its last write; before that nothing is. That nothing counts as written after reset and STOP, and that the store words
are first written then, is log entry 17; a tenth that finds a sweep under way leaves it and the data out as they are:
log entries 26 and 27 (DEDUCED). The gap at byte 2179 written 00h, and the bytes of a group's last beat past the group
not enabled, are log entry 35; the lower of two groups first, log entry 38 (DESIGN CHOICE). -/
def Obligations.TenthSecondAdvancesAndSweeps : Prop :=
  ∀ s : State, s.out = {} →
    let now : TimeBase :=
      { s.time with
        clock := if s.time.clock + 1 ≥ 864000 then 0 else s.time.clock + 1
        day := if s.time.clock + 1 ≥ 864000 then s.time.day + 1#16 else s.time.day
        elapsed := s.time.elapsed + 1#32 }
    let frame := s.frame + 1#32
    let group (src : Source) (offset beats : Nat) (bytes : List Byte) : Request :=
      { source := src, write := true, addr := s.straps.toNat * 2 ^ 30 + offset, beats := beats
        lanes := bytes.map some ++ List.replicate (8 * beats - bytes.length) none }
    let changed (last : Option (List Byte)) (bytes : List Byte) (raised : List Request) : List Request :=
      if last = some bytes then [] else raised
    let inState (p : Message → Bool) : Nat := (s.store.messages.filter fun e => p e.2).length
    let contexts (st : TrunkState) : Nat := (s.rating.trunks.filter fun e => decide (e.2.state = st)).length
    let path := le 4 s.host.guardCount
    let a := s.arbiter
    let arbiter1 := le 4 a.grantsHost ++ le 4 a.grantsVoice ++ le 4 a.grantsDirectory ++ le 4 a.grantsRating
      ++ le 4 a.grantsLamp
    let arbiter2 := le 4 a.grantsWheel ++ le 4 a.grantsPriority ++ le 4 a.grantsRound ++ le 4 a.passedOver
    let store := le 4 s.freeCount ++ le 4 (inState fun m => decide (m.state ≠ .free))
      ++ le 4 (inState fun m => decide (m.state = .free) && decide (m.generation = 65535))
      ++ le 2 s.store.releaseQueue.length ++ le 2 s.store.releaseLine.length
      ++ le 1 (if s.store.storeLow = .raised then 1 else 0)
    let ring := le 2 s.ring.consumer ++ le 1 s.ring.inFlight.length ++ le 1 0 ++ le 2 (s.ring.taking.getD 0xFFFF)
      ++ le 2 s.ring.marks.length ++ le 4 s.ring.ordersTaken ++ le 4 s.ring.ringErrors
    let g := s.rating
    let rating1 := le 4 g.outgoing ++ le 4 g.incoming ++ le 4 g.rated ++ le 4 g.free ++ le 4 g.unrated
      ++ le 4 g.unanswered ++ le 2 (contexts .seized) ++ le 2 (contexts .answered)
    let rating2 := le 4 g.implicits ++ le 4 g.missedSeizes ++ le 4 g.unknownStates
    let folio := le 4 g.freePool.length ++ le 4 g.queue.length ++ le 4 g.lateCount ++ le 4 g.unbilledCount
      ++ le 4 g.poolFullCount ++ le 4 g.discardedCount ++ le 4 g.serial
    (∃ t, exec .tenthSecondEvent s = .next t ∧ t.time = now ∧ t.frame = frame ∧ t.mem = s.mem ∧
      t.control = s.control ∧ t.ring.marks = s.ring.marks ∧ t.rating.folios = s.rating.folios ∧
      t.store.messages = s.store.messages ∧ t.lamp.lamps = s.lamp.lamps ∧ t.lamp.cards = s.lamp.cards) ∧
    (s.control.state = .passive → Completes .tenthSecondEvent s { s with time := now, frame := frame }) ∧
    (s.control.state = .active →
      Completes .tenthSecondEvent s
        { s with
          time := now, frame := frame
          host := { s.host with written := some path }
          arbiter := { a with written := some (arbiter1 ++ arbiter2) }
          store := { s.store with written := some store }
          ring := { s.ring with written := some ring }
          rating := { g with written := some (rating1 ++ rating2), folioWritten := some folio }
          lamp := if 0 < s.profile.cards ∧ s.lamp.sweep = none then
              { s.lamp with
                sweep := some { card := 0, frame := frame, drive := s.driveSet 0 frame }
                dataOut := outputFrame 0 (s.driveSet 0 frame) }
            else s.lamp
          out.requests :=
            changed s.host.written path [group .pathStatus 2064 1 path]
            ++ changed a.written (arbiter1 ++ arbiter2)
              [group .arbiterStatus 2080 3 arbiter1, group .arbiterStatus 2112 2 arbiter2]
            ++ changed s.store.written store [group .storeStatus 2144 3 store]
            ++ changed s.ring.written ring [group .ringStatus 2176 2 ring]
            ++ changed g.written (rating1 ++ rating2)
              [group .ratingStatus 2208 4 rating1, group .ratingStatus 2240 2 rating2]
            ++ changed g.folioWritten folio [group .folioStatus 2272 4 folio]
            ++ [group .linkHeader 3040 1 (le 4 frame.toNat ++ le 1 s.profile.cards ++ le 1 s.profile.loadLimit)] }) ∧
    (s.control.state = .starting →
      (s.control.work.stage ≠ .finished → Completes .tenthSecondEvent s { s with time := now, frame := frame }) ∧
      (s.control.work.stage = .finished →
        Completes .tenthSecondEvent s
          { s with
            time := now, frame := frame, store := { s.store with written := some store }
            out.requests := changed s.store.written store [group .storeStatus 2144 3 store] }))

/-- R96, R98: the end of an output frame opens the return window of its card with nothing received; bytes that arrive in
an open window are kept in order, and bytes that arrive while none is open are ignored. -/
def Obligations.ReturnWindowCollectsBytes : Prop :=
  ∀ (s : State) (bytes : List Byte), s.out = {} →
    (∀ w, s.lamp.sweep = some w → w.isOpen = false →
      Completes .returnWindowOpen s { s with lamp.sweep := some { w with isOpen := true, received := [] } } ∧
      exec (.returnFrame bytes) s = .next s) ∧
    (∀ w, s.lamp.sweep = some w → w.isOpen = true →
      Completes (.returnFrame bytes) s { s with lamp.sweep := some { w with received := w.received ++ bytes } }) ∧
    (s.lamp.sweep = none → exec (.returnFrame bytes) s = .next s)

/-- (1) R98, R99, R100: the judgement of a return in order: fewer than 11 bytes, a check that fails, another card's
address; a bad return steps the card's link state by the table, keeps the reason and counts; the next card's frame
follows. R96, R106: after the last card of the sweep the link is idle, and the entry of each card whose fields changed
in the sweep is written, none else: in the order they were met, log entry 38, the bits no layout names 0, log entry 39
(DESIGN CHOICE). (2) R99, R100, R101: a good return of a card whose supply is not good counts, steps the link state by
the table, and holds the sense set of before; no lamp is evaluated. A card that comes UP from RECOVERING clears the
mismatch counts of its lamps: the model's reading of R99 beside R100 (log entry 33). (3) R100, R101, R102: a good
return with the supply good holds the sense set received. On a card that is UP then, each lamp fitted is compared with
the drive set sent: agreement sets its mismatch count to 0, a difference raises it to 3 at most, and at 3 a clear
latch becomes OPEN or STUCK, the lamp mirror is marked and LAMP FAULT raised; a lamp not fitted is passed over. A card
that comes UP raises CARD UP, its counts 0 before. On a card that is not UP no lamp is evaluated. -/
def Obligations.ReturnsStepTheLink : Prop :=
  (∀ (s : State) (w : Sweep) (reason : BadReason), s.out = {} → s.lamp.sweep = some w → w.isOpen = true →
     ((w.received.length < 11 ∧ reason = .noReturn) ∨
      (11 ≤ w.received.length ∧ crc8 (w.received.take 10) ≠ byteAt w.received 10 ∧ reason = .check) ∨
      (11 ≤ w.received.length ∧ crc8 (w.received.take 10) = byteAt w.received 10 ∧
        byteAt w.received 0 ≠ BitVec.ofNat 8 w.card ∧ reason = .wrongCard)) →
     let c := s.card w.card
     let d := { c with
       link := match c.link with
         | .up => .suspect
         | .suspect => if c.run < 3 then .suspect else .down
         | .down => .down
         | .recovering => .down
       run := match c.link with
         | .up => 1
         | .suspect => if c.run < 3 then c.run + 1 else 0
         | .down => 0
         | .recovering => 0
       reason := reason
       bad := if c.bad ≥ 0xFFFFFFFF then 0xFFFFFFFF else c.bad + 1 }
     let down : State :=
       { s.setCard w.card d with
         out.notices := if c.link = .suspect ∧ ¬c.run < 3 ∧ s.enabled .cardDown then
           [(.lamp, ⟨.cardDown, 0xFFFF, s.stamp, w.card, reason.code⟩)] else [] }
     let same := c.link = d.link ∧ c.run = d.run ∧ c.reason = d.reason ∧ c.bad = d.bad
     let changed := if same then w.changed else w.changed ++ [w.card]
     let drive := s.driveSet (w.card + 1) w.frame
     (w.card + 1 < s.profile.cards →
       Completes .returnWindowClose s
         { down with
           lamp := { down.lamp with
             sweep := some { card := w.card + 1, frame := w.frame, drive := drive, changed := changed }
             dataOut := outputFrame (w.card + 1) drive } }) ∧
     (s.profile.cards ≤ w.card + 1 →
       let shown (n : Nat) : List Byte := le 3 (if n < 0xFFFFFF then n else 0xFFFFFF)
       let entry (k : Card) : List Byte :=
         le 1 (k.link.code + 16 * k.run) ++ le 1 (k.reason.code + if k.supplyGood then 128 else 0) ++ le 8 k.sense.toNat
           ++ shown k.good ++ shown k.bad
       Completes .returnWindowClose s
         { down with
           lamp := { down.lamp with sweep := none, dataOut := [] }
           out.requests := changed.map fun k =>
             { source := .linkEntry k, write := true, addr := s.straps.toNat * 2 ^ 30 + 3072 + 16 * k, beats := 2
               lanes := allLanes (entry (if k = w.card then d else s.card k)) } })) ∧
  (∀ (s : State) (w : Sweep), s.out = {} → s.lamp.sweep = some w → w.isOpen = true →
     11 ≤ w.received.length → crc8 (w.received.take 10) = byteAt w.received 10 →
     byteAt w.received 0 = BitVec.ofNat 8 w.card → byteAt w.received 9 ≠ 1#8 →
     let c := s.card w.card
     ∃ t, exec .returnWindowClose s = .next t ∧ sameOuter s t ∧
       t.card w.card = { c with
         link := match c.link with
           | .up => .up
           | .suspect => .up
           | .down => .recovering
           | .recovering => if c.run < 3 then .recovering else .up
         run := match c.link with
           | .up => 0
           | .suspect => 0
           | .down => 1
           | .recovering => if c.run < 3 then c.run + 1 else 0
         supplyGood := false
         good := if c.good ≥ 0xFFFFFFFF then 0xFFFFFFFF else c.good + 1 } ∧
       (∀ j, j ≠ w.card → t.card j = s.card j) ∧
       (∀ r, (t.lampOf r).latch = (s.lampOf r).latch ∧ (t.lampOf r).pattern = (s.lampOf r).pattern) ∧
       (c.link = .recovering → 3 ≤ c.run → ∀ p < 64, (t.lampOf (64 * w.card + p)).mismatch = 0) ∧
       t.store = s.store ∧ t.ring = s.ring ∧ t.rating = s.rating) ∧
  (∀ (s : State) (w : Sweep), s.out = {} → s.lamp.sweep = some w → w.isOpen = true →
     11 ≤ w.received.length → crc8 (w.received.take 10) = byteAt w.received 10 →
     byteAt w.received 0 = BitVec.ofNat 8 w.card → byteAt w.received 9 = 1#8 →
     let c := s.card w.card
     let sense := BitVec.ofNat 64 (field w.received 1 8)
     let before (p : Nat) : Nat := if c.link = .recovering then 0 else (s.lampOf (64 * w.card + p)).mismatch
     let fitted (p : Nat) : Bool := (s.roomShadow (64 * w.card + p)).lampPresent
     let differs (p : Nat) : Bool := w.drive.getLsbD p != sense.getLsbD p
     let kind (p : Nat) : Latch := if w.drive.getLsbD p then .isOpen else .stuck
     let newFaults := (List.range 64).filter fun p =>
       fitted p && differs p && decide (2 ≤ before p) && decide ((s.lampOf (64 * w.card + p)).latch = .none)
     ∃ t, exec .returnWindowClose s = .next t ∧ sameOuter s t ∧
       (t.card w.card).sense = sense ∧ (t.card w.card).supplyGood = true ∧
       (t.card w.card).good = (if c.good ≥ 0xFFFFFFFF then 0xFFFFFFFF else c.good + 1) ∧
       (c.link = .down ∨ (c.link = .recovering ∧ c.run < 3) →
         (t.card w.card).link = .recovering ∧ t.lamp.lamps = s.lamp.lamps) ∧
       (c.link = .up ∨ c.link = .suspect ∨ (c.link = .recovering ∧ 3 ≤ c.run) →
         (t.card w.card).link = .up ∧ (t.card w.card).run = 0 ∧
         (∀ p < 64, let l := s.lampOf (64 * w.card + p)
           t.lampOf (64 * w.card + p) = { l with
             mismatch := if !fitted p then before p else if differs p then min 3 (before p + 1) else 0
             latch := if p ∈ newFaults then kind p else l.latch } ∧
           (p ∈ newFaults → 64 * w.card + p ∈ t.lamp.marks)) ∧
         (∀ r, r / 64 ≠ w.card → t.lampOf r = s.lampOf r) ∧
         (s.notices.queue.length + newFaults.length + 1 ≤ 16 →
           (s.enabled .lampFault = true → ∀ p ∈ newFaults,
             ⟨.lampFault, 64 * w.card + p, s.stamp, (kind p).code, w.frame.toNat⟩ ∈ t.notices.queue) ∧
           (s.enabled .cardUp = true → c.link = .recovering →
             ⟨.cardUp, 0xFFFF, s.stamp, w.card, c.bad⟩ ∈ t.notices.queue))))

/-- R95: the drive set of a card lights as many candidates as the load limit lets it, and no more; it lights candidates
only; no flashing lamp is lit while a STEADY candidate is left out; and among the STEADY, or the flashing, the lowest
positions are kept. The set sent in the frame of counter value f has the bits of those positions of the cycle f mod
16, and no other. -/
def Obligations.LoadLimitBoundsTheDriveSet : Prop :=
  ∀ (s : State) (k c : Nat),
    (s.litPositions k c).length = min s.profile.loadLimit (s.candidates k c).length ∧
    ((s.candidates k c).length ≤ s.profile.loadLimit → (s.litPositions k c).Perm (s.candidates k c)) ∧
    (∀ p ∈ s.litPositions k c, p ∈ s.candidates k c) ∧
    (∀ p ∈ s.candidates k c, p ∉ s.litPositions k c → ∀ q ∈ s.litPositions k c,
      ((s.lampOf (64 * k + p)).pattern = .steady → (s.lampOf (64 * k + q)).pattern = .steady) ∧
      (((s.lampOf (64 * k + p)).pattern = .steady ↔ (s.lampOf (64 * k + q)).pattern = .steady) → q < p)) ∧
    (∀ (f : BitVec 32) (p : Nat), f.toNat % 16 = c → ((s.driveSet k f).getLsbD p = true ↔ p ∈ s.litPositions k c))

/-! ### The memory port -/

/-- (1) R165, R167, R171: a decision takes the request it grants from its line and the port carries it: a write is in
memory at once, a read holds the bytes memory has then; the grant is counted by requester and by step, and a wheel
slot passed over is. For the sources that act only on the data, nothing else changes: no engine, no notice, no line
but that of the requester granted, and nothing is raised. (2) R189, R179, R188, R19 with the order of log entry 19: at
the grant of a write of FORMAT the next one is raised, and the next stage begins with its first after the last of a
stage: free records, stack pointer, pool bitmap and serial are set as their stages end, a slot write clears the slot's
mark, and the grant of the header line opens notice writing with p, k, flag and count 0 and ends the work. (3) R190 to
R192: the same for ADOPT's writes. Its notice slots and header are written as FORMAT's are, and the header's grant
opens notice writing and begins the record reads. The header patch of a chain that was cut is followed by the walk of
the next kept record, or, after the last, by the mailboxes rebuilt. Released records are written FREE, the free bitmap
takes the FREE records that are not retired, the blocks no chain claims fill the stack from its top, and the first
folio summary is read. The link write of a folio that was cut is followed by the walk of the room's CLOSED place, or
by the next room, or by the end of ADOPT; the OPEN place before the CLOSED one is log entry 40 (DESIGN CHOICE). What a
write burst replaces is kept beside it (log entry 29). Bits and digit nibbles of a record that no layout gives a value
are 0: log entry 39 (DESIGN CHOICE). That a flag byte which R195 does not name is 01h set and 00h clear is log entry
43 (DESIGN CHOICE). -/
def Obligations.GrantCarriesTheRequest : Prop :=
  (∀ (s : State) (d : Decision) (r : Request), s.out = {} → s.decision = some d → s.granted = some r →
     r.source.onlyData = true →
     let a := s.arbiter
     let u := carry r (settleGrant d s)
     Completes .arbiterDecision s u ∧
     (r.write = true → u.mem = writeLanes s.mem r.addr r.lanes ∧
       u.arbiter.port = some { req := r, under := lanesUnder s.mem r.addr r.lanes }) ∧
     (r.write = false → u.mem = s.mem ∧
       u.arbiter.port = some { req := r, data := readBytes s.mem r.addr (8 * r.beats) }) ∧
     u.arbiter.lines.get d.who = (a.lines.get d.who).tail ∧
     (∀ w, w ≠ d.who → u.arbiter.lines.get w = a.lines.get w) ∧
     u.arbiter = { a with
       lines := u.arbiter.lines, port := u.arbiter.port
       wheelPos := if a.lists.wheel = [] then 0 else (a.wheelPos + 1) % a.lists.wheel.length
       roundPos := if d.step = 3 then d.round else a.roundPos
       grantsHost := if d.who = .host then sat32 a.grantsHost else a.grantsHost
       grantsVoice := if d.who = .voice then sat32 a.grantsVoice else a.grantsVoice
       grantsDirectory := if d.who = .directory then sat32 a.grantsDirectory else a.grantsDirectory
       grantsRating := if d.who = .rating then sat32 a.grantsRating else a.grantsRating
       grantsLamp := if d.who = .lamp then sat32 a.grantsLamp else a.grantsLamp
       grantsWheel := if d.step = 1 then sat32 a.grantsWheel else a.grantsWheel
       grantsPriority := if d.step = 2 then sat32 a.grantsPriority else a.grantsPriority
       grantsRound := if d.step = 3 then sat32 a.grantsRound else a.grantsRound
       passedOver := if a.lists.wheel ≠ [] ∧ d.step ≠ 1 then sat32 a.passedOver else a.passedOver } ∧
     u = { s with mem := u.mem, arbiter := u.arbiter }) ∧
  (∀ (s : State) (d : Decision) (r : Request), s.out = {} → s.decision = some d → s.granted = some r →
     r.source = .startWork → r.write = true →
     let p := s.profile
     let i := s.control.work.index
     let u := carry r (settleGrant d s)
     let line (entry : Nat → Option Nat) (k : Nat) : List (Option Byte) :=
       (List.range 16).flatMap fun j =>
         match entry (16 * k + j) with
         | some b => allLanes (le 4 b)
         | none => List.replicate 4 none
     let goes (g : WorkStage) (j a : Nat) (lanes : List (Option Byte)) (v : State) : Prop :=
       Completes .arbiterDecision s
         { v with
           control := { s.control with work := { s.control.work with stage := g, index := j, writes := [(a, lanes)] } }
           out.requests := [{ source := .startWork, write := true, addr := a, beats := lanes.length / 8, lanes := lanes }] }
     let zeroed (n : Nat) : List (Option Byte) := allLanes (zeros n)
     let last := (p.blocks + 15) / 16 - 1
     let unmarked : State := { u with ring.marks := s.ring.marks.filter fun k => decide (k ≠ i) }
     let opened : Notices :=
       { s.notices with isOpen := true, producer := 0, consumer := 0, overflow := false, dropped := 0 }
     (s.control.work.stage = .noticeSlots →
       (i + 1 < p.noticeSlots → goes .noticeSlots (i + 1) (p.noticeBase + 64 + 32 * (i + 1)) (zeroed 32) u) ∧
       (i + 1 = p.noticeSlots → goes .noticeHeader 0 p.noticeBase
         (allLanes (headerBytes 0 false 0 p.noticeSlots ++ zeros 32)) u)) ∧
     (s.control.work.kind = .format → s.control.work.claims = [] → 0 < p.blocks →
       let pushed (j : Nat) : Option Nat := if j < p.blocks then some j else none
       (s.control.work.stage = .records →
         (i + 1 < p.records → goes .records (i + 1) (p.messageBase + 64 * (i + 1)) (allLanes (messageRecord {})) u) ∧
         (i + 1 = p.records → goes .stack 0 (p.stackBase + 64 * last) (line pushed last)
           { u with store := { s.store with freeRecords := List.range p.records, serial := 1 } })) ∧
       (s.control.work.stage = .stack →
         (i < last → goes .stack (i + 1) (p.stackBase + 64 * (last - (i + 1))) (line pushed (last - (i + 1))) u) ∧
         (i = last → 0 < p.poolRecords → goes .pool 0 p.poolBase (zeroed 64)
           { u with store.stackPtr := BitVec.ofNat 34 p.stackBase - 4#34 })) ∧
       (s.control.work.stage = .pool →
         (i + 1 < p.poolRecords → goes .pool (i + 1) (p.poolBase + 64 * (i + 1)) (zeroed 64) u) ∧
         (i + 1 = p.poolRecords → 0 < s.roomCount → goes .roomHalves 0 (p.roomBase + 64) (zeroed 64)
           { u with rating := { s.rating with freePool := List.range p.poolRecords, serial := 1 } })) ∧
       (s.control.work.stage = .roomHalves →
         (i + 1 < s.roomCount → goes .roomHalves (i + 1) (p.roomBase + 128 * (i + 1) + 64) (zeroed 64) u) ∧
         (i + 1 = s.roomCount → 0 < p.orderSlots → goes .slots 0 p.orderBase (zeroed 64) u)) ∧
       (s.control.work.stage = .slots →
         (i + 1 < p.orderSlots → goes .slots (i + 1) (p.orderBase + 64 * (i + 1)) (zeroed 64) unmarked) ∧
         (i + 1 = p.orderSlots → 0 < p.noticeSlots → goes .noticeSlots 0 (p.noticeBase + 64) (zeroed 32) unmarked)) ∧
       (s.control.work.stage = .noticeHeader →
         Completes .arbiterDecision s
           { u with
             control := { s.control with work := { s.control.work with stage := .finished, index := 0, writes := [] } }
             notices := opened })) ∧
     (s.control.work.kind = .adopt →
       let blocks := (List.range p.blocks).filter fun b => decide (b ∉ s.control.work.claims)
       let entry (j : Nat) : Option Nat := if j < p.blocks then blocks[j - (p.blocks - blocks.length)]? else none
       let held (j : Nat) : Option Nat := if p.blocks - blocks.length ≤ j then entry j else none
       let free := (List.range p.records).filter fun k =>
         decide ((s.message k).state = .free) && decide ((s.message k).generation ≠ 65535)
       let reads (g : WorkStage) (a beats : Nat) (v : State) : Prop :=
         Completes .arbiterDecision s
           { v with
             control := { s.control with work := { s.control.work with
               stage := g, index := 0, writes := [], reading := true } }
             out.requests := [{ source := .startWork, write := false, addr := a, beats := beats }] }
       (s.control.work.stage = .noticeHeader → 0 < p.records →
         reads .adoptRecords p.messageBase 8 { u with notices := opened }) ∧
       (s.control.work.stage = .adoptWalk →
         (∀ j, s.keptFrom (i + 1) = some j → (s.message j).first < p.blocks →
           (s.message j).first ∉ s.control.work.claims → 0 < (s.message j).blocks →
           let b := (s.message j).first
           Completes .arbiterDecision s
             { u with
               control := { s.control with work := { s.control.work with
                 index := j, writes := [], reading := true, samples := 0, header := [], block := b
                 claims := addMark s.control.work.claims b
                 chains := Table.set [] s.control.work.chains j (b :: s.chainOf j) } }
               out.requests := [{ source := .startWork, write := false, addr := p.storeBase + 512 * b, beats := 1 }] }) ∧
         (i < p.records → (s.message i).state.listed = true → s.keptFrom (i + 1) = none →
           (∀ r, (s.mailbox r).list = []) →
           ∃ t, exec .arbiterDecision s = .next t ∧ sameOuter u t ∧ t.control.work.stage = .adoptWrite ∧
             MailboxesRebuilt s t s.message)) ∧
       (s.control.work.stage = .adoptWrite →
         (∀ j, i < j → j < p.records → (s.message j).state ≠ .free → (∀ k, i < k → k < j → (s.message k).state = .free) →
           let m := s.message j
           let n := if m.state = .deleting then { m with state := .free, next := 0xFFFF } else m
           goes .adoptWrite j (p.messageBase + 64 * j) (allLanes (messageRecord n)) (u.setMessage j n)) ∧
         ((∀ k, i < k → k < p.records → (s.message k).state = .free) → blocks ≠ [] →
           goes .stack 0 (p.stackBase + 64 * last) (line held last)
             { u with store.freeRecords := free }) ∧
         ((∀ k, i < k → k < p.records → (s.message k).state = .free) → blocks = [] →
           reads .adoptFolios (p.roomBase + 80) 4
             { u with store := { s.store with
                 freeRecords := free, stackPtr := BitVec.ofNat 34 (p.stackBase + 4 * p.blocks) - 4#34 } })) ∧
       (s.control.work.stage = .stack → p.blocks - blocks.length < 16 * (last - i) → blocks ≠ [] →
         goes .stack (i + 1) (p.stackBase + 64 * (last - (i + 1))) (line held (last - (i + 1))) u) ∧
       (s.control.work.stage = .stack → 16 * (last - i) ≤ p.blocks - blocks.length → i ≤ last →
         reads .adoptFolios (p.roomBase + 80) 4
           { u with store.stackPtr := BitVec.ofNat 34 (p.stackBase + 4 * (p.blocks - blocks.length)) - 4#34 }) ∧
       (s.control.work.stage = .adoptFolios →
         let claims := s.control.work.poolClaims
         let cuts := s.control.work.cutFolios
         ∃ t, exec .arbiterDecision s = .next t ∧ sameOuter u t ∧ t.store = s.store ∧
           (∀ q, q ≠ i → t.folios q = s.folios q) ∧
           (s.control.work.folio = none → AdoptRoomDone u t i (s.folios i) claims cuts) ∧
           (∀ v, s.control.work.folio = some v → v.inClosed = true → v.records = [] →
             let f : Folio := { serial := v.serial, total := v.total, incomplete := v.flagged, late := v.late }
             (v.next = none32 → AdoptRoomDone u t i { s.folios i with closed := some f } claims cuts) ∧
             (v.next ≠ none32 → p.poolRecords ≤ v.next ∨ v.next ∈ claims →
               AdoptRoomDone u t i { s.folios i with closed := some { f with incomplete := true } } claims (cuts + 1)) ∧
             (v.next < p.poolRecords → v.next ≠ none32 → v.next ∉ claims →
               t.rating = s.rating ∧ t.control.work = { s.control.work with writes := [], reading := true } ∧
               lineGrew u t .directory [{ source := .startWork, write := false
                                          addr := p.poolBase + 64 * v.next, beats := 8 }])))))

/-- (1) R167: the steps of a decision. The wheel slot in turn wins if its requester offers a request of its direction;
else the first priority entry that is matched; else the first round-robin entry that is matched, from the one after
the position on. The request granted is the oldest of its requester. An entry is matched by the oldest request of its
requester, where its direction is EITHER, READ and that request a read, or WRITE and it a write. (2) R165, R166, R167:
where the port is free, some requester offers a request, and the lists serve every requester, a decision is made and
grants a request. (3) R169: after every decision the wheel position advances by one and returns to 0 from the last
slot; with an empty wheel it is 0. R168: the round-robin position becomes the index of the entry that won at step 3,
and keeps its value otherwise. With no decision to make nothing moves. R170: the grant of a STOP write that leaves at
it puts the lists and both positions to the PASSIVE arrangement. -/
def Obligations.DecisionFollowsItsSteps : Prop :=
  (∀ (s : State) (e : ListEntry) (r : Request), s.matched e = some r ↔
     (s.arbiter.lines.get e.who).head? = some r ∧
     (e.dir = .either ∨ (e.dir = .read ∧ r.write = false) ∨ (e.dir = .write ∧ r.write = true))) ∧
  (∀ (s : State) (d : Decision), s.decision = some d →
     s.arbiter.port = none ∧ (∃ r, (s.arbiter.lines.get d.who).head? = some r ∧ s.granted = some r) ∧
     (d.step = 1 ∨ d.step = 2 ∨ d.step = 3) ∧
     (d.step = 1 → ∃ e, s.arbiter.lists.wheel[s.arbiter.wheelPos]? = some e ∧ e.who = d.who ∧ (s.matched e).isSome = true) ∧
     (d.step ≠ 1 → ∀ e, s.arbiter.lists.wheel[s.arbiter.wheelPos]? = some e → s.matched e = none) ∧
     (d.step = 2 → ∃ (j : Nat) (e : ListEntry), s.arbiter.lists.priority[j]? = some e ∧ e.who = d.who ∧ (s.matched e).isSome = true ∧
       ∀ k < j, ∀ e', s.arbiter.lists.priority[k]? = some e' → s.matched e' = none) ∧
     (d.step = 3 → (∀ e ∈ s.arbiter.lists.priority, s.matched e = none) ∧
       ∃ (j : Nat) (e : ListEntry), j < s.arbiter.lists.roundRobin.length ∧
         d.round = (s.arbiter.roundPos + 1 + j) % s.arbiter.lists.roundRobin.length ∧
         s.arbiter.lists.roundRobin[d.round]? = some e ∧ e.who = d.who ∧ (s.matched e).isSome = true ∧
         ∀ k < j, ∀ e', s.arbiter.lists.roundRobin[(s.arbiter.roundPos + 1 + k) % s.arbiter.lists.roundRobin.length]? =
           some e' → s.matched e' = none)) ∧
  (∀ (s : State) (w : Requester), s.arbiter.port = none → s.arbiter.lines.get w ≠ [] →
     (∀ v : Requester, ⟨v, .either⟩ ∈ s.arbiter.lists.priority ++ s.arbiter.lists.roundRobin) →
     ∃ d r, s.decision = some d ∧ s.granted = some r) ∧
  (∀ (s : State), s.out = {} → (s.decision = none → exec .arbiterDecision s = .next s) ∧
     ∀ (d : Decision) (r : Request), s.decision = some d → s.granted = some r →
     let stops : Prop := r.source = .hostPart ∧ s.control.state ≠ .passive ∧
       ∃ req w, s.leaving = some (req, w) ∧ w.phase = .burst ∧ .activation 3 ∈ s.atLeave.observations w.mode req
     ∃ t, exec .arbiterDecision s = .next t ∧
       (¬stops →
         t.arbiter.lists = s.arbiter.lists ∧
         (s.arbiter.lists.wheel = [] → t.arbiter.wheelPos = 0) ∧
         (∀ n, s.arbiter.lists.wheel.length = n + 1 → t.arbiter.wheelPos = (s.arbiter.wheelPos + 1) % (n + 1)) ∧
         (d.step = 3 → t.arbiter.roundPos = d.round) ∧ (d.step ≠ 3 → t.arbiter.roundPos = s.arbiter.roundPos)) ∧
       (stops → t.arbiter.lists = {} ∧ t.arbiter.wheelPos = 0 ∧ t.arbiter.roundPos = 4))

/-- (1) R83, R173, R175, R177, R184: what a grant does for the sources that act at it: a mirror's mark is cleared and
its writer is free again; a take read clears the posted mark and its slot is held; a completion write frees the entry;
a notice's header write advances p; each mirror carries the contents of the moment of its grant. (2) R82, R83: while
ACTIVE a mirror writer with no write raised takes its lowest marked room above the one it wrote last, or the lowest,
and raises the write of that room's sub-range. Bits of a summary that no layout names are 0: log entry 39 (DESIGN
CHOICE). -/
def Obligations.GrantsActForTheirSource : Prop :=
  (∀ (s : State) (d : Decision) (r : Request), s.out = {} → s.decision = some d → s.granted = some r →
     let carried := carry r (settleGrant d s)
     (∀ q, r.source = .mailMirror → r.write = true → s.store.mirrorRaised = some q →
       Completes .arbiterDecision s
         { carried with store := { s.store with
             marks := s.store.marks.filter fun k => decide (k ≠ q), mirrorRaised := none, mirrorLast := some q } } ∧
       carried.mem = writeLanes s.mem r.addr (allLanes (mailboxBytes (s.mailbox q)))) ∧
     (∀ q, r.source = .folioMirror → r.write = true → s.rating.mirrorRaised = some q →
       Completes .arbiterDecision s
         { carried with rating := { s.rating with
             marks := s.rating.marks.filter fun k => decide (k ≠ q), mirrorRaised := none, mirrorLast := some q } } ∧
       carried.mem = writeLanes s.mem r.addr (allLanes (folioBytes (s.folios q)))) ∧
     (∀ q, r.source = .lampMirror → r.write = true → s.lamp.mirrorRaised = some q →
       Completes .arbiterDecision s
         { carried with lamp := { s.lamp with
             marks := s.lamp.marks.filter fun k => decide (k ≠ q), mirrorRaised := none, mirrorLast := some q } } ∧
       carried.mem = writeLanes s.mem r.addr (allLanes (lampBytes (s.lampOf q)))) ∧
     (∀ slot, r.source = .takeRead → s.ring.taking = some slot →
       Completes .arbiterDecision s
         { carried with ring := { s.ring with
             marks := s.ring.marks.filter fun k => decide (k ≠ slot)
             inFlight := s.ring.inFlight.map fun e => if e.slot = slot then { e with stage := .reading } else e } }) ∧
     (∀ slot, r.source = .completion slot →
       Completes .arbiterDecision s
         { carried with ring.inFlight := s.ring.inFlight.filter fun e => decide (e.slot ≠ slot) }) ∧
     (r.source = .noticeHeader true →
       Completes .arbiterDecision s
         { carried with notices := { s.notices with
             producer := (s.notices.producer + 1) % s.profile.noticeSlots, writing := false } })) ∧
  (∀ (s : State) (r : Nat), s.out = {} → s.control.state = .active →
     let base := s.profile.roomBase + 128 * r + 64
     (s.mirrorNext .directory = some r →
       Completes (.mirrorWriteRaise .directory) s
         { s with store.mirrorRaised := some r
                  out.requests := [{ source := .mailMirror, write := true, addr := base, beats := 2 }] }) ∧
     (s.mirrorNext .rating = some r →
       Completes (.mirrorWriteRaise .rating) s
         { s with rating.mirrorRaised := some r
                  out.requests := [{ source := .folioMirror, write := true, addr := base + 16, beats := 4 }] }) ∧
     (s.mirrorNext .lamp = some r →
       Completes (.mirrorWriteRaise .lamp) s
         { s with lamp.mirrorRaised := some r
                  out.requests := [{ source := .lampMirror, write := true, addr := base + 48, beats := 2 }] }))

/-- R165: the acknowledge frees the port; read data returns to its requester in grant order, the first seven bursts of a
block fetch fill its buffer, the end of a push ends the stack operation, and a burst whose requester was reset by STOP
returns to nobody. That last point is log entry 14 (DEDUCED). -/
def Obligations.AcknowledgeReturnsTheData : Prop :=
  ∀ (s : State) (c : Carried), s.out = {} → s.arbiter.port = some c →
    let u := { s with arbiter.port := none }
    (c.req.source = .orphan → Completes .memoryAcknowledge s u) ∧
    (c.req.source = .push → Completes .memoryAcknowledge s { u with store.stackOp := .none }) ∧
    (∀ ch second k, c.req.source = .blockFetch ch second k → k < 7 →
      Completes .memoryAcknowledge s
        (u.setChannel ch ((s.channel ch).setBuffer second
          { (s.channel ch).buffer second with data := ((s.channel ch).buffer second).data ++ c.data }))) ∧
    (c.req.write = false → (c.req.source = .hostPart ∨ c.req.source = .loadRead ∨ c.req.source = .takeRead ∨
        c.req.source = .pop ∨ c.req.source = .walkHeader ∨ c.req.source = .startWork ∨
        (∃ ch, c.req.source = .offsetWalk ch) ∨ (∃ ch b, c.req.source = .blockFetch ch b 7)) →
      Completes .memoryAcknowledge s
        { u with arbiter.returned := s.arbiter.returned ++ [⟨c.req.source, c.data⟩] }) ∧
    (c.req.write = true → (c.req.source = .hostPart ∨ c.req.source = .mailMirror ∨ c.req.source = .activation ∨
        (∃ k, c.req.source = .completion k) ∨ (∃ i, c.req.source = .record i)) →
      Completes .memoryAcknowledge s u)

/-! ### The store -/

/-- (1) R19, R21: a refill pop raises the pointer by 4, puts an arriving entry on top of the pocket, and reads the
entry at the new pointer. (2) R21: the read of a pop returns: its entry becomes ready with the number read and keeps
its place, and no stack operation runs; where no take waits nothing else changes. (3) R24, R23, R50, R52: where takes
wait, none having found a ready entry, the oldest one is evaluated again with the free count and the blocks used of
this moment. A block is granted: it joins the message's chain, an OPENING channel is RECORDING with it and its order
DONE, and the FULL block of a RECORDING one is written naming it. Or it is refused, here with no request behind it:
STORE FULL, else QUOTA; the message of an OPENING channel and the channel are FREE and the order is answered so, and a
RECORDING one writes its FULL block with no next block and stops for that reason. (4) R19, R22: the oldest push that
waits writes its block number at the pointer, in the four lanes of its entry, and lowers the pointer by 4. Result
bytes that no rule gives, all 32 of them with a status other than DONE, are 00h: log entry 34 (DESIGN CHOICE); bits of
a slot that no layout names are 0: log entry 39 (DESIGN CHOICE). The current buffer of a recording is log entry 31
(DESIGN CHOICE). -/
def Obligations.PocketAndStackMoveBlocks : Prop :=
  (∀ s : State, s.out = {} → s.control.state = .active → s.store.pocket.length ≤ 8 → 0 < s.stackCount →
     s.store.stackOp = .none → s.store.pushLine = [] →
     Completes .stackPop s
       { s with
         store := { s.store with
           stackPtr := s.store.stackPtr + 4#34, stackOp := .pop, pocket := .arriving :: s.store.pocket }
         out.requests := [{ source := .pop, write := false, addr := 8 * ((s.store.stackPtr + 4#34).toNat / 8)
                            beats := 1 }] }) ∧
  (∀ (s : State) (ret : Returned) (above below : List PocketEntry), s.out = {} →
     s.returnOf Source.isPop = some ret → s.store.takeLine = [] →
     (∀ e ∈ above, e ≠ .arriving) → s.store.pocket = above ++ .arriving :: below →
     Completes .popReadReturn s
       { takeReturn Source.isPop s with
         store := { s.store with
           stackOp := .none
           pocket := above ++ .ready (field ret.data (s.store.stackPtr.toNat % 8) 4) :: below } }) ∧
  (∀ (s : State) (ret : Returned) (ch : Nat) (rest : List Nat) (below : List PocketEntry), s.out = {} →
     s.returnOf Source.isPop = some ret → s.store.takeLine = ch :: rest →
     s.store.pocket = .arriving :: below → takeReady below = none →
     let i := (s.channel ch).index
     let room := (s.message i).room
     (s.message i).state = .recording →
     (s.takeFull ch s.freeCount = false ∧ s.takeBeyond ch (s.mailbox room).blocksUsed = false) ∨ rest = [] →
     ∃ t, exec .popReadReturn s = .next t ∧ sameOuter s t ∧ t.store.stackOp = .none ∧
       TakeServed s t ch (field ret.data (s.store.stackPtr.toNat % 8) 4) rest below s.freeCount
         (s.mailbox room).blocksUsed ∧
       (∀ j, j ≠ i → t.message j = s.message j) ∧ (∀ q, q ≠ room → t.mailbox q = s.mailbox q) ∧
       (∀ k, k ≠ ch → s.stillChannel k → t.channel k = s.channel k) ∧ t.rating = s.rating ∧ t.lamp = s.lamp) ∧
  (∀ (s : State) (b : Nat) (rest : List Nat), s.out = {} → s.store.pushLine = b :: rest → s.store.stackOp = .none →
     Completes .stackPush s
       { s with
         store := { s.store with pushLine := rest, stackOp := .push, stackPtr := s.store.stackPtr - 4#34 }
         out.requests := [{ source := .push, write := true, addr := 8 * (s.store.stackPtr.toNat / 8), beats := 1
                            lanes := someLanes (s.store.stackPtr.toNat % 8) (le 4 b) 8 }] })

/-- (1) R27, R22, R20, R25: a step of the walk, the chain going on: the block in hand goes to the top of the pocket,
or to the line of pushes when the pocket holds 16; the free count rises by 1, at the threshold or above it the
store-low state is ARMED, the room's blocks used fall by 1, the count remaining falls by 1, and the header of the next
block is read. (2) R24, R23, R50, R52: the same step where takes wait, none having found a ready entry: the walk goes
on, and with the free count and the blocks used that the release leaves the oldest take is evaluated again. It is
granted the block released, and its recording starts or goes on with it; or, here with no request behind it, it is
refused STORE FULL, else QUOTA, the block stays on top of the pocket, and the recording does not start, or stops.
Result bytes that no rule gives, all 32 of them with a status other than DONE, are 00h: log entry 34 (DESIGN CHOICE);
bits of a slot that no layout names are 0: log entry 39 (DESIGN CHOICE). The current buffer of a recording is log
entry 31 (DESIGN CHOICE). -/
def Obligations.WalkReleasesTheBlockInHand : Prop :=
  (∀ (s : State) (ret : Returned) (w : Walk) (e : ReleaseEntry) (rest : List ReleaseEntry), s.out = {} →
    s.returnOf Source.isWalk = some ret → s.store.walk = some w → s.store.releaseQueue = e :: rest →
    s.store.takeLine = [] → 1 < w.remaining → headerNext ret.data < s.profile.blocks →
    ∃ t, exec .walkHeaderRead s = .next t ∧ sameOuter s t ∧
      t.store.pocket = (if s.store.pocket.length < 16 then .ready w.block :: s.store.pocket else s.store.pocket) ∧
      t.store.pushLine = (if s.store.pocket.length < 16 then s.store.pushLine else s.store.pushLine ++ [w.block]) ∧
      t.freeCount = s.freeCount + 1 ∧
      t.store.storeLow = (if s.profile.storeLowLevel ≤ s.freeCount + 1 then .armed else s.store.storeLow) ∧
      (t.mailbox (s.message e.index).room).blocksUsed = (s.mailbox (s.message e.index).room).blocksUsed - 1 ∧
      t.store.walk = some ⟨headerNext ret.data, w.remaining - 1⟩ ∧ t.store.releaseQueue = e :: rest ∧
      lineGrew s t .directory [{ source := .walkHeader, write := false
                                 addr := s.profile.storeBase + 512 * headerNext ret.data, beats := 1 }] ∧
      (∀ i, t.message i = s.message i) ∧ t.ring = s.ring ∧ t.rating = s.rating ∧ t.lamp = s.lamp ∧
      (∀ q, q ≠ (s.message e.index).room → t.mailbox q = s.mailbox q) ∧
      (∀ k, s.stillChannel k → t.channel k = s.channel k)) ∧
  (∀ (s : State) (ret : Returned) (w : Walk) (e : ReleaseEntry) (queue : List ReleaseEntry) (ch : Nat)
     (rest : List Nat), s.out = {} →
    s.returnOf Source.isWalk = some ret → s.store.walk = some w → s.store.releaseQueue = e :: queue →
    s.store.takeLine = ch :: rest → takeReady s.store.pocket = none → s.store.pocket.length < 16 →
    1 < w.remaining → headerNext ret.data < s.profile.blocks →
    let i := (s.channel ch).index
    let room := (s.message i).room
    let released := (s.message e.index).room
    let used := (s.mailbox room).blocksUsed - if room = released then 1 else 0
    (s.message i).state = .recording →
    (s.takeFull ch (s.freeCount + 1) = false ∧ s.takeBeyond ch used = false) ∨ rest = [] →
    ∃ t, exec .walkHeaderRead s = .next t ∧ sameOuter s t ∧
      t.store.walk = some ⟨headerNext ret.data, w.remaining - 1⟩ ∧
      lineGrew s t .directory [{ source := .walkHeader, write := false
                                 addr := s.profile.storeBase + 512 * headerNext ret.data, beats := 1 }] ∧
      TakeServed s t ch w.block rest s.store.pocket (s.freeCount + 1) used ∧
      (released ≠ room → (t.mailbox released).blocksUsed = (s.mailbox released).blocksUsed - 1) ∧
      (∀ j, j ≠ i → t.message j = s.message j) ∧
      (∀ q, q ≠ room → q ≠ released → t.mailbox q = s.mailbox q) ∧
      (∀ k, k ≠ ch → s.stillChannel k → t.channel k = s.channel k) ∧ t.rating = s.rating ∧ t.lamp = s.lamp)

/-- R26, R37: a channel's release that waits first in the release line, its place free, is granted: the message is
DELETING, its chain joins the release queue with the channel as its cause, and the request leaves the line. -/
def Obligations.ReleaseLineGrantQueuesTheChain : Prop :=
  ∀ (s : State) (ch n : Nat) (line : List ReleaseRequest), s.out = {} →
    s.store.releaseLine = ⟨.channel ch, n⟩ :: line → n ≤ 64 - s.store.releaseQueue.length →
    let m := s.message (s.channel ch).index
    m.state = .recording → m.readers = 0 → 0 < m.blocks →
    (s.channel ch).state ≠ .playing → (s.channel ch).state ≠ .ended →
    ∃ t, exec .releaseLineGrant s = .next t ∧ sameOuter s t ∧
      t.store.releaseLine = line ∧
      t.store.releaseQueue = s.store.releaseQueue ++ [⟨m.first, m.blocks, (s.channel ch).index, .channel ch⟩] ∧
      t.message (s.channel ch).index = { m with state := .deleting } ∧
      (t.mailbox m.room).places = (s.mailbox m.room).places - 1 ∧
      t.channel ch = { s.channel ch with release := .queued } ∧
      (∀ i, i ≠ (s.channel ch).index → t.message i = s.message i) ∧ (∀ q, q ≠ m.room → t.mailbox q = s.mailbox q) ∧
      (∀ k, k ≠ ch → s.stillChannel k → t.channel k = s.channel k) ∧
      t.ring = s.ring ∧ t.rating = s.rating ∧ t.lamp = s.lamp

/-! ### The channels -/

/-- (1) R55: the end of a block's write, while RECORDING: the buffer becomes EMPTY, and a taken block that waits
becomes FILLING in it with the channel's present prediction and step index as its start state. (2) R57: when the last
write of a CLOSING recording has finished, be it the write of its last block or the header patch, its RECORD CLOSE is
decided. Case 5: met by no refusal, the message becomes NEW and joins its room's list at its place in play order, the
counts, next indexes and lamp of the room following (R34, R36, R90, R91), DONE carries the length, the block count,
the flags and the stop reason, and the channel is FREE. Cases 1 to 4: met by ROOM VACANT after a checkout, TOO SHORT,
or ROOM VACANT by the room's shadow, it stays CLOSING with the answer to come, and its message is released unless its
release has been asked for: at once where the message has no block, its chain into the release queue where a place is
granted, else the request into the line. It is answered when the release is finished, at once where it is. (3) R57,
R58: RECORD CLOSE of a STOPPED channel with no write left is decided in the same way at its take. The current buffer
of a recording is log entry 31 (DESIGN CHOICE). Result bytes that no rule gives, all 32 of them with a status other
than DONE, are 00h: log entry 34 (DESIGN CHOICE); bits of a slot that no layout names are 0: log entry 39 (DESIGN
CHOICE). -/
def Obligations.FinishedWritesMoveTheRecording : Prop :=
  (∀ (s : State) (ch k : Nat) (second : Bool) (ret : Returned), s.out = {} →
     s.returnOf Source.isBlockWrite = some ret → ret.source = .blockWrite ch second k →
     (s.channel ch).state = .recording →
     let c := s.channel ch
     ∃ t, exec .blockWriteFinish s = .next t ∧ sameOuter s t ∧
       t.ring = s.ring ∧ t.rating = s.rating ∧ t.lamp = s.lamp ∧ t.store.mailboxes = s.store.mailboxes ∧
       (∀ k, k ≠ ch → s.stillChannel k → t.channel k = s.channel k) ∧
       (c.waitingBlock = none → t.channel ch = { c.setBuffer second {} with writes := c.writes - 1 }) ∧
       (∀ b, c.waitingBlock = some b →
         ((t.channel ch).buffer second).cond = .filling ∧ ((t.channel ch).buffer second).block = b ∧
         (t.channel ch).current = second ∧ (t.channel ch).startPred = c.prediction ∧
         (t.channel ch).startIndex = c.stepIndex ∧ (t.channel ch).sampleCount = 0 ∧
         (t.channel ch).blockGap = c.pendingGap ∧ (t.channel ch).pendingGap = false ∧
         (t.channel ch).waitingBlock = none ∧
         (c.pendingGap = true → (t.message c.index).gapped = true))) ∧
  (∀ (s : State) (cmd : Instr) (ch : Nat) (d : Channel), s.out = {} → s.lastWrite cmd ch d →
     let c := s.channel ch
     c.dir = .record → c.state = .closing → c.closing = .close →
     (s.closeKeeps d →
       ∃ t, exec cmd s = .next t ∧ sameOuter s t ∧ CloseKept s t ch d ∧
         ∀ slot e, c.order = some slot → s.entryOf slot = some e →
           lineGrew s t .directory [completionWrite s slot e.copy .done false (s.keptResults d)]) ∧
     (∀ slot e st, c.order = some slot → s.entryOf slot = some e → e.stage = .executing →
       (c.release = .none → (s.message c.index).state = .recording) → s.closeMeets d st →
       ∃ t, exec cmd s = .next t ∧ sameOuter s t ∧ CloseRefused s t ch slot e.copy d st)) ∧
  (∀ (s : State) (slot : Nat) (copy : List Byte), s.takesNow .recordClose slot copy →
     let ch := param copy 8 1
     let c := s.channel ch
     let d : Channel := { c with state := .closing, closing := .close, order := some slot }
     c.state = .stopped → c.writes = 0 →
     (s.closeKeeps d →
       ∃ t, exec .recordClose s = .next t ∧ sameOuter s t ∧ OrderTaken s t slot copy ∧ CloseKept s t ch d ∧
         Answered s t slot copy .done false (s.keptResults d)) ∧
     (∀ st, (c.release = .none → (s.message c.index).state = .recording) → s.closeMeets d st →
       ∃ t, exec .recordClose s = .next t ∧ sameOuter s t ∧ OrderTaken s t slot copy ∧
         CloseRefused s t ch slot copy d st))

/-- (1) R63, R67: the last burst of a fetch has arrived: the buffer of a PLAYING channel is ARRIVED with the block's
bytes; a CLOSING channel discards it and is FREE. (2) R15: a header of the offset walk has been read. With more to
pass, the header of the block it names is read; with none, that block is fetched into buffer 0; where it names no
block of the store, the channel opens ENDED. (3) R62, R12, R15, R63: the block an OPENING channel waits for has
arrived: its codec state is loaded from the header, and the samples before the start offset are decoded and discarded.
With all of them discarded the channel is PLAYING at position o, the block after it is fetched into the other buffer,
and PLAY OPEN is DONE. Where the stream ends first, by the message length or after the last sample of the last block,
the channel is ENDED at the stream position reached, nothing is fetched, and the order DONE says so. A block that
holds fewer samples than are to be discarded is followed by the next: log entry 24; that a channel that opens ENDED at
the end of the walk keeps its position is log entry 28, and that its buffer is EMPTY then, log entry 24. Result bytes
that no rule gives, all 32 of them with a status other than DONE, are 00h: log entry 34 (DESIGN CHOICE); bits of a
slot that no layout names are 0: log entry 39 (DESIGN CHOICE). That a flag byte which R195 does not name is 01h set
and 00h clear is log entry 43 (DESIGN CHOICE). -/
def Obligations.FetchAndOffsetWalkMoveThePlayback : Prop :=
  (∀ (s : State) (ch k : Nat) (second : Bool) (ret : Returned), s.out = {} → s.headWaits →
     s.returnOf Source.isFetch = some ret → ret.source = .blockFetch ch second k →
     let c := s.channel ch
     (c.state = .playing →
       Completes .blockFetchArrival s
         ((takeReturn Source.isFetch s).setChannel ch
           (c.setBuffer second { c.buffer second with cond := .arrived, data := (c.buffer second).data ++ ret.data }))) ∧
     (c.state = .closing →
       Completes .blockFetchArrival s
         ((takeReturn Source.isFetch s).setChannel ch { c.setBuffer second {} with state := .free }))) ∧
  (∀ (s : State) (ch : Nat) (ret : Returned), s.out = {} →
     s.returnOf Source.isOffsetWalk = some ret → ret.source = .offsetWalk ch → (s.channel ch).state = .opening →
     let c := s.channel ch
     let n := headerNext ret.data
     (n < s.profile.blocks → 1 < c.walkLeft →
       Completes .offsetWalkRead s
         { (takeReturn Source.isOffsetWalk s).setChannel ch { c with walkLeft := c.walkLeft - 1, walkBlock := n } with
           out.requests := [{ source := .offsetWalk ch, write := false, addr := s.profile.storeBase + 512 * n
                              beats := 1 }] }) ∧
     (n < s.profile.blocks → c.walkLeft = 1 →
       Completes .offsetWalkRead s
         { (takeReturn Source.isOffsetWalk s).setChannel ch { c with walkLeft := 0, buffer0 := ⟨n, .fetching, []⟩ } with
           out.requests := (List.range 8).map fun k =>
             { source := .blockFetch ch false k, write := false, addr := s.profile.storeBase + 512 * n + 64 * k
               beats := 8 } }) ∧
     (s.profile.blocks ≤ n → s.headWaits →
       ∃ t, exec .offsetWalkRead s = .next t ∧ sameOuter s t ∧
         t.channel ch = { c with walkLeft := c.walkLeft - 1, state := .ended, order := none } ∧
         ∀ slot e, c.order = some slot → s.entryOf slot = some e →
           lineGrew s t .directory [completionWrite s slot e.copy .done false
             (le 1 ch ++ le 1 1 ++ le 2 c.index ++ le 2 c.generation ++ zeros 2 ++ le 4 (s.message c.index).length
               ++ le 4 (min c.offset none32))])) ∧
  (∀ (s : State) (ch k slot : Nat) (second : Bool) (ret : Returned) (e : InFlight), s.out = {} →
     s.returnOf Source.isFetch = some ret → ret.source = .blockFetch ch second k → (s.channel ch).state = .opening →
     (s.channel ch).order = some slot → s.entryOf slot = some e →
     let c := s.channel ch
     let data := (c.buffer second).data ++ ret.data
     let header := data.take 8
     let count := headerCount header
     let next := headerNext header
     let length := (s.message c.index).length
     let decoded (j : Nat) : Int × Nat :=
       (List.range j).foldl (fun x i =>
         let code := nibble (data.drop 8) i
         (nextPrediction x.1 x.2 code, nextIndex x.2 code)) (headerPrediction header, headerIndex header)
     let ahead : Buffer := if next < s.profile.blocks then ⟨next, .fetching, []⟩ else {}
     let reads : List Request := if next < s.profile.blocks then
         (List.range 8).map fun i =>
           { source := .blockFetch ch (!second) i, write := false, addr := s.profile.storeBase + 512 * next + 64 * i
             beats := 8 }
       else []
     let passed (j : Nat) (buffer other : Buffer) : Channel :=
       { (c.setBuffer second buffer).setBuffer (!second) other with
         current := second, prediction := (decoded j).1, stepIndex := (decoded j).2, sampleCount := count, blockPos := j
         reached := c.reached + j, discard := c.discard - j }
     let held : Buffer := { c.buffer second with cond := .arrived, data := data }
     let answered (ended : Nat) (d : Channel) (raised : List Request) : Prop :=
       Completes .blockFetchArrival s
         { (takeReturn Source.isFetch s).setChannel ch { d with order := none } with
           ring := { s.ring with
             inFlight := s.ring.inFlight.map fun x => if x.slot = slot then { x with stage := .completing } else x }
           out.requests := raised ++ [completionWrite s slot e.copy .done false
             (le 1 ch ++ le 1 ended ++ le 2 c.index ++ le 2 c.generation ++ zeros 2 ++ le 4 length
               ++ le 4 (min c.offset none32))] }
     (c.discard ≤ count → c.discard = 0 ∨ (c.reached + c.discard < length ∧
         (c.discard < count ∨ next < s.profile.blocks)) →
       answered 0 { passed c.discard held ahead with state := .playing, position := c.offset } reads) ∧
     (∀ j, 0 < j → j ≤ c.discard → j ≤ count → (1 < j → c.reached + (j - 1) < length) →
       length ≤ c.reached + j ∨ (j = count ∧ s.profile.blocks ≤ next) →
       answered 1 { passed j {} {} with state := .ended, position := c.reached + j } []) ∧
     (count < c.discard → c.reached + count < length → next < s.profile.blocks →
       Completes .blockFetchArrival s
         { (takeReturn Source.isFetch s).setChannel ch (passed count held ahead) with out.requests := reads }))

/-! ### The order ring -/

/-- (1) R175: the take of the slot at the consumer index begins when it is marked, no slot is taking and fewer than 8
orders are in flight: the slot is taking, an entry is in use, and the slot's 64 bytes are read. A slot that no longer
reads POSTED is released without a write, and the consumer index stays. (2) R175, R178: a POSTED slot whose order code
names no order is taken and answered UNKNOWN ORDER: the consumer index and the count of orders taken advance, and the
EXECUTING and completion writes carry the slot as read. Result bytes that no rule gives, all 32 of them with a status
other than DONE, are 00h: log entry 34 (DESIGN CHOICE); bits of a slot that no layout names are 0: log entry 39
(DESIGN CHOICE). -/
def Obligations.TakeReadsTheSlot : Prop :=
  (∀ s : State, s.out = {} →
     (s.control.state = .active → s.ring.consumer ∈ s.ring.marks → s.ring.taking = none → s.ring.inFlight.length < 8 →
       Completes .takeStart s
         { s with
           ring := { s.ring with
             taking := some s.ring.consumer, inFlight := s.ring.inFlight ++ [{ slot := s.ring.consumer }] }
           out.requests := [{ source := .takeRead, write := false, addr := s.profile.orderBase + 64 * s.ring.consumer
                              beats := 8 }] }) ∧
     (∀ slot ret, s.ring.taking = some slot → s.returnOf Source.isTake = some ret → byteAt ret.data 0 ≠ 1#8 →
       Completes .takeReadReturn s
         { takeReturn Source.isTake s with
           ring := { s.ring with
             taking := none, inFlight := s.ring.inFlight.filter fun e => decide (e.slot ≠ slot) } })) ∧
  (∀ (s : State) (slot : Nat) (ret : Returned) (e : InFlight), s.out = {} → s.ring.taking = some slot →
     s.returnOf Source.isTake = some ret → byteAt ret.data 0 = 1#8 → copyOrder ret.data = none →
     s.entryOf slot = some e →
     ∃ t, exec .takeReadReturn s = .next t ∧ sameOuter s t ∧ OrderTaken s t slot ret.data ∧
       Answered s t slot ret.data .unknownOrder false [] ∧
       t.store = s.store ∧ t.rating = s.rating ∧ t.lamp = s.lamp ∧ t.control = s.control)

/-- (1) R176: a take that waits for places, granted as many as it asked for, is evaluated again: where it now needs
more than were granted its request stays first in the release line with the new number, and nothing else changes. (2)
The row of an order is the take of a slot that holds it: it answers as TAKE_READ_RETURN does where the take read has
returned with that order, and as TAKE_PLACES_GRANTED where a waiting take of it is granted its places. Clause (2) is
log entry 8 (DESIGN CHOICE). Result bytes that no rule gives, all 32 of them with a status other than DONE, are 00h:
log entry 34 (DESIGN CHOICE); bits of a slot that no layout names are 0: log entry 39 (DESIGN CHOICE). -/
def Obligations.WaitingTakesAreEvaluatedAgain : Prop :=
  (∀ (s : State) (slot n : Nat) (e : InFlight) (line : List ReleaseRequest), s.out = {} →
     s.ring.taking = some slot → s.entryOf slot = some e → s.store.releaseLine = ⟨.take, n⟩ :: line →
     n ≤ 64 - s.store.releaseQueue.length →
     (n < s.placesOf e.copy →
       Completes .takePlacesGranted s { s with store.releaseLine := ⟨.take, s.placesOf e.copy⟩ :: line }) ∧
     (∀ o st, copyOrder e.copy = some o → orderRefusal o e.copy s = some st →
       ∃ t, exec .takePlacesGranted s = .next t ∧ sameOuter s t ∧ OrderTaken s t slot e.copy ∧
         Answered s t slot e.copy st false [] ∧ t.store = { s.store with releaseLine := line }) ∧
     (copyOrder e.copy = some .messageDelete → s.placesOf e.copy ≤ n → orderRefusal .messageDelete e.copy s = none →
       ∃ t, exec .takePlacesGranted s = .next t ∧ sameOuter s t ∧ OrderTaken s t slot e.copy ∧
         ((t.message (param e.copy 8 2)).state = .deleting ∨ (t.message (param e.copy 8 2)).state = .free) ∧
         t.store.releaseLine = line)) ∧
  (∀ (s : State) (o : Order),
     ((s.takeOf o).isSome = true → exec o.row s = exec .takeReadReturn s) ∧
     (s.takeOf o = none → (s.grantOf o).isSome = true → exec o.row s = exec .takePlacesGranted s))

/-- R175, R177, R178: an order that meets a refusal is taken and answered with its status, and nothing else changes:
its entry waits for the grant of the completion write, and notices, marks, the other orders in flight, the shadows and
every engine are as they were. That all 32 result bytes are 00h is log entry 34, and the bits of the slot that no
layout names 0, log entry 39 (DESIGN CHOICE). -/
def Obligations.RefusedOrderChangesNothing : Prop :=
  ∀ (s : State) (o : Order) (slot : Nat) (copy : List Byte) (st : Status) (e : InFlight), s.out = {} →
    s.takeOf o = some (slot, copy) → orderRefusal o copy s = some st → s.entryOf slot = some e →
    Completes o.row s
      { takeReturn Source.isTake s with
        ring := { s.ring with
          taking := none, consumer := (s.ring.consumer + 1) % s.profile.orderSlots
          ordersTaken := if s.ring.ordersTaken ≥ 0xFFFFFFFF then 0xFFFFFFFF else s.ring.ordersTaken + 1
          inFlight := s.ring.inFlight.map fun x =>
            if x.slot = slot then { x with code := param copy 1 1, copy := copy, stage := .completing } else x }
        out.requests := [executingWrite s slot copy, completionWrite s slot copy st false []] }

/-! ### The fourteen orders -/

/-- (1) R49, R50, R23, R30, R32, R34, R25: RECORD OPEN with a ready block: the lowest free record is the message, its
generation one higher, RECORDING for the room with the serial and stamp of the moment; the room has one more place;
the channel, the lowest-numbered FREE one for ANY, records into buffer 0, which holds the topmost ready block; the
order is DONE with the channel and the handle. A take that lowers the free count below the store-low threshold while
the state is ARMED raises STORE LOW with the count after it and the threshold, and the state is RAISED; no other
notice is raised. (2) R50, R24: with no ready entry the message is created without a block, its request is the last in
the take line, the channel is OPENING with the order, which is not answered, and no block is counted. Result bytes
that no rule gives, all 32 of them with a status other than DONE, are 00h: log entry 34 (DESIGN CHOICE); bits of a
slot that no layout names are 0: log entry 39 (DESIGN CHOICE). -/
def Obligations.RecordOpenStartsARecording : Prop :=
  (∀ (s : State) (slot b i : Nat) (copy : List Byte) (pocket : List PocketEntry) (free : List Nat),
    s.takesNow .recordOpen slot copy → takeReady s.store.pocket = some (b, pocket) → s.store.freeRecords = i :: free →
    (∀ j ∈ free, i < j) →
    let room := param copy 8 2
    let ch := if param copy 11 1 = 255 then s.freeChannels.headD 0 else param copy 11 1
    let m : Message :=
      { generation := (s.message i).generation + 1, state := .recording, room := room, urgent := param copy 10 1 = 1
        serial := s.store.serial, stamp := s.stamp, digits := callerDigits copy, blocks := 1, first := b }
    let level := s.profile.storeLowLevel
    let falls : Bool := decide (level ≤ s.freeCount) && decide (s.freeCount - 1 < level)
    ∃ t, exec .recordOpen s = .next t ∧ sameOuter s t ∧ OrderTaken s t slot copy ∧
      t.message i = m ∧ t.store.freeRecords = free ∧ t.store.serial = sat32 s.store.serial ∧
      t.store.pocket = pocket ∧ (t.mailbox room).places = (s.mailbox room).places + 1 ∧
      (t.mailbox room).blocksUsed = (s.mailbox room).blocksUsed + 1 ∧ room ∈ t.store.marks ∧
      (t.channel ch).state = .recording ∧ (t.channel ch).dir = .record ∧ (t.channel ch).index = i ∧
      (t.channel ch).generation = m.generation ∧ (t.channel ch).room = room ∧
      (t.channel ch).buffer0 = ⟨b, .filling, zeros 512⟩ ∧ (t.channel ch).prediction = 0 ∧
      (t.channel ch).stepIndex = s.profile.stepIndex ∧ (t.channel ch).position = 0 ∧
      Answered s t slot copy .done false (le 1 ch ++ zeros 1 ++ le 2 i ++ le 2 m.generation) ∧
      t.store.storeLow = (if s.store.storeLow = .armed ∧ falls = true then .raised else s.store.storeLow) ∧
      (s.enabled .storeLow = true → s.notices.queue.length < 16 →
        t.notices.queue = s.notices.queue ++
          if s.store.storeLow = .armed ∧ falls = true then
            [⟨.storeLow, 0xFFFF, s.stamp, s.freeCount - 1, level⟩] else []) ∧
      (∀ j, j ≠ i → t.message j = s.message j) ∧ (∀ q, q ≠ room → t.mailbox q = s.mailbox q) ∧
      (∀ k, k ≠ ch → s.stillChannel k → t.channel k = s.channel k) ∧
      t.rating = s.rating ∧ t.lamp = s.lamp ∧ t.control = s.control) ∧
  (∀ (s : State) (slot i : Nat) (copy : List Byte) (free : List Nat),
    s.takesNow .recordOpen slot copy → takeReady s.store.pocket = none → s.store.freeRecords = i :: free →
    (∀ j ∈ free, i < j) →
    let room := param copy 8 2
    let ch := if param copy 11 1 = 255 then s.freeChannels.headD 0 else param copy 11 1
    let g := (s.message i).generation + 1
    ∃ t, exec .recordOpen s = .next t ∧ sameOuter s t ∧ OrderTaken s t slot copy ∧ Unanswered s t slot ∧
      t.message i = { generation := g, state := .recording, room := room, urgent := param copy 10 1 = 1
                      serial := s.store.serial, stamp := s.stamp, digits := callerDigits copy } ∧
      t.channel ch = { state := .opening, dir := .record, index := i, generation := g, room := room
                       stepIndex := s.profile.stepIndex, order := some slot } ∧
      t.store.takeLine = s.store.takeLine ++ [ch] ∧ t.store.freeRecords = free ∧
      t.store.serial = sat32 s.store.serial ∧ t.store.pocket = s.store.pocket ∧ t.freeCount = s.freeCount ∧
      (t.mailbox room).places = (s.mailbox room).places + 1 ∧
      (t.mailbox room).blocksUsed = (s.mailbox room).blocksUsed ∧ room ∈ t.store.marks ∧
      (∀ j, j ≠ i → t.message j = s.message j) ∧ (∀ q, q ≠ room → t.mailbox q = s.mailbox q) ∧
      (∀ k, k ≠ ch → s.stillChannel k → t.channel k = s.channel k) ∧
      t.rating = s.rating ∧ t.lamp = s.lamp ∧ t.control = s.control)

/-- (1) R58: RECORD CLOSE of a RECORDING channel. A filling block that holds samples, or a FULL one whose take request
waits, is closed with no next block and its eight write bursts are raised, a request in the take line being withdrawn.
A block taken but holding no sample, in a buffer or waiting for one, is returned: it leaves the chain and the room and
goes to the pocket; the block before it, if there is one, gets a header patch with no next block; where it was the
first the message has no blocks and its first block is none, and with no write left the order is answered TOO SHORT
and message and channel are FREE. In every case the length is brought up to date (log entry 21, DEDUCED). (2) R59:
RECORD ABANDON of a STOPPED recording with writes in flight. (3) R59: RECORD ABANDON of a RECORDING channel no other
take waits behind: its unwritten blocks are returned, the voice engine raises nothing, and writes in flight go on;
with none left the message goes: FREE at once without a block, its chain into the release queue where a place is
granted, else the request into the line. The length is log entry 21 there too. But for a close decided at once all
bring the channel to CLOSING, and the order is not answered before its writes and its release are finished. (4) R57,
R59, R37: the last write of an abandoned recording starts the release, the order still waiting. (5) R29: the end of a
release entry: the last block is released, the record is FREE with its generation, the entry leaves the queue, the
next entry's walk starts, and the cause is told: an order that waits for this alone is DONE, a CLOSING channel is FREE
and its order answered, a STOPPED one stays claimed. Result bytes that no rule gives, all 32 of them with a status
other than DONE, are 00h: log entry 34 (DESIGN CHOICE); bits of a slot that no layout names are 0: log entry 39
(DESIGN CHOICE). -/
def Obligations.RecordEndsEnterClosing : Prop :=
  (∀ (s : State) (slot : Nat) (copy : List Byte) (second : Bool),
    let ch := param copy 8 1
    let c := s.channel ch
    let m := s.message c.index
    let unwritten (b : Buffer) : Bool := decide (b.cond = .filling) || decide (b.cond = .full)
    let n := ([c.buffer0, c.buffer1].filter unwritten).length + c.waitingBlock.toList.length
    (s.takesNow .recordClose slot copy → c.state = .recording →
      c.bufferIn .full = some second ∨
        (c.bufferIn .full = none ∧ c.bufferIn .filling = some second ∧ 0 < c.sampleCount) →
      ∃ t, exec .recordClose s = .next t ∧ sameOuter s t ∧ OrderTaken s t slot copy ∧ Unanswered s t slot ∧
        t.channel ch = { c.closedIn second none32 with state := .closing, closing := .close, order := some slot } ∧
        t.message c.index = { m with length := c.position } ∧
        lineGrew s t .voice (s.blockBursts ch second none32) ∧
        t.store.takeLine = (if c.bufferIn .full = none then s.store.takeLine
          else s.store.takeLine.filter fun k => decide (k ≠ ch)) ∧
        t.store.mailboxes = s.store.mailboxes ∧ (∀ j, j ≠ c.index → t.message j = s.message j) ∧
        (∀ k, k ≠ ch → s.stillChannel k → t.channel k = s.channel k) ∧
        t.rating = s.rating ∧ t.lamp = s.lamp) ∧
    (∀ (b : Nat) (d : Channel), s.takesNow .recordClose slot copy → c.state = .recording → s.store.takeLine = [] →
      c.bufferIn .full = none →
      (1 < m.blocks ∧ c.lastBlock ≠ none) ∨ (m.blocks ≤ 1 ∧ 0 < c.writes) ∨
        (m.blocks ≤ 1 ∧ c.writes = 0 ∧ c.stopReason ≠ .checkedOut ∧ c.checkedOut = false ∧ c.position = 0 ∧
          c.release = .none ∧ m.state = .recording ∧ m.readers = 0) →
      (c.bufferIn .filling = some second ∧ c.sampleCount = 0 ∧ b = (c.buffer second).block ∧
          d = { c.setBuffer second {} with state := .closing, closing := .close, order := some slot }) ∨
        (c.bufferIn .filling = none ∧ c.waitingBlock = some b ∧
          d = { c with waitingBlock := none, state := .closing, closing := .close, order := some slot }) →
      ∃ t, exec .recordClose s = .next t ∧ sameOuter s t ∧ OrderTaken s t slot copy ∧
        (t.message c.index).length = c.position ∧ (t.message c.index).blocks = m.blocks - 1 ∧
        (t.message c.index).first = (if m.blocks ≤ 1 then none32 else m.first) ∧
        t.freeCount = s.freeCount + 1 ∧
        (s.store.pocket.length < 16 → t.store.pocket = .ready b :: s.store.pocket) ∧
        (t.mailbox m.room).blocksUsed = (s.mailbox m.room).blocksUsed - 1 ∧
        (∀ j, j ≠ c.index → t.message j = s.message j) ∧ (∀ q, q ≠ m.room → t.mailbox q = s.mailbox q) ∧
        (∀ k, k ≠ ch → s.stillChannel k → t.channel k = s.channel k) ∧ t.rating = s.rating ∧ t.lamp = s.lamp ∧
        (∀ last header, 1 < m.blocks → c.lastBlock = some (last, header) →
          t.channel ch = { d with writes := c.writes + 1, lastBlock := some (last, patchedHeader header) } ∧
          lineGrew s t .voice [{ source := .headerPatch ch, write := true, addr := s.profile.storeBase + 512 * last
                                 beats := 1, lanes := allLanes (patchedHeader header) }] ∧
          (t.message c.index).state = m.state ∧ Unanswered s t slot) ∧
        (m.blocks ≤ 1 → 0 < c.writes →
          t.channel ch = d ∧ (t.message c.index).state = m.state ∧ Unanswered s t slot) ∧
        (m.blocks ≤ 1 → c.writes = 0 →
          (t.channel ch).state = .free ∧ (t.channel ch).order = none ∧ (t.message c.index).state = .free ∧
          (t.mailbox m.room).places = (s.mailbox m.room).places - 1 ∧
          Answered s t slot copy .tooShort false [])) ∧
    (s.takesNow .recordAbandon slot copy → c.state = .stopped → 0 < c.writes →
      ∃ t, exec .recordAbandon s = .next t ∧ sameOuter s t ∧ OrderTaken s t slot copy ∧ Unanswered s t slot ∧
        t.channel ch = { c with state := .closing, closing := .abandon, order := some slot } ∧
        t.store = s.store ∧ t.rating = s.rating ∧ t.lamp = s.lamp ∧
        (∀ k, k ≠ ch → s.stillChannel k → t.channel k = s.channel k)) ∧
    (s.takesNow .recordAbandon slot copy → c.state = .recording → m.state = .recording →
      (∀ k ∈ s.store.takeLine, k = ch) →
      ∃ t, exec .recordAbandon s = .next t ∧ sameOuter s t ∧ OrderTaken s t slot copy ∧
        (t.channel ch).buffer0 = (if unwritten c.buffer0 then {} else c.buffer0) ∧
        (t.channel ch).buffer1 = (if unwritten c.buffer1 then {} else c.buffer1) ∧
        (t.channel ch).waitingBlock = none ∧ (t.channel ch).writes = c.writes ∧ ch ∉ t.store.takeLine ∧
        (t.message c.index).length = c.position ∧ (t.message c.index).blocks = m.blocks - n ∧
        t.freeCount = s.freeCount + n ∧ (s.headWaits → t.arbiter.lines.get .voice = s.arbiter.lines.get .voice) ∧
        (∀ j, j ≠ c.index → t.message j = s.message j) ∧ (∀ q, q ≠ m.room → t.mailbox q = s.mailbox q) ∧
        (∀ k, k ≠ ch → s.stillChannel k → t.channel k = s.channel k) ∧ t.rating = s.rating ∧ t.lamp = s.lamp ∧
        (0 < c.writes → (t.channel ch).state = .closing ∧ (t.channel ch).closing = .abandon ∧
          (t.channel ch).order = some slot ∧ (t.message c.index).state = m.state ∧ Unanswered s t slot) ∧
        (c.writes = 0 → c.release = .none → m.readers = 0 →
          (m.blocks = n → (t.message c.index).state = .free ∧ (t.channel ch).state = .free ∧
            Answered s t slot copy .done false []) ∧
          (n < m.blocks → s.grantsAtOnce 1 = true → (t.message c.index).state = .deleting ∧
            t.store.releaseQueue = s.store.releaseQueue ++ [⟨m.first, m.blocks - n, c.index, .channel ch⟩] ∧
            (t.channel ch).state = .closing ∧ Unanswered s t slot) ∧
          (n < m.blocks → s.grantsAtOnce 1 = false → (t.message c.index).state = .recording ∧
            t.store.releaseLine = s.store.releaseLine ++ [⟨.channel ch, 1⟩] ∧
            (t.channel ch).state = .closing ∧ Unanswered s t slot)))) ∧
  (∀ (s : State) (ch k slot : Nat) (second : Bool) (ret : Returned) (e : InFlight), s.out = {} →
    s.returnOf Source.isBlockWrite = some ret → ret.source = .blockWrite ch second k →
    let c := s.channel ch
    let m := s.message c.index
    c.dir = .record → c.state = .closing → c.closing = .abandon → c.writes = 1 → c.waitingBlock = none →
    c.release = .none → c.order = some slot → s.entryOf slot = some e → e.stage = .executing →
    m.state = .recording → m.readers = 0 → 0 < m.blocks → s.grantsAtOnce 1 = true →
    ∃ t, exec .blockWriteFinish s = .next t ∧ sameOuter s t ∧ Unanswered s t slot ∧
      t.channel ch = { c.setBuffer second {} with writes := 0, verdict := .done, release := .queued } ∧
      t.message c.index = { m with state := .deleting } ∧
      t.store.releaseQueue = s.store.releaseQueue ++ [⟨m.first, m.blocks, c.index, .channel ch⟩] ∧
      (∀ j, j ≠ c.index → t.message j = s.message j) ∧ t.ring = s.ring ∧ t.rating = s.rating) ∧
  (∀ (s : State) (ret : Returned) (w : Walk) (e : ReleaseEntry) (rest : List ReleaseEntry), s.out = {} →
    s.returnOf Source.isWalk = some ret → s.store.walk = some w → s.store.releaseQueue = e :: rest →
    s.store.takeLine = [] → (w.remaining ≤ 1 ∨ s.profile.blocks ≤ headerNext ret.data) →
    let m := s.message e.index
    ∃ t, exec .walkHeaderRead s = .next t ∧ sameOuter s t ∧ t.store.releaseQueue = rest ∧
      t.message e.index = { m with state := .free, next := 0xFFFF } ∧
      (m.generation < 65535 → e.index ∈ t.store.freeRecords) ∧ t.freeCount = s.freeCount + 1 ∧
      (t.mailbox m.room).blocksUsed = (s.mailbox m.room).blocksUsed - 1 ∧
      (∀ i, i ≠ e.index → t.message i = s.message i) ∧ (rest = [] → t.store.walk = none) ∧
      (∀ next more, rest = next :: more → t.store.walk = some ⟨next.first, next.count⟩ ∧
        lineGrew s t .directory [{ source := .walkHeader, write := false
                                   addr := s.profile.storeBase + 512 * next.first, beats := 1 }]) ∧
      (∀ slot n, e.cause = .order slot → s.entryOf slot = some n →
        (n.left ≤ 1 → lineGrew s t .directory [completionWrite s slot n.copy .done n.deferred n.result]) ∧
        (1 < n.left → n.stage = .executing → t.entryOf slot = some { n with left := n.left - 1 } ∧
          Unanswered s t slot)) ∧
      (∀ ch, e.cause = .channel ch →
        let c := s.channel ch
        (c.state = .closing → (t.channel ch).state = .free ∧ (t.channel ch).order = none ∧
          ∀ slot n, c.order = some slot → s.entryOf slot = some n →
            lineGrew s t .directory [completionWrite s slot n.copy c.verdict false []]) ∧
        (c.state = .stopped → t.channel ch = { c with release := .finished } ∧ t.ring = s.ring)) ∧
      (e.cause = .silent → t.ring = s.ring) ∧ t.rating = s.rating ∧ t.lamp = s.lamp)

/-- (1) R61, R62, R15: PLAY OPEN of a message: its reader count rises by 1 and the channel is OPENING for it at the
start offset o, its position (log entry 28, DESIGN CHOICE); that ANY claims the lowest-numbered FREE channel here too
is log entry 45 (DESIGN CHOICE). Where o lies in the first block the eight bursts of that block are read; where it
lies in block b above 0 the header of the first block is read, b headers being to pass; with o at or beyond the length
the channel is ENDED at once, and the order is DONE. (2) R67, R38: PLAY CLOSE: the reader count falls by 1, the
channel drops its buffers and is FREE, or keeps those being fetched and is CLOSING. HEARD makes a NEW message HEARD,
SAVE a NEW or HEARD one SAVED, and it moves to its place in play order; DELETE releases a listed one, which leaves its
list; next indexes, counts and lamp of the room follow (R34, R36, R90, R91). Of a message released the chain joins the
release queue; it is FREE without a block, and with readers left it stays DELETING and the answer carries DEFERRED.
The last reader of a DELETING message lets its chain go. The order is DONE with the message's state. Result bytes that
no rule gives, all 32 of them with a status other than DONE, are 00h: log entry 34 (DESIGN CHOICE); bits of a slot
that no layout names are 0: log entry 39 (DESIGN CHOICE). That a flag byte which R195 does not name is 01h set and 00h
clear is log entry 43 (DESIGN CHOICE). -/
def Obligations.PlayOpenAndClose : Prop :=
  ∀ (s : State) (slot : Nat) (copy : List Byte),
    (s.takesNow .playOpen slot copy → s.headWaits →
      let i := if param copy 10 2 = 0xFFFF then (s.mailbox (param copy 8 2)).list.headD none16 else param copy 10 2
      let ch := if param copy 14 1 = 255 then s.freeChannels.headD 0 else param copy 14 1
      let m := s.message i
      let o := 8 * param copy 16 4
      ∃ t, exec .playOpen s = .next t ∧ sameOuter s t ∧ OrderTaken s t slot copy ∧
        (t.message i).readers = m.readers + 1 ∧ (t.channel ch).dir = .play ∧ (t.channel ch).index = i ∧
        (t.channel ch).generation = m.generation ∧ (t.channel ch).room = m.room ∧ (t.channel ch).accepted = 0 ∧
        (t.channel ch).position = min o 0xFFFFFFFF ∧
        (∀ j, j ≠ i → t.message j = s.message j) ∧ t.store.mailboxes = s.store.mailboxes ∧
        (∀ k, k ≠ ch → t.channel k = s.channel k) ∧ t.rating = s.rating ∧ t.lamp = s.lamp ∧
        (o < m.length → (t.channel ch).state = .opening ∧ (t.channel ch).discard = o % 1008 ∧ Unanswered s t slot) ∧
        (o < m.length → o < 1008 → (t.channel ch).buffer0 = ⟨m.first, .fetching, []⟩ ∧
          lineGrew s t .voice ((List.range 8).map fun k =>
            { source := .blockFetch ch false k, write := false
              addr := s.profile.storeBase + 512 * m.first + 64 * k, beats := 8 })) ∧
        (o < m.length → 1008 ≤ o → (t.channel ch).walkLeft = o / 1008 ∧ (t.channel ch).walkBlock = m.first ∧
          lineGrew s t .voice [{ source := .offsetWalk ch, write := false
                                 addr := s.profile.storeBase + 512 * m.first, beats := 1 }]) ∧
        (m.length ≤ o → (t.channel ch).state = .ended ∧
          Answered s t slot copy .done false
            (le 1 ch ++ le 1 1 ++ le 2 i ++ le 2 m.generation ++ zeros 2 ++ le 4 m.length ++ le 4 (min o 0xFFFFFFFF)))) ∧
    (s.takesNow .playClose slot copy → s.headWaits →
      let ch := param copy 8 1
      let d := param copy 9 1
      let c := s.channel ch
      let i := c.index
      let m := s.message i
      let kept (b : Buffer) : Buffer := if b.cond = .fetching then b else {}
      let goal : MessageState :=
        if d = 1 ∧ m.state = .new then .heard else if d = 2 ∧ (m.state = .new ∨ m.state = .heard) then .saved else m.state
      ∃ t, exec .playClose s = .next t ∧ sameOuter s t ∧ OrderTaken s t slot copy ∧
        t.channel ch = { c with
          buffer0 := kept c.buffer0, buffer1 := kept c.buffer1
          state := if c.buffer0.cond = .fetching ∨ c.buffer1.cond = .fetching then .closing else .free } ∧
        (t.message i).readers = m.readers - 1 ∧
        (∀ j, j ≠ i → (t.message j).state = (s.message j).state) ∧
        (∀ q, q ≠ m.room → t.mailbox q = s.mailbox q ∧ t.lampOf q = s.lampOf q) ∧
        (∀ k, k ≠ ch → t.channel k = s.channel k) ∧ t.rating = s.rating ∧
        (m.state ≠ .deleting → ¬(d = 3 ∧ m.state.listed = true) →
          (t.message i).state = goal ∧ Answered s t slot copy .done false (le 1 goal.code) ∧
          (goal ≠ m.state → ListFollows s t m.room fun j => j = i ∨ j ∈ (s.mailbox m.room).list) ∧
          (goal = m.state → t.message i = { m with readers := m.readers - 1 } ∧ t.lamp = s.lamp ∧
            t.store.mailboxes = s.store.mailboxes ∧ ∀ j, j ≠ i → t.message j = s.message j)) ∧
        (d = 3 → m.state.listed = true →
          (ListFollows s t m.room fun j => j ≠ i ∧ j ∈ (s.mailbox m.room).list) ∧
          (t.mailbox m.room).places = (s.mailbox m.room).places - 1 ∧
          (1 < m.readers → (t.message i).state = .deleting ∧ t.store.releaseQueue = s.store.releaseQueue ∧
            Answered s t slot copy .done true (le 1 5)) ∧
          (m.readers ≤ 1 → 0 < m.blocks → (t.message i).state = .deleting ∧
            t.store.releaseQueue = s.store.releaseQueue ++ [⟨m.first, m.blocks, i, .silent⟩] ∧
            Answered s t slot copy .done false (le 1 5)) ∧
          (m.readers ≤ 1 → m.blocks = 0 → (t.message i).state = .free ∧
            Answered s t slot copy .done false (le 1 0))) ∧
        (m.state = .deleting → t.store.mailboxes = s.store.mailboxes ∧
          (1 < m.readers → (t.message i).state = .deleting ∧ t.store.releaseQueue = s.store.releaseQueue ∧
            Answered s t slot copy .done false (le 1 5)) ∧
          (m.readers ≤ 1 → 0 < m.blocks → (t.message i).state = .deleting ∧
            t.store.releaseQueue = s.store.releaseQueue ++ [⟨m.first, m.blocks, i, .silent⟩] ∧
            Answered s t slot copy .done false (le 1 5)) ∧
          (m.readers ≤ 1 → m.blocks = 0 → (t.message i).state = .free ∧
            Answered s t slot copy .done false (le 1 0))))

/-- R39, R40, R34, R36, R90, R91: MESSAGE SAVE brings a NEW or HEARD message to SAVED, and MESSAGE MARK NEW a HEARD or
SAVED one to NEW, the urgent flag kept; it moves to its place in play order, and the next indexes, the four counts and
the lamp of its room follow; a message already there is left as it is. DONE gives the state before. Result bytes that
no rule gives, all 32 of them with a status other than DONE, are 00h: log entry 34 (DESIGN CHOICE); bits of a slot
that no layout names are 0: log entry 39 (DESIGN CHOICE). -/
def Obligations.SaveAndMarkNewMoveTheMessage : Prop :=
  ∀ (s : State) (slot : Nat) (copy : List Byte) (o : Order) (goal : MessageState),
    (o, goal) ∈ [(Order.messageSave, MessageState.saved), (.messageMarkNew, .new)] → s.takesNow o slot copy →
    let i := param copy 8 2
    let m := s.message i
    ∃ t, exec o.row s = .next t ∧ sameOuter s t ∧ OrderTaken s t slot copy ∧
      (t.message i).state = goal ∧ (t.message i).urgent = m.urgent ∧ (t.message i).generation = m.generation ∧
      (m.state = goal → t.store = s.store ∧ t.lamp = s.lamp) ∧
      (m.state ≠ goal → ListFollows s t m.room fun j => j = i ∨ j ∈ (s.mailbox m.room).list) ∧
      (t.mailbox m.room).places = (s.mailbox m.room).places ∧
      (∀ j, j ≠ i → (t.message j).state = (s.message j).state) ∧
      Answered s t slot copy .done false (le 1 m.state.code) ∧ t.rating = s.rating ∧
      (∀ q, q ≠ m.room → t.mailbox q = s.mailbox q ∧ t.lampOf q = s.lampOf q) ∧
      (∀ k, s.stillChannel k → t.channel k = s.channel k)

/-- R37, R41, R34, R36, R90, R91: MESSAGE DELETE of a listed message without readers: it is DELETING and leaves its
list, whose next indexes, counts and lamp follow, its room has one place less, its chain joins the release queue with
the order as its cause, and the order is not yet answered. With readers its release is deferred: nothing joins the
queue and the order is DONE with the DEFERRED flag and the block count. Result bytes that no rule gives, all 32 of
them with a status other than DONE, are 00h: log entry 34 (DESIGN CHOICE); bits of a slot that no layout names are 0:
log entry 39 (DESIGN CHOICE). -/
def Obligations.MessageDeleteReleasesTheMessage : Prop :=
  ∀ (s : State) (slot : Nat) (copy : List Byte), s.takesNow .messageDelete slot copy →
    let i := param copy 8 2
    let m := s.message i
    ∃ t, exec .messageDelete s = .next t ∧ sameOuter s t ∧ OrderTaken s t slot copy ∧
      (ListFollows s t m.room fun j => j ≠ i ∧ j ∈ (s.mailbox m.room).list) ∧
      (t.mailbox m.room).places = (s.mailbox m.room).places - 1 ∧ t.rating = s.rating ∧
      (∀ j, j ≠ i → (t.message j).state = (s.message j).state) ∧
      (∀ q, q ≠ m.room → t.mailbox q = s.mailbox q ∧ t.lampOf q = s.lampOf q) ∧
      (∀ k, s.stillChannel k → t.channel k = s.channel k) ∧
      (m.readers = 0 → 0 < m.blocks → (t.message i).state = .deleting ∧
        t.store.releaseQueue = s.store.releaseQueue ++ [⟨m.first, m.blocks, i, .order slot⟩] ∧ Unanswered s t slot) ∧
      (0 < m.readers → (t.message i).state = .deleting ∧ t.store.releaseQueue = s.store.releaseQueue ∧
        Answered s t slot copy .done true (le 4 m.blocks)) ∧
      (m.readers = 0 → m.blocks = 0 → (t.message i).state = .free ∧
        Answered s t slot copy .done false (le 4 m.blocks))

/-- (1) R42: MAILBOX PURGE releases every message in scope and no other of the room: each is DELETING or already FREE
and in no list, next indexes, counts, places and lamp of the room follow (R34, R36, R90, R91), and the chain of each
without readers joins the release queue. The results are the number deleted and the number deferred, the DEFERRED flag
is set where one is. With no chain to release the order is DONE at once, with nothing in scope with both numbers 0;
otherwise it is held, unanswered, for as many releases as there are chains. (2) R29, R42: the end of a release entry
of an order: one release fewer is waited for; after the last the order is DONE with the flag and the results it holds.
That the deferred ones count as deleted too is log entry 16 (DEDUCED). Result bytes that no rule gives, all 32 of them
with a status other than DONE, are 00h: log entry 34 (DESIGN CHOICE); bits of a slot that no layout names are 0: log
entry 39 (DESIGN CHOICE). The order in which the chains join the release queue is left open here; log entry 36 (DESIGN
CHOICE). -/
def Obligations.PurgeReleasesItsScope : Prop :=
  (∀ (s : State) (slot : Nat) (copy : List Byte), s.takesNow .mailboxPurge slot copy →
    let room := param copy 8 2
    let scope := (s.mailbox room).list.filter fun i =>
      decide (param copy 10 1 = 0) || decide ((s.message i).state = .heard)
    let deferred := scope.filter fun i => decide (0 < (s.message i).readers)
    let chained := scope.filter fun i => decide ((s.message i).readers = 0) && decide (0 < (s.message i).blocks)
    let results := le 2 scope.length ++ le 2 deferred.length
    (∀ i ∈ (s.mailbox room).list, (s.message i).room = room ∧ (s.message i).state.listed = true) →
    ∃ t, exec .mailboxPurge s = .next t ∧ sameOuter s t ∧ OrderTaken s t slot copy ∧
      (t.mailbox room).list = (s.mailbox room).list.filter (fun i => decide (i ∉ scope)) ∧
      (scope ≠ [] → (s.mailbox room).counts = s.countsOf (s.mailbox room).list →
        ListFollows s t room fun i => i ∈ (s.mailbox room).list ∧ i ∉ scope) ∧
      ((s.mailbox room).list.Nodup → (t.mailbox room).places = (s.mailbox room).places - scope.length) ∧
      (∀ i ∈ scope, (t.message i).state = .deleting ∨ (t.message i).state = .free) ∧
      (∀ i, i ∉ scope → (t.message i).state = (s.message i).state) ∧
      (∀ q, q ≠ room → t.mailbox q = s.mailbox q ∧ t.lampOf q = s.lampOf q) ∧
      (∀ k, s.stillChannel k → t.channel k = s.channel k) ∧ t.rating = s.rating ∧
      (∃ l, t.store.releaseQueue = s.store.releaseQueue ++ l ∧
        l.Perm (chained.map fun i => ⟨(s.message i).first, (s.message i).blocks, i, .order slot⟩)) ∧
      (scope = [] → Answered s t slot copy .done false (le 2 0 ++ le 2 0)) ∧
      (chained = [] → Answered s t slot copy .done (decide (deferred ≠ [])) results) ∧
      (chained ≠ [] → Unanswered s t slot ∧ ∃ e, t.entryOf slot = some e ∧ e.left = chained.length ∧
        e.deferred = decide (deferred ≠ []) ∧ e.result = results)) ∧
  (∀ (s : State) (ret : Returned) (w : Walk) (e : ReleaseEntry) (rest : List ReleaseEntry) (slot : Nat) (n : InFlight),
    s.out = {} → s.returnOf Source.isWalk = some ret → s.store.walk = some w → s.store.releaseQueue = e :: rest →
    s.store.takeLine = [] → (w.remaining ≤ 1 ∨ s.profile.blocks ≤ headerNext ret.data) →
    e.cause = .order slot → s.entryOf slot = some n → n.stage = .executing →
    ∃ t, exec .walkHeaderRead s = .next t ∧ sameOuter s t ∧
      (1 < n.left → t.entryOf slot = some { n with left := n.left - 1 } ∧ Unanswered s t slot) ∧
      (n.left = 1 → lineGrew s t .directory [completionWrite s slot n.copy .done n.deferred n.result]))

/-- R103, R104, R105: LAMP OVERRIDE sets the override of every room its selector names and computes each pattern by
R90; LAMP FAULT CLEAR clears latch and mismatch count of every room it names. Both answer the rooms selected and those
changed; no other room's lamp changes. Result bytes that no rule gives, all 32 of them with a status other than DONE,
are 00h: log entry 34 (DESIGN CHOICE); bits of a slot that no layout names are 0: log entry 39 (DESIGN CHOICE). -/
def Obligations.LampOrdersActOnTheirSelection : Prop :=
  ∀ (s : State) (slot : Nat) (copy : List Byte) (rooms : List Nat), s.orderRooms copy = some rooms →
    (∀ v, s.takesNow .lampOverride slot copy → overrideOf (param copy 12 1) = some v →
      ∃ t n, exec .lampOverride s = .next t ∧ sameOuter s t ∧ OrderTaken s t slot copy ∧
        (∀ r ∈ rooms, (t.lampOf r).override = v ∧
          (t.lampOf r).pattern = effectivePattern v (s.roomShadow r).lampPresent (s.occupied r) (s.mailbox r) ∧
          ((s.lampOf r).override ≠ v → r ∈ t.lamp.marks)) ∧
        (∀ r, r ∉ rooms → t.lampOf r = s.lampOf r) ∧
        n = (rooms.filter fun r => decide ((t.lampOf r).pattern ≠ (s.lampOf r).pattern)).length ∧
        Answered s t slot copy .done false (le 2 rooms.length ++ le 2 n) ∧
        t.store = s.store ∧ t.rating = s.rating ∧ (∀ k, s.stillChannel k → t.channel k = s.channel k)) ∧
    (s.takesNow .lampFaultClear slot copy →
      ∃ t, exec .lampFaultClear s = .next t ∧ sameOuter s t ∧ OrderTaken s t slot copy ∧
        (∀ r ∈ rooms, (t.lampOf r).latch = .none ∧ (t.lampOf r).mismatch = 0 ∧
          (t.lampOf r).pattern = (s.lampOf r).pattern ∧ ((s.lampOf r).latch ≠ .none → r ∈ t.lamp.marks)) ∧
        (∀ r, r ∉ rooms → t.lampOf r = s.lampOf r) ∧
        Answered s t slot copy .done false (le 2 rooms.length
          ++ le 2 (rooms.filter fun r => decide ((s.lampOf r).latch ≠ .none)).length) ∧
        t.store = s.store ∧ t.rating = s.rating ∧ (∀ k, s.stillChannel k → t.channel k = s.channel k))

/-- (1) R139, R140, R143, R144: FOLIO ADJUST, stored: the folio's total takes the amount, saturating, and its list the
lowest free record; the queue takes the write of the ADJUST record (R135), with no next index, and then the link write
of the old tail, if there is one; the order waits for as many queue entries as were queued and is not answered. Not
stored, the folio is incomplete, POOL FULL is counted and raised with its cause, and the order DONE at once with no
record. FOLIO RELEASE: the CLOSED place is absent, its records are free, and DONE carries the count, the total, the
late count and the incomplete flag. (2) R140, R143: an entry whose burst has been written leaves the folio write
queue, and the FOLIO ADJUST that waited for its last entry is DONE. (3) R140: the grant of an entry raises the next
one; with none queued nothing is raised. (4) R138: the charge of a CLEARED call, as its tariff prices it, whose serial
is that of the CLOSED folio is late: the folio takes it with the LATE flag, its late count and the count of late
charges rise, LATE CHARGE is raised. One that no folio of its room holds, or of no room, is unbilled: no folio
changes, the count rises, UNBILLED CHARGE is raised. Result bytes that no rule gives, all 32 of them with a status
other than DONE, are 00h: log entry 34 (DESIGN CHOICE); digit nibbles past the digit count and bits of a record or a
slot that no layout names are 0: log entry 39 (DESIGN CHOICE). That a flag byte which R195 does not name is 01h set
and 00h clear is log entry 43 (DESIGN CHOICE). -/
def Obligations.FolioOrdersKeepTheAccounts : Prop :=
  (∀ (s : State) (slot : Nat) (copy : List Byte) (f : Folio),
     let r := param copy 8 2
     let total : Int := max (-2147483648) (min 2147483647 (f.total + signed32 (param copy 16 4)))
     (∀ k pool, s.takesNow .folioAdjust slot copy →
       (s.folios r).place (orderPlace copy) = some f → s.rating.freePool = k :: pool →
       f.entriesNeeded ≤ 64 - s.rating.queue.length →
       ∃ t, exec .folioAdjust s = .next t ∧ sameOuter s t ∧ OrderTaken s t slot copy ∧ Unanswered s t slot ∧
         (∃ e, t.entryOf slot = some e ∧ e.left = f.entriesNeeded ∧ e.deferred = false ∧
           e.result = le 4 f.serial ++ leInt 4 total ++ le 4 k) ∧
         (t.folios r).place (orderPlace copy) = some { f with total := total, records := f.records ++ [k] } ∧
         t.rating.freePool = pool ∧
         t.rating.queue = s.rating.queue ++ s.appendWrites f k
           { kind := .adjust, clockUnset := !s.time.clockSet, trunk := 0xFFFF, room := r, serial := f.serial
             stamp := s.stamp, amount := signed32 (param copy 16 4), reason := param copy 12 2 } (some slot) ∧
         r ∈ t.rating.marks ∧ (∀ q, q ≠ r → t.folios q = s.folios q) ∧ t.store = s.store ∧ t.lamp = s.lamp ∧
         (∀ k, s.stillChannel k → t.channel k = s.channel k)) ∧
     (s.takesNow .folioAdjust slot copy → (s.folios r).place (orderPlace copy) = some f →
       s.rating.freePool = [] ∨ 64 - s.rating.queue.length < f.entriesNeeded →
       ∃ t, exec .folioAdjust s = .next t ∧ sameOuter s t ∧ OrderTaken s t slot copy ∧
         (t.folios r).place (orderPlace copy) = some { f with total := total, incomplete := true } ∧
         t.rating.freePool = s.rating.freePool ∧ t.rating.queue = s.rating.queue ∧
         t.rating.poolFullCount = sat32 s.rating.poolFullCount ∧ (∀ q, q ≠ r → t.folios q = s.folios q) ∧
         r ∈ t.rating.marks ∧
         (s.enabled .poolFull = true → s.notices.queue.length < 16 →
           ⟨.poolFull, r, s.stamp, f.serial, if s.rating.freePool = [] then 1 else 2⟩ ∈ t.notices.queue) ∧
         Answered s t slot copy .done false (le 4 f.serial ++ leInt 4 total ++ le 4 0xFFFFFFFF)) ∧
     (s.takesNow .folioRelease slot copy → (s.folios r).closed = some f →
       ∃ t, exec .folioRelease s = .next t ∧ sameOuter s t ∧ OrderTaken s t slot copy ∧
         t.folios r = { s.folios r with closed := none } ∧ (∀ k ∈ f.records, k ∈ t.rating.freePool) ∧
         (∀ k ∈ s.rating.freePool, k ∈ t.rating.freePool) ∧
         r ∈ t.rating.marks ∧ (∀ q, q ≠ r → t.folios q = s.folios q) ∧ t.store = s.store ∧ t.lamp = s.lamp ∧
         (∀ k, s.stillChannel k → t.channel k = s.channel k) ∧
         Answered s t slot copy .done false
           (le 4 f.records.length ++ leInt 4 f.total ++ le 2 f.late ++ boolByte f.incomplete))) ∧
  (∀ (s : State) (ret : Returned) (e : FolioWrite) (rest : List FolioWrite), s.out = {} → s.rating.queue = e :: rest →
     s.returnOf Source.isFolioQueue = some ret →
     (e.order = none →
       Completes .folioQueueWriteDone s
         { takeReturn Source.isFolioQueue s with
           rating := { s.rating with queue := rest, queueGranted := s.rating.queueGranted - 1 } }) ∧
     (∀ slot en, e.order = some slot → s.entryOf slot = some en → en.left ≤ 1 →
       ∃ t, exec .folioQueueWriteDone s = .next t ∧ sameOuter s t ∧ t.rating.queue = rest ∧
         lineGrew s t .directory [completionWrite s slot en.copy .done en.deferred en.result]) ∧
     (∀ slot en, e.order = some slot → s.entryOf slot = some en → 1 < en.left → en.stage = .executing →
       ∃ t, exec .folioQueueWriteDone s = .next t ∧ sameOuter s t ∧ t.rating.queue = rest ∧ Unanswered s t slot ∧
         t.entryOf slot = some { en with left := en.left - 1 })) ∧
  (∀ (s : State) (d : Decision) (r : Request), s.out = {} → s.decision = some d → s.granted = some r →
     r.source = .folioQueue →
     let n := s.rating.queueGranted + 1
     let u := carry r (settleGrant d s)
     (∀ w, s.rating.queue[n]? = some w →
       Completes .arbiterDecision s
         { u with
           rating := { s.rating with queueRaised := true, queueGranted := n }
           out.requests := [{ source := .folioQueue, write := true, addr := w.addr, beats := w.lanes.length / 8
                              lanes := w.lanes }] }) ∧
     (s.rating.queue[n]? = none →
       Completes .arbiterDecision s { u with rating := { s.rating with queueRaised := false, queueGranted := n } })) ∧
  (∀ (s : State) (k : Nat) (es : List (Nat × Byte)) (i : Nat), s.out = {} → s.leavesCarrying [.trunk k es] →
     s.control.state = .active → (s.trunkShadow k).loaded = true → es.any (fun e => decide (e.1 = 0)) = true →
     byteAt (mergeBytes trunkField (s.trunkShadow k).bytes es) 0 = 3#8 →
     (s.trunk k).state = .answered → (s.trunk k).incoming = false → s.matchTariff (s.trunk k).digits = some i →
     let room := (s.trunk k).room
     let serial := (s.trunk k).serial
     let c := priceBy (s.tariffShadow i) i (s.time.elapsed - (s.trunk k).answerCount).toNat (callCharge k false s)
     (∀ g rec pool, room < s.roomCount → serial ≠ 0 → (∀ f, (s.folios room).opened = some f → f.serial ≠ serial) →
       (s.folios room).closed = some g → g.serial = serial → s.rating.freePool = rec :: pool →
       g.entriesNeeded ≤ 64 - s.rating.queue.length →
       ∃ t, exec .trunkClear s = .next t ∧ leavesMemory s t ∧ (t.trunk k).state = .idle ∧
         t.folios room = { s.folios room with closed := some { g with
           total := max (-2147483648) (min 2147483647 (g.total + c.amount)), records := g.records ++ [rec]
           late := min 65535 (g.late + 1) } } ∧
         (∀ q, q ≠ room → t.folios q = s.folios q) ∧
         t.rating.lateCount = sat32 s.rating.lateCount ∧ t.rating.freePool = pool ∧ room ∈ t.rating.marks ∧
         t.rating.queue = s.rating.queue ++ s.appendWrites g rec { c with late := true } none ∧
         (s.enabled .lateCharge = true → s.notices.queue.length < 16 →
           ⟨.lateCharge, room, s.stamp, g.serial, word32 c.amount⟩ ∈ t.notices.queue)) ∧
     ((s.roomCount ≤ room ∨ serial = 0 ∨
         ((∀ f, (s.folios room).opened = some f → f.serial ≠ serial) ∧
          ∀ g, (s.folios room).closed = some g → g.serial ≠ serial)) →
       ∃ t, exec .trunkClear s = .next t ∧ leavesMemory s t ∧ (t.trunk k).state = .idle ∧
         t.rating.folios = s.rating.folios ∧ t.rating.queue = s.rating.queue ∧ t.rating.freePool = s.rating.freePool ∧
         t.rating.unbilledCount = sat32 s.rating.unbilledCount ∧
         (s.enabled .unbilledCharge = true → s.notices.queue.length < 16 →
           ⟨.unbilledCharge, if room < s.roomCount then room else 0xFFFF, s.stamp, twoItems k c.kind.code,
             word32 c.amount⟩ ∈ t.notices.queue)))

/-- R182: CLOCK SET: the day and the clock of day become those given and the clock-set flag is set; elapsed count and
frame counter are not changed; DONE carries the three values held just before. Result bytes that no rule gives, all 32
of them with a status other than DONE, are 00h: log entry 34 (DESIGN CHOICE); bits of a slot that no layout names are
0: log entry 39 (DESIGN CHOICE). That a flag byte which R195 does not name is 01h set and 00h clear is log entry 43
(DESIGN CHOICE). -/
def Obligations.ClockSetSetsTheClock : Prop :=
  ∀ (s : State) (slot : Nat) (copy : List Byte), s.takesNow .clockSet slot copy →
    ∃ t, exec .clockSet s = .next t ∧ OrderTaken s t slot copy ∧ t.mem = s.mem ∧ t.frame = s.frame ∧
      t.time = { s.time with
        day := BitVec.ofNat 16 (param copy 8 2), clock := param copy 12 4, clockSet := true } ∧
      t.time.clock < 864000 ∧
      Answered s t slot copy .done false
        (le 2 s.time.day.toNat ++ zeros 2 ++ le 4 s.time.clock ++ le 1 (if s.time.clockSet then 1 else 0)) ∧
      t.store = s.store ∧ t.rating = s.rating ∧ t.lamp = s.lamp ∧ t.control = s.control ∧
      (∀ k, s.stillChannel k → t.channel k = s.channel k)

/-! ### Samples of a recording -/

/-- (1) R53: a host write that lies in one part in the voice aperture space gives its 2-byte positions to the part one by
one, lowest address first, and leaves. (2) R48, R53, R54: what one position does: one of a play aperture, or one with
no byte enabled, nothing; one with one byte enabled, or a sample to a channel that is not RECORDING, is refused and
counted; a sample that finds no filling buffer is dropped, counted, and leaves a pending gap. (3) R51, R3, R4, R6:
otherwise it is coded into code position k of the filling block, and prediction, step index, sample count, position
and accepted count follow. (4) R51, R56: the sample that reaches the record length limit stops the recording for
LENGTH: the block is written with no next block and the message is truncated. (5) R52, R23: the 1008th sample makes
the buffer FULL and asks for a block: with one ready the full block is written naming it, and it becomes FILLING in
the other buffer, or waits for it; with none ready the request joins the take line and nothing is written; refused,
the block is written with no next block and the recording stops for STORE FULL or QUOTA. -/
def Obligations.RecordSamplesAreCodedOrCounted : Prop :=
  (∀ (s : State) (req : HostRequest) (w : HeadWork) (p : Part), s.out = {} → s.atVoice true = some (req, w) →
     w.mode = .active → w.parts = [p] → s.inAperture w.mode p = true →
     s.observations w.mode req = [] → s.guardedBytes w.mode req = [] →
     ∃ t, exec .recordApertureWrite s = .next t ∧ sameOuter s t ∧
       EndsAs { (List.range (p.lanes.length / 2)).foldl (fun u j =>
                  takePosition (s.apertureOffset p.addr + 2 * j) (p.lanes.getD (2 * j) none)
                    (p.lanes.getD (2 * j + 1) none) u) s with
                host := { s.host with fifo := s.host.fifo.tail, head := none } } t) ∧
  (∀ (s : State) (off : Nat) (a b : Option Byte), 32768 ≤ off % 65536 → takePosition off a b s = s) ∧
  (∀ (s : State) (ch off : Nat) (lo hi : Byte), off / 65536 = ch → off % 65536 < 32768 →
     let c := s.channel ch
     let x := signed16 (lo.toNat + 256 * hi.toNat)
     let refused := s.setChannel ch { c with refused := sat32 c.refused }
     takePosition off none none s = s ∧
     takePosition off (some lo) none s = refused ∧ takePosition off none (some hi) s = refused ∧
     (c.dir ≠ .record ∨ c.state ≠ .recording → takePosition off (some lo) (some hi) s = refused) ∧
     (c.dir = .record → c.state = .recording → c.bufferIn .filling = none →
       takePosition off (some lo) (some hi) s = s.setChannel ch { c with dropped := sat32 c.dropped, pendingGap := true }) ∧
     (∀ b, c.dir = .record → c.state = .recording → c.bufferIn .filling = some b →
       let code := encodeSample c.prediction c.stepIndex x
       let data := putCode (c.buffer b).data c.sampleCount code
       let coded : Channel :=
         { c.setBuffer b { c.buffer b with data := data } with
           prediction := nextPrediction c.prediction c.stepIndex code, stepIndex := nextIndex c.stepIndex code
           sampleCount := c.sampleCount + 1, position := c.position + 1, accepted := sat32 c.accepted }
       let t := takePosition off (some lo) (some hi) s
       let m := s.message c.index
       let d := t.channel ch
       let n := t.message c.index
       let written (next : Nat) : Prop :=
         (d.buffer b).cond = .writing ∧ d.writes = c.writes + 1 ∧
         ∀ k < 8, { source := .blockWrite ch b k, write := true
                    addr := s.profile.storeBase + 512 * (c.buffer b).block + 64 * k, beats := 8
                    lanes := allLanes (slice
                      (blockHeader next c.startPred c.startIndex c.blockGap (c.sampleCount + 1) ++ data.drop 8)
                      (64 * k) 64) } ∈ t.out.requests
       let stopped (reason : StopReason) (code : Nat) : Prop :=
         d.state = .stopped ∧ d.stopReason = reason ∧ n.length = c.position + 1 ∧ n.truncated = true ∧ written none32 ∧
         (s.enabled .recordingStopped = true →
           (Requester.directory, ⟨.recordingStopped, m.room, s.stamp, twoItems ch code, c.position + 1⟩) ∈ t.out.notices)
       let few := s.freeCount ≤ if m.urgent then 0 else s.profile.reserve
       let beyond := (if (s.roomShadow m.room).quota = 0 then s.profile.defaultQuota else (s.roomShadow m.room).quota)
         < (s.mailbox m.room).blocksUsed + 1
       (c.position + 1 = 800 * s.profile.recordLimit → stopped .length 3) ∧
       (c.position + 1 ≠ 800 * s.profile.recordLimit →
         (c.sampleCount + 1 ≠ 1008 → t = s.setChannel ch coded) ∧
         (c.sampleCount + 1 = 1008 → (c.buffer (!b)).cond ≠ .full →
           n.length = c.position + 1 ∧
           (few → stopped .storeFull 1) ∧ (¬few → beyond → stopped .quota 2) ∧
           (¬few → ¬beyond → takeReady s.store.pocket = none →
             d = coded.setBuffer b { coded.buffer b with cond := .full } ∧
             t.store.takeLine = s.store.takeLine ++ [ch] ∧ t.raisedFor .voice = s.raisedFor .voice) ∧
           (∀ block rest, ¬few → ¬beyond → takeReady s.store.pocket = some (block, rest) →
             d.state = .recording ∧ written block ∧ t.store.pocket = rest ∧ n.blocks = m.blocks + 1 ∧
             (t.mailbox m.room).blocksUsed = (s.mailbox m.room).blocksUsed + 1 ∧
             ((c.buffer (!b)).cond = .empty →
               d.buffer (!b) = ⟨block, .filling, zeros 512⟩ ∧ d.startPred = coded.prediction ∧
               d.startIndex = coded.stepIndex ∧ d.sampleCount = 0 ∧ d.blockGap = c.pendingGap ∧ d.pendingGap = false) ∧
             ((c.buffer (!b)).cond ≠ .empty → d.waitingBlock = some block))))))

/-! ### The notice ring -/

/-- R184: the oldest notice is written into slot p in one 32-byte burst, and then the header with p raised by 1; with
the ring full it is dropped: the overflow flag is set, the dropped count rises, and the header is written. p itself
advances at the header's grant. One notice at a time, and a header write at every drop, also where flag and count no
longer change, are log entry 22 (DEDUCED). That a flag byte which R195 does not name is 01h set and 00h clear is log
entry 43 (DESIGN CHOICE). -/
def Obligations.NoticeIsWrittenOrDropped : Prop :=
  ∀ (s : State) (n : Notice) (rest : List Notice), s.out = {} → s.notices.isOpen = true → s.notices.writing = false →
    s.notices.queue = n :: rest →
    ((s.notices.producer + 1) % s.profile.noticeSlots ≠ s.notices.consumer →
      Completes .noticeWrite s
        { s with
          notices := { s.notices with queue := rest, writing := true }
          out.requests :=
            [{ source := .noticeSlot, write := true, addr := s.profile.noticeBase + 64 + 32 * s.notices.producer, beats := 4
               lanes := allLanes (le 1 n.kind.code ++ zeros 1 ++ le 2 n.room ++ le 2 n.stamp.day.toNat
                 ++ boolByte n.stamp.clockSet ++ zeros 1 ++ le 4 n.stamp.clock ++ le 4 n.detail1 ++ le 4 n.detail2
                 ++ zeros 12) },
             { source := .noticeHeader true, write := true, addr := s.profile.noticeBase, beats := 4 }] }) ∧
    ((s.notices.producer + 1) % s.profile.noticeSlots = s.notices.consumer →
      Completes .noticeWrite s
        { s with
          notices := { s.notices with
            queue := rest, overflow := true
            dropped := if s.notices.dropped ≥ 0xFFFFFFFF then 0xFFFFFFFF else s.notices.dropped + 1 }
          out.requests := [{ source := .noticeHeader false, write := true, addr := s.profile.noticeBase, beats := 4 }] })
end

