-- ==== Sys2Proof/Laws/Table.lean ====
section
/-! SUPPORT. Laws of tables and of backing memory: reading after writing, and the canonical form kept. -/

namespace Sys2Proof.Machine

/-! ### Reading after writing -/

theorem Table.get_erase_ne {α : Type} (d : α) (t : Table α) {i j : Nat} (h : j ≠ i) :
    Table.get d (Table.erase t i) j = Table.get d t j := by
  induction t with
  | nil => rfl
  | cons e t ih =>
    obtain ⟨k, v⟩ := e
    by_cases hk : k = i
    · subst hk
      simp only [Table.erase, ne_eq, decide_not, List.filter_cons, decide_true, Bool.not_true,
        Bool.false_eq_true, ↓reduceIte, Table.get, Ne.symm h] at ih ⊢
      exact ih
    · by_cases hj : k = j
      · simp [Table.erase, Table.get, hj, h]
      · have : Table.get d (Table.erase ((k, v) :: t) i) j = Table.get d (Table.erase t i) j := by
          simp [Table.erase, Table.get, hk, hj]
        rw [this, ih]; simp [Table.get, hj]

theorem Table.get_erase_same {α : Type} (d : α) (t : Table α) (i : Nat) :
    Table.get d (Table.erase t i) i = d := by
  induction t with
  | nil => rfl
  | cons e t ih =>
    obtain ⟨k, v⟩ := e
    by_cases hk : k = i
    · simpa [Table.erase, hk] using ih
    · have : Table.get d (Table.erase ((k, v) :: t) i) i = Table.get d (Table.erase t i) i := by
        simp [Table.erase, Table.get, hk]
      rw [this, ih]

theorem Table.get_insert_ne {α : Type} (d : α) (t : Table α) (v : α) {i j : Nat} (h : j ≠ i) :
    Table.get d (Table.insert t i v) j = Table.get d t j := by
  induction t with
  | nil => simp [Table.insert, Table.get, Ne.symm h]
  | cons e t ih =>
    obtain ⟨k, w⟩ := e
    by_cases hk : i < k
    · simp [Table.insert, hk, Table.get, Ne.symm h]
    · simp [Table.insert, hk, Table.get, ih]

/-- The table lists nothing at `i`. -/
def Table.lacks {α : Type} (t : Table α) (i : Nat) : Prop := ∀ e ∈ t, e.1 ≠ i

theorem Table.erase_lacks {α : Type} (t : Table α) (i : Nat) : Table.lacks (Table.erase t i) i := by
  intro e he
  simpa using (List.mem_filter.1 he).2

theorem Table.get_insert_same {α : Type} (d : α) (t : Table α) (i : Nat) (v : α) (h : Table.lacks t i) :
    Table.get d (Table.insert t i v) i = v := by
  induction t with
  | nil => simp [Table.insert, Table.get]
  | cons e t ih =>
    obtain ⟨k, w⟩ := e
    have hk : k ≠ i := h (k, w) (by simp)
    have ht : Table.lacks t i := fun e he => h e (by simp [he])
    by_cases hi : i < k
    · simp [Table.insert, hi, Table.get]
    · simp [Table.insert, hi, Table.get, hk, ih ht]

/-- Reading what was just written. -/
@[simp] theorem Table.get_set_same {α : Type} [DecidableEq α] (d : α) (t : Table α) (i : Nat) (v : α) :
    Table.get d (Table.set d t i v) i = v := by
  unfold Table.set
  split
  · next h => rw [Table.get_erase_same, h]
  · exact Table.get_insert_same d _ i v (Table.erase_lacks t i)

/-- A write leaves every other key alone. -/
theorem Table.get_set_ne {α : Type} [DecidableEq α] (d : α) (t : Table α) (v : α) {i j : Nat} (h : j ≠ i) :
    Table.get d (Table.set d t i v) j = Table.get d t j := by
  unfold Table.set
  split
  · exact Table.get_erase_ne d t h
  · rw [Table.get_insert_ne d _ v h, Table.get_erase_ne d t h]

/-- Reading after writing, both cases at once. -/
theorem Table.get_set {α : Type} [DecidableEq α] (d : α) (t : Table α) (i j : Nat) (v : α) :
    Table.get d (Table.set d t i v) j = if j = i then v else Table.get d t j := by
  by_cases h : j = i
  · subst h; simp
  · simp [h, Table.get_set_ne d t v h]

/-! ### The canonical form -/

theorem Table.rising_cons {α : Type} (k : Nat) (v : α) (t : Table α) :
    Table.rising ((k, v) :: t) = true ↔ (∀ e ∈ t, k < e.1) ∧ Table.rising t = true := by
  induction t generalizing k v with
  | nil => simp [Table.rising]
  | cons e t ih =>
    obtain ⟨k', v'⟩ := e
    simp only [Table.rising, Bool.and_eq_true, decide_eq_true_eq]
    constructor
    · rintro ⟨h1, h2⟩
      refine ⟨?_, h2⟩
      intro e he
      rcases List.mem_cons.1 he with rfl | he
      · exact h1
      · exact lt_trans h1 (((ih k' v').1 h2).1 e he)
    · rintro ⟨h1, h2⟩
      exact ⟨h1 (k', v') (by simp), h2⟩

theorem Table.rising_erase {α : Type} (t : Table α) (i : Nat) (h : Table.rising t = true) :
    Table.rising (Table.erase t i) = true := by
  induction t with
  | nil => simp [Table.erase, Table.rising]
  | cons e t ih =>
    obtain ⟨k, v⟩ := e
    obtain ⟨h1, h2⟩ := (Table.rising_cons k v t).1 h
    by_cases hk : k = i
    · simpa [Table.erase, hk] using ih h2
    · have : Table.erase ((k, v) :: t) i = (k, v) :: Table.erase t i := by simp [Table.erase, hk]
      rw [this, Table.rising_cons]
      exact ⟨fun e he => h1 e (List.mem_filter.1 he).1, ih h2⟩

theorem Table.mem_insert {α : Type} (t : Table α) (i : Nat) (v : α) (e : Nat × α) :
    e ∈ Table.insert t i v ↔ e = (i, v) ∨ e ∈ t := by
  induction t with
  | nil => simp [Table.insert]
  | cons e' t ih =>
    obtain ⟨k, w⟩ := e'
    by_cases hi : i < k
    · simp [Table.insert, hi]
    · simp [Table.insert, hi, ih]; tauto

theorem Table.rising_insert {α : Type} (t : Table α) (i : Nat) (v : α) (hl : Table.lacks t i)
    (h : Table.rising t = true) : Table.rising (Table.insert t i v) = true := by
  induction t with
  | nil => simp [Table.insert, Table.rising]
  | cons e t ih =>
    obtain ⟨k, w⟩ := e
    obtain ⟨h1, h2⟩ := (Table.rising_cons k w t).1 h
    have hk : k ≠ i := hl (k, w) (by simp)
    by_cases hi : i < k
    · rw [Table.insert, if_pos hi, Table.rising_cons]
      refine ⟨?_, h⟩
      intro e he
      rcases List.mem_cons.1 he with rfl | he
      · exact hi
      · exact lt_trans hi (h1 e he)
    · rw [Table.insert, if_neg hi, Table.rising_cons]
      refine ⟨?_, ih (fun e he => hl e (by simp [he])) h2⟩
      intro e he
      rcases (Table.mem_insert t i v e).1 he with rfl | he
      · show k < i
        omega
      · exact h1 e he

/-- A write keeps the canonical form. -/
theorem Table.wf_set {α : Type} [DecidableEq α] (d : α) (t : Table α) (i : Nat) (v : α)
    (h : Table.wf d t = true) : Table.wf d (Table.set d t i v) = true := by
  unfold Table.wf at h ⊢
  rw [Bool.and_eq_true, List.all_eq_true] at h ⊢
  unfold Table.set
  split
  · exact ⟨Table.rising_erase t i h.1, fun e he => h.2 e (List.mem_filter.1 he).1⟩
  · next hv =>
    refine ⟨Table.rising_insert _ i v (Table.erase_lacks t i) (Table.rising_erase t i h.1), ?_⟩
    intro e he
    rcases (Table.mem_insert _ i v e).1 he with rfl | he
    · simpa using hv
    · exact h.2 e (List.mem_filter.1 he).1

/-! ### Backing memory -/

theorem readByte_writeByte_same (m : Table Byte) (a : Nat) (b : Byte) :
    readByte (writeByte m a b) a = b := by simp [readByte, writeByte]

theorem readByte_writeByte_ne (m : Table Byte) {a c : Nat} (b : Byte) (h : c % 2 ^ 34 ≠ a % 2 ^ 34) :
    readByte (writeByte m a b) c = readByte m c := by
  unfold readByte writeByte
  exact Table.get_set_ne _ _ _ h

/-- A write burst leaves every byte outside its lanes alone. -/
theorem readByte_writeLanes_outside (m : Table Byte) (a : Nat) (ls : List (Option Byte)) (c : Nat)
    (h : ∀ k < ls.length, c % 2 ^ 34 ≠ (a + k) % 2 ^ 34) : readByte (writeLanes m a ls) c = readByte m c := by
  induction ls generalizing m a with
  | nil => rfl
  | cons l ls ih =>
    have h0 : c % 2 ^ 34 ≠ a % 2 ^ 34 := by simpa using h 0 (by simp)
    have ht : ∀ k < ls.length, c % 2 ^ 34 ≠ (a + 1 + k) % 2 ^ 34 := fun k hk => by
      have := h (k + 1) (by simpa using hk)
      rwa [show a + 1 + k = a + (k + 1) by omega]
    cases l with
    | none => exact ih m (a + 1) ht
    | some b =>
      rw [writeLanes, ih (writeByte m a b) (a + 1) ht, readByte_writeByte_ne m b h0]

/-- A write burst puts its enabled bytes in, and leaves a byte whose lane is not enabled alone. -/
theorem readByte_writeLanes_inside (m : Table Byte) (a : Nat) (ls : List (Option Byte)) (k : Nat)
    (hk : k < ls.length) (hw : a + ls.length ≤ 2 ^ 34) :
    readByte (writeLanes m a ls) (a + k) = (ls.getD k none).getD (readByte m (a + k)) := by
  induction ls generalizing m a k with
  | nil => simp at hk
  | cons l ls ih =>
    simp only [List.length_cons] at hw hk
    cases k with
    | zero =>
      simp only [Nat.add_zero]
      have hout : ∀ j < ls.length, a % 2 ^ 34 ≠ (a + 1 + j) % 2 ^ 34 := by
        intro j hj; rw [Nat.mod_eq_of_lt (by omega), Nat.mod_eq_of_lt (by omega)]; omega
      cases l with
      | none => simpa [writeLanes] using readByte_writeLanes_outside m (a + 1) ls a hout
      | some b =>
        rw [writeLanes, readByte_writeLanes_outside _ (a + 1) ls a hout,
          readByte_writeByte_same]
        rfl
    | succ k =>
      have hne : (a + (k + 1)) % 2 ^ 34 ≠ a % 2 ^ 34 := by
        rw [Nat.mod_eq_of_lt (by omega), Nat.mod_eq_of_lt (by omega)]; omega
      have e : a + (k + 1) = a + 1 + k := by omega
      cases l with
      | none => simpa [writeLanes, e] using ih m (a + 1) k (by omega) (by omega)
      | some b =>
        have h1 := ih (writeByte m a b) (a + 1) k (by omega) (by omega)
        rw [← e] at h1
        rw [writeLanes, h1, readByte_writeByte_ne m b hne]
        simp

theorem Memory.wf_writeByte (m : Table Byte) (a : Nat) (b : Byte) (h : Memory.wf m = true) :
    Memory.wf (writeByte m a b) = true := Table.wf_set _ _ _ _ h

/-- A write burst keeps the canonical form of memory. -/
theorem Memory.wf_writeLanes (m : Table Byte) (a : Nat) (ls : List (Option Byte))
    (h : Memory.wf m = true) : Memory.wf (writeLanes m a ls) = true := by
  induction ls generalizing m a with
  | nil => exact h
  | cons l ls ih =>
    cases l with
    | none => exact ih m (a + 1) h
    | some b => exact ih _ (a + 1) (Memory.wf_writeByte m a b h)

/-- A key the table does not list reads as the default. -/
theorem Table.get_of_lacks {α : Type} (d : α) (t : Table α) (i : Nat) (h : Table.lacks t i) :
    Table.get d t i = d := by
  induction t with
  | nil => rfl
  | cons e t ih =>
    obtain ⟨k, v⟩ := e
    have hk : k ≠ i := h (k, v) (by simp)
    simp [Table.get, hk, ih fun e he => h e (by simp [he])]

end Sys2Proof.Machine
end

