-- ==== Sys2Proof/Laws/Base.lean ====
section
/-! SUPPORT. What the engines leave alone: `State.base` is everything that is no engine's own. -/

namespace Sys2Proof.Machine

/-- What is no engine's own: the queue of commands, straps, frame counter, memory, time base, profile control,
host path, arbiter and notices. -/
def State.base (s : State) :
    (List Instr × BitVec 3 × BitVec 32 × Table Byte × TimeBase) × Control × HostPath × Arbiter × Notices :=
  ((s.pending, s.straps, s.frame, s.mem, s.time), s.control, s.host, s.arbiter, s.notices)

/-- What only a tenth-second event, CLOCK SET, a granted write or a reset changes. -/
def State.outer (s : State) : List Instr × BitVec 3 × BitVec 32 × Table Byte × TimeBase :=
  (s.pending, s.straps, s.frame, s.mem, s.time)

/-- A change of the engines' own fields, of the outbox or of the count of choices keeps the base. -/
@[simp] theorem State.base_mk (g : State) (v : Voice) (st : Store) (r : Ring) (ra : Rating) (l : LampEngine)
    (o : Outbox) (c : Nat) :
    State.base { g with voice := v, store := st, ring := r, rating := ra, lamp := l, out := o, choices := c }
      = g.base := rfl

/-- A change of any other field keeps the outer view. -/
@[simp] theorem State.outer_mk (g : State) (ctl : Control) (h : HostPath) (ar : Arbiter) (v : Voice)
    (st : Store) (r : Ring) (n : Notices) (ra : Rating) (l : LampEngine) (o : Outbox) (c : Nat) :
    State.outer { g with
      control := ctl, host := h, arbiter := ar, voice := v, store := st, ring := r, notices := n, rating := ra
      lamp := l, out := o, choices := c } = g.outer := rfl

theorem State.outer_of_base {s t : State} (h : t.base = s.base) : t.outer = s.outer := congrArg Prod.fst h

/-- A fold of steps that each keep a view of the state keeps it. -/
theorem foldl_keeps {α β : Type} (v : State → β) (f : State → α → State) (h : ∀ t a, v (f t a) = v t)
    (l : List α) (s : State) : v (l.foldl f s) = v s := by
  induction l generalizing s with
  | nil => rfl
  | cons a l ih => rw [List.foldl_cons, ih, h]

/-! ### A read leaves -/

/-- What a read is given past the end of the address space costs open choices, and gives a byte in each enabled lane. -/
theorem givePast_eq (ls : List (Option Byte)) (s : State) :
    (∃ c, (givePast ls s).2 = { s with choices := c }) ∧
    (givePast ls s).1.map Option.isSome = ls.map Option.isSome := by
  induction ls generalizing s with
  | nil => exact ⟨⟨_, rfl⟩, rfl⟩
  | cons l ls ih =>
    cases l with
    | none => exact ⟨(ih s).1, congrArg (false :: ·) (ih s).2⟩
    | some b =>
      obtain ⟨⟨c, h⟩, hl⟩ := ih (choose 256 s).2
      exact ⟨⟨c, h⟩, congrArg (true :: ·) hl⟩

/-- A read that leaves: it is answered, the FIFO moves on, and nothing but the count of choices changes beside. -/
theorem leaveRead_eq (req : HostRequest) (answer : List (Option Byte)) (s : State) :
    ∃ past c, past.map Option.isSome = (pastLanes req).map Option.isSome ∧ leaveRead req answer s =
      { s with
        host.fifo := s.host.fifo.tail, host.head := none, host.answers := s.host.answers ++ [answer ++ past]
        choices := c } := by
  obtain ⟨⟨c, h⟩, hl⟩ := givePast_eq (pastLanes req) s
  refine ⟨_, c, hl, ?_⟩
  unfold leaveRead
  dsimp only
  rw [h]

end Sys2Proof.Machine
end

