-- ==== Sys2Proof/Laws/Engines.lean ====
section
/-! SUPPORT. What the engines leave alone (1): the store and the channels keep the base. -/

namespace Sys2Proof.Machine

@[simp] theorem State.setChannel_base (s : State) (c : Nat) (v : Channel) :
    (State.setChannel s c v).base = s.base := rfl

@[simp] theorem State.setMessage_base (s : State) (i : Nat) (v : Message) :
    (State.setMessage s i v).base = s.base := rfl

@[simp] theorem State.setMailbox_base (s : State) (r : Nat) (v : Mailbox) :
    (State.setMailbox s r v).base = s.base := rfl

@[simp] theorem State.setTrunk_base (s : State) (t : Nat) (v : Trunk) :
    (State.setTrunk s t v).base = s.base := rfl

@[simp] theorem State.setFolios_base (s : State) (r : Nat) (v : RoomFolios) :
    (State.setFolios s r v).base = s.base := rfl

@[simp] theorem State.setLamp_base (s : State) (r : Nat) (v : Lamp) :
    (State.setLamp s r v).base = s.base := rfl

@[simp] theorem State.setCard_base (s : State) (k : Nat) (v : Card) :
    (State.setCard s k v).base = s.base := rfl

@[simp] theorem raise_base (r : Request) (s : State) :
    (raise r s).base = s.base := rfl

@[simp] theorem raiseAll_base (rs : List Request) (s : State) :
    (raiseAll rs s).base = s.base := rfl

@[simp] theorem notify_base (who : Requester) (k : NoticeKind) (room detail1 detail2 : Nat) (s : State) :
    (notify who k room detail1 detail2 s).base = s.base := by
  unfold notify
  split <;> simp

@[simp] theorem beginStep_base (s : State) :
    (beginStep s).base = s.base := rfl

@[simp] theorem markMail_base (r : Nat) (s : State) :
    (markMail r s).base = s.base := rfl

@[simp] theorem markFolio_base (r : Nat) (s : State) :
    (markFolio r s).base = s.base := rfl

@[simp] theorem markLamp_base (r : Nat) (s : State) :
    (markLamp r s).base = s.base := rfl

@[simp] theorem recomputeLamp_base (r : Nat) (s : State) :
    (recomputeLamp r s).base = s.base := by
  unfold recomputeLamp
  dsimp only
  (repeat' split) <;> simp

@[simp] theorem setOverride_base (o : Override) (r : Nat) (s : State) :
    (setOverride o r s).base = s.base := by
  unfold setOverride
  dsimp only
  (repeat' split) <;> simp

@[simp] theorem clearDesk_base (r : Nat) (s : State) :
    (clearDesk r s).base = s.base := by
  unfold clearDesk
  dsimp only
  (repeat' split) <;> simp

@[simp] theorem recordWrite_base (i : Nat) (s : State) :
    (recordWrite i s).base = s.base := by
  unfold recordWrite
  split <;> simp

@[simp] theorem updateMessage_base (i : Nat) (m : Message) (s : State) :
    (updateMessage i m s).base = s.base := by simp [updateMessage]

@[simp] theorem freeRecord_base (i : Nat) (s : State) :
    (freeRecord i s).base = s.base := by
  unfold freeRecord
  dsimp only
  (repeat' split) <;> simp

@[simp] theorem relink_base (list : List Nat) (i : Nat) (s : State) :
    (relink list i s).base = s.base := by
  unfold relink
  dsimp only
  (repeat' split) <;> simp

@[simp] theorem setList_base (r : Nat) (list : List Nat) (s : State) : (setList r list s).base = s.base := by
  unfold setList
  dsimp only
  have h := foldl_keeps State.base (fun t i => relink list i t) (fun t i => relink_base list i t)
    ((s.mailbox r).list ++ list) s
  split
  · rw [markMail_base, State.setMailbox_base, h]
  · rw [recomputeLamp_base, markMail_base, State.setMailbox_base, h]

@[simp] theorem setPlaces_base (r n : Nat) (s : State) :
    (setPlaces r n s).base = s.base := rfl

@[simp] theorem setBlocksUsed_base (r n : Nat) (s : State) :
    (setBlocksUsed r n s).base = s.base := rfl

@[simp] theorem moveMessage_base (i : Nat) (st : MessageState) (s : State) :
    (moveMessage i st s).base = s.base := by simp [moveMessage]

@[simp] theorem storeLowAfterTake_base (n : Nat) (s : State) :
    (storeLowAfterTake n s).base = s.base := by
  unfold storeLowAfterTake
  dsimp only
  (repeat' split) <;> simp

@[simp] theorem evalTake_base (i : Nat) (s : State) : (evalTake i s).2.base = s.base := by
  unfold evalTake
  dsimp only
  (repeat' split) <;> simp

@[simp] theorem releaseBlock_base (b : Nat) (s : State) :
    (releaseBlock b s).base = s.base := by
  unfold releaseBlock
  dsimp only
  (repeat' split) <;> simp

@[simp] theorem raiseWalk_base (w : Walk) (s : State) :
    (raiseWalk w s).base = s.base := rfl

@[simp] theorem startWalk_base (s : State) :
    (startWalk s).base = s.base := by
  unfold startWalk
  split <;> simp

@[simp] theorem queueChain_base (i : Nat) (cause : Cause) (s : State) :
    (queueChain i cause s).base = s.base := by
  unfold queueChain
  dsimp only
  (repeat' split) <;> simp

@[simp] theorem releaseMessage_base (i : Nat) (cause : Cause) (s : State) :
    (releaseMessage i cause s).base = s.base := by
  unfold releaseMessage
  dsimp only
  (repeat' split) <;> simp

@[simp] theorem joinReleaseLine_base (who : Waiter) (n : Nat) (s : State) :
    (joinReleaseLine who n s).base = s.base := rfl

@[simp] theorem updateEntry_base (slot : Nat) (f : InFlight → InFlight) (s : State) :
    (updateEntry slot f s).base = s.base := rfl

@[simp] theorem freeEntry_base (slot : Nat) (s : State) :
    (freeEntry slot s).base = s.base := rfl

@[simp] theorem raiseExecuting_base (slot : Nat) (copy : List Byte) (s : State) :
    (raiseExecuting slot copy s).base = s.base := rfl

@[simp] theorem completeOrder_base (slot : Nat) (status : Status) (deferred : Bool) (res : List Byte) (s : State) :
    (completeOrder slot status deferred res s).base = s.base := by
  unfold completeOrder
  split <;> simp

@[simp] theorem completeFor_base (order : Option Nat) (status : Status) (res : List Byte) (s : State) :
    (completeFor order status res s).base = s.base := by
  unfold completeFor
  split <;> simp

@[simp] theorem orderStep_base (slot : Nat) (s : State) : (orderStep slot s).base = s.base := by
  unfold orderStep
  split
  · rfl
  · split <;> simp

@[simp] theorem startFilling_base (ch : Nat) (second : Bool) (b : Nat) (s : State) :
    (startFilling ch second b s).base = s.base := by
  unfold startFilling
  dsimp only
  (repeat' split) <;> simp

@[simp] theorem writeBlock_base (ch : Nat) (second : Bool) (next : Nat) (s : State) :
    (writeBlock ch second next s).base = s.base := rfl

@[simp] theorem updateLength_base (ch : Nat) (s : State) :
    (updateLength ch s).base = s.base := by simp [updateLength]

@[simp] theorem noticeStopped_base (ch : Nat) (reason : StopReason) (s : State) :
    (noticeStopped ch reason s).base = s.base := by simp [noticeStopped]

@[simp] theorem stopRecording_base (ch : Nat) (reason : StopReason) (s : State) :
    (stopRecording ch reason s).base = s.base := by simp [stopRecording]

@[simp] theorem answerOpening_base (ch : Nat) (a : TakeAnswer) (s : State) :
    (answerOpening ch a s).base = s.base := by
  unfold answerOpening
  split <;> simp

@[simp] theorem answerRecording_base (ch : Nat) (a : TakeAnswer) (s : State) :
    (answerRecording ch a s).base = s.base := by
  unfold answerRecording
  dsimp only
  (repeat' split) <;> simp

@[simp] theorem answerTake_base (ch : Nat) (a : TakeAnswer) (s : State) :
    (answerTake ch a s).base = s.base := by
  unfold answerTake
  split <;> simp

@[simp] theorem requestTake_base (ch : Nat) (s : State) :
    (requestTake ch s).base = s.base := by
  unfold requestTake
  dsimp only
  (repeat' split) <;> simp

@[simp] theorem serveTakeLine_base (n : Nat) (s : State) : (serveTakeLine n s).base = s.base := by
  induction n generalizing s with
  | zero => rfl
  | succ n ih =>
    unfold serveTakeLine
    dsimp only
    (repeat' split) <;> simp [ih]

@[simp] theorem takeLineTurn_base (s : State) :
    (takeLineTurn s).base = s.base := by simp [takeLineTurn]

@[simp] theorem withdrawTake_base (ch : Nat) (s : State) :
    (withdrawTake ch s).base = s.base := rfl

@[simp] theorem returnBlock_base (ch b : Nat) (s : State) :
    (returnBlock ch b s).base = s.base := by simp [returnBlock]

@[simp] theorem codeSample_base (ch : Nat) (second : Bool) (x : Int) (s : State) :
    (codeSample ch second x s).base = s.base := rfl

@[simp] theorem afterSample_base (ch : Nat) (second : Bool) (s : State) :
    (afterSample ch second s).base = s.base := by
  unfold afterSample
  dsimp only
  (repeat' split) <;> simp

@[simp] theorem refuseSample_base (ch : Nat) (s : State) :
    (refuseSample ch s).base = s.base := rfl

@[simp] theorem dropSample_base (ch : Nat) (s : State) :
    (dropSample ch s).base = s.base := rfl

@[simp] theorem takeSample_base (ch : Nat) (x : Int) (s : State) :
    (takeSample ch x s).base = s.base := by
  unfold takeSample
  dsimp only
  (repeat' split) <;> simp

@[simp] theorem takePosition_base (off : Nat) (lo hi : Option Byte) (s : State) :
    (takePosition off lo hi s).base = s.base := by
  unfold takePosition
  split
  · rfl
  · split <;> simp

@[simp] theorem takeLanes_base (off : Nat) (ls : List (Option Byte)) (s : State) :
    (takeLanes off ls s).base = s.base := by
  fun_induction takeLanes off ls s with
  | case1 off lo hi ls s ih => rw [ih, takePosition_base]
  | case2 => rfl

@[simp] theorem freeChannel_base (ch : Nat) (st : Status) (res : List Byte) (s : State) :
    (freeChannel ch st res s).base = s.base := by simp [freeChannel]

@[simp] theorem channelReleased_base (ch : Nat) (s : State) :
    (channelReleased ch s).base = s.base := by
  unfold channelReleased
  dsimp only
  (repeat' split) <;> simp

@[simp] theorem startChannelRelease_base (ch : Nat) (s : State) :
    (startChannelRelease ch s).base = s.base := by
  unfold startChannelRelease
  dsimp only
  (repeat' split) <;> simp

@[simp] theorem askRelease_base (ch : Nat) (s : State) :
    (askRelease ch s).base = s.base := by
  unfold askRelease
  dsimp only
  (repeat' split) <;> simp

@[simp] theorem commitRecording_base (ch : Nat) (s : State) :
    (commitRecording ch s).base = s.base := by simp [commitRecording]

@[simp] theorem closeByRelease_base (ch : Nat) (st : Status) (s : State) :
    (closeByRelease ch st s).base = s.base := by
  unfold closeByRelease
  dsimp only
  (repeat' split) <;> simp

@[simp] theorem afterWrites_base (ch : Nat) (s : State) :
    (afterWrites ch s).base = s.base := by
  unfold afterWrites
  dsimp only
  (repeat' split) <;> simp

@[simp] theorem returnBuffer_base (ch : Nat) (second : Bool) (s : State) :
    (returnBuffer ch second s).base = s.base := by
  unfold returnBuffer
  dsimp only
  (repeat' split) <;> simp

@[simp] theorem returnWaiting_base (ch : Nat) (s : State) :
    (returnWaiting ch s).base = s.base := by
  unfold returnWaiting
  dsimp only
  (repeat' split) <;> simp

@[simp] theorem dropUnwritten_base (ch : Nat) (s : State) :
    (dropUnwritten ch s).base = s.base := by simp [dropUnwritten]

@[simp] theorem patchLast_base (ch : Nat) (s : State) :
    (patchLast ch s).base = s.base := by
  unfold patchLast
  dsimp only
  (repeat' split) <;> simp

@[simp] theorem returnEmpty_base (ch b : Nat) (s : State) :
    (returnEmpty ch b s).base = s.base := by
  unfold returnEmpty
  dsimp only
  (repeat' split) <;> simp

@[simp] theorem closeBlocks_base (ch : Nat) (s : State) :
    (closeBlocks ch s).base = s.base := by
  unfold closeBlocks
  dsimp only
  (repeat' split) <;> simp

@[simp] theorem blockWritten_base (ch : Nat) (second : Bool) (s : State) :
    (blockWritten ch second s).base = s.base := by
  unfold blockWritten
  dsimp only
  (repeat' split) <;> simp

@[simp] theorem patchWritten_base (ch : Nat) (s : State) :
    (patchWritten ch s).base = s.base := by simp [patchWritten]

@[simp] theorem checkoutChannel_base (ch : Nat) (s : State) :
    (checkoutChannel ch s).base = s.base := by
  unfold checkoutChannel
  dsimp only
  (repeat' split) <;> simp

@[simp] theorem checkoutChannels_base (r : Nat) (s : State) : (checkoutChannels r s).base = s.base := by
  unfold checkoutChannels
  refine foldl_keeps State.base _ (fun t ch => ?_) _ s
  split <;> simp

@[simp] theorem fetchBlock_base (ch : Nat) (second : Bool) (b : Nat) (s : State) :
    (fetchBlock ch second b s).base = s.base := rfl

@[simp] theorem prefetch_base (ch : Nat) (s : State) :
    (prefetch ch s).base = s.base := by
  unfold prefetch
  dsimp only
  (repeat' split) <;> simp

@[simp] theorem yieldSample_base (ch : Nat) (s : State) : (yieldSample ch s).2.base = s.base := by
  simp [yieldSample]

@[simp] theorem moveBuffer_base (ch : Nat) (s : State) :
    (moveBuffer ch s).base = s.base := by simp [moveBuffer]

@[simp] theorem playStep_base (ch : Nat) (s : State) : (playStep ch s).2.base = s.base := by
  unfold playStep
  dsimp only
  (repeat' split) <;> simp

@[simp] theorem meetChannel_base (ch : Nat) (seen : List Nat) (s : State) :
    (meetChannel ch seen s).base = s.base := by
  unfold meetChannel
  dsimp only
  (repeat' split) <;> simp

/-- What the steps of a play read keep, the read keeps. -/
theorem serveRead_ind (P : State → Prop) (zeroed : Option Nat)
    (hm : ∀ ch seen t, P t → P (meetChannel ch seen t))
    (hp : ∀ ch t, P t → (t.channel ch).state = .playing → P (playStep ch t).2) :
    ∀ (ls : List (Option Byte)) (off : Nat) (seen : List Nat) (s : State), P s →
      P (serveRead zeroed off ls seen s).2.2
  | [], off, seen, s, h => by simpa [serveRead] using h
  | [x], off, seen, s, h => by simpa [serveRead] using h
  | lo :: hi :: ls, off, seen, s, h => by
    have ih := serveRead_ind P zeroed hm hp ls (off + 2)
    have h1 := hm (off / 65536) seen s h
    unfold serveRead
    dsimp only
    split
    · exact ih _ _ h
    · split
      · exact ih _ _ h1
      · split
        · exact h1
        · split
          · next hpl =>
            have h2 := hp _ _ h1 hpl
            split <;> next he => rw [he] at h2; first | exact ih _ _ h2 | exact h2
          · exact ih _ _ h1

@[simp] theorem serveRead_base (zeroed : Option Nat) (off : Nat) (ls : List (Option Byte)) (seen : List Nat)
    (s : State) : (serveRead zeroed off ls seen s).2.2.base = s.base :=
  serveRead_ind (fun t => t.base = s.base) zeroed (fun ch seen t h => by simpa using h)
    (fun ch t h _ => by simpa using h) ls off seen s rfl

@[simp] theorem openDone_base (ch : Nat) (ended : Bool) (s : State) :
    (openDone ch ended s).base = s.base := by simp [openDone]

@[simp] theorem openEnded_base (ch : Nat) (s : State) :
    (openEnded ch s).base = s.base := by simp [openEnded]

@[simp] theorem openArrived_base (ch : Nat) (second : Bool) (s : State) :
    (openArrived ch second s).base = s.base := by
  unfold openArrived
  dsimp only
  (repeat' split) <;> simp

@[simp] theorem raiseOffsetRead_base (ch b : Nat) (s : State) :
    (raiseOffsetRead ch b s).base = s.base := rfl

@[simp] theorem walkStep_base (ch : Nat) (header : List Byte) (s : State) :
    (walkStep ch header s).base = s.base := by
  unfold walkStep
  dsimp only
  (repeat' split) <;> simp

@[simp] theorem fetchArrived_base (ch : Nat) (second : Bool) (data : List Byte) (s : State) :
    (fetchArrived ch second data s).base = s.base := by
  unfold fetchArrived
  dsimp only
  (repeat' split) <;> simp

end Sys2Proof.Machine
end

