-- ==== Sys2Proof/Laws/Engines2.lean ====
section
/-! SUPPORT. What the engines leave alone (2): rating, lamps, orders and releases keep the base. -/

namespace Sys2Proof.Machine

@[simp] theorem workOutBarred_base (r : Nat) (total : Int) (s : State) :
    (workOutBarred r total s).base = s.base := by
  unfold workOutBarred
  dsimp only
  (repeat' split) <;> simp

@[simp] theorem settleBarred_base (r : Nat) (s : State) :
    (settleBarred r s).base = s.base := rfl

@[simp] theorem raiseFolioWrite_base (s : State) :
    (raiseFolioWrite s).base = s.base := by
  unfold raiseFolioWrite
  dsimp only
  (repeat' split) <;> simp

@[simp] theorem queueFolioWrite_base (w : FolioWrite) (s : State) :
    (queueFolioWrite w s).base = s.base := by simp [queueFolioWrite]

@[simp] theorem appendCharge_base (r : Nat) (p : Place) (f : Folio) (c : Charge) (order : Option Nat) (s : State) :
    (appendCharge r p f c order s).2.base = s.base := by
  unfold appendCharge
  dsimp only
  (repeat' split) <;> simp

@[simp] theorem unbilled_base (c : Charge) (s : State) :
    (unbilled c s).base = s.base := by simp [unbilled]

@[simp] theorem lateCharge_base (f : Folio) (c : Charge) (s : State) :
    (lateCharge f c s).base = s.base := by simp [lateCharge]

@[simp] theorem handOver_base (c : Charge) (s : State) : (handOver c s).base = s.base := by
  unfold handOver
  split
  · split
    · split
      · exact appendCharge_base _ _ _ _ _ _
      · split
        · split <;> simp
        · simp
    · split
      · split <;> simp
      · simp
  · simp

@[simp] theorem openFolio_base (r : Nat) (s : State) :
    (openFolio r s).base = s.base := rfl

@[simp] theorem returnRecords_base (f : Folio) (s : State) :
    (returnRecords f s).base = s.base := rfl

@[simp] theorem discardClosed_base (r : Nat) (s : State) :
    (discardClosed r s).base = s.base := by
  unfold discardClosed
  split <;> simp

@[simp] theorem closeFolio_base (r : Nat) (s : State) :
    (closeFolio r s).base = s.base := by
  unfold closeFolio
  dsimp only
  (repeat' split) <;> simp

@[simp] theorem trunkSequence_base (t anomaly : Nat) (written : Byte) (s : State) :
    (trunkSequence t anomaly written s).base = s.base := by simp [trunkSequence]

@[simp] theorem seizeTrunk_base (t : Nat) (s : State) :
    (seizeTrunk t s).base = s.base := rfl

@[simp] theorem captureCall_base (t : Nat) (s : State) :
    (captureCall t s).base = s.base := rfl

@[simp] theorem countAnswer_base (t : Nat) (s : State) :
    (countAnswer t s).base = s.base := by
  unfold countAnswer
  split <;> simp

@[simp] theorem missedSeize_base (t : Nat) (s : State) :
    (missedSeize t s).base = s.base := by simp [missedSeize]

@[simp] theorem idleTrunk_base (t : Nat) (s : State) :
    (idleTrunk t s).base = s.base := rfl

@[simp] theorem unansweredClear_base (t : Nat) (s : State) :
    (unansweredClear t s).base = s.base := by
  unfold unansweredClear
  dsimp only
  (repeat' split) <;> simp

@[simp] theorem noticeUnrated_base (c : Charge) (s : State) :
    (noticeUnrated c s).base = s.base := by simp [noticeUnrated]

@[simp] theorem rateCall_base (t : Nat) (implicit : Bool) (s : State) :
    (rateCall t implicit s).base = s.base := by
  unfold rateCall
  dsimp only
  (repeat' split) <;> simp

@[simp] theorem answeredClear_base (t : Nat) (implicit : Bool) (s : State) :
    (answeredClear t implicit s).base = s.base := by
  unfold answeredClear
  dsimp only
  (repeat' split) <;> simp

@[simp] theorem stepTrunk_base (t : Nat) (w : WrittenState) (s : State) :
    (stepTrunk t w s).base = s.base := by
  unfold stepTrunk
  split <;> simp

@[simp] theorem trunkWritten_base (t : Nat) (old new : Byte) (s : State) :
    (trunkWritten t old new s).base = s.base := by
  unfold trunkWritten
  dsimp only
  (repeat' split) <;> simp

@[simp] theorem settleTrunk_base (t : Nat) (s : State) :
    (settleTrunk t s).base = s.base := by
  unfold settleTrunk
  dsimp only
  (repeat' split) <;> simp

@[simp] theorem sendFrame_base (k : Nat) (f : BitVec 32) (changed : List Nat) (s : State) :
    (sendFrame k f changed s).base = s.base := rfl

@[simp] theorem startSweep_base (s : State) :
    (startSweep s).base = s.base := by
  unfold startSweep
  split <;> simp

@[simp] theorem writeLinkHeader_base (s : State) :
    (writeLinkHeader s).base = s.base := rfl

@[simp] theorem writeLinkEntry_base (k : Nat) (s : State) :
    (writeLinkEntry k s).base = s.base := rfl

@[simp] theorem clearMismatches_base (k : Nat) (s : State) : (clearMismatches k s).base = s.base :=
  foldl_keeps State.base _ (fun t p => State.setLamp_base t _ _) _ s

@[simp] theorem badReturn_base (k : Nat) (r : BadReason) (s : State) :
    (badReturn k r s).base = s.base := by
  unfold badReturn
  dsimp only
  (repeat' split) <;> simp

@[simp] theorem latchFault_base (r : Nat) (kind : Latch) (f : BitVec 32) (s : State) :
    (latchFault r kind f s).base = s.base := by
  unfold latchFault
  dsimp only
  (repeat' split) <;> simp

@[simp] theorem evaluateLamp_base (r : Nat) (on sensed : Bool) (f : BitVec 32) (s : State) :
    (evaluateLamp r on sensed f s).base = s.base := by
  unfold evaluateLamp
  dsimp only
  (repeat' split) <;> simp

@[simp] theorem evaluateCard_base (k : Nat) (drive sense : BitVec 64) (f : BitVec 32) (s : State) :
    (evaluateCard k drive sense f s).base = s.base :=
  foldl_keeps State.base _ (fun t p => evaluateLamp_base _ _ _ _ t) _ s

@[simp] theorem goodReturn_base (w : Sweep) (s : State) : (goodReturn w s).base = s.base := by
  unfold goodReturn
  dsimp only
  split
  · rw [evaluateCard_base]
    split <;> simp
  · split <;> simp

@[simp] theorem judgeCard_base (w : Sweep) (s : State) :
    (judgeCard w s).base = s.base := by
  unfold judgeCard
  split <;> simp

@[simp] theorem closeWindow_base (w : Sweep) (s : State) : (closeWindow w s).base = s.base := by
  unfold closeWindow
  dsimp only
  split
  · simp
  · rw [foldl_keeps State.base (fun t k => writeLinkEntry k t) (fun t k => writeLinkEntry_base k t)]
    simp

@[simp] theorem clearFault_base (r : Nat) (s : State) :
    (clearFault r s).base = s.base := by
  unfold clearFault
  dsimp only
  (repeat' split) <;> simp

@[simp] theorem createMessage_base (c : List Byte) (i : Nat) (s : State) :
    (createMessage c i s).base = s.base := by simp [createMessage]

@[simp] theorem recordOpenAct_base (slot : Nat) (c : List Byte) (s : State) :
    (recordOpenAct slot c s).base = s.base := by simp [recordOpenAct]

@[simp] theorem enterClosing_base (slot ch : Nat) (how : Closing) (s : State) :
    (enterClosing slot ch how s).base = s.base := by
  unfold enterClosing
  dsimp only
  (repeat' split) <;> simp

@[simp] theorem recordCloseAct_base (slot : Nat) (c : List Byte) (s : State) :
    (recordCloseAct slot c s).base = s.base := by
  unfold recordCloseAct
  dsimp only
  (repeat' split) <;> simp

@[simp] theorem recordAbandonAct_base (slot : Nat) (c : List Byte) (s : State) :
    (recordAbandonAct slot c s).base = s.base := by
  unfold recordAbandonAct
  dsimp only
  (repeat' split) <;> simp

@[simp] theorem claimPlay_base (slot ch i offset : Nat) (s : State) :
    (claimPlay slot ch i offset s).base = s.base := rfl

@[simp] theorem playOpenAct_base (slot : Nat) (c : List Byte) (s : State) :
    (playOpenAct slot c s).base = s.base := by
  unfold playOpenAct
  dsimp only
  (repeat' split) <;> simp

@[simp] theorem dispose_base (i d : Nat) (s : State) :
    (dispose i d s).base = s.base := by
  unfold dispose
  dsimp only
  (repeat' split) <;> simp

@[simp] theorem dropBuffers_base (ch : Nat) (s : State) :
    (dropBuffers ch s).base = s.base := rfl

@[simp] theorem playCloseAct_base (slot : Nat) (c : List Byte) (s : State) :
    (playCloseAct slot c s).base = s.base := by simp [playCloseAct]

@[simp] theorem messageSaveAct_base (slot : Nat) (c : List Byte) (s : State) :
    (messageSaveAct slot c s).base = s.base := by
  unfold messageSaveAct
  dsimp only
  (repeat' split) <;> simp

@[simp] theorem messageMarkNewAct_base (slot : Nat) (c : List Byte) (s : State) :
    (messageMarkNewAct slot c s).base = s.base := by
  unfold messageMarkNewAct
  dsimp only
  (repeat' split) <;> simp

@[simp] theorem holdOrder_base (slot left : Nat) (deferred : Bool) (res : List Byte) (s : State) :
    (holdOrder slot left deferred res s).base = s.base := rfl

@[simp] theorem messageDeleteAct_base (slot : Nat) (c : List Byte) (s : State) :
    (messageDeleteAct slot c s).base = s.base := by
  unfold messageDeleteAct
  dsimp only
  (repeat' split) <;> simp

@[simp] theorem mailboxPurgeAct_base (slot : Nat) (c : List Byte) (s : State) :
    (mailboxPurgeAct slot c s).base = s.base := by
  have h := foldl_keeps State.base (fun t i => releaseMessage i (.order slot) t)
    (fun t i => releaseMessage_base i _ t) (s.purgeScope c) s
  unfold mailboxPurgeAct
  dsimp only
  split
  · rw [completeOrder_base, h]
  · rw [holdOrder_base, h]

@[simp] theorem lampOverrideAct_base (slot : Nat) (c : List Byte) (s : State) :
    (lampOverrideAct slot c s).base = s.base := by
  unfold lampOverrideAct
  dsimp only
  rw [completeOrder_base, foldl_keeps State.base _ (fun t r => setOverride_base _ r t)]

@[simp] theorem lampFaultClearAct_base (slot : Nat) (c : List Byte) (s : State) :
    (lampFaultClearAct slot c s).base = s.base := by
  unfold lampFaultClearAct
  dsimp only
  rw [completeOrder_base, foldl_keeps State.base _ (fun t r => clearFault_base r t)]

@[simp] theorem folioAdjustAct_base (slot : Nat) (c : List Byte) (s : State) :
    (folioAdjustAct slot c s).base = s.base := by
  unfold folioAdjustAct
  dsimp only
  (repeat' split) <;> simp

@[simp] theorem folioReleaseAct_base (slot : Nat) (c : List Byte) (s : State) :
    (folioReleaseAct slot c s).base = s.base := by
  unfold folioReleaseAct
  dsimp only
  (repeat' split) <;> simp

@[simp] theorem renewFirst_base (n : Nat) (s : State) :
    (renewFirst n s).base = s.base := by
  unfold renewFirst
  split <;> simp

@[simp] theorem leaveReleaseLine_base (s : State) :
    (leaveReleaseLine s).base = s.base := rfl

@[simp] theorem startPop_base (s : State) :
    (startPop s).base = s.base := rfl

@[simp] theorem popReturned_base (data : List Byte) (s : State) :
    (popReturned data s).base = s.base := by simp [popReturned]

@[simp] theorem startPush_base (s : State) :
    (startPush s).base = s.base := by
  unfold startPush
  split <;> simp

@[simp] theorem reportRelease_base (cause : Cause) (s : State) :
    (reportRelease cause s).base = s.base := by
  unfold reportRelease
  split <;> simp

@[simp] theorem completeEntry_base (e : ReleaseEntry) (rest : List ReleaseEntry) (s : State) :
    (completeEntry e rest s).base = s.base := by simp [completeEntry]

@[simp] theorem releaseInHand_base (w : Walk) (e : ReleaseEntry) (s : State) :
    (releaseInHand w e s).base = s.base := by simp [releaseInHand]

@[simp] theorem walkReturned_base (header : List Byte) (s : State) :
    (walkReturned header s).base = s.base := by
  unfold walkReturned
  dsimp only
  (repeat' split) <;> simp

end Sys2Proof.Machine
end

