-- ==== Sys2Proof/Laws/Finish.lean ====
section
/-! SUPPORT. The end of every step: what `finish` leaves alone, where it puts what was raised, and when it changes
nothing else. -/

namespace Sys2Proof.Machine

/-! ### The steady part -/

@[simp] theorem steady_pending (s : State) : s.steady.pending = s.pending := rfl
@[simp] theorem steady_straps (s : State) : s.steady.straps = s.straps := rfl
@[simp] theorem steady_mem (s : State) : s.steady.mem = s.mem := rfl
@[simp] theorem steady_time (s : State) : s.steady.time = s.time := rfl
@[simp] theorem steady_frame (s : State) : s.steady.frame = s.frame := rfl
@[simp] theorem steady_control (s : State) : s.steady.control = s.control := rfl
@[simp] theorem steady_store (s : State) : s.steady.store = s.store := rfl
@[simp] theorem steady_ring (s : State) : s.steady.ring = s.ring := rfl
@[simp] theorem steady_rating (s : State) : s.steady.rating = s.rating := rfl
@[simp] theorem steady_lamp (s : State) : s.steady.lamp = s.lamp := rfl

/-- A change of the masked fields keeps the steady part. -/
@[simp] theorem steady_mk (s : State) (v : Voice) (o : Outbox) (c : Nat) :
    State.steady { s with voice := v, out := o, choices := c } = s.steady := rfl

theorem choose_steady (n : Nat) (s : State) : (choose n s).2.steady = s.steady := by
  unfold choose; split <;> rfl

theorem choose_out (n : Nat) (s : State) : (choose n s).2.out = s.out := by
  unfold choose; split <;> rfl

theorem interleave_steady {α : Type} (key : α → Nat) (xs batch : List α) (s : State) :
    (interleave key xs batch s).2.steady = s.steady := by
  induction xs generalizing batch s with
  | nil => rfl
  | cons x xs ih => rw [interleave]; dsimp only; rw [ih, choose_steady]

@[simp] theorem setChannel_steady (s : State) (c : Nat) (v : Channel) : (s.setChannel c v).steady = s.steady := rfl
@[simp] theorem raise_steady (r : Request) (s : State) : (raise r s).steady = s.steady := rfl
@[simp] theorem raiseAll_steady (rs : List Request) (s : State) : (raiseAll rs s).steady = s.steady := rfl

@[simp] theorem dropNotice_steady (s : State) : (dropNotice s).steady = s.steady := rfl

@[simp] theorem queueNotice_steady (n : Notice) (s : State) : (queueNotice n s).steady = s.steady := by
  unfold queueNotice; split <;> rfl

theorem commitNotices_steady (s : State) : (commitNotices s).steady = s.steady := by
  unfold commitNotices
  dsimp only
  rw [foldl_keeps State.steady (fun t (n : Requester × Notice) => queueNotice n.2 t)
    (fun t n => queueNotice_steady n.2 t)]
  exact interleave_steady _ _ _ s

theorem commitLine_steady (who : Requester) (rs : List Request) (s : State) :
    (commitLine who rs s).steady = s.steady := interleave_steady _ _ _ s

theorem commit_steady (s : State) : (commit s).steady = s.steady := by
  unfold commit
  dsimp only
  rw [foldl_keeps State.steady (fun t who => commitLine who _ t) (fun t who => commitLine_steady who _ t)]
  exact commitNotices_steady s

@[simp] theorem prefetch_steady (ch : Nat) (s : State) : (prefetch ch s).steady = s.steady := by
  unfold prefetch
  dsimp only
  split
  · split <;> simp [fetchBlock]
  · rfl

theorem playStep_steady (ch : Nat) (s : State) : (playStep ch s).2.steady = s.steady := by
  unfold playStep
  dsimp only
  (repeat' split) <;> simp [yieldSample, moveBuffer]

@[simp] theorem meetChannel_steady (ch : Nat) (seen : List Nat) (s : State) :
    (meetChannel ch seen s).steady = s.steady := by
  unfold meetChannel; dsimp only; split <;> rfl

theorem serveRead_steady (zeroed : Option Nat) (off : Nat) (ls : List (Option Byte)) (seen : List Nat) (s : State) :
    (serveRead zeroed off ls seen s).2.2.steady = s.steady :=
  serveRead_ind (fun t => t.steady = s.steady) zeroed (fun ch seen t h => by rw [meetChannel_steady, h])
    (fun ch t h _ => by rw [playStep_steady, h]) ls off seen s rfl

theorem serveVoice_steady (zeroed : Option Nat) (seen : List Nat) (w : HeadWork) (s : State) :
    (serveVoice zeroed seen w s).2.2.steady = s.steady := by
  have h := serveRead_steady zeroed (s.voiceOffset (s.voiceParts w)) (partLanes (s.voiceParts w)) seen s
  unfold serveVoice
  dsimp only
  split
  · rfl
  · split <;> next he => rw [he] at h; exact h

theorem advanceHead_steady (req : HostRequest) (n : Nat) (w : HeadWork) (s : State) :
    (advanceHead req n w s).steady = s.steady := by
  induction n generalizing w s with
  | zero => rfl
  | succ n ih =>
    unfold advanceHead
    dsimp only
    split
    · split
      · rfl
      · obtain ⟨_, _, -, e⟩ := leaveRead_eq req w.answer s
        rw [e]; rfl
    · split
      · split
        · rw [ih, serveVoice_steady]
        · rfl
      · generalize (if req.write = true then _ else _ : List (Option Byte)) = lanes
        split
        · rfl
        · rw [ih]

theorem serveHead_steady (req : HostRequest) (zeroed : Option Nat) (seen : List Nat) (w : HeadWork) (s : State) :
    (serveHead req zeroed seen w s).steady = s.steady := by
  have h := serveVoice_steady zeroed seen w s
  unfold serveHead
  split <;> next he =>
    rw [he] at h
    first
    | rw [advanceHead_steady]; exact h
    | exact h

theorem resumeStall_steady (s : State) : (resumeStall s).steady = s.steady := by
  unfold resumeStall
  split
  · split
    · exact serveHead_steady _ _ _ _ s
    · rfl
  · rfl

theorem joinFifo_steady (s : State) : (joinFifo s).steady = s.steady := by
  unfold joinFifo
  dsimp only
  split
  · split <;> rfl
  · split <;> rfl
  · have h := choose_steady 2 s
    split <;> (split <;> exact h)

theorem fillFifo_steady (n : Nat) (s : State) : (fillFifo n s).steady = s.steady := by
  induction n generalizing s with
  | zero => rfl
  | succ n ih =>
    unfold fillFifo
    split
    · rw [ih, joinFifo_steady]
    · rfl

theorem startHead_steady (s : State) : (startHead s).steady = s.steady := by
  unfold startHead
  split
  · rfl
  · split
    · rfl
    · unfold startRequest
      dsimp only
      split
      · rw [advanceHead_steady]
      · rfl
    · rfl

theorem settleFifo_steady (n : Nat) (s : State) : (settleFifo n s).steady = s.steady := by
  induction n generalizing s with
  | zero => rfl
  | succ n ih =>
    unfold settleFifo
    dsimp only
    split
    · rw [startHead_steady, fillFifo_steady]
    · rw [ih, startHead_steady, fillFifo_steady]

/-- The end of a step keeps the steady part. -/
@[simp] theorem finish_steady (s : State) : (finish s).steady = s.steady := by
  unfold finish
  dsimp only
  rw [commit_steady, settleFifo_steady, resumeStall_steady]

/-- A step that takes place leaves the steady part that its effect leaves. -/
@[simp] theorem taken_steady (f : State → State) (s : State) : (taken f s).steady = (f (beginStep s)).steady :=
  finish_steady _

end Sys2Proof.Machine
end

