-- ==== Sys2Proof/Laws/Place.lean ====
section
/-! SUPPORT. Where the end of a step puts what the step raised: the outbox is empty, and every request has joined its
line behind what the line held. -/

namespace Sys2Proof.Machine

/-! ### The batch of one line -/

theorem choose_lt (n : Nat) (s : State) (h : 0 < n) : (choose n s).1 < n := by
  unfold choose
  split
  · exact h
  · exact Nat.mod_lt _ h

theorem lastOfKey_le {α : Type} (key : α → Nat) (k : Nat) (xs : List α) : lastOfKey key k xs ≤ xs.length := by
  induction xs with
  | nil => simp [lastOfKey]
  | cons x xs ih =>
    simp only [lastOfKey, List.length_cons]
    split
    · split <;> omega
    · omega

/-- An interleaved batch holds what it was given. -/
theorem mem_interleave {α : Type} (key : α → Nat) (xs batch : List α) (s : State) (x : α) :
    x ∈ (interleave key xs batch s).1 ↔ x ∈ xs ∨ x ∈ batch := by
  induction xs generalizing batch s with
  | nil => simp [interleave]
  | cons y ys ih =>
    rw [interleave]
    dsimp only
    have hl := lastOfKey_le key (key y) batch
    have hk := choose_lt (batch.length - lastOfKey key (key y) batch + 1) s (Nat.succ_pos _)
    rw [ih, List.mem_insertIdx (by omega), List.mem_cons]
    tauto

/-- The length of an interleaved batch. -/
theorem length_interleave {α : Type} (key : α → Nat) (xs batch : List α) (s : State) :
    (interleave key xs batch s).1.length = xs.length + batch.length := by
  induction xs generalizing batch s with
  | nil => simp [interleave]
  | cons y ys ih =>
    rw [interleave]
    dsimp only
    have hl := lastOfKey_le key (key y) batch
    have hk := choose_lt (batch.length - lastOfKey key (key y) batch + 1) s (Nat.succ_pos _)
    rw [ih, List.length_insertIdx_of_le_length (by omega), List.length_cons]
    omega

/-! ### The lines -/

theorem interleave_arbiter {α : Type} (key : α → Nat) (xs batch : List α) (s : State) :
    (interleave key xs batch s).2.arbiter = s.arbiter := by
  induction xs generalizing batch s with
  | nil => rfl
  | cons x xs ih => rw [interleave]; dsimp only; rw [ih]; unfold choose; split <;> rfl

theorem interleave_out {α : Type} (key : α → Nat) (xs batch : List α) (s : State) :
    (interleave key xs batch s).2.out = s.out := by
  induction xs generalizing batch s with
  | nil => rfl
  | cons x xs ih => rw [interleave]; dsimp only; rw [ih, choose_out]

theorem Lines.get_set (l : Lines) (a b : Requester) (v : List Request) :
    (l.set a v).get b = if a = b then v else l.get b := by
  cases a <;> cases b <;> rfl

/-- A line takes the requests of its requester; the other lines stay. -/
theorem commitLine_get (who : Requester) (rs : List Request) (s : State) (w : Requester) :
    ∃ l, (commitLine who rs s).arbiter.lines.get w = s.arbiter.lines.get w ++ l ∧
      (w = who → ∀ r ∈ rs, r.source.requester = who → r ∈ l) ∧ (w ≠ who → l = []) := by
  by_cases h : who = w
  · subst h
    refine ⟨(interleave (fun r : Request => r.source.key) (rs.filter fun r => r.source.requester = who) [] s).1,
      ?_, ?_, fun h => absurd rfl h⟩
    · unfold commitLine
      simp [Lines.get_set, interleave_arbiter]
    · intro _ r hr hw
      rw [mem_interleave]
      left
      simp [hr, hw]
  · refine ⟨[], ?_, fun hw => absurd hw.symm h, fun _ => rfl⟩
    unfold commitLine
    simp [Lines.get_set, interleave_arbiter, h]

theorem commitLine_out (who : Requester) (rs : List Request) (s : State) :
    (commitLine who rs s).out = s.out := interleave_out _ _ _ s

/-- What a chain of steps before the end may do: requests and notices are only added to the outbox, and the arbiter
is left alone. -/
structure Grows (s t : State) : Prop where
  arbiter : t.arbiter = s.arbiter
  requests : ∃ l, t.out.requests = s.out.requests ++ l

theorem Grows.refl (s : State) : Grows s s := ⟨rfl, [], by simp⟩

theorem Grows.trans {s t u : State} (h : Grows s t) (k : Grows t u) : Grows s u := by
  obtain ⟨a, l, hl⟩ := h
  obtain ⟨b, m, hm⟩ := k
  exact ⟨b.trans a, l ++ m, by rw [hm, hl, List.append_assoc]⟩

theorem Grows.of_eq {s t : State} (ha : t.arbiter = s.arbiter) (ho : t.out = s.out) : Grows s t :=
  ⟨ha, [], by simp [ho]⟩

theorem Grows.mem {s t : State} (h : Grows s t) {r : Request} (hr : r ∈ s.out.requests) : r ∈ t.out.requests := by
  obtain ⟨l, hl⟩ := h.requests
  rw [hl]
  exact List.mem_append_left _ hr

theorem Grows.foldl {α : Type} {f : State → α → State} (h : ∀ t a, Grows t (f t a)) (l : List α) (s : State) :
    Grows s (l.foldl f s) := by
  induction l generalizing s with
  | nil => exact Grows.refl s
  | cons a l ih => exact (h s a).trans (ih _)

theorem raise_grows (r : Request) (s : State) : Grows s (raise r s) := ⟨rfl, [r], rfl⟩

theorem raiseAll_grows (rs : List Request) (s : State) : Grows s (raiseAll rs s) := ⟨rfl, rs, rfl⟩

theorem queueNotice_grows (n : Notice) (s : State) : Grows s (queueNotice n s) := by
  unfold queueNotice
  split
  · exact Grows.of_eq rfl rfl
  · exact ⟨rfl, _, rfl⟩

theorem commitNotices_grows (s : State) : Grows s (commitNotices s) := by
  unfold commitNotices
  dsimp only
  refine Grows.trans ⟨?_, [], ?_⟩ (Grows.foldl (fun t (n : Requester × Notice) => queueNotice_grows n.2 t) _ _)
  · exact interleave_arbiter _ _ _ s
  · simp [interleave_out]

theorem queueNotice_notices (n : Notice) (s : State) : (queueNotice n s).out.notices = s.out.notices := by
  unfold queueNotice; split <;> rfl

theorem commitNotices_notices (s : State) : (commitNotices s).out.notices = [] := by
  unfold commitNotices
  dsimp only
  rw [foldl_keeps (fun t => t.out.notices) (fun t (n : Requester × Notice) => queueNotice n.2 t)
    (fun t n => queueNotice_notices n.2 t)]

/-- Nothing is left in the outbox. -/
theorem commit_out (s : State) : (commit s).out = {} := by
  unfold commit
  dsimp only
  rw [foldl_keeps State.out (fun t who => commitLine who _ t) (fun t who => commitLine_out who _ t)]
  simp [commitNotices_notices]

/-- Every request raised has joined the line of its requester; what the lines held stays before it. -/
theorem commit_get (s : State) (w : Requester) :
    ∃ l, (commit s).arbiter.lines.get w = s.arbiter.lines.get w ++ l ∧
      ∀ r ∈ s.out.requests, r.source.requester = w → r ∈ l := by
  have hn := commitNotices_grows s
  unfold commit
  dsimp only
  generalize hs2 : ({ commitNotices s with out := { (commitNotices s).out with requests := [] } } : State) = s2
  have ha : s2.arbiter = s.arbiter := by rw [← hs2]; exact hn.arbiter
  generalize hrs : (commitNotices s).out.requests = rs
  have hm : ∀ r ∈ s.out.requests, r ∈ rs := fun r hr => hrs ▸ hn.mem hr
  simp only [List.foldl_cons, List.foldl_nil]
  obtain ⟨l1, e1, m1, n1⟩ := commitLine_get .host rs s2 w
  obtain ⟨l2, e2, m2, n2⟩ := commitLine_get .voice rs (commitLine .host rs s2) w
  obtain ⟨l3, e3, m3, n3⟩ := commitLine_get .directory rs (commitLine .voice rs (commitLine .host rs s2)) w
  obtain ⟨l4, e4, m4, n4⟩ :=
    commitLine_get .rating rs (commitLine .directory rs (commitLine .voice rs (commitLine .host rs s2))) w
  obtain ⟨l5, e5, m5, n5⟩ := commitLine_get .lamp rs
    (commitLine .rating rs (commitLine .directory rs (commitLine .voice rs (commitLine .host rs s2)))) w
  refine ⟨l1 ++ l2 ++ l3 ++ l4 ++ l5, ?_, ?_⟩
  · rw [e5, e4, e3, e2, e1, ha]
    simp [List.append_assoc]
  · intro r hr hw
    have hr' := hm r hr
    simp only [List.mem_append]
    cases w
    · exact .inl (.inl (.inl (.inl (m1 rfl r hr' hw))))
    · exact .inl (.inl (.inl (.inr (m2 rfl r hr' hw))))
    · exact .inl (.inl (.inr (m3 rfl r hr' hw)))
    · exact .inl (.inr (m4 rfl r hr' hw))
    · exact .inr (m5 rfl r hr' hw)

/-! ### The head and the FIFO only raise -/

theorem setChannel_grows (s : State) (c : Nat) (v : Channel) : Grows s (s.setChannel c v) := Grows.of_eq rfl rfl

theorem fetchBlock_grows (ch : Nat) (second : Bool) (b : Nat) (s : State) : Grows s (fetchBlock ch second b s) :=
  (setChannel_grows s _ _).trans (raiseAll_grows _ _)

theorem prefetch_grows (ch : Nat) (s : State) : Grows s (prefetch ch s) := by
  unfold prefetch
  dsimp only
  split
  · split
    · exact fetchBlock_grows _ _ _ _
    · exact Grows.refl s
  · exact Grows.refl s

theorem playStep_grows (ch : Nat) (s : State) : Grows s (playStep ch s).2 := by
  unfold playStep
  dsimp only
  split
  · exact setChannel_grows s _ _
  · split
    · exact setChannel_grows s _ _
    · split
      · exact ((setChannel_grows s _ _).trans (prefetch_grows _ _)).trans (setChannel_grows _ _ _)
      · exact Grows.refl s

theorem meetChannel_grows (ch : Nat) (seen : List Nat) (s : State) : Grows s (meetChannel ch seen s) := by
  unfold meetChannel
  dsimp only
  split
  · exact setChannel_grows s _ _
  · exact Grows.refl s

theorem serveRead_grows (zeroed : Option Nat) (off : Nat) (ls : List (Option Byte)) (seen : List Nat) (s : State) :
    Grows s (serveRead zeroed off ls seen s).2.2 :=
  serveRead_ind (Grows s) zeroed (fun ch seen t h => h.trans (meetChannel_grows ch seen t))
    (fun ch t h _ => h.trans (playStep_grows ch t)) ls off seen s (Grows.refl s)

theorem serveVoice_grows (zeroed : Option Nat) (seen : List Nat) (w : HeadWork) (s : State) :
    Grows s (serveVoice zeroed seen w s).2.2 := by
  have h := serveRead_grows zeroed (s.voiceOffset (s.voiceParts w)) (partLanes (s.voiceParts w)) seen s
  unfold serveVoice
  dsimp only
  split
  · exact Grows.refl s
  · split <;> next he => rw [he] at h; exact h

theorem advanceHead_grows (req : HostRequest) (n : Nat) (w : HeadWork) (s : State) :
    Grows s (advanceHead req n w s) := by
  induction n generalizing w s with
  | zero => exact Grows.of_eq rfl rfl
  | succ n ih =>
    unfold advanceHead
    dsimp only
    split
    · split
      · exact Grows.of_eq rfl rfl
      · obtain ⟨_, _, -, e⟩ := leaveRead_eq req w.answer s
        rw [e]; exact Grows.of_eq rfl rfl
    · split
      · split
        · exact (serveVoice_grows _ _ _ s).trans (ih _ _)
        · exact Grows.of_eq rfl rfl
      · generalize (if req.write = true then _ else _ : List (Option Byte)) = lanes
        split
        · exact ⟨rfl, _, rfl⟩
        · exact ih _ _

theorem serveHead_grows (req : HostRequest) (zeroed : Option Nat) (seen : List Nat) (w : HeadWork) (s : State) :
    Grows s (serveHead req zeroed seen w s) := by
  have h := serveVoice_grows zeroed seen w s
  unfold serveHead
  split <;> next he =>
    rw [he] at h
    first
    | exact h.trans (advanceHead_grows _ _ _ _)
    | exact h.trans (Grows.of_eq rfl rfl)

theorem resumeStall_grows (s : State) : Grows s (resumeStall s) := by
  unfold resumeStall
  split
  · split
    · exact serveHead_grows _ _ _ _ s
    · exact Grows.refl s
  · exact Grows.refl s

theorem joinFifo_grows (s : State) : Grows s (joinFifo s) := by
  have hc : (choose 2 s).2.arbiter = s.arbiter := by unfold choose; split <;> rfl
  unfold joinFifo
  dsimp only
  split
  · split <;> exact Grows.of_eq rfl rfl
  · split <;> exact Grows.of_eq rfl rfl
  · split <;> (split <;> exact Grows.of_eq hc (choose_out 2 s))

theorem fillFifo_grows (n : Nat) (s : State) : Grows s (fillFifo n s) := by
  induction n generalizing s with
  | zero => exact Grows.refl s
  | succ n ih =>
    unfold fillFifo
    split
    · exact (joinFifo_grows s).trans (ih _)
    · exact Grows.refl s

theorem startHead_grows (s : State) : Grows s (startHead s) := by
  unfold startHead
  split
  · exact Grows.refl s
  · split
    · exact Grows.refl s
    · unfold startRequest
      dsimp only
      split
      · exact advanceHead_grows _ _ _ s
      · exact Grows.of_eq rfl rfl
    · exact ⟨rfl, _, rfl⟩

theorem settleFifo_grows (n : Nat) (s : State) : Grows s (settleFifo n s) := by
  induction n generalizing s with
  | zero => exact Grows.refl s
  | succ n ih =>
    unfold settleFifo
    dsimp only
    have h := (fillFifo_grows Config.fifoDepth s).trans (startHead_grows _)
    split
    · exact h
    · exact h.trans (ih _)

/-- After a step nothing raised is left unplaced. -/
theorem finish_out (s : State) : (finish s).out = {} := commit_out _

/-- Every request the step raised has joined the line of its requester (R164). -/
theorem finish_line (s : State) (w : Requester) (rs : List Request)
    (h : ∀ r ∈ rs, r ∈ s.out.requests ∧ r.source.requester = w) : lineGrew s (finish s) w rs := by
  have hg := (resumeStall_grows s).trans
    (settleFifo_grows ((resumeStall s).host.fifo.length + (resumeStall s).host.waiting.length + 1) (resumeStall s))
  obtain ⟨l, e, m⟩ := commit_get
    (settleFifo ((resumeStall s).host.fifo.length + (resumeStall s).host.waiting.length + 1) (resumeStall s)) w
  refine ⟨l, ?_, fun r hr => m r (hg.mem (h r hr).1) (h r hr).2⟩
  unfold finish
  dsimp only
  rw [e, hg.arbiter]

end Sys2Proof.Machine
end

