-- ==== Sys2Proof/Laws/Still.lean ====
section
/-! SUPPORT. The end of a step: a channel that is neither PLAYING nor ENDED keeps its context; the FIFO and the notice
queue keep their bounds; with its head held the FIFO only fills. -/

namespace Sys2Proof.Machine

/-! ### Channels that no play read changes -/

@[simp] theorem channel_setChannel (s : State) (c k : Nat) (v : Channel) :
    (s.setChannel c v).channel k = if k = c then v else s.channel k := Table.get_set _ _ _ _ _

theorem channel_congr {s t : State} (h : t.voice = s.voice) (k : Nat) : t.channel k = s.channel k := by
  unfold State.channel; rw [h]

theorem prefetch_channel (ch : Nat) (s : State) (k : Nat) (h : k ≠ ch) : (prefetch ch s).channel k = s.channel k := by
  unfold prefetch
  dsimp only
  split
  · split
    · unfold fetchBlock
      rw [channel_congr (t := raiseAll _ _) (s := State.setChannel _ _ _) rfl, channel_setChannel, if_neg h]
    · rfl
  · rfl

theorem playStep_channel (ch : Nat) (s : State) (k : Nat) (h : k ≠ ch) :
    (playStep ch s).2.channel k = s.channel k := by
  unfold playStep
  dsimp only
  split
  · simp [h]
  · split
    · simp [yieldSample, h]
    · split
      · simp only [yieldSample, moveBuffer, channel_setChannel, h, if_false]
        rw [prefetch_channel _ _ _ h, channel_setChannel, if_neg h]
      · rfl

theorem serveRead_channel (zeroed : Option Nat) (off : Nat) (ls : List (Option Byte)) (seen : List Nat) (s : State)
    (k : Nat) (h : s.stillChannel k) : (serveRead zeroed off ls seen s).2.2.channel k = s.channel k := by
  refine serveRead_ind (fun t => t.channel k = s.channel k) zeroed ?_ ?_ ls off seen s rfl
  · intro ch seen t ht
    unfold meetChannel
    dsimp only
    split
    · next hc =>
      have : k ≠ ch := by
        rintro rfl
        rw [ht] at hc
        exact h.2 hc.2
      rw [channel_setChannel, if_neg this, ht]
    · exact ht
  · intro ch t ht hpl
    have : k ≠ ch := by
      rintro rfl
      rw [ht] at hpl
      exact h.1 hpl
    rw [playStep_channel _ _ _ this, ht]

theorem serveVoice_channel (zeroed : Option Nat) (seen : List Nat) (w : HeadWork) (s : State) (k : Nat)
    (h : s.stillChannel k) : (serveVoice zeroed seen w s).2.2.channel k = s.channel k := by
  have hs := serveRead_channel zeroed (s.voiceOffset (s.voiceParts w)) (partLanes (s.voiceParts w)) seen s k h
  unfold serveVoice
  dsimp only
  split
  · rfl
  · split <;> next he => rw [he] at hs; exact hs

theorem State.stillChannel.of_eq {s t : State} {k : Nat} (h : s.stillChannel k) (e : t.channel k = s.channel k) :
    t.stillChannel k := by
  unfold State.stillChannel at *
  rw [e]
  exact h

theorem advanceHead_channel (req : HostRequest) (n : Nat) (w : HeadWork) (s : State) (k : Nat)
    (h : s.stillChannel k) : (advanceHead req n w s).channel k = s.channel k := by
  induction n generalizing w s with
  | zero => rfl
  | succ n ih =>
    unfold advanceHead
    dsimp only
    split
    · split
      · rfl
      · obtain ⟨_, _, -, e⟩ := leaveRead_eq req w.answer s
        rw [e]; rfl
    · split
      · split
        · have e := serveVoice_channel none [] w s k h
          rw [ih _ _ (h.of_eq e), e]
        · rfl
      · generalize (if req.write = true then _ else _ : List (Option Byte)) = lanes
        split
        · rfl
        · exact ih _ _ h

theorem serveHead_channel (req : HostRequest) (zeroed : Option Nat) (seen : List Nat) (w : HeadWork) (s : State)
    (k : Nat) (h : s.stillChannel k) : (serveHead req zeroed seen w s).channel k = s.channel k := by
  have hs := serveVoice_channel zeroed seen w s k h
  unfold serveHead
  split <;> next he =>
    rw [he] at hs
    first
    | rw [advanceHead_channel _ _ _ _ _ (h.of_eq hs)]; exact hs
    | exact hs

theorem resumeStall_channel (s : State) (k : Nat) (h : s.stillChannel k) :
    (resumeStall s).channel k = s.channel k := by
  unfold resumeStall
  split
  · split
    · exact serveHead_channel _ _ _ _ s k h
    · rfl
  · rfl

theorem joinFifo_voice (s : State) : (joinFifo s).voice = s.voice := by
  have hc : (choose 2 s).2.voice = s.voice := by unfold choose; split <;> rfl
  unfold joinFifo
  dsimp only
  split
  · split <;> rfl
  · split <;> rfl
  · split <;> (split <;> exact hc)

theorem fillFifo_voice (n : Nat) (s : State) : (fillFifo n s).voice = s.voice := by
  induction n generalizing s with
  | zero => rfl
  | succ n ih =>
    unfold fillFifo
    split
    · rw [ih, joinFifo_voice]
    · rfl

theorem startHead_channel (s : State) (k : Nat) (h : s.stillChannel k) :
    (startHead s).channel k = s.channel k := by
  unfold startHead
  split
  · rfl
  · split
    · rfl
    · unfold startRequest
      dsimp only
      split
      · exact advanceHead_channel _ _ _ s k h
      · rfl
    · rfl

theorem settleFifo_channel (n : Nat) (s : State) (k : Nat) (h : s.stillChannel k) :
    (settleFifo n s).channel k = s.channel k := by
  induction n generalizing s with
  | zero => rfl
  | succ n ih =>
    unfold settleFifo
    dsimp only
    have e1 : (fillFifo Config.fifoDepth s).channel k = s.channel k := channel_congr (fillFifo_voice _ s) k
    have e2 := startHead_channel _ k (h.of_eq e1)
    split
    · rw [e2, e1]
    · rw [ih _ ((h.of_eq e1).of_eq e2), e2, e1]

theorem queueNotice_voice (n : Notice) (s : State) : (queueNotice n s).voice = s.voice := by
  unfold queueNotice; split <;> rfl

theorem interleave_voice {α : Type} (key : α → Nat) (xs batch : List α) (s : State) :
    (interleave key xs batch s).2.voice = s.voice := by
  induction xs generalizing batch s with
  | nil => rfl
  | cons x xs ih => rw [interleave]; dsimp only; rw [ih]; unfold choose; split <;> rfl

theorem commitNotices_voice (s : State) : (commitNotices s).voice = s.voice := by
  unfold commitNotices
  dsimp only
  rw [foldl_keeps State.voice (fun t (n : Requester × Notice) => queueNotice n.2 t)
    (fun t n => queueNotice_voice n.2 t)]
  exact interleave_voice _ _ _ s

theorem commit_voice (s : State) : (commit s).voice = s.voice := by
  unfold commit
  dsimp only
  rw [foldl_keeps State.voice (fun t who => commitLine who _ t) (fun t who => interleave_voice _ _ _ t)]
  exact commitNotices_voice s

/-- The end of a step leaves the context of a channel that is neither PLAYING nor ENDED. -/
theorem finish_channel (s : State) (k : Nat) (h : s.stillChannel k) : (finish s).channel k = s.channel k := by
  unfold finish
  dsimp only
  rw [channel_congr (commit_voice _) k,
    settleFifo_channel _ _ k (h.of_eq (resumeStall_channel s k h)), resumeStall_channel s k h]

/-! ### The bounds of the FIFO and of the notice queue -/

/-- The FIFO holds no more than its depth, and neither does the notice queue. -/
def Bounded (s : State) : Prop :=
  s.host.fifo.length ≤ Config.fifoDepth ∧ s.notices.queue.length ≤ Config.noticeDepth

theorem Bounded.mono {s t : State} (h : Bounded s) (hf : t.host.fifo.length ≤ s.host.fifo.length)
    (hn : t.notices = s.notices) : Bounded t := ⟨hf.trans h.1, by rw [hn]; exact h.2⟩

theorem playStep_hostNotices (ch : Nat) (s : State) :
    (playStep ch s).2.host = s.host ∧ (playStep ch s).2.notices = s.notices := by
  have h := playStep_base ch s
  simp only [State.base, Prod.mk.injEq] at h
  exact ⟨h.2.2.1, h.2.2.2.2⟩

theorem serveVoice_bounded (zeroed : Option Nat) (seen : List Nat) (w : HeadWork) (s : State) :
    (serveVoice zeroed seen w s).2.2.host = s.host ∧ (serveVoice zeroed seen w s).2.2.notices = s.notices := by
  have hs := serveRead_base zeroed (s.voiceOffset (s.voiceParts w)) (partLanes (s.voiceParts w)) seen s
  simp only [State.base, Prod.mk.injEq] at hs
  unfold serveVoice
  dsimp only
  split
  · exact ⟨rfl, rfl⟩
  · split <;> next he => rw [he] at hs; exact ⟨hs.2.2.1, hs.2.2.2.2⟩

theorem advanceHead_bounded (req : HostRequest) (n : Nat) (w : HeadWork) (s : State) (h : Bounded s) :
    Bounded (advanceHead req n w s) := by
  induction n generalizing w s with
  | zero => exact h.mono (le_refl _) rfl
  | succ n ih =>
    unfold advanceHead
    dsimp only
    split
    · split
      · exact h.mono (le_refl _) rfl
      · obtain ⟨_, _, -, e⟩ := leaveRead_eq req w.answer s
        rw [e]
        exact h.mono (by simp) rfl
    · split
      · split
        · have e := serveVoice_bounded none [] w s
          exact ih _ _ (h.mono (by rw [e.1]) e.2)
        · exact h.mono (le_refl _) rfl
      · generalize (if req.write = true then _ else _ : List (Option Byte)) = lanes
        split
        · exact h.mono (le_refl _) rfl
        · exact ih _ _ h

theorem serveHead_bounded (req : HostRequest) (zeroed : Option Nat) (seen : List Nat) (w : HeadWork) (s : State)
    (h : Bounded s) : Bounded (serveHead req zeroed seen w s) := by
  have hs := serveVoice_bounded zeroed seen w s
  unfold serveHead
  split <;> next he =>
    rw [he] at hs
    first
    | exact advanceHead_bounded _ _ _ _ (h.mono (by rw [hs.1]) hs.2)
    | (have e : _ = _ := congrArg (fun x : HostPath => x.fifo.length) hs.1
       exact h.mono (le_of_eq e) hs.2)

theorem resumeStall_bounded (s : State) (h : Bounded s) : Bounded (resumeStall s) := by
  unfold resumeStall
  split
  · split
    · exact serveHead_bounded _ _ _ _ s h
    · exact h
  · exact h

theorem joinFifo_bounded (s : State) (h : Bounded s) (hl : s.host.fifo.length < Config.fifoDepth) :
    Bounded (joinFifo s) := by
  have hc : (choose 2 s).2.host = s.host ∧ (choose 2 s).2.notices = s.notices := by
    unfold choose; split <;> exact ⟨rfl, rfl⟩
  have key : ∀ (t : State) (e : FifoEntry), t.host = s.host → t.notices = s.notices →
      (t.host.fifo ++ [e]).length ≤ Config.fifoDepth ∧ t.notices.queue.length ≤ Config.noticeDepth := by
    intro t e h1 h2
    rw [h1, h2]
    refine ⟨?_, h.2⟩
    simp only [List.length_append, List.length_cons, List.length_nil]
    omega
  have same : ∀ t : State, t.host = s.host → t.notices = s.notices → Bounded t := fun t h1 h2 =>
    h.mono (by rw [h1]) h2
  unfold joinFifo
  dsimp only
  split
  · split
    · exact same s rfl rfl
    · exact key s _ rfl rfl
  · split
    · exact same s rfl rfl
    · exact key s _ rfl rfl
  · split
    · split
      · exact same _ hc.1 hc.2
      · exact key _ _ hc.1 hc.2
    · split
      · exact same _ hc.1 hc.2
      · exact key _ _ hc.1 hc.2

theorem fillFifo_bounded (n : Nat) (s : State) (h : Bounded s) : Bounded (fillFifo n s) := by
  induction n generalizing s with
  | zero => exact h
  | succ n ih =>
    unfold fillFifo
    split
    · next hc => exact ih _ (joinFifo_bounded s h hc.1)
    · exact h

theorem startHead_bounded (s : State) (h : Bounded s) : Bounded (startHead s) := by
  unfold startHead
  split
  · exact h
  · split
    · exact h
    · unfold startRequest
      dsimp only
      split
      · exact advanceHead_bounded _ _ _ s h
      · exact h
    · exact h

theorem settleFifo_bounded (n : Nat) (s : State) (h : Bounded s) : Bounded (settleFifo n s) := by
  induction n generalizing s with
  | zero => exact h
  | succ n ih =>
    unfold settleFifo
    dsimp only
    have h2 := startHead_bounded _ (fillFifo_bounded Config.fifoDepth s h)
    split
    · exact h2
    · exact ih _ h2

theorem queueNotice_bounded (n : Notice) (s : State) (h : Bounded s) : Bounded (queueNotice n s) := by
  unfold queueNotice
  split
  · next hl =>
    refine ⟨h.1, ?_⟩
    simp only [List.length_append, List.length_cons, List.length_nil]
    omega
  · exact h

theorem interleave_host {α : Type} (key : α → Nat) (xs batch : List α) (s : State) :
    (interleave key xs batch s).2.host = s.host ∧ (interleave key xs batch s).2.notices = s.notices := by
  induction xs generalizing batch s with
  | nil => exact ⟨rfl, rfl⟩
  | cons x xs ih =>
    rw [interleave]
    dsimp only
    have hc : ∀ n, (choose n s).2.host = s.host ∧ (choose n s).2.notices = s.notices := by
      intro n; unfold choose; split <;> exact ⟨rfl, rfl⟩
    exact ⟨(ih _ _).1.trans (hc _).1, (ih _ _).2.trans (hc _).2⟩

theorem foldl_bounded {α : Type} (f : State → α → State) (hf : ∀ t a, Bounded t → Bounded (f t a)) (l : List α)
    (s : State) (h : Bounded s) : Bounded (l.foldl f s) := by
  induction l generalizing s with
  | nil => exact h
  | cons a l ih => exact ih _ (hf _ _ h)

theorem commit_bounded (s : State) (h : Bounded s) : Bounded (commit s) := by
  unfold commit
  dsimp only
  refine foldl_bounded _ (fun t who ht => ?_) _ _ ?_
  · have e := interleave_host (fun r : Request => r.source.key)
      ((commitNotices s).out.requests.filter fun r => r.source.requester = who) [] t
    exact ht.mono (by show _ ≤ _; simp [commitLine, e.1]) e.2
  · show Bounded (commitNotices s)
    unfold commitNotices
    dsimp only
    refine foldl_bounded _ (fun t n ht => queueNotice_bounded n.2 t ht) _ _ ?_
    have e := interleave_host (fun n : Requester × Notice => requesterIndex n.1) s.out.notices [] s
    exact h.mono (by show _ ≤ _; simp [e.1]) e.2

/-- The end of a step keeps the bounds of the FIFO and of the notice queue (R150, R183). -/
theorem finish_bounded (s : State) (h : Bounded s) : Bounded (finish s) :=
  commit_bounded _ (settleFifo_bounded _ _ (resumeStall_bounded s h))

end Sys2Proof.Machine
end

