-- ==== Sys2Proof/Laws/Caps.lean ====
section
/-! SUPPORT. The pocket, the table of orders in flight and the folio write queue hold no more than R21, R173 and R140
give them, whatever the engines do. -/

namespace Sys2Proof.Machine

/-- The three bounds. -/
structure Caps (s : State) : Prop where
  pocket   : s.store.pocket.length ≤ Config.pocketDepth
  inFlight : s.ring.inFlight.length ≤ Config.inFlightMax
  queue    : s.rating.queue.length ≤ Config.folioQueueDepth

@[simp] theorem caps_pocket (s : State) (h : Caps s) : s.store.pocket.length ≤ Config.pocketDepth := h.pocket
@[simp] theorem caps_inFlight (s : State) (h : Caps s) : s.ring.inFlight.length ≤ Config.inFlightMax := h.inFlight
@[simp] theorem caps_queue (s : State) (h : Caps s) : s.rating.queue.length ≤ Config.folioQueueDepth := h.queue

@[simp] theorem caps_mk (p : List Instr) (st : BitVec 3) (m : Table Byte) (ti : TimeBase) (fr : BitVec 32)
    (c : Control) (h : HostPath) (a : Arbiter) (v : Voice) (sto : Store) (r : Ring) (n : Notices) (ra : Rating)
    (l : LampEngine) (o : Outbox) (ch : Nat) :
    Caps ⟨p, st, m, ti, fr, c, h, a, v, sto, r, n, ra, l, o, ch⟩ ↔
      sto.pocket.length ≤ Config.pocketDepth ∧ r.inFlight.length ≤ Config.inFlightMax ∧
        ra.queue.length ≤ Config.folioQueueDepth :=
  ⟨fun h => ⟨h.1, h.2, h.3⟩, fun h => ⟨h.1, h.2.1, h.2.2⟩⟩

/-- A fold of steps that each keep the bounds keeps them. -/
theorem foldl_caps {α : Type} (f : State → α → State) (hf : ∀ t a, Caps t → Caps (f t a)) (l : List α)
    (s : State) (h : Caps s) : Caps (l.foldl f s) := by
  induction l generalizing s with
  | nil => exact h
  | cons a l ih => exact ih _ (hf _ _ h)

@[simp] theorem State.setChannel_caps (s : State) (c : Nat) (v : Channel) (h : Caps s) :
    Caps (State.setChannel s c v) := by simp [State.setChannel, h]

@[simp] theorem State.setMessage_caps (s : State) (i : Nat) (v : Message) (h : Caps s) :
    Caps (State.setMessage s i v) := by simp [State.setMessage, h]

@[simp] theorem State.setMailbox_caps (s : State) (r : Nat) (v : Mailbox) (h : Caps s) :
    Caps (State.setMailbox s r v) := by simp [State.setMailbox, h]

@[simp] theorem State.setTrunk_caps (s : State) (t : Nat) (v : Trunk) (h : Caps s) :
    Caps (State.setTrunk s t v) := by simp [State.setTrunk, h]

@[simp] theorem State.setFolios_caps (s : State) (r : Nat) (v : RoomFolios) (h : Caps s) :
    Caps (State.setFolios s r v) := by simp [State.setFolios, h]

@[simp] theorem State.setLamp_caps (s : State) (r : Nat) (v : Lamp) (h : Caps s) :
    Caps (State.setLamp s r v) := by simp [State.setLamp, h]

@[simp] theorem State.setCard_caps (s : State) (k : Nat) (v : Card) (h : Caps s) :
    Caps (State.setCard s k v) := by simp [State.setCard, h]

@[simp] theorem State.setRoomShadow_caps (s : State) (r : Nat) (v : Shadow) (h : Caps s) :
    Caps (State.setRoomShadow s r v) := by simp [State.setRoomShadow, h]

@[simp] theorem State.setTrunkShadow_caps (s : State) (t : Nat) (v : Shadow) (h : Caps s) :
    Caps (State.setTrunkShadow s t v) := by simp [State.setTrunkShadow, h]

@[simp] theorem State.setTariffShadow_caps (s : State) (i : Nat) (v : Shadow) (h : Caps s) :
    Caps (State.setTariffShadow s i v) := by simp [State.setTariffShadow, h]

@[simp] theorem raise_caps (r : Request) (s : State) (h : Caps s) :
    Caps (raise r s) := by simp [raise, h]

@[simp] theorem raiseAll_caps (rs : List Request) (s : State) (h : Caps s) :
    Caps (raiseAll rs s) := by simp [raiseAll, h]

@[simp] theorem notify_caps (who : Requester) (k : NoticeKind) (room detail1 detail2 : Nat) (s : State) (h : Caps s) :
    Caps (notify who k room detail1 detail2 s) := by
  unfold notify
  split <;> simp [h]

@[simp] theorem dropNotice_caps (s : State) (h : Caps s) :
    Caps (dropNotice s) := by simp [dropNotice, h]

@[simp] theorem queueNotice_caps (n : Notice) (s : State) (h : Caps s) :
    Caps (queueNotice n s) := by
  unfold queueNotice
  split <;> simp [h]

@[simp] theorem beginStep_caps (s : State) (h : Caps s) :
    Caps (beginStep s) := by simp [beginStep, h]

@[simp] theorem takeReturn_caps (p : Source → Bool) (s : State) (h : Caps s) :
    Caps (takeReturn p s) := by simp [takeReturn, h]

@[simp] theorem markMail_caps (r : Nat) (s : State) (h : Caps s) :
    Caps (markMail r s) := by simp [markMail, h]

@[simp] theorem markFolio_caps (r : Nat) (s : State) (h : Caps s) :
    Caps (markFolio r s) := by simp [markFolio, h]

@[simp] theorem markLamp_caps (r : Nat) (s : State) (h : Caps s) :
    Caps (markLamp r s) := by simp [markLamp, h]

@[simp] theorem recomputeLamp_caps (r : Nat) (s : State) (h : Caps s) :
    Caps (recomputeLamp r s) := by
  unfold recomputeLamp
  dsimp only
  (repeat' split) <;> simp (maxDischargeDepth := 20) [h]

@[simp] theorem setOverride_caps (o : Override) (r : Nat) (s : State) (h : Caps s) :
    Caps (setOverride o r s) := by
  unfold setOverride
  dsimp only
  (repeat' split) <;> simp (maxDischargeDepth := 20) [h]

@[simp] theorem clearDesk_caps (r : Nat) (s : State) (h : Caps s) :
    Caps (clearDesk r s) := by
  unfold clearDesk
  dsimp only
  (repeat' split) <;> simp (maxDischargeDepth := 20) [h]

@[simp] theorem recordWrite_caps (i : Nat) (s : State) (h : Caps s) :
    Caps (recordWrite i s) := by
  unfold recordWrite
  split <;> simp [h]

@[simp] theorem updateMessage_caps (i : Nat) (m : Message) (s : State) (h : Caps s) :
    Caps (updateMessage i m s) := by simp [updateMessage, h]

@[simp] theorem freeRecord_caps (i : Nat) (s : State) (h : Caps s) :
    Caps (freeRecord i s) := by
  unfold freeRecord
  dsimp only
  (repeat' split) <;> simp (maxDischargeDepth := 20) [h]

@[simp] theorem relink_caps (list : List Nat) (i : Nat) (s : State) (h : Caps s) :
    Caps (relink list i s) := by
  unfold relink
  dsimp only
  (repeat' split) <;> simp (maxDischargeDepth := 20) [h]

@[simp] theorem setList_caps (r : Nat) (list : List Nat) (s : State) (h : Caps s) : Caps (setList r list s) := by
  have hf := foldl_caps (fun t i => relink list i t) (fun t i ht => relink_caps list i t ht)
    ((s.mailbox r).list ++ list) s h
  unfold setList
  dsimp only
  split
  · exact markMail_caps _ _ (State.setMailbox_caps _ _ _ hf)
  · exact recomputeLamp_caps _ _ (markMail_caps _ _ (State.setMailbox_caps _ _ _ hf))

@[simp] theorem setPlaces_caps (r n : Nat) (s : State) (h : Caps s) :
    Caps (setPlaces r n s) := by simp [setPlaces, h]

@[simp] theorem setBlocksUsed_caps (r n : Nat) (s : State) (h : Caps s) :
    Caps (setBlocksUsed r n s) := by simp [setBlocksUsed, h]

@[simp] theorem moveMessage_caps (i : Nat) (st : MessageState) (s : State) (h : Caps s) :
    Caps (moveMessage i st s) := by simp [moveMessage, h]

@[simp] theorem storeLowAfterTake_caps (n : Nat) (s : State) (h : Caps s) :
    Caps (storeLowAfterTake n s) := by
  unfold storeLowAfterTake
  dsimp only
  (repeat' split) <;> simp (maxDischargeDepth := 20) [h]

theorem takeReady_length (p : List PocketEntry) (b : Nat) (q : List PocketEntry) (h : takeReady p = some (b, q)) :
    q.length ≤ p.length := by
  induction p generalizing q with
  | nil => simp [takeReady] at h
  | cons e p ih =>
    cases e with
    | ready n =>
      simp only [takeReady, Option.some.injEq, Prod.mk.injEq] at h
      rw [← h.2]
      simp
    | arriving =>
      simp only [takeReady, Option.map_eq_some_iff] at h
      obtain ⟨⟨b', q'⟩, h1, h2⟩ := h
      simp only [Prod.mk.injEq] at h2
      obtain ⟨rfl, rfl⟩ := h2
      have := ih q' h1
      simp only [List.length_cons]
      omega

@[simp] theorem evalTake_caps (i : Nat) (s : State) (h : Caps s) : Caps (evalTake i s).2 := by
  unfold evalTake
  dsimp only
  split
  · exact h
  · split
    · exact h
    · next b q hq =>
      have hl := takeReady_length _ _ _ hq
      apply storeLowAfterTake_caps
      apply setBlocksUsed_caps
      apply updateMessage_caps
      rw [caps_mk]
      exact ⟨hl.trans h.pocket, h.inFlight, h.queue⟩

@[simp] theorem releaseBlock_caps (b : Nat) (s : State) (h : Caps s) : Caps (releaseBlock b s) := by
  unfold releaseBlock
  dsimp only
  by_cases hp : s.store.pocket.length < Config.pocketDepth
  · simp only [hp, if_true]
    split <;> simp [h] <;> omega
  · simp only [hp, if_false]
    split <;> simp [h]

@[simp] theorem raiseWalk_caps (w : Walk) (s : State) (h : Caps s) :
    Caps (raiseWalk w s) := by simp [raiseWalk, h]

@[simp] theorem startWalk_caps (s : State) (h : Caps s) :
    Caps (startWalk s) := by
  unfold startWalk
  split <;> simp [h]

@[simp] theorem queueChain_caps (i : Nat) (cause : Cause) (s : State) (h : Caps s) :
    Caps (queueChain i cause s) := by
  unfold queueChain
  dsimp only
  (repeat' split) <;> simp (maxDischargeDepth := 20) [h]

@[simp] theorem releaseMessage_caps (i : Nat) (cause : Cause) (s : State) (h : Caps s) :
    Caps (releaseMessage i cause s) := by
  unfold releaseMessage
  dsimp only
  (repeat' split) <;> simp (maxDischargeDepth := 20) [h]

@[simp] theorem joinReleaseLine_caps (who : Waiter) (n : Nat) (s : State) (h : Caps s) :
    Caps (joinReleaseLine who n s) := by simp [joinReleaseLine, h]

@[simp] theorem updateEntry_caps (slot : Nat) (f : InFlight → InFlight) (s : State) (h : Caps s) :
    Caps (updateEntry slot f s) := by simp [updateEntry, h]

@[simp] theorem freeEntry_caps (slot : Nat) (s : State) (h : Caps s) : Caps (freeEntry slot s) := by
  unfold freeEntry
  rw [caps_mk]
  exact ⟨h.pocket, (List.length_filter_le _ _).trans h.inFlight, h.queue⟩

@[simp] theorem raiseExecuting_caps (slot : Nat) (copy : List Byte) (s : State) (h : Caps s) :
    Caps (raiseExecuting slot copy s) := by simp [raiseExecuting, h]

@[simp] theorem completeOrder_caps (slot : Nat) (status : Status) (deferred : Bool) (res : List Byte) (s : State) (h : Caps s) :
    Caps (completeOrder slot status deferred res s) := by
  unfold completeOrder
  split <;> simp [h]

@[simp] theorem completeFor_caps (order : Option Nat) (status : Status) (res : List Byte) (s : State) (h : Caps s) :
    Caps (completeFor order status res s) := by
  unfold completeFor
  split <;> simp [h]

@[simp] theorem orderStep_caps (slot : Nat) (s : State) (h : Caps s) : Caps (orderStep slot s) := by
  unfold orderStep
  split
  · exact h
  · split
    · exact completeOrder_caps _ _ _ _ _ (updateEntry_caps _ _ _ h)
    · exact updateEntry_caps _ _ _ h

@[simp] theorem startFilling_caps (ch : Nat) (second : Bool) (b : Nat) (s : State) (h : Caps s) :
    Caps (startFilling ch second b s) := by
  unfold startFilling
  dsimp only
  (repeat' split) <;> simp (maxDischargeDepth := 20) [h]

@[simp] theorem writeBlock_caps (ch : Nat) (second : Bool) (next : Nat) (s : State) (h : Caps s) :
    Caps (writeBlock ch second next s) := by simp [writeBlock, h]

@[simp] theorem updateLength_caps (ch : Nat) (s : State) (h : Caps s) :
    Caps (updateLength ch s) := by simp [updateLength, h]

@[simp] theorem noticeStopped_caps (ch : Nat) (reason : StopReason) (s : State) (h : Caps s) :
    Caps (noticeStopped ch reason s) := by simp [noticeStopped, h]

@[simp] theorem stopRecording_caps (ch : Nat) (reason : StopReason) (s : State) (h : Caps s) :
    Caps (stopRecording ch reason s) := by
  unfold stopRecording
  dsimp only
  simp (maxDischargeDepth := 20) [h]

@[simp] theorem answerOpening_caps (ch : Nat) (a : TakeAnswer) (s : State) (h : Caps s) :
    Caps (answerOpening ch a s) := by
  unfold answerOpening
  dsimp only
  (repeat' split) <;> simp (maxDischargeDepth := 20) [h]

@[simp] theorem answerRecording_caps (ch : Nat) (a : TakeAnswer) (s : State) (h : Caps s) :
    Caps (answerRecording ch a s) := by
  unfold answerRecording
  dsimp only
  (repeat' split) <;> simp (maxDischargeDepth := 20) [h]

@[simp] theorem answerTake_caps (ch : Nat) (a : TakeAnswer) (s : State) (h : Caps s) :
    Caps (answerTake ch a s) := by
  unfold answerTake
  split <;> simp [h]

@[simp] theorem requestTake_caps (ch : Nat) (s : State) (h : Caps s) :
    Caps (requestTake ch s) := by
  unfold requestTake
  dsimp only
  (repeat' split) <;> simp (maxDischargeDepth := 20) [h]

@[simp] theorem serveTakeLine_caps (n : Nat) (s : State) (h : Caps s) : Caps (serveTakeLine n s) := by
  induction n generalizing s with
  | zero => exact h
  | succ n ih =>
    unfold serveTakeLine
    dsimp only
    (repeat' split) <;> first | exact h | (apply ih; simp (maxDischargeDepth := 20) [h])

@[simp] theorem takeLineTurn_caps (s : State) (h : Caps s) :
    Caps (takeLineTurn s) := by simp [takeLineTurn, h]

@[simp] theorem withdrawTake_caps (ch : Nat) (s : State) (h : Caps s) :
    Caps (withdrawTake ch s) := by simp [withdrawTake, h]

@[simp] theorem returnBlock_caps (ch b : Nat) (s : State) (h : Caps s) :
    Caps (returnBlock ch b s) := by
  unfold returnBlock
  dsimp only
  (repeat' split) <;> simp (maxDischargeDepth := 20) [h]

@[simp] theorem codeSample_caps (ch : Nat) (second : Bool) (x : Int) (s : State) (h : Caps s) :
    Caps (codeSample ch second x s) := by simp [codeSample, h]

@[simp] theorem afterSample_caps (ch : Nat) (second : Bool) (s : State) (h : Caps s) :
    Caps (afterSample ch second s) := by
  unfold afterSample
  dsimp only
  (repeat' split) <;> simp (maxDischargeDepth := 20) [h]

@[simp] theorem refuseSample_caps (ch : Nat) (s : State) (h : Caps s) :
    Caps (refuseSample ch s) := by simp [refuseSample, h]

@[simp] theorem dropSample_caps (ch : Nat) (s : State) (h : Caps s) :
    Caps (dropSample ch s) := by simp [dropSample, h]

@[simp] theorem takeSample_caps (ch : Nat) (x : Int) (s : State) (h : Caps s) :
    Caps (takeSample ch x s) := by
  unfold takeSample
  dsimp only
  (repeat' split) <;> simp (maxDischargeDepth := 20) [h]

@[simp] theorem takePosition_caps (off : Nat) (lo hi : Option Byte) (s : State) (h : Caps s) :
    Caps (takePosition off lo hi s) := by
  unfold takePosition
  split
  · exact h
  · split <;> simp [h]

@[simp] theorem takeLanes_caps (off : Nat) (ls : List (Option Byte)) (s : State) (h : Caps s) :
    Caps (takeLanes off ls s) := by
  fun_induction takeLanes off ls s with
  | case1 off lo hi ls s ih => exact ih (takePosition_caps _ _ _ s h)
  | case2 => exact h

@[simp] theorem freeChannel_caps (ch : Nat) (st : Status) (res : List Byte) (s : State) (h : Caps s) :
    Caps (freeChannel ch st res s) := by simp [freeChannel, h]

@[simp] theorem channelReleased_caps (ch : Nat) (s : State) (h : Caps s) :
    Caps (channelReleased ch s) := by
  unfold channelReleased
  dsimp only
  (repeat' split) <;> simp (maxDischargeDepth := 20) [h]

@[simp] theorem startChannelRelease_caps (ch : Nat) (s : State) (h : Caps s) :
    Caps (startChannelRelease ch s) := by
  unfold startChannelRelease
  dsimp only
  (repeat' split) <;> simp (maxDischargeDepth := 20) [h]

@[simp] theorem askRelease_caps (ch : Nat) (s : State) (h : Caps s) :
    Caps (askRelease ch s) := by
  unfold askRelease
  dsimp only
  (repeat' split) <;> simp (maxDischargeDepth := 20) [h]

@[simp] theorem commitRecording_caps (ch : Nat) (s : State) (h : Caps s) :
    Caps (commitRecording ch s) := by simp [commitRecording, h]

@[simp] theorem closeByRelease_caps (ch : Nat) (st : Status) (s : State) (h : Caps s) :
    Caps (closeByRelease ch st s) := by
  unfold closeByRelease
  dsimp only
  (repeat' split) <;> simp (maxDischargeDepth := 20) [h]

@[simp] theorem afterWrites_caps (ch : Nat) (s : State) (h : Caps s) :
    Caps (afterWrites ch s) := by
  unfold afterWrites
  dsimp only
  (repeat' split) <;> simp (maxDischargeDepth := 20) [h]

@[simp] theorem returnBuffer_caps (ch : Nat) (second : Bool) (s : State) (h : Caps s) :
    Caps (returnBuffer ch second s) := by
  unfold returnBuffer
  dsimp only
  (repeat' split) <;> simp (maxDischargeDepth := 20) [h]

@[simp] theorem returnWaiting_caps (ch : Nat) (s : State) (h : Caps s) :
    Caps (returnWaiting ch s) := by
  unfold returnWaiting
  dsimp only
  (repeat' split) <;> simp (maxDischargeDepth := 20) [h]

@[simp] theorem dropUnwritten_caps (ch : Nat) (s : State) (h : Caps s) : Caps (dropUnwritten ch s) :=
  returnWaiting_caps ch _ (returnBuffer_caps ch _ _ (returnBuffer_caps ch _ _ (withdrawTake_caps ch s h)))

@[simp] theorem patchLast_caps (ch : Nat) (s : State) (h : Caps s) :
    Caps (patchLast ch s) := by
  unfold patchLast
  dsimp only
  (repeat' split) <;> simp (maxDischargeDepth := 20) [h]

@[simp] theorem returnEmpty_caps (ch b : Nat) (s : State) (h : Caps s) :
    Caps (returnEmpty ch b s) := by
  unfold returnEmpty
  dsimp only
  (repeat' split) <;> simp (maxDischargeDepth := 20) [h]

@[simp] theorem closeBlocks_caps (ch : Nat) (s : State) (h : Caps s) :
    Caps (closeBlocks ch s) := by
  unfold closeBlocks
  dsimp only
  (repeat' split) <;> simp (maxDischargeDepth := 20) [h]

@[simp] theorem blockWritten_caps (ch : Nat) (second : Bool) (s : State) (h : Caps s) :
    Caps (blockWritten ch second s) := by
  unfold blockWritten
  dsimp only
  (repeat' split) <;> simp (maxDischargeDepth := 20) [h]

@[simp] theorem patchWritten_caps (ch : Nat) (s : State) (h : Caps s) :
    Caps (patchWritten ch s) := by simp [patchWritten, h]

@[simp] theorem checkoutChannel_caps (ch : Nat) (s : State) (h : Caps s) :
    Caps (checkoutChannel ch s) := by
  unfold checkoutChannel
  dsimp only
  (repeat' split) <;> simp (maxDischargeDepth := 20) [h]

@[simp] theorem checkoutChannels_caps (r : Nat) (s : State) (h : Caps s) : Caps (checkoutChannels r s) := by
  refine foldl_caps _ (fun t ch ht => ?_) _ s h
  split
  · exact checkoutChannel_caps _ t ht
  · exact ht

@[simp] theorem fetchBlock_caps (ch : Nat) (second : Bool) (b : Nat) (s : State) (h : Caps s) :
    Caps (fetchBlock ch second b s) := by simp [fetchBlock, h]

@[simp] theorem prefetch_caps (ch : Nat) (s : State) (h : Caps s) :
    Caps (prefetch ch s) := by
  unfold prefetch
  dsimp only
  (repeat' split) <;> simp (maxDischargeDepth := 20) [h]

@[simp] theorem yieldSample_caps (ch : Nat) (s : State) (h : Caps s) : Caps (yieldSample ch s).2 := by
  simp [yieldSample, h]

@[simp] theorem moveBuffer_caps (ch : Nat) (s : State) (h : Caps s) :
    Caps (moveBuffer ch s) := by simp [moveBuffer, h]

@[simp] theorem playStep_caps (ch : Nat) (s : State) (h : Caps s) : Caps (playStep ch s).2 := by
  unfold playStep
  dsimp only
  (repeat' split) <;> simp [h]

@[simp] theorem meetChannel_caps (ch : Nat) (seen : List Nat) (s : State) (h : Caps s) :
    Caps (meetChannel ch seen s) := by
  unfold meetChannel
  dsimp only
  (repeat' split) <;> simp (maxDischargeDepth := 20) [h]

@[simp] theorem serveRead_caps (zeroed : Option Nat) (off : Nat) (ls : List (Option Byte)) (seen : List Nat)
    (s : State) (h : Caps s) : Caps (serveRead zeroed off ls seen s).2.2 :=
  serveRead_ind Caps zeroed (fun ch seen t ht => meetChannel_caps ch seen t ht)
    (fun ch t ht _ => playStep_caps ch t ht) ls off seen s h

@[simp] theorem openDone_caps (ch : Nat) (ended : Bool) (s : State) (h : Caps s) :
    Caps (openDone ch ended s) := by simp [openDone, h]

@[simp] theorem openEnded_caps (ch : Nat) (s : State) (h : Caps s) :
    Caps (openEnded ch s) := by simp [openEnded, h]

@[simp] theorem openArrived_caps (ch : Nat) (second : Bool) (s : State) (h : Caps s) :
    Caps (openArrived ch second s) := by
  unfold openArrived
  dsimp only
  (repeat' split) <;> simp (maxDischargeDepth := 20) [h]

@[simp] theorem raiseOffsetRead_caps (ch b : Nat) (s : State) (h : Caps s) :
    Caps (raiseOffsetRead ch b s) := by simp [raiseOffsetRead, h]

@[simp] theorem walkStep_caps (ch : Nat) (header : List Byte) (s : State) (h : Caps s) :
    Caps (walkStep ch header s) := by
  unfold walkStep
  dsimp only
  (repeat' split) <;> simp (maxDischargeDepth := 20) [h]

@[simp] theorem fetchArrived_caps (ch : Nat) (second : Bool) (data : List Byte) (s : State) (h : Caps s) :
    Caps (fetchArrived ch second data s) := by
  unfold fetchArrived
  dsimp only
  (repeat' split) <;> simp (maxDischargeDepth := 20) [h]

end Sys2Proof.Machine
end

