-- ==== Sys2Proof/Laws/Caps2.lean ====
section
/-! SUPPORT. The bounds of the pocket, of the orders in flight and of the folio write queue, through rating, lamps,
orders and releases. -/

namespace Sys2Proof.Machine

@[simp] theorem workOutBarred_caps (r : Nat) (total : Int) (s : State) (h : Caps s) :
    Caps (workOutBarred r total s) := by
  unfold workOutBarred
  dsimp only
  (repeat' split) <;> simp (maxDischargeDepth := 20) [h]

@[simp] theorem settleBarred_caps (r : Nat) (s : State) (h : Caps s) :
    Caps (settleBarred r s) := by simp [settleBarred, h]

@[simp] theorem raiseFolioWrite_caps (s : State) (h : Caps s) :
    Caps (raiseFolioWrite s) := by
  unfold raiseFolioWrite
  dsimp only
  (repeat' split) <;> simp (maxDischargeDepth := 20) [h]

@[simp] theorem raiseFolioWrite_queue (s : State) : (raiseFolioWrite s).rating.queue = s.rating.queue := by
  unfold raiseFolioWrite
  split
  · rfl
  · split <;> rfl

theorem queueFolioWrite_queue (w : FolioWrite) (s : State) :
    (queueFolioWrite w s).rating.queue = s.rating.queue ++ [w] := by
  unfold queueFolioWrite
  simp

theorem queueFolioWrite_caps (w : FolioWrite) (s : State) (h : Caps s)
    (hr : s.rating.queue.length < Config.folioQueueDepth) : Caps (queueFolioWrite w s) := by
  unfold queueFolioWrite
  apply raiseFolioWrite_caps
  rw [caps_mk]
  refine ⟨h.pocket, h.inFlight, ?_⟩
  simp only [List.length_append, List.length_cons, List.length_nil]
  omega

@[simp] theorem appendCharge_caps (r : Nat) (p : Place) (f : Folio) (c : Charge) (order : Option Nat) (s : State)
    (h : Caps s) : Caps (appendCharge r p f c order s).2 := by
  have fin : ∀ (s' : State) (v : Int), Caps s' →
      Caps (markFolio r (if p = .opened then workOutBarred r v s' else s')) := by
    intro s' v h'
    apply markFolio_caps
    split
    · exact workOutBarred_caps _ _ _ h'
    · exact h'
  unfold appendCharge
  dsimp only
  split
  · next k rest _ =>
    split
    · next hn =>
      apply fin
      apply State.setFolios_caps
      have hlen : f.entriesNeeded + s.rating.queue.length ≤ Config.folioQueueDepth := by
        have hp : 0 < f.entriesNeeded := by unfold Folio.entriesNeeded; split <;> omega
        unfold State.freeEntries at hn
        omega
      have h1 : Caps { s with rating.freePool := rest } := ⟨h.1, h.2, h.3⟩
      have hp : 0 < f.entriesNeeded := by unfold Folio.entriesNeeded; split <;> omega
      have h2 := queueFolioWrite_caps ⟨s.poolAddr k, allLanes (chargeRecord c none32), order⟩ _ h1
        (by show s.rating.queue.length < _; omega)
      split
      · next tail ht =>
        apply queueFolioWrite_caps _ _ h2
        rw [queueFolioWrite_queue, List.length_append, List.length_singleton]
        have he : f.records ≠ [] := by
          intro e
          rw [e] at ht
          simp at ht
        unfold Folio.entriesNeeded at hlen
        rw [if_neg he] at hlen
        show s.rating.queue.length + 1 < _
        omega
      · exact h2
    · apply fin
      apply notify_caps
      simp [h]
  · apply fin
    apply notify_caps
    simp [h]

@[simp] theorem unbilled_caps (c : Charge) (s : State) (h : Caps s) :
    Caps (unbilled c s) := by simp [unbilled, h]

@[simp] theorem lateCharge_caps (f : Folio) (c : Charge) (s : State) (h : Caps s) :
    Caps (lateCharge f c s) := by
  unfold lateCharge
  dsimp only
  simp (maxDischargeDepth := 20) [h]

@[simp] theorem handOver_caps (c : Charge) (s : State) (h : Caps s) : Caps (handOver c s) := by
  have hu := unbilled_caps c s h
  unfold handOver
  split
  · split
    · split
      · exact appendCharge_caps _ _ _ _ _ _ h
      · split
        · split
          · exact lateCharge_caps _ _ _ h
          · exact hu
        · exact hu
    · split
      · split
        · exact lateCharge_caps _ _ _ h
        · exact hu
      · exact hu
  · exact hu

@[simp] theorem openFolio_caps (r : Nat) (s : State) (h : Caps s) :
    Caps (openFolio r s) := by simp [openFolio, h]

@[simp] theorem returnRecords_caps (f : Folio) (s : State) (h : Caps s) :
    Caps (returnRecords f s) := by simp [returnRecords, h]

@[simp] theorem discardClosed_caps (r : Nat) (s : State) (h : Caps s) :
    Caps (discardClosed r s) := by
  unfold discardClosed
  dsimp only
  (repeat' split) <;> simp (maxDischargeDepth := 20) [h]

@[simp] theorem closeFolio_caps (r : Nat) (s : State) (h : Caps s) :
    Caps (closeFolio r s) := by
  unfold closeFolio
  dsimp only
  (repeat' split) <;> simp (maxDischargeDepth := 20) [h]

@[simp] theorem trunkSequence_caps (t anomaly : Nat) (written : Byte) (s : State) (h : Caps s) :
    Caps (trunkSequence t anomaly written s) := by simp [trunkSequence, h]

@[simp] theorem seizeTrunk_caps (t : Nat) (s : State) (h : Caps s) :
    Caps (seizeTrunk t s) := by simp [seizeTrunk, h]

@[simp] theorem captureCall_caps (t : Nat) (s : State) (h : Caps s) :
    Caps (captureCall t s) := by simp [captureCall, h]

@[simp] theorem countAnswer_caps (t : Nat) (s : State) (h : Caps s) :
    Caps (countAnswer t s) := by
  unfold countAnswer
  split <;> simp [h]

@[simp] theorem missedSeize_caps (t : Nat) (s : State) (h : Caps s) :
    Caps (missedSeize t s) := by
  unfold missedSeize
  dsimp only
  simp (maxDischargeDepth := 20) [h]

@[simp] theorem idleTrunk_caps (t : Nat) (s : State) (h : Caps s) :
    Caps (idleTrunk t s) := by simp [idleTrunk, h]

@[simp] theorem unansweredClear_caps (t : Nat) (s : State) (h : Caps s) :
    Caps (unansweredClear t s) := by
  unfold unansweredClear
  dsimp only
  (repeat' split) <;> simp (maxDischargeDepth := 20) [h]

@[simp] theorem noticeUnrated_caps (c : Charge) (s : State) (h : Caps s) :
    Caps (noticeUnrated c s) := by simp [noticeUnrated, h]

@[simp] theorem rateCall_caps (t : Nat) (implicit : Bool) (s : State) (h : Caps s) :
    Caps (rateCall t implicit s) := by
  unfold rateCall
  dsimp only
  (repeat' split) <;> simp (maxDischargeDepth := 20) [h]

@[simp] theorem answeredClear_caps (t : Nat) (implicit : Bool) (s : State) (h : Caps s) :
    Caps (answeredClear t implicit s) := by
  unfold answeredClear
  dsimp only
  (repeat' split) <;> simp (maxDischargeDepth := 20) [h]

@[simp] theorem stepTrunk_caps (t : Nat) (w : WrittenState) (s : State) (h : Caps s) :
    Caps (stepTrunk t w s) := by
  unfold stepTrunk
  split <;> simp [h]

@[simp] theorem trunkWritten_caps (t : Nat) (old new : Byte) (s : State) (h : Caps s) :
    Caps (trunkWritten t old new s) := by
  unfold trunkWritten
  dsimp only
  (repeat' split) <;> simp (maxDischargeDepth := 20) [h]

@[simp] theorem settleTrunk_caps (t : Nat) (s : State) (h : Caps s) :
    Caps (settleTrunk t s) := by
  unfold settleTrunk
  dsimp only
  (repeat' split) <;> simp (maxDischargeDepth := 20) [h]

@[simp] theorem sendFrame_caps (k : Nat) (f : BitVec 32) (changed : List Nat) (s : State) (h : Caps s) :
    Caps (sendFrame k f changed s) := by simp [sendFrame, h]

@[simp] theorem startSweep_caps (s : State) (h : Caps s) :
    Caps (startSweep s) := by
  unfold startSweep
  split <;> simp [h]

@[simp] theorem writeLinkHeader_caps (s : State) (h : Caps s) :
    Caps (writeLinkHeader s) := by simp [writeLinkHeader, h]

@[simp] theorem writeLinkEntry_caps (k : Nat) (s : State) (h : Caps s) :
    Caps (writeLinkEntry k s) := by simp [writeLinkEntry, h]

@[simp] theorem clearMismatches_caps (k : Nat) (s : State) (h : Caps s) : Caps (clearMismatches k s) :=
  foldl_caps _ (fun t _ ht => State.setLamp_caps t _ _ ht) _ s h

@[simp] theorem badReturn_caps (k : Nat) (r : BadReason) (s : State) (h : Caps s) :
    Caps (badReturn k r s) := by
  unfold badReturn
  dsimp only
  (repeat' split) <;> simp (maxDischargeDepth := 20) [h]

@[simp] theorem latchFault_caps (r : Nat) (kind : Latch) (f : BitVec 32) (s : State) (h : Caps s) :
    Caps (latchFault r kind f s) := by
  unfold latchFault
  dsimp only
  (repeat' split) <;> simp (maxDischargeDepth := 20) [h]

@[simp] theorem evaluateLamp_caps (r : Nat) (on sensed : Bool) (f : BitVec 32) (s : State) (h : Caps s) :
    Caps (evaluateLamp r on sensed f s) := by
  unfold evaluateLamp
  dsimp only
  (repeat' split) <;> simp (maxDischargeDepth := 20) [h]

@[simp] theorem evaluateCard_caps (k : Nat) (drive sense : BitVec 64) (f : BitVec 32) (s : State) (h : Caps s) :
    Caps (evaluateCard k drive sense f s) :=
  foldl_caps _ (fun t _ ht => evaluateLamp_caps _ _ _ _ t ht) _ s h

@[simp] theorem goodReturn_caps (w : Sweep) (s : State) (h : Caps s) : Caps (goodReturn w s) := by
  unfold goodReturn
  dsimp only
  split
  · apply evaluateCard_caps
    split <;> simp (maxDischargeDepth := 9) [h]
  · split <;> simp (maxDischargeDepth := 9) [h]

@[simp] theorem judgeCard_caps (w : Sweep) (s : State) (h : Caps s) :
    Caps (judgeCard w s) := by
  unfold judgeCard
  split <;> simp [h]

@[simp] theorem closeWindow_caps (w : Sweep) (s : State) (h : Caps s) : Caps (closeWindow w s) := by
  unfold closeWindow
  dsimp only
  split
  · exact sendFrame_caps _ _ _ _ (judgeCard_caps _ _ h)
  · apply foldl_caps _ (fun t k ht => writeLinkEntry_caps k t ht)
    have hj := judgeCard_caps w s h
    exact ⟨hj.1, hj.2, hj.3⟩

@[simp] theorem clearFault_caps (r : Nat) (s : State) (h : Caps s) :
    Caps (clearFault r s) := by
  unfold clearFault
  dsimp only
  (repeat' split) <;> simp (maxDischargeDepth := 20) [h]

@[simp] theorem createMessage_caps (c : List Byte) (i : Nat) (s : State) (h : Caps s) :
    Caps (createMessage c i s) := by
  unfold createMessage
  dsimp only
  simp (maxDischargeDepth := 20) [h]

@[simp] theorem recordOpenAct_caps (slot : Nat) (c : List Byte) (s : State) (h : Caps s) :
    Caps (recordOpenAct slot c s) := by
  unfold recordOpenAct
  dsimp only
  simp (maxDischargeDepth := 20) [h]

@[simp] theorem enterClosing_caps (slot ch : Nat) (how : Closing) (s : State) (h : Caps s) :
    Caps (enterClosing slot ch how s) := by
  unfold enterClosing
  dsimp only
  (repeat' split) <;> simp (maxDischargeDepth := 20) [h]

@[simp] theorem recordCloseAct_caps (slot : Nat) (c : List Byte) (s : State) (h : Caps s) :
    Caps (recordCloseAct slot c s) := by
  unfold recordCloseAct
  dsimp only
  (repeat' split) <;> simp (maxDischargeDepth := 20) [h]

@[simp] theorem recordAbandonAct_caps (slot : Nat) (c : List Byte) (s : State) (h : Caps s) :
    Caps (recordAbandonAct slot c s) := by
  unfold recordAbandonAct
  dsimp only
  (repeat' split) <;> simp (maxDischargeDepth := 20) [h]

@[simp] theorem claimPlay_caps (slot ch i offset : Nat) (s : State) (h : Caps s) :
    Caps (claimPlay slot ch i offset s) := ⟨h.1, h.2, h.3⟩

@[simp] theorem playOpenAct_caps (slot : Nat) (c : List Byte) (s : State) (h : Caps s) :
    Caps (playOpenAct slot c s) := by
  unfold playOpenAct
  dsimp only
  (repeat' split) <;> simp (maxDischargeDepth := 20) [h]

@[simp] theorem dispose_caps (i d : Nat) (s : State) (h : Caps s) :
    Caps (dispose i d s) := by
  unfold dispose
  dsimp only
  (repeat' split) <;> simp (maxDischargeDepth := 20) [h]

@[simp] theorem dropBuffers_caps (ch : Nat) (s : State) (h : Caps s) :
    Caps (dropBuffers ch s) := by simp [dropBuffers, h]

@[simp] theorem playCloseAct_caps (slot : Nat) (c : List Byte) (s : State) (h : Caps s) :
    Caps (playCloseAct slot c s) := by
  unfold playCloseAct
  dsimp only
  simp (maxDischargeDepth := 20) [h]

@[simp] theorem messageSaveAct_caps (slot : Nat) (c : List Byte) (s : State) (h : Caps s) :
    Caps (messageSaveAct slot c s) := by
  unfold messageSaveAct
  dsimp only
  (repeat' split) <;> simp (maxDischargeDepth := 20) [h]

@[simp] theorem messageMarkNewAct_caps (slot : Nat) (c : List Byte) (s : State) (h : Caps s) :
    Caps (messageMarkNewAct slot c s) := by
  unfold messageMarkNewAct
  dsimp only
  (repeat' split) <;> simp (maxDischargeDepth := 20) [h]

@[simp] theorem holdOrder_caps (slot left : Nat) (deferred : Bool) (res : List Byte) (s : State) (h : Caps s) :
    Caps (holdOrder slot left deferred res s) := by simp [holdOrder, h]

@[simp] theorem messageDeleteAct_caps (slot : Nat) (c : List Byte) (s : State) (h : Caps s) :
    Caps (messageDeleteAct slot c s) := by
  unfold messageDeleteAct
  dsimp only
  (repeat' split) <;> simp (maxDischargeDepth := 20) [h]

@[simp] theorem mailboxPurgeAct_caps (slot : Nat) (c : List Byte) (s : State) (h : Caps s) :
    Caps (mailboxPurgeAct slot c s) := by
  have hf := foldl_caps (fun t i => releaseMessage i (.order slot) t)
    (fun t i ht => releaseMessage_caps i _ t ht) (s.purgeScope c) s h
  unfold mailboxPurgeAct
  dsimp only
  split
  · exact completeOrder_caps _ _ _ _ _ hf
  · exact holdOrder_caps _ _ _ _ _ hf

@[simp] theorem lampOverrideAct_caps (slot : Nat) (c : List Byte) (s : State) (h : Caps s) :
    Caps (lampOverrideAct slot c s) :=
  completeOrder_caps _ _ _ _ _ (foldl_caps _ (fun t r ht => setOverride_caps _ r t ht) _ s h)

@[simp] theorem lampFaultClearAct_caps (slot : Nat) (c : List Byte) (s : State) (h : Caps s) :
    Caps (lampFaultClearAct slot c s) :=
  completeOrder_caps _ _ _ _ _ (foldl_caps _ (fun t r ht => clearFault_caps r t ht) _ s h)

@[simp] theorem folioAdjustAct_caps (slot : Nat) (c : List Byte) (s : State) (h : Caps s) :
    Caps (folioAdjustAct slot c s) := by
  unfold folioAdjustAct
  dsimp only
  (repeat' split) <;> simp (maxDischargeDepth := 20) [h]

@[simp] theorem folioReleaseAct_caps (slot : Nat) (c : List Byte) (s : State) (h : Caps s) :
    Caps (folioReleaseAct slot c s) := by
  unfold folioReleaseAct
  dsimp only
  (repeat' split) <;> simp (maxDischargeDepth := 20) [h]

@[simp] theorem clockSetAct_caps (slot : Nat) (c : List Byte) (s : State) (h : Caps s) :
    Caps (clockSetAct slot c s) := by simp [clockSetAct, h]

@[simp] theorem orderAct_caps (o : Order) (slot : Nat) (c : List Byte) (s : State) (h : Caps s) :
    Caps (orderAct o slot c s) := by
  unfold orderAct
  split <;> simp [h]

@[simp] theorem actOnCopy_caps (slot : Nat) (c : List Byte) (s : State) (h : Caps s) : Caps (actOnCopy slot c s) := by
  unfold actOnCopy
  split
  · exact completeOrder_caps _ _ _ _ _ h
  · split
    · exact completeOrder_caps _ _ _ _ _ h
    · exact orderAct_caps _ _ _ _ h

@[simp] theorem completeTake_caps (slot : Nat) (c : List Byte) (s : State) (h : Caps s) :
    Caps (completeTake slot c s) := by
  unfold completeTake
  dsimp only
  simp (maxDischargeDepth := 20) [h]

@[simp] theorem takeOrder_caps (slot : Nat) (c : List Byte) (s : State) (h : Caps s) :
    Caps (takeOrder slot c s) := by
  unfold takeOrder
  dsimp only
  (repeat' split) <;> simp (maxDischargeDepth := 20) [h]

@[simp] theorem takeReturned_caps (slot : Nat) (c : List Byte) (s : State) (h : Caps s) :
    Caps (takeReturned slot c s) := by
  unfold takeReturned
  split <;> simp [h]

@[simp] theorem renewFirst_caps (n : Nat) (s : State) (h : Caps s) :
    Caps (renewFirst n s) := by
  unfold renewFirst
  split <;> simp [h]

@[simp] theorem leaveReleaseLine_caps (s : State) (h : Caps s) :
    Caps (leaveReleaseLine s) := by simp [leaveReleaseLine, h]

@[simp] theorem takeGranted_caps (slot need : Nat) (c : List Byte) (s : State) (h : Caps s) :
    Caps (takeGranted slot need c s) := by
  unfold takeGranted
  split <;> simp [h]

theorem startPop_caps (s : State) (h : Caps s) (hp : s.store.pocket.length < Config.pocketDepth) :
    Caps (startPop s) := by
  unfold startPop
  apply raise_caps
  rw [caps_mk]
  exact ⟨by simpa using hp, h.inFlight, h.queue⟩

theorem arrive_length (b : Nat) (p : List PocketEntry) : (arrive b p).length = p.length := by
  induction p with
  | nil => rfl
  | cons e p ih => cases e <;> simp [arrive, ih]

@[simp] theorem popReturned_caps (data : List Byte) (s : State) (h : Caps s) : Caps (popReturned data s) := by
  unfold popReturned
  dsimp only
  apply takeLineTurn_caps
  rw [caps_mk]
  exact ⟨by rw [arrive_length]; exact h.pocket, h.inFlight, h.queue⟩

@[simp] theorem startPush_caps (s : State) (h : Caps s) :
    Caps (startPush s) := by
  unfold startPush
  split <;> simp [h]

@[simp] theorem reportRelease_caps (cause : Cause) (s : State) (h : Caps s) :
    Caps (reportRelease cause s) := by
  unfold reportRelease
  split <;> simp [h]

@[simp] theorem completeEntry_caps (e : ReleaseEntry) (rest : List ReleaseEntry) (s : State) (h : Caps s) :
    Caps (completeEntry e rest s) := by
  unfold completeEntry
  dsimp only
  simp (maxDischargeDepth := 20) [h]

@[simp] theorem releaseInHand_caps (w : Walk) (e : ReleaseEntry) (s : State) (h : Caps s) :
    Caps (releaseInHand w e s) := by
  unfold releaseInHand
  dsimp only
  simp (maxDischargeDepth := 20) [h]

@[simp] theorem walkReturned_caps (header : List Byte) (s : State) (h : Caps s) :
    Caps (walkReturned header s) := by
  unfold walkReturned
  dsimp only
  (repeat' split) <;> simp (maxDischargeDepth := 20) [h]

end Sys2Proof.Machine
end

