-- ==== Sys2Proof/Laws/Quiet.lean ====
section
/-! SUPPORT. The notices at the end of a step: the host path raises none, and those the step has raised join the queue
while it has room. -/

namespace Sys2Proof.Machine

/-- No notice is raised or queued from `s` to `t`. -/
def Quiet (s t : State) : Prop := t.notices = s.notices ∧ t.out.notices = s.out.notices

theorem Quiet.refl (s : State) : Quiet s s := ⟨rfl, rfl⟩

theorem Quiet.trans {s t u : State} (h : Quiet s t) (k : Quiet t u) : Quiet s u :=
  ⟨k.1.trans h.1, k.2.trans h.2⟩

theorem choose_quiet (n : Nat) (s : State) : Quiet s (choose n s).2 := by
  unfold choose; split <;> exact ⟨rfl, rfl⟩

theorem setChannel_quiet (s : State) (c : Nat) (v : Channel) : Quiet s (s.setChannel c v) := ⟨rfl, rfl⟩

theorem prefetch_quiet (ch : Nat) (s : State) : Quiet s (prefetch ch s) := by
  unfold prefetch
  dsimp only
  split
  · split
    · exact ⟨rfl, rfl⟩
    · exact Quiet.refl s
  · exact Quiet.refl s

theorem playStep_quiet (ch : Nat) (s : State) : Quiet s (playStep ch s).2 := by
  unfold playStep
  dsimp only
  split
  · exact ⟨rfl, rfl⟩
  · split
    · exact ⟨rfl, rfl⟩
    · split
      · exact ((setChannel_quiet s _ _).trans (prefetch_quiet _ _)).trans (setChannel_quiet _ _ _)
      · exact Quiet.refl s

theorem meetChannel_quiet (ch : Nat) (seen : List Nat) (s : State) : Quiet s (meetChannel ch seen s) := by
  unfold meetChannel
  dsimp only
  split <;> exact ⟨rfl, rfl⟩

theorem serveRead_quiet (zeroed : Option Nat) (off : Nat) (ls : List (Option Byte)) (seen : List Nat) (s : State) :
    Quiet s (serveRead zeroed off ls seen s).2.2 :=
  serveRead_ind (Quiet s) zeroed (fun ch seen t h => h.trans (meetChannel_quiet ch seen t))
    (fun ch t h _ => h.trans (playStep_quiet ch t)) ls off seen s (Quiet.refl s)

theorem serveVoice_quiet (zeroed : Option Nat) (seen : List Nat) (w : HeadWork) (s : State) :
    Quiet s (serveVoice zeroed seen w s).2.2 := by
  have h := serveRead_quiet zeroed (s.voiceOffset (s.voiceParts w)) (partLanes (s.voiceParts w)) seen s
  unfold serveVoice
  dsimp only
  split
  · exact Quiet.refl s
  · split <;> next he => rw [he] at h; exact h

theorem advanceHead_quiet (req : HostRequest) (n : Nat) (w : HeadWork) (s : State) :
    Quiet s (advanceHead req n w s) := by
  induction n generalizing w s with
  | zero => exact ⟨rfl, rfl⟩
  | succ n ih =>
    unfold advanceHead
    dsimp only
    split
    · split
      · exact ⟨rfl, rfl⟩
      · obtain ⟨_, _, -, e⟩ := leaveRead_eq req w.answer s
        rw [e]; exact ⟨rfl, rfl⟩
    · split
      · split
        · exact (serveVoice_quiet _ _ _ s).trans (ih _ _)
        · exact ⟨rfl, rfl⟩
      · generalize (if req.write = true then _ else _ : List (Option Byte)) = lanes
        split
        · exact ⟨rfl, rfl⟩
        · exact ih _ _

theorem serveHead_quiet (req : HostRequest) (zeroed : Option Nat) (seen : List Nat) (w : HeadWork) (s : State) :
    Quiet s (serveHead req zeroed seen w s) := by
  have h := serveVoice_quiet zeroed seen w s
  unfold serveHead
  split <;> next he =>
    rw [he] at h
    first
    | exact h.trans (advanceHead_quiet _ _ _ _)
    | exact h

theorem resumeStall_quiet (s : State) : Quiet s (resumeStall s) := by
  unfold resumeStall
  split
  · split
    · exact serveHead_quiet _ _ _ _ s
    · exact Quiet.refl s
  · exact Quiet.refl s

theorem joinFifo_quiet (s : State) : Quiet s (joinFifo s) := by
  have hc := choose_quiet 2 s
  unfold joinFifo
  dsimp only
  split
  · split <;> exact ⟨rfl, rfl⟩
  · split <;> exact ⟨rfl, rfl⟩
  · split <;> (split <;> exact hc)

theorem fillFifo_quiet (n : Nat) (s : State) : Quiet s (fillFifo n s) := by
  induction n generalizing s with
  | zero => exact Quiet.refl s
  | succ n ih =>
    unfold fillFifo
    split
    · exact (joinFifo_quiet s).trans (ih _)
    · exact Quiet.refl s

theorem startHead_quiet (s : State) : Quiet s (startHead s) := by
  unfold startHead
  split
  · exact Quiet.refl s
  · split
    · exact Quiet.refl s
    · unfold startRequest
      dsimp only
      split
      · exact advanceHead_quiet _ _ _ s
      · exact ⟨rfl, rfl⟩
    · exact ⟨rfl, rfl⟩

theorem settleFifo_quiet (n : Nat) (s : State) : Quiet s (settleFifo n s) := by
  induction n generalizing s with
  | zero => exact Quiet.refl s
  | succ n ih =>
    unfold settleFifo
    dsimp only
    have h := (fillFifo_quiet Config.fifoDepth s).trans (startHead_quiet _)
    split
    · exact h
    · exact h.trans (ih _)

/-! ### Placing what was raised -/

/-- An interleaved batch is a rearrangement of what it was given. -/
theorem interleave_perm {α : Type} (key : α → Nat) (xs batch : List α) (s : State) :
    (interleave key xs batch s).1.Perm (xs ++ batch) := by
  induction xs generalizing batch s with
  | nil => exact List.Perm.refl _
  | cons y ys ih =>
    rw [interleave]
    dsimp only
    have hl := lastOfKey_le key (key y) batch
    refine (ih _ _).trans ?_
    have hk := choose_lt (batch.length - lastOfKey key (key y) batch + 1) s (Nat.succ_pos _)
    exact (List.Perm.append_left ys (List.perm_insertIdx y batch (by omega))).trans List.perm_middle

theorem interleave_notices {α : Type} (key : α → Nat) (xs batch : List α) (s : State) :
    (interleave key xs batch s).2.notices = s.notices := by
  induction xs generalizing batch s with
  | nil => rfl
  | cons x xs ih => rw [interleave]; dsimp only; rw [ih, (choose_quiet _ _).1]

/-- Notices that fit only join the queue. -/
theorem foldl_queueNotice (batch : List (Requester × Notice)) (s : State)
    (h : s.notices.queue.length + batch.length ≤ Config.noticeDepth) :
    batch.foldl (fun t n => queueNotice n.2 t) s
      = { s with notices.queue := s.notices.queue ++ batch.map Prod.snd } := by
  induction batch generalizing s with
  | nil => simp
  | cons n ns ih =>
    simp only [List.length_cons] at h
    have hn : queueNotice n.2 s = { s with notices.queue := s.notices.queue ++ [n.2] } := by
      unfold queueNotice
      rw [if_pos (by omega)]
    rw [List.foldl_cons, hn, ih _ (by simp only [List.length_append, List.length_singleton]; omega)]
    simp

/-- The notices of a step that fit join the queue, in some order; nothing else changes. -/
theorem commitNotices_fit (s : State) (h : s.noticesFit) :
    ∃ q c, q.Perm (s.out.notices.map Prod.snd) ∧ commitNotices s =
      { s with notices.queue := s.notices.queue ++ q, out := { s.out with notices := [] }, choices := c } := by
  have hp := interleave_perm (fun n : Requester × Notice => requesterIndex n.1) s.out.notices [] s
  have hs : ∃ c, (interleave (fun n : Requester × Notice => requesterIndex n.1) s.out.notices [] s).2
      = { s with choices := c } := by
    generalize s.out.notices = xs
    generalize ([] : List (Requester × Notice)) = b
    suffices ∀ (xs b : List (Requester × Notice)) (c : Nat), ∃ d,
        (interleave (fun n : Requester × Notice => requesterIndex n.1) xs b { s with choices := c }).2
          = { s with choices := d } from this xs b s.choices
    intro xs
    induction xs with
    | nil => intro b c; exact ⟨c, rfl⟩
    | cons x xs ih =>
      intro b c
      rw [interleave]
      dsimp only
      have hc : ∀ n, ∃ d, (choose n { s with choices := c }).2 = { s with choices := d } := by
        intro n
        unfold choose
        split
        · exact ⟨c, rfl⟩
        · exact ⟨c + 1, rfl⟩
      obtain ⟨d, hd⟩ := hc (b.length - lastOfKey (fun n : Requester × Notice => requesterIndex n.1)
        (requesterIndex x.1) b + 1)
      rw [hd]
      exact ih _ d
  obtain ⟨c, hc⟩ := hs
  refine ⟨_, c, (hp.trans (by simp)).map Prod.snd, ?_⟩
  unfold commitNotices
  dsimp only
  rw [hc]
  rw [foldl_queueNotice]
  · have := hp.length_eq
    unfold State.noticesFit at h
    simp only [List.append_nil] at this
    simpa [this] using h

/-- A line takes exactly the requests of its requester, in some order. -/
theorem commitLine_perm (who : Requester) (rs : List Request) (s : State) (w : Requester) :
    ∃ l, (commitLine who rs s).arbiter.lines.get w = s.arbiter.lines.get w ++ l ∧
      l.Perm (if w = who then rs.filter (fun r => decide (r.source.requester = w)) else []) := by
  by_cases h : who = w
  · subst h
    refine ⟨(interleave (fun r : Request => r.source.key) (rs.filter fun r => r.source.requester = who) [] s).1,
      ?_, ?_⟩
    · unfold commitLine
      simp [Lines.get_set, interleave_arbiter]
    · rw [if_pos rfl]
      have := interleave_perm (fun r : Request => r.source.key) (rs.filter fun r => r.source.requester = who) [] s
      rwa [List.append_nil] at this
  · refine ⟨[], ?_, by rw [if_neg (Ne.symm h)]⟩
    unfold commitLine
    simp [Lines.get_set, interleave_arbiter, h]

theorem commitLine_quiet (who : Requester) (rs : List Request) (s : State) :
    (commitLine who rs s).notices = s.notices := interleave_notices _ _ _ s

/-- Exactly what was raised joins the lines, when the notices fit. -/
theorem commit_exact (s : State) (h : s.noticesFit) (w : Requester) :
    ∃ l, (commit s).arbiter.lines.get w = s.arbiter.lines.get w ++ l ∧ l.Perm (s.raisedFor w) := by
  obtain ⟨q, c, _, hq⟩ := commitNotices_fit s h
  unfold commit
  dsimp only
  rw [hq]
  dsimp only
  generalize hs2 : (State.mk _ _ _ _ _ _ _ _ _ _ _ _ _ _ _ _) = s2
  have ha : s2.arbiter = s.arbiter := by rw [← hs2]
  simp only [List.foldl_cons, List.foldl_nil]
  obtain ⟨l1, e1, m1⟩ := commitLine_perm .host s.out.requests s2 w
  obtain ⟨l2, e2, m2⟩ := commitLine_perm .voice s.out.requests (commitLine .host s.out.requests s2) w
  obtain ⟨l3, e3, m3⟩ := commitLine_perm .directory s.out.requests
    (commitLine .voice s.out.requests (commitLine .host s.out.requests s2)) w
  obtain ⟨l4, e4, m4⟩ := commitLine_perm .rating s.out.requests (commitLine .directory s.out.requests
    (commitLine .voice s.out.requests (commitLine .host s.out.requests s2))) w
  obtain ⟨l5, e5, m5⟩ := commitLine_perm .lamp s.out.requests (commitLine .rating s.out.requests
    (commitLine .directory s.out.requests (commitLine .voice s.out.requests (commitLine .host s.out.requests s2)))) w
  refine ⟨l1 ++ l2 ++ l3 ++ l4 ++ l5, ?_, ?_⟩
  · rw [e5, e4, e3, e2, e1, ha]
    simp [List.append_assoc]
  · cases w <;> simp_all [State.raisedFor]

/-- The notices of the step that fit join the queue. -/
theorem commit_notices (s : State) (h : s.noticesFit) :
    ∃ q, (commit s).notices = { s.notices with queue := s.notices.queue ++ q } ∧
      q.Perm (s.out.notices.map Prod.snd) := by
  obtain ⟨q, c, hp, hq⟩ := commitNotices_fit s h
  refine ⟨q, ?_, hp⟩
  unfold commit
  dsimp only
  rw [foldl_keeps State.notices (fun t who => commitLine who _ t) (fun t who => commitLine_quiet who _ t), hq]

end Sys2Proof.Machine
end

