-- ==== Sys2Proof/Laws/Good.lean ====
section
/-! SUPPORT. Everything the invariant asks but for the outbox, kept by the engines. -/

namespace Sys2Proof.Machine

/-- The invariant without the outbox: what every operation inside a step keeps. -/
structure Good (s : State) : Prop where
  caps    : Caps s
  bounded : Bounded s
  memory  : Memory.wf s.mem = true
  clock   : s.time.clock < Config.tenthsPerDay

@[simp] theorem good_pocket (s : State) (h : Good s) : s.store.pocket.length ≤ Config.pocketDepth := h.caps.pocket
@[simp] theorem good_inFlight (s : State) (h : Good s) : s.ring.inFlight.length ≤ Config.inFlightMax :=
  h.caps.inFlight
@[simp] theorem good_queue (s : State) (h : Good s) : s.rating.queue.length ≤ Config.folioQueueDepth := h.caps.queue
@[simp] theorem good_fifo (s : State) (h : Good s) : s.host.fifo.length ≤ Config.fifoDepth := h.bounded.1
@[simp] theorem good_notices (s : State) (h : Good s) : s.notices.queue.length ≤ Config.noticeDepth := h.bounded.2
@[simp] theorem good_memory (s : State) (h : Good s) : Memory.wf s.mem = true := h.memory
@[simp] theorem good_clock (s : State) (h : Good s) : s.time.clock < Config.tenthsPerDay := h.clock

@[simp] theorem good_mk (p : List Instr) (st : BitVec 3) (m : Table Byte) (ti : TimeBase) (fr : BitVec 32)
    (c : Control) (h : HostPath) (a : Arbiter) (v : Voice) (sto : Store) (r : Ring) (n : Notices) (ra : Rating)
    (l : LampEngine) (o : Outbox) (ch : Nat) :
    Good ⟨p, st, m, ti, fr, c, h, a, v, sto, r, n, ra, l, o, ch⟩ ↔
      sto.pocket.length ≤ Config.pocketDepth ∧ r.inFlight.length ≤ Config.inFlightMax ∧
        ra.queue.length ≤ Config.folioQueueDepth ∧ h.fifo.length ≤ Config.fifoDepth ∧
        n.queue.length ≤ Config.noticeDepth ∧ Memory.wf m = true ∧ ti.clock < Config.tenthsPerDay :=
  ⟨fun h => ⟨h.1.1, h.1.2, h.1.3, h.2.1, h.2.2, h.3, h.4⟩,
   fun h => ⟨⟨h.1, h.2.1, h.2.2.1⟩, ⟨h.2.2.2.1, h.2.2.2.2.1⟩, h.2.2.2.2.2.1, h.2.2.2.2.2.2⟩⟩

/-- What keeps the base and the three bounds keeps the invariant. -/
theorem Good.of {s t : State} (h : Good s) (hb : t.base = s.base) (hc : Caps t) : Good t := by
  simp only [State.base, Prod.mk.injEq] at hb
  obtain ⟨⟨_, _, _, hm, ht⟩, _, hh, _, hn⟩ := hb
  exact ⟨hc, ⟨by rw [hh]; exact h.bounded.1, by rw [hn]; exact h.bounded.2⟩, by rw [hm]; exact h.memory,
    by rw [ht]; exact h.clock⟩

/-- A fold of steps that each keep the invariant keeps it. -/
theorem foldl_good {α : Type} (f : State → α → State) (hf : ∀ t a, Good t → Good (f t a)) (l : List α)
    (s : State) (h : Good s) : Good (l.foldl f s) := by
  induction l generalizing s with
  | nil => exact h
  | cons a l ih => exact ih _ (hf _ _ h)

@[simp] theorem State.setChannel_good (s : State) (c : Nat) (v : Channel) (h : Good s) :
    Good (State.setChannel s c v) := h.of (State.setChannel_base _ _ _) (State.setChannel_caps _ _ _ h.caps)

@[simp] theorem State.setMessage_good (s : State) (i : Nat) (v : Message) (h : Good s) :
    Good (State.setMessage s i v) := h.of (State.setMessage_base _ _ _) (State.setMessage_caps _ _ _ h.caps)

@[simp] theorem State.setMailbox_good (s : State) (r : Nat) (v : Mailbox) (h : Good s) :
    Good (State.setMailbox s r v) := h.of (State.setMailbox_base _ _ _) (State.setMailbox_caps _ _ _ h.caps)

@[simp] theorem State.setTrunk_good (s : State) (t : Nat) (v : Trunk) (h : Good s) :
    Good (State.setTrunk s t v) := h.of (State.setTrunk_base _ _ _) (State.setTrunk_caps _ _ _ h.caps)

@[simp] theorem State.setFolios_good (s : State) (r : Nat) (v : RoomFolios) (h : Good s) :
    Good (State.setFolios s r v) := h.of (State.setFolios_base _ _ _) (State.setFolios_caps _ _ _ h.caps)

@[simp] theorem State.setLamp_good (s : State) (r : Nat) (v : Lamp) (h : Good s) :
    Good (State.setLamp s r v) := h.of (State.setLamp_base _ _ _) (State.setLamp_caps _ _ _ h.caps)

@[simp] theorem State.setCard_good (s : State) (k : Nat) (v : Card) (h : Good s) :
    Good (State.setCard s k v) := h.of (State.setCard_base _ _ _) (State.setCard_caps _ _ _ h.caps)

@[simp] theorem raise_good (r : Request) (s : State) (h : Good s) :
    Good (raise r s) := h.of (raise_base _ _) (raise_caps _ _ h.caps)

@[simp] theorem raiseAll_good (rs : List Request) (s : State) (h : Good s) :
    Good (raiseAll rs s) := h.of (raiseAll_base _ _) (raiseAll_caps _ _ h.caps)

@[simp] theorem notify_good (who : Requester) (k : NoticeKind) (room detail1 detail2 : Nat) (s : State) (h : Good s) :
    Good (notify who k room detail1 detail2 s) := h.of (notify_base _ _ _ _ _ _) (notify_caps _ _ _ _ _ _ h.caps)

@[simp] theorem beginStep_good (s : State) (h : Good s) :
    Good (beginStep s) := h.of (beginStep_base _) (beginStep_caps _ h.caps)

@[simp] theorem markMail_good (r : Nat) (s : State) (h : Good s) :
    Good (markMail r s) := h.of (markMail_base _ _) (markMail_caps _ _ h.caps)

@[simp] theorem markFolio_good (r : Nat) (s : State) (h : Good s) :
    Good (markFolio r s) := h.of (markFolio_base _ _) (markFolio_caps _ _ h.caps)

@[simp] theorem markLamp_good (r : Nat) (s : State) (h : Good s) :
    Good (markLamp r s) := h.of (markLamp_base _ _) (markLamp_caps _ _ h.caps)

@[simp] theorem recomputeLamp_good (r : Nat) (s : State) (h : Good s) :
    Good (recomputeLamp r s) := h.of (recomputeLamp_base _ _) (recomputeLamp_caps _ _ h.caps)

@[simp] theorem clearDesk_good (r : Nat) (s : State) (h : Good s) :
    Good (clearDesk r s) := h.of (clearDesk_base _ _) (clearDesk_caps _ _ h.caps)

@[simp] theorem joinReleaseLine_good (who : Waiter) (n : Nat) (s : State) (h : Good s) :
    Good (joinReleaseLine who n s) := h.of (joinReleaseLine_base _ _ _) (joinReleaseLine_caps _ _ _ h.caps)

@[simp] theorem releaseMessage_good (i : Nat) (cause : Cause) (s : State) (h : Good s) :
    Good (releaseMessage i cause s) := h.of (releaseMessage_base _ _ _) (releaseMessage_caps _ _ _ h.caps)

@[simp] theorem updateEntry_good (slot : Nat) (f : InFlight → InFlight) (s : State) (h : Good s) :
    Good (updateEntry slot f s) := h.of (updateEntry_base _ _ _) (updateEntry_caps _ _ _ h.caps)

@[simp] theorem freeEntry_good (slot : Nat) (s : State) (h : Good s) :
    Good (freeEntry slot s) := h.of (freeEntry_base _ _) (freeEntry_caps _ _ h.caps)

@[simp] theorem orderStep_good (slot : Nat) (s : State) (h : Good s) :
    Good (orderStep slot s) := h.of (orderStep_base _ _) (orderStep_caps _ _ h.caps)

@[simp] theorem raiseExecuting_good (slot : Nat) (copy : List Byte) (s : State) (h : Good s) :
    Good (raiseExecuting slot copy s) := h.of (raiseExecuting_base _ _ _) (raiseExecuting_caps _ _ _ h.caps)

@[simp] theorem completeOrder_good (slot : Nat) (status : Status) (deferred : Bool) (res : List Byte) (s : State) (h : Good s) :
    Good (completeOrder slot status deferred res s) := h.of (completeOrder_base _ _ _ _ _) (completeOrder_caps _ _ _ _ _ h.caps)

@[simp] theorem withdrawTake_good (ch : Nat) (s : State) (h : Good s) :
    Good (withdrawTake ch s) := h.of (withdrawTake_base _ _) (withdrawTake_caps _ _ h.caps)

@[simp] theorem takeLanes_good (off : Nat) (ls : List (Option Byte)) (s : State) (h : Good s) :
    Good (takeLanes off ls s) := h.of (takeLanes_base _ _ _) (takeLanes_caps _ _ _ h.caps)

@[simp] theorem checkoutChannels_good (r : Nat) (s : State) (h : Good s) :
    Good (checkoutChannels r s) := h.of (checkoutChannels_base _ _) (checkoutChannels_caps _ _ h.caps)

@[simp] theorem startChannelRelease_good (ch : Nat) (s : State) (h : Good s) :
    Good (startChannelRelease ch s) := h.of (startChannelRelease_base _ _) (startChannelRelease_caps _ _ h.caps)

@[simp] theorem blockWritten_good (ch : Nat) (second : Bool) (s : State) (h : Good s) :
    Good (blockWritten ch second s) := h.of (blockWritten_base _ _ _) (blockWritten_caps _ _ _ h.caps)

@[simp] theorem patchWritten_good (ch : Nat) (s : State) (h : Good s) :
    Good (patchWritten ch s) := h.of (patchWritten_base _ _) (patchWritten_caps _ _ h.caps)

@[simp] theorem walkStep_good (ch : Nat) (header : List Byte) (s : State) (h : Good s) :
    Good (walkStep ch header s) := h.of (walkStep_base _ _ _) (walkStep_caps _ _ _ h.caps)

@[simp] theorem fetchArrived_good (ch : Nat) (second : Bool) (data : List Byte) (s : State) (h : Good s) :
    Good (fetchArrived ch second data s) := h.of (fetchArrived_base _ _ _ _) (fetchArrived_caps _ _ _ _ h.caps)

@[simp] theorem workOutBarred_good (r : Nat) (total : Int) (s : State) (h : Good s) :
    Good (workOutBarred r total s) := h.of (workOutBarred_base _ _ _) (workOutBarred_caps _ _ _ h.caps)

@[simp] theorem settleBarred_good (r : Nat) (s : State) (h : Good s) :
    Good (settleBarred r s) := h.of (settleBarred_base _ _) (settleBarred_caps _ _ h.caps)

@[simp] theorem raiseFolioWrite_good (s : State) (h : Good s) :
    Good (raiseFolioWrite s) := h.of (raiseFolioWrite_base _) (raiseFolioWrite_caps _ h.caps)

@[simp] theorem openFolio_good (r : Nat) (s : State) (h : Good s) :
    Good (openFolio r s) := h.of (openFolio_base _ _) (openFolio_caps _ _ h.caps)

@[simp] theorem closeFolio_good (r : Nat) (s : State) (h : Good s) :
    Good (closeFolio r s) := h.of (closeFolio_base _ _) (closeFolio_caps _ _ h.caps)

@[simp] theorem settleTrunk_good (t : Nat) (s : State) (h : Good s) :
    Good (settleTrunk t s) := h.of (settleTrunk_base _ _) (settleTrunk_caps _ _ h.caps)

@[simp] theorem trunkWritten_good (t : Nat) (old new : Byte) (s : State) (h : Good s) :
    Good (trunkWritten t old new s) := h.of (trunkWritten_base _ _ _ _) (trunkWritten_caps _ _ _ _ h.caps)

@[simp] theorem startSweep_good (s : State) (h : Good s) :
    Good (startSweep s) := h.of (startSweep_base _) (startSweep_caps _ h.caps)

@[simp] theorem writeLinkHeader_good (s : State) (h : Good s) :
    Good (writeLinkHeader s) := h.of (writeLinkHeader_base _) (writeLinkHeader_caps _ h.caps)

@[simp] theorem writeLinkEntry_good (k : Nat) (s : State) (h : Good s) :
    Good (writeLinkEntry k s) := h.of (writeLinkEntry_base _ _) (writeLinkEntry_caps _ _ h.caps)

@[simp] theorem closeWindow_good (w : Sweep) (s : State) (h : Good s) :
    Good (closeWindow w s) := h.of (closeWindow_base _ _) (closeWindow_caps _ _ h.caps)

@[simp] theorem renewFirst_good (n : Nat) (s : State) (h : Good s) :
    Good (renewFirst n s) := h.of (renewFirst_base _ _) (renewFirst_caps _ _ h.caps)

@[simp] theorem leaveReleaseLine_good (s : State) (h : Good s) :
    Good (leaveReleaseLine s) := h.of (leaveReleaseLine_base _) (leaveReleaseLine_caps _ h.caps)

@[simp] theorem popReturned_good (data : List Byte) (s : State) (h : Good s) :
    Good (popReturned data s) := h.of (popReturned_base _ _) (popReturned_caps _ _ h.caps)

@[simp] theorem startPush_good (s : State) (h : Good s) :
    Good (startPush s) := h.of (startPush_base _) (startPush_caps _ h.caps)

@[simp] theorem walkReturned_good (header : List Byte) (s : State) (h : Good s) :
    Good (walkReturned header s) := h.of (walkReturned_base _ _) (walkReturned_caps _ _ h.caps)

@[simp] theorem recordOpenAct_good (slot : Nat) (c : List Byte) (s : State) (h : Good s) :
    Good (recordOpenAct slot c s) := h.of (recordOpenAct_base _ _ _) (recordOpenAct_caps _ _ _ h.caps)

@[simp] theorem recordCloseAct_good (slot : Nat) (c : List Byte) (s : State) (h : Good s) :
    Good (recordCloseAct slot c s) := h.of (recordCloseAct_base _ _ _) (recordCloseAct_caps _ _ _ h.caps)

@[simp] theorem recordAbandonAct_good (slot : Nat) (c : List Byte) (s : State) (h : Good s) :
    Good (recordAbandonAct slot c s) := h.of (recordAbandonAct_base _ _ _) (recordAbandonAct_caps _ _ _ h.caps)

@[simp] theorem playOpenAct_good (slot : Nat) (c : List Byte) (s : State) (h : Good s) :
    Good (playOpenAct slot c s) := h.of (playOpenAct_base _ _ _) (playOpenAct_caps _ _ _ h.caps)

@[simp] theorem playCloseAct_good (slot : Nat) (c : List Byte) (s : State) (h : Good s) :
    Good (playCloseAct slot c s) := h.of (playCloseAct_base _ _ _) (playCloseAct_caps _ _ _ h.caps)

@[simp] theorem messageSaveAct_good (slot : Nat) (c : List Byte) (s : State) (h : Good s) :
    Good (messageSaveAct slot c s) := h.of (messageSaveAct_base _ _ _) (messageSaveAct_caps _ _ _ h.caps)

@[simp] theorem messageMarkNewAct_good (slot : Nat) (c : List Byte) (s : State) (h : Good s) :
    Good (messageMarkNewAct slot c s) := h.of (messageMarkNewAct_base _ _ _) (messageMarkNewAct_caps _ _ _ h.caps)

@[simp] theorem messageDeleteAct_good (slot : Nat) (c : List Byte) (s : State) (h : Good s) :
    Good (messageDeleteAct slot c s) := h.of (messageDeleteAct_base _ _ _) (messageDeleteAct_caps _ _ _ h.caps)

@[simp] theorem mailboxPurgeAct_good (slot : Nat) (c : List Byte) (s : State) (h : Good s) :
    Good (mailboxPurgeAct slot c s) := h.of (mailboxPurgeAct_base _ _ _) (mailboxPurgeAct_caps _ _ _ h.caps)

@[simp] theorem lampOverrideAct_good (slot : Nat) (c : List Byte) (s : State) (h : Good s) :
    Good (lampOverrideAct slot c s) := h.of (lampOverrideAct_base _ _ _) (lampOverrideAct_caps _ _ _ h.caps)

@[simp] theorem lampFaultClearAct_good (slot : Nat) (c : List Byte) (s : State) (h : Good s) :
    Good (lampFaultClearAct slot c s) := h.of (lampFaultClearAct_base _ _ _) (lampFaultClearAct_caps _ _ _ h.caps)

@[simp] theorem folioAdjustAct_good (slot : Nat) (c : List Byte) (s : State) (h : Good s) :
    Good (folioAdjustAct slot c s) := h.of (folioAdjustAct_base _ _ _) (folioAdjustAct_caps _ _ _ h.caps)

@[simp] theorem folioReleaseAct_good (slot : Nat) (c : List Byte) (s : State) (h : Good s) :
    Good (folioReleaseAct slot c s) := h.of (folioReleaseAct_base _ _ _) (folioReleaseAct_caps _ _ _ h.caps)

/-! ### The take of an order -/

theorem clockSetAct_good (slot : Nat) (c : List Byte) (s : State) (h : Good s)
    (hr : clockSetRefusal c s = none) : Good (clockSetAct slot c s) := by
  unfold clockSetAct
  apply completeOrder_good
  rw [good_mk]
  refine ⟨by simp [h], by simp [h], by simp [h], by simp [h], by simp [h], by simp [h], ?_⟩
  unfold clockSetRefusal at hr
  split at hr
  · cases hr
  · simp only
    omega

@[simp] theorem actOnCopy_good (slot : Nat) (c : List Byte) (s : State) (h : Good s) :
    Good (actOnCopy slot c s) := by
  unfold actOnCopy
  split
  · exact completeOrder_good _ _ _ _ _ h
  · next o _ =>
    split
    · exact completeOrder_good _ _ _ _ _ h
    · next hr => cases o <;> first | exact clockSetAct_good _ _ _ h hr | (unfold orderAct; simp [h])

@[simp] theorem completeTake_good (slot : Nat) (c : List Byte) (s : State) (h : Good s) :
    Good (completeTake slot c s) := by
  unfold completeTake
  dsimp only
  have h1 : ∀ t : State, Good t → ∀ n m, Good { t with ring := { t.ring with taking := n, ordersTaken := m } } :=
    fun t ht n m => ht.of rfl ⟨ht.caps.1, ht.caps.2, ht.caps.3⟩
  have h2 : ∀ t : State, Good t → ∀ n, Good { t with ring := { t.ring with consumer := n } } :=
    fun t ht n => ht.of rfl ⟨ht.caps.1, ht.caps.2, ht.caps.3⟩
  exact h2 _ (actOnCopy_good _ _ _ (h1 _ (raiseExecuting_good _ _ _ (updateEntry_good _ _ _ h)) _ _)) _

@[simp] theorem takeOrder_good (slot : Nat) (c : List Byte) (s : State) (h : Good s) :
    Good (takeOrder slot c s) := by
  unfold takeOrder
  dsimp only
  split <;> simp [h]

@[simp] theorem takeReturned_good (slot : Nat) (c : List Byte) (s : State) (h : Good s) :
    Good (takeReturned slot c s) := by
  unfold takeReturned
  split
  · exact takeOrder_good _ _ _ h
  · apply freeEntry_good
    exact h.of rfl ⟨h.caps.1, h.caps.2, h.caps.3⟩

@[simp] theorem takeGranted_good (slot need : Nat) (c : List Byte) (s : State) (h : Good s) :
    Good (takeGranted slot need c s) := by
  unfold takeGranted
  split <;> simp [h]

end Sys2Proof.Machine
end

