-- ==== Sys2Proof/Laws/Good2.lean ====
section
/-! SUPPORT. Profile control and the work of STARTING keep the invariant. -/

namespace Sys2Proof.Machine

/-- A change of the control block, the marks and the like keeps the invariant. -/
theorem Good.same {s t : State} (h : Good s) (hp : t.store.pocket = s.store.pocket)
    (hi : t.ring.inFlight = s.ring.inFlight) (hq : t.rating.queue = s.rating.queue)
    (hf : t.host.fifo = s.host.fifo) (hn : t.notices.queue = s.notices.queue) (hm : t.mem = s.mem)
    (ht : t.time = s.time) : Good t :=
  ⟨⟨by rw [hp]; exact h.caps.pocket, by rw [hi]; exact h.caps.inFlight, by rw [hq]; exact h.caps.queue⟩,
    ⟨by rw [hf]; exact h.bounded.1, by rw [hn]; exact h.bounded.2⟩, by rw [hm]; exact h.memory,
    by rw [ht]; exact h.clock⟩

@[simp] theorem writeActivation_good (s : State) (h : Good s) :
    Good (writeActivation s) := by simp [writeActivation, h]

@[simp] theorem recordResult_good (r : ActResult) (s : State) (h : Good s) :
    Good (recordResult r s) := by simp [recordResult, h]

@[simp] theorem startValidation_good (kind : StartKind) (s : State) (h : Good s) :
    Good (startValidation kind s) := by simp [startValidation, h]

@[simp] theorem enterStarting_good (kind : StartKind) (p : Profile) (l : Lists) (s : State) (h : Good s) :
    Good (enterStarting kind p l s) := by simp [enterStarting, h]

@[simp] theorem endValidation_good (kind : StartKind) (s : State) (h : Good s) : Good (endValidation kind s) := by
  unfold endValidation
  dsimp only
  split
  · exact recordResult_good _ _ (h.same rfl rfl rfl rfl rfl rfl rfl)
  · exact enterStarting_good _ _ _ _ (h.same rfl rfl rfl rfl rfl rfl rfl)

@[simp] theorem stopPart_good (s : State) (h : Good s) : Good (stopPart s) := by
  unfold stopPart
  apply recordResult_good
  rw [good_mk]
  refine ⟨by decide, by decide, by decide, ?_, by decide, h.memory, h.clock⟩
  exact (List.length_filter_le _ _).trans h.bounded.1

@[simp] theorem activationWritten_good (v : Nat) (s : State) (h : Good s) :
    Good (activationWritten v s) := by
  unfold activationWritten
  dsimp only
  (repeat' split) <;> simp (maxDischargeDepth := 20) [h]

@[simp] theorem workWrite_good (a : Nat) (lanes : List (Option Byte)) (s : State) (h : Good s) :
    Good (workWrite a lanes s) := by simp [workWrite, h]

@[simp] theorem workRead_good (a beats : Nat) (s : State) (h : Good s) :
    Good (workRead a beats s) := by simp [workRead, h]

@[simp] theorem toStage_good (g : WorkStage) (s : State) (h : Good s) :
    Good (toStage g s) := by simp [toStage, h]

@[simp] theorem nextElement_good (s : State) (h : Good s) :
    Good (nextElement s) := by simp [nextElement, h]

@[simp] theorem openNotices_good (s : State) (h : Good s) :
    Good (openNotices s) := by simp [openNotices, h]

@[simp] theorem claimBlock_good (i b : Nat) (s : State) (h : Good s) :
    Good (claimBlock i b s) := by simp [claimBlock, h]

@[simp] theorem countDamaged_good (i : Nat) (s : State) (h : Good s) : Good (countDamaged i s) :=
  h.same rfl rfl rfl rfl rfl rfl rfl

@[simp] theorem releaseDamaged_good (i : Nat) (s : State) (h : Good s) :
    Good (releaseDamaged i s) := by simp [releaseDamaged, h]

@[simp] theorem settleRecord_good (i : Nat) (isCut : Bool) (s : State) (h : Good s) :
    Good (settleRecord i isCut s) := by
  unfold settleRecord
  split <;> simp [h]

theorem startChain_good (i : Nat) (s : State) (h : Good s) : Good (startChain i s).2 := by
  unfold startChain
  dsimp only
  split
  · exact releaseDamaged_good _ _ (h.same rfl rfl rfl rfl rfl rfl rfl)
  · exact claimBlock_good _ _ _ (h.same rfl rfl rfl rfl rfl rfl rfl)

theorem startChains_good (n i : Nat) (s : State) (h : Good s) : Good (startChains n i s).2 := by
  induction n generalizing i s with
  | zero => exact h
  | succ n ih =>
    unfold startChains
    split
    · exact h
    · next j _ =>
      have hc := startChain_good j s h
      dsimp only
      split
      · exact hc
      · exact ih _ _ hc

@[simp] theorem placeKept_good (i : Nat) (s : State) (h : Good s) :
    Good (placeKept i s) := by
  unfold placeKept
  dsimp only
  (repeat' split) <;> simp (maxDischargeDepth := 20) [h]

@[simp] theorem releaseSurplus_good (i : Nat) (s : State) (h : Good s) :
    Good (releaseSurplus i s) := by simp [releaseSurplus, h]

@[simp] theorem settleMailbox_good (r : Nat) (s : State) (h : Good s) : Good (settleMailbox r s) := by
  unfold settleMailbox
  dsimp only
  apply State.setMailbox_good
  refine foldl_good _ (fun t i ht => State.setMessage_good _ _ _ ht) _ _ ?_
  exact foldl_good _ (fun t i ht => releaseSurplus_good _ _ ht) _ _ h

@[simp] theorem rebuildMailboxes_good (s : State) (h : Good s) : Good (rebuildMailboxes s) := by
  have h1 := foldl_good (fun t i => placeKept i t) (fun t i ht => placeKept_good i t ht)
    (List.range s.profile.records) s h
  have h2 := foldl_good (fun t r => settleMailbox r t) (fun t r ht => settleMailbox_good r t ht)
    (List.range s.roomCount) _ h1
  exact h2.same rfl rfl rfl rfl rfl rfl rfl

@[simp] theorem endFolio_good (r : Nat) (w : FolioWalk) (isCut : Bool) (s : State) (h : Good s) :
    Good (endFolio r w isCut s) := by
  unfold endFolio
  dsimp only
  (repeat' split) <;> simp (maxDischargeDepth := 20) [h]

@[simp] theorem endAdopt_good (s : State) (h : Good s) : Good (endAdopt s) := by
  unfold endAdopt
  dsimp only
  exact notify_good _ _ _ _ _ _ (h.same rfl rfl rfl rfl rfl rfl rfl)

@[simp] theorem endFormat_good (s : State) (h : Good s) :
    Good (endFormat s) := by simp [endFormat, h]

@[simp] theorem endStack_good (s : State) (h : Good s) :
    Good (endStack s) := by simp [endStack, h]

@[simp] theorem readSummary_good (r : Nat) (s : State) (h : Good s) :
    Good (readSummary r s) := by simp [readSummary, h]

theorem folioOn_good (r : Nat) (w : FolioWalk) (s : State) (h : Good s) : Good (folioOn r w s).2 := by
  have h0 : ∀ x, Good { s with control.work.folio := x } := fun x => h.same rfl rfl rfl rfl rfl rfl rfl
  unfold folioOn
  dsimp only
  split
  · exact endFolio_good r w false _ (h0 none)
  · split
    · split
      · exact workWrite_good _ _ _ (endFolio_good r w true _ (h0 w.following))
      · exact endFolio_good r w true _ (h0 none)
    · exact workRead_good _ _ _ (h0 _)

theorem folioPlaces_good (r n : Nat) (w : Option FolioWalk) (s : State) (h : Good s) :
    Good (folioPlaces r n w s).2 := by
  induction n generalizing w s with
  | zero => exact h
  | succ n ih =>
    cases w with
    | none => exact h
    | some w =>
      unfold folioPlaces
      have hf := folioOn_good r w s h
      dsimp only
      split
      · exact hf
      · exact ih _ _ hf

@[simp] theorem nextRoomFolios_good (s : State) (h : Good s) :
    Good (nextRoomFolios s) := by
  unfold nextRoomFolios
  dsimp only
  (repeat' split) <;> simp (maxDischargeDepth := 20) [h]

@[simp] theorem folioWork_good (w : Option FolioWalk) (s : State) (h : Good s) : Good (folioWork w s) := by
  unfold folioWork
  have hf := folioPlaces_good s.control.work.index 2 w s h
  dsimp only
  split
  · exact hf
  · exact nextRoomFolios_good _ hf

@[simp] theorem nextWork_good (n : Nat) (s : State) (h : Good s) : Good (nextWork n s) := by
  induction n generalizing s with
  | zero => exact h
  | succ n ih =>
    unfold nextWork
    dsimp only
    split
    · split
      · exact workWrite_good _ _ _ h
      · exact ih _ (toStage_good _ _ (h.same rfl rfl rfl rfl rfl rfl rfl))
    · split
      · exact workWrite_good _ _ _ h
      · exact ih _ (toStage_good _ _ (endStack_good _ h))
    · split
      · exact workWrite_good _ _ _ h
      · exact ih _ (toStage_good _ _ (h.same rfl rfl rfl rfl rfl rfl rfl))
    · split
      · exact workWrite_good _ _ _ h
      · exact ih _ (toStage_good _ _ h)
    · split
      · exact workWrite_good _ _ _ h
      · exact ih _ (toStage_good _ _ h)
    · split
      · exact workWrite_good _ _ _ h
      · exact ih _ (toStage_good _ _ h)
    · split
      · exact workWrite_good _ _ _ h
      · split
        · exact endFormat_good _ h
        · exact ih _ (toStage_good _ _ h)
    · split
      · exact workRead_good _ _ _ h
      · exact ih _ (toStage_good _ _ h)
    · split
      · exact workRead_good _ _ _ h
      · exact ih _ (toStage_good _ _ h)
    · have hc := startChains_good s.profile.records s.control.work.index s h
      split
      · exact hc
      · exact ih _ (toStage_good _ _ (rebuildMailboxes_good _ hc))
    · split
      · exact workWrite_good _ _ _ ((State.setMessage_good _ _ _ h).same rfl rfl rfl rfl rfl rfl rfl)
      · exact ih _ (toStage_good _ _ (h.same rfl rfl rfl rfl rfl rfl rfl))
    · exact readSummary_good _ _ h
    · exact h
    · exact h

@[simp] theorem beginWork_good (s : State) (h : Good s) :
    Good (beginWork s) := by simp [beginWork, h]

@[simp] theorem workGrantEffect_good (s : State) (h : Good s) :
    Good (workGrantEffect s) := by
  unfold workGrantEffect
  split <;> simp [h]

@[simp] theorem workGranted_good (s : State) (h : Good s) : Good (workGranted s) := by
  have h1 : Good { workGrantEffect s with control.work.writes := [] } :=
    (workGrantEffect_good s h).same rfl rfl rfl rfl rfl rfl rfl
  unfold workGranted
  dsimp only
  split
  · exact folioWork_good _ _ (h1.same rfl rfl rfl rfl rfl rfl rfl)
  · exact nextWork_good _ _ (nextElement_good _ h1)

@[simp] theorem adoptSlot_good (data : List Byte) (s : State) (h : Good s) : Good (adoptSlot data s) := by
  unfold adoptSlot
  dsimp only
  apply nextWork_good
  apply nextElement_good
  split
  · exact h.same rfl rfl rfl rfl rfl rfl rfl
  · exact h

@[simp] theorem adoptRecord_good (data : List Byte) (s : State) (h : Good s) :
    Good (adoptRecord data s) := by
  unfold adoptRecord
  dsimp only
  simp (maxDischargeDepth := 20) [h]

@[simp] theorem endChain_good (i : Nat) (isCut : Bool) (b : Nat) (header : List Byte) (s : State) (h : Good s) :
    Good (endChain i isCut b header s) := by
  unfold endChain
  dsimp only
  (repeat' split) <;> simp (maxDischargeDepth := 20) [h]

@[simp] theorem adoptHeader_good (data : List Byte) (s : State) (h : Good s) : Good (adoptHeader data s) := by
  have h1 : ∀ a b, Good { s with control.work.samples := a, control.work.header := b } :=
    fun a b => h.same rfl rfl rfl rfl rfl rfl rfl
  unfold adoptHeader
  dsimp only
  split
  · exact endChain_good _ _ _ _ _ (h1 _ _)
  · split
    · exact endChain_good _ _ _ _ _ (h1 _ _)
    · exact claimBlock_good _ _ _ (h1 _ _)

@[simp] theorem adoptFolio_good (data : List Byte) (s : State) (h : Good s) : Good (adoptFolio data s) := by
  unfold adoptFolio
  dsimp only
  split
  · exact folioWork_good _ _ h
  · split
    · exact folioWork_good _ _ (h.same rfl rfl rfl rfl rfl rfl rfl)
    · next w _ _ =>
      have h0 : ∀ x, Good { endFolio s.control.work.index w true s with control.work.folio := x } :=
        fun x => (endFolio_good _ _ _ _ h).same rfl rfl rfl rfl rfl rfl rfl
      split
      · exact workWrite_good _ _ _ (h0 _)
      · exact folioWork_good _ _ ((h0 w.following).same rfl rfl rfl rfl rfl rfl rfl)

@[simp] theorem settleFolios_good (r : Nat) (s : State) (h : Good s) :
    Good (settleFolios r s) := by
  unfold settleFolios
  dsimp only
  (repeat' split) <;> simp (maxDischargeDepth := 20) [h]

@[simp] theorem settleStoreLow_good (s : State) (h : Good s) :
    Good (settleStoreLow s) := by
  unfold settleStoreLow
  split <;> simp [h]

@[simp] theorem markRoom_good (r : Nat) (s : State) (h : Good s) : Good (markRoom r s) :=
  markMail_good r _ (markFolio_good r _ (markLamp_good r s h))

@[simp] theorem writeIdleEntries_good (s : State) (h : Good s) : Good (writeIdleEntries s) :=
  foldl_good _ (fun t k ht => writeLinkEntry_good k t ht) _ s h

@[simp] theorem endStarting_good (s : State) (h : Good s) : Good (endStarting s) := by
  unfold endStarting
  dsimp only
  apply writeActivation_good
  apply writeIdleEntries_good
  have h1 := foldl_good (fun t r => settleFolios r t) (fun t r ht => settleFolios_good r t ht)
    (List.range s.roomCount) s h
  have h2 := settleStoreLow_good _ (foldl_good (fun t k => settleTrunk k t)
    (fun t k ht => settleTrunk_good k t ht) (List.range s.profile.trunks) _ h1)
  have h3 := foldl_good (fun t r => markRoom r (recomputeLamp r t))
    (fun t r ht => markRoom_good r _ (recomputeLamp_good r t ht)) (List.range s.roomCount) _ h2
  exact h3.same rfl rfl rfl rfl rfl rfl rfl

end Sys2Proof.Machine
end

