-- ==== Sys2Proof/Laws/Good3.lean ====
section
/-! SUPPORT. The host path, the arbiter and the tenth-second event keep the invariant, and so does the end of a step. -/

namespace Sys2Proof.Machine

/-- What keeps the steady part and the two bounds keeps the invariant. -/
theorem Good.of_steady {s t : State} (h : Good s) (hs : t.steady = s.steady) (hb : Bounded t) : Good t := by
  have h1 := congrArg State.store hs
  have h2 := congrArg State.ring hs
  have h3 := congrArg State.rating hs
  have h4 := congrArg State.mem hs
  have h5 := congrArg State.time hs
  simp only [steady_store, steady_ring, steady_rating, steady_mem, steady_time] at h1 h2 h3 h4 h5
  exact ⟨⟨by rw [h1]; exact h.caps.pocket, by rw [h2]; exact h.caps.inFlight, by rw [h3]; exact h.caps.queue⟩, hb,
    by rw [h4]; exact h.memory, by rw [h5]; exact h.clock⟩

/-- The end of a step keeps the invariant. -/
@[simp] theorem finish_good (s : State) (h : Good s) : Good (finish s) :=
  h.of_steady (finish_steady s) (finish_bounded s h.bounded)

@[simp] theorem advanceHead_good (req : HostRequest) (n : Nat) (w : HeadWork) (s : State) (h : Good s) :
    Good (advanceHead req n w s) :=
  h.of_steady (advanceHead_steady req n w s) (advanceHead_bounded req n w s h.bounded)

@[simp] theorem serveHead_good (req : HostRequest) (zeroed : Option Nat) (seen : List Nat) (w : HeadWork) (s : State)
    (h : Good s) : Good (serveHead req zeroed seen w s) :=
  h.of_steady (serveHead_steady req zeroed seen w s) (serveHead_bounded req zeroed seen w s h.bounded)

@[simp] theorem checkIn_good (r : Nat) (s : State) (h : Good s) :
    Good (checkIn r s) := by
  unfold checkIn
  dsimp only
  simp (maxDischargeDepth := 20) [h]

@[simp] theorem setList_good (r : Nat) (list : List Nat) (s : State) (h : Good s) : Good (setList r list s) :=
  h.of (setList_base r list s) (setList_caps r list s h.caps)

@[simp] theorem checkoutMessages_good (r : Nat) (s : State) (h : Good s) : Good (checkoutMessages r s) := by
  unfold checkoutMessages
  apply checkoutChannels_good
  apply setList_good
  exact foldl_good _ (fun t i ht => releaseMessage_good i _ t ht) _ s h

@[simp] theorem checkoutFolios_good (r : Nat) (s : State) (h : Good s) :
    Good (checkoutFolios r s) := by simp [checkoutFolios, h]

@[simp] theorem checkOut_good (r : Nat) (s : State) (h : Good s) : Good (checkOut r s) :=
  clearDesk_good r _ (checkoutFolios_good r _ (checkoutMessages_good r s h))

@[simp] theorem statusChange_good (r : Nat) (old new : Shadow) (s : State) (h : Good s) :
    Good (statusChange r old new s) := by
  unfold statusChange
  split
  · exact checkIn_good r s h
  · split
    · exact checkOut_good r s h
    · exact h

@[simp] theorem limitChange_good (r : Nat) (old new : Shadow) (s : State) (h : Good s) :
    Good (limitChange r old new s) := by
  unfold limitChange
  split <;> simp [h]

@[simp] theorem lampChange_good (r : Nat) (old new : Shadow) (s : State) (h : Good s) :
    Good (lampChange r old new s) := by
  unfold lampChange
  split <;> simp [h]

@[simp] theorem handChanges_good (r : Nat) (old new : Shadow) (s : State) (h : Good s) :
    Good (handChanges r old new s) :=
  lampChange_good r old new _ (limitChange_good r old new _ (statusChange_good r old new s h))

@[simp] theorem roomWritten_good (r : Nat) (es : List (Nat × Byte)) (s : State) (h : Good s) :
    Good (roomWritten r es s) := by
  have h1 : ∀ v, Good (s.setRoomShadow r v) := fun v => h.same rfl rfl rfl rfl rfl rfl rfl
  unfold roomWritten
  dsimp only
  split
  · exact h
  · split
    · exact handChanges_good _ _ _ _ (h1 _)
    · exact h1 _

@[simp] theorem trunkEntryWritten_good (t : Nat) (es : List (Nat × Byte)) (s : State) (h : Good s) :
    Good (trunkEntryWritten t es s) := by
  have h1 : ∀ v, Good (s.setTrunkShadow t v) := fun v => h.same rfl rfl rfl rfl rfl rfl rfl
  unfold trunkEntryWritten
  dsimp only
  split
  · exact h
  · split
    · exact trunkWritten_good _ _ _ _ (h1 _)
    · exact h1 _

@[simp] theorem tariffWritten_good (i : Nat) (es : List (Nat × Byte)) (s : State) (h : Good s) :
    Good (tariffWritten i es s) := by
  unfold tariffWritten
  dsimp only
  split
  · exact h
  · exact h.same rfl rfl rfl rfl rfl rfl rfl

@[simp] theorem ringError_good (slot : Nat) (v : Byte) (s : State) (h : Good s) :
    Good (ringError slot v s) := by simp [ringError, h]

@[simp] theorem slotWritten_good (slot : Nat) (v : Byte) (s : State) (h : Good s) :
    Good (slotWritten slot v s) := by
  unfold slotWritten
  dsimp only
  (repeat' split) <;> simp (maxDischargeDepth := 20) [h]

@[simp] theorem consumerWritten_good (v : Nat) (s : State) (h : Good s) :
    Good (consumerWritten v s) := by
  unfold consumerWritten
  split <;> simp [h]

@[simp] theorem overflowCleared_good (s : State) (h : Good s) :
    Good (overflowCleared s) := by simp [overflowCleared, h]

@[simp] theorem guardWrite_good (g : List (Nat × Nat)) (n : Nat) (s : State) (h : Good s) :
    Good (guardWrite g n s) := by
  unfold guardWrite
  split <;> simp [h]

@[simp] theorem observed_good (o : Observation) (s : State) (h : Good s) :
    Good (observed o s) := by
  unfold observed
  split <;> simp [h]

@[simp] theorem leaveWrite_good (req : HostRequest) (mode : PartState) (s : State) (h : Good s) :
    Good (leaveWrite req mode s) := by
  unfold leaveWrite
  dsimp only
  refine foldl_good _ (fun t o ht => observed_good o t ht) _ _ ?_
  apply guardWrite_good
  rw [good_mk]
  refine ⟨h.caps.1, h.caps.2, h.caps.3, ?_, h.bounded.2, h.memory, h.clock⟩
  have := h.bounded.1
  simp only [List.length_tail]
  omega

@[simp] theorem leaveRead_good (req : HostRequest) (answer : List (Option Byte)) (s : State) (h : Good s) :
    Good (leaveRead req answer s) := by
  obtain ⟨_, _, -, e⟩ := leaveRead_eq req answer s
  have := h.bounded.1
  rw [e]
  refine ⟨⟨h.caps.1, h.caps.2, h.caps.3⟩, ⟨?_, h.bounded.2⟩, h.memory, h.clock⟩
  simp only [List.length_tail]
  omega





















@[simp] theorem takeVoice_good (w : HeadWork) (s : State) (h : Good s) :
    Good (takeVoice w s) := by
  unfold takeVoice
  split <;> simp [h]

@[simp] theorem voiceWrite_good (req : HostRequest) (w : HeadWork) (s : State) (h : Good s) :
    Good (voiceWrite req w s) := by
  unfold voiceWrite
  dsimp only
  (repeat' split) <;> simp (maxDischargeDepth := 20) [h]

@[simp] theorem performParts_good (mode : PartState) (ps : List Part) (s : State) (h : Good s) :
    Good (performParts mode ps s) := by
  induction ps generalizing s with
  | nil => exact h
  | cons p ps ih =>
    unfold performParts
    dsimp only
    split
    · exact ih _ (takeLanes_good _ _ _ h)
    · apply ih
      split
      · exact raise_good _ _ h
      · exact h

@[simp] theorem leaveCheckout_good (req : HostRequest) (w : HeadWork) (s : State) (h : Good s) :
    Good (leaveCheckout req w s) := by simp [leaveCheckout, h]

@[simp] theorem checkoutGranted_good (req : HostRequest) (w : HeadWork) (s : State) (h : Good s) :
    Good (checkoutGranted req w s) := by
  unfold checkoutGranted
  dsimp only
  split
  · exact leaveCheckout_good _ _ _ (leaveReleaseLine_good _ h)
  · exact renewFirst_good _ _ h

@[simp] theorem leaveOrAsk_good (req : HostRequest) (w : HeadWork) (s : State) (h : Good s) :
    Good (leaveOrAsk req w s) := by
  unfold leaveOrAsk
  split
  · exact leaveWrite_good _ _ _ h
  · exact h.same rfl rfl rfl rfl rfl rfl rfl

@[simp] theorem hostPartGranted_good (write : Bool) (s : State) (h : Good s) : Good (hostPartGranted write s) := by
  unfold hostPartGranted
  split
  · split
    · split
      · exact leaveOrAsk_good _ _ _ h
      · exact advanceHead_good _ _ _ _ h
    · exact h
  · exact h

@[simp] theorem mailMirrorGranted_good (s : State) (h : Good s) :
    Good (mailMirrorGranted s) := by
  unfold mailMirrorGranted
  dsimp only
  (repeat' split) <;> simp_all (maxDischargeDepth := 20)

@[simp] theorem folioMirrorGranted_good (s : State) (h : Good s) :
    Good (folioMirrorGranted s) := by
  unfold folioMirrorGranted
  split <;> simp [h]

@[simp] theorem lampMirrorGranted_good (s : State) (h : Good s) :
    Good (lampMirrorGranted s) := by
  unfold lampMirrorGranted
  split <;> simp [h]

@[simp] theorem takeGrantedRead_good (s : State) (h : Good s) :
    Good (takeGrantedRead s) := by
  unfold takeGrantedRead
  split <;> simp [h]

@[simp] theorem completionGranted_good (slot : Nat) (s : State) (h : Good s) :
    Good (completionGranted slot s) := by simp [completionGranted, h]

@[simp] theorem noticeHeaderGranted_good (advance : Bool) (s : State) (h : Good s) :
    Good (noticeHeaderGranted advance s) := by
  unfold noticeHeaderGranted
  split <;> simp [h]

@[simp] theorem folioWriteGranted_good (s : State) (h : Good s) :
    Good (folioWriteGranted s) := by simp [folioWriteGranted, h]

@[simp] theorem grantEffect_good (r : Request) (s : State) (h : Good s) : Good (grantEffect r s) := by
  unfold grantEffect
  split
  case h_9 => split <;> simp [h]
  all_goals first | exact h | simp [h]

@[simp] theorem carry_good (r : Request) (s : State) (h : Good s) : Good (carry r s) := by
  unfold carry
  split
  · rw [good_mk]
    exact ⟨h.caps.1, h.caps.2, h.caps.3, h.bounded.1, h.bounded.2, Memory.wf_writeLanes _ _ _ h.memory, h.clock⟩
  · exact h.same rfl rfl rfl rfl rfl rfl rfl

@[simp] theorem settleGrant_good (d : Decision) (s : State) (h : Good s) :
    Good (settleGrant d s) := by simp [settleGrant, h]

@[simp] theorem grant_good (d : Decision) (r : Request) (s : State) (h : Good s) : Good (grant d r s) :=
  grantEffect_good r _ (carry_good r _ (settleGrant_good d s h))

@[simp] theorem arrivesInBuffer_good (ch : Nat) (second : Bool) (data : List Byte) (s : State) (h : Good s) :
    Good (arrivesInBuffer ch second data s) := by simp [arrivesInBuffer, h]

@[simp] theorem returnBurst_good (c : Carried) (s : State) (h : Good s) :
    Good (returnBurst c s) := by simp [returnBurst, h]

@[simp] theorem acknowledged_good (c : Carried) (s : State) (h : Good s) :
    Good (acknowledged c s) := by
  unfold acknowledged
  dsimp only
  (repeat' split) <;> simp (maxDischargeDepth := 20) [h]

@[simp] theorem freePort_good (s : State) (h : Good s) :
    Good (freePort s) := by simp [freePort, h]

@[simp] theorem raiseMirror_good (e : MirrorEngine) (r : Nat) (s : State) (h : Good s) :
    Good (raiseMirror e r s) := by
  unfold raiseMirror
  split <;> simp [h]

@[simp] theorem statusWrite_good (src : Source) (off beats : Nat) (bytes : List Byte) (s : State) (h : Good s) :
    Good (statusWrite src off beats bytes s) := by simp [statusWrite, h]

@[simp] theorem writePathStatus_good (s : State) (h : Good s) :
    Good (writePathStatus s) := by
  unfold writePathStatus
  dsimp only
  (repeat' split) <;> simp (maxDischargeDepth := 20) [h]

@[simp] theorem writeArbiterStatus_good (s : State) (h : Good s) :
    Good (writeArbiterStatus s) := by
  unfold writeArbiterStatus
  dsimp only
  (repeat' split) <;> simp (maxDischargeDepth := 20) [h]

@[simp] theorem writeStoreStatus_good (s : State) (h : Good s) :
    Good (writeStoreStatus s) := by
  unfold writeStoreStatus
  dsimp only
  (repeat' split) <;> simp (maxDischargeDepth := 20) [h]

@[simp] theorem writeRingStatus_good (s : State) (h : Good s) :
    Good (writeRingStatus s) := by
  unfold writeRingStatus
  dsimp only
  (repeat' split) <;> simp (maxDischargeDepth := 20) [h]

@[simp] theorem writeRatingStatus_good (s : State) (h : Good s) :
    Good (writeRatingStatus s) := by
  unfold writeRatingStatus
  dsimp only
  (repeat' split) <;> simp (maxDischargeDepth := 20) [h]

@[simp] theorem writeFolioStatus_good (s : State) (h : Good s) :
    Good (writeFolioStatus s) := by
  unfold writeFolioStatus
  dsimp only
  (repeat' split) <;> simp (maxDischargeDepth := 20) [h]

@[simp] theorem writeStatus_good (s : State) (h : Good s) :
    Good (writeStatus s) := by
  unfold writeStatus
  dsimp only
  (repeat' split) <;> simp (maxDischargeDepth := 20) [h]

@[simp] theorem tenth_good (s : State) (h : Good s) : Good (tenth s) := by
  unfold tenth
  apply startSweep_good
  apply writeStatus_good
  rw [good_mk]
  refine ⟨h.caps.1, h.caps.2, h.caps.3, h.bounded.1, h.bounded.2, h.memory, ?_⟩
  unfold TimeBase.tick
  dsimp only
  split
  · decide
  · next hw => simpa using hw

end Sys2Proof.Machine
end

