-- ==== Sys2Proof/Laws/Steps.lean ====
section
/-! SUPPORT. The steps of the table: what each kind of step answers, and that its effect keeps the invariant. -/

namespace Sys2Proof.Machine

/-! ### What a step answers -/

theorem stepIf_of {b : Bool} (f : State → State) (s : State) (h : b = true) : stepIf b f s = .next (taken f s) := by
  simp [stepIf, h]

theorem stepOn_of {α : Type} {o : Option α} {a : α} (f : α → State → State) (s : State) (h : o = some a) :
    stepOn o f s = .next (taken (f a) s) := by
  simp [stepOn, h]

theorem stepReturn_of {p : Source → Bool} {r : Returned} (f : Returned → State → State) (s : State)
    (h : s.returnOf p = some r) : stepReturn p f s = .next (taken (fun t => f r (takeReturn p t)) s) :=
  stepOn_of _ s h

/-- All that a step with a condition can answer. -/
theorem stepIf_next {b : Bool} {f : State → State} {s t : State} (h : stepIf b f s = .next t) :
    (b = true ∧ t = taken f s) ∨ t = s := by
  unfold stepIf at h
  split at h
  · next hb => cases h; exact .inl ⟨hb, rfl⟩
  · cases h; exact .inr rfl

/-- All that a step on something can answer. -/
theorem stepOn_next {α : Type} {o : Option α} {f : α → State → State} {s t : State}
    (h : stepOn o f s = .next t) : (∃ a, o = some a ∧ t = taken (f a) s) ∨ t = s := by
  unfold stepOn at h
  split at h
  · cases h; exact .inl ⟨_, rfl, rfl⟩
  · cases h; exact .inr rfl

/-- All that a step on a returned burst can answer. -/
theorem stepReturn_next {p : Source → Bool} {f : Returned → State → State} {s t : State}
    (h : stepReturn p f s = .next t) :
    (∃ r, s.returnOf p = some r ∧ t = taken (fun u => f r (takeReturn p u)) s) ∨ t = s := stepOn_next h

@[simp] theorem beginStep_steady (s : State) : (beginStep s).steady = s.steady := rfl

/-! ### The invariant through a step -/

theorem Inv.good {s : State} (h : Inv s) : Good s :=
  ⟨⟨h.pocket, h.inFlight, h.queue⟩, ⟨h.fifo, h.notices⟩, h.memory, h.clock⟩

theorem Good.inv {s : State} (h : Good s) (ho : s.out = {}) : Inv s :=
  ⟨h.memory, ho, h.bounded.1, h.bounded.2, h.caps.pocket, h.caps.inFlight, h.caps.queue, h.clock⟩

/-- A step whose effect keeps the invariant keeps it whole. -/
theorem taken_inv {f : State → State} {s : State} (h : Inv s) (hf : ∀ t, Good t → Good (f t)) : Inv (taken f s) :=
  (finish_good _ (hf _ (beginStep_good s h.good))).inv (finish_out _)

theorem takeReturn_good (p : Source → Bool) (s : State) (h : Good s) : Good (takeReturn p s) :=
  h.same rfl rfl rfl rfl rfl rfl rfl

theorem present_good (r : HostRequest) (s : State) (h : Good s) : Good (present r s) :=
  h.same rfl rfl rfl rfl rfl rfl rfl

theorem atLeave_good (s : State) (h : Good s) : Good s.atLeave := by
  unfold State.atLeave
  split
  · exact h
  · split
    · exact carry_good _ _ (settleGrant_good _ _ h)
    · exact h

theorem leaveNow_good (s : State) (h : Good s) : Good (leaveNow s) := by
  unfold leaveNow
  split
  · exact leaveWrite_good _ _ _ (atLeave_good s h)
  · exact h

theorem readReturned_good (r : Returned) (s : State) (h : Good s) : Good (readReturned r s) := by
  unfold readReturned
  split
  · exact h
  · split
    · exact h
    · exact advanceHead_good _ _ _ _ h

theorem expireStall_good (x : HostRequest × HeadWork × Nat × List Nat) (s : State) (h : Good s) :
    Good (expireStall x s) := serveHead_good _ _ _ _ _ (State.setChannel_good _ _ _ h)

theorem holdCheckout_good (x : HostRequest × HeadWork) (s : State) (h : Good s) : Good (holdCheckout x s) :=
  joinReleaseLine_good _ _ _ (h.same rfl rfl rfl rfl rfl rfl rfl)

theorem loadReturned_good (r : Returned) (s : State) (h : Good s) : Good (loadReturned r s) := by
  have := h.bounded.1
  unfold loadReturned
  split
  · exact h
  · next t _ =>
    have h1 : Good { s with host := { s.host with fifo := s.host.fifo.tail, head := none } } := by
      refine ⟨⟨h.caps.1, h.caps.2, h.caps.3⟩, ⟨?_, h.bounded.2⟩, h.memory, h.clock⟩
      simp only [List.length_tail]
      omega
    cases t <;> exact h1.same rfl rfl rfl rfl rfl rfl rfl

theorem workData_good (f : List Byte → State → State) (hf : ∀ d t, Good t → Good (f d t)) (r : Returned) (s : State)
    (h : Good s) : Good (workData f r s) := hf _ _ (h.same rfl rfl rfl rfl rfl rfl rfl)

theorem receive_good (bytes : List Byte) (w : Sweep) (s : State) (h : Good s) : Good (receive bytes w s) :=
  h.same rfl rfl rfl rfl rfl rfl rfl

theorem openWindow_good (w : Sweep) (s : State) (h : Good s) : Good (openWindow w s) :=
  h.same rfl rfl rfl rfl rfl rfl rfl

theorem blockFinished_good (r : Returned) (s : State) (h : Good s) : Good (blockFinished r s) := by
  unfold blockFinished; split <;> simp [h]

theorem patchFinished_good (r : Returned) (s : State) (h : Good s) : Good (patchFinished r s) := by
  unfold patchFinished; split <;> simp [h]

theorem fetchFinished_good (r : Returned) (s : State) (h : Good s) : Good (fetchFinished r s) := by
  unfold fetchFinished; split <;> simp [h]

theorem offsetRead_good (r : Returned) (s : State) (h : Good s) : Good (offsetRead r s) := by
  unfold offsetRead; split <;> simp [h]

theorem startPop_good (s : State) (h : Good s) (hp : s.canPop = true) : Good (startPop s) := by
  refine h.of (startPop_base s) (startPop_caps s h.caps ?_)
  unfold State.canPop at hp
  simp only [Bool.and_eq_true, decide_eq_true_eq] at hp
  have h8 : s.store.pocket.length ≤ 8 := hp.1.1.1.2
  show s.store.pocket.length < 16
  omega

theorem folioEntryWritten_good (s : State) (h : Good s) : Good (folioEntryWritten s) := by
  unfold folioEntryWritten
  split
  · exact h
  · next e rest hq =>
    have h1 : Good { s with rating := { s.rating with queue := rest, queueGranted := s.rating.queueGranted - 1 } } := by
      refine ⟨⟨h.caps.1, h.caps.2, ?_⟩, h.bounded, h.memory, h.clock⟩
      have := h.caps.3
      rw [hq, List.length_cons] at this
      show rest.length ≤ _
      omega
    dsimp only
    split
    · exact orderStep_good _ _ h1
    · exact h1

theorem startTake_good (s : State) (h : Good s) (hc : s.canTake = true) : Good (startTake s) := by
  unfold startTake
  apply raise_good
  refine ⟨⟨h.caps.1, ?_, h.caps.3⟩, h.bounded, h.memory, h.clock⟩
  unfold State.canTake at hc
  simp only [Bool.and_eq_true, decide_eq_true_eq] at hc
  simp only [List.length_append, List.length_singleton]
  exact hc.2

theorem takeData_good (r : Returned) (s : State) (h : Good s) : Good (takeData r s) := by
  unfold takeData; split <;> simp [h]

theorem writeNotice_good (n : Notice) (s : State) (h : Good s) : Good (writeNotice n s) := by
  have h1 : Good { s with notices := { s.notices with queue := s.notices.queue.tail } } := by
    refine ⟨⟨h.caps.1, h.caps.2, h.caps.3⟩, ⟨h.bounded.1, ?_⟩, h.memory, h.clock⟩
    have := h.bounded.2
    simp only [List.length_tail]
    omega
  unfold writeNotice
  dsimp only
  split
  · exact h1.same rfl rfl rfl rfl rfl rfl rfl
  · exact raise_good _ _ (raise_good _ _ (h1.same rfl rfl rfl rfl rfl rfl rfl))

end Sys2Proof.Machine
end

