-- ==== Sys2Proof/Laws/Ends.lean ====
section
/-! SUPPORT. The end of a step, said once: `finish` ends as the state it is given. -/

namespace Sys2Proof.Machine

theorem resumeStall_of_not_stalled (s : State) (w : HeadWork) (h : s.host.head = some w)
    (hp : ∀ ch seen, w.phase ≠ .stalled ch seen) : resumeStall s = s := by
  unfold resumeStall
  rw [h]
  cases hq : s.headRequest with
  | none => rfl
  | some req =>
    dsimp only
    split
    · next ch seen he => exact absurd he (hp _ _)
    · rfl

theorem joinFifo_head (s : State) : (joinFifo s).host.head = s.host.head := by
  have hc : (choose 2 s).2.host.head = s.host.head := by unfold choose; split <;> rfl
  unfold joinFifo
  dsimp only
  split
  · split <;> rfl
  · split <;> rfl
  · split <;> (split <;> exact hc)

theorem fillFifo_head (n : Nat) (s : State) : (fillFifo n s).host.head = s.host.head := by
  induction n generalizing s with
  | zero => rfl
  | succ n ih =>
    unfold fillFifo
    split
    · rw [ih, joinFifo_head]
    · rfl

/-- With a head that waits, the FIFO only fills. -/
theorem settleFifo_of_head (n : Nat) (s : State) (h : s.host.head.isSome = true) :
    settleFifo (n + 1) s = fillFifo Config.fifoDepth s := by
  have h1 : startHead (fillFifo Config.fifoDepth s) = fillFifo Config.fifoDepth s := by
    unfold startHead
    rw [fillFifo_head, h]
    rfl
  unfold settleFifo
  dsimp only
  rw [h1, fillFifo_head, h]
  rfl

/-- With nothing in the host path and nothing waiting, nothing happens. -/
theorem settleFifo_of_empty (n : Nat) (s : State) (hf : s.host.fifo = [])
    (hw : s.host.waiting = []) (hl : s.host.loads = []) : settleFifo (n + 1) s = s := by
  have h1 : ∀ m, fillFifo m s = s := by
    intro m
    cases m with
    | zero => rfl
    | succ m => unfold fillFifo; simp [hf, hw, hl]
  have h2 : startHead s = s := by
    unfold startHead
    split
    · rfl
    · rw [hf]
  unfold settleFifo
  dsimp only
  rw [h1, h2, hf]
  simp

theorem resumeStall_of_empty (s : State) (hh : s.host.head = none) : resumeStall s = s := by
  unfold resumeStall
  rw [hh]
  cases s.headRequest <;> rfl

/-- With a host path that waits, the end of a step leaves every channel. -/
theorem finish_voice (s : State) (h : s.headWaits) : (finish s).voice = s.voice := by
  unfold finish
  dsimp only
  rw [commit_voice]
  rcases h with ⟨w, hw, hp⟩ | ⟨hh, hf, hw, hl⟩
  · rw [resumeStall_of_not_stalled s w hw hp, settleFifo_of_head _ s (by rw [hw]; rfl), fillFifo_voice]
  · rw [resumeStall_of_empty s hh, settleFifo_of_empty _ s hf hw hl]

theorem joinFifo_still (s : State) : (joinFifo s).host.still = s.host.still := by
  have hc : (choose 2 s).2.host.still = s.host.still := by unfold choose; split <;> rfl
  unfold joinFifo
  dsimp only
  split
  · split <;> rfl
  · split <;> rfl
  · split <;> (split <;> exact hc)

theorem joinFifo_fifo (s : State) : ∃ l, (joinFifo s).host.fifo = s.host.fifo ++ l := by
  have hc : (choose 2 s).2.host = s.host := by unfold choose; split <;> rfl
  unfold joinFifo
  dsimp only
  split
  · split
    · exact ⟨[], by simp⟩
    · exact ⟨_, rfl⟩
  · split
    · exact ⟨[], by simp⟩
    · exact ⟨_, rfl⟩
  · split <;> (split <;> first | exact ⟨_, by rw [hc]⟩ | exact ⟨[], by rw [hc]; simp⟩)

theorem fillFifo_still (n : Nat) (s : State) : (fillFifo n s).host.still = s.host.still := by
  induction n generalizing s with
  | zero => rfl
  | succ n ih =>
    unfold fillFifo
    split
    · rw [ih, joinFifo_still]
    · rfl

theorem fillFifo_fifo (n : Nat) (s : State) : ∃ l, (fillFifo n s).host.fifo = s.host.fifo ++ l := by
  induction n generalizing s with
  | zero => exact ⟨[], by simp [fillFifo]⟩
  | succ n ih =>
    unfold fillFifo
    split
    · obtain ⟨l, hl⟩ := joinFifo_fifo s
      obtain ⟨m, hm⟩ := ih (joinFifo s)
      exact ⟨l ++ m, by rw [hm, hl, List.append_assoc]⟩
    · exact ⟨[], by simp⟩

theorem queueNotice_host (n : Notice) (s : State) : (queueNotice n s).host = s.host := by
  unfold queueNotice; split <;> rfl

/-- Placing what was raised leaves the host path. -/
theorem commit_host (s : State) : (commit s).host = s.host := by
  unfold commit
  dsimp only
  rw [foldl_keeps State.host (fun t who => commitLine who _ t) (fun t who => (interleave_host _ _ _ t).1)]
  unfold commitNotices
  dsimp only
  rw [foldl_keeps State.host (fun t (n : Requester × Notice) => queueNotice n.2 t) (fun t n => queueNotice_host n.2 t)]
  exact (interleave_host _ _ _ s).1

/-- Where the host path waits, the end of a step only fills the FIFO and places what was raised. -/
theorem finish_waits (s : State) (h : s.headWaits) :
    ∃ n, finish s = commit (fillFifo n s) := by
  unfold finish
  dsimp only
  rcases h with ⟨w, hw, hp⟩ | ⟨hh, hf, hw, hl⟩
  · rw [resumeStall_of_not_stalled s w hw hp, settleFifo_of_head _ s (by rw [hw]; rfl)]
    exact ⟨_, rfl⟩
  · rw [resumeStall_of_empty s hh, settleFifo_of_empty _ s hf hw hl]
    exact ⟨0, rfl⟩

theorem finish_head (s : State) (h : s.headWaits) :
    (finish s).host.still = s.host.still ∧ ∃ l, (finish s).host.fifo = s.host.fifo ++ l := by
  obtain ⟨n, hn⟩ := finish_waits s h
  rw [hn, commit_host]
  exact ⟨fillFifo_still n s, fillFifo_fifo n s⟩

theorem joinFifo_out (s : State) : (joinFifo s).out = s.out := by
  unfold joinFifo
  dsimp only
  split
  · split <;> rfl
  · split <;> rfl
  · split <;> (split <;> exact choose_out 2 s)

theorem fillFifo_out (n : Nat) (s : State) : (fillFifo n s).out = s.out := by
  induction n generalizing s with
  | zero => rfl
  | succ n ih =>
    unfold fillFifo
    split
    · rw [ih, joinFifo_out]
    · rfl

theorem Quiet.fit {s t : State} (h : Quiet s t) (hs : s.noticesFit) : t.noticesFit := by
  unfold State.noticesFit at *
  rw [h.1, h.2]
  exact hs

theorem finish_exact (s : State) (h : s.headWaits) (hn : s.noticesFit) (who : Requester) :
    ∃ l, (finish s).arbiter.lines.get who = s.arbiter.lines.get who ++ l ∧ l.Perm (s.raisedFor who) := by
  obtain ⟨n, he⟩ := finish_waits s h
  obtain ⟨l, hl, hp⟩ := commit_exact (fillFifo n s) ((fillFifo_quiet n s).fit hn) who
  refine ⟨l, ?_, ?_⟩
  · rw [he, hl, (fillFifo_grows n s).arbiter]
  · unfold State.raisedFor at *
    rwa [fillFifo_out] at hp

theorem finish_notices (s : State) (hn : s.noticesFit) :
    ∃ q, (finish s).notices = { s.notices with queue := s.notices.queue ++ q } ∧
      q.Perm (s.out.notices.map Prod.snd) := by
  have hq := (resumeStall_quiet s).trans
    (settleFifo_quiet ((resumeStall s).host.fifo.length + (resumeStall s).host.waiting.length + 1) (resumeStall s))
  obtain ⟨q, e, p⟩ := commit_notices _ (hq.fit hn)
  refine ⟨q, ?_, ?_⟩
  · unfold finish
    dsimp only
    rw [e, hq.1]
  · rwa [hq.2] at p

/-- The end of a step, said once. -/
theorem finish_endsAs (u : State) : EndsAs u (finish u) where
  steady := finish_steady u
  channels := fun k h => finish_channel u k h
  voice := finish_voice u
  head := finish_head u
  lines := fun w => finish_line u w _ fun r hr => by
    unfold State.raisedFor at hr
    simpa using hr
  exact := finish_exact u
  notices := finish_notices u
  placed := finish_out u

/-- A step that takes place ends as its effect on the state that begins it. -/
theorem taken_endsAs (f : State → State) (s : State) : EndsAs (f (beginStep s)) (taken f s) := finish_endsAs _

/-- Between steps the outbox is empty, and beginning a step changes nothing. -/
theorem beginStep_eq {s : State} (h : s.out = {}) : beginStep s = s := by
  cases s
  cases h
  rfl

theorem taken_endsAs' {f : State → State} {s u : State} (h : s.out = {}) (hu : f s = u) : EndsAs u (taken f s) := by
  have := taken_endsAs f s
  rwa [beginStep_eq h, hu] at this

/-! ### What is read of the end of a step -/

section
variable {u t : State} (h : EndsAs u t)
include h

theorem EndsAs.mem : t.mem = u.mem := by
  have := congrArg State.mem h.steady
  exact this
theorem EndsAs.time : t.time = u.time := by
  have := congrArg State.time h.steady
  exact this
theorem EndsAs.frame : t.frame = u.frame := by
  have := congrArg State.frame h.steady
  exact this
theorem EndsAs.straps : t.straps = u.straps := by
  have := congrArg State.straps h.steady
  exact this
theorem EndsAs.pending : t.pending = u.pending := by
  have := congrArg State.pending h.steady
  exact this
theorem EndsAs.control : t.control = u.control := by
  have := congrArg State.control h.steady
  exact this
theorem EndsAs.store : t.store = u.store := by
  have := congrArg State.store h.steady
  exact this
theorem EndsAs.ring : t.ring = u.ring := by
  have := congrArg State.ring h.steady
  exact this
theorem EndsAs.rating : t.rating = u.rating := by
  have := congrArg State.rating h.steady
  exact this
theorem EndsAs.lamp : t.lamp = u.lamp := by
  have := congrArg State.lamp h.steady
  exact this
theorem EndsAs.arbiter : { t.arbiter with lines := {} } = { u.arbiter with lines := {} } := by
  have := congrArg State.arbiter h.steady
  exact this
theorem EndsAs.port : t.arbiter.port = u.arbiter.port := by
  have := congrArg Arbiter.port h.arbiter
  exact this
theorem EndsAs.returned : t.arbiter.returned = u.arbiter.returned := by
  have := congrArg Arbiter.returned h.arbiter
  exact this
theorem EndsAs.lists : t.arbiter.lists = u.arbiter.lists := by
  have := congrArg Arbiter.lists h.arbiter
  exact this
theorem EndsAs.rooms : t.host.rooms = u.host.rooms := by
  have := congrArg (fun s => s.host.rooms) h.steady
  exact this
theorem EndsAs.trunks : t.host.trunks = u.host.trunks := by
  have := congrArg (fun s => s.host.trunks) h.steady
  exact this
theorem EndsAs.tariffs : t.host.tariffs = u.host.tariffs := by
  have := congrArg (fun s => s.host.tariffs) h.steady
  exact this
theorem EndsAs.guardCount : t.host.guardCount = u.host.guardCount := by
  have := congrArg (fun s => s.host.guardCount) h.steady
  exact this
theorem EndsAs.hostWritten : t.host.written = u.host.written := by
  have := congrArg (fun s => s.host.written) h.steady
  exact this

theorem EndsAs.message (i : Nat) : t.message i = u.message i := by unfold State.message; rw [h.store]
theorem EndsAs.mailbox (r : Nat) : t.mailbox r = u.mailbox r := by unfold State.mailbox; rw [h.store]
theorem EndsAs.trunk (k : Nat) : t.trunk k = u.trunk k := by unfold State.trunk; rw [h.rating]
theorem EndsAs.folios (r : Nat) : t.folios r = u.folios r := by unfold State.folios; rw [h.rating]
theorem EndsAs.lampOf (r : Nat) : t.lampOf r = u.lampOf r := by unfold State.lampOf; rw [h.lamp]
theorem EndsAs.card (k : Nat) : t.card k = u.card k := by unfold State.card; rw [h.lamp]
theorem EndsAs.roomShadow (r : Nat) : t.roomShadow r = u.roomShadow r := by unfold State.roomShadow; rw [h.rooms]
theorem EndsAs.trunkShadow (k : Nat) : t.trunkShadow k = u.trunkShadow k := by unfold State.trunkShadow; rw [h.trunks]
theorem EndsAs.tariffShadow (i : Nat) : t.tariffShadow i = u.tariffShadow i := by
  unfold State.tariffShadow; rw [h.tariffs]
theorem EndsAs.profile : t.profile = u.profile := by unfold State.profile; rw [h.control]

theorem EndsAs.sameOuter {s : State} (hs : sameOuter s u) : sameOuter s t :=
  ⟨h.mem.trans hs.1, h.time.trans hs.2.1, h.frame.trans hs.2.2.1, h.straps.trans hs.2.2.2.1, h.pending.trans hs.2.2.2.2⟩

end

end Sys2Proof.Machine
end

