-- ==== Sys2Proof/Laws/State.lean ====
section
/-! SUPPORT. The record updates of the model, field by field: what each leaves as it was, and what it puts in its own
place. -/

namespace Sys2Proof.Machine

/-! ### `setChannel` -/

@[simp] theorem State.setChannel_pending (s : State) (i : Nat) (v : Channel) :
    (s.setChannel i v).pending = s.pending := rfl
@[simp] theorem State.setChannel_straps (s : State) (i : Nat) (v : Channel) :
    (s.setChannel i v).straps = s.straps := rfl
@[simp] theorem State.setChannel_mem (s : State) (i : Nat) (v : Channel) : (s.setChannel i v).mem = s.mem := rfl
@[simp] theorem State.setChannel_time (s : State) (i : Nat) (v : Channel) : (s.setChannel i v).time = s.time := rfl
@[simp] theorem State.setChannel_frame (s : State) (i : Nat) (v : Channel) : (s.setChannel i v).frame = s.frame := rfl
@[simp] theorem State.setChannel_control (s : State) (i : Nat) (v : Channel) :
    (s.setChannel i v).control = s.control := rfl
@[simp] theorem State.setChannel_host (s : State) (i : Nat) (v : Channel) : (s.setChannel i v).host = s.host := rfl
@[simp] theorem State.setChannel_arbiter (s : State) (i : Nat) (v : Channel) :
    (s.setChannel i v).arbiter = s.arbiter := rfl
@[simp] theorem State.setChannel_store (s : State) (i : Nat) (v : Channel) : (s.setChannel i v).store = s.store := rfl
@[simp] theorem State.setChannel_ring (s : State) (i : Nat) (v : Channel) : (s.setChannel i v).ring = s.ring := rfl
@[simp] theorem State.setChannel_notices (s : State) (i : Nat) (v : Channel) :
    (s.setChannel i v).notices = s.notices := rfl
@[simp] theorem State.setChannel_rating (s : State) (i : Nat) (v : Channel) :
    (s.setChannel i v).rating = s.rating := rfl
@[simp] theorem State.setChannel_lamp (s : State) (i : Nat) (v : Channel) : (s.setChannel i v).lamp = s.lamp := rfl
@[simp] theorem State.setChannel_out (s : State) (i : Nat) (v : Channel) : (s.setChannel i v).out = s.out := rfl
@[simp] theorem State.setChannel_choices (s : State) (i : Nat) (v : Channel) :
    (s.setChannel i v).choices = s.choices := rfl
@[simp] theorem State.setChannel_message (s : State) (i : Nat) (v : Channel) :
    (s.setChannel i v).message = s.message := rfl
@[simp] theorem State.setChannel_mailbox (s : State) (i : Nat) (v : Channel) :
    (s.setChannel i v).mailbox = s.mailbox := rfl
@[simp] theorem State.setChannel_trunk (s : State) (i : Nat) (v : Channel) : (s.setChannel i v).trunk = s.trunk := rfl
@[simp] theorem State.setChannel_folios (s : State) (i : Nat) (v : Channel) :
    (s.setChannel i v).folios = s.folios := rfl
@[simp] theorem State.setChannel_lampOf (s : State) (i : Nat) (v : Channel) :
    (s.setChannel i v).lampOf = s.lampOf := rfl
@[simp] theorem State.setChannel_card (s : State) (i : Nat) (v : Channel) : (s.setChannel i v).card = s.card := rfl
@[simp] theorem State.setChannel_roomShadow (s : State) (i : Nat) (v : Channel) :
    (s.setChannel i v).roomShadow = s.roomShadow := rfl
@[simp] theorem State.setChannel_trunkShadow (s : State) (i : Nat) (v : Channel) :
    (s.setChannel i v).trunkShadow = s.trunkShadow := rfl
@[simp] theorem State.setChannel_tariffShadow (s : State) (i : Nat) (v : Channel) :
    (s.setChannel i v).tariffShadow = s.tariffShadow := rfl
@[simp] theorem State.setChannel_profile (s : State) (i : Nat) (v : Channel) :
    (s.setChannel i v).profile = s.profile := rfl
@[simp] theorem State.setChannel_roomCount (s : State) (i : Nat) (v : Channel) :
    (s.setChannel i v).roomCount = s.roomCount := rfl
@[simp] theorem State.setChannel_stamp (s : State) (i : Nat) (v : Channel) : (s.setChannel i v).stamp = s.stamp := rfl
@[simp] theorem State.setChannel_active (s : State) (i : Nat) (v : Channel) :
    (s.setChannel i v).active = s.active := rfl

/-! ### `setMessage` -/

@[simp] theorem State.setMessage_pending (s : State) (i : Nat) (v : Message) :
    (s.setMessage i v).pending = s.pending := rfl
@[simp] theorem State.setMessage_straps (s : State) (i : Nat) (v : Message) :
    (s.setMessage i v).straps = s.straps := rfl
@[simp] theorem State.setMessage_mem (s : State) (i : Nat) (v : Message) : (s.setMessage i v).mem = s.mem := rfl
@[simp] theorem State.setMessage_time (s : State) (i : Nat) (v : Message) : (s.setMessage i v).time = s.time := rfl
@[simp] theorem State.setMessage_frame (s : State) (i : Nat) (v : Message) : (s.setMessage i v).frame = s.frame := rfl
@[simp] theorem State.setMessage_control (s : State) (i : Nat) (v : Message) :
    (s.setMessage i v).control = s.control := rfl
@[simp] theorem State.setMessage_host (s : State) (i : Nat) (v : Message) : (s.setMessage i v).host = s.host := rfl
@[simp] theorem State.setMessage_arbiter (s : State) (i : Nat) (v : Message) :
    (s.setMessage i v).arbiter = s.arbiter := rfl
@[simp] theorem State.setMessage_voice (s : State) (i : Nat) (v : Message) : (s.setMessage i v).voice = s.voice := rfl
@[simp] theorem State.setMessage_ring (s : State) (i : Nat) (v : Message) : (s.setMessage i v).ring = s.ring := rfl
@[simp] theorem State.setMessage_notices (s : State) (i : Nat) (v : Message) :
    (s.setMessage i v).notices = s.notices := rfl
@[simp] theorem State.setMessage_rating (s : State) (i : Nat) (v : Message) :
    (s.setMessage i v).rating = s.rating := rfl
@[simp] theorem State.setMessage_lamp (s : State) (i : Nat) (v : Message) : (s.setMessage i v).lamp = s.lamp := rfl
@[simp] theorem State.setMessage_out (s : State) (i : Nat) (v : Message) : (s.setMessage i v).out = s.out := rfl
@[simp] theorem State.setMessage_choices (s : State) (i : Nat) (v : Message) :
    (s.setMessage i v).choices = s.choices := rfl
@[simp] theorem State.setMessage_store_stackPtr (s : State) (i : Nat) (v : Message) :
    (s.setMessage i v).store.stackPtr = s.store.stackPtr := rfl
@[simp] theorem State.setMessage_store_stackOp (s : State) (i : Nat) (v : Message) :
    (s.setMessage i v).store.stackOp = s.store.stackOp := rfl
@[simp] theorem State.setMessage_store_pushLine (s : State) (i : Nat) (v : Message) :
    (s.setMessage i v).store.pushLine = s.store.pushLine := rfl
@[simp] theorem State.setMessage_store_pocket (s : State) (i : Nat) (v : Message) :
    (s.setMessage i v).store.pocket = s.store.pocket := rfl
@[simp] theorem State.setMessage_store_takeLine (s : State) (i : Nat) (v : Message) :
    (s.setMessage i v).store.takeLine = s.store.takeLine := rfl
@[simp] theorem State.setMessage_store_releaseQueue (s : State) (i : Nat) (v : Message) :
    (s.setMessage i v).store.releaseQueue = s.store.releaseQueue := rfl
@[simp] theorem State.setMessage_store_releaseLine (s : State) (i : Nat) (v : Message) :
    (s.setMessage i v).store.releaseLine = s.store.releaseLine := rfl
@[simp] theorem State.setMessage_store_walk (s : State) (i : Nat) (v : Message) :
    (s.setMessage i v).store.walk = s.store.walk := rfl
@[simp] theorem State.setMessage_store_freeRecords (s : State) (i : Nat) (v : Message) :
    (s.setMessage i v).store.freeRecords = s.store.freeRecords := rfl
@[simp] theorem State.setMessage_store_mailboxes (s : State) (i : Nat) (v : Message) :
    (s.setMessage i v).store.mailboxes = s.store.mailboxes := rfl
@[simp] theorem State.setMessage_store_serial (s : State) (i : Nat) (v : Message) :
    (s.setMessage i v).store.serial = s.store.serial := rfl
@[simp] theorem State.setMessage_store_storeLow (s : State) (i : Nat) (v : Message) :
    (s.setMessage i v).store.storeLow = s.store.storeLow := rfl
@[simp] theorem State.setMessage_store_marks (s : State) (i : Nat) (v : Message) :
    (s.setMessage i v).store.marks = s.store.marks := rfl
@[simp] theorem State.setMessage_store_mirrorRaised (s : State) (i : Nat) (v : Message) :
    (s.setMessage i v).store.mirrorRaised = s.store.mirrorRaised := rfl
@[simp] theorem State.setMessage_store_mirrorLast (s : State) (i : Nat) (v : Message) :
    (s.setMessage i v).store.mirrorLast = s.store.mirrorLast := rfl
@[simp] theorem State.setMessage_store_written (s : State) (i : Nat) (v : Message) :
    (s.setMessage i v).store.written = s.store.written := rfl
@[simp] theorem State.setMessage_channel (s : State) (i : Nat) (v : Message) :
    (s.setMessage i v).channel = s.channel := rfl
@[simp] theorem State.setMessage_mailbox (s : State) (i : Nat) (v : Message) :
    (s.setMessage i v).mailbox = s.mailbox := rfl
@[simp] theorem State.setMessage_trunk (s : State) (i : Nat) (v : Message) : (s.setMessage i v).trunk = s.trunk := rfl
@[simp] theorem State.setMessage_folios (s : State) (i : Nat) (v : Message) :
    (s.setMessage i v).folios = s.folios := rfl
@[simp] theorem State.setMessage_lampOf (s : State) (i : Nat) (v : Message) :
    (s.setMessage i v).lampOf = s.lampOf := rfl
@[simp] theorem State.setMessage_card (s : State) (i : Nat) (v : Message) : (s.setMessage i v).card = s.card := rfl
@[simp] theorem State.setMessage_roomShadow (s : State) (i : Nat) (v : Message) :
    (s.setMessage i v).roomShadow = s.roomShadow := rfl
@[simp] theorem State.setMessage_trunkShadow (s : State) (i : Nat) (v : Message) :
    (s.setMessage i v).trunkShadow = s.trunkShadow := rfl
@[simp] theorem State.setMessage_tariffShadow (s : State) (i : Nat) (v : Message) :
    (s.setMessage i v).tariffShadow = s.tariffShadow := rfl
@[simp] theorem State.setMessage_profile (s : State) (i : Nat) (v : Message) :
    (s.setMessage i v).profile = s.profile := rfl
@[simp] theorem State.setMessage_roomCount (s : State) (i : Nat) (v : Message) :
    (s.setMessage i v).roomCount = s.roomCount := rfl
@[simp] theorem State.setMessage_stamp (s : State) (i : Nat) (v : Message) : (s.setMessage i v).stamp = s.stamp := rfl
@[simp] theorem State.setMessage_active (s : State) (i : Nat) (v : Message) :
    (s.setMessage i v).active = s.active := rfl
@[simp] theorem State.setMessage_message (s : State) (i : Nat) (v : Message) (j : Nat) :
    (s.setMessage i v).message j = if j = i then v else s.message j := Table.get_set _ _ _ _ _

/-! ### `setMailbox` -/

@[simp] theorem State.setMailbox_pending (s : State) (i : Nat) (v : Mailbox) :
    (s.setMailbox i v).pending = s.pending := rfl
@[simp] theorem State.setMailbox_straps (s : State) (i : Nat) (v : Mailbox) :
    (s.setMailbox i v).straps = s.straps := rfl
@[simp] theorem State.setMailbox_mem (s : State) (i : Nat) (v : Mailbox) : (s.setMailbox i v).mem = s.mem := rfl
@[simp] theorem State.setMailbox_time (s : State) (i : Nat) (v : Mailbox) : (s.setMailbox i v).time = s.time := rfl
@[simp] theorem State.setMailbox_frame (s : State) (i : Nat) (v : Mailbox) : (s.setMailbox i v).frame = s.frame := rfl
@[simp] theorem State.setMailbox_control (s : State) (i : Nat) (v : Mailbox) :
    (s.setMailbox i v).control = s.control := rfl
@[simp] theorem State.setMailbox_host (s : State) (i : Nat) (v : Mailbox) : (s.setMailbox i v).host = s.host := rfl
@[simp] theorem State.setMailbox_arbiter (s : State) (i : Nat) (v : Mailbox) :
    (s.setMailbox i v).arbiter = s.arbiter := rfl
@[simp] theorem State.setMailbox_voice (s : State) (i : Nat) (v : Mailbox) : (s.setMailbox i v).voice = s.voice := rfl
@[simp] theorem State.setMailbox_ring (s : State) (i : Nat) (v : Mailbox) : (s.setMailbox i v).ring = s.ring := rfl
@[simp] theorem State.setMailbox_notices (s : State) (i : Nat) (v : Mailbox) :
    (s.setMailbox i v).notices = s.notices := rfl
@[simp] theorem State.setMailbox_rating (s : State) (i : Nat) (v : Mailbox) :
    (s.setMailbox i v).rating = s.rating := rfl
@[simp] theorem State.setMailbox_lamp (s : State) (i : Nat) (v : Mailbox) : (s.setMailbox i v).lamp = s.lamp := rfl
@[simp] theorem State.setMailbox_out (s : State) (i : Nat) (v : Mailbox) : (s.setMailbox i v).out = s.out := rfl
@[simp] theorem State.setMailbox_choices (s : State) (i : Nat) (v : Mailbox) :
    (s.setMailbox i v).choices = s.choices := rfl
@[simp] theorem State.setMailbox_store_stackPtr (s : State) (i : Nat) (v : Mailbox) :
    (s.setMailbox i v).store.stackPtr = s.store.stackPtr := rfl
@[simp] theorem State.setMailbox_store_stackOp (s : State) (i : Nat) (v : Mailbox) :
    (s.setMailbox i v).store.stackOp = s.store.stackOp := rfl
@[simp] theorem State.setMailbox_store_pushLine (s : State) (i : Nat) (v : Mailbox) :
    (s.setMailbox i v).store.pushLine = s.store.pushLine := rfl
@[simp] theorem State.setMailbox_store_pocket (s : State) (i : Nat) (v : Mailbox) :
    (s.setMailbox i v).store.pocket = s.store.pocket := rfl
@[simp] theorem State.setMailbox_store_takeLine (s : State) (i : Nat) (v : Mailbox) :
    (s.setMailbox i v).store.takeLine = s.store.takeLine := rfl
@[simp] theorem State.setMailbox_store_releaseQueue (s : State) (i : Nat) (v : Mailbox) :
    (s.setMailbox i v).store.releaseQueue = s.store.releaseQueue := rfl
@[simp] theorem State.setMailbox_store_releaseLine (s : State) (i : Nat) (v : Mailbox) :
    (s.setMailbox i v).store.releaseLine = s.store.releaseLine := rfl
@[simp] theorem State.setMailbox_store_walk (s : State) (i : Nat) (v : Mailbox) :
    (s.setMailbox i v).store.walk = s.store.walk := rfl
@[simp] theorem State.setMailbox_store_freeRecords (s : State) (i : Nat) (v : Mailbox) :
    (s.setMailbox i v).store.freeRecords = s.store.freeRecords := rfl
@[simp] theorem State.setMailbox_store_messages (s : State) (i : Nat) (v : Mailbox) :
    (s.setMailbox i v).store.messages = s.store.messages := rfl
@[simp] theorem State.setMailbox_store_serial (s : State) (i : Nat) (v : Mailbox) :
    (s.setMailbox i v).store.serial = s.store.serial := rfl
@[simp] theorem State.setMailbox_store_storeLow (s : State) (i : Nat) (v : Mailbox) :
    (s.setMailbox i v).store.storeLow = s.store.storeLow := rfl
@[simp] theorem State.setMailbox_store_marks (s : State) (i : Nat) (v : Mailbox) :
    (s.setMailbox i v).store.marks = s.store.marks := rfl
@[simp] theorem State.setMailbox_store_mirrorRaised (s : State) (i : Nat) (v : Mailbox) :
    (s.setMailbox i v).store.mirrorRaised = s.store.mirrorRaised := rfl
@[simp] theorem State.setMailbox_store_mirrorLast (s : State) (i : Nat) (v : Mailbox) :
    (s.setMailbox i v).store.mirrorLast = s.store.mirrorLast := rfl
@[simp] theorem State.setMailbox_store_written (s : State) (i : Nat) (v : Mailbox) :
    (s.setMailbox i v).store.written = s.store.written := rfl
@[simp] theorem State.setMailbox_channel (s : State) (i : Nat) (v : Mailbox) :
    (s.setMailbox i v).channel = s.channel := rfl
@[simp] theorem State.setMailbox_message (s : State) (i : Nat) (v : Mailbox) :
    (s.setMailbox i v).message = s.message := rfl
@[simp] theorem State.setMailbox_trunk (s : State) (i : Nat) (v : Mailbox) : (s.setMailbox i v).trunk = s.trunk := rfl
@[simp] theorem State.setMailbox_folios (s : State) (i : Nat) (v : Mailbox) :
    (s.setMailbox i v).folios = s.folios := rfl
@[simp] theorem State.setMailbox_lampOf (s : State) (i : Nat) (v : Mailbox) :
    (s.setMailbox i v).lampOf = s.lampOf := rfl
@[simp] theorem State.setMailbox_card (s : State) (i : Nat) (v : Mailbox) : (s.setMailbox i v).card = s.card := rfl
@[simp] theorem State.setMailbox_roomShadow (s : State) (i : Nat) (v : Mailbox) :
    (s.setMailbox i v).roomShadow = s.roomShadow := rfl
@[simp] theorem State.setMailbox_trunkShadow (s : State) (i : Nat) (v : Mailbox) :
    (s.setMailbox i v).trunkShadow = s.trunkShadow := rfl
@[simp] theorem State.setMailbox_tariffShadow (s : State) (i : Nat) (v : Mailbox) :
    (s.setMailbox i v).tariffShadow = s.tariffShadow := rfl
@[simp] theorem State.setMailbox_profile (s : State) (i : Nat) (v : Mailbox) :
    (s.setMailbox i v).profile = s.profile := rfl
@[simp] theorem State.setMailbox_roomCount (s : State) (i : Nat) (v : Mailbox) :
    (s.setMailbox i v).roomCount = s.roomCount := rfl
@[simp] theorem State.setMailbox_stamp (s : State) (i : Nat) (v : Mailbox) : (s.setMailbox i v).stamp = s.stamp := rfl
@[simp] theorem State.setMailbox_active (s : State) (i : Nat) (v : Mailbox) :
    (s.setMailbox i v).active = s.active := rfl
@[simp] theorem State.setMailbox_mailbox (s : State) (i : Nat) (v : Mailbox) (j : Nat) :
    (s.setMailbox i v).mailbox j = if j = i then v else s.mailbox j := Table.get_set _ _ _ _ _

/-! ### `setTrunk` -/

@[simp] theorem State.setTrunk_pending (s : State) (i : Nat) (v : Trunk) : (s.setTrunk i v).pending = s.pending := rfl
@[simp] theorem State.setTrunk_straps (s : State) (i : Nat) (v : Trunk) : (s.setTrunk i v).straps = s.straps := rfl
@[simp] theorem State.setTrunk_mem (s : State) (i : Nat) (v : Trunk) : (s.setTrunk i v).mem = s.mem := rfl
@[simp] theorem State.setTrunk_time (s : State) (i : Nat) (v : Trunk) : (s.setTrunk i v).time = s.time := rfl
@[simp] theorem State.setTrunk_frame (s : State) (i : Nat) (v : Trunk) : (s.setTrunk i v).frame = s.frame := rfl
@[simp] theorem State.setTrunk_control (s : State) (i : Nat) (v : Trunk) : (s.setTrunk i v).control = s.control := rfl
@[simp] theorem State.setTrunk_host (s : State) (i : Nat) (v : Trunk) : (s.setTrunk i v).host = s.host := rfl
@[simp] theorem State.setTrunk_arbiter (s : State) (i : Nat) (v : Trunk) : (s.setTrunk i v).arbiter = s.arbiter := rfl
@[simp] theorem State.setTrunk_voice (s : State) (i : Nat) (v : Trunk) : (s.setTrunk i v).voice = s.voice := rfl
@[simp] theorem State.setTrunk_store (s : State) (i : Nat) (v : Trunk) : (s.setTrunk i v).store = s.store := rfl
@[simp] theorem State.setTrunk_ring (s : State) (i : Nat) (v : Trunk) : (s.setTrunk i v).ring = s.ring := rfl
@[simp] theorem State.setTrunk_notices (s : State) (i : Nat) (v : Trunk) : (s.setTrunk i v).notices = s.notices := rfl
@[simp] theorem State.setTrunk_lamp (s : State) (i : Nat) (v : Trunk) : (s.setTrunk i v).lamp = s.lamp := rfl
@[simp] theorem State.setTrunk_out (s : State) (i : Nat) (v : Trunk) : (s.setTrunk i v).out = s.out := rfl
@[simp] theorem State.setTrunk_choices (s : State) (i : Nat) (v : Trunk) : (s.setTrunk i v).choices = s.choices := rfl
@[simp] theorem State.setTrunk_rating_folios (s : State) (i : Nat) (v : Trunk) :
    (s.setTrunk i v).rating.folios = s.rating.folios := rfl
@[simp] theorem State.setTrunk_rating_freePool (s : State) (i : Nat) (v : Trunk) :
    (s.setTrunk i v).rating.freePool = s.rating.freePool := rfl
@[simp] theorem State.setTrunk_rating_serial (s : State) (i : Nat) (v : Trunk) :
    (s.setTrunk i v).rating.serial = s.rating.serial := rfl
@[simp] theorem State.setTrunk_rating_queue (s : State) (i : Nat) (v : Trunk) :
    (s.setTrunk i v).rating.queue = s.rating.queue := rfl
@[simp] theorem State.setTrunk_rating_queueGranted (s : State) (i : Nat) (v : Trunk) :
    (s.setTrunk i v).rating.queueGranted = s.rating.queueGranted := rfl
@[simp] theorem State.setTrunk_rating_queueRaised (s : State) (i : Nat) (v : Trunk) :
    (s.setTrunk i v).rating.queueRaised = s.rating.queueRaised := rfl
@[simp] theorem State.setTrunk_rating_outgoing (s : State) (i : Nat) (v : Trunk) :
    (s.setTrunk i v).rating.outgoing = s.rating.outgoing := rfl
@[simp] theorem State.setTrunk_rating_incoming (s : State) (i : Nat) (v : Trunk) :
    (s.setTrunk i v).rating.incoming = s.rating.incoming := rfl
@[simp] theorem State.setTrunk_rating_rated (s : State) (i : Nat) (v : Trunk) :
    (s.setTrunk i v).rating.rated = s.rating.rated := rfl
@[simp] theorem State.setTrunk_rating_free (s : State) (i : Nat) (v : Trunk) :
    (s.setTrunk i v).rating.free = s.rating.free := rfl
@[simp] theorem State.setTrunk_rating_unrated (s : State) (i : Nat) (v : Trunk) :
    (s.setTrunk i v).rating.unrated = s.rating.unrated := rfl
@[simp] theorem State.setTrunk_rating_unanswered (s : State) (i : Nat) (v : Trunk) :
    (s.setTrunk i v).rating.unanswered = s.rating.unanswered := rfl
@[simp] theorem State.setTrunk_rating_implicits (s : State) (i : Nat) (v : Trunk) :
    (s.setTrunk i v).rating.implicits = s.rating.implicits := rfl
@[simp] theorem State.setTrunk_rating_missedSeizes (s : State) (i : Nat) (v : Trunk) :
    (s.setTrunk i v).rating.missedSeizes = s.rating.missedSeizes := rfl
@[simp] theorem State.setTrunk_rating_unknownStates (s : State) (i : Nat) (v : Trunk) :
    (s.setTrunk i v).rating.unknownStates = s.rating.unknownStates := rfl
@[simp] theorem State.setTrunk_rating_lateCount (s : State) (i : Nat) (v : Trunk) :
    (s.setTrunk i v).rating.lateCount = s.rating.lateCount := rfl
@[simp] theorem State.setTrunk_rating_unbilledCount (s : State) (i : Nat) (v : Trunk) :
    (s.setTrunk i v).rating.unbilledCount = s.rating.unbilledCount := rfl
@[simp] theorem State.setTrunk_rating_poolFullCount (s : State) (i : Nat) (v : Trunk) :
    (s.setTrunk i v).rating.poolFullCount = s.rating.poolFullCount := rfl
@[simp] theorem State.setTrunk_rating_discardedCount (s : State) (i : Nat) (v : Trunk) :
    (s.setTrunk i v).rating.discardedCount = s.rating.discardedCount := rfl
@[simp] theorem State.setTrunk_rating_marks (s : State) (i : Nat) (v : Trunk) :
    (s.setTrunk i v).rating.marks = s.rating.marks := rfl
@[simp] theorem State.setTrunk_rating_mirrorRaised (s : State) (i : Nat) (v : Trunk) :
    (s.setTrunk i v).rating.mirrorRaised = s.rating.mirrorRaised := rfl
@[simp] theorem State.setTrunk_rating_mirrorLast (s : State) (i : Nat) (v : Trunk) :
    (s.setTrunk i v).rating.mirrorLast = s.rating.mirrorLast := rfl
@[simp] theorem State.setTrunk_rating_written (s : State) (i : Nat) (v : Trunk) :
    (s.setTrunk i v).rating.written = s.rating.written := rfl
@[simp] theorem State.setTrunk_rating_folioWritten (s : State) (i : Nat) (v : Trunk) :
    (s.setTrunk i v).rating.folioWritten = s.rating.folioWritten := rfl
@[simp] theorem State.setTrunk_channel (s : State) (i : Nat) (v : Trunk) : (s.setTrunk i v).channel = s.channel := rfl
@[simp] theorem State.setTrunk_message (s : State) (i : Nat) (v : Trunk) : (s.setTrunk i v).message = s.message := rfl
@[simp] theorem State.setTrunk_mailbox (s : State) (i : Nat) (v : Trunk) : (s.setTrunk i v).mailbox = s.mailbox := rfl
@[simp] theorem State.setTrunk_folios (s : State) (i : Nat) (v : Trunk) : (s.setTrunk i v).folios = s.folios := rfl
@[simp] theorem State.setTrunk_lampOf (s : State) (i : Nat) (v : Trunk) : (s.setTrunk i v).lampOf = s.lampOf := rfl
@[simp] theorem State.setTrunk_card (s : State) (i : Nat) (v : Trunk) : (s.setTrunk i v).card = s.card := rfl
@[simp] theorem State.setTrunk_roomShadow (s : State) (i : Nat) (v : Trunk) :
    (s.setTrunk i v).roomShadow = s.roomShadow := rfl
@[simp] theorem State.setTrunk_trunkShadow (s : State) (i : Nat) (v : Trunk) :
    (s.setTrunk i v).trunkShadow = s.trunkShadow := rfl
@[simp] theorem State.setTrunk_tariffShadow (s : State) (i : Nat) (v : Trunk) :
    (s.setTrunk i v).tariffShadow = s.tariffShadow := rfl
@[simp] theorem State.setTrunk_profile (s : State) (i : Nat) (v : Trunk) : (s.setTrunk i v).profile = s.profile := rfl
@[simp] theorem State.setTrunk_roomCount (s : State) (i : Nat) (v : Trunk) :
    (s.setTrunk i v).roomCount = s.roomCount := rfl
@[simp] theorem State.setTrunk_stamp (s : State) (i : Nat) (v : Trunk) : (s.setTrunk i v).stamp = s.stamp := rfl
@[simp] theorem State.setTrunk_active (s : State) (i : Nat) (v : Trunk) : (s.setTrunk i v).active = s.active := rfl
@[simp] theorem State.setTrunk_trunk (s : State) (i : Nat) (v : Trunk) (j : Nat) :
    (s.setTrunk i v).trunk j = if j = i then v else s.trunk j := Table.get_set _ _ _ _ _

/-! ### `setFolios` -/

@[simp] theorem State.setFolios_pending (s : State) (i : Nat) (v : RoomFolios) :
    (s.setFolios i v).pending = s.pending := rfl
@[simp] theorem State.setFolios_straps (s : State) (i : Nat) (v : RoomFolios) :
    (s.setFolios i v).straps = s.straps := rfl
@[simp] theorem State.setFolios_mem (s : State) (i : Nat) (v : RoomFolios) : (s.setFolios i v).mem = s.mem := rfl
@[simp] theorem State.setFolios_time (s : State) (i : Nat) (v : RoomFolios) : (s.setFolios i v).time = s.time := rfl
@[simp] theorem State.setFolios_frame (s : State) (i : Nat) (v : RoomFolios) :
    (s.setFolios i v).frame = s.frame := rfl
@[simp] theorem State.setFolios_control (s : State) (i : Nat) (v : RoomFolios) :
    (s.setFolios i v).control = s.control := rfl
@[simp] theorem State.setFolios_host (s : State) (i : Nat) (v : RoomFolios) : (s.setFolios i v).host = s.host := rfl
@[simp] theorem State.setFolios_arbiter (s : State) (i : Nat) (v : RoomFolios) :
    (s.setFolios i v).arbiter = s.arbiter := rfl
@[simp] theorem State.setFolios_voice (s : State) (i : Nat) (v : RoomFolios) :
    (s.setFolios i v).voice = s.voice := rfl
@[simp] theorem State.setFolios_store (s : State) (i : Nat) (v : RoomFolios) :
    (s.setFolios i v).store = s.store := rfl
@[simp] theorem State.setFolios_ring (s : State) (i : Nat) (v : RoomFolios) : (s.setFolios i v).ring = s.ring := rfl
@[simp] theorem State.setFolios_notices (s : State) (i : Nat) (v : RoomFolios) :
    (s.setFolios i v).notices = s.notices := rfl
@[simp] theorem State.setFolios_lamp (s : State) (i : Nat) (v : RoomFolios) : (s.setFolios i v).lamp = s.lamp := rfl
@[simp] theorem State.setFolios_out (s : State) (i : Nat) (v : RoomFolios) : (s.setFolios i v).out = s.out := rfl
@[simp] theorem State.setFolios_choices (s : State) (i : Nat) (v : RoomFolios) :
    (s.setFolios i v).choices = s.choices := rfl
@[simp] theorem State.setFolios_rating_trunks (s : State) (i : Nat) (v : RoomFolios) :
    (s.setFolios i v).rating.trunks = s.rating.trunks := rfl
@[simp] theorem State.setFolios_rating_freePool (s : State) (i : Nat) (v : RoomFolios) :
    (s.setFolios i v).rating.freePool = s.rating.freePool := rfl
@[simp] theorem State.setFolios_rating_serial (s : State) (i : Nat) (v : RoomFolios) :
    (s.setFolios i v).rating.serial = s.rating.serial := rfl
@[simp] theorem State.setFolios_rating_queue (s : State) (i : Nat) (v : RoomFolios) :
    (s.setFolios i v).rating.queue = s.rating.queue := rfl
@[simp] theorem State.setFolios_rating_queueGranted (s : State) (i : Nat) (v : RoomFolios) :
    (s.setFolios i v).rating.queueGranted = s.rating.queueGranted := rfl
@[simp] theorem State.setFolios_rating_queueRaised (s : State) (i : Nat) (v : RoomFolios) :
    (s.setFolios i v).rating.queueRaised = s.rating.queueRaised := rfl
@[simp] theorem State.setFolios_rating_outgoing (s : State) (i : Nat) (v : RoomFolios) :
    (s.setFolios i v).rating.outgoing = s.rating.outgoing := rfl
@[simp] theorem State.setFolios_rating_incoming (s : State) (i : Nat) (v : RoomFolios) :
    (s.setFolios i v).rating.incoming = s.rating.incoming := rfl
@[simp] theorem State.setFolios_rating_rated (s : State) (i : Nat) (v : RoomFolios) :
    (s.setFolios i v).rating.rated = s.rating.rated := rfl
@[simp] theorem State.setFolios_rating_free (s : State) (i : Nat) (v : RoomFolios) :
    (s.setFolios i v).rating.free = s.rating.free := rfl
@[simp] theorem State.setFolios_rating_unrated (s : State) (i : Nat) (v : RoomFolios) :
    (s.setFolios i v).rating.unrated = s.rating.unrated := rfl
@[simp] theorem State.setFolios_rating_unanswered (s : State) (i : Nat) (v : RoomFolios) :
    (s.setFolios i v).rating.unanswered = s.rating.unanswered := rfl
@[simp] theorem State.setFolios_rating_implicits (s : State) (i : Nat) (v : RoomFolios) :
    (s.setFolios i v).rating.implicits = s.rating.implicits := rfl
@[simp] theorem State.setFolios_rating_missedSeizes (s : State) (i : Nat) (v : RoomFolios) :
    (s.setFolios i v).rating.missedSeizes = s.rating.missedSeizes := rfl
@[simp] theorem State.setFolios_rating_unknownStates (s : State) (i : Nat) (v : RoomFolios) :
    (s.setFolios i v).rating.unknownStates = s.rating.unknownStates := rfl
@[simp] theorem State.setFolios_rating_lateCount (s : State) (i : Nat) (v : RoomFolios) :
    (s.setFolios i v).rating.lateCount = s.rating.lateCount := rfl
@[simp] theorem State.setFolios_rating_unbilledCount (s : State) (i : Nat) (v : RoomFolios) :
    (s.setFolios i v).rating.unbilledCount = s.rating.unbilledCount := rfl
@[simp] theorem State.setFolios_rating_poolFullCount (s : State) (i : Nat) (v : RoomFolios) :
    (s.setFolios i v).rating.poolFullCount = s.rating.poolFullCount := rfl
@[simp] theorem State.setFolios_rating_discardedCount (s : State) (i : Nat) (v : RoomFolios) :
    (s.setFolios i v).rating.discardedCount = s.rating.discardedCount := rfl
@[simp] theorem State.setFolios_rating_marks (s : State) (i : Nat) (v : RoomFolios) :
    (s.setFolios i v).rating.marks = s.rating.marks := rfl
@[simp] theorem State.setFolios_rating_mirrorRaised (s : State) (i : Nat) (v : RoomFolios) :
    (s.setFolios i v).rating.mirrorRaised = s.rating.mirrorRaised := rfl
@[simp] theorem State.setFolios_rating_mirrorLast (s : State) (i : Nat) (v : RoomFolios) :
    (s.setFolios i v).rating.mirrorLast = s.rating.mirrorLast := rfl
@[simp] theorem State.setFolios_rating_written (s : State) (i : Nat) (v : RoomFolios) :
    (s.setFolios i v).rating.written = s.rating.written := rfl
@[simp] theorem State.setFolios_rating_folioWritten (s : State) (i : Nat) (v : RoomFolios) :
    (s.setFolios i v).rating.folioWritten = s.rating.folioWritten := rfl
@[simp] theorem State.setFolios_channel (s : State) (i : Nat) (v : RoomFolios) :
    (s.setFolios i v).channel = s.channel := rfl
@[simp] theorem State.setFolios_message (s : State) (i : Nat) (v : RoomFolios) :
    (s.setFolios i v).message = s.message := rfl
@[simp] theorem State.setFolios_mailbox (s : State) (i : Nat) (v : RoomFolios) :
    (s.setFolios i v).mailbox = s.mailbox := rfl
@[simp] theorem State.setFolios_trunk (s : State) (i : Nat) (v : RoomFolios) :
    (s.setFolios i v).trunk = s.trunk := rfl
@[simp] theorem State.setFolios_lampOf (s : State) (i : Nat) (v : RoomFolios) :
    (s.setFolios i v).lampOf = s.lampOf := rfl
@[simp] theorem State.setFolios_card (s : State) (i : Nat) (v : RoomFolios) : (s.setFolios i v).card = s.card := rfl
@[simp] theorem State.setFolios_roomShadow (s : State) (i : Nat) (v : RoomFolios) :
    (s.setFolios i v).roomShadow = s.roomShadow := rfl
@[simp] theorem State.setFolios_trunkShadow (s : State) (i : Nat) (v : RoomFolios) :
    (s.setFolios i v).trunkShadow = s.trunkShadow := rfl
@[simp] theorem State.setFolios_tariffShadow (s : State) (i : Nat) (v : RoomFolios) :
    (s.setFolios i v).tariffShadow = s.tariffShadow := rfl
@[simp] theorem State.setFolios_profile (s : State) (i : Nat) (v : RoomFolios) :
    (s.setFolios i v).profile = s.profile := rfl
@[simp] theorem State.setFolios_roomCount (s : State) (i : Nat) (v : RoomFolios) :
    (s.setFolios i v).roomCount = s.roomCount := rfl
@[simp] theorem State.setFolios_stamp (s : State) (i : Nat) (v : RoomFolios) :
    (s.setFolios i v).stamp = s.stamp := rfl
@[simp] theorem State.setFolios_active (s : State) (i : Nat) (v : RoomFolios) :
    (s.setFolios i v).active = s.active := rfl
@[simp] theorem State.setFolios_folios (s : State) (i : Nat) (v : RoomFolios) (j : Nat) :
    (s.setFolios i v).folios j = if j = i then v else s.folios j := Table.get_set _ _ _ _ _

/-! ### `setLamp` -/

@[simp] theorem State.setLamp_pending (s : State) (i : Nat) (v : Lamp) : (s.setLamp i v).pending = s.pending := rfl
@[simp] theorem State.setLamp_straps (s : State) (i : Nat) (v : Lamp) : (s.setLamp i v).straps = s.straps := rfl
@[simp] theorem State.setLamp_mem (s : State) (i : Nat) (v : Lamp) : (s.setLamp i v).mem = s.mem := rfl
@[simp] theorem State.setLamp_time (s : State) (i : Nat) (v : Lamp) : (s.setLamp i v).time = s.time := rfl
@[simp] theorem State.setLamp_frame (s : State) (i : Nat) (v : Lamp) : (s.setLamp i v).frame = s.frame := rfl
@[simp] theorem State.setLamp_control (s : State) (i : Nat) (v : Lamp) : (s.setLamp i v).control = s.control := rfl
@[simp] theorem State.setLamp_host (s : State) (i : Nat) (v : Lamp) : (s.setLamp i v).host = s.host := rfl
@[simp] theorem State.setLamp_arbiter (s : State) (i : Nat) (v : Lamp) : (s.setLamp i v).arbiter = s.arbiter := rfl
@[simp] theorem State.setLamp_voice (s : State) (i : Nat) (v : Lamp) : (s.setLamp i v).voice = s.voice := rfl
@[simp] theorem State.setLamp_store (s : State) (i : Nat) (v : Lamp) : (s.setLamp i v).store = s.store := rfl
@[simp] theorem State.setLamp_ring (s : State) (i : Nat) (v : Lamp) : (s.setLamp i v).ring = s.ring := rfl
@[simp] theorem State.setLamp_notices (s : State) (i : Nat) (v : Lamp) : (s.setLamp i v).notices = s.notices := rfl
@[simp] theorem State.setLamp_rating (s : State) (i : Nat) (v : Lamp) : (s.setLamp i v).rating = s.rating := rfl
@[simp] theorem State.setLamp_out (s : State) (i : Nat) (v : Lamp) : (s.setLamp i v).out = s.out := rfl
@[simp] theorem State.setLamp_choices (s : State) (i : Nat) (v : Lamp) : (s.setLamp i v).choices = s.choices := rfl
@[simp] theorem State.setLamp_lamp_cards (s : State) (i : Nat) (v : Lamp) :
    (s.setLamp i v).lamp.cards = s.lamp.cards := rfl
@[simp] theorem State.setLamp_lamp_sweep (s : State) (i : Nat) (v : Lamp) :
    (s.setLamp i v).lamp.sweep = s.lamp.sweep := rfl
@[simp] theorem State.setLamp_lamp_dataOut (s : State) (i : Nat) (v : Lamp) :
    (s.setLamp i v).lamp.dataOut = s.lamp.dataOut := rfl
@[simp] theorem State.setLamp_lamp_marks (s : State) (i : Nat) (v : Lamp) :
    (s.setLamp i v).lamp.marks = s.lamp.marks := rfl
@[simp] theorem State.setLamp_lamp_mirrorRaised (s : State) (i : Nat) (v : Lamp) :
    (s.setLamp i v).lamp.mirrorRaised = s.lamp.mirrorRaised := rfl
@[simp] theorem State.setLamp_lamp_mirrorLast (s : State) (i : Nat) (v : Lamp) :
    (s.setLamp i v).lamp.mirrorLast = s.lamp.mirrorLast := rfl
@[simp] theorem State.setLamp_channel (s : State) (i : Nat) (v : Lamp) : (s.setLamp i v).channel = s.channel := rfl
@[simp] theorem State.setLamp_message (s : State) (i : Nat) (v : Lamp) : (s.setLamp i v).message = s.message := rfl
@[simp] theorem State.setLamp_mailbox (s : State) (i : Nat) (v : Lamp) : (s.setLamp i v).mailbox = s.mailbox := rfl
@[simp] theorem State.setLamp_trunk (s : State) (i : Nat) (v : Lamp) : (s.setLamp i v).trunk = s.trunk := rfl
@[simp] theorem State.setLamp_folios (s : State) (i : Nat) (v : Lamp) : (s.setLamp i v).folios = s.folios := rfl
@[simp] theorem State.setLamp_card (s : State) (i : Nat) (v : Lamp) : (s.setLamp i v).card = s.card := rfl
@[simp] theorem State.setLamp_roomShadow (s : State) (i : Nat) (v : Lamp) :
    (s.setLamp i v).roomShadow = s.roomShadow := rfl
@[simp] theorem State.setLamp_trunkShadow (s : State) (i : Nat) (v : Lamp) :
    (s.setLamp i v).trunkShadow = s.trunkShadow := rfl
@[simp] theorem State.setLamp_tariffShadow (s : State) (i : Nat) (v : Lamp) :
    (s.setLamp i v).tariffShadow = s.tariffShadow := rfl
@[simp] theorem State.setLamp_profile (s : State) (i : Nat) (v : Lamp) : (s.setLamp i v).profile = s.profile := rfl
@[simp] theorem State.setLamp_roomCount (s : State) (i : Nat) (v : Lamp) :
    (s.setLamp i v).roomCount = s.roomCount := rfl
@[simp] theorem State.setLamp_stamp (s : State) (i : Nat) (v : Lamp) : (s.setLamp i v).stamp = s.stamp := rfl
@[simp] theorem State.setLamp_active (s : State) (i : Nat) (v : Lamp) : (s.setLamp i v).active = s.active := rfl
@[simp] theorem State.setLamp_lampOf (s : State) (i : Nat) (v : Lamp) (j : Nat) :
    (s.setLamp i v).lampOf j = if j = i then v else s.lampOf j := Table.get_set _ _ _ _ _

/-! ### `setCard` -/

@[simp] theorem State.setCard_pending (s : State) (i : Nat) (v : Card) : (s.setCard i v).pending = s.pending := rfl
@[simp] theorem State.setCard_straps (s : State) (i : Nat) (v : Card) : (s.setCard i v).straps = s.straps := rfl
@[simp] theorem State.setCard_mem (s : State) (i : Nat) (v : Card) : (s.setCard i v).mem = s.mem := rfl
@[simp] theorem State.setCard_time (s : State) (i : Nat) (v : Card) : (s.setCard i v).time = s.time := rfl
@[simp] theorem State.setCard_frame (s : State) (i : Nat) (v : Card) : (s.setCard i v).frame = s.frame := rfl
@[simp] theorem State.setCard_control (s : State) (i : Nat) (v : Card) : (s.setCard i v).control = s.control := rfl
@[simp] theorem State.setCard_host (s : State) (i : Nat) (v : Card) : (s.setCard i v).host = s.host := rfl
@[simp] theorem State.setCard_arbiter (s : State) (i : Nat) (v : Card) : (s.setCard i v).arbiter = s.arbiter := rfl
@[simp] theorem State.setCard_voice (s : State) (i : Nat) (v : Card) : (s.setCard i v).voice = s.voice := rfl
@[simp] theorem State.setCard_store (s : State) (i : Nat) (v : Card) : (s.setCard i v).store = s.store := rfl
@[simp] theorem State.setCard_ring (s : State) (i : Nat) (v : Card) : (s.setCard i v).ring = s.ring := rfl
@[simp] theorem State.setCard_notices (s : State) (i : Nat) (v : Card) : (s.setCard i v).notices = s.notices := rfl
@[simp] theorem State.setCard_rating (s : State) (i : Nat) (v : Card) : (s.setCard i v).rating = s.rating := rfl
@[simp] theorem State.setCard_out (s : State) (i : Nat) (v : Card) : (s.setCard i v).out = s.out := rfl
@[simp] theorem State.setCard_choices (s : State) (i : Nat) (v : Card) : (s.setCard i v).choices = s.choices := rfl
@[simp] theorem State.setCard_lamp_lamps (s : State) (i : Nat) (v : Card) :
    (s.setCard i v).lamp.lamps = s.lamp.lamps := rfl
@[simp] theorem State.setCard_lamp_sweep (s : State) (i : Nat) (v : Card) :
    (s.setCard i v).lamp.sweep = s.lamp.sweep := rfl
@[simp] theorem State.setCard_lamp_dataOut (s : State) (i : Nat) (v : Card) :
    (s.setCard i v).lamp.dataOut = s.lamp.dataOut := rfl
@[simp] theorem State.setCard_lamp_marks (s : State) (i : Nat) (v : Card) :
    (s.setCard i v).lamp.marks = s.lamp.marks := rfl
@[simp] theorem State.setCard_lamp_mirrorRaised (s : State) (i : Nat) (v : Card) :
    (s.setCard i v).lamp.mirrorRaised = s.lamp.mirrorRaised := rfl
@[simp] theorem State.setCard_lamp_mirrorLast (s : State) (i : Nat) (v : Card) :
    (s.setCard i v).lamp.mirrorLast = s.lamp.mirrorLast := rfl
@[simp] theorem State.setCard_channel (s : State) (i : Nat) (v : Card) : (s.setCard i v).channel = s.channel := rfl
@[simp] theorem State.setCard_message (s : State) (i : Nat) (v : Card) : (s.setCard i v).message = s.message := rfl
@[simp] theorem State.setCard_mailbox (s : State) (i : Nat) (v : Card) : (s.setCard i v).mailbox = s.mailbox := rfl
@[simp] theorem State.setCard_trunk (s : State) (i : Nat) (v : Card) : (s.setCard i v).trunk = s.trunk := rfl
@[simp] theorem State.setCard_folios (s : State) (i : Nat) (v : Card) : (s.setCard i v).folios = s.folios := rfl
@[simp] theorem State.setCard_lampOf (s : State) (i : Nat) (v : Card) : (s.setCard i v).lampOf = s.lampOf := rfl
@[simp] theorem State.setCard_roomShadow (s : State) (i : Nat) (v : Card) :
    (s.setCard i v).roomShadow = s.roomShadow := rfl
@[simp] theorem State.setCard_trunkShadow (s : State) (i : Nat) (v : Card) :
    (s.setCard i v).trunkShadow = s.trunkShadow := rfl
@[simp] theorem State.setCard_tariffShadow (s : State) (i : Nat) (v : Card) :
    (s.setCard i v).tariffShadow = s.tariffShadow := rfl
@[simp] theorem State.setCard_profile (s : State) (i : Nat) (v : Card) : (s.setCard i v).profile = s.profile := rfl
@[simp] theorem State.setCard_roomCount (s : State) (i : Nat) (v : Card) :
    (s.setCard i v).roomCount = s.roomCount := rfl
@[simp] theorem State.setCard_stamp (s : State) (i : Nat) (v : Card) : (s.setCard i v).stamp = s.stamp := rfl
@[simp] theorem State.setCard_active (s : State) (i : Nat) (v : Card) : (s.setCard i v).active = s.active := rfl
@[simp] theorem State.setCard_card (s : State) (i : Nat) (v : Card) (j : Nat) :
    (s.setCard i v).card j = if j = i then v else s.card j := Table.get_set _ _ _ _ _

/-! ### `setRoomShadow` -/

@[simp] theorem State.setRoomShadow_pending (s : State) (i : Nat) (v : Shadow) :
    (s.setRoomShadow i v).pending = s.pending := rfl
@[simp] theorem State.setRoomShadow_straps (s : State) (i : Nat) (v : Shadow) :
    (s.setRoomShadow i v).straps = s.straps := rfl
@[simp] theorem State.setRoomShadow_mem (s : State) (i : Nat) (v : Shadow) : (s.setRoomShadow i v).mem = s.mem := rfl
@[simp] theorem State.setRoomShadow_time (s : State) (i : Nat) (v : Shadow) :
    (s.setRoomShadow i v).time = s.time := rfl
@[simp] theorem State.setRoomShadow_frame (s : State) (i : Nat) (v : Shadow) :
    (s.setRoomShadow i v).frame = s.frame := rfl
@[simp] theorem State.setRoomShadow_control (s : State) (i : Nat) (v : Shadow) :
    (s.setRoomShadow i v).control = s.control := rfl
@[simp] theorem State.setRoomShadow_arbiter (s : State) (i : Nat) (v : Shadow) :
    (s.setRoomShadow i v).arbiter = s.arbiter := rfl
@[simp] theorem State.setRoomShadow_voice (s : State) (i : Nat) (v : Shadow) :
    (s.setRoomShadow i v).voice = s.voice := rfl
@[simp] theorem State.setRoomShadow_store (s : State) (i : Nat) (v : Shadow) :
    (s.setRoomShadow i v).store = s.store := rfl
@[simp] theorem State.setRoomShadow_ring (s : State) (i : Nat) (v : Shadow) :
    (s.setRoomShadow i v).ring = s.ring := rfl
@[simp] theorem State.setRoomShadow_notices (s : State) (i : Nat) (v : Shadow) :
    (s.setRoomShadow i v).notices = s.notices := rfl
@[simp] theorem State.setRoomShadow_rating (s : State) (i : Nat) (v : Shadow) :
    (s.setRoomShadow i v).rating = s.rating := rfl
@[simp] theorem State.setRoomShadow_lamp (s : State) (i : Nat) (v : Shadow) :
    (s.setRoomShadow i v).lamp = s.lamp := rfl
@[simp] theorem State.setRoomShadow_out (s : State) (i : Nat) (v : Shadow) : (s.setRoomShadow i v).out = s.out := rfl
@[simp] theorem State.setRoomShadow_choices (s : State) (i : Nat) (v : Shadow) :
    (s.setRoomShadow i v).choices = s.choices := rfl
@[simp] theorem State.setRoomShadow_host_fifo (s : State) (i : Nat) (v : Shadow) :
    (s.setRoomShadow i v).host.fifo = s.host.fifo := rfl
@[simp] theorem State.setRoomShadow_host_waiting (s : State) (i : Nat) (v : Shadow) :
    (s.setRoomShadow i v).host.waiting = s.host.waiting := rfl
@[simp] theorem State.setRoomShadow_host_head (s : State) (i : Nat) (v : Shadow) :
    (s.setRoomShadow i v).host.head = s.host.head := rfl
@[simp] theorem State.setRoomShadow_host_answers (s : State) (i : Nat) (v : Shadow) :
    (s.setRoomShadow i v).host.answers = s.host.answers := rfl
@[simp] theorem State.setRoomShadow_host_loads (s : State) (i : Nat) (v : Shadow) :
    (s.setRoomShadow i v).host.loads = s.host.loads := rfl
@[simp] theorem State.setRoomShadow_host_trunks (s : State) (i : Nat) (v : Shadow) :
    (s.setRoomShadow i v).host.trunks = s.host.trunks := rfl
@[simp] theorem State.setRoomShadow_host_tariffs (s : State) (i : Nat) (v : Shadow) :
    (s.setRoomShadow i v).host.tariffs = s.host.tariffs := rfl
@[simp] theorem State.setRoomShadow_host_guardCount (s : State) (i : Nat) (v : Shadow) :
    (s.setRoomShadow i v).host.guardCount = s.host.guardCount := rfl
@[simp] theorem State.setRoomShadow_host_written (s : State) (i : Nat) (v : Shadow) :
    (s.setRoomShadow i v).host.written = s.host.written := rfl
@[simp] theorem State.setRoomShadow_channel (s : State) (i : Nat) (v : Shadow) :
    (s.setRoomShadow i v).channel = s.channel := rfl
@[simp] theorem State.setRoomShadow_message (s : State) (i : Nat) (v : Shadow) :
    (s.setRoomShadow i v).message = s.message := rfl
@[simp] theorem State.setRoomShadow_mailbox (s : State) (i : Nat) (v : Shadow) :
    (s.setRoomShadow i v).mailbox = s.mailbox := rfl
@[simp] theorem State.setRoomShadow_trunk (s : State) (i : Nat) (v : Shadow) :
    (s.setRoomShadow i v).trunk = s.trunk := rfl
@[simp] theorem State.setRoomShadow_folios (s : State) (i : Nat) (v : Shadow) :
    (s.setRoomShadow i v).folios = s.folios := rfl
@[simp] theorem State.setRoomShadow_lampOf (s : State) (i : Nat) (v : Shadow) :
    (s.setRoomShadow i v).lampOf = s.lampOf := rfl
@[simp] theorem State.setRoomShadow_card (s : State) (i : Nat) (v : Shadow) :
    (s.setRoomShadow i v).card = s.card := rfl
@[simp] theorem State.setRoomShadow_trunkShadow (s : State) (i : Nat) (v : Shadow) :
    (s.setRoomShadow i v).trunkShadow = s.trunkShadow := rfl
@[simp] theorem State.setRoomShadow_tariffShadow (s : State) (i : Nat) (v : Shadow) :
    (s.setRoomShadow i v).tariffShadow = s.tariffShadow := rfl
@[simp] theorem State.setRoomShadow_profile (s : State) (i : Nat) (v : Shadow) :
    (s.setRoomShadow i v).profile = s.profile := rfl
@[simp] theorem State.setRoomShadow_roomCount (s : State) (i : Nat) (v : Shadow) :
    (s.setRoomShadow i v).roomCount = s.roomCount := rfl
@[simp] theorem State.setRoomShadow_stamp (s : State) (i : Nat) (v : Shadow) :
    (s.setRoomShadow i v).stamp = s.stamp := rfl
@[simp] theorem State.setRoomShadow_active (s : State) (i : Nat) (v : Shadow) :
    (s.setRoomShadow i v).active = s.active := rfl
@[simp] theorem State.setRoomShadow_roomShadow (s : State) (i : Nat) (v : Shadow) (j : Nat) :
    (s.setRoomShadow i v).roomShadow j = if j = i then v else s.roomShadow j := Table.get_set _ _ _ _ _

/-! ### `setTrunkShadow` -/

@[simp] theorem State.setTrunkShadow_pending (s : State) (i : Nat) (v : Shadow) :
    (s.setTrunkShadow i v).pending = s.pending := rfl
@[simp] theorem State.setTrunkShadow_straps (s : State) (i : Nat) (v : Shadow) :
    (s.setTrunkShadow i v).straps = s.straps := rfl
@[simp] theorem State.setTrunkShadow_mem (s : State) (i : Nat) (v : Shadow) :
    (s.setTrunkShadow i v).mem = s.mem := rfl
@[simp] theorem State.setTrunkShadow_time (s : State) (i : Nat) (v : Shadow) :
    (s.setTrunkShadow i v).time = s.time := rfl
@[simp] theorem State.setTrunkShadow_frame (s : State) (i : Nat) (v : Shadow) :
    (s.setTrunkShadow i v).frame = s.frame := rfl
@[simp] theorem State.setTrunkShadow_control (s : State) (i : Nat) (v : Shadow) :
    (s.setTrunkShadow i v).control = s.control := rfl
@[simp] theorem State.setTrunkShadow_arbiter (s : State) (i : Nat) (v : Shadow) :
    (s.setTrunkShadow i v).arbiter = s.arbiter := rfl
@[simp] theorem State.setTrunkShadow_voice (s : State) (i : Nat) (v : Shadow) :
    (s.setTrunkShadow i v).voice = s.voice := rfl
@[simp] theorem State.setTrunkShadow_store (s : State) (i : Nat) (v : Shadow) :
    (s.setTrunkShadow i v).store = s.store := rfl
@[simp] theorem State.setTrunkShadow_ring (s : State) (i : Nat) (v : Shadow) :
    (s.setTrunkShadow i v).ring = s.ring := rfl
@[simp] theorem State.setTrunkShadow_notices (s : State) (i : Nat) (v : Shadow) :
    (s.setTrunkShadow i v).notices = s.notices := rfl
@[simp] theorem State.setTrunkShadow_rating (s : State) (i : Nat) (v : Shadow) :
    (s.setTrunkShadow i v).rating = s.rating := rfl
@[simp] theorem State.setTrunkShadow_lamp (s : State) (i : Nat) (v : Shadow) :
    (s.setTrunkShadow i v).lamp = s.lamp := rfl
@[simp] theorem State.setTrunkShadow_out (s : State) (i : Nat) (v : Shadow) :
    (s.setTrunkShadow i v).out = s.out := rfl
@[simp] theorem State.setTrunkShadow_choices (s : State) (i : Nat) (v : Shadow) :
    (s.setTrunkShadow i v).choices = s.choices := rfl
@[simp] theorem State.setTrunkShadow_host_fifo (s : State) (i : Nat) (v : Shadow) :
    (s.setTrunkShadow i v).host.fifo = s.host.fifo := rfl
@[simp] theorem State.setTrunkShadow_host_waiting (s : State) (i : Nat) (v : Shadow) :
    (s.setTrunkShadow i v).host.waiting = s.host.waiting := rfl
@[simp] theorem State.setTrunkShadow_host_head (s : State) (i : Nat) (v : Shadow) :
    (s.setTrunkShadow i v).host.head = s.host.head := rfl
@[simp] theorem State.setTrunkShadow_host_answers (s : State) (i : Nat) (v : Shadow) :
    (s.setTrunkShadow i v).host.answers = s.host.answers := rfl
@[simp] theorem State.setTrunkShadow_host_loads (s : State) (i : Nat) (v : Shadow) :
    (s.setTrunkShadow i v).host.loads = s.host.loads := rfl
@[simp] theorem State.setTrunkShadow_host_rooms (s : State) (i : Nat) (v : Shadow) :
    (s.setTrunkShadow i v).host.rooms = s.host.rooms := rfl
@[simp] theorem State.setTrunkShadow_host_tariffs (s : State) (i : Nat) (v : Shadow) :
    (s.setTrunkShadow i v).host.tariffs = s.host.tariffs := rfl
@[simp] theorem State.setTrunkShadow_host_guardCount (s : State) (i : Nat) (v : Shadow) :
    (s.setTrunkShadow i v).host.guardCount = s.host.guardCount := rfl
@[simp] theorem State.setTrunkShadow_host_written (s : State) (i : Nat) (v : Shadow) :
    (s.setTrunkShadow i v).host.written = s.host.written := rfl
@[simp] theorem State.setTrunkShadow_channel (s : State) (i : Nat) (v : Shadow) :
    (s.setTrunkShadow i v).channel = s.channel := rfl
@[simp] theorem State.setTrunkShadow_message (s : State) (i : Nat) (v : Shadow) :
    (s.setTrunkShadow i v).message = s.message := rfl
@[simp] theorem State.setTrunkShadow_mailbox (s : State) (i : Nat) (v : Shadow) :
    (s.setTrunkShadow i v).mailbox = s.mailbox := rfl
@[simp] theorem State.setTrunkShadow_trunk (s : State) (i : Nat) (v : Shadow) :
    (s.setTrunkShadow i v).trunk = s.trunk := rfl
@[simp] theorem State.setTrunkShadow_folios (s : State) (i : Nat) (v : Shadow) :
    (s.setTrunkShadow i v).folios = s.folios := rfl
@[simp] theorem State.setTrunkShadow_lampOf (s : State) (i : Nat) (v : Shadow) :
    (s.setTrunkShadow i v).lampOf = s.lampOf := rfl
@[simp] theorem State.setTrunkShadow_card (s : State) (i : Nat) (v : Shadow) :
    (s.setTrunkShadow i v).card = s.card := rfl
@[simp] theorem State.setTrunkShadow_roomShadow (s : State) (i : Nat) (v : Shadow) :
    (s.setTrunkShadow i v).roomShadow = s.roomShadow := rfl
@[simp] theorem State.setTrunkShadow_tariffShadow (s : State) (i : Nat) (v : Shadow) :
    (s.setTrunkShadow i v).tariffShadow = s.tariffShadow := rfl
@[simp] theorem State.setTrunkShadow_profile (s : State) (i : Nat) (v : Shadow) :
    (s.setTrunkShadow i v).profile = s.profile := rfl
@[simp] theorem State.setTrunkShadow_roomCount (s : State) (i : Nat) (v : Shadow) :
    (s.setTrunkShadow i v).roomCount = s.roomCount := rfl
@[simp] theorem State.setTrunkShadow_stamp (s : State) (i : Nat) (v : Shadow) :
    (s.setTrunkShadow i v).stamp = s.stamp := rfl
@[simp] theorem State.setTrunkShadow_active (s : State) (i : Nat) (v : Shadow) :
    (s.setTrunkShadow i v).active = s.active := rfl
@[simp] theorem State.setTrunkShadow_trunkShadow (s : State) (i : Nat) (v : Shadow) (j : Nat) :
    (s.setTrunkShadow i v).trunkShadow j = if j = i then v else s.trunkShadow j := Table.get_set _ _ _ _ _

/-! ### `setTariffShadow` -/

@[simp] theorem State.setTariffShadow_pending (s : State) (i : Nat) (v : Shadow) :
    (s.setTariffShadow i v).pending = s.pending := rfl
@[simp] theorem State.setTariffShadow_straps (s : State) (i : Nat) (v : Shadow) :
    (s.setTariffShadow i v).straps = s.straps := rfl
@[simp] theorem State.setTariffShadow_mem (s : State) (i : Nat) (v : Shadow) :
    (s.setTariffShadow i v).mem = s.mem := rfl
@[simp] theorem State.setTariffShadow_time (s : State) (i : Nat) (v : Shadow) :
    (s.setTariffShadow i v).time = s.time := rfl
@[simp] theorem State.setTariffShadow_frame (s : State) (i : Nat) (v : Shadow) :
    (s.setTariffShadow i v).frame = s.frame := rfl
@[simp] theorem State.setTariffShadow_control (s : State) (i : Nat) (v : Shadow) :
    (s.setTariffShadow i v).control = s.control := rfl
@[simp] theorem State.setTariffShadow_arbiter (s : State) (i : Nat) (v : Shadow) :
    (s.setTariffShadow i v).arbiter = s.arbiter := rfl
@[simp] theorem State.setTariffShadow_voice (s : State) (i : Nat) (v : Shadow) :
    (s.setTariffShadow i v).voice = s.voice := rfl
@[simp] theorem State.setTariffShadow_store (s : State) (i : Nat) (v : Shadow) :
    (s.setTariffShadow i v).store = s.store := rfl
@[simp] theorem State.setTariffShadow_ring (s : State) (i : Nat) (v : Shadow) :
    (s.setTariffShadow i v).ring = s.ring := rfl
@[simp] theorem State.setTariffShadow_notices (s : State) (i : Nat) (v : Shadow) :
    (s.setTariffShadow i v).notices = s.notices := rfl
@[simp] theorem State.setTariffShadow_rating (s : State) (i : Nat) (v : Shadow) :
    (s.setTariffShadow i v).rating = s.rating := rfl
@[simp] theorem State.setTariffShadow_lamp (s : State) (i : Nat) (v : Shadow) :
    (s.setTariffShadow i v).lamp = s.lamp := rfl
@[simp] theorem State.setTariffShadow_out (s : State) (i : Nat) (v : Shadow) :
    (s.setTariffShadow i v).out = s.out := rfl
@[simp] theorem State.setTariffShadow_choices (s : State) (i : Nat) (v : Shadow) :
    (s.setTariffShadow i v).choices = s.choices := rfl
@[simp] theorem State.setTariffShadow_host_fifo (s : State) (i : Nat) (v : Shadow) :
    (s.setTariffShadow i v).host.fifo = s.host.fifo := rfl
@[simp] theorem State.setTariffShadow_host_waiting (s : State) (i : Nat) (v : Shadow) :
    (s.setTariffShadow i v).host.waiting = s.host.waiting := rfl
@[simp] theorem State.setTariffShadow_host_head (s : State) (i : Nat) (v : Shadow) :
    (s.setTariffShadow i v).host.head = s.host.head := rfl
@[simp] theorem State.setTariffShadow_host_answers (s : State) (i : Nat) (v : Shadow) :
    (s.setTariffShadow i v).host.answers = s.host.answers := rfl
@[simp] theorem State.setTariffShadow_host_loads (s : State) (i : Nat) (v : Shadow) :
    (s.setTariffShadow i v).host.loads = s.host.loads := rfl
@[simp] theorem State.setTariffShadow_host_rooms (s : State) (i : Nat) (v : Shadow) :
    (s.setTariffShadow i v).host.rooms = s.host.rooms := rfl
@[simp] theorem State.setTariffShadow_host_trunks (s : State) (i : Nat) (v : Shadow) :
    (s.setTariffShadow i v).host.trunks = s.host.trunks := rfl
@[simp] theorem State.setTariffShadow_host_guardCount (s : State) (i : Nat) (v : Shadow) :
    (s.setTariffShadow i v).host.guardCount = s.host.guardCount := rfl
@[simp] theorem State.setTariffShadow_host_written (s : State) (i : Nat) (v : Shadow) :
    (s.setTariffShadow i v).host.written = s.host.written := rfl
@[simp] theorem State.setTariffShadow_channel (s : State) (i : Nat) (v : Shadow) :
    (s.setTariffShadow i v).channel = s.channel := rfl
@[simp] theorem State.setTariffShadow_message (s : State) (i : Nat) (v : Shadow) :
    (s.setTariffShadow i v).message = s.message := rfl
@[simp] theorem State.setTariffShadow_mailbox (s : State) (i : Nat) (v : Shadow) :
    (s.setTariffShadow i v).mailbox = s.mailbox := rfl
@[simp] theorem State.setTariffShadow_trunk (s : State) (i : Nat) (v : Shadow) :
    (s.setTariffShadow i v).trunk = s.trunk := rfl
@[simp] theorem State.setTariffShadow_folios (s : State) (i : Nat) (v : Shadow) :
    (s.setTariffShadow i v).folios = s.folios := rfl
@[simp] theorem State.setTariffShadow_lampOf (s : State) (i : Nat) (v : Shadow) :
    (s.setTariffShadow i v).lampOf = s.lampOf := rfl
@[simp] theorem State.setTariffShadow_card (s : State) (i : Nat) (v : Shadow) :
    (s.setTariffShadow i v).card = s.card := rfl
@[simp] theorem State.setTariffShadow_roomShadow (s : State) (i : Nat) (v : Shadow) :
    (s.setTariffShadow i v).roomShadow = s.roomShadow := rfl
@[simp] theorem State.setTariffShadow_trunkShadow (s : State) (i : Nat) (v : Shadow) :
    (s.setTariffShadow i v).trunkShadow = s.trunkShadow := rfl
@[simp] theorem State.setTariffShadow_profile (s : State) (i : Nat) (v : Shadow) :
    (s.setTariffShadow i v).profile = s.profile := rfl
@[simp] theorem State.setTariffShadow_roomCount (s : State) (i : Nat) (v : Shadow) :
    (s.setTariffShadow i v).roomCount = s.roomCount := rfl
@[simp] theorem State.setTariffShadow_stamp (s : State) (i : Nat) (v : Shadow) :
    (s.setTariffShadow i v).stamp = s.stamp := rfl
@[simp] theorem State.setTariffShadow_active (s : State) (i : Nat) (v : Shadow) :
    (s.setTariffShadow i v).active = s.active := rfl
@[simp] theorem State.setTariffShadow_tariffShadow (s : State) (i : Nat) (v : Shadow) (j : Nat) :
    (s.setTariffShadow i v).tariffShadow j = if j = i then v else s.tariffShadow j := Table.get_set _ _ _ _ _

/-! ### `raise` -/

@[simp] theorem raise_pending (r : Request) (s : State) : (raise r s).pending = s.pending := rfl
@[simp] theorem raise_straps (r : Request) (s : State) : (raise r s).straps = s.straps := rfl
@[simp] theorem raise_mem (r : Request) (s : State) : (raise r s).mem = s.mem := rfl
@[simp] theorem raise_time (r : Request) (s : State) : (raise r s).time = s.time := rfl
@[simp] theorem raise_frame (r : Request) (s : State) : (raise r s).frame = s.frame := rfl
@[simp] theorem raise_control (r : Request) (s : State) : (raise r s).control = s.control := rfl
@[simp] theorem raise_host (r : Request) (s : State) : (raise r s).host = s.host := rfl
@[simp] theorem raise_arbiter (r : Request) (s : State) : (raise r s).arbiter = s.arbiter := rfl
@[simp] theorem raise_voice (r : Request) (s : State) : (raise r s).voice = s.voice := rfl
@[simp] theorem raise_store (r : Request) (s : State) : (raise r s).store = s.store := rfl
@[simp] theorem raise_ring (r : Request) (s : State) : (raise r s).ring = s.ring := rfl
@[simp] theorem raise_notices (r : Request) (s : State) : (raise r s).notices = s.notices := rfl
@[simp] theorem raise_rating (r : Request) (s : State) : (raise r s).rating = s.rating := rfl
@[simp] theorem raise_lamp (r : Request) (s : State) : (raise r s).lamp = s.lamp := rfl
@[simp] theorem raise_choices (r : Request) (s : State) : (raise r s).choices = s.choices := rfl
@[simp] theorem raise_out_notices (r : Request) (s : State) : (raise r s).out.notices = s.out.notices := rfl
@[simp] theorem raise_channel (r : Request) (s : State) : (raise r s).channel = s.channel := rfl
@[simp] theorem raise_message (r : Request) (s : State) : (raise r s).message = s.message := rfl
@[simp] theorem raise_mailbox (r : Request) (s : State) : (raise r s).mailbox = s.mailbox := rfl
@[simp] theorem raise_trunk (r : Request) (s : State) : (raise r s).trunk = s.trunk := rfl
@[simp] theorem raise_folios (r : Request) (s : State) : (raise r s).folios = s.folios := rfl
@[simp] theorem raise_lampOf (r : Request) (s : State) : (raise r s).lampOf = s.lampOf := rfl
@[simp] theorem raise_card (r : Request) (s : State) : (raise r s).card = s.card := rfl
@[simp] theorem raise_roomShadow (r : Request) (s : State) : (raise r s).roomShadow = s.roomShadow := rfl
@[simp] theorem raise_trunkShadow (r : Request) (s : State) : (raise r s).trunkShadow = s.trunkShadow := rfl
@[simp] theorem raise_tariffShadow (r : Request) (s : State) : (raise r s).tariffShadow = s.tariffShadow := rfl
@[simp] theorem raise_profile (r : Request) (s : State) : (raise r s).profile = s.profile := rfl
@[simp] theorem raise_roomCount (r : Request) (s : State) : (raise r s).roomCount = s.roomCount := rfl
@[simp] theorem raise_stamp (r : Request) (s : State) : (raise r s).stamp = s.stamp := rfl
@[simp] theorem raise_active (r : Request) (s : State) : (raise r s).active = s.active := rfl
@[simp] theorem raise_out_requests (r : Request) (s : State) : (raise r s).out.requests = s.out.requests ++ [r] := rfl

/-! ### `raiseAll` -/

@[simp] theorem raiseAll_pending (rs : List Request) (s : State) : (raiseAll rs s).pending = s.pending := rfl
@[simp] theorem raiseAll_straps (rs : List Request) (s : State) : (raiseAll rs s).straps = s.straps := rfl
@[simp] theorem raiseAll_mem (rs : List Request) (s : State) : (raiseAll rs s).mem = s.mem := rfl
@[simp] theorem raiseAll_time (rs : List Request) (s : State) : (raiseAll rs s).time = s.time := rfl
@[simp] theorem raiseAll_frame (rs : List Request) (s : State) : (raiseAll rs s).frame = s.frame := rfl
@[simp] theorem raiseAll_control (rs : List Request) (s : State) : (raiseAll rs s).control = s.control := rfl
@[simp] theorem raiseAll_host (rs : List Request) (s : State) : (raiseAll rs s).host = s.host := rfl
@[simp] theorem raiseAll_arbiter (rs : List Request) (s : State) : (raiseAll rs s).arbiter = s.arbiter := rfl
@[simp] theorem raiseAll_voice (rs : List Request) (s : State) : (raiseAll rs s).voice = s.voice := rfl
@[simp] theorem raiseAll_store (rs : List Request) (s : State) : (raiseAll rs s).store = s.store := rfl
@[simp] theorem raiseAll_ring (rs : List Request) (s : State) : (raiseAll rs s).ring = s.ring := rfl
@[simp] theorem raiseAll_notices (rs : List Request) (s : State) : (raiseAll rs s).notices = s.notices := rfl
@[simp] theorem raiseAll_rating (rs : List Request) (s : State) : (raiseAll rs s).rating = s.rating := rfl
@[simp] theorem raiseAll_lamp (rs : List Request) (s : State) : (raiseAll rs s).lamp = s.lamp := rfl
@[simp] theorem raiseAll_choices (rs : List Request) (s : State) : (raiseAll rs s).choices = s.choices := rfl
@[simp] theorem raiseAll_out_notices (rs : List Request) (s : State) :
    (raiseAll rs s).out.notices = s.out.notices := rfl
@[simp] theorem raiseAll_channel (rs : List Request) (s : State) : (raiseAll rs s).channel = s.channel := rfl
@[simp] theorem raiseAll_message (rs : List Request) (s : State) : (raiseAll rs s).message = s.message := rfl
@[simp] theorem raiseAll_mailbox (rs : List Request) (s : State) : (raiseAll rs s).mailbox = s.mailbox := rfl
@[simp] theorem raiseAll_trunk (rs : List Request) (s : State) : (raiseAll rs s).trunk = s.trunk := rfl
@[simp] theorem raiseAll_folios (rs : List Request) (s : State) : (raiseAll rs s).folios = s.folios := rfl
@[simp] theorem raiseAll_lampOf (rs : List Request) (s : State) : (raiseAll rs s).lampOf = s.lampOf := rfl
@[simp] theorem raiseAll_card (rs : List Request) (s : State) : (raiseAll rs s).card = s.card := rfl
@[simp] theorem raiseAll_roomShadow (rs : List Request) (s : State) : (raiseAll rs s).roomShadow = s.roomShadow := rfl
@[simp] theorem raiseAll_trunkShadow (rs : List Request) (s : State) :
    (raiseAll rs s).trunkShadow = s.trunkShadow := rfl
@[simp] theorem raiseAll_tariffShadow (rs : List Request) (s : State) :
    (raiseAll rs s).tariffShadow = s.tariffShadow := rfl
@[simp] theorem raiseAll_profile (rs : List Request) (s : State) : (raiseAll rs s).profile = s.profile := rfl
@[simp] theorem raiseAll_roomCount (rs : List Request) (s : State) : (raiseAll rs s).roomCount = s.roomCount := rfl
@[simp] theorem raiseAll_stamp (rs : List Request) (s : State) : (raiseAll rs s).stamp = s.stamp := rfl
@[simp] theorem raiseAll_active (rs : List Request) (s : State) : (raiseAll rs s).active = s.active := rfl
@[simp] theorem raiseAll_out_requests (rs : List Request) (s : State) :
    (raiseAll rs s).out.requests = s.out.requests ++ rs := rfl

/-! ### `markMail` -/

@[simp] theorem markMail_pending (r : Nat) (s : State) : (markMail r s).pending = s.pending := rfl
@[simp] theorem markMail_straps (r : Nat) (s : State) : (markMail r s).straps = s.straps := rfl
@[simp] theorem markMail_mem (r : Nat) (s : State) : (markMail r s).mem = s.mem := rfl
@[simp] theorem markMail_time (r : Nat) (s : State) : (markMail r s).time = s.time := rfl
@[simp] theorem markMail_frame (r : Nat) (s : State) : (markMail r s).frame = s.frame := rfl
@[simp] theorem markMail_control (r : Nat) (s : State) : (markMail r s).control = s.control := rfl
@[simp] theorem markMail_host (r : Nat) (s : State) : (markMail r s).host = s.host := rfl
@[simp] theorem markMail_arbiter (r : Nat) (s : State) : (markMail r s).arbiter = s.arbiter := rfl
@[simp] theorem markMail_voice (r : Nat) (s : State) : (markMail r s).voice = s.voice := rfl
@[simp] theorem markMail_ring (r : Nat) (s : State) : (markMail r s).ring = s.ring := rfl
@[simp] theorem markMail_notices (r : Nat) (s : State) : (markMail r s).notices = s.notices := rfl
@[simp] theorem markMail_rating (r : Nat) (s : State) : (markMail r s).rating = s.rating := rfl
@[simp] theorem markMail_lamp (r : Nat) (s : State) : (markMail r s).lamp = s.lamp := rfl
@[simp] theorem markMail_out (r : Nat) (s : State) : (markMail r s).out = s.out := rfl
@[simp] theorem markMail_choices (r : Nat) (s : State) : (markMail r s).choices = s.choices := rfl
@[simp] theorem markMail_store_stackPtr (r : Nat) (s : State) :
    (markMail r s).store.stackPtr = s.store.stackPtr := rfl
@[simp] theorem markMail_store_stackOp (r : Nat) (s : State) : (markMail r s).store.stackOp = s.store.stackOp := rfl
@[simp] theorem markMail_store_pushLine (r : Nat) (s : State) :
    (markMail r s).store.pushLine = s.store.pushLine := rfl
@[simp] theorem markMail_store_pocket (r : Nat) (s : State) : (markMail r s).store.pocket = s.store.pocket := rfl
@[simp] theorem markMail_store_takeLine (r : Nat) (s : State) :
    (markMail r s).store.takeLine = s.store.takeLine := rfl
@[simp] theorem markMail_store_releaseQueue (r : Nat) (s : State) :
    (markMail r s).store.releaseQueue = s.store.releaseQueue := rfl
@[simp] theorem markMail_store_releaseLine (r : Nat) (s : State) :
    (markMail r s).store.releaseLine = s.store.releaseLine := rfl
@[simp] theorem markMail_store_walk (r : Nat) (s : State) : (markMail r s).store.walk = s.store.walk := rfl
@[simp] theorem markMail_store_freeRecords (r : Nat) (s : State) :
    (markMail r s).store.freeRecords = s.store.freeRecords := rfl
@[simp] theorem markMail_store_messages (r : Nat) (s : State) :
    (markMail r s).store.messages = s.store.messages := rfl
@[simp] theorem markMail_store_mailboxes (r : Nat) (s : State) :
    (markMail r s).store.mailboxes = s.store.mailboxes := rfl
@[simp] theorem markMail_store_serial (r : Nat) (s : State) : (markMail r s).store.serial = s.store.serial := rfl
@[simp] theorem markMail_store_storeLow (r : Nat) (s : State) :
    (markMail r s).store.storeLow = s.store.storeLow := rfl
@[simp] theorem markMail_store_mirrorRaised (r : Nat) (s : State) :
    (markMail r s).store.mirrorRaised = s.store.mirrorRaised := rfl
@[simp] theorem markMail_store_mirrorLast (r : Nat) (s : State) :
    (markMail r s).store.mirrorLast = s.store.mirrorLast := rfl
@[simp] theorem markMail_store_written (r : Nat) (s : State) : (markMail r s).store.written = s.store.written := rfl
@[simp] theorem markMail_channel (r : Nat) (s : State) : (markMail r s).channel = s.channel := rfl
@[simp] theorem markMail_message (r : Nat) (s : State) : (markMail r s).message = s.message := rfl
@[simp] theorem markMail_mailbox (r : Nat) (s : State) : (markMail r s).mailbox = s.mailbox := rfl
@[simp] theorem markMail_trunk (r : Nat) (s : State) : (markMail r s).trunk = s.trunk := rfl
@[simp] theorem markMail_folios (r : Nat) (s : State) : (markMail r s).folios = s.folios := rfl
@[simp] theorem markMail_lampOf (r : Nat) (s : State) : (markMail r s).lampOf = s.lampOf := rfl
@[simp] theorem markMail_card (r : Nat) (s : State) : (markMail r s).card = s.card := rfl
@[simp] theorem markMail_roomShadow (r : Nat) (s : State) : (markMail r s).roomShadow = s.roomShadow := rfl
@[simp] theorem markMail_trunkShadow (r : Nat) (s : State) : (markMail r s).trunkShadow = s.trunkShadow := rfl
@[simp] theorem markMail_tariffShadow (r : Nat) (s : State) : (markMail r s).tariffShadow = s.tariffShadow := rfl
@[simp] theorem markMail_profile (r : Nat) (s : State) : (markMail r s).profile = s.profile := rfl
@[simp] theorem markMail_roomCount (r : Nat) (s : State) : (markMail r s).roomCount = s.roomCount := rfl
@[simp] theorem markMail_stamp (r : Nat) (s : State) : (markMail r s).stamp = s.stamp := rfl
@[simp] theorem markMail_active (r : Nat) (s : State) : (markMail r s).active = s.active := rfl
@[simp] theorem markMail_store_marks (r : Nat) (s : State) : (markMail r s).store.marks = addMark s.store.marks r := rfl

/-! ### `markFolio` -/

@[simp] theorem markFolio_pending (r : Nat) (s : State) : (markFolio r s).pending = s.pending := rfl
@[simp] theorem markFolio_straps (r : Nat) (s : State) : (markFolio r s).straps = s.straps := rfl
@[simp] theorem markFolio_mem (r : Nat) (s : State) : (markFolio r s).mem = s.mem := rfl
@[simp] theorem markFolio_time (r : Nat) (s : State) : (markFolio r s).time = s.time := rfl
@[simp] theorem markFolio_frame (r : Nat) (s : State) : (markFolio r s).frame = s.frame := rfl
@[simp] theorem markFolio_control (r : Nat) (s : State) : (markFolio r s).control = s.control := rfl
@[simp] theorem markFolio_host (r : Nat) (s : State) : (markFolio r s).host = s.host := rfl
@[simp] theorem markFolio_arbiter (r : Nat) (s : State) : (markFolio r s).arbiter = s.arbiter := rfl
@[simp] theorem markFolio_voice (r : Nat) (s : State) : (markFolio r s).voice = s.voice := rfl
@[simp] theorem markFolio_store (r : Nat) (s : State) : (markFolio r s).store = s.store := rfl
@[simp] theorem markFolio_ring (r : Nat) (s : State) : (markFolio r s).ring = s.ring := rfl
@[simp] theorem markFolio_notices (r : Nat) (s : State) : (markFolio r s).notices = s.notices := rfl
@[simp] theorem markFolio_lamp (r : Nat) (s : State) : (markFolio r s).lamp = s.lamp := rfl
@[simp] theorem markFolio_out (r : Nat) (s : State) : (markFolio r s).out = s.out := rfl
@[simp] theorem markFolio_choices (r : Nat) (s : State) : (markFolio r s).choices = s.choices := rfl
@[simp] theorem markFolio_rating_trunks (r : Nat) (s : State) : (markFolio r s).rating.trunks = s.rating.trunks := rfl
@[simp] theorem markFolio_rating_folios (r : Nat) (s : State) : (markFolio r s).rating.folios = s.rating.folios := rfl
@[simp] theorem markFolio_rating_freePool (r : Nat) (s : State) :
    (markFolio r s).rating.freePool = s.rating.freePool := rfl
@[simp] theorem markFolio_rating_serial (r : Nat) (s : State) : (markFolio r s).rating.serial = s.rating.serial := rfl
@[simp] theorem markFolio_rating_queue (r : Nat) (s : State) : (markFolio r s).rating.queue = s.rating.queue := rfl
@[simp] theorem markFolio_rating_queueGranted (r : Nat) (s : State) :
    (markFolio r s).rating.queueGranted = s.rating.queueGranted := rfl
@[simp] theorem markFolio_rating_queueRaised (r : Nat) (s : State) :
    (markFolio r s).rating.queueRaised = s.rating.queueRaised := rfl
@[simp] theorem markFolio_rating_outgoing (r : Nat) (s : State) :
    (markFolio r s).rating.outgoing = s.rating.outgoing := rfl
@[simp] theorem markFolio_rating_incoming (r : Nat) (s : State) :
    (markFolio r s).rating.incoming = s.rating.incoming := rfl
@[simp] theorem markFolio_rating_rated (r : Nat) (s : State) : (markFolio r s).rating.rated = s.rating.rated := rfl
@[simp] theorem markFolio_rating_free (r : Nat) (s : State) : (markFolio r s).rating.free = s.rating.free := rfl
@[simp] theorem markFolio_rating_unrated (r : Nat) (s : State) :
    (markFolio r s).rating.unrated = s.rating.unrated := rfl
@[simp] theorem markFolio_rating_unanswered (r : Nat) (s : State) :
    (markFolio r s).rating.unanswered = s.rating.unanswered := rfl
@[simp] theorem markFolio_rating_implicits (r : Nat) (s : State) :
    (markFolio r s).rating.implicits = s.rating.implicits := rfl
@[simp] theorem markFolio_rating_missedSeizes (r : Nat) (s : State) :
    (markFolio r s).rating.missedSeizes = s.rating.missedSeizes := rfl
@[simp] theorem markFolio_rating_unknownStates (r : Nat) (s : State) :
    (markFolio r s).rating.unknownStates = s.rating.unknownStates := rfl
@[simp] theorem markFolio_rating_lateCount (r : Nat) (s : State) :
    (markFolio r s).rating.lateCount = s.rating.lateCount := rfl
@[simp] theorem markFolio_rating_unbilledCount (r : Nat) (s : State) :
    (markFolio r s).rating.unbilledCount = s.rating.unbilledCount := rfl
@[simp] theorem markFolio_rating_poolFullCount (r : Nat) (s : State) :
    (markFolio r s).rating.poolFullCount = s.rating.poolFullCount := rfl
@[simp] theorem markFolio_rating_discardedCount (r : Nat) (s : State) :
    (markFolio r s).rating.discardedCount = s.rating.discardedCount := rfl
@[simp] theorem markFolio_rating_mirrorRaised (r : Nat) (s : State) :
    (markFolio r s).rating.mirrorRaised = s.rating.mirrorRaised := rfl
@[simp] theorem markFolio_rating_mirrorLast (r : Nat) (s : State) :
    (markFolio r s).rating.mirrorLast = s.rating.mirrorLast := rfl
@[simp] theorem markFolio_rating_written (r : Nat) (s : State) :
    (markFolio r s).rating.written = s.rating.written := rfl
@[simp] theorem markFolio_rating_folioWritten (r : Nat) (s : State) :
    (markFolio r s).rating.folioWritten = s.rating.folioWritten := rfl
@[simp] theorem markFolio_channel (r : Nat) (s : State) : (markFolio r s).channel = s.channel := rfl
@[simp] theorem markFolio_message (r : Nat) (s : State) : (markFolio r s).message = s.message := rfl
@[simp] theorem markFolio_mailbox (r : Nat) (s : State) : (markFolio r s).mailbox = s.mailbox := rfl
@[simp] theorem markFolio_trunk (r : Nat) (s : State) : (markFolio r s).trunk = s.trunk := rfl
@[simp] theorem markFolio_folios (r : Nat) (s : State) : (markFolio r s).folios = s.folios := rfl
@[simp] theorem markFolio_lampOf (r : Nat) (s : State) : (markFolio r s).lampOf = s.lampOf := rfl
@[simp] theorem markFolio_card (r : Nat) (s : State) : (markFolio r s).card = s.card := rfl
@[simp] theorem markFolio_roomShadow (r : Nat) (s : State) : (markFolio r s).roomShadow = s.roomShadow := rfl
@[simp] theorem markFolio_trunkShadow (r : Nat) (s : State) : (markFolio r s).trunkShadow = s.trunkShadow := rfl
@[simp] theorem markFolio_tariffShadow (r : Nat) (s : State) : (markFolio r s).tariffShadow = s.tariffShadow := rfl
@[simp] theorem markFolio_profile (r : Nat) (s : State) : (markFolio r s).profile = s.profile := rfl
@[simp] theorem markFolio_roomCount (r : Nat) (s : State) : (markFolio r s).roomCount = s.roomCount := rfl
@[simp] theorem markFolio_stamp (r : Nat) (s : State) : (markFolio r s).stamp = s.stamp := rfl
@[simp] theorem markFolio_active (r : Nat) (s : State) : (markFolio r s).active = s.active := rfl
@[simp] theorem markFolio_rating_marks (r : Nat) (s : State) : (markFolio r s).rating.marks = addMark s.rating.marks r := rfl

/-! ### `markLamp` -/

@[simp] theorem markLamp_pending (r : Nat) (s : State) : (markLamp r s).pending = s.pending := rfl
@[simp] theorem markLamp_straps (r : Nat) (s : State) : (markLamp r s).straps = s.straps := rfl
@[simp] theorem markLamp_mem (r : Nat) (s : State) : (markLamp r s).mem = s.mem := rfl
@[simp] theorem markLamp_time (r : Nat) (s : State) : (markLamp r s).time = s.time := rfl
@[simp] theorem markLamp_frame (r : Nat) (s : State) : (markLamp r s).frame = s.frame := rfl
@[simp] theorem markLamp_control (r : Nat) (s : State) : (markLamp r s).control = s.control := rfl
@[simp] theorem markLamp_host (r : Nat) (s : State) : (markLamp r s).host = s.host := rfl
@[simp] theorem markLamp_arbiter (r : Nat) (s : State) : (markLamp r s).arbiter = s.arbiter := rfl
@[simp] theorem markLamp_voice (r : Nat) (s : State) : (markLamp r s).voice = s.voice := rfl
@[simp] theorem markLamp_store (r : Nat) (s : State) : (markLamp r s).store = s.store := rfl
@[simp] theorem markLamp_ring (r : Nat) (s : State) : (markLamp r s).ring = s.ring := rfl
@[simp] theorem markLamp_notices (r : Nat) (s : State) : (markLamp r s).notices = s.notices := rfl
@[simp] theorem markLamp_rating (r : Nat) (s : State) : (markLamp r s).rating = s.rating := rfl
@[simp] theorem markLamp_out (r : Nat) (s : State) : (markLamp r s).out = s.out := rfl
@[simp] theorem markLamp_choices (r : Nat) (s : State) : (markLamp r s).choices = s.choices := rfl
@[simp] theorem markLamp_lamp_lamps (r : Nat) (s : State) : (markLamp r s).lamp.lamps = s.lamp.lamps := rfl
@[simp] theorem markLamp_lamp_cards (r : Nat) (s : State) : (markLamp r s).lamp.cards = s.lamp.cards := rfl
@[simp] theorem markLamp_lamp_sweep (r : Nat) (s : State) : (markLamp r s).lamp.sweep = s.lamp.sweep := rfl
@[simp] theorem markLamp_lamp_dataOut (r : Nat) (s : State) : (markLamp r s).lamp.dataOut = s.lamp.dataOut := rfl
@[simp] theorem markLamp_lamp_mirrorRaised (r : Nat) (s : State) :
    (markLamp r s).lamp.mirrorRaised = s.lamp.mirrorRaised := rfl
@[simp] theorem markLamp_lamp_mirrorLast (r : Nat) (s : State) :
    (markLamp r s).lamp.mirrorLast = s.lamp.mirrorLast := rfl
@[simp] theorem markLamp_channel (r : Nat) (s : State) : (markLamp r s).channel = s.channel := rfl
@[simp] theorem markLamp_message (r : Nat) (s : State) : (markLamp r s).message = s.message := rfl
@[simp] theorem markLamp_mailbox (r : Nat) (s : State) : (markLamp r s).mailbox = s.mailbox := rfl
@[simp] theorem markLamp_trunk (r : Nat) (s : State) : (markLamp r s).trunk = s.trunk := rfl
@[simp] theorem markLamp_folios (r : Nat) (s : State) : (markLamp r s).folios = s.folios := rfl
@[simp] theorem markLamp_lampOf (r : Nat) (s : State) : (markLamp r s).lampOf = s.lampOf := rfl
@[simp] theorem markLamp_card (r : Nat) (s : State) : (markLamp r s).card = s.card := rfl
@[simp] theorem markLamp_roomShadow (r : Nat) (s : State) : (markLamp r s).roomShadow = s.roomShadow := rfl
@[simp] theorem markLamp_trunkShadow (r : Nat) (s : State) : (markLamp r s).trunkShadow = s.trunkShadow := rfl
@[simp] theorem markLamp_tariffShadow (r : Nat) (s : State) : (markLamp r s).tariffShadow = s.tariffShadow := rfl
@[simp] theorem markLamp_profile (r : Nat) (s : State) : (markLamp r s).profile = s.profile := rfl
@[simp] theorem markLamp_roomCount (r : Nat) (s : State) : (markLamp r s).roomCount = s.roomCount := rfl
@[simp] theorem markLamp_stamp (r : Nat) (s : State) : (markLamp r s).stamp = s.stamp := rfl
@[simp] theorem markLamp_active (r : Nat) (s : State) : (markLamp r s).active = s.active := rfl
@[simp] theorem markLamp_lamp_marks (r : Nat) (s : State) : (markLamp r s).lamp.marks = addMark s.lamp.marks r := rfl

/-! ### `setPlaces` -/

@[simp] theorem setPlaces_pending (r n : Nat) (s : State) : (setPlaces r n s).pending = s.pending := rfl
@[simp] theorem setPlaces_straps (r n : Nat) (s : State) : (setPlaces r n s).straps = s.straps := rfl
@[simp] theorem setPlaces_mem (r n : Nat) (s : State) : (setPlaces r n s).mem = s.mem := rfl
@[simp] theorem setPlaces_time (r n : Nat) (s : State) : (setPlaces r n s).time = s.time := rfl
@[simp] theorem setPlaces_frame (r n : Nat) (s : State) : (setPlaces r n s).frame = s.frame := rfl
@[simp] theorem setPlaces_control (r n : Nat) (s : State) : (setPlaces r n s).control = s.control := rfl
@[simp] theorem setPlaces_host (r n : Nat) (s : State) : (setPlaces r n s).host = s.host := rfl
@[simp] theorem setPlaces_arbiter (r n : Nat) (s : State) : (setPlaces r n s).arbiter = s.arbiter := rfl
@[simp] theorem setPlaces_voice (r n : Nat) (s : State) : (setPlaces r n s).voice = s.voice := rfl
@[simp] theorem setPlaces_ring (r n : Nat) (s : State) : (setPlaces r n s).ring = s.ring := rfl
@[simp] theorem setPlaces_notices (r n : Nat) (s : State) : (setPlaces r n s).notices = s.notices := rfl
@[simp] theorem setPlaces_rating (r n : Nat) (s : State) : (setPlaces r n s).rating = s.rating := rfl
@[simp] theorem setPlaces_lamp (r n : Nat) (s : State) : (setPlaces r n s).lamp = s.lamp := rfl
@[simp] theorem setPlaces_out (r n : Nat) (s : State) : (setPlaces r n s).out = s.out := rfl
@[simp] theorem setPlaces_choices (r n : Nat) (s : State) : (setPlaces r n s).choices = s.choices := rfl
@[simp] theorem setPlaces_store_stackPtr (r n : Nat) (s : State) :
    (setPlaces r n s).store.stackPtr = s.store.stackPtr := rfl
@[simp] theorem setPlaces_store_stackOp (r n : Nat) (s : State) :
    (setPlaces r n s).store.stackOp = s.store.stackOp := rfl
@[simp] theorem setPlaces_store_pushLine (r n : Nat) (s : State) :
    (setPlaces r n s).store.pushLine = s.store.pushLine := rfl
@[simp] theorem setPlaces_store_pocket (r n : Nat) (s : State) :
    (setPlaces r n s).store.pocket = s.store.pocket := rfl
@[simp] theorem setPlaces_store_takeLine (r n : Nat) (s : State) :
    (setPlaces r n s).store.takeLine = s.store.takeLine := rfl
@[simp] theorem setPlaces_store_releaseQueue (r n : Nat) (s : State) :
    (setPlaces r n s).store.releaseQueue = s.store.releaseQueue := rfl
@[simp] theorem setPlaces_store_releaseLine (r n : Nat) (s : State) :
    (setPlaces r n s).store.releaseLine = s.store.releaseLine := rfl
@[simp] theorem setPlaces_store_walk (r n : Nat) (s : State) : (setPlaces r n s).store.walk = s.store.walk := rfl
@[simp] theorem setPlaces_store_freeRecords (r n : Nat) (s : State) :
    (setPlaces r n s).store.freeRecords = s.store.freeRecords := rfl
@[simp] theorem setPlaces_store_messages (r n : Nat) (s : State) :
    (setPlaces r n s).store.messages = s.store.messages := rfl
@[simp] theorem setPlaces_store_serial (r n : Nat) (s : State) :
    (setPlaces r n s).store.serial = s.store.serial := rfl
@[simp] theorem setPlaces_store_storeLow (r n : Nat) (s : State) :
    (setPlaces r n s).store.storeLow = s.store.storeLow := rfl
@[simp] theorem setPlaces_store_mirrorRaised (r n : Nat) (s : State) :
    (setPlaces r n s).store.mirrorRaised = s.store.mirrorRaised := rfl
@[simp] theorem setPlaces_store_mirrorLast (r n : Nat) (s : State) :
    (setPlaces r n s).store.mirrorLast = s.store.mirrorLast := rfl
@[simp] theorem setPlaces_store_written (r n : Nat) (s : State) :
    (setPlaces r n s).store.written = s.store.written := rfl
@[simp] theorem setPlaces_channel (r n : Nat) (s : State) : (setPlaces r n s).channel = s.channel := rfl
@[simp] theorem setPlaces_message (r n : Nat) (s : State) : (setPlaces r n s).message = s.message := rfl
@[simp] theorem setPlaces_trunk (r n : Nat) (s : State) : (setPlaces r n s).trunk = s.trunk := rfl
@[simp] theorem setPlaces_folios (r n : Nat) (s : State) : (setPlaces r n s).folios = s.folios := rfl
@[simp] theorem setPlaces_lampOf (r n : Nat) (s : State) : (setPlaces r n s).lampOf = s.lampOf := rfl
@[simp] theorem setPlaces_card (r n : Nat) (s : State) : (setPlaces r n s).card = s.card := rfl
@[simp] theorem setPlaces_roomShadow (r n : Nat) (s : State) : (setPlaces r n s).roomShadow = s.roomShadow := rfl
@[simp] theorem setPlaces_trunkShadow (r n : Nat) (s : State) : (setPlaces r n s).trunkShadow = s.trunkShadow := rfl
@[simp] theorem setPlaces_tariffShadow (r n : Nat) (s : State) :
    (setPlaces r n s).tariffShadow = s.tariffShadow := rfl
@[simp] theorem setPlaces_profile (r n : Nat) (s : State) : (setPlaces r n s).profile = s.profile := rfl
@[simp] theorem setPlaces_roomCount (r n : Nat) (s : State) : (setPlaces r n s).roomCount = s.roomCount := rfl
@[simp] theorem setPlaces_stamp (r n : Nat) (s : State) : (setPlaces r n s).stamp = s.stamp := rfl
@[simp] theorem setPlaces_active (r n : Nat) (s : State) : (setPlaces r n s).active = s.active := rfl
@[simp] theorem setPlaces_mailbox (r n : Nat) (s : State) (q : Nat) : (setPlaces r n s).mailbox q =
    if q = r then { s.mailbox r with places := n } else s.mailbox q := Table.get_set _ _ _ _ _
@[simp] theorem setPlaces_store_marks (r n : Nat) (s : State) : (setPlaces r n s).store.marks = addMark s.store.marks r := rfl

/-! ### `setBlocksUsed` -/

@[simp] theorem setBlocksUsed_pending (r n : Nat) (s : State) : (setBlocksUsed r n s).pending = s.pending := rfl
@[simp] theorem setBlocksUsed_straps (r n : Nat) (s : State) : (setBlocksUsed r n s).straps = s.straps := rfl
@[simp] theorem setBlocksUsed_mem (r n : Nat) (s : State) : (setBlocksUsed r n s).mem = s.mem := rfl
@[simp] theorem setBlocksUsed_time (r n : Nat) (s : State) : (setBlocksUsed r n s).time = s.time := rfl
@[simp] theorem setBlocksUsed_frame (r n : Nat) (s : State) : (setBlocksUsed r n s).frame = s.frame := rfl
@[simp] theorem setBlocksUsed_control (r n : Nat) (s : State) : (setBlocksUsed r n s).control = s.control := rfl
@[simp] theorem setBlocksUsed_host (r n : Nat) (s : State) : (setBlocksUsed r n s).host = s.host := rfl
@[simp] theorem setBlocksUsed_arbiter (r n : Nat) (s : State) : (setBlocksUsed r n s).arbiter = s.arbiter := rfl
@[simp] theorem setBlocksUsed_voice (r n : Nat) (s : State) : (setBlocksUsed r n s).voice = s.voice := rfl
@[simp] theorem setBlocksUsed_ring (r n : Nat) (s : State) : (setBlocksUsed r n s).ring = s.ring := rfl
@[simp] theorem setBlocksUsed_notices (r n : Nat) (s : State) : (setBlocksUsed r n s).notices = s.notices := rfl
@[simp] theorem setBlocksUsed_rating (r n : Nat) (s : State) : (setBlocksUsed r n s).rating = s.rating := rfl
@[simp] theorem setBlocksUsed_lamp (r n : Nat) (s : State) : (setBlocksUsed r n s).lamp = s.lamp := rfl
@[simp] theorem setBlocksUsed_out (r n : Nat) (s : State) : (setBlocksUsed r n s).out = s.out := rfl
@[simp] theorem setBlocksUsed_choices (r n : Nat) (s : State) : (setBlocksUsed r n s).choices = s.choices := rfl
@[simp] theorem setBlocksUsed_store_stackPtr (r n : Nat) (s : State) :
    (setBlocksUsed r n s).store.stackPtr = s.store.stackPtr := rfl
@[simp] theorem setBlocksUsed_store_stackOp (r n : Nat) (s : State) :
    (setBlocksUsed r n s).store.stackOp = s.store.stackOp := rfl
@[simp] theorem setBlocksUsed_store_pushLine (r n : Nat) (s : State) :
    (setBlocksUsed r n s).store.pushLine = s.store.pushLine := rfl
@[simp] theorem setBlocksUsed_store_pocket (r n : Nat) (s : State) :
    (setBlocksUsed r n s).store.pocket = s.store.pocket := rfl
@[simp] theorem setBlocksUsed_store_takeLine (r n : Nat) (s : State) :
    (setBlocksUsed r n s).store.takeLine = s.store.takeLine := rfl
@[simp] theorem setBlocksUsed_store_releaseQueue (r n : Nat) (s : State) :
    (setBlocksUsed r n s).store.releaseQueue = s.store.releaseQueue := rfl
@[simp] theorem setBlocksUsed_store_releaseLine (r n : Nat) (s : State) :
    (setBlocksUsed r n s).store.releaseLine = s.store.releaseLine := rfl
@[simp] theorem setBlocksUsed_store_walk (r n : Nat) (s : State) :
    (setBlocksUsed r n s).store.walk = s.store.walk := rfl
@[simp] theorem setBlocksUsed_store_freeRecords (r n : Nat) (s : State) :
    (setBlocksUsed r n s).store.freeRecords = s.store.freeRecords := rfl
@[simp] theorem setBlocksUsed_store_messages (r n : Nat) (s : State) :
    (setBlocksUsed r n s).store.messages = s.store.messages := rfl
@[simp] theorem setBlocksUsed_store_serial (r n : Nat) (s : State) :
    (setBlocksUsed r n s).store.serial = s.store.serial := rfl
@[simp] theorem setBlocksUsed_store_storeLow (r n : Nat) (s : State) :
    (setBlocksUsed r n s).store.storeLow = s.store.storeLow := rfl
@[simp] theorem setBlocksUsed_store_mirrorRaised (r n : Nat) (s : State) :
    (setBlocksUsed r n s).store.mirrorRaised = s.store.mirrorRaised := rfl
@[simp] theorem setBlocksUsed_store_mirrorLast (r n : Nat) (s : State) :
    (setBlocksUsed r n s).store.mirrorLast = s.store.mirrorLast := rfl
@[simp] theorem setBlocksUsed_store_written (r n : Nat) (s : State) :
    (setBlocksUsed r n s).store.written = s.store.written := rfl
@[simp] theorem setBlocksUsed_channel (r n : Nat) (s : State) : (setBlocksUsed r n s).channel = s.channel := rfl
@[simp] theorem setBlocksUsed_message (r n : Nat) (s : State) : (setBlocksUsed r n s).message = s.message := rfl
@[simp] theorem setBlocksUsed_trunk (r n : Nat) (s : State) : (setBlocksUsed r n s).trunk = s.trunk := rfl
@[simp] theorem setBlocksUsed_folios (r n : Nat) (s : State) : (setBlocksUsed r n s).folios = s.folios := rfl
@[simp] theorem setBlocksUsed_lampOf (r n : Nat) (s : State) : (setBlocksUsed r n s).lampOf = s.lampOf := rfl
@[simp] theorem setBlocksUsed_card (r n : Nat) (s : State) : (setBlocksUsed r n s).card = s.card := rfl
@[simp] theorem setBlocksUsed_roomShadow (r n : Nat) (s : State) :
    (setBlocksUsed r n s).roomShadow = s.roomShadow := rfl
@[simp] theorem setBlocksUsed_trunkShadow (r n : Nat) (s : State) :
    (setBlocksUsed r n s).trunkShadow = s.trunkShadow := rfl
@[simp] theorem setBlocksUsed_tariffShadow (r n : Nat) (s : State) :
    (setBlocksUsed r n s).tariffShadow = s.tariffShadow := rfl
@[simp] theorem setBlocksUsed_profile (r n : Nat) (s : State) : (setBlocksUsed r n s).profile = s.profile := rfl
@[simp] theorem setBlocksUsed_roomCount (r n : Nat) (s : State) : (setBlocksUsed r n s).roomCount = s.roomCount := rfl
@[simp] theorem setBlocksUsed_stamp (r n : Nat) (s : State) : (setBlocksUsed r n s).stamp = s.stamp := rfl
@[simp] theorem setBlocksUsed_active (r n : Nat) (s : State) : (setBlocksUsed r n s).active = s.active := rfl
@[simp] theorem setBlocksUsed_mailbox (r n : Nat) (s : State) (q : Nat) : (setBlocksUsed r n s).mailbox q =
    if q = r then { s.mailbox r with blocksUsed := n } else s.mailbox q := Table.get_set _ _ _ _ _
@[simp] theorem setBlocksUsed_store_marks (r n : Nat) (s : State) : (setBlocksUsed r n s).store.marks = addMark s.store.marks r := rfl

/-! ### `updateEntry` -/

@[simp] theorem updateEntry_pending (k : Nat) (f : InFlight → InFlight) (s : State) :
    (updateEntry k f s).pending = s.pending := rfl
@[simp] theorem updateEntry_straps (k : Nat) (f : InFlight → InFlight) (s : State) :
    (updateEntry k f s).straps = s.straps := rfl
@[simp] theorem updateEntry_mem (k : Nat) (f : InFlight → InFlight) (s : State) :
    (updateEntry k f s).mem = s.mem := rfl
@[simp] theorem updateEntry_time (k : Nat) (f : InFlight → InFlight) (s : State) :
    (updateEntry k f s).time = s.time := rfl
@[simp] theorem updateEntry_frame (k : Nat) (f : InFlight → InFlight) (s : State) :
    (updateEntry k f s).frame = s.frame := rfl
@[simp] theorem updateEntry_control (k : Nat) (f : InFlight → InFlight) (s : State) :
    (updateEntry k f s).control = s.control := rfl
@[simp] theorem updateEntry_host (k : Nat) (f : InFlight → InFlight) (s : State) :
    (updateEntry k f s).host = s.host := rfl
@[simp] theorem updateEntry_arbiter (k : Nat) (f : InFlight → InFlight) (s : State) :
    (updateEntry k f s).arbiter = s.arbiter := rfl
@[simp] theorem updateEntry_voice (k : Nat) (f : InFlight → InFlight) (s : State) :
    (updateEntry k f s).voice = s.voice := rfl
@[simp] theorem updateEntry_store (k : Nat) (f : InFlight → InFlight) (s : State) :
    (updateEntry k f s).store = s.store := rfl
@[simp] theorem updateEntry_notices (k : Nat) (f : InFlight → InFlight) (s : State) :
    (updateEntry k f s).notices = s.notices := rfl
@[simp] theorem updateEntry_rating (k : Nat) (f : InFlight → InFlight) (s : State) :
    (updateEntry k f s).rating = s.rating := rfl
@[simp] theorem updateEntry_lamp (k : Nat) (f : InFlight → InFlight) (s : State) :
    (updateEntry k f s).lamp = s.lamp := rfl
@[simp] theorem updateEntry_out (k : Nat) (f : InFlight → InFlight) (s : State) :
    (updateEntry k f s).out = s.out := rfl
@[simp] theorem updateEntry_choices (k : Nat) (f : InFlight → InFlight) (s : State) :
    (updateEntry k f s).choices = s.choices := rfl
@[simp] theorem updateEntry_ring_consumer (k : Nat) (f : InFlight → InFlight) (s : State) :
    (updateEntry k f s).ring.consumer = s.ring.consumer := rfl
@[simp] theorem updateEntry_ring_marks (k : Nat) (f : InFlight → InFlight) (s : State) :
    (updateEntry k f s).ring.marks = s.ring.marks := rfl
@[simp] theorem updateEntry_ring_taking (k : Nat) (f : InFlight → InFlight) (s : State) :
    (updateEntry k f s).ring.taking = s.ring.taking := rfl
@[simp] theorem updateEntry_ring_ordersTaken (k : Nat) (f : InFlight → InFlight) (s : State) :
    (updateEntry k f s).ring.ordersTaken = s.ring.ordersTaken := rfl
@[simp] theorem updateEntry_ring_ringErrors (k : Nat) (f : InFlight → InFlight) (s : State) :
    (updateEntry k f s).ring.ringErrors = s.ring.ringErrors := rfl
@[simp] theorem updateEntry_ring_written (k : Nat) (f : InFlight → InFlight) (s : State) :
    (updateEntry k f s).ring.written = s.ring.written := rfl
@[simp] theorem updateEntry_channel (k : Nat) (f : InFlight → InFlight) (s : State) :
    (updateEntry k f s).channel = s.channel := rfl
@[simp] theorem updateEntry_message (k : Nat) (f : InFlight → InFlight) (s : State) :
    (updateEntry k f s).message = s.message := rfl
@[simp] theorem updateEntry_mailbox (k : Nat) (f : InFlight → InFlight) (s : State) :
    (updateEntry k f s).mailbox = s.mailbox := rfl
@[simp] theorem updateEntry_trunk (k : Nat) (f : InFlight → InFlight) (s : State) :
    (updateEntry k f s).trunk = s.trunk := rfl
@[simp] theorem updateEntry_folios (k : Nat) (f : InFlight → InFlight) (s : State) :
    (updateEntry k f s).folios = s.folios := rfl
@[simp] theorem updateEntry_lampOf (k : Nat) (f : InFlight → InFlight) (s : State) :
    (updateEntry k f s).lampOf = s.lampOf := rfl
@[simp] theorem updateEntry_card (k : Nat) (f : InFlight → InFlight) (s : State) :
    (updateEntry k f s).card = s.card := rfl
@[simp] theorem updateEntry_roomShadow (k : Nat) (f : InFlight → InFlight) (s : State) :
    (updateEntry k f s).roomShadow = s.roomShadow := rfl
@[simp] theorem updateEntry_trunkShadow (k : Nat) (f : InFlight → InFlight) (s : State) :
    (updateEntry k f s).trunkShadow = s.trunkShadow := rfl
@[simp] theorem updateEntry_tariffShadow (k : Nat) (f : InFlight → InFlight) (s : State) :
    (updateEntry k f s).tariffShadow = s.tariffShadow := rfl
@[simp] theorem updateEntry_profile (k : Nat) (f : InFlight → InFlight) (s : State) :
    (updateEntry k f s).profile = s.profile := rfl
@[simp] theorem updateEntry_roomCount (k : Nat) (f : InFlight → InFlight) (s : State) :
    (updateEntry k f s).roomCount = s.roomCount := rfl
@[simp] theorem updateEntry_stamp (k : Nat) (f : InFlight → InFlight) (s : State) :
    (updateEntry k f s).stamp = s.stamp := rfl
@[simp] theorem updateEntry_active (k : Nat) (f : InFlight → InFlight) (s : State) :
    (updateEntry k f s).active = s.active := rfl

/-! ### `freeEntry` -/

@[simp] theorem freeEntry_pending (k : Nat) (s : State) : (freeEntry k s).pending = s.pending := rfl
@[simp] theorem freeEntry_straps (k : Nat) (s : State) : (freeEntry k s).straps = s.straps := rfl
@[simp] theorem freeEntry_mem (k : Nat) (s : State) : (freeEntry k s).mem = s.mem := rfl
@[simp] theorem freeEntry_time (k : Nat) (s : State) : (freeEntry k s).time = s.time := rfl
@[simp] theorem freeEntry_frame (k : Nat) (s : State) : (freeEntry k s).frame = s.frame := rfl
@[simp] theorem freeEntry_control (k : Nat) (s : State) : (freeEntry k s).control = s.control := rfl
@[simp] theorem freeEntry_host (k : Nat) (s : State) : (freeEntry k s).host = s.host := rfl
@[simp] theorem freeEntry_arbiter (k : Nat) (s : State) : (freeEntry k s).arbiter = s.arbiter := rfl
@[simp] theorem freeEntry_voice (k : Nat) (s : State) : (freeEntry k s).voice = s.voice := rfl
@[simp] theorem freeEntry_store (k : Nat) (s : State) : (freeEntry k s).store = s.store := rfl
@[simp] theorem freeEntry_notices (k : Nat) (s : State) : (freeEntry k s).notices = s.notices := rfl
@[simp] theorem freeEntry_rating (k : Nat) (s : State) : (freeEntry k s).rating = s.rating := rfl
@[simp] theorem freeEntry_lamp (k : Nat) (s : State) : (freeEntry k s).lamp = s.lamp := rfl
@[simp] theorem freeEntry_out (k : Nat) (s : State) : (freeEntry k s).out = s.out := rfl
@[simp] theorem freeEntry_choices (k : Nat) (s : State) : (freeEntry k s).choices = s.choices := rfl
@[simp] theorem freeEntry_ring_consumer (k : Nat) (s : State) : (freeEntry k s).ring.consumer = s.ring.consumer := rfl
@[simp] theorem freeEntry_ring_marks (k : Nat) (s : State) : (freeEntry k s).ring.marks = s.ring.marks := rfl
@[simp] theorem freeEntry_ring_taking (k : Nat) (s : State) : (freeEntry k s).ring.taking = s.ring.taking := rfl
@[simp] theorem freeEntry_ring_ordersTaken (k : Nat) (s : State) :
    (freeEntry k s).ring.ordersTaken = s.ring.ordersTaken := rfl
@[simp] theorem freeEntry_ring_ringErrors (k : Nat) (s : State) :
    (freeEntry k s).ring.ringErrors = s.ring.ringErrors := rfl
@[simp] theorem freeEntry_ring_written (k : Nat) (s : State) : (freeEntry k s).ring.written = s.ring.written := rfl
@[simp] theorem freeEntry_channel (k : Nat) (s : State) : (freeEntry k s).channel = s.channel := rfl
@[simp] theorem freeEntry_message (k : Nat) (s : State) : (freeEntry k s).message = s.message := rfl
@[simp] theorem freeEntry_mailbox (k : Nat) (s : State) : (freeEntry k s).mailbox = s.mailbox := rfl
@[simp] theorem freeEntry_trunk (k : Nat) (s : State) : (freeEntry k s).trunk = s.trunk := rfl
@[simp] theorem freeEntry_folios (k : Nat) (s : State) : (freeEntry k s).folios = s.folios := rfl
@[simp] theorem freeEntry_lampOf (k : Nat) (s : State) : (freeEntry k s).lampOf = s.lampOf := rfl
@[simp] theorem freeEntry_card (k : Nat) (s : State) : (freeEntry k s).card = s.card := rfl
@[simp] theorem freeEntry_roomShadow (k : Nat) (s : State) : (freeEntry k s).roomShadow = s.roomShadow := rfl
@[simp] theorem freeEntry_trunkShadow (k : Nat) (s : State) : (freeEntry k s).trunkShadow = s.trunkShadow := rfl
@[simp] theorem freeEntry_tariffShadow (k : Nat) (s : State) : (freeEntry k s).tariffShadow = s.tariffShadow := rfl
@[simp] theorem freeEntry_profile (k : Nat) (s : State) : (freeEntry k s).profile = s.profile := rfl
@[simp] theorem freeEntry_roomCount (k : Nat) (s : State) : (freeEntry k s).roomCount = s.roomCount := rfl
@[simp] theorem freeEntry_stamp (k : Nat) (s : State) : (freeEntry k s).stamp = s.stamp := rfl
@[simp] theorem freeEntry_active (k : Nat) (s : State) : (freeEntry k s).active = s.active := rfl

/-! ### `takeReturn` -/

@[simp] theorem takeReturn_pending (p : Source → Bool) (s : State) : (takeReturn p s).pending = s.pending := rfl
@[simp] theorem takeReturn_straps (p : Source → Bool) (s : State) : (takeReturn p s).straps = s.straps := rfl
@[simp] theorem takeReturn_mem (p : Source → Bool) (s : State) : (takeReturn p s).mem = s.mem := rfl
@[simp] theorem takeReturn_time (p : Source → Bool) (s : State) : (takeReturn p s).time = s.time := rfl
@[simp] theorem takeReturn_frame (p : Source → Bool) (s : State) : (takeReturn p s).frame = s.frame := rfl
@[simp] theorem takeReturn_control (p : Source → Bool) (s : State) : (takeReturn p s).control = s.control := rfl
@[simp] theorem takeReturn_host (p : Source → Bool) (s : State) : (takeReturn p s).host = s.host := rfl
@[simp] theorem takeReturn_voice (p : Source → Bool) (s : State) : (takeReturn p s).voice = s.voice := rfl
@[simp] theorem takeReturn_store (p : Source → Bool) (s : State) : (takeReturn p s).store = s.store := rfl
@[simp] theorem takeReturn_ring (p : Source → Bool) (s : State) : (takeReturn p s).ring = s.ring := rfl
@[simp] theorem takeReturn_notices (p : Source → Bool) (s : State) : (takeReturn p s).notices = s.notices := rfl
@[simp] theorem takeReturn_rating (p : Source → Bool) (s : State) : (takeReturn p s).rating = s.rating := rfl
@[simp] theorem takeReturn_lamp (p : Source → Bool) (s : State) : (takeReturn p s).lamp = s.lamp := rfl
@[simp] theorem takeReturn_out (p : Source → Bool) (s : State) : (takeReturn p s).out = s.out := rfl
@[simp] theorem takeReturn_choices (p : Source → Bool) (s : State) : (takeReturn p s).choices = s.choices := rfl
@[simp] theorem takeReturn_arbiter_lists (p : Source → Bool) (s : State) :
    (takeReturn p s).arbiter.lists = s.arbiter.lists := rfl
@[simp] theorem takeReturn_arbiter_wheelPos (p : Source → Bool) (s : State) :
    (takeReturn p s).arbiter.wheelPos = s.arbiter.wheelPos := rfl
@[simp] theorem takeReturn_arbiter_roundPos (p : Source → Bool) (s : State) :
    (takeReturn p s).arbiter.roundPos = s.arbiter.roundPos := rfl
@[simp] theorem takeReturn_arbiter_lines (p : Source → Bool) (s : State) :
    (takeReturn p s).arbiter.lines = s.arbiter.lines := rfl
@[simp] theorem takeReturn_arbiter_port (p : Source → Bool) (s : State) :
    (takeReturn p s).arbiter.port = s.arbiter.port := rfl
@[simp] theorem takeReturn_arbiter_grantsHost (p : Source → Bool) (s : State) :
    (takeReturn p s).arbiter.grantsHost = s.arbiter.grantsHost := rfl
@[simp] theorem takeReturn_arbiter_grantsVoice (p : Source → Bool) (s : State) :
    (takeReturn p s).arbiter.grantsVoice = s.arbiter.grantsVoice := rfl
@[simp] theorem takeReturn_arbiter_grantsDirectory (p : Source → Bool) (s : State) :
    (takeReturn p s).arbiter.grantsDirectory = s.arbiter.grantsDirectory := rfl
@[simp] theorem takeReturn_arbiter_grantsRating (p : Source → Bool) (s : State) :
    (takeReturn p s).arbiter.grantsRating = s.arbiter.grantsRating := rfl
@[simp] theorem takeReturn_arbiter_grantsLamp (p : Source → Bool) (s : State) :
    (takeReturn p s).arbiter.grantsLamp = s.arbiter.grantsLamp := rfl
@[simp] theorem takeReturn_arbiter_grantsWheel (p : Source → Bool) (s : State) :
    (takeReturn p s).arbiter.grantsWheel = s.arbiter.grantsWheel := rfl
@[simp] theorem takeReturn_arbiter_grantsPriority (p : Source → Bool) (s : State) :
    (takeReturn p s).arbiter.grantsPriority = s.arbiter.grantsPriority := rfl
@[simp] theorem takeReturn_arbiter_grantsRound (p : Source → Bool) (s : State) :
    (takeReturn p s).arbiter.grantsRound = s.arbiter.grantsRound := rfl
@[simp] theorem takeReturn_arbiter_passedOver (p : Source → Bool) (s : State) :
    (takeReturn p s).arbiter.passedOver = s.arbiter.passedOver := rfl
@[simp] theorem takeReturn_arbiter_written (p : Source → Bool) (s : State) :
    (takeReturn p s).arbiter.written = s.arbiter.written := rfl
@[simp] theorem takeReturn_channel (p : Source → Bool) (s : State) : (takeReturn p s).channel = s.channel := rfl
@[simp] theorem takeReturn_message (p : Source → Bool) (s : State) : (takeReturn p s).message = s.message := rfl
@[simp] theorem takeReturn_mailbox (p : Source → Bool) (s : State) : (takeReturn p s).mailbox = s.mailbox := rfl
@[simp] theorem takeReturn_trunk (p : Source → Bool) (s : State) : (takeReturn p s).trunk = s.trunk := rfl
@[simp] theorem takeReturn_folios (p : Source → Bool) (s : State) : (takeReturn p s).folios = s.folios := rfl
@[simp] theorem takeReturn_lampOf (p : Source → Bool) (s : State) : (takeReturn p s).lampOf = s.lampOf := rfl
@[simp] theorem takeReturn_card (p : Source → Bool) (s : State) : (takeReturn p s).card = s.card := rfl
@[simp] theorem takeReturn_roomShadow (p : Source → Bool) (s : State) :
    (takeReturn p s).roomShadow = s.roomShadow := rfl
@[simp] theorem takeReturn_trunkShadow (p : Source → Bool) (s : State) :
    (takeReturn p s).trunkShadow = s.trunkShadow := rfl
@[simp] theorem takeReturn_tariffShadow (p : Source → Bool) (s : State) :
    (takeReturn p s).tariffShadow = s.tariffShadow := rfl
@[simp] theorem takeReturn_profile (p : Source → Bool) (s : State) : (takeReturn p s).profile = s.profile := rfl
@[simp] theorem takeReturn_roomCount (p : Source → Bool) (s : State) : (takeReturn p s).roomCount = s.roomCount := rfl
@[simp] theorem takeReturn_stamp (p : Source → Bool) (s : State) : (takeReturn p s).stamp = s.stamp := rfl
@[simp] theorem takeReturn_active (p : Source → Bool) (s : State) : (takeReturn p s).active = s.active := rfl

end Sys2Proof.Machine
end

