-- ==== Sys2Proof/Laws/Leaves.lean ====
section
/-! SUPPORT. A host write leaves, said once: what it hands over, and which bytes of memory its leaving changes. -/

namespace Sys2Proof.Machine

theorem checkIn_base (r : Nat) (s : State) : (checkIn r s).base = s.base := by
  unfold checkIn; dsimp only; simp

theorem checkoutMessages_base (r : Nat) (s : State) : (checkoutMessages r s).base = s.base := by
  unfold checkoutMessages
  rw [checkoutChannels_base, setList_base]
  exact foldl_keeps State.base _ (fun t i => releaseMessage_base i .silent t) _ s

theorem checkOut_base (r : Nat) (s : State) : (checkOut r s).base = s.base := by
  unfold checkOut checkoutFolios
  rw [clearDesk_base, workOutBarred_base, closeFolio_base, checkoutMessages_base]

theorem statusChange_base (r : Nat) (old new : Shadow) (s : State) : (statusChange r old new s).base = s.base := by
  unfold statusChange
  split
  · exact checkIn_base r s
  · split
    · exact checkOut_base r s
    · rfl

theorem limitChange_base (r : Nat) (old new : Shadow) (s : State) : (limitChange r old new s).base = s.base := by
  unfold limitChange
  split
  · rfl
  · exact workOutBarred_base ..

theorem lampChange_base (r : Nat) (old new : Shadow) (s : State) : (lampChange r old new s).base = s.base := by
  unfold lampChange
  split
  · rfl
  · rw [markLamp_base, recomputeLamp_base]

theorem handChanges_base (r : Nat) (old new : Shadow) (s : State) : (handChanges r old new s).base = s.base := by
  unfold handChanges
  rw [lampChange_base, limitChange_base, statusChange_base]

theorem slotWritten_outer (i : Nat) (v : Byte) (s : State) : (slotWritten i v s).outer = s.outer := by
  unfold slotWritten ringError notify
  split
  · split <;> rfl
  · split <;> rfl

/-- No observation changes what is outside the part's own state (R157). -/
theorem observed_outer (o : Observation) (s : State) : (observed o s).outer = s.outer := by
  cases o with
  | activation v =>
    show (activationWritten v s).outer = _
    unfold activationWritten
    dsimp only
    (repeat' split) <;> rfl
  | room r es =>
    show (roomWritten r es s).outer = _
    unfold roomWritten
    dsimp only
    split
    · rfl
    · split
      · exact (State.outer_of_base (handChanges_base ..)).trans rfl
      · rfl
  | trunk k es =>
    show (trunkEntryWritten k es s).outer = _
    unfold trunkEntryWritten
    dsimp only
    split
    · rfl
    · split
      · exact (State.outer_of_base (trunkWritten_base ..)).trans rfl
      · rfl
  | tariff i es =>
    show (tariffWritten i es s).outer = _
    unfold tariffWritten
    dsimp only
    split <;> rfl
  | slot i v => exact slotWritten_outer i v s
  | clearOverflow => rfl
  | consumer v =>
    show (consumerWritten v s).outer = _
    unfold consumerWritten
    split <;> rfl

theorem observations_outer (obs : List Observation) (s : State) :
    (obs.foldl (fun t o => observed o t) s).outer = s.outer :=
  foldl_keeps State.outer _ (fun t o => observed_outer o t) obs s

theorem guardWrite_outer (g : List (Nat × Nat)) (n : Nat) (s : State) : (guardWrite g n s).outer = s.outer := by
  unfold guardWrite
  split
  · rfl
  · unfold notify
    split <;> rfl

/-- The bursts that a write leaves with are granted host bursts (R151). -/
theorem leaving_burst {s : State} {req : HostRequest} {w : HeadWork} (h : s.leaving = some (req, w)) :
    (w.phase = .ready ∧ s.leaveBurst = none ∧ s.atLeave = s) ∨
    ∃ d r, s.decision = some d ∧ s.granted = some r ∧ s.leaveBurst = some r ∧ r.write = true ∧ r.source = .hostPart ∧
      w.phase = .burst ∧ s.atLeave = carry r (settleGrant d s) := by
  unfold State.leaving at h
  split at h
  · next rq w' h1 h2 =>
    have hb (p : HeadPhase) : (s.host.head.any fun w => decide (w.phase = p)) = decide (w'.phase = p) := by
      rw [h2]; rfl
    split at h
    · cases h
    · split at h
      · next hc =>
        cases h
        refine .inl ⟨hc.1, ?_, ?_⟩
        · unfold State.leaveBurst; rw [hb, hc.1]; rfl
        · unfold State.atLeave; rw [hb, hc.1]; rfl
      · split at h
        · next hc =>
          cases h
          obtain ⟨hp, -, hg, -⟩ := hc
          obtain ⟨r, hr, hw⟩ : ∃ r, s.granted = some r ∧ (r.write && decide (r.source = .hostPart)) = true := by
            cases hr : s.granted with
            | none => rw [hr] at hg; cases hg
            | some r => rw [hr] at hg; exact ⟨r, rfl, hg⟩
          obtain ⟨d, hd⟩ : ∃ d, s.decision = some d := by
            unfold State.granted at hr
            cases hd : s.decision with
            | none => rw [hd] at hr; cases hr
            | some d => exact ⟨d, rfl⟩
          simp only [Bool.and_eq_true, decide_eq_true_eq] at hw
          refine .inr ⟨d, r, hd, hr, ?_, hw.1, hw.2, hp, ?_⟩
          · unfold State.leaveBurst; rw [hb, hp]; exact hr
          · unfold State.atLeave; rw [hb, hp, hd, hr]; rfl
        · cases h
  · cases h

/-- Leaving changes memory in the burst it leaves with, and nowhere else (R151, R165). -/
theorem atLeave_memory {s t : State} {req : HostRequest} {w : HeadWork} (h : s.leaving = some (req, w))
    (ht : t.mem = s.atLeave.mem) : leavesMemory s t := by
  intro a ha
  rw [ht]
  rcases leaving_burst h with ⟨-, -, e⟩ | ⟨d, r, -, -, hb, hw, hs, -, e⟩
  · rw [e]
  · rw [e]
    unfold carry
    rw [hw]
    have hl : (settleGrant d s).grantLanes r = r.lanes := by unfold State.grantLanes; rw [hs]
    simp only [if_true, hl]
    exact readByte_writeLanes_outside _ _ _ _ fun k hk => ha r hb k hk

/-- The state of a leaving write but for memory and the arbiter (R151). -/
theorem atLeave_rest {s : State} {req : HostRequest} {w : HeadWork} (h : s.leaving = some (req, w)) :
    ∃ m a, s.atLeave = { s with mem := m, arbiter := a } := by
  rcases leaving_burst h with ⟨-, -, e⟩ | ⟨d, r, -, -, -, hw, -, -, e⟩
  · exact ⟨s.mem, s.arbiter, by rw [e]⟩
  · refine ⟨s.atLeave.mem, s.atLeave.arbiter, ?_⟩
    rw [e]
    unfold carry settleGrant
    rw [hw]
    rfl

/-- All that the leaving of a write does (R151, R157). -/
theorem leaveNow_eq {s : State} {req : HostRequest} {w : HeadWork} (h : s.leaving = some (req, w)) :
    leaveNow s = (s.atLeave.observations w.mode req).foldl (fun t o => observed o t)
      (guardWrite (s.atLeave.guardedBytes w.mode req) (s.atLeave.maskedCount w.mode req) s.leftHost) := by
  unfold leaveNow
  rw [h]
  rfl

theorem leaveNow_mem {s : State} {req : HostRequest} {w : HeadWork} (h : s.leaving = some (req, w)) :
    (leaveNow s).mem = s.atLeave.mem := by
  rw [leaveNow_eq h]
  have := observations_outer (s.atLeave.observations w.mode req)
    (guardWrite (s.atLeave.guardedBytes w.mode req) (s.atLeave.maskedCount w.mode req) s.leftHost)
  rw [guardWrite_outer] at this
  exact congrArg (fun x => x.2.2.2.1) this

/-- A row of the table that is the leaving of a write with a behaviour: the whole of what it answers (R151, R157). -/
theorem writeLeaves_of {c : Instr} {m : WriteMark} {s u : State} {req : HostRequest} {w : HeadWork} (ho : s.out = {})
    (hc : exec c s = stepIf (s.leavesWith m) leaveNow s) (h : s.leaving = some (req, w))
    (hm : m ∈ writeMarks s.atLeave w.mode req) (hu : leaveNow s = u) : WriteLeaves c s u := by
  have hl : s.leavesWith m = true := by
    unfold State.leavesWith State.leavingMarks
    rw [h]
    simpa using hm
  have he := taken_endsAs' ho hu
  refine ⟨_, hc.trans (stepIf_of _ _ hl), he, atLeave_memory h ?_⟩
  rw [he.mem, ← hu, leaveNow_mem h]

/-- The same for a write that carries one observation, with nothing guarded. -/
theorem writeLeaves_one {c : Instr} {m : WriteMark} {s : State} {o : Observation} (ho : s.out = {})
    (hc : exec c s = stepIf (s.leavesWith m) leaveNow s) (h : s.leavesCarrying [o])
    (hm : m ∈ observationMarks s.atLeave o) : WriteLeaves c s (observed o s.leftHost) := by
  obtain ⟨req, w, hl, h1, h2⟩ := h
  refine writeLeaves_of ho hc hl ?_ ?_
  · unfold writeMarks
    rw [h1, h2]
    simpa using hm
  · rw [leaveNow_eq hl, h1, h2]
    rfl

end Sys2Proof.Machine
end

