-- ==== Sys2Proof/Laws/Pattern.lean ====
section
/-! SUPPORT. What the operations on a room's lamp do (R91, R104): the room's pattern is that of R90, every other room's
lamp is as it was, and nothing outside the lamp engine changes. -/

namespace Sys2Proof.Machine

/-- The state without the lamp engine and the outbox. -/
def State.unlit (s : State) : State := { s with lamp := {}, out := {} }

theorem unlit_markLamp (r : Nat) (s : State) : (markLamp r s).unlit = s.unlit := rfl

theorem mem_addMark {l : List Nat} {k j : Nat} : j ∈ addMark l k ↔ j = k ∨ j ∈ l := by
  induction l with
  | nil => simp [addMark]
  | cons a t ih =>
    unfold addMark
    (repeat' split) <;> simp_all [or_left_comm]

theorem patternOf_setLamp (s : State) (r q : Nat) (l : Lamp) :
    (s.setLamp r l).patternOf q =
      effectivePattern (if q = r then l else s.lampOf q).override (s.roomShadow q).lampPresent (s.occupied q)
        (s.mailbox q) := by
  unfold State.patternOf
  simp only [State.setLamp_lampOf]
  rfl

theorem patternOf_markLamp (s : State) (r q : Nat) : (markLamp r s).patternOf q = s.patternOf q := rfl

/-- Computing a room's pattern again, the whole of it (R91). -/
theorem recomputeLamp_spec (r : Nat) (s : State) :
    (∀ q, q ≠ r → (recomputeLamp r s).lampOf q = s.lampOf q) ∧
    (recomputeLamp r s).lampOf r =
      (if s.patternOf r = (s.lampOf r).pattern then s.lampOf r
       else { s.lampOf r with
         pattern := s.patternOf r
         phase := phaseFor ((s.card (r / 64)).leave (s.lampOf r).pattern (s.lampOf r).phase) (s.patternOf r) }) ∧
    (∀ k ∈ s.lamp.marks, k ∈ (recomputeLamp r s).lamp.marks) ∧
    (s.patternOf r ≠ (s.lampOf r).pattern → r ∈ (recomputeLamp r s).lamp.marks) ∧
    (recomputeLamp r s).unlit = s.unlit := by
  unfold recomputeLamp
  dsimp only
  split
  · next h => simp [h]
  · next h =>
    refine ⟨fun q hq => by simp [hq], by simp, fun k hk => ?_, fun _ => ?_, by simp [State.unlit]⟩
    · simp [mem_addMark, hk]
    · simp [mem_addMark]

theorem recomputeLamp_pattern (r : Nat) (s : State) : ((recomputeLamp r s).lampOf r).pattern = s.patternOf r := by
  rw [(recomputeLamp_spec r s).2.1]
  split
  · next h => exact h.symm
  · rfl

theorem recomputeLamp_kept (r : Nat) (s : State) :
    ((recomputeLamp r s).lampOf r).override = (s.lampOf r).override ∧
    ((recomputeLamp r s).lampOf r).latch = (s.lampOf r).latch ∧
    ((recomputeLamp r s).lampOf r).mismatch = (s.lampOf r).mismatch := by
  rw [(recomputeLamp_spec r s).2.1]
  split <;> exact ⟨rfl, rfl, rfl⟩

/-- What the pattern of a room is made of is kept by what only the lamp engine sees. -/
theorem patternOf_congr {s t : State} (h : t.unlit = s.unlit) (r : Nat)
    (ho : (t.lampOf r).override = (s.lampOf r).override) : t.patternOf r = s.patternOf r := by
  have h1 : t.unlit.roomShadow r = s.unlit.roomShadow r := by rw [h]
  have h2 : t.unlit.occupied r = s.unlit.occupied r := by rw [h]
  have h3 : t.unlit.mailbox r = s.unlit.mailbox r := by rw [h]
  change t.roomShadow r = s.roomShadow r at h1
  change t.occupied r = s.occupied r at h2
  change t.mailbox r = s.mailbox r at h3
  unfold State.patternOf
  rw [h1, h2, h3, ho]

/-- Setting an override, the whole of it (R104). -/
theorem setOverride_spec (o : Override) (r : Nat) (s : State) :
    (∀ q, q ≠ r → (setOverride o r s).lampOf q = s.lampOf q) ∧
    ((setOverride o r s).lampOf r).override = o ∧
    ((setOverride o r s).lampOf r).pattern =
      effectivePattern o (s.roomShadow r).lampPresent (s.occupied r) (s.mailbox r) ∧
    ((setOverride o r s).lampOf r).latch = (s.lampOf r).latch ∧
    ((setOverride o r s).lampOf r).mismatch = (s.lampOf r).mismatch ∧
    (∀ k ∈ s.lamp.marks, k ∈ (setOverride o r s).lamp.marks) ∧
    ((s.lampOf r).override ≠ o → r ∈ (setOverride o r s).lamp.marks) ∧
    (setOverride o r s).unlit = s.unlit := by
  unfold setOverride
  dsimp only
  split
  · next h =>
    obtain ⟨a1, a2, a3, a4, a5⟩ := recomputeLamp_spec r s
    obtain ⟨b1, b2, b3⟩ := recomputeLamp_kept r s
    refine ⟨a1, b1.trans h, ?_, b2, b3, a3, fun hn => absurd h hn, a5⟩
    rw [recomputeLamp_pattern, ← h]
    rfl
  · next h =>
    obtain ⟨a1, a2, a3, a4, a5⟩ := recomputeLamp_spec r (markLamp r (s.setLamp r { s.lampOf r with override := o }))
    obtain ⟨b1, b2, b3⟩ := recomputeLamp_kept r (markLamp r (s.setLamp r { s.lampOf r with override := o }))
    refine ⟨fun q hq => ?_, ?_, ?_, ?_, ?_, fun k hk => a3 k (by simp [mem_addMark, hk]),
      fun _ => a3 r (by simp [mem_addMark]), a5.trans (by simp [State.unlit])⟩
    · rw [a1 q hq]; simp [hq]
    · rw [b1]; simp
    · rw [recomputeLamp_pattern, patternOf_markLamp, patternOf_setLamp]; simp
    · rw [b2]; simp
    · rw [b3]; simp

/-- Clearing a DESK override, the whole of it (R77, R79). -/
theorem clearDesk_spec (r : Nat) (s : State) :
    (∀ q, q ≠ r → (clearDesk r s).lampOf q = s.lampOf q) ∧
    ((clearDesk r s).lampOf r).override =
      (if (s.lampOf r).override = .desk then .none else (s.lampOf r).override) ∧
    ((clearDesk r s).lampOf r).pattern =
      effectivePattern (if (s.lampOf r).override = .desk then .none else (s.lampOf r).override)
        (s.roomShadow r).lampPresent (s.occupied r) (s.mailbox r) ∧
    r ∈ (clearDesk r s).lamp.marks ∧
    (clearDesk r s).unlit = s.unlit := by
  unfold clearDesk
  dsimp only
  split
  · next h =>
    obtain ⟨a1, a2, a3, a4, a5⟩ := recomputeLamp_spec r (s.setLamp r { s.lampOf r with override := .none })
    obtain ⟨b1, b2, b3⟩ := recomputeLamp_kept r (s.setLamp r { s.lampOf r with override := .none })
    refine ⟨fun q hq => ?_, ?_, ?_, by simp [mem_addMark], ?_⟩
    · rw [markLamp_lampOf, a1 q hq]; simp [hq]
    · rw [markLamp_lampOf, b1]; simp
    · rw [markLamp_lampOf, recomputeLamp_pattern, patternOf_setLamp]; simp
    · rw [unlit_markLamp, a5]; simp [State.unlit]
  · next h =>
    obtain ⟨a1, a2, a3, a4, a5⟩ := recomputeLamp_spec r s
    obtain ⟨b1, b2, b3⟩ := recomputeLamp_kept r s
    refine ⟨fun q hq => ?_, ?_, ?_, by simp [mem_addMark], ?_⟩
    · rw [markLamp_lampOf, a1 q hq]
    · rw [markLamp_lampOf, b1]
    · rw [markLamp_lampOf, recomputeLamp_pattern]; rfl
    · rw [unlit_markLamp, a5]

end Sys2Proof.Machine
end

