-- ==== Sys2Proof/Laws/KeepLamp.lean ====
section
/-! SUPPORT. Which operations leave the lamp engine as it was. -/

namespace Sys2Proof.Machine

@[simp] theorem notify_lamp (who : Requester) (k : NoticeKind) (room detail1 detail2 : Nat) (s : State) :
    (notify who k room detail1 detail2 s).lamp = s.lamp := by
  unfold notify
  split <;> simp

@[simp] theorem recordWrite_lamp (i : Nat) (s : State) :
    (recordWrite i s).lamp = s.lamp := by
  unfold recordWrite
  split <;> simp

@[simp] theorem updateMessage_lamp (i : Nat) (m : Message) (s : State) :
    (updateMessage i m s).lamp = s.lamp := by simp [updateMessage]

@[simp] theorem freeRecord_lamp (i : Nat) (s : State) :
    (freeRecord i s).lamp = s.lamp := by
  unfold freeRecord
  dsimp only
  (repeat' split) <;> simp (maxDischargeDepth := 20)

@[simp] theorem relink_lamp (list : List Nat) (i : Nat) (s : State) :
    (relink list i s).lamp = s.lamp := by
  unfold relink
  dsimp only
  (repeat' split) <;> simp (maxDischargeDepth := 20)

@[simp] theorem storeLowAfterTake_lamp (n : Nat) (s : State) :
    (storeLowAfterTake n s).lamp = s.lamp := by
  unfold storeLowAfterTake
  dsimp only
  (repeat' split) <;> simp (maxDischargeDepth := 20)

@[simp] theorem evalTake_lamp (i : Nat) (s : State) : (evalTake i s).2.lamp = s.lamp := by
  unfold evalTake
  dsimp only
  (repeat' split) <;> simp

@[simp] theorem releaseBlock_lamp (b : Nat) (s : State) :
    (releaseBlock b s).lamp = s.lamp := by
  unfold releaseBlock
  dsimp only
  (repeat' split) <;> simp (maxDischargeDepth := 20)

@[simp] theorem raiseWalk_lamp (w : Walk) (s : State) :
    (raiseWalk w s).lamp = s.lamp := rfl

@[simp] theorem startWalk_lamp (s : State) :
    (startWalk s).lamp = s.lamp := by
  unfold startWalk
  split <;> simp

@[simp] theorem queueChain_lamp (i : Nat) (cause : Cause) (s : State) :
    (queueChain i cause s).lamp = s.lamp := by
  unfold queueChain
  dsimp only
  (repeat' split) <;> simp (maxDischargeDepth := 20)

@[simp] theorem joinReleaseLine_lamp (who : Waiter) (n : Nat) (s : State) :
    (joinReleaseLine who n s).lamp = s.lamp := rfl

@[simp] theorem raiseExecuting_lamp (slot : Nat) (copy : List Byte) (s : State) :
    (raiseExecuting slot copy s).lamp = s.lamp := rfl

@[simp] theorem completeOrder_lamp (slot : Nat) (status : Status) (deferred : Bool) (res : List Byte) (s : State) :
    (completeOrder slot status deferred res s).lamp = s.lamp := by
  unfold completeOrder
  split <;> simp

@[simp] theorem completeFor_lamp (order : Option Nat) (status : Status) (res : List Byte) (s : State) :
    (completeFor order status res s).lamp = s.lamp := by
  unfold completeFor
  split <;> simp

@[simp] theorem orderStep_lamp (slot : Nat) (s : State) : (orderStep slot s).lamp = s.lamp := by
  unfold orderStep
  split
  · rfl
  · split <;> simp

@[simp] theorem startFilling_lamp (ch : Nat) (second : Bool) (b : Nat) (s : State) :
    (startFilling ch second b s).lamp = s.lamp := by
  unfold startFilling
  dsimp only
  (repeat' split) <;> simp (maxDischargeDepth := 20)

@[simp] theorem writeBlock_lamp (ch : Nat) (second : Bool) (next : Nat) (s : State) :
    (writeBlock ch second next s).lamp = s.lamp := rfl

@[simp] theorem updateLength_lamp (ch : Nat) (s : State) :
    (updateLength ch s).lamp = s.lamp := by simp [updateLength]

@[simp] theorem noticeStopped_lamp (ch : Nat) (reason : StopReason) (s : State) :
    (noticeStopped ch reason s).lamp = s.lamp := by simp [noticeStopped]

@[simp] theorem stopRecording_lamp (ch : Nat) (reason : StopReason) (s : State) :
    (stopRecording ch reason s).lamp = s.lamp := by simp [stopRecording]

@[simp] theorem answerRecording_lamp (ch : Nat) (a : TakeAnswer) (s : State) :
    (answerRecording ch a s).lamp = s.lamp := by
  unfold answerRecording
  dsimp only
  (repeat' split) <;> simp (maxDischargeDepth := 20)

@[simp] theorem withdrawTake_lamp (ch : Nat) (s : State) :
    (withdrawTake ch s).lamp = s.lamp := rfl

@[simp] theorem codeSample_lamp (ch : Nat) (second : Bool) (x : Int) (s : State) :
    (codeSample ch second x s).lamp = s.lamp := rfl

@[simp] theorem refuseSample_lamp (ch : Nat) (s : State) :
    (refuseSample ch s).lamp = s.lamp := rfl

@[simp] theorem dropSample_lamp (ch : Nat) (s : State) :
    (dropSample ch s).lamp = s.lamp := rfl

@[simp] theorem freeChannel_lamp (ch : Nat) (st : Status) (res : List Byte) (s : State) :
    (freeChannel ch st res s).lamp = s.lamp := by simp [freeChannel]

@[simp] theorem channelReleased_lamp (ch : Nat) (s : State) :
    (channelReleased ch s).lamp = s.lamp := by
  unfold channelReleased
  dsimp only
  (repeat' split) <;> simp (maxDischargeDepth := 20)

@[simp] theorem patchLast_lamp (ch : Nat) (s : State) :
    (patchLast ch s).lamp = s.lamp := by
  unfold patchLast
  dsimp only
  (repeat' split) <;> simp (maxDischargeDepth := 20)

@[simp] theorem fetchBlock_lamp (ch : Nat) (second : Bool) (b : Nat) (s : State) :
    (fetchBlock ch second b s).lamp = s.lamp := rfl

@[simp] theorem prefetch_lamp (ch : Nat) (s : State) :
    (prefetch ch s).lamp = s.lamp := by
  unfold prefetch
  dsimp only
  (repeat' split) <;> simp (maxDischargeDepth := 20)

@[simp] theorem yieldSample_lamp (ch : Nat) (s : State) : (yieldSample ch s).2.lamp = s.lamp := by
  simp [yieldSample]

@[simp] theorem moveBuffer_lamp (ch : Nat) (s : State) :
    (moveBuffer ch s).lamp = s.lamp := by simp [moveBuffer]

@[simp] theorem playStep_lamp (ch : Nat) (s : State) : (playStep ch s).2.lamp = s.lamp := by
  unfold playStep
  dsimp only
  (repeat' split) <;> simp

@[simp] theorem meetChannel_lamp (ch : Nat) (seen : List Nat) (s : State) :
    (meetChannel ch seen s).lamp = s.lamp := by
  unfold meetChannel
  dsimp only
  (repeat' split) <;> simp (maxDischargeDepth := 20)

@[simp] theorem openDone_lamp (ch : Nat) (ended : Bool) (s : State) :
    (openDone ch ended s).lamp = s.lamp := by simp [openDone]

@[simp] theorem openEnded_lamp (ch : Nat) (s : State) :
    (openEnded ch s).lamp = s.lamp := by simp [openEnded]

@[simp] theorem openArrived_lamp (ch : Nat) (second : Bool) (s : State) :
    (openArrived ch second s).lamp = s.lamp := by
  unfold openArrived
  dsimp only
  (repeat' split) <;> simp (maxDischargeDepth := 20)

@[simp] theorem raiseOffsetRead_lamp (ch b : Nat) (s : State) :
    (raiseOffsetRead ch b s).lamp = s.lamp := rfl

@[simp] theorem walkStep_lamp (ch : Nat) (header : List Byte) (s : State) :
    (walkStep ch header s).lamp = s.lamp := by
  unfold walkStep
  dsimp only
  (repeat' split) <;> simp (maxDischargeDepth := 20)

@[simp] theorem fetchArrived_lamp (ch : Nat) (second : Bool) (data : List Byte) (s : State) :
    (fetchArrived ch second data s).lamp = s.lamp := by
  unfold fetchArrived
  dsimp only
  (repeat' split) <;> simp (maxDischargeDepth := 20)

@[simp] theorem workOutBarred_lamp (r : Nat) (total : Int) (s : State) :
    (workOutBarred r total s).lamp = s.lamp := by
  unfold workOutBarred
  dsimp only
  (repeat' split) <;> simp (maxDischargeDepth := 20)

@[simp] theorem settleBarred_lamp (r : Nat) (s : State) :
    (settleBarred r s).lamp = s.lamp := rfl

@[simp] theorem raiseFolioWrite_lamp (s : State) :
    (raiseFolioWrite s).lamp = s.lamp := by
  unfold raiseFolioWrite
  dsimp only
  (repeat' split) <;> simp (maxDischargeDepth := 20)

@[simp] theorem queueFolioWrite_lamp (w : FolioWrite) (s : State) :
    (queueFolioWrite w s).lamp = s.lamp := by simp [queueFolioWrite]

@[simp] theorem appendCharge_lamp (r : Nat) (p : Place) (f : Folio) (c : Charge) (order : Option Nat) (s : State) :
    (appendCharge r p f c order s).2.lamp = s.lamp := by
  unfold appendCharge
  dsimp only
  (repeat' split) <;> simp

@[simp] theorem unbilled_lamp (c : Charge) (s : State) :
    (unbilled c s).lamp = s.lamp := by simp [unbilled]

@[simp] theorem lateCharge_lamp (f : Folio) (c : Charge) (s : State) :
    (lateCharge f c s).lamp = s.lamp := by simp [lateCharge]

@[simp] theorem handOver_lamp (c : Charge) (s : State) : (handOver c s).lamp = s.lamp := by
  have hu := unbilled_lamp c s
  unfold handOver
  split
  · split
    · split
      · exact appendCharge_lamp _ _ _ _ _ _
      · split
        · split
          · exact lateCharge_lamp _ _ _
          · exact hu
        · exact hu
    · split
      · split
        · exact lateCharge_lamp _ _ _
        · exact hu
      · exact hu
  · exact hu

@[simp] theorem openFolio_lamp (r : Nat) (s : State) :
    (openFolio r s).lamp = s.lamp := rfl

@[simp] theorem returnRecords_lamp (f : Folio) (s : State) :
    (returnRecords f s).lamp = s.lamp := rfl

@[simp] theorem discardClosed_lamp (r : Nat) (s : State) :
    (discardClosed r s).lamp = s.lamp := by
  unfold discardClosed
  split <;> simp

@[simp] theorem closeFolio_lamp (r : Nat) (s : State) :
    (closeFolio r s).lamp = s.lamp := by
  unfold closeFolio
  dsimp only
  (repeat' split) <;> simp (maxDischargeDepth := 20)

@[simp] theorem trunkSequence_lamp (t anomaly : Nat) (written : Byte) (s : State) :
    (trunkSequence t anomaly written s).lamp = s.lamp := by simp [trunkSequence]

@[simp] theorem seizeTrunk_lamp (t : Nat) (s : State) :
    (seizeTrunk t s).lamp = s.lamp := rfl

@[simp] theorem captureCall_lamp (t : Nat) (s : State) :
    (captureCall t s).lamp = s.lamp := rfl

@[simp] theorem countAnswer_lamp (t : Nat) (s : State) :
    (countAnswer t s).lamp = s.lamp := by
  unfold countAnswer
  split <;> simp

@[simp] theorem missedSeize_lamp (t : Nat) (s : State) :
    (missedSeize t s).lamp = s.lamp := by simp [missedSeize]

@[simp] theorem idleTrunk_lamp (t : Nat) (s : State) :
    (idleTrunk t s).lamp = s.lamp := rfl

@[simp] theorem unansweredClear_lamp (t : Nat) (s : State) :
    (unansweredClear t s).lamp = s.lamp := by
  unfold unansweredClear
  dsimp only
  (repeat' split) <;> simp (maxDischargeDepth := 20)

@[simp] theorem noticeUnrated_lamp (c : Charge) (s : State) :
    (noticeUnrated c s).lamp = s.lamp := by simp [noticeUnrated]

@[simp] theorem rateCall_lamp (t : Nat) (implicit : Bool) (s : State) :
    (rateCall t implicit s).lamp = s.lamp := by
  unfold rateCall
  dsimp only
  (repeat' split) <;> simp (maxDischargeDepth := 20)

@[simp] theorem answeredClear_lamp (t : Nat) (implicit : Bool) (s : State) :
    (answeredClear t implicit s).lamp = s.lamp := by
  unfold answeredClear
  dsimp only
  (repeat' split) <;> simp (maxDischargeDepth := 20)

@[simp] theorem stepTrunk_lamp (t : Nat) (w : WrittenState) (s : State) :
    (stepTrunk t w s).lamp = s.lamp := by
  unfold stepTrunk
  split <;> simp

@[simp] theorem trunkWritten_lamp (t : Nat) (old new : Byte) (s : State) :
    (trunkWritten t old new s).lamp = s.lamp := by
  unfold trunkWritten
  dsimp only
  (repeat' split) <;> simp (maxDischargeDepth := 20)

@[simp] theorem settleTrunk_lamp (t : Nat) (s : State) :
    (settleTrunk t s).lamp = s.lamp := by
  unfold settleTrunk
  dsimp only
  (repeat' split) <;> simp (maxDischargeDepth := 20)

@[simp] theorem writeLinkHeader_lamp (s : State) :
    (writeLinkHeader s).lamp = s.lamp := rfl

@[simp] theorem writeLinkEntry_lamp (k : Nat) (s : State) :
    (writeLinkEntry k s).lamp = s.lamp := rfl

@[simp] theorem createMessage_lamp (c : List Byte) (i : Nat) (s : State) :
    (createMessage c i s).lamp = s.lamp := by simp [createMessage]

@[simp] theorem enterClosing_lamp (slot ch : Nat) (how : Closing) (s : State) :
    (enterClosing slot ch how s).lamp = s.lamp := by
  unfold enterClosing
  dsimp only
  (repeat' split) <;> simp (maxDischargeDepth := 20)

@[simp] theorem claimPlay_lamp (slot ch i offset : Nat) (s : State) :
    (claimPlay slot ch i offset s).lamp = s.lamp := rfl

@[simp] theorem playOpenAct_lamp (slot : Nat) (c : List Byte) (s : State) :
    (playOpenAct slot c s).lamp = s.lamp := by
  unfold playOpenAct
  dsimp only
  (repeat' split) <;> simp (maxDischargeDepth := 20)

@[simp] theorem dropBuffers_lamp (ch : Nat) (s : State) :
    (dropBuffers ch s).lamp = s.lamp := rfl

@[simp] theorem holdOrder_lamp (slot left : Nat) (deferred : Bool) (res : List Byte) (s : State) :
    (holdOrder slot left deferred res s).lamp = s.lamp := rfl

@[simp] theorem folioAdjustAct_lamp (slot : Nat) (c : List Byte) (s : State) :
    (folioAdjustAct slot c s).lamp = s.lamp := by
  unfold folioAdjustAct
  dsimp only
  (repeat' split) <;> simp (maxDischargeDepth := 20)

@[simp] theorem folioReleaseAct_lamp (slot : Nat) (c : List Byte) (s : State) :
    (folioReleaseAct slot c s).lamp = s.lamp := by
  unfold folioReleaseAct
  dsimp only
  (repeat' split) <;> simp (maxDischargeDepth := 20)

@[simp] theorem clockSetAct_lamp (slot : Nat) (c : List Byte) (s : State) :
    (clockSetAct slot c s).lamp = s.lamp := by simp [clockSetAct]

@[simp] theorem renewFirst_lamp (n : Nat) (s : State) :
    (renewFirst n s).lamp = s.lamp := by
  unfold renewFirst
  split <;> simp

@[simp] theorem leaveReleaseLine_lamp (s : State) :
    (leaveReleaseLine s).lamp = s.lamp := rfl

@[simp] theorem startPop_lamp (s : State) :
    (startPop s).lamp = s.lamp := rfl

@[simp] theorem startPush_lamp (s : State) :
    (startPush s).lamp = s.lamp := by
  unfold startPush
  split <;> simp

@[simp] theorem reportRelease_lamp (cause : Cause) (s : State) :
    (reportRelease cause s).lamp = s.lamp := by
  unfold reportRelease
  split <;> simp

@[simp] theorem completeEntry_lamp (e : ReleaseEntry) (rest : List ReleaseEntry) (s : State) :
    (completeEntry e rest s).lamp = s.lamp := by simp [completeEntry]

end Sys2Proof.Machine
end

