-- ==== Sys2Proof/Laws/KeepRating.lean ====
section
/-! SUPPORT. Which operations leave the rating engine as it was. -/

namespace Sys2Proof.Machine

@[simp] theorem notify_rating (who : Requester) (k : NoticeKind) (room detail1 detail2 : Nat) (s : State) :
    (notify who k room detail1 detail2 s).rating = s.rating := by
  unfold notify
  split <;> simp

@[simp] theorem recomputeLamp_rating (r : Nat) (s : State) :
    (recomputeLamp r s).rating = s.rating := by
  unfold recomputeLamp
  dsimp only
  (repeat' split) <;> simp (maxDischargeDepth := 20)

@[simp] theorem setOverride_rating (o : Override) (r : Nat) (s : State) :
    (setOverride o r s).rating = s.rating := by
  unfold setOverride
  dsimp only
  (repeat' split) <;> simp (maxDischargeDepth := 20)

@[simp] theorem clearDesk_rating (r : Nat) (s : State) :
    (clearDesk r s).rating = s.rating := by
  unfold clearDesk
  dsimp only
  (repeat' split) <;> simp (maxDischargeDepth := 20)

@[simp] theorem recordWrite_rating (i : Nat) (s : State) :
    (recordWrite i s).rating = s.rating := by
  unfold recordWrite
  split <;> simp

@[simp] theorem updateMessage_rating (i : Nat) (m : Message) (s : State) :
    (updateMessage i m s).rating = s.rating := by simp [updateMessage]

@[simp] theorem freeRecord_rating (i : Nat) (s : State) :
    (freeRecord i s).rating = s.rating := by
  unfold freeRecord
  dsimp only
  (repeat' split) <;> simp (maxDischargeDepth := 20)

@[simp] theorem relink_rating (list : List Nat) (i : Nat) (s : State) :
    (relink list i s).rating = s.rating := by
  unfold relink
  dsimp only
  (repeat' split) <;> simp (maxDischargeDepth := 20)

@[simp] theorem setList_rating (r : Nat) (list : List Nat) (s : State) : (setList r list s).rating = s.rating := by
  unfold setList
  dsimp only
  have h := foldl_keeps State.rating (fun t i => relink list i t) (fun t i => relink_rating list i t)
    ((s.mailbox r).list ++ list) s
  split
  · rw [markMail_rating, State.setMailbox_rating, h]
  · rw [recomputeLamp_rating, markMail_rating, State.setMailbox_rating, h]

@[simp] theorem moveMessage_rating (i : Nat) (st : MessageState) (s : State) :
    (moveMessage i st s).rating = s.rating := by simp [moveMessage]

@[simp] theorem storeLowAfterTake_rating (n : Nat) (s : State) :
    (storeLowAfterTake n s).rating = s.rating := by
  unfold storeLowAfterTake
  dsimp only
  (repeat' split) <;> simp (maxDischargeDepth := 20)

@[simp] theorem evalTake_rating (i : Nat) (s : State) : (evalTake i s).2.rating = s.rating := by
  unfold evalTake
  dsimp only
  (repeat' split) <;> simp

@[simp] theorem releaseBlock_rating (b : Nat) (s : State) :
    (releaseBlock b s).rating = s.rating := by
  unfold releaseBlock
  dsimp only
  (repeat' split) <;> simp (maxDischargeDepth := 20)

@[simp] theorem raiseWalk_rating (w : Walk) (s : State) :
    (raiseWalk w s).rating = s.rating := rfl

@[simp] theorem startWalk_rating (s : State) :
    (startWalk s).rating = s.rating := by
  unfold startWalk
  split <;> simp

@[simp] theorem queueChain_rating (i : Nat) (cause : Cause) (s : State) :
    (queueChain i cause s).rating = s.rating := by
  unfold queueChain
  dsimp only
  (repeat' split) <;> simp (maxDischargeDepth := 20)

@[simp] theorem releaseMessage_rating (i : Nat) (cause : Cause) (s : State) :
    (releaseMessage i cause s).rating = s.rating := by
  unfold releaseMessage
  dsimp only
  (repeat' split) <;> simp (maxDischargeDepth := 20)

@[simp] theorem joinReleaseLine_rating (who : Waiter) (n : Nat) (s : State) :
    (joinReleaseLine who n s).rating = s.rating := rfl

@[simp] theorem raiseExecuting_rating (slot : Nat) (copy : List Byte) (s : State) :
    (raiseExecuting slot copy s).rating = s.rating := rfl

@[simp] theorem completeOrder_rating (slot : Nat) (status : Status) (deferred : Bool) (res : List Byte) (s : State) :
    (completeOrder slot status deferred res s).rating = s.rating := by
  unfold completeOrder
  split <;> simp

@[simp] theorem completeFor_rating (order : Option Nat) (status : Status) (res : List Byte) (s : State) :
    (completeFor order status res s).rating = s.rating := by
  unfold completeFor
  split <;> simp

@[simp] theorem orderStep_rating (slot : Nat) (s : State) : (orderStep slot s).rating = s.rating := by
  unfold orderStep
  split
  · rfl
  · split <;> simp

@[simp] theorem startFilling_rating (ch : Nat) (second : Bool) (b : Nat) (s : State) :
    (startFilling ch second b s).rating = s.rating := by
  unfold startFilling
  dsimp only
  (repeat' split) <;> simp (maxDischargeDepth := 20)

@[simp] theorem writeBlock_rating (ch : Nat) (second : Bool) (next : Nat) (s : State) :
    (writeBlock ch second next s).rating = s.rating := rfl

@[simp] theorem updateLength_rating (ch : Nat) (s : State) :
    (updateLength ch s).rating = s.rating := by simp [updateLength]

@[simp] theorem noticeStopped_rating (ch : Nat) (reason : StopReason) (s : State) :
    (noticeStopped ch reason s).rating = s.rating := by simp [noticeStopped]

@[simp] theorem stopRecording_rating (ch : Nat) (reason : StopReason) (s : State) :
    (stopRecording ch reason s).rating = s.rating := by simp [stopRecording]

@[simp] theorem answerOpening_rating (ch : Nat) (a : TakeAnswer) (s : State) :
    (answerOpening ch a s).rating = s.rating := by
  unfold answerOpening
  split <;> simp

@[simp] theorem answerRecording_rating (ch : Nat) (a : TakeAnswer) (s : State) :
    (answerRecording ch a s).rating = s.rating := by
  unfold answerRecording
  dsimp only
  (repeat' split) <;> simp (maxDischargeDepth := 20)

@[simp] theorem answerTake_rating (ch : Nat) (a : TakeAnswer) (s : State) :
    (answerTake ch a s).rating = s.rating := by
  unfold answerTake
  split <;> simp

@[simp] theorem requestTake_rating (ch : Nat) (s : State) :
    (requestTake ch s).rating = s.rating := by
  unfold requestTake
  dsimp only
  (repeat' split) <;> simp (maxDischargeDepth := 20)

@[simp] theorem serveTakeLine_rating (n : Nat) (s : State) : (serveTakeLine n s).rating = s.rating := by
  induction n generalizing s with
  | zero => rfl
  | succ n ih =>
    unfold serveTakeLine
    dsimp only
    (repeat' split) <;> simp [ih]

@[simp] theorem takeLineTurn_rating (s : State) :
    (takeLineTurn s).rating = s.rating := by simp [takeLineTurn]

@[simp] theorem withdrawTake_rating (ch : Nat) (s : State) :
    (withdrawTake ch s).rating = s.rating := rfl

@[simp] theorem returnBlock_rating (ch b : Nat) (s : State) :
    (returnBlock ch b s).rating = s.rating := by simp [returnBlock]

@[simp] theorem codeSample_rating (ch : Nat) (second : Bool) (x : Int) (s : State) :
    (codeSample ch second x s).rating = s.rating := rfl

@[simp] theorem afterSample_rating (ch : Nat) (second : Bool) (s : State) :
    (afterSample ch second s).rating = s.rating := by
  unfold afterSample
  dsimp only
  (repeat' split) <;> simp (maxDischargeDepth := 20)

@[simp] theorem refuseSample_rating (ch : Nat) (s : State) :
    (refuseSample ch s).rating = s.rating := rfl

@[simp] theorem dropSample_rating (ch : Nat) (s : State) :
    (dropSample ch s).rating = s.rating := rfl

@[simp] theorem takeSample_rating (ch : Nat) (x : Int) (s : State) :
    (takeSample ch x s).rating = s.rating := by
  unfold takeSample
  dsimp only
  (repeat' split) <;> simp (maxDischargeDepth := 20)

@[simp] theorem takePosition_rating (off : Nat) (lo hi : Option Byte) (s : State) :
    (takePosition off lo hi s).rating = s.rating := by
  unfold takePosition
  split
  · rfl
  · split <;> simp

@[simp] theorem takeLanes_rating (off : Nat) (ls : List (Option Byte)) (s : State) :
    (takeLanes off ls s).rating = s.rating := by
  fun_induction takeLanes off ls s with
  | case1 off lo hi ls s ih => rw [ih, takePosition_rating]
  | case2 => rfl

@[simp] theorem freeChannel_rating (ch : Nat) (st : Status) (res : List Byte) (s : State) :
    (freeChannel ch st res s).rating = s.rating := by simp [freeChannel]

@[simp] theorem channelReleased_rating (ch : Nat) (s : State) :
    (channelReleased ch s).rating = s.rating := by
  unfold channelReleased
  dsimp only
  (repeat' split) <;> simp (maxDischargeDepth := 20)

@[simp] theorem startChannelRelease_rating (ch : Nat) (s : State) :
    (startChannelRelease ch s).rating = s.rating := by
  unfold startChannelRelease
  dsimp only
  (repeat' split) <;> simp (maxDischargeDepth := 20)

@[simp] theorem askRelease_rating (ch : Nat) (s : State) :
    (askRelease ch s).rating = s.rating := by
  unfold askRelease
  dsimp only
  (repeat' split) <;> simp (maxDischargeDepth := 20)

@[simp] theorem commitRecording_rating (ch : Nat) (s : State) :
    (commitRecording ch s).rating = s.rating := by simp [commitRecording]

@[simp] theorem closeByRelease_rating (ch : Nat) (st : Status) (s : State) :
    (closeByRelease ch st s).rating = s.rating := by
  unfold closeByRelease
  dsimp only
  (repeat' split) <;> simp (maxDischargeDepth := 20)

@[simp] theorem afterWrites_rating (ch : Nat) (s : State) :
    (afterWrites ch s).rating = s.rating := by
  unfold afterWrites
  dsimp only
  (repeat' split) <;> simp (maxDischargeDepth := 20)

@[simp] theorem returnBuffer_rating (ch : Nat) (second : Bool) (s : State) :
    (returnBuffer ch second s).rating = s.rating := by
  unfold returnBuffer
  dsimp only
  (repeat' split) <;> simp (maxDischargeDepth := 20)

@[simp] theorem returnWaiting_rating (ch : Nat) (s : State) :
    (returnWaiting ch s).rating = s.rating := by
  unfold returnWaiting
  dsimp only
  (repeat' split) <;> simp (maxDischargeDepth := 20)

@[simp] theorem dropUnwritten_rating (ch : Nat) (s : State) :
    (dropUnwritten ch s).rating = s.rating := by simp [dropUnwritten]

@[simp] theorem patchLast_rating (ch : Nat) (s : State) :
    (patchLast ch s).rating = s.rating := by
  unfold patchLast
  dsimp only
  (repeat' split) <;> simp (maxDischargeDepth := 20)

@[simp] theorem returnEmpty_rating (ch b : Nat) (s : State) :
    (returnEmpty ch b s).rating = s.rating := by
  unfold returnEmpty
  dsimp only
  (repeat' split) <;> simp (maxDischargeDepth := 20)

@[simp] theorem closeBlocks_rating (ch : Nat) (s : State) :
    (closeBlocks ch s).rating = s.rating := by
  unfold closeBlocks
  dsimp only
  (repeat' split) <;> simp (maxDischargeDepth := 20)

@[simp] theorem blockWritten_rating (ch : Nat) (second : Bool) (s : State) :
    (blockWritten ch second s).rating = s.rating := by
  unfold blockWritten
  dsimp only
  (repeat' split) <;> simp (maxDischargeDepth := 20)

@[simp] theorem patchWritten_rating (ch : Nat) (s : State) :
    (patchWritten ch s).rating = s.rating := by simp [patchWritten]

@[simp] theorem checkoutChannel_rating (ch : Nat) (s : State) :
    (checkoutChannel ch s).rating = s.rating := by
  unfold checkoutChannel
  dsimp only
  (repeat' split) <;> simp (maxDischargeDepth := 20)

@[simp] theorem checkoutChannels_rating (r : Nat) (s : State) : (checkoutChannels r s).rating = s.rating := by
  unfold checkoutChannels
  refine foldl_keeps State.rating _ (fun t ch => ?_) _ s
  split <;> simp

@[simp] theorem fetchBlock_rating (ch : Nat) (second : Bool) (b : Nat) (s : State) :
    (fetchBlock ch second b s).rating = s.rating := rfl

@[simp] theorem prefetch_rating (ch : Nat) (s : State) :
    (prefetch ch s).rating = s.rating := by
  unfold prefetch
  dsimp only
  (repeat' split) <;> simp (maxDischargeDepth := 20)

@[simp] theorem yieldSample_rating (ch : Nat) (s : State) : (yieldSample ch s).2.rating = s.rating := by
  simp [yieldSample]

@[simp] theorem moveBuffer_rating (ch : Nat) (s : State) :
    (moveBuffer ch s).rating = s.rating := by simp [moveBuffer]

@[simp] theorem playStep_rating (ch : Nat) (s : State) : (playStep ch s).2.rating = s.rating := by
  unfold playStep
  dsimp only
  (repeat' split) <;> simp

@[simp] theorem meetChannel_rating (ch : Nat) (seen : List Nat) (s : State) :
    (meetChannel ch seen s).rating = s.rating := by
  unfold meetChannel
  dsimp only
  (repeat' split) <;> simp (maxDischargeDepth := 20)

@[simp] theorem openDone_rating (ch : Nat) (ended : Bool) (s : State) :
    (openDone ch ended s).rating = s.rating := by simp [openDone]

@[simp] theorem openEnded_rating (ch : Nat) (s : State) :
    (openEnded ch s).rating = s.rating := by simp [openEnded]

@[simp] theorem openArrived_rating (ch : Nat) (second : Bool) (s : State) :
    (openArrived ch second s).rating = s.rating := by
  unfold openArrived
  dsimp only
  (repeat' split) <;> simp (maxDischargeDepth := 20)

@[simp] theorem raiseOffsetRead_rating (ch b : Nat) (s : State) :
    (raiseOffsetRead ch b s).rating = s.rating := rfl

@[simp] theorem walkStep_rating (ch : Nat) (header : List Byte) (s : State) :
    (walkStep ch header s).rating = s.rating := by
  unfold walkStep
  dsimp only
  (repeat' split) <;> simp (maxDischargeDepth := 20)

@[simp] theorem fetchArrived_rating (ch : Nat) (second : Bool) (data : List Byte) (s : State) :
    (fetchArrived ch second data s).rating = s.rating := by
  unfold fetchArrived
  dsimp only
  (repeat' split) <;> simp (maxDischargeDepth := 20)

@[simp] theorem trunkSequence_rating (t anomaly : Nat) (written : Byte) (s : State) :
    (trunkSequence t anomaly written s).rating = s.rating := by simp [trunkSequence]

@[simp] theorem noticeUnrated_rating (c : Charge) (s : State) :
    (noticeUnrated c s).rating = s.rating := by simp [noticeUnrated]

@[simp] theorem sendFrame_rating (k : Nat) (f : BitVec 32) (changed : List Nat) (s : State) :
    (sendFrame k f changed s).rating = s.rating := rfl

@[simp] theorem startSweep_rating (s : State) :
    (startSweep s).rating = s.rating := by
  unfold startSweep
  split <;> simp

@[simp] theorem writeLinkHeader_rating (s : State) :
    (writeLinkHeader s).rating = s.rating := rfl

@[simp] theorem writeLinkEntry_rating (k : Nat) (s : State) :
    (writeLinkEntry k s).rating = s.rating := rfl

@[simp] theorem clearMismatches_rating (k : Nat) (s : State) : (clearMismatches k s).rating = s.rating :=
  foldl_keeps State.rating _ (fun t p => State.setLamp_rating t _ _) _ s

@[simp] theorem badReturn_rating (k : Nat) (r : BadReason) (s : State) :
    (badReturn k r s).rating = s.rating := by
  unfold badReturn
  dsimp only
  (repeat' split) <;> simp (maxDischargeDepth := 20)

@[simp] theorem latchFault_rating (r : Nat) (kind : Latch) (f : BitVec 32) (s : State) :
    (latchFault r kind f s).rating = s.rating := by
  unfold latchFault
  dsimp only
  (repeat' split) <;> simp (maxDischargeDepth := 20)

@[simp] theorem evaluateLamp_rating (r : Nat) (on sensed : Bool) (f : BitVec 32) (s : State) :
    (evaluateLamp r on sensed f s).rating = s.rating := by
  unfold evaluateLamp
  dsimp only
  (repeat' split) <;> simp (maxDischargeDepth := 20)

@[simp] theorem evaluateCard_rating (k : Nat) (drive sense : BitVec 64) (f : BitVec 32) (s : State) :
    (evaluateCard k drive sense f s).rating = s.rating :=
  foldl_keeps State.rating _ (fun t p => evaluateLamp_rating _ _ _ _ t) _ s

@[simp] theorem goodReturn_rating (w : Sweep) (s : State) : (goodReturn w s).rating = s.rating := by
  unfold goodReturn
  dsimp only
  split
  · rw [evaluateCard_rating]
    split <;> simp
  · split <;> simp

@[simp] theorem judgeCard_rating (w : Sweep) (s : State) :
    (judgeCard w s).rating = s.rating := by
  unfold judgeCard
  split <;> simp

@[simp] theorem closeWindow_rating (w : Sweep) (s : State) : (closeWindow w s).rating = s.rating := by
  unfold closeWindow
  dsimp only
  split
  · simp
  · rw [foldl_keeps State.rating (fun t k => writeLinkEntry k t) (fun t k => writeLinkEntry_rating k t)]
    simp

@[simp] theorem clearFault_rating (r : Nat) (s : State) :
    (clearFault r s).rating = s.rating := by
  unfold clearFault
  dsimp only
  (repeat' split) <;> simp (maxDischargeDepth := 20)

@[simp] theorem createMessage_rating (c : List Byte) (i : Nat) (s : State) :
    (createMessage c i s).rating = s.rating := by simp [createMessage]

@[simp] theorem recordOpenAct_rating (slot : Nat) (c : List Byte) (s : State) :
    (recordOpenAct slot c s).rating = s.rating := by simp [recordOpenAct]

@[simp] theorem enterClosing_rating (slot ch : Nat) (how : Closing) (s : State) :
    (enterClosing slot ch how s).rating = s.rating := by
  unfold enterClosing
  dsimp only
  (repeat' split) <;> simp (maxDischargeDepth := 20)

@[simp] theorem recordCloseAct_rating (slot : Nat) (c : List Byte) (s : State) :
    (recordCloseAct slot c s).rating = s.rating := by
  unfold recordCloseAct
  dsimp only
  (repeat' split) <;> simp (maxDischargeDepth := 20)

@[simp] theorem recordAbandonAct_rating (slot : Nat) (c : List Byte) (s : State) :
    (recordAbandonAct slot c s).rating = s.rating := by
  unfold recordAbandonAct
  dsimp only
  (repeat' split) <;> simp (maxDischargeDepth := 20)

@[simp] theorem claimPlay_rating (slot ch i offset : Nat) (s : State) :
    (claimPlay slot ch i offset s).rating = s.rating := rfl

@[simp] theorem playOpenAct_rating (slot : Nat) (c : List Byte) (s : State) :
    (playOpenAct slot c s).rating = s.rating := by
  unfold playOpenAct
  dsimp only
  (repeat' split) <;> simp (maxDischargeDepth := 20)

@[simp] theorem dispose_rating (i d : Nat) (s : State) :
    (dispose i d s).rating = s.rating := by
  unfold dispose
  dsimp only
  (repeat' split) <;> simp (maxDischargeDepth := 20)

@[simp] theorem dropBuffers_rating (ch : Nat) (s : State) :
    (dropBuffers ch s).rating = s.rating := rfl

@[simp] theorem playCloseAct_rating (slot : Nat) (c : List Byte) (s : State) :
    (playCloseAct slot c s).rating = s.rating := by simp [playCloseAct]

@[simp] theorem messageSaveAct_rating (slot : Nat) (c : List Byte) (s : State) :
    (messageSaveAct slot c s).rating = s.rating := by
  unfold messageSaveAct
  dsimp only
  (repeat' split) <;> simp (maxDischargeDepth := 20)

@[simp] theorem messageMarkNewAct_rating (slot : Nat) (c : List Byte) (s : State) :
    (messageMarkNewAct slot c s).rating = s.rating := by
  unfold messageMarkNewAct
  dsimp only
  (repeat' split) <;> simp (maxDischargeDepth := 20)

@[simp] theorem holdOrder_rating (slot left : Nat) (deferred : Bool) (res : List Byte) (s : State) :
    (holdOrder slot left deferred res s).rating = s.rating := rfl

@[simp] theorem messageDeleteAct_rating (slot : Nat) (c : List Byte) (s : State) :
    (messageDeleteAct slot c s).rating = s.rating := by
  unfold messageDeleteAct
  dsimp only
  (repeat' split) <;> simp (maxDischargeDepth := 20)

@[simp] theorem mailboxPurgeAct_rating (slot : Nat) (c : List Byte) (s : State) :
    (mailboxPurgeAct slot c s).rating = s.rating := by
  have h := foldl_keeps State.rating (fun t i => releaseMessage i (.order slot) t)
    (fun t i => releaseMessage_rating i _ t) (s.purgeScope c) s
  unfold mailboxPurgeAct
  dsimp only
  split
  · rw [completeOrder_rating, h]
  · rw [holdOrder_rating, h]

@[simp] theorem lampOverrideAct_rating (slot : Nat) (c : List Byte) (s : State) :
    (lampOverrideAct slot c s).rating = s.rating := by
  unfold lampOverrideAct
  dsimp only
  rw [completeOrder_rating, foldl_keeps State.rating _ (fun t r => setOverride_rating _ r t)]

@[simp] theorem lampFaultClearAct_rating (slot : Nat) (c : List Byte) (s : State) :
    (lampFaultClearAct slot c s).rating = s.rating := by
  unfold lampFaultClearAct
  dsimp only
  rw [completeOrder_rating, foldl_keeps State.rating _ (fun t r => clearFault_rating r t)]

@[simp] theorem clockSetAct_rating (slot : Nat) (c : List Byte) (s : State) :
    (clockSetAct slot c s).rating = s.rating := by simp [clockSetAct]

@[simp] theorem renewFirst_rating (n : Nat) (s : State) :
    (renewFirst n s).rating = s.rating := by
  unfold renewFirst
  split <;> simp

@[simp] theorem leaveReleaseLine_rating (s : State) :
    (leaveReleaseLine s).rating = s.rating := rfl

@[simp] theorem startPop_rating (s : State) :
    (startPop s).rating = s.rating := rfl

@[simp] theorem popReturned_rating (data : List Byte) (s : State) :
    (popReturned data s).rating = s.rating := by simp [popReturned]

@[simp] theorem startPush_rating (s : State) :
    (startPush s).rating = s.rating := by
  unfold startPush
  split <;> simp

@[simp] theorem reportRelease_rating (cause : Cause) (s : State) :
    (reportRelease cause s).rating = s.rating := by
  unfold reportRelease
  split <;> simp

@[simp] theorem completeEntry_rating (e : ReleaseEntry) (rest : List ReleaseEntry) (s : State) :
    (completeEntry e rest s).rating = s.rating := by simp [completeEntry]

@[simp] theorem releaseInHand_rating (w : Walk) (e : ReleaseEntry) (s : State) :
    (releaseInHand w e s).rating = s.rating := by simp [releaseInHand]

@[simp] theorem walkReturned_rating (header : List Byte) (s : State) :
    (walkReturned header s).rating = s.rating := by
  unfold walkReturned
  dsimp only
  (repeat' split) <;> simp (maxDischargeDepth := 20)

end Sys2Proof.Machine
end

