-- ==== Sys2Proof/Laws/KeepRing.lean ====
section
/-! SUPPORT. Which operations leave the order ring as it was. -/

namespace Sys2Proof.Machine

@[simp] theorem notify_ring (who : Requester) (k : NoticeKind) (room detail1 detail2 : Nat) (s : State) :
    (notify who k room detail1 detail2 s).ring = s.ring := by
  unfold notify
  split <;> simp

@[simp] theorem recomputeLamp_ring (r : Nat) (s : State) :
    (recomputeLamp r s).ring = s.ring := by
  unfold recomputeLamp
  dsimp only
  (repeat' split) <;> simp (maxDischargeDepth := 20)

@[simp] theorem setOverride_ring (o : Override) (r : Nat) (s : State) :
    (setOverride o r s).ring = s.ring := by
  unfold setOverride
  dsimp only
  (repeat' split) <;> simp (maxDischargeDepth := 20)

@[simp] theorem clearDesk_ring (r : Nat) (s : State) :
    (clearDesk r s).ring = s.ring := by
  unfold clearDesk
  dsimp only
  (repeat' split) <;> simp (maxDischargeDepth := 20)

@[simp] theorem recordWrite_ring (i : Nat) (s : State) :
    (recordWrite i s).ring = s.ring := by
  unfold recordWrite
  split <;> simp

@[simp] theorem updateMessage_ring (i : Nat) (m : Message) (s : State) :
    (updateMessage i m s).ring = s.ring := by simp [updateMessage]

@[simp] theorem freeRecord_ring (i : Nat) (s : State) :
    (freeRecord i s).ring = s.ring := by
  unfold freeRecord
  dsimp only
  (repeat' split) <;> simp (maxDischargeDepth := 20)

@[simp] theorem relink_ring (list : List Nat) (i : Nat) (s : State) :
    (relink list i s).ring = s.ring := by
  unfold relink
  dsimp only
  (repeat' split) <;> simp (maxDischargeDepth := 20)

@[simp] theorem setList_ring (r : Nat) (list : List Nat) (s : State) : (setList r list s).ring = s.ring := by
  unfold setList
  dsimp only
  have h := foldl_keeps State.ring (fun t i => relink list i t) (fun t i => relink_ring list i t)
    ((s.mailbox r).list ++ list) s
  split
  · rw [markMail_ring, State.setMailbox_ring, h]
  · rw [recomputeLamp_ring, markMail_ring, State.setMailbox_ring, h]

@[simp] theorem moveMessage_ring (i : Nat) (st : MessageState) (s : State) :
    (moveMessage i st s).ring = s.ring := by simp [moveMessage]

@[simp] theorem storeLowAfterTake_ring (n : Nat) (s : State) :
    (storeLowAfterTake n s).ring = s.ring := by
  unfold storeLowAfterTake
  dsimp only
  (repeat' split) <;> simp (maxDischargeDepth := 20)

@[simp] theorem evalTake_ring (i : Nat) (s : State) : (evalTake i s).2.ring = s.ring := by
  unfold evalTake
  dsimp only
  (repeat' split) <;> simp

@[simp] theorem releaseBlock_ring (b : Nat) (s : State) :
    (releaseBlock b s).ring = s.ring := by
  unfold releaseBlock
  dsimp only
  (repeat' split) <;> simp (maxDischargeDepth := 20)

@[simp] theorem raiseWalk_ring (w : Walk) (s : State) :
    (raiseWalk w s).ring = s.ring := rfl

@[simp] theorem startWalk_ring (s : State) :
    (startWalk s).ring = s.ring := by
  unfold startWalk
  split <;> simp

@[simp] theorem queueChain_ring (i : Nat) (cause : Cause) (s : State) :
    (queueChain i cause s).ring = s.ring := by
  unfold queueChain
  dsimp only
  (repeat' split) <;> simp (maxDischargeDepth := 20)

@[simp] theorem releaseMessage_ring (i : Nat) (cause : Cause) (s : State) :
    (releaseMessage i cause s).ring = s.ring := by
  unfold releaseMessage
  dsimp only
  (repeat' split) <;> simp (maxDischargeDepth := 20)

@[simp] theorem joinReleaseLine_ring (who : Waiter) (n : Nat) (s : State) :
    (joinReleaseLine who n s).ring = s.ring := rfl

@[simp] theorem raiseExecuting_ring (slot : Nat) (copy : List Byte) (s : State) :
    (raiseExecuting slot copy s).ring = s.ring := rfl

@[simp] theorem startFilling_ring (ch : Nat) (second : Bool) (b : Nat) (s : State) :
    (startFilling ch second b s).ring = s.ring := by
  unfold startFilling
  dsimp only
  (repeat' split) <;> simp (maxDischargeDepth := 20)

@[simp] theorem writeBlock_ring (ch : Nat) (second : Bool) (next : Nat) (s : State) :
    (writeBlock ch second next s).ring = s.ring := rfl

@[simp] theorem updateLength_ring (ch : Nat) (s : State) :
    (updateLength ch s).ring = s.ring := by simp [updateLength]

@[simp] theorem noticeStopped_ring (ch : Nat) (reason : StopReason) (s : State) :
    (noticeStopped ch reason s).ring = s.ring := by simp [noticeStopped]

@[simp] theorem stopRecording_ring (ch : Nat) (reason : StopReason) (s : State) :
    (stopRecording ch reason s).ring = s.ring := by simp [stopRecording]

@[simp] theorem answerRecording_ring (ch : Nat) (a : TakeAnswer) (s : State) :
    (answerRecording ch a s).ring = s.ring := by
  unfold answerRecording
  dsimp only
  (repeat' split) <;> simp (maxDischargeDepth := 20)

@[simp] theorem withdrawTake_ring (ch : Nat) (s : State) :
    (withdrawTake ch s).ring = s.ring := rfl

@[simp] theorem codeSample_ring (ch : Nat) (second : Bool) (x : Int) (s : State) :
    (codeSample ch second x s).ring = s.ring := rfl

@[simp] theorem refuseSample_ring (ch : Nat) (s : State) :
    (refuseSample ch s).ring = s.ring := rfl

@[simp] theorem dropSample_ring (ch : Nat) (s : State) :
    (dropSample ch s).ring = s.ring := rfl

@[simp] theorem patchLast_ring (ch : Nat) (s : State) :
    (patchLast ch s).ring = s.ring := by
  unfold patchLast
  dsimp only
  (repeat' split) <;> simp (maxDischargeDepth := 20)

@[simp] theorem fetchBlock_ring (ch : Nat) (second : Bool) (b : Nat) (s : State) :
    (fetchBlock ch second b s).ring = s.ring := rfl

@[simp] theorem prefetch_ring (ch : Nat) (s : State) :
    (prefetch ch s).ring = s.ring := by
  unfold prefetch
  dsimp only
  (repeat' split) <;> simp (maxDischargeDepth := 20)

@[simp] theorem yieldSample_ring (ch : Nat) (s : State) : (yieldSample ch s).2.ring = s.ring := by
  simp [yieldSample]

@[simp] theorem moveBuffer_ring (ch : Nat) (s : State) :
    (moveBuffer ch s).ring = s.ring := by simp [moveBuffer]

@[simp] theorem playStep_ring (ch : Nat) (s : State) : (playStep ch s).2.ring = s.ring := by
  unfold playStep
  dsimp only
  (repeat' split) <;> simp

@[simp] theorem meetChannel_ring (ch : Nat) (seen : List Nat) (s : State) :
    (meetChannel ch seen s).ring = s.ring := by
  unfold meetChannel
  dsimp only
  (repeat' split) <;> simp (maxDischargeDepth := 20)

@[simp] theorem serveRead_ring (zeroed : Option Nat) (off : Nat) (ls : List (Option Byte)) (seen : List Nat)
    (s : State) : (serveRead zeroed off ls seen s).2.2.ring = s.ring :=
  serveRead_ind (fun t => t.ring = s.ring) zeroed (fun ch seen t h => by simpa using h)
    (fun ch t h _ => by simpa using h) ls off seen s rfl

@[simp] theorem raiseOffsetRead_ring (ch b : Nat) (s : State) :
    (raiseOffsetRead ch b s).ring = s.ring := rfl

@[simp] theorem workOutBarred_ring (r : Nat) (total : Int) (s : State) :
    (workOutBarred r total s).ring = s.ring := by
  unfold workOutBarred
  dsimp only
  (repeat' split) <;> simp (maxDischargeDepth := 20)

@[simp] theorem settleBarred_ring (r : Nat) (s : State) :
    (settleBarred r s).ring = s.ring := rfl

@[simp] theorem raiseFolioWrite_ring (s : State) :
    (raiseFolioWrite s).ring = s.ring := by
  unfold raiseFolioWrite
  dsimp only
  (repeat' split) <;> simp (maxDischargeDepth := 20)

@[simp] theorem queueFolioWrite_ring (w : FolioWrite) (s : State) :
    (queueFolioWrite w s).ring = s.ring := by simp [queueFolioWrite]

@[simp] theorem appendCharge_ring (r : Nat) (p : Place) (f : Folio) (c : Charge) (order : Option Nat) (s : State) :
    (appendCharge r p f c order s).2.ring = s.ring := by
  unfold appendCharge
  dsimp only
  (repeat' split) <;> simp

@[simp] theorem unbilled_ring (c : Charge) (s : State) :
    (unbilled c s).ring = s.ring := by simp [unbilled]

@[simp] theorem lateCharge_ring (f : Folio) (c : Charge) (s : State) :
    (lateCharge f c s).ring = s.ring := by simp [lateCharge]

@[simp] theorem handOver_ring (c : Charge) (s : State) : (handOver c s).ring = s.ring := by
  have hu := unbilled_ring c s
  unfold handOver
  split
  · split
    · split
      · exact appendCharge_ring _ _ _ _ _ _
      · split
        · split
          · exact lateCharge_ring _ _ _
          · exact hu
        · exact hu
    · split
      · split
        · exact lateCharge_ring _ _ _
        · exact hu
      · exact hu
  · exact hu

@[simp] theorem openFolio_ring (r : Nat) (s : State) :
    (openFolio r s).ring = s.ring := rfl

@[simp] theorem returnRecords_ring (f : Folio) (s : State) :
    (returnRecords f s).ring = s.ring := rfl

@[simp] theorem discardClosed_ring (r : Nat) (s : State) :
    (discardClosed r s).ring = s.ring := by
  unfold discardClosed
  split <;> simp

@[simp] theorem closeFolio_ring (r : Nat) (s : State) :
    (closeFolio r s).ring = s.ring := by
  unfold closeFolio
  dsimp only
  (repeat' split) <;> simp (maxDischargeDepth := 20)

@[simp] theorem trunkSequence_ring (t anomaly : Nat) (written : Byte) (s : State) :
    (trunkSequence t anomaly written s).ring = s.ring := by simp [trunkSequence]

@[simp] theorem seizeTrunk_ring (t : Nat) (s : State) :
    (seizeTrunk t s).ring = s.ring := rfl

@[simp] theorem captureCall_ring (t : Nat) (s : State) :
    (captureCall t s).ring = s.ring := rfl

@[simp] theorem countAnswer_ring (t : Nat) (s : State) :
    (countAnswer t s).ring = s.ring := by
  unfold countAnswer
  split <;> simp

@[simp] theorem missedSeize_ring (t : Nat) (s : State) :
    (missedSeize t s).ring = s.ring := by simp [missedSeize]

@[simp] theorem idleTrunk_ring (t : Nat) (s : State) :
    (idleTrunk t s).ring = s.ring := rfl

@[simp] theorem unansweredClear_ring (t : Nat) (s : State) :
    (unansweredClear t s).ring = s.ring := by
  unfold unansweredClear
  dsimp only
  (repeat' split) <;> simp (maxDischargeDepth := 20)

@[simp] theorem noticeUnrated_ring (c : Charge) (s : State) :
    (noticeUnrated c s).ring = s.ring := by simp [noticeUnrated]

@[simp] theorem rateCall_ring (t : Nat) (implicit : Bool) (s : State) :
    (rateCall t implicit s).ring = s.ring := by
  unfold rateCall
  dsimp only
  (repeat' split) <;> simp (maxDischargeDepth := 20)

@[simp] theorem answeredClear_ring (t : Nat) (implicit : Bool) (s : State) :
    (answeredClear t implicit s).ring = s.ring := by
  unfold answeredClear
  dsimp only
  (repeat' split) <;> simp (maxDischargeDepth := 20)

@[simp] theorem stepTrunk_ring (t : Nat) (w : WrittenState) (s : State) :
    (stepTrunk t w s).ring = s.ring := by
  unfold stepTrunk
  split <;> simp

@[simp] theorem trunkWritten_ring (t : Nat) (old new : Byte) (s : State) :
    (trunkWritten t old new s).ring = s.ring := by
  unfold trunkWritten
  dsimp only
  (repeat' split) <;> simp (maxDischargeDepth := 20)

@[simp] theorem settleTrunk_ring (t : Nat) (s : State) :
    (settleTrunk t s).ring = s.ring := by
  unfold settleTrunk
  dsimp only
  (repeat' split) <;> simp (maxDischargeDepth := 20)

@[simp] theorem sendFrame_ring (k : Nat) (f : BitVec 32) (changed : List Nat) (s : State) :
    (sendFrame k f changed s).ring = s.ring := rfl

@[simp] theorem startSweep_ring (s : State) :
    (startSweep s).ring = s.ring := by
  unfold startSweep
  split <;> simp

@[simp] theorem writeLinkHeader_ring (s : State) :
    (writeLinkHeader s).ring = s.ring := rfl

@[simp] theorem writeLinkEntry_ring (k : Nat) (s : State) :
    (writeLinkEntry k s).ring = s.ring := rfl

@[simp] theorem clearMismatches_ring (k : Nat) (s : State) : (clearMismatches k s).ring = s.ring :=
  foldl_keeps State.ring _ (fun t p => State.setLamp_ring t _ _) _ s

@[simp] theorem badReturn_ring (k : Nat) (r : BadReason) (s : State) :
    (badReturn k r s).ring = s.ring := by
  unfold badReturn
  dsimp only
  (repeat' split) <;> simp (maxDischargeDepth := 20)

@[simp] theorem latchFault_ring (r : Nat) (kind : Latch) (f : BitVec 32) (s : State) :
    (latchFault r kind f s).ring = s.ring := by
  unfold latchFault
  dsimp only
  (repeat' split) <;> simp (maxDischargeDepth := 20)

@[simp] theorem evaluateLamp_ring (r : Nat) (on sensed : Bool) (f : BitVec 32) (s : State) :
    (evaluateLamp r on sensed f s).ring = s.ring := by
  unfold evaluateLamp
  dsimp only
  (repeat' split) <;> simp (maxDischargeDepth := 20)

@[simp] theorem evaluateCard_ring (k : Nat) (drive sense : BitVec 64) (f : BitVec 32) (s : State) :
    (evaluateCard k drive sense f s).ring = s.ring :=
  foldl_keeps State.ring _ (fun t p => evaluateLamp_ring _ _ _ _ t) _ s

@[simp] theorem goodReturn_ring (w : Sweep) (s : State) : (goodReturn w s).ring = s.ring := by
  unfold goodReturn
  dsimp only
  split
  · rw [evaluateCard_ring]
    split <;> simp
  · split <;> simp

@[simp] theorem judgeCard_ring (w : Sweep) (s : State) :
    (judgeCard w s).ring = s.ring := by
  unfold judgeCard
  split <;> simp

@[simp] theorem closeWindow_ring (w : Sweep) (s : State) : (closeWindow w s).ring = s.ring := by
  unfold closeWindow
  dsimp only
  split
  · simp
  · rw [foldl_keeps State.ring (fun t k => writeLinkEntry k t) (fun t k => writeLinkEntry_ring k t)]
    simp

@[simp] theorem clearFault_ring (r : Nat) (s : State) :
    (clearFault r s).ring = s.ring := by
  unfold clearFault
  dsimp only
  (repeat' split) <;> simp (maxDischargeDepth := 20)

@[simp] theorem createMessage_ring (c : List Byte) (i : Nat) (s : State) :
    (createMessage c i s).ring = s.ring := by simp [createMessage]

@[simp] theorem enterClosing_ring (slot ch : Nat) (how : Closing) (s : State) :
    (enterClosing slot ch how s).ring = s.ring := by
  unfold enterClosing
  dsimp only
  (repeat' split) <;> simp (maxDischargeDepth := 20)

@[simp] theorem claimPlay_ring (slot ch i offset : Nat) (s : State) :
    (claimPlay slot ch i offset s).ring = s.ring := rfl

@[simp] theorem dispose_ring (i d : Nat) (s : State) :
    (dispose i d s).ring = s.ring := by
  unfold dispose
  dsimp only
  (repeat' split) <;> simp (maxDischargeDepth := 20)

@[simp] theorem dropBuffers_ring (ch : Nat) (s : State) :
    (dropBuffers ch s).ring = s.ring := rfl

@[simp] theorem renewFirst_ring (n : Nat) (s : State) :
    (renewFirst n s).ring = s.ring := by
  unfold renewFirst
  split <;> simp

@[simp] theorem leaveReleaseLine_ring (s : State) :
    (leaveReleaseLine s).ring = s.ring := rfl

@[simp] theorem startPop_ring (s : State) :
    (startPop s).ring = s.ring := rfl

@[simp] theorem startPush_ring (s : State) :
    (startPush s).ring = s.ring := by
  unfold startPush
  split <;> simp

end Sys2Proof.Machine
end

