-- ==== Sys2Proof/Laws/KeepRingCore.lean ====
section
/-! SUPPORT. Which operations leave the order ring as it was, but for the orders in flight. -/

namespace Sys2Proof.Machine

/-- The order ring without its orders in flight. -/
def Ring.core (r : Ring) : Ring := { r with inFlight := [] }
def State.ringCore (s : State) : Ring := s.ring.core

@[simp] theorem ring_core (s : State) : s.ring.core = s.ringCore := rfl
@[simp] theorem Ring.core_inFlight (g : Ring) (l : List InFlight) : Ring.core { g with inFlight := l } = g.core := rfl

@[simp] theorem ringCore_mk (p : List Instr) (st : BitVec 3) (m : Table Byte) (ti : TimeBase) (fr : BitVec 32)
    (c : Control) (h : HostPath) (a : Arbiter) (v : Voice) (sto : Store) (r : Ring) (n : Notices) (ra : Rating)
    (l : LampEngine) (o : Outbox) (ch : Nat) :
    State.ringCore ⟨p, st, m, ti, fr, c, h, a, v, sto, r, n, ra, l, o, ch⟩ = r.core := rfl

@[simp] theorem State.setChannel_ringCore (s : State) (c : Nat) (v : Channel) :
    (State.setChannel s c v).ringCore = s.ringCore := rfl

@[simp] theorem State.setMessage_ringCore (s : State) (i : Nat) (v : Message) :
    (State.setMessage s i v).ringCore = s.ringCore := rfl

@[simp] theorem State.setMailbox_ringCore (s : State) (r : Nat) (v : Mailbox) :
    (State.setMailbox s r v).ringCore = s.ringCore := rfl

@[simp] theorem State.setTrunk_ringCore (s : State) (t : Nat) (v : Trunk) :
    (State.setTrunk s t v).ringCore = s.ringCore := rfl

@[simp] theorem State.setFolios_ringCore (s : State) (r : Nat) (v : RoomFolios) :
    (State.setFolios s r v).ringCore = s.ringCore := rfl

@[simp] theorem State.setLamp_ringCore (s : State) (r : Nat) (v : Lamp) :
    (State.setLamp s r v).ringCore = s.ringCore := rfl

@[simp] theorem State.setCard_ringCore (s : State) (k : Nat) (v : Card) :
    (State.setCard s k v).ringCore = s.ringCore := rfl

@[simp] theorem raise_ringCore (r : Request) (s : State) :
    (raise r s).ringCore = s.ringCore := rfl

@[simp] theorem raiseAll_ringCore (rs : List Request) (s : State) :
    (raiseAll rs s).ringCore = s.ringCore := rfl

@[simp] theorem notify_ringCore (who : Requester) (k : NoticeKind) (room detail1 detail2 : Nat) (s : State) :
    (notify who k room detail1 detail2 s).ringCore = s.ringCore := by
  unfold State.ringCore
  rw [notify_ring]

@[simp] theorem markMail_ringCore (r : Nat) (s : State) :
    (markMail r s).ringCore = s.ringCore := rfl

@[simp] theorem markFolio_ringCore (r : Nat) (s : State) :
    (markFolio r s).ringCore = s.ringCore := rfl

@[simp] theorem markLamp_ringCore (r : Nat) (s : State) :
    (markLamp r s).ringCore = s.ringCore := rfl

@[simp] theorem recomputeLamp_ringCore (r : Nat) (s : State) :
    (recomputeLamp r s).ringCore = s.ringCore := by
  unfold State.ringCore
  rw [recomputeLamp_ring]

@[simp] theorem setOverride_ringCore (o : Override) (r : Nat) (s : State) :
    (setOverride o r s).ringCore = s.ringCore := by
  unfold State.ringCore
  rw [setOverride_ring]

@[simp] theorem clearDesk_ringCore (r : Nat) (s : State) :
    (clearDesk r s).ringCore = s.ringCore := by
  unfold State.ringCore
  rw [clearDesk_ring]

@[simp] theorem recordWrite_ringCore (i : Nat) (s : State) :
    (recordWrite i s).ringCore = s.ringCore := by
  unfold State.ringCore
  rw [recordWrite_ring]

@[simp] theorem updateMessage_ringCore (i : Nat) (m : Message) (s : State) :
    (updateMessage i m s).ringCore = s.ringCore := by
  unfold State.ringCore
  rw [updateMessage_ring]

@[simp] theorem freeRecord_ringCore (i : Nat) (s : State) :
    (freeRecord i s).ringCore = s.ringCore := by
  unfold State.ringCore
  rw [freeRecord_ring]

@[simp] theorem relink_ringCore (list : List Nat) (i : Nat) (s : State) :
    (relink list i s).ringCore = s.ringCore := by
  unfold State.ringCore
  rw [relink_ring]

@[simp] theorem setList_ringCore (r : Nat) (list : List Nat) (s : State) : (setList r list s).ringCore = s.ringCore := by
  unfold setList
  dsimp only
  have h := foldl_keeps State.ringCore (fun t i => relink list i t) (fun t i => relink_ringCore list i t)
    ((s.mailbox r).list ++ list) s
  split
  · rw [markMail_ringCore, State.setMailbox_ringCore, h]
  · rw [recomputeLamp_ringCore, markMail_ringCore, State.setMailbox_ringCore, h]

@[simp] theorem setPlaces_ringCore (r n : Nat) (s : State) :
    (setPlaces r n s).ringCore = s.ringCore := rfl

@[simp] theorem setBlocksUsed_ringCore (r n : Nat) (s : State) :
    (setBlocksUsed r n s).ringCore = s.ringCore := rfl

@[simp] theorem moveMessage_ringCore (i : Nat) (st : MessageState) (s : State) :
    (moveMessage i st s).ringCore = s.ringCore := by
  unfold State.ringCore
  rw [moveMessage_ring]

@[simp] theorem storeLowAfterTake_ringCore (n : Nat) (s : State) :
    (storeLowAfterTake n s).ringCore = s.ringCore := by
  unfold State.ringCore
  rw [storeLowAfterTake_ring]

@[simp] theorem evalTake_ringCore (i : Nat) (s : State) : (evalTake i s).2.ringCore = s.ringCore := by
  unfold evalTake
  dsimp only
  (repeat' split) <;> simp

@[simp] theorem releaseBlock_ringCore (b : Nat) (s : State) :
    (releaseBlock b s).ringCore = s.ringCore := by
  unfold State.ringCore
  rw [releaseBlock_ring]

@[simp] theorem raiseWalk_ringCore (w : Walk) (s : State) :
    (raiseWalk w s).ringCore = s.ringCore := rfl

@[simp] theorem startWalk_ringCore (s : State) :
    (startWalk s).ringCore = s.ringCore := by
  unfold State.ringCore
  rw [startWalk_ring]

@[simp] theorem queueChain_ringCore (i : Nat) (cause : Cause) (s : State) :
    (queueChain i cause s).ringCore = s.ringCore := by
  unfold State.ringCore
  rw [queueChain_ring]

@[simp] theorem releaseMessage_ringCore (i : Nat) (cause : Cause) (s : State) :
    (releaseMessage i cause s).ringCore = s.ringCore := by
  unfold State.ringCore
  rw [releaseMessage_ring]

@[simp] theorem joinReleaseLine_ringCore (who : Waiter) (n : Nat) (s : State) :
    (joinReleaseLine who n s).ringCore = s.ringCore := rfl

@[simp] theorem updateEntry_ringCore (slot : Nat) (f : InFlight → InFlight) (s : State) :
    (updateEntry slot f s).ringCore = s.ringCore := rfl

@[simp] theorem freeEntry_ringCore (slot : Nat) (s : State) :
    (freeEntry slot s).ringCore = s.ringCore := rfl

@[simp] theorem raiseExecuting_ringCore (slot : Nat) (copy : List Byte) (s : State) :
    (raiseExecuting slot copy s).ringCore = s.ringCore := rfl

@[simp] theorem completeOrder_ringCore (slot : Nat) (status : Status) (deferred : Bool) (res : List Byte) (s : State) :
    (completeOrder slot status deferred res s).ringCore = s.ringCore := by
  unfold completeOrder
  split <;> simp

@[simp] theorem completeFor_ringCore (order : Option Nat) (status : Status) (res : List Byte) (s : State) :
    (completeFor order status res s).ringCore = s.ringCore := by
  unfold completeFor
  split <;> simp

@[simp] theorem orderStep_ringCore (slot : Nat) (s : State) : (orderStep slot s).ringCore = s.ringCore := by
  unfold orderStep
  split
  · rfl
  · split <;> simp

@[simp] theorem startFilling_ringCore (ch : Nat) (second : Bool) (b : Nat) (s : State) :
    (startFilling ch second b s).ringCore = s.ringCore := by
  unfold State.ringCore
  rw [startFilling_ring]

@[simp] theorem writeBlock_ringCore (ch : Nat) (second : Bool) (next : Nat) (s : State) :
    (writeBlock ch second next s).ringCore = s.ringCore := rfl

@[simp] theorem updateLength_ringCore (ch : Nat) (s : State) :
    (updateLength ch s).ringCore = s.ringCore := by
  unfold State.ringCore
  rw [updateLength_ring]

@[simp] theorem noticeStopped_ringCore (ch : Nat) (reason : StopReason) (s : State) :
    (noticeStopped ch reason s).ringCore = s.ringCore := by
  unfold State.ringCore
  rw [noticeStopped_ring]

@[simp] theorem stopRecording_ringCore (ch : Nat) (reason : StopReason) (s : State) :
    (stopRecording ch reason s).ringCore = s.ringCore := by
  unfold State.ringCore
  rw [stopRecording_ring]

@[simp] theorem answerOpening_ringCore (ch : Nat) (a : TakeAnswer) (s : State) :
    (answerOpening ch a s).ringCore = s.ringCore := by
  unfold answerOpening
  split <;> simp

@[simp] theorem answerRecording_ringCore (ch : Nat) (a : TakeAnswer) (s : State) :
    (answerRecording ch a s).ringCore = s.ringCore := by
  unfold State.ringCore
  rw [answerRecording_ring]

@[simp] theorem answerTake_ringCore (ch : Nat) (a : TakeAnswer) (s : State) :
    (answerTake ch a s).ringCore = s.ringCore := by
  unfold answerTake
  split <;> simp

@[simp] theorem requestTake_ringCore (ch : Nat) (s : State) :
    (requestTake ch s).ringCore = s.ringCore := by
  unfold requestTake
  dsimp only
  (repeat' split) <;> simp (maxDischargeDepth := 20)

@[simp] theorem serveTakeLine_ringCore (n : Nat) (s : State) : (serveTakeLine n s).ringCore = s.ringCore := by
  induction n generalizing s with
  | zero => rfl
  | succ n ih =>
    unfold serveTakeLine
    dsimp only
    (repeat' split) <;> simp [ih]

@[simp] theorem takeLineTurn_ringCore (s : State) :
    (takeLineTurn s).ringCore = s.ringCore := by simp [takeLineTurn]

@[simp] theorem withdrawTake_ringCore (ch : Nat) (s : State) :
    (withdrawTake ch s).ringCore = s.ringCore := rfl

@[simp] theorem returnBlock_ringCore (ch b : Nat) (s : State) :
    (returnBlock ch b s).ringCore = s.ringCore := by simp [returnBlock]

@[simp] theorem codeSample_ringCore (ch : Nat) (second : Bool) (x : Int) (s : State) :
    (codeSample ch second x s).ringCore = s.ringCore := rfl

@[simp] theorem afterSample_ringCore (ch : Nat) (second : Bool) (s : State) :
    (afterSample ch second s).ringCore = s.ringCore := by
  unfold afterSample
  dsimp only
  (repeat' split) <;> simp (maxDischargeDepth := 20)

@[simp] theorem refuseSample_ringCore (ch : Nat) (s : State) :
    (refuseSample ch s).ringCore = s.ringCore := rfl

@[simp] theorem dropSample_ringCore (ch : Nat) (s : State) :
    (dropSample ch s).ringCore = s.ringCore := rfl

@[simp] theorem takeSample_ringCore (ch : Nat) (x : Int) (s : State) :
    (takeSample ch x s).ringCore = s.ringCore := by
  unfold takeSample
  dsimp only
  (repeat' split) <;> simp (maxDischargeDepth := 20)

@[simp] theorem takePosition_ringCore (off : Nat) (lo hi : Option Byte) (s : State) :
    (takePosition off lo hi s).ringCore = s.ringCore := by
  unfold takePosition
  split
  · rfl
  · split <;> simp

@[simp] theorem takeLanes_ringCore (off : Nat) (ls : List (Option Byte)) (s : State) :
    (takeLanes off ls s).ringCore = s.ringCore := by
  fun_induction takeLanes off ls s with
  | case1 off lo hi ls s ih => rw [ih, takePosition_ringCore]
  | case2 => rfl

@[simp] theorem freeChannel_ringCore (ch : Nat) (st : Status) (res : List Byte) (s : State) :
    (freeChannel ch st res s).ringCore = s.ringCore := by simp [freeChannel]

@[simp] theorem channelReleased_ringCore (ch : Nat) (s : State) :
    (channelReleased ch s).ringCore = s.ringCore := by
  unfold channelReleased
  dsimp only
  (repeat' split) <;> simp (maxDischargeDepth := 20)

@[simp] theorem startChannelRelease_ringCore (ch : Nat) (s : State) :
    (startChannelRelease ch s).ringCore = s.ringCore := by
  unfold startChannelRelease
  dsimp only
  (repeat' split) <;> simp (maxDischargeDepth := 20)

@[simp] theorem askRelease_ringCore (ch : Nat) (s : State) :
    (askRelease ch s).ringCore = s.ringCore := by
  unfold askRelease
  dsimp only
  (repeat' split) <;> simp (maxDischargeDepth := 20)

@[simp] theorem commitRecording_ringCore (ch : Nat) (s : State) :
    (commitRecording ch s).ringCore = s.ringCore := by simp [commitRecording]

@[simp] theorem closeByRelease_ringCore (ch : Nat) (st : Status) (s : State) :
    (closeByRelease ch st s).ringCore = s.ringCore := by
  unfold closeByRelease
  dsimp only
  (repeat' split) <;> simp (maxDischargeDepth := 20)

@[simp] theorem afterWrites_ringCore (ch : Nat) (s : State) :
    (afterWrites ch s).ringCore = s.ringCore := by
  unfold afterWrites
  dsimp only
  (repeat' split) <;> simp (maxDischargeDepth := 20)

@[simp] theorem returnBuffer_ringCore (ch : Nat) (second : Bool) (s : State) :
    (returnBuffer ch second s).ringCore = s.ringCore := by
  unfold returnBuffer
  dsimp only
  (repeat' split) <;> simp (maxDischargeDepth := 20)

@[simp] theorem returnWaiting_ringCore (ch : Nat) (s : State) :
    (returnWaiting ch s).ringCore = s.ringCore := by
  unfold returnWaiting
  dsimp only
  (repeat' split) <;> simp (maxDischargeDepth := 20)

@[simp] theorem dropUnwritten_ringCore (ch : Nat) (s : State) :
    (dropUnwritten ch s).ringCore = s.ringCore := by simp [dropUnwritten]

@[simp] theorem patchLast_ringCore (ch : Nat) (s : State) :
    (patchLast ch s).ringCore = s.ringCore := by
  unfold State.ringCore
  rw [patchLast_ring]

@[simp] theorem returnEmpty_ringCore (ch b : Nat) (s : State) :
    (returnEmpty ch b s).ringCore = s.ringCore := by
  unfold returnEmpty
  dsimp only
  (repeat' split) <;> simp (maxDischargeDepth := 20)

@[simp] theorem closeBlocks_ringCore (ch : Nat) (s : State) :
    (closeBlocks ch s).ringCore = s.ringCore := by
  unfold closeBlocks
  dsimp only
  (repeat' split) <;> simp (maxDischargeDepth := 20)

@[simp] theorem blockWritten_ringCore (ch : Nat) (second : Bool) (s : State) :
    (blockWritten ch second s).ringCore = s.ringCore := by
  unfold blockWritten
  dsimp only
  (repeat' split) <;> simp (maxDischargeDepth := 20)

@[simp] theorem patchWritten_ringCore (ch : Nat) (s : State) :
    (patchWritten ch s).ringCore = s.ringCore := by simp [patchWritten]

@[simp] theorem checkoutChannel_ringCore (ch : Nat) (s : State) :
    (checkoutChannel ch s).ringCore = s.ringCore := by
  unfold checkoutChannel
  dsimp only
  (repeat' split) <;> simp (maxDischargeDepth := 20)

@[simp] theorem checkoutChannels_ringCore (r : Nat) (s : State) : (checkoutChannels r s).ringCore = s.ringCore := by
  unfold checkoutChannels
  refine foldl_keeps State.ringCore _ (fun t ch => ?_) _ s
  split <;> simp

@[simp] theorem fetchBlock_ringCore (ch : Nat) (second : Bool) (b : Nat) (s : State) :
    (fetchBlock ch second b s).ringCore = s.ringCore := rfl

@[simp] theorem prefetch_ringCore (ch : Nat) (s : State) :
    (prefetch ch s).ringCore = s.ringCore := by
  unfold State.ringCore
  rw [prefetch_ring]

@[simp] theorem yieldSample_ringCore (ch : Nat) (s : State) : (yieldSample ch s).2.ringCore = s.ringCore := by
  simp [yieldSample]

@[simp] theorem moveBuffer_ringCore (ch : Nat) (s : State) :
    (moveBuffer ch s).ringCore = s.ringCore := by
  unfold State.ringCore
  rw [moveBuffer_ring]

@[simp] theorem playStep_ringCore (ch : Nat) (s : State) : (playStep ch s).2.ringCore = s.ringCore := by
  unfold playStep
  dsimp only
  (repeat' split) <;> simp

@[simp] theorem meetChannel_ringCore (ch : Nat) (seen : List Nat) (s : State) :
    (meetChannel ch seen s).ringCore = s.ringCore := by
  unfold State.ringCore
  rw [meetChannel_ring]

@[simp] theorem serveRead_ringCore (zeroed : Option Nat) (off : Nat) (ls : List (Option Byte)) (seen : List Nat)
    (s : State) : (serveRead zeroed off ls seen s).2.2.ringCore = s.ringCore :=
  serveRead_ind (fun t => t.ringCore = s.ringCore) zeroed (fun ch seen t h => by simpa using h)
    (fun ch t h _ => by simpa using h) ls off seen s rfl

@[simp] theorem openDone_ringCore (ch : Nat) (ended : Bool) (s : State) :
    (openDone ch ended s).ringCore = s.ringCore := by simp [openDone]

@[simp] theorem openEnded_ringCore (ch : Nat) (s : State) :
    (openEnded ch s).ringCore = s.ringCore := by simp [openEnded]

@[simp] theorem openArrived_ringCore (ch : Nat) (second : Bool) (s : State) :
    (openArrived ch second s).ringCore = s.ringCore := by
  unfold openArrived
  dsimp only
  (repeat' split) <;> simp (maxDischargeDepth := 20)

@[simp] theorem raiseOffsetRead_ringCore (ch b : Nat) (s : State) :
    (raiseOffsetRead ch b s).ringCore = s.ringCore := rfl

@[simp] theorem walkStep_ringCore (ch : Nat) (header : List Byte) (s : State) :
    (walkStep ch header s).ringCore = s.ringCore := by
  unfold walkStep
  dsimp only
  (repeat' split) <;> simp (maxDischargeDepth := 20)

@[simp] theorem fetchArrived_ringCore (ch : Nat) (second : Bool) (data : List Byte) (s : State) :
    (fetchArrived ch second data s).ringCore = s.ringCore := by
  unfold fetchArrived
  dsimp only
  (repeat' split) <;> simp (maxDischargeDepth := 20)

@[simp] theorem workOutBarred_ringCore (r : Nat) (total : Int) (s : State) :
    (workOutBarred r total s).ringCore = s.ringCore := by
  unfold State.ringCore
  rw [workOutBarred_ring]

@[simp] theorem settleBarred_ringCore (r : Nat) (s : State) :
    (settleBarred r s).ringCore = s.ringCore := rfl

@[simp] theorem raiseFolioWrite_ringCore (s : State) :
    (raiseFolioWrite s).ringCore = s.ringCore := by
  unfold State.ringCore
  rw [raiseFolioWrite_ring]

@[simp] theorem queueFolioWrite_ringCore (w : FolioWrite) (s : State) :
    (queueFolioWrite w s).ringCore = s.ringCore := by
  unfold State.ringCore
  rw [queueFolioWrite_ring]

@[simp] theorem appendCharge_ringCore (r : Nat) (p : Place) (f : Folio) (c : Charge) (order : Option Nat) (s : State) :
    (appendCharge r p f c order s).2.ringCore = s.ringCore := by
  unfold appendCharge
  dsimp only
  (repeat' split) <;> simp

@[simp] theorem unbilled_ringCore (c : Charge) (s : State) :
    (unbilled c s).ringCore = s.ringCore := by
  unfold State.ringCore
  rw [unbilled_ring]

@[simp] theorem lateCharge_ringCore (f : Folio) (c : Charge) (s : State) :
    (lateCharge f c s).ringCore = s.ringCore := by
  unfold State.ringCore
  rw [lateCharge_ring]

@[simp] theorem handOver_ringCore (c : Charge) (s : State) : (handOver c s).ringCore = s.ringCore := by
  have hu := unbilled_ringCore c s
  unfold handOver
  split
  · split
    · split
      · exact appendCharge_ringCore _ _ _ _ _ _
      · split
        · split
          · exact lateCharge_ringCore _ _ _
          · exact hu
        · exact hu
    · split
      · split
        · exact lateCharge_ringCore _ _ _
        · exact hu
      · exact hu
  · exact hu

@[simp] theorem openFolio_ringCore (r : Nat) (s : State) :
    (openFolio r s).ringCore = s.ringCore := rfl

@[simp] theorem returnRecords_ringCore (f : Folio) (s : State) :
    (returnRecords f s).ringCore = s.ringCore := rfl

@[simp] theorem discardClosed_ringCore (r : Nat) (s : State) :
    (discardClosed r s).ringCore = s.ringCore := by
  unfold State.ringCore
  rw [discardClosed_ring]

@[simp] theorem closeFolio_ringCore (r : Nat) (s : State) :
    (closeFolio r s).ringCore = s.ringCore := by
  unfold State.ringCore
  rw [closeFolio_ring]

@[simp] theorem trunkSequence_ringCore (t anomaly : Nat) (written : Byte) (s : State) :
    (trunkSequence t anomaly written s).ringCore = s.ringCore := by
  unfold State.ringCore
  rw [trunkSequence_ring]

@[simp] theorem seizeTrunk_ringCore (t : Nat) (s : State) :
    (seizeTrunk t s).ringCore = s.ringCore := rfl

@[simp] theorem captureCall_ringCore (t : Nat) (s : State) :
    (captureCall t s).ringCore = s.ringCore := rfl

@[simp] theorem countAnswer_ringCore (t : Nat) (s : State) :
    (countAnswer t s).ringCore = s.ringCore := by
  unfold State.ringCore
  rw [countAnswer_ring]

@[simp] theorem missedSeize_ringCore (t : Nat) (s : State) :
    (missedSeize t s).ringCore = s.ringCore := by
  unfold State.ringCore
  rw [missedSeize_ring]

@[simp] theorem idleTrunk_ringCore (t : Nat) (s : State) :
    (idleTrunk t s).ringCore = s.ringCore := rfl

@[simp] theorem unansweredClear_ringCore (t : Nat) (s : State) :
    (unansweredClear t s).ringCore = s.ringCore := by
  unfold State.ringCore
  rw [unansweredClear_ring]

@[simp] theorem noticeUnrated_ringCore (c : Charge) (s : State) :
    (noticeUnrated c s).ringCore = s.ringCore := by
  unfold State.ringCore
  rw [noticeUnrated_ring]

@[simp] theorem rateCall_ringCore (t : Nat) (implicit : Bool) (s : State) :
    (rateCall t implicit s).ringCore = s.ringCore := by
  unfold State.ringCore
  rw [rateCall_ring]

@[simp] theorem answeredClear_ringCore (t : Nat) (implicit : Bool) (s : State) :
    (answeredClear t implicit s).ringCore = s.ringCore := by
  unfold State.ringCore
  rw [answeredClear_ring]

@[simp] theorem stepTrunk_ringCore (t : Nat) (w : WrittenState) (s : State) :
    (stepTrunk t w s).ringCore = s.ringCore := by
  unfold State.ringCore
  rw [stepTrunk_ring]

@[simp] theorem trunkWritten_ringCore (t : Nat) (old new : Byte) (s : State) :
    (trunkWritten t old new s).ringCore = s.ringCore := by
  unfold State.ringCore
  rw [trunkWritten_ring]

@[simp] theorem settleTrunk_ringCore (t : Nat) (s : State) :
    (settleTrunk t s).ringCore = s.ringCore := by
  unfold State.ringCore
  rw [settleTrunk_ring]

@[simp] theorem sendFrame_ringCore (k : Nat) (f : BitVec 32) (changed : List Nat) (s : State) :
    (sendFrame k f changed s).ringCore = s.ringCore := rfl

@[simp] theorem startSweep_ringCore (s : State) :
    (startSweep s).ringCore = s.ringCore := by
  unfold State.ringCore
  rw [startSweep_ring]

@[simp] theorem writeLinkHeader_ringCore (s : State) :
    (writeLinkHeader s).ringCore = s.ringCore := rfl

@[simp] theorem writeLinkEntry_ringCore (k : Nat) (s : State) :
    (writeLinkEntry k s).ringCore = s.ringCore := rfl

@[simp] theorem clearMismatches_ringCore (k : Nat) (s : State) : (clearMismatches k s).ringCore = s.ringCore :=
  foldl_keeps State.ringCore _ (fun t p => State.setLamp_ringCore t _ _) _ s

@[simp] theorem badReturn_ringCore (k : Nat) (r : BadReason) (s : State) :
    (badReturn k r s).ringCore = s.ringCore := by
  unfold State.ringCore
  rw [badReturn_ring]

@[simp] theorem latchFault_ringCore (r : Nat) (kind : Latch) (f : BitVec 32) (s : State) :
    (latchFault r kind f s).ringCore = s.ringCore := by
  unfold State.ringCore
  rw [latchFault_ring]

@[simp] theorem evaluateLamp_ringCore (r : Nat) (on sensed : Bool) (f : BitVec 32) (s : State) :
    (evaluateLamp r on sensed f s).ringCore = s.ringCore := by
  unfold State.ringCore
  rw [evaluateLamp_ring]

@[simp] theorem evaluateCard_ringCore (k : Nat) (drive sense : BitVec 64) (f : BitVec 32) (s : State) :
    (evaluateCard k drive sense f s).ringCore = s.ringCore :=
  foldl_keeps State.ringCore _ (fun t p => evaluateLamp_ringCore _ _ _ _ t) _ s

@[simp] theorem goodReturn_ringCore (w : Sweep) (s : State) : (goodReturn w s).ringCore = s.ringCore := by
  unfold goodReturn
  dsimp only
  split
  · rw [evaluateCard_ringCore]
    split <;> simp
  · split <;> simp

@[simp] theorem judgeCard_ringCore (w : Sweep) (s : State) :
    (judgeCard w s).ringCore = s.ringCore := by
  unfold State.ringCore
  rw [judgeCard_ring]

@[simp] theorem closeWindow_ringCore (w : Sweep) (s : State) : (closeWindow w s).ringCore = s.ringCore := by
  unfold closeWindow
  dsimp only
  split
  · simp
  · rw [foldl_keeps State.ringCore (fun t k => writeLinkEntry k t) (fun t k => writeLinkEntry_ringCore k t)]
    simp

@[simp] theorem clearFault_ringCore (r : Nat) (s : State) :
    (clearFault r s).ringCore = s.ringCore := by
  unfold State.ringCore
  rw [clearFault_ring]

@[simp] theorem createMessage_ringCore (c : List Byte) (i : Nat) (s : State) :
    (createMessage c i s).ringCore = s.ringCore := by
  unfold State.ringCore
  rw [createMessage_ring]

@[simp] theorem recordOpenAct_ringCore (slot : Nat) (c : List Byte) (s : State) :
    (recordOpenAct slot c s).ringCore = s.ringCore := by simp [recordOpenAct]

@[simp] theorem enterClosing_ringCore (slot ch : Nat) (how : Closing) (s : State) :
    (enterClosing slot ch how s).ringCore = s.ringCore := by
  unfold State.ringCore
  rw [enterClosing_ring]

@[simp] theorem recordCloseAct_ringCore (slot : Nat) (c : List Byte) (s : State) :
    (recordCloseAct slot c s).ringCore = s.ringCore := by
  unfold recordCloseAct
  dsimp only
  (repeat' split) <;> simp (maxDischargeDepth := 20)

@[simp] theorem recordAbandonAct_ringCore (slot : Nat) (c : List Byte) (s : State) :
    (recordAbandonAct slot c s).ringCore = s.ringCore := by
  unfold recordAbandonAct
  dsimp only
  (repeat' split) <;> simp (maxDischargeDepth := 20)

@[simp] theorem claimPlay_ringCore (slot ch i offset : Nat) (s : State) :
    (claimPlay slot ch i offset s).ringCore = s.ringCore := rfl

@[simp] theorem playOpenAct_ringCore (slot : Nat) (c : List Byte) (s : State) :
    (playOpenAct slot c s).ringCore = s.ringCore := by
  unfold playOpenAct
  dsimp only
  (repeat' split) <;> simp (maxDischargeDepth := 20)

@[simp] theorem dispose_ringCore (i d : Nat) (s : State) :
    (dispose i d s).ringCore = s.ringCore := by
  unfold State.ringCore
  rw [dispose_ring]

@[simp] theorem dropBuffers_ringCore (ch : Nat) (s : State) :
    (dropBuffers ch s).ringCore = s.ringCore := rfl

@[simp] theorem playCloseAct_ringCore (slot : Nat) (c : List Byte) (s : State) :
    (playCloseAct slot c s).ringCore = s.ringCore := by simp [playCloseAct]

@[simp] theorem messageSaveAct_ringCore (slot : Nat) (c : List Byte) (s : State) :
    (messageSaveAct slot c s).ringCore = s.ringCore := by
  unfold messageSaveAct
  dsimp only
  (repeat' split) <;> simp (maxDischargeDepth := 20)

@[simp] theorem messageMarkNewAct_ringCore (slot : Nat) (c : List Byte) (s : State) :
    (messageMarkNewAct slot c s).ringCore = s.ringCore := by
  unfold messageMarkNewAct
  dsimp only
  (repeat' split) <;> simp (maxDischargeDepth := 20)

@[simp] theorem holdOrder_ringCore (slot left : Nat) (deferred : Bool) (res : List Byte) (s : State) :
    (holdOrder slot left deferred res s).ringCore = s.ringCore := rfl

@[simp] theorem messageDeleteAct_ringCore (slot : Nat) (c : List Byte) (s : State) :
    (messageDeleteAct slot c s).ringCore = s.ringCore := by
  unfold messageDeleteAct
  dsimp only
  (repeat' split) <;> simp (maxDischargeDepth := 20)

@[simp] theorem mailboxPurgeAct_ringCore (slot : Nat) (c : List Byte) (s : State) :
    (mailboxPurgeAct slot c s).ringCore = s.ringCore := by
  have h := foldl_keeps State.ringCore (fun t i => releaseMessage i (.order slot) t)
    (fun t i => releaseMessage_ringCore i _ t) (s.purgeScope c) s
  unfold mailboxPurgeAct
  dsimp only
  split
  · rw [completeOrder_ringCore, h]
  · rw [holdOrder_ringCore, h]

@[simp] theorem lampOverrideAct_ringCore (slot : Nat) (c : List Byte) (s : State) :
    (lampOverrideAct slot c s).ringCore = s.ringCore := by
  unfold lampOverrideAct
  dsimp only
  rw [completeOrder_ringCore, foldl_keeps State.ringCore _ (fun t r => setOverride_ringCore _ r t)]

@[simp] theorem lampFaultClearAct_ringCore (slot : Nat) (c : List Byte) (s : State) :
    (lampFaultClearAct slot c s).ringCore = s.ringCore := by
  unfold lampFaultClearAct
  dsimp only
  rw [completeOrder_ringCore, foldl_keeps State.ringCore _ (fun t r => clearFault_ringCore r t)]

@[simp] theorem folioAdjustAct_ringCore (slot : Nat) (c : List Byte) (s : State) :
    (folioAdjustAct slot c s).ringCore = s.ringCore := by
  unfold folioAdjustAct
  dsimp only
  (repeat' split) <;> simp (maxDischargeDepth := 20)

@[simp] theorem folioReleaseAct_ringCore (slot : Nat) (c : List Byte) (s : State) :
    (folioReleaseAct slot c s).ringCore = s.ringCore := by
  unfold folioReleaseAct
  dsimp only
  (repeat' split) <;> simp (maxDischargeDepth := 20)

@[simp] theorem clockSetAct_ringCore (slot : Nat) (c : List Byte) (s : State) :
    (clockSetAct slot c s).ringCore = s.ringCore := by simp [clockSetAct]

@[simp] theorem orderAct_ringCore (o : Order) (slot : Nat) (c : List Byte) (s : State) :
    (orderAct o slot c s).ringCore = s.ringCore := by
  unfold orderAct
  split <;> simp

@[simp] theorem renewFirst_ringCore (n : Nat) (s : State) :
    (renewFirst n s).ringCore = s.ringCore := by
  unfold State.ringCore
  rw [renewFirst_ring]

@[simp] theorem leaveReleaseLine_ringCore (s : State) :
    (leaveReleaseLine s).ringCore = s.ringCore := rfl

@[simp] theorem startPop_ringCore (s : State) :
    (startPop s).ringCore = s.ringCore := rfl

@[simp] theorem popReturned_ringCore (data : List Byte) (s : State) :
    (popReturned data s).ringCore = s.ringCore := by simp [popReturned]

@[simp] theorem startPush_ringCore (s : State) :
    (startPush s).ringCore = s.ringCore := by
  unfold State.ringCore
  rw [startPush_ring]

@[simp] theorem reportRelease_ringCore (cause : Cause) (s : State) :
    (reportRelease cause s).ringCore = s.ringCore := by
  unfold reportRelease
  split <;> simp

@[simp] theorem completeEntry_ringCore (e : ReleaseEntry) (rest : List ReleaseEntry) (s : State) :
    (completeEntry e rest s).ringCore = s.ringCore := by simp [completeEntry]

@[simp] theorem releaseInHand_ringCore (w : Walk) (e : ReleaseEntry) (s : State) :
    (releaseInHand w e s).ringCore = s.ringCore := by simp [releaseInHand]

@[simp] theorem walkReturned_ringCore (header : List Byte) (s : State) :
    (walkReturned header s).ringCore = s.ringCore := by
  unfold walkReturned
  dsimp only
  (repeat' split) <;> simp (maxDischargeDepth := 20)

end Sys2Proof.Machine
end

