-- ==== Sys2Proof/Laws/KeepStore.lean ====
section
/-! SUPPORT. Which operations leave the store as it was. -/

namespace Sys2Proof.Machine

@[simp] theorem notify_store (who : Requester) (k : NoticeKind) (room detail1 detail2 : Nat) (s : State) :
    (notify who k room detail1 detail2 s).store = s.store := by
  unfold notify
  split <;> simp

@[simp] theorem recomputeLamp_store (r : Nat) (s : State) :
    (recomputeLamp r s).store = s.store := by
  unfold recomputeLamp
  dsimp only
  (repeat' split) <;> simp (maxDischargeDepth := 20)

@[simp] theorem setOverride_store (o : Override) (r : Nat) (s : State) :
    (setOverride o r s).store = s.store := by
  unfold setOverride
  dsimp only
  (repeat' split) <;> simp (maxDischargeDepth := 20)

@[simp] theorem clearDesk_store (r : Nat) (s : State) :
    (clearDesk r s).store = s.store := by
  unfold clearDesk
  dsimp only
  (repeat' split) <;> simp (maxDischargeDepth := 20)

@[simp] theorem recordWrite_store (i : Nat) (s : State) :
    (recordWrite i s).store = s.store := by
  unfold recordWrite
  split <;> simp

@[simp] theorem raiseExecuting_store (slot : Nat) (copy : List Byte) (s : State) :
    (raiseExecuting slot copy s).store = s.store := rfl

@[simp] theorem completeOrder_store (slot : Nat) (status : Status) (deferred : Bool) (res : List Byte) (s : State) :
    (completeOrder slot status deferred res s).store = s.store := by
  unfold completeOrder
  split <;> simp

@[simp] theorem completeFor_store (order : Option Nat) (status : Status) (res : List Byte) (s : State) :
    (completeFor order status res s).store = s.store := by
  unfold completeFor
  split <;> simp

@[simp] theorem orderStep_store (slot : Nat) (s : State) : (orderStep slot s).store = s.store := by
  unfold orderStep
  split
  · rfl
  · split <;> simp

@[simp] theorem writeBlock_store (ch : Nat) (second : Bool) (next : Nat) (s : State) :
    (writeBlock ch second next s).store = s.store := rfl

@[simp] theorem noticeStopped_store (ch : Nat) (reason : StopReason) (s : State) :
    (noticeStopped ch reason s).store = s.store := by simp [noticeStopped]

@[simp] theorem codeSample_store (ch : Nat) (second : Bool) (x : Int) (s : State) :
    (codeSample ch second x s).store = s.store := rfl

@[simp] theorem refuseSample_store (ch : Nat) (s : State) :
    (refuseSample ch s).store = s.store := rfl

@[simp] theorem dropSample_store (ch : Nat) (s : State) :
    (dropSample ch s).store = s.store := rfl

@[simp] theorem freeChannel_store (ch : Nat) (st : Status) (res : List Byte) (s : State) :
    (freeChannel ch st res s).store = s.store := by simp [freeChannel]

@[simp] theorem channelReleased_store (ch : Nat) (s : State) :
    (channelReleased ch s).store = s.store := by
  unfold channelReleased
  dsimp only
  (repeat' split) <;> simp (maxDischargeDepth := 20)

@[simp] theorem patchLast_store (ch : Nat) (s : State) :
    (patchLast ch s).store = s.store := by
  unfold patchLast
  dsimp only
  (repeat' split) <;> simp (maxDischargeDepth := 20)

@[simp] theorem fetchBlock_store (ch : Nat) (second : Bool) (b : Nat) (s : State) :
    (fetchBlock ch second b s).store = s.store := rfl

@[simp] theorem prefetch_store (ch : Nat) (s : State) :
    (prefetch ch s).store = s.store := by
  unfold prefetch
  dsimp only
  (repeat' split) <;> simp (maxDischargeDepth := 20)

@[simp] theorem yieldSample_store (ch : Nat) (s : State) : (yieldSample ch s).2.store = s.store := by
  simp [yieldSample]

@[simp] theorem moveBuffer_store (ch : Nat) (s : State) :
    (moveBuffer ch s).store = s.store := by simp [moveBuffer]

@[simp] theorem playStep_store (ch : Nat) (s : State) : (playStep ch s).2.store = s.store := by
  unfold playStep
  dsimp only
  (repeat' split) <;> simp

@[simp] theorem meetChannel_store (ch : Nat) (seen : List Nat) (s : State) :
    (meetChannel ch seen s).store = s.store := by
  unfold meetChannel
  dsimp only
  (repeat' split) <;> simp (maxDischargeDepth := 20)

@[simp] theorem serveRead_store (zeroed : Option Nat) (off : Nat) (ls : List (Option Byte)) (seen : List Nat)
    (s : State) : (serveRead zeroed off ls seen s).2.2.store = s.store :=
  serveRead_ind (fun t => t.store = s.store) zeroed (fun ch seen t h => by simpa using h)
    (fun ch t h _ => by simpa using h) ls off seen s rfl

@[simp] theorem openDone_store (ch : Nat) (ended : Bool) (s : State) :
    (openDone ch ended s).store = s.store := by simp [openDone]

@[simp] theorem openEnded_store (ch : Nat) (s : State) :
    (openEnded ch s).store = s.store := by simp [openEnded]

@[simp] theorem openArrived_store (ch : Nat) (second : Bool) (s : State) :
    (openArrived ch second s).store = s.store := by
  unfold openArrived
  dsimp only
  (repeat' split) <;> simp (maxDischargeDepth := 20)

@[simp] theorem raiseOffsetRead_store (ch b : Nat) (s : State) :
    (raiseOffsetRead ch b s).store = s.store := rfl

@[simp] theorem walkStep_store (ch : Nat) (header : List Byte) (s : State) :
    (walkStep ch header s).store = s.store := by
  unfold walkStep
  dsimp only
  (repeat' split) <;> simp (maxDischargeDepth := 20)

@[simp] theorem fetchArrived_store (ch : Nat) (second : Bool) (data : List Byte) (s : State) :
    (fetchArrived ch second data s).store = s.store := by
  unfold fetchArrived
  dsimp only
  (repeat' split) <;> simp (maxDischargeDepth := 20)

@[simp] theorem workOutBarred_store (r : Nat) (total : Int) (s : State) :
    (workOutBarred r total s).store = s.store := by
  unfold workOutBarred
  dsimp only
  (repeat' split) <;> simp (maxDischargeDepth := 20)

@[simp] theorem settleBarred_store (r : Nat) (s : State) :
    (settleBarred r s).store = s.store := rfl

@[simp] theorem raiseFolioWrite_store (s : State) :
    (raiseFolioWrite s).store = s.store := by
  unfold raiseFolioWrite
  dsimp only
  (repeat' split) <;> simp (maxDischargeDepth := 20)

@[simp] theorem queueFolioWrite_store (w : FolioWrite) (s : State) :
    (queueFolioWrite w s).store = s.store := by simp [queueFolioWrite]

@[simp] theorem appendCharge_store (r : Nat) (p : Place) (f : Folio) (c : Charge) (order : Option Nat) (s : State) :
    (appendCharge r p f c order s).2.store = s.store := by
  unfold appendCharge
  dsimp only
  (repeat' split) <;> simp

@[simp] theorem unbilled_store (c : Charge) (s : State) :
    (unbilled c s).store = s.store := by simp [unbilled]

@[simp] theorem lateCharge_store (f : Folio) (c : Charge) (s : State) :
    (lateCharge f c s).store = s.store := by simp [lateCharge]

@[simp] theorem handOver_store (c : Charge) (s : State) : (handOver c s).store = s.store := by
  have hu := unbilled_store c s
  unfold handOver
  split
  · split
    · split
      · exact appendCharge_store _ _ _ _ _ _
      · split
        · split
          · exact lateCharge_store _ _ _
          · exact hu
        · exact hu
    · split
      · split
        · exact lateCharge_store _ _ _
        · exact hu
      · exact hu
  · exact hu

@[simp] theorem openFolio_store (r : Nat) (s : State) :
    (openFolio r s).store = s.store := rfl

@[simp] theorem returnRecords_store (f : Folio) (s : State) :
    (returnRecords f s).store = s.store := rfl

@[simp] theorem discardClosed_store (r : Nat) (s : State) :
    (discardClosed r s).store = s.store := by
  unfold discardClosed
  split <;> simp

@[simp] theorem closeFolio_store (r : Nat) (s : State) :
    (closeFolio r s).store = s.store := by
  unfold closeFolio
  dsimp only
  (repeat' split) <;> simp (maxDischargeDepth := 20)

@[simp] theorem trunkSequence_store (t anomaly : Nat) (written : Byte) (s : State) :
    (trunkSequence t anomaly written s).store = s.store := by simp [trunkSequence]

@[simp] theorem seizeTrunk_store (t : Nat) (s : State) :
    (seizeTrunk t s).store = s.store := rfl

@[simp] theorem captureCall_store (t : Nat) (s : State) :
    (captureCall t s).store = s.store := rfl

@[simp] theorem countAnswer_store (t : Nat) (s : State) :
    (countAnswer t s).store = s.store := by
  unfold countAnswer
  split <;> simp

@[simp] theorem missedSeize_store (t : Nat) (s : State) :
    (missedSeize t s).store = s.store := by simp [missedSeize]

@[simp] theorem idleTrunk_store (t : Nat) (s : State) :
    (idleTrunk t s).store = s.store := rfl

@[simp] theorem unansweredClear_store (t : Nat) (s : State) :
    (unansweredClear t s).store = s.store := by
  unfold unansweredClear
  dsimp only
  (repeat' split) <;> simp (maxDischargeDepth := 20)

@[simp] theorem noticeUnrated_store (c : Charge) (s : State) :
    (noticeUnrated c s).store = s.store := by simp [noticeUnrated]

@[simp] theorem rateCall_store (t : Nat) (implicit : Bool) (s : State) :
    (rateCall t implicit s).store = s.store := by
  unfold rateCall
  dsimp only
  (repeat' split) <;> simp (maxDischargeDepth := 20)

@[simp] theorem answeredClear_store (t : Nat) (implicit : Bool) (s : State) :
    (answeredClear t implicit s).store = s.store := by
  unfold answeredClear
  dsimp only
  (repeat' split) <;> simp (maxDischargeDepth := 20)

@[simp] theorem stepTrunk_store (t : Nat) (w : WrittenState) (s : State) :
    (stepTrunk t w s).store = s.store := by
  unfold stepTrunk
  split <;> simp

@[simp] theorem trunkWritten_store (t : Nat) (old new : Byte) (s : State) :
    (trunkWritten t old new s).store = s.store := by
  unfold trunkWritten
  dsimp only
  (repeat' split) <;> simp (maxDischargeDepth := 20)

@[simp] theorem settleTrunk_store (t : Nat) (s : State) :
    (settleTrunk t s).store = s.store := by
  unfold settleTrunk
  dsimp only
  (repeat' split) <;> simp (maxDischargeDepth := 20)

@[simp] theorem sendFrame_store (k : Nat) (f : BitVec 32) (changed : List Nat) (s : State) :
    (sendFrame k f changed s).store = s.store := rfl

@[simp] theorem startSweep_store (s : State) :
    (startSweep s).store = s.store := by
  unfold startSweep
  split <;> simp

@[simp] theorem writeLinkHeader_store (s : State) :
    (writeLinkHeader s).store = s.store := rfl

@[simp] theorem writeLinkEntry_store (k : Nat) (s : State) :
    (writeLinkEntry k s).store = s.store := rfl

@[simp] theorem clearMismatches_store (k : Nat) (s : State) : (clearMismatches k s).store = s.store :=
  foldl_keeps State.store _ (fun t p => State.setLamp_store t _ _) _ s

@[simp] theorem badReturn_store (k : Nat) (r : BadReason) (s : State) :
    (badReturn k r s).store = s.store := by
  unfold badReturn
  dsimp only
  (repeat' split) <;> simp (maxDischargeDepth := 20)

@[simp] theorem latchFault_store (r : Nat) (kind : Latch) (f : BitVec 32) (s : State) :
    (latchFault r kind f s).store = s.store := by
  unfold latchFault
  dsimp only
  (repeat' split) <;> simp (maxDischargeDepth := 20)

@[simp] theorem evaluateLamp_store (r : Nat) (on sensed : Bool) (f : BitVec 32) (s : State) :
    (evaluateLamp r on sensed f s).store = s.store := by
  unfold evaluateLamp
  dsimp only
  (repeat' split) <;> simp (maxDischargeDepth := 20)

@[simp] theorem evaluateCard_store (k : Nat) (drive sense : BitVec 64) (f : BitVec 32) (s : State) :
    (evaluateCard k drive sense f s).store = s.store :=
  foldl_keeps State.store _ (fun t p => evaluateLamp_store _ _ _ _ t) _ s

@[simp] theorem goodReturn_store (w : Sweep) (s : State) : (goodReturn w s).store = s.store := by
  unfold goodReturn
  dsimp only
  split
  · rw [evaluateCard_store]
    split <;> simp
  · split <;> simp

@[simp] theorem judgeCard_store (w : Sweep) (s : State) :
    (judgeCard w s).store = s.store := by
  unfold judgeCard
  split <;> simp

@[simp] theorem closeWindow_store (w : Sweep) (s : State) : (closeWindow w s).store = s.store := by
  unfold closeWindow
  dsimp only
  split
  · simp
  · rw [foldl_keeps State.store (fun t k => writeLinkEntry k t) (fun t k => writeLinkEntry_store k t)]
    simp

@[simp] theorem clearFault_store (r : Nat) (s : State) :
    (clearFault r s).store = s.store := by
  unfold clearFault
  dsimp only
  (repeat' split) <;> simp (maxDischargeDepth := 20)

@[simp] theorem claimPlay_store (slot ch i offset : Nat) (s : State) :
    (claimPlay slot ch i offset s).store = s.store := rfl

@[simp] theorem dropBuffers_store (ch : Nat) (s : State) :
    (dropBuffers ch s).store = s.store := rfl

@[simp] theorem holdOrder_store (slot left : Nat) (deferred : Bool) (res : List Byte) (s : State) :
    (holdOrder slot left deferred res s).store = s.store := rfl

@[simp] theorem lampOverrideAct_store (slot : Nat) (c : List Byte) (s : State) :
    (lampOverrideAct slot c s).store = s.store := by
  unfold lampOverrideAct
  dsimp only
  rw [completeOrder_store, foldl_keeps State.store _ (fun t r => setOverride_store _ r t)]

@[simp] theorem lampFaultClearAct_store (slot : Nat) (c : List Byte) (s : State) :
    (lampFaultClearAct slot c s).store = s.store := by
  unfold lampFaultClearAct
  dsimp only
  rw [completeOrder_store, foldl_keeps State.store _ (fun t r => clearFault_store r t)]

@[simp] theorem folioAdjustAct_store (slot : Nat) (c : List Byte) (s : State) :
    (folioAdjustAct slot c s).store = s.store := by
  unfold folioAdjustAct
  dsimp only
  (repeat' split) <;> simp (maxDischargeDepth := 20)

@[simp] theorem folioReleaseAct_store (slot : Nat) (c : List Byte) (s : State) :
    (folioReleaseAct slot c s).store = s.store := by
  unfold folioReleaseAct
  dsimp only
  (repeat' split) <;> simp (maxDischargeDepth := 20)

@[simp] theorem clockSetAct_store (slot : Nat) (c : List Byte) (s : State) :
    (clockSetAct slot c s).store = s.store := by simp [clockSetAct]

@[simp] theorem reportRelease_store (cause : Cause) (s : State) :
    (reportRelease cause s).store = s.store := by
  unfold reportRelease
  split <;> simp

end Sys2Proof.Machine
end

