-- ==== Sys2Proof/Laws/KeepVoice.lean ====
section
/-! SUPPORT. Which operations leave the channels as it was. -/

namespace Sys2Proof.Machine

@[simp] theorem notify_voice (who : Requester) (k : NoticeKind) (room detail1 detail2 : Nat) (s : State) :
    (notify who k room detail1 detail2 s).voice = s.voice := by
  unfold notify
  split <;> simp

@[simp] theorem recomputeLamp_voice (r : Nat) (s : State) :
    (recomputeLamp r s).voice = s.voice := by
  unfold recomputeLamp
  dsimp only
  (repeat' split) <;> simp (maxDischargeDepth := 20)

@[simp] theorem setOverride_voice (o : Override) (r : Nat) (s : State) :
    (setOverride o r s).voice = s.voice := by
  unfold setOverride
  dsimp only
  (repeat' split) <;> simp (maxDischargeDepth := 20)

@[simp] theorem clearDesk_voice (r : Nat) (s : State) :
    (clearDesk r s).voice = s.voice := by
  unfold clearDesk
  dsimp only
  (repeat' split) <;> simp (maxDischargeDepth := 20)

@[simp] theorem recordWrite_voice (i : Nat) (s : State) :
    (recordWrite i s).voice = s.voice := by
  unfold recordWrite
  split <;> simp

@[simp] theorem updateMessage_voice (i : Nat) (m : Message) (s : State) :
    (updateMessage i m s).voice = s.voice := by simp [updateMessage]

@[simp] theorem freeRecord_voice (i : Nat) (s : State) :
    (freeRecord i s).voice = s.voice := by
  unfold freeRecord
  dsimp only
  (repeat' split) <;> simp (maxDischargeDepth := 20)

@[simp] theorem relink_voice (list : List Nat) (i : Nat) (s : State) :
    (relink list i s).voice = s.voice := by
  unfold relink
  dsimp only
  (repeat' split) <;> simp (maxDischargeDepth := 20)

@[simp] theorem setList_voice (r : Nat) (list : List Nat) (s : State) : (setList r list s).voice = s.voice := by
  unfold setList
  dsimp only
  have h := foldl_keeps State.voice (fun t i => relink list i t) (fun t i => relink_voice list i t)
    ((s.mailbox r).list ++ list) s
  split
  · rw [markMail_voice, State.setMailbox_voice, h]
  · rw [recomputeLamp_voice, markMail_voice, State.setMailbox_voice, h]

@[simp] theorem moveMessage_voice (i : Nat) (st : MessageState) (s : State) :
    (moveMessage i st s).voice = s.voice := by simp [moveMessage]

@[simp] theorem storeLowAfterTake_voice (n : Nat) (s : State) :
    (storeLowAfterTake n s).voice = s.voice := by
  unfold storeLowAfterTake
  dsimp only
  (repeat' split) <;> simp (maxDischargeDepth := 20)

@[simp] theorem evalTake_voice (i : Nat) (s : State) : (evalTake i s).2.voice = s.voice := by
  unfold evalTake
  dsimp only
  (repeat' split) <;> simp

@[simp] theorem releaseBlock_voice (b : Nat) (s : State) :
    (releaseBlock b s).voice = s.voice := by
  unfold releaseBlock
  dsimp only
  (repeat' split) <;> simp (maxDischargeDepth := 20)

@[simp] theorem raiseWalk_voice (w : Walk) (s : State) :
    (raiseWalk w s).voice = s.voice := rfl

@[simp] theorem startWalk_voice (s : State) :
    (startWalk s).voice = s.voice := by
  unfold startWalk
  split <;> simp

@[simp] theorem queueChain_voice (i : Nat) (cause : Cause) (s : State) :
    (queueChain i cause s).voice = s.voice := by
  unfold queueChain
  dsimp only
  (repeat' split) <;> simp (maxDischargeDepth := 20)

@[simp] theorem releaseMessage_voice (i : Nat) (cause : Cause) (s : State) :
    (releaseMessage i cause s).voice = s.voice := by
  unfold releaseMessage
  dsimp only
  (repeat' split) <;> simp (maxDischargeDepth := 20)

@[simp] theorem joinReleaseLine_voice (who : Waiter) (n : Nat) (s : State) :
    (joinReleaseLine who n s).voice = s.voice := rfl

@[simp] theorem raiseExecuting_voice (slot : Nat) (copy : List Byte) (s : State) :
    (raiseExecuting slot copy s).voice = s.voice := rfl

@[simp] theorem completeOrder_voice (slot : Nat) (status : Status) (deferred : Bool) (res : List Byte) (s : State) :
    (completeOrder slot status deferred res s).voice = s.voice := by
  unfold completeOrder
  split <;> simp

@[simp] theorem completeFor_voice (order : Option Nat) (status : Status) (res : List Byte) (s : State) :
    (completeFor order status res s).voice = s.voice := by
  unfold completeFor
  split <;> simp

@[simp] theorem orderStep_voice (slot : Nat) (s : State) : (orderStep slot s).voice = s.voice := by
  unfold orderStep
  split
  · rfl
  · split <;> simp

@[simp] theorem updateLength_voice (ch : Nat) (s : State) :
    (updateLength ch s).voice = s.voice := by simp [updateLength]

@[simp] theorem noticeStopped_voice (ch : Nat) (reason : StopReason) (s : State) :
    (noticeStopped ch reason s).voice = s.voice := by simp [noticeStopped]

@[simp] theorem withdrawTake_voice (ch : Nat) (s : State) :
    (withdrawTake ch s).voice = s.voice := rfl

@[simp] theorem workOutBarred_voice (r : Nat) (total : Int) (s : State) :
    (workOutBarred r total s).voice = s.voice := by
  unfold workOutBarred
  dsimp only
  (repeat' split) <;> simp (maxDischargeDepth := 20)

@[simp] theorem settleBarred_voice (r : Nat) (s : State) :
    (settleBarred r s).voice = s.voice := rfl

@[simp] theorem raiseFolioWrite_voice (s : State) :
    (raiseFolioWrite s).voice = s.voice := by
  unfold raiseFolioWrite
  dsimp only
  (repeat' split) <;> simp (maxDischargeDepth := 20)

@[simp] theorem queueFolioWrite_voice (w : FolioWrite) (s : State) :
    (queueFolioWrite w s).voice = s.voice := by simp [queueFolioWrite]

@[simp] theorem appendCharge_voice (r : Nat) (p : Place) (f : Folio) (c : Charge) (order : Option Nat) (s : State) :
    (appendCharge r p f c order s).2.voice = s.voice := by
  unfold appendCharge
  dsimp only
  (repeat' split) <;> simp

@[simp] theorem unbilled_voice (c : Charge) (s : State) :
    (unbilled c s).voice = s.voice := by simp [unbilled]

@[simp] theorem lateCharge_voice (f : Folio) (c : Charge) (s : State) :
    (lateCharge f c s).voice = s.voice := by simp [lateCharge]

@[simp] theorem handOver_voice (c : Charge) (s : State) : (handOver c s).voice = s.voice := by
  have hu := unbilled_voice c s
  unfold handOver
  split
  · split
    · split
      · exact appendCharge_voice _ _ _ _ _ _
      · split
        · split
          · exact lateCharge_voice _ _ _
          · exact hu
        · exact hu
    · split
      · split
        · exact lateCharge_voice _ _ _
        · exact hu
      · exact hu
  · exact hu

@[simp] theorem openFolio_voice (r : Nat) (s : State) :
    (openFolio r s).voice = s.voice := rfl

@[simp] theorem returnRecords_voice (f : Folio) (s : State) :
    (returnRecords f s).voice = s.voice := rfl

@[simp] theorem discardClosed_voice (r : Nat) (s : State) :
    (discardClosed r s).voice = s.voice := by
  unfold discardClosed
  split <;> simp

@[simp] theorem closeFolio_voice (r : Nat) (s : State) :
    (closeFolio r s).voice = s.voice := by
  unfold closeFolio
  dsimp only
  (repeat' split) <;> simp (maxDischargeDepth := 20)

@[simp] theorem trunkSequence_voice (t anomaly : Nat) (written : Byte) (s : State) :
    (trunkSequence t anomaly written s).voice = s.voice := by simp [trunkSequence]

@[simp] theorem seizeTrunk_voice (t : Nat) (s : State) :
    (seizeTrunk t s).voice = s.voice := rfl

@[simp] theorem captureCall_voice (t : Nat) (s : State) :
    (captureCall t s).voice = s.voice := rfl

@[simp] theorem countAnswer_voice (t : Nat) (s : State) :
    (countAnswer t s).voice = s.voice := by
  unfold countAnswer
  split <;> simp

@[simp] theorem missedSeize_voice (t : Nat) (s : State) :
    (missedSeize t s).voice = s.voice := by simp [missedSeize]

@[simp] theorem idleTrunk_voice (t : Nat) (s : State) :
    (idleTrunk t s).voice = s.voice := rfl

@[simp] theorem unansweredClear_voice (t : Nat) (s : State) :
    (unansweredClear t s).voice = s.voice := by
  unfold unansweredClear
  dsimp only
  (repeat' split) <;> simp (maxDischargeDepth := 20)

@[simp] theorem noticeUnrated_voice (c : Charge) (s : State) :
    (noticeUnrated c s).voice = s.voice := by simp [noticeUnrated]

@[simp] theorem rateCall_voice (t : Nat) (implicit : Bool) (s : State) :
    (rateCall t implicit s).voice = s.voice := by
  unfold rateCall
  dsimp only
  (repeat' split) <;> simp (maxDischargeDepth := 20)

@[simp] theorem answeredClear_voice (t : Nat) (implicit : Bool) (s : State) :
    (answeredClear t implicit s).voice = s.voice := by
  unfold answeredClear
  dsimp only
  (repeat' split) <;> simp (maxDischargeDepth := 20)

@[simp] theorem stepTrunk_voice (t : Nat) (w : WrittenState) (s : State) :
    (stepTrunk t w s).voice = s.voice := by
  unfold stepTrunk
  split <;> simp

@[simp] theorem trunkWritten_voice (t : Nat) (old new : Byte) (s : State) :
    (trunkWritten t old new s).voice = s.voice := by
  unfold trunkWritten
  dsimp only
  (repeat' split) <;> simp (maxDischargeDepth := 20)

@[simp] theorem settleTrunk_voice (t : Nat) (s : State) :
    (settleTrunk t s).voice = s.voice := by
  unfold settleTrunk
  dsimp only
  (repeat' split) <;> simp (maxDischargeDepth := 20)

@[simp] theorem sendFrame_voice (k : Nat) (f : BitVec 32) (changed : List Nat) (s : State) :
    (sendFrame k f changed s).voice = s.voice := rfl

@[simp] theorem startSweep_voice (s : State) :
    (startSweep s).voice = s.voice := by
  unfold startSweep
  split <;> simp

@[simp] theorem writeLinkHeader_voice (s : State) :
    (writeLinkHeader s).voice = s.voice := rfl

@[simp] theorem writeLinkEntry_voice (k : Nat) (s : State) :
    (writeLinkEntry k s).voice = s.voice := rfl

@[simp] theorem clearMismatches_voice (k : Nat) (s : State) : (clearMismatches k s).voice = s.voice :=
  foldl_keeps State.voice _ (fun t p => State.setLamp_voice t _ _) _ s

@[simp] theorem badReturn_voice (k : Nat) (r : BadReason) (s : State) :
    (badReturn k r s).voice = s.voice := by
  unfold badReturn
  dsimp only
  (repeat' split) <;> simp (maxDischargeDepth := 20)

@[simp] theorem latchFault_voice (r : Nat) (kind : Latch) (f : BitVec 32) (s : State) :
    (latchFault r kind f s).voice = s.voice := by
  unfold latchFault
  dsimp only
  (repeat' split) <;> simp (maxDischargeDepth := 20)

@[simp] theorem evaluateLamp_voice (r : Nat) (on sensed : Bool) (f : BitVec 32) (s : State) :
    (evaluateLamp r on sensed f s).voice = s.voice := by
  unfold evaluateLamp
  dsimp only
  (repeat' split) <;> simp (maxDischargeDepth := 20)

@[simp] theorem evaluateCard_voice (k : Nat) (drive sense : BitVec 64) (f : BitVec 32) (s : State) :
    (evaluateCard k drive sense f s).voice = s.voice :=
  foldl_keeps State.voice _ (fun t p => evaluateLamp_voice _ _ _ _ t) _ s

@[simp] theorem goodReturn_voice (w : Sweep) (s : State) : (goodReturn w s).voice = s.voice := by
  unfold goodReturn
  dsimp only
  split
  · rw [evaluateCard_voice]
    split <;> simp
  · split <;> simp

@[simp] theorem judgeCard_voice (w : Sweep) (s : State) :
    (judgeCard w s).voice = s.voice := by
  unfold judgeCard
  split <;> simp

@[simp] theorem closeWindow_voice (w : Sweep) (s : State) : (closeWindow w s).voice = s.voice := by
  unfold closeWindow
  dsimp only
  split
  · simp
  · rw [foldl_keeps State.voice (fun t k => writeLinkEntry k t) (fun t k => writeLinkEntry_voice k t)]
    simp

@[simp] theorem clearFault_voice (r : Nat) (s : State) :
    (clearFault r s).voice = s.voice := by
  unfold clearFault
  dsimp only
  (repeat' split) <;> simp (maxDischargeDepth := 20)

@[simp] theorem createMessage_voice (c : List Byte) (i : Nat) (s : State) :
    (createMessage c i s).voice = s.voice := by simp [createMessage]

@[simp] theorem dispose_voice (i d : Nat) (s : State) :
    (dispose i d s).voice = s.voice := by
  unfold dispose
  dsimp only
  (repeat' split) <;> simp (maxDischargeDepth := 20)

@[simp] theorem messageSaveAct_voice (slot : Nat) (c : List Byte) (s : State) :
    (messageSaveAct slot c s).voice = s.voice := by
  unfold messageSaveAct
  dsimp only
  (repeat' split) <;> simp (maxDischargeDepth := 20)

@[simp] theorem messageMarkNewAct_voice (slot : Nat) (c : List Byte) (s : State) :
    (messageMarkNewAct slot c s).voice = s.voice := by
  unfold messageMarkNewAct
  dsimp only
  (repeat' split) <;> simp (maxDischargeDepth := 20)

@[simp] theorem holdOrder_voice (slot left : Nat) (deferred : Bool) (res : List Byte) (s : State) :
    (holdOrder slot left deferred res s).voice = s.voice := rfl

@[simp] theorem messageDeleteAct_voice (slot : Nat) (c : List Byte) (s : State) :
    (messageDeleteAct slot c s).voice = s.voice := by
  unfold messageDeleteAct
  dsimp only
  (repeat' split) <;> simp (maxDischargeDepth := 20)

@[simp] theorem mailboxPurgeAct_voice (slot : Nat) (c : List Byte) (s : State) :
    (mailboxPurgeAct slot c s).voice = s.voice := by
  have h := foldl_keeps State.voice (fun t i => releaseMessage i (.order slot) t)
    (fun t i => releaseMessage_voice i _ t) (s.purgeScope c) s
  unfold mailboxPurgeAct
  dsimp only
  split
  · rw [completeOrder_voice, h]
  · rw [holdOrder_voice, h]

@[simp] theorem lampOverrideAct_voice (slot : Nat) (c : List Byte) (s : State) :
    (lampOverrideAct slot c s).voice = s.voice := by
  unfold lampOverrideAct
  dsimp only
  rw [completeOrder_voice, foldl_keeps State.voice _ (fun t r => setOverride_voice _ r t)]

@[simp] theorem lampFaultClearAct_voice (slot : Nat) (c : List Byte) (s : State) :
    (lampFaultClearAct slot c s).voice = s.voice := by
  unfold lampFaultClearAct
  dsimp only
  rw [completeOrder_voice, foldl_keeps State.voice _ (fun t r => clearFault_voice r t)]

@[simp] theorem folioAdjustAct_voice (slot : Nat) (c : List Byte) (s : State) :
    (folioAdjustAct slot c s).voice = s.voice := by
  unfold folioAdjustAct
  dsimp only
  (repeat' split) <;> simp (maxDischargeDepth := 20)

@[simp] theorem folioReleaseAct_voice (slot : Nat) (c : List Byte) (s : State) :
    (folioReleaseAct slot c s).voice = s.voice := by
  unfold folioReleaseAct
  dsimp only
  (repeat' split) <;> simp (maxDischargeDepth := 20)

@[simp] theorem clockSetAct_voice (slot : Nat) (c : List Byte) (s : State) :
    (clockSetAct slot c s).voice = s.voice := by simp [clockSetAct]

@[simp] theorem renewFirst_voice (n : Nat) (s : State) :
    (renewFirst n s).voice = s.voice := by
  unfold renewFirst
  split <;> simp

@[simp] theorem leaveReleaseLine_voice (s : State) :
    (leaveReleaseLine s).voice = s.voice := rfl

@[simp] theorem startPop_voice (s : State) :
    (startPop s).voice = s.voice := rfl

@[simp] theorem startPush_voice (s : State) :
    (startPush s).voice = s.voice := by
  unfold startPush
  split <;> simp

end Sys2Proof.Machine
end

