-- ==== Sys2Proof/Laws/Loss.lean ====
section
/-! SUPPORT. A write burst in flight that power-on or RESET loses (R170, R194): memory reads as before its grant. -/

namespace Sys2Proof.Machine

@[simp] theorem lanesUnder_length (m : Table Byte) (a : Nat) (ls : List (Option Byte)) :
    (lanesUnder m a ls).length = ls.length := by
  induction ls generalizing a with
  | nil => rfl
  | cons l ls ih => simp [lanesUnder, ih]

/-- The byte at `c` is none of those a run of lanes enables. -/
def misses (c a : Nat) (ls : List (Option Byte)) : Prop :=
  ∀ k b, ls[k]? = some (some b) → c % 2 ^ 34 ≠ (a + k) % 2 ^ 34

theorem misses_tail {c a : Nat} {l : Option Byte} {ls : List (Option Byte)} (h : misses c a (l :: ls)) :
    misses c (a + 1) ls := by
  intro k b hk
  have := h (k + 1) b (by simpa using hk)
  rwa [show a + 1 + k = a + (k + 1) by omega]

theorem readByte_writeByte_mod (m : Table Byte) (b : Byte) {c a : Nat} (h : c % 2 ^ 34 = a % 2 ^ 34) :
    readByte (writeByte m a b) c = b := by
  have : readByte (writeByte m a b) c = readByte (writeByte m a b) a := by
    unfold readByte; rw [h]
  rw [this, readByte_writeByte_same]

/-- A write leaves every byte it does not enable. -/
theorem readByte_writeLanes_misses (m : Table Byte) (a : Nat) (ls : List (Option Byte)) (c : Nat)
    (h : misses c a ls) : readByte (writeLanes m a ls) c = readByte m c := by
  induction ls generalizing m a with
  | nil => rfl
  | cons l ls ih =>
    cases l with
    | none => exact ih m (a + 1) (misses_tail h)
    | some b =>
      rw [writeLanes, ih _ (a + 1) (misses_tail h),
        readByte_writeByte_ne m b (by simpa using h 0 b rfl)]

/-- Putting back what stood under a write gives every byte its old value. -/
theorem readByte_putBack (m0 m : Table Byte) (a : Nat) (ls : List (Option Byte))
    (h : ∀ c, misses c a ls → readByte m c = readByte m0 c) (c : Nat) :
    readByte (writeLanes m a (lanesUnder m0 a ls)) c = readByte m0 c := by
  induction ls generalizing m a with
  | nil => exact h c (fun k b hk => by simp at hk)
  | cons l ls ih =>
    cases l with
    | none =>
      refine ih m (a + 1) fun c hc => h c ?_
      intro k b hk
      cases k with
      | zero => simp at hk
      | succ k => rw [show a + (k + 1) = a + 1 + k by omega]; exact hc k b (by simpa using hk)
    | some b =>
      refine ih (writeByte m a (readByte m0 a)) (a + 1) fun c hc => ?_
      by_cases e : c % 2 ^ 34 = a % 2 ^ 34
      · rw [readByte_writeByte_mod m _ e]
        unfold readByte
        rw [e]
      · rw [readByte_writeByte_ne m _ e]
        refine h c ?_
        intro k b hk
        cases k with
        | zero => simpa using e
        | succ k => rw [show a + (k + 1) = a + 1 + k by omega]; exact hc k b (by simpa using hk)

/-- A reset while a write is carried gives memory the contents it had before the grant (R170, R194). -/
theorem readByte_memoryAtLoss_carry (r : Request) (s : State) (h : r.write = true) (c : Nat) :
    readByte (carry r s).memoryAtLoss c = readByte s.mem c := by
  unfold carry State.memoryAtLoss
  simp only [h, if_true]
  exact readByte_putBack _ _ _ _ (fun c hc => readByte_writeLanes_misses _ _ _ _ hc) c

theorem memoryAtLoss_wf (s : State) (h : Memory.wf s.mem = true) : Memory.wf s.memoryAtLoss = true := by
  unfold State.memoryAtLoss
  split
  · split
    · exact Memory.wf_writeLanes _ _ _ h
    · exact h
  · exact h

end Sys2Proof.Machine
end

