-- ==== Sys2Proof/Laws/PerInstr.lean ====
section
/-! SUPPORT. What holds of every command as syntax, a lemma for each constructor. -/

namespace Sys2Proof.Laws.Form

/-- A command is well formed unless it is a host request that no host port can present (R150): 1 to 8 beats, and
eight byte lanes to a beat. -/
def Statement (i : Instr) : Prop :=
  i.wellFormed = true ↔ ∀ r, i = .hostRequest r → (1 ≤ r.beats ∧ r.beats ≤ 8) ∧ r.lanes.length = 8 * r.beats

/-- What is no host request is well formed. -/
theorem of_other {i : Instr} (h : i.wellFormed = true) (n : ∀ r, i ≠ .hostRequest r) : Statement i :=
  ⟨fun _ r e => absurd e (n r), fun _ => h⟩

/-- HOST_REQUEST: the checks of WellFormed are those of R150. -/
theorem hostRequest (req : HostRequest) : Statement (.hostRequest req) := by
  simp [Statement, Instr.wellFormed, HostRequest.wellFormed, HostRequest.beatsOk, HostRequest.lanesOk]

theorem powerOn (straps : BitVec 3) : Statement (.powerOn straps) := of_other rfl fun _ => Instr.noConfusion
theorem reset (straps : BitVec 3) : Statement (.reset straps) := of_other rfl fun _ => Instr.noConfusion
theorem hostWrite : Statement .hostWrite := of_other rfl fun _ => Instr.noConfusion
theorem hostReadData : Statement .hostReadData := of_other rfl fun _ => Instr.noConfusion
theorem guardedWrite : Statement .guardedWrite := of_other rfl fun _ => Instr.noConfusion
theorem recordApertureWrite : Statement .recordApertureWrite := of_other rfl fun _ => Instr.noConfusion
theorem playApertureRead : Statement .playApertureRead := of_other rfl fun _ => Instr.noConfusion
theorem stallExpiry : Statement .stallExpiry := of_other rfl fun _ => Instr.noConfusion
theorem checkIn : Statement .checkIn := of_other rfl fun _ => Instr.noConfusion
theorem checkoutWriteHeld : Statement .checkoutWriteHeld := of_other rfl fun _ => Instr.noConfusion
theorem checkout : Statement .checkout := of_other rfl fun _ => Instr.noConfusion
theorem creditLimitChange : Statement .creditLimitChange := of_other rfl fun _ => Instr.noConfusion
theorem mailboxQuotaChange : Statement .mailboxQuotaChange := of_other rfl fun _ => Instr.noConfusion
theorem lampPresentChange : Statement .lampPresentChange := of_other rfl fun _ => Instr.noConfusion
theorem trunkSeize : Statement .trunkSeize := of_other rfl fun _ => Instr.noConfusion
theorem trunkAnswer : Statement .trunkAnswer := of_other rfl fun _ => Instr.noConfusion
theorem trunkClear : Statement .trunkClear := of_other rfl fun _ => Instr.noConfusion
theorem trunkIdleWrite : Statement .trunkIdleWrite := of_other rfl fun _ => Instr.noConfusion
theorem trunkUnknownState : Statement .trunkUnknownState := of_other rfl fun _ => Instr.noConfusion
theorem tariffWrite : Statement .tariffWrite := of_other rfl fun _ => Instr.noConfusion
theorem orderPost : Statement .orderPost := of_other rfl fun _ => Instr.noConfusion
theorem orderCancel : Statement .orderCancel := of_other rfl fun _ => Instr.noConfusion
theorem consumerIndexWrite : Statement .consumerIndexWrite := of_other rfl fun _ => Instr.noConfusion
theorem overflowFlagClear : Statement .overflowFlagClear := of_other rfl fun _ => Instr.noConfusion
theorem format : Statement .format := of_other rfl fun _ => Instr.noConfusion
theorem adopt : Statement .adopt := of_other rfl fun _ => Instr.noConfusion
theorem stop : Statement .stop := of_other rfl fun _ => Instr.noConfusion
theorem profileValidation : Statement .profileValidation := of_other rfl fun _ => Instr.noConfusion
theorem loadReadReturn : Statement .loadReadReturn := of_other rfl fun _ => Instr.noConfusion
theorem startingWorkBegin : Statement .startingWorkBegin := of_other rfl fun _ => Instr.noConfusion
theorem adoptSlotRead : Statement .adoptSlotRead := of_other rfl fun _ => Instr.noConfusion
theorem adoptRecordRead : Statement .adoptRecordRead := of_other rfl fun _ => Instr.noConfusion
theorem adoptHeaderRead : Statement .adoptHeaderRead := of_other rfl fun _ => Instr.noConfusion
theorem adoptFolioRead : Statement .adoptFolioRead := of_other rfl fun _ => Instr.noConfusion
theorem endOfStarting : Statement .endOfStarting := of_other rfl fun _ => Instr.noConfusion
theorem tenthSecondEvent : Statement .tenthSecondEvent := of_other rfl fun _ => Instr.noConfusion
theorem returnFrame (bytes : List Byte) : Statement (.returnFrame bytes) := of_other rfl fun _ => Instr.noConfusion
theorem returnWindowClose : Statement .returnWindowClose := of_other rfl fun _ => Instr.noConfusion
theorem arbiterDecision : Statement .arbiterDecision := of_other rfl fun _ => Instr.noConfusion
theorem memoryAcknowledge : Statement .memoryAcknowledge := of_other rfl fun _ => Instr.noConfusion
theorem mirrorWriteRaise (engine : MirrorEngine) : Statement (.mirrorWriteRaise engine) := of_other rfl fun _ => Instr.noConfusion
theorem stackPop : Statement .stackPop := of_other rfl fun _ => Instr.noConfusion
theorem popReadReturn : Statement .popReadReturn := of_other rfl fun _ => Instr.noConfusion
theorem stackPush : Statement .stackPush := of_other rfl fun _ => Instr.noConfusion
theorem walkHeaderRead : Statement .walkHeaderRead := of_other rfl fun _ => Instr.noConfusion
theorem releaseLineGrant : Statement .releaseLineGrant := of_other rfl fun _ => Instr.noConfusion
theorem blockWriteFinish : Statement .blockWriteFinish := of_other rfl fun _ => Instr.noConfusion
theorem headerPatchFinish : Statement .headerPatchFinish := of_other rfl fun _ => Instr.noConfusion
theorem blockFetchArrival : Statement .blockFetchArrival := of_other rfl fun _ => Instr.noConfusion
theorem offsetWalkRead : Statement .offsetWalkRead := of_other rfl fun _ => Instr.noConfusion
theorem folioQueueWriteDone : Statement .folioQueueWriteDone := of_other rfl fun _ => Instr.noConfusion
theorem takeStart : Statement .takeStart := of_other rfl fun _ => Instr.noConfusion
theorem takeReadReturn : Statement .takeReadReturn := of_other rfl fun _ => Instr.noConfusion
theorem takePlacesGranted : Statement .takePlacesGranted := of_other rfl fun _ => Instr.noConfusion
theorem noticeWrite : Statement .noticeWrite := of_other rfl fun _ => Instr.noConfusion
theorem recordOpen : Statement .recordOpen := of_other rfl fun _ => Instr.noConfusion
theorem recordClose : Statement .recordClose := of_other rfl fun _ => Instr.noConfusion
theorem recordAbandon : Statement .recordAbandon := of_other rfl fun _ => Instr.noConfusion
theorem playOpen : Statement .playOpen := of_other rfl fun _ => Instr.noConfusion
theorem playClose : Statement .playClose := of_other rfl fun _ => Instr.noConfusion
theorem messageSave : Statement .messageSave := of_other rfl fun _ => Instr.noConfusion
theorem messageMarkNew : Statement .messageMarkNew := of_other rfl fun _ => Instr.noConfusion
theorem messageDelete : Statement .messageDelete := of_other rfl fun _ => Instr.noConfusion
theorem mailboxPurge : Statement .mailboxPurge := of_other rfl fun _ => Instr.noConfusion
theorem lampOverride : Statement .lampOverride := of_other rfl fun _ => Instr.noConfusion
theorem lampFaultClear : Statement .lampFaultClear := of_other rfl fun _ => Instr.noConfusion
theorem folioAdjust : Statement .folioAdjust := of_other rfl fun _ => Instr.noConfusion
theorem folioRelease : Statement .folioRelease := of_other rfl fun _ => Instr.noConfusion
theorem clockSet : Statement .clockSet := of_other rfl fun _ => Instr.noConfusion
theorem returnWindowOpen : Statement .returnWindowOpen := of_other rfl fun _ => Instr.noConfusion

end Sys2Proof.Laws.Form
end

