-- ==== Sys2Proof/Laws/Raised.lean ====
section
/-! SUPPORT. What an operation has raised stays raised: the outbox only grows until the step ends. -/

namespace Sys2Proof.Machine

/-- The request has been raised in this step. -/
def Raised (x : Request) (s : State) : Prop := x ∈ s.out.requests

@[simp] theorem raised_mem {x : Request} (s : State) (h : Raised x s) : x ∈ s.out.requests := h

@[simp] theorem raised_mk (x : Request) (p : List Instr) (st : BitVec 3) (m : Table Byte) (ti : TimeBase) (fr : BitVec 32)
    (c : Control) (h : HostPath) (a : Arbiter) (v : Voice) (sto : Store) (r : Ring) (n : Notices) (ra : Rating)
    (l : LampEngine) (o : Outbox) (ch : Nat) :
    Raised x ⟨p, st, m, ti, fr, c, h, a, v, sto, r, n, ra, l, o, ch⟩ ↔ x ∈ o.requests := Iff.rfl

/-- What is raised is there. -/
@[simp] theorem raised_raise (x : Request) (s : State) : Raised x (raise x s) := by simp [Raised]

theorem raised_raiseAll {x : Request} {rs : List Request} (h : x ∈ rs) (s : State) : Raised x (raiseAll rs s) := by
  simp [Raised, h]

theorem foldl_raised {α : Type} {x : Request} (f : State → α → State) (hf : ∀ t a, Raised x t → Raised x (f t a))
    (l : List α) (s : State) (h : Raised x s) : Raised x (l.foldl f s) := by
  induction l generalizing s with
  | nil => exact h
  | cons a l ih => exact ih _ (hf _ _ h)

@[simp] theorem State.setChannel_raised {x : Request} (s : State) (c : Nat) (v : Channel) (h : Raised x s) :
    Raised x (State.setChannel s c v) := h

@[simp] theorem State.setMessage_raised {x : Request} (s : State) (i : Nat) (v : Message) (h : Raised x s) :
    Raised x (State.setMessage s i v) := h

@[simp] theorem State.setMailbox_raised {x : Request} (s : State) (r : Nat) (v : Mailbox) (h : Raised x s) :
    Raised x (State.setMailbox s r v) := h

@[simp] theorem State.setTrunk_raised {x : Request} (s : State) (t : Nat) (v : Trunk) (h : Raised x s) :
    Raised x (State.setTrunk s t v) := h

@[simp] theorem State.setFolios_raised {x : Request} (s : State) (r : Nat) (v : RoomFolios) (h : Raised x s) :
    Raised x (State.setFolios s r v) := h

@[simp] theorem State.setLamp_raised {x : Request} (s : State) (r : Nat) (v : Lamp) (h : Raised x s) :
    Raised x (State.setLamp s r v) := h

@[simp] theorem State.setCard_raised {x : Request} (s : State) (k : Nat) (v : Card) (h : Raised x s) :
    Raised x (State.setCard s k v) := h

@[simp] theorem raise_raised {x : Request} (r : Request) (s : State) (h : Raised x s) :
    Raised x (raise r s) := by simp [raise, h]

@[simp] theorem raiseAll_raised {x : Request} (rs : List Request) (s : State) (h : Raised x s) :
    Raised x (raiseAll rs s) := by simp [raiseAll, h]

@[simp] theorem notify_raised {x : Request} (who : Requester) (k : NoticeKind) (room detail1 detail2 : Nat) (s : State) (h : Raised x s) :
    Raised x (notify who k room detail1 detail2 s) := by
  unfold notify
  split <;> simp [h]

@[simp] theorem markMail_raised {x : Request} (r : Nat) (s : State) (h : Raised x s) :
    Raised x (markMail r s) := h

@[simp] theorem markFolio_raised {x : Request} (r : Nat) (s : State) (h : Raised x s) :
    Raised x (markFolio r s) := h

@[simp] theorem markLamp_raised {x : Request} (r : Nat) (s : State) (h : Raised x s) :
    Raised x (markLamp r s) := h

@[simp] theorem recomputeLamp_raised {x : Request} (r : Nat) (s : State) (h : Raised x s) :
    Raised x (recomputeLamp r s) := by
  unfold recomputeLamp
  dsimp only
  (repeat' split) <;> simp (maxDischargeDepth := 20) [h]

@[simp] theorem setOverride_raised {x : Request} (o : Override) (r : Nat) (s : State) (h : Raised x s) :
    Raised x (setOverride o r s) := by
  unfold setOverride
  dsimp only
  (repeat' split) <;> simp (maxDischargeDepth := 20) [h]

@[simp] theorem clearDesk_raised {x : Request} (r : Nat) (s : State) (h : Raised x s) :
    Raised x (clearDesk r s) := by
  unfold clearDesk
  dsimp only
  (repeat' split) <;> simp (maxDischargeDepth := 20) [h]

@[simp] theorem recordWrite_raised {x : Request} (i : Nat) (s : State) (h : Raised x s) :
    Raised x (recordWrite i s) := by
  unfold recordWrite
  split <;> simp [h]

@[simp] theorem updateMessage_raised {x : Request} (i : Nat) (m : Message) (s : State) (h : Raised x s) :
    Raised x (updateMessage i m s) := by simp [updateMessage, h]

@[simp] theorem freeRecord_raised {x : Request} (i : Nat) (s : State) (h : Raised x s) :
    Raised x (freeRecord i s) := by
  unfold freeRecord
  dsimp only
  (repeat' split) <;> simp (maxDischargeDepth := 20) [h]

@[simp] theorem relink_raised {x : Request} (list : List Nat) (i : Nat) (s : State) (h : Raised x s) :
    Raised x (relink list i s) := by
  unfold relink
  dsimp only
  (repeat' split) <;> simp (maxDischargeDepth := 20) [h]

@[simp] theorem setList_raised {x : Request} (r : Nat) (list : List Nat) (s : State) (h : Raised x s) : Raised x (setList r list s) := by
  have hf := foldl_raised (fun t i => relink list i t) (fun t i ht => relink_raised list i t ht)
    ((s.mailbox r).list ++ list) s h
  unfold setList
  dsimp only
  split
  · exact markMail_raised _ _ (State.setMailbox_raised _ _ _ hf)
  · exact recomputeLamp_raised _ _ (markMail_raised _ _ (State.setMailbox_raised _ _ _ hf))

@[simp] theorem setPlaces_raised {x : Request} (r n : Nat) (s : State) (h : Raised x s) :
    Raised x (setPlaces r n s) := h

@[simp] theorem setBlocksUsed_raised {x : Request} (r n : Nat) (s : State) (h : Raised x s) :
    Raised x (setBlocksUsed r n s) := h

@[simp] theorem moveMessage_raised {x : Request} (i : Nat) (st : MessageState) (s : State) (h : Raised x s) :
    Raised x (moveMessage i st s) := by simp [moveMessage, h]

@[simp] theorem storeLowAfterTake_raised {x : Request} (n : Nat) (s : State) (h : Raised x s) :
    Raised x (storeLowAfterTake n s) := by
  unfold storeLowAfterTake
  dsimp only
  (repeat' split) <;> simp (maxDischargeDepth := 20) [h]

@[simp] theorem evalTake_raised {x : Request} (i : Nat) (s : State) (h : Raised x s) :
    Raised x (evalTake i s).2 := by
  unfold evalTake
  dsimp only
  (repeat' split) <;> simp (maxDischargeDepth := 20) [h]

@[simp] theorem releaseBlock_raised {x : Request} (b : Nat) (s : State) (h : Raised x s) :
    Raised x (releaseBlock b s) := by
  unfold releaseBlock
  dsimp only
  (repeat' split) <;> simp (maxDischargeDepth := 20) [h]

@[simp] theorem raiseWalk_raised {x : Request} (w : Walk) (s : State) (h : Raised x s) :
    Raised x (raiseWalk w s) := by simp [raiseWalk, h]

@[simp] theorem startWalk_raised {x : Request} (s : State) (h : Raised x s) :
    Raised x (startWalk s) := by
  unfold startWalk
  split <;> simp [h]

@[simp] theorem queueChain_raised {x : Request} (i : Nat) (cause : Cause) (s : State) (h : Raised x s) :
    Raised x (queueChain i cause s) := by
  unfold queueChain
  dsimp only
  (repeat' split) <;> simp (maxDischargeDepth := 20) [h]

@[simp] theorem releaseMessage_raised {x : Request} (i : Nat) (cause : Cause) (s : State) (h : Raised x s) :
    Raised x (releaseMessage i cause s) := by
  unfold releaseMessage
  dsimp only
  (repeat' split) <;> simp (maxDischargeDepth := 20) [h]

@[simp] theorem joinReleaseLine_raised {x : Request} (who : Waiter) (n : Nat) (s : State) (h : Raised x s) :
    Raised x (joinReleaseLine who n s) := h

@[simp] theorem updateEntry_raised {x : Request} (slot : Nat) (f : InFlight → InFlight) (s : State) (h : Raised x s) :
    Raised x (updateEntry slot f s) := h

@[simp] theorem freeEntry_raised {x : Request} (slot : Nat) (s : State) (h : Raised x s) :
    Raised x (freeEntry slot s) := h

@[simp] theorem raiseExecuting_raised {x : Request} (slot : Nat) (copy : List Byte) (s : State) (h : Raised x s) :
    Raised x (raiseExecuting slot copy s) := by simp [raiseExecuting, h]

@[simp] theorem completeOrder_raised {x : Request} (slot : Nat) (status : Status) (deferred : Bool) (res : List Byte) (s : State) (h : Raised x s) :
    Raised x (completeOrder slot status deferred res s) := by
  unfold completeOrder
  split <;> simp [h]

@[simp] theorem completeFor_raised {x : Request} (order : Option Nat) (status : Status) (res : List Byte) (s : State) (h : Raised x s) :
    Raised x (completeFor order status res s) := by
  unfold completeFor
  split <;> simp [h]

@[simp] theorem orderStep_raised {x : Request} (slot : Nat) (s : State) (h : Raised x s) : Raised x (orderStep slot s) := by
  unfold orderStep
  split
  · exact h
  · split
    · exact completeOrder_raised _ _ _ _ _ (updateEntry_raised _ _ _ h)
    · exact updateEntry_raised _ _ _ h

@[simp] theorem startFilling_raised {x : Request} (ch : Nat) (second : Bool) (b : Nat) (s : State) (h : Raised x s) :
    Raised x (startFilling ch second b s) := by
  unfold startFilling
  dsimp only
  (repeat' split) <;> simp (maxDischargeDepth := 20) [h]

@[simp] theorem writeBlock_raised {x : Request} (ch : Nat) (second : Bool) (next : Nat) (s : State) (h : Raised x s) :
    Raised x (writeBlock ch second next s) := by simp [writeBlock, h]

@[simp] theorem updateLength_raised {x : Request} (ch : Nat) (s : State) (h : Raised x s) :
    Raised x (updateLength ch s) := by simp [updateLength, h]

@[simp] theorem noticeStopped_raised {x : Request} (ch : Nat) (reason : StopReason) (s : State) (h : Raised x s) :
    Raised x (noticeStopped ch reason s) := by simp [noticeStopped, h]

@[simp] theorem stopRecording_raised {x : Request} (ch : Nat) (reason : StopReason) (s : State) (h : Raised x s) :
    Raised x (stopRecording ch reason s) := by
  unfold stopRecording
  dsimp only
  (repeat' split) <;> simp (maxDischargeDepth := 20) [h]

@[simp] theorem answerOpening_raised {x : Request} (ch : Nat) (a : TakeAnswer) (s : State) (h : Raised x s) :
    Raised x (answerOpening ch a s) := by
  unfold answerOpening
  dsimp only
  (repeat' split) <;> simp (maxDischargeDepth := 20) [h]

@[simp] theorem answerRecording_raised {x : Request} (ch : Nat) (a : TakeAnswer) (s : State) (h : Raised x s) :
    Raised x (answerRecording ch a s) := by
  unfold answerRecording
  dsimp only
  (repeat' split) <;> simp (maxDischargeDepth := 20) [h]

@[simp] theorem answerTake_raised {x : Request} (ch : Nat) (a : TakeAnswer) (s : State) (h : Raised x s) :
    Raised x (answerTake ch a s) := by
  unfold answerTake
  split <;> simp [h]

@[simp] theorem requestTake_raised {x : Request} (ch : Nat) (s : State) (h : Raised x s) :
    Raised x (requestTake ch s) := by
  unfold requestTake
  dsimp only
  (repeat' split) <;> simp (maxDischargeDepth := 20) [h]

@[simp] theorem serveTakeLine_raised {x : Request} (n : Nat) (s : State) (h : Raised x s) : Raised x (serveTakeLine n s) := by
  induction n generalizing s with
  | zero => exact h
  | succ n ih =>
    unfold serveTakeLine
    dsimp only
    (repeat' split) <;> first | exact h | (apply ih; simp (maxDischargeDepth := 20) [h])

@[simp] theorem takeLineTurn_raised {x : Request} (s : State) (h : Raised x s) :
    Raised x (takeLineTurn s) := by simp [takeLineTurn, h]

@[simp] theorem withdrawTake_raised {x : Request} (ch : Nat) (s : State) (h : Raised x s) :
    Raised x (withdrawTake ch s) := h

@[simp] theorem returnBlock_raised {x : Request} (ch b : Nat) (s : State) (h : Raised x s) :
    Raised x (returnBlock ch b s) := by
  unfold returnBlock
  dsimp only
  (repeat' split) <;> simp (maxDischargeDepth := 20) [h]

@[simp] theorem codeSample_raised {x : Request} (ch : Nat) (second : Bool) (v : Int) (s : State) (h : Raised x s) :
    Raised x (codeSample ch second v s) := State.setChannel_raised _ _ _ h

@[simp] theorem afterSample_raised {x : Request} (ch : Nat) (second : Bool) (s : State) (h : Raised x s) :
    Raised x (afterSample ch second s) := by
  unfold afterSample
  dsimp only
  (repeat' split) <;> simp (maxDischargeDepth := 20) [h]

@[simp] theorem refuseSample_raised {x : Request} (ch : Nat) (s : State) (h : Raised x s) :
    Raised x (refuseSample ch s) := h

@[simp] theorem dropSample_raised {x : Request} (ch : Nat) (s : State) (h : Raised x s) :
    Raised x (dropSample ch s) := h

@[simp] theorem takeSample_raised {x : Request} (ch : Nat) (v : Int) (s : State) (h : Raised x s) :
    Raised x (takeSample ch v s) := by
  unfold takeSample
  dsimp only
  split
  · split
    · exact afterSample_raised _ _ _ (codeSample_raised _ _ _ _ h)
    · exact dropSample_raised _ _ h
  · exact refuseSample_raised _ _ h

@[simp] theorem takePosition_raised {x : Request} (off : Nat) (lo hi : Option Byte) (s : State) (h : Raised x s) :
    Raised x (takePosition off lo hi s) := by
  unfold takePosition
  split
  · exact h
  · split <;> simp [h]

@[simp] theorem takeLanes_raised {x : Request} (off : Nat) (ls : List (Option Byte)) (s : State) (h : Raised x s) :
    Raised x (takeLanes off ls s) := by
  fun_induction takeLanes off ls s with
  | case1 off lo hi ls s ih => exact ih (takePosition_raised _ _ _ s h)
  | case2 => exact h

@[simp] theorem freeChannel_raised {x : Request} (ch : Nat) (st : Status) (res : List Byte) (s : State) (h : Raised x s) :
    Raised x (freeChannel ch st res s) := by simp [freeChannel, h]

@[simp] theorem channelReleased_raised {x : Request} (ch : Nat) (s : State) (h : Raised x s) :
    Raised x (channelReleased ch s) := by
  unfold channelReleased
  dsimp only
  (repeat' split) <;> simp (maxDischargeDepth := 20) [h]

@[simp] theorem startChannelRelease_raised {x : Request} (ch : Nat) (s : State) (h : Raised x s) :
    Raised x (startChannelRelease ch s) := by
  unfold startChannelRelease
  dsimp only
  (repeat' split) <;> simp (maxDischargeDepth := 20) [h]

@[simp] theorem askRelease_raised {x : Request} (ch : Nat) (s : State) (h : Raised x s) :
    Raised x (askRelease ch s) := by
  unfold askRelease
  dsimp only
  (repeat' split) <;> simp (maxDischargeDepth := 20) [h]

@[simp] theorem commitRecording_raised {x : Request} (ch : Nat) (s : State) (h : Raised x s) :
    Raised x (commitRecording ch s) := by simp [commitRecording, h]

@[simp] theorem closeByRelease_raised {x : Request} (ch : Nat) (st : Status) (s : State) (h : Raised x s) :
    Raised x (closeByRelease ch st s) := by
  unfold closeByRelease
  dsimp only
  (repeat' split) <;> simp (maxDischargeDepth := 20) [h]

@[simp] theorem afterWrites_raised {x : Request} (ch : Nat) (s : State) (h : Raised x s) :
    Raised x (afterWrites ch s) := by
  unfold afterWrites
  dsimp only
  (repeat' split) <;> simp (maxDischargeDepth := 20) [h]

@[simp] theorem returnBuffer_raised {x : Request} (ch : Nat) (second : Bool) (s : State) (h : Raised x s) :
    Raised x (returnBuffer ch second s) := by
  unfold returnBuffer
  dsimp only
  (repeat' split) <;> simp (maxDischargeDepth := 20) [h]

@[simp] theorem returnWaiting_raised {x : Request} (ch : Nat) (s : State) (h : Raised x s) :
    Raised x (returnWaiting ch s) := by
  unfold returnWaiting
  dsimp only
  (repeat' split) <;> simp (maxDischargeDepth := 20) [h]

@[simp] theorem dropUnwritten_raised {x : Request} (ch : Nat) (s : State) (h : Raised x s) : Raised x (dropUnwritten ch s) :=
  returnWaiting_raised ch _ (returnBuffer_raised ch _ _ (returnBuffer_raised ch _ _ (withdrawTake_raised ch s h)))

@[simp] theorem patchLast_raised {x : Request} (ch : Nat) (s : State) (h : Raised x s) :
    Raised x (patchLast ch s) := by
  unfold patchLast
  dsimp only
  (repeat' split) <;> simp (maxDischargeDepth := 20) [h]

@[simp] theorem returnEmpty_raised {x : Request} (ch b : Nat) (s : State) (h : Raised x s) :
    Raised x (returnEmpty ch b s) := by
  unfold returnEmpty
  dsimp only
  (repeat' split) <;> simp (maxDischargeDepth := 20) [h]

@[simp] theorem closeBlocks_raised {x : Request} (ch : Nat) (s : State) (h : Raised x s) :
    Raised x (closeBlocks ch s) := by
  unfold closeBlocks
  dsimp only
  (repeat' split) <;> simp (maxDischargeDepth := 20) [h]

@[simp] theorem blockWritten_raised {x : Request} (ch : Nat) (second : Bool) (s : State) (h : Raised x s) :
    Raised x (blockWritten ch second s) := by
  unfold blockWritten
  dsimp only
  (repeat' split) <;> simp (maxDischargeDepth := 20) [h]

@[simp] theorem patchWritten_raised {x : Request} (ch : Nat) (s : State) (h : Raised x s) :
    Raised x (patchWritten ch s) := by simp [patchWritten, h]

@[simp] theorem checkoutChannel_raised {x : Request} (ch : Nat) (s : State) (h : Raised x s) :
    Raised x (checkoutChannel ch s) := by
  unfold checkoutChannel
  dsimp only
  (repeat' split) <;> simp (maxDischargeDepth := 20) [h]

@[simp] theorem checkoutChannels_raised {x : Request} (r : Nat) (s : State) (h : Raised x s) : Raised x (checkoutChannels r s) := by
  refine foldl_raised _ (fun t ch ht => ?_) _ s h
  split
  · exact checkoutChannel_raised _ t ht
  · exact ht

@[simp] theorem fetchBlock_raised {x : Request} (ch : Nat) (second : Bool) (b : Nat) (s : State) (h : Raised x s) :
    Raised x (fetchBlock ch second b s) := by simp [fetchBlock, h]

@[simp] theorem prefetch_raised {x : Request} (ch : Nat) (s : State) (h : Raised x s) :
    Raised x (prefetch ch s) := by
  unfold prefetch
  dsimp only
  (repeat' split) <;> simp (maxDischargeDepth := 20) [h]

@[simp] theorem yieldSample_raised {x : Request} (ch : Nat) (s : State) (h : Raised x s) : Raised x (yieldSample ch s).2 := by
  simp [yieldSample, h]

@[simp] theorem moveBuffer_raised {x : Request} (ch : Nat) (s : State) (h : Raised x s) :
    Raised x (moveBuffer ch s) := by simp [moveBuffer, h]

@[simp] theorem playStep_raised {x : Request} (ch : Nat) (s : State) (h : Raised x s) : Raised x (playStep ch s).2 := by
  unfold playStep
  dsimp only
  (repeat' split) <;> simp [h]

@[simp] theorem meetChannel_raised {x : Request} (ch : Nat) (seen : List Nat) (s : State) (h : Raised x s) :
    Raised x (meetChannel ch seen s) := by
  unfold meetChannel
  dsimp only
  (repeat' split) <;> simp (maxDischargeDepth := 20) [h]

@[simp] theorem serveRead_raised {x : Request} (zeroed : Option Nat) (off : Nat) (ls : List (Option Byte)) (seen : List Nat)
    (s : State) (h : Raised x s) : Raised x (serveRead zeroed off ls seen s).2.2 :=
  serveRead_ind (Raised x) zeroed (fun ch seen t ht => meetChannel_raised ch seen t ht)
    (fun ch t ht _ => playStep_raised ch t ht) ls off seen s h

@[simp] theorem openDone_raised {x : Request} (ch : Nat) (ended : Bool) (s : State) (h : Raised x s) :
    Raised x (openDone ch ended s) := by simp [openDone, h]

@[simp] theorem openEnded_raised {x : Request} (ch : Nat) (s : State) (h : Raised x s) :
    Raised x (openEnded ch s) := by simp [openEnded, h]

@[simp] theorem openArrived_raised {x : Request} (ch : Nat) (second : Bool) (s : State) (h : Raised x s) :
    Raised x (openArrived ch second s) := by
  unfold openArrived
  dsimp only
  (repeat' split) <;> simp (maxDischargeDepth := 20) [h]

@[simp] theorem raiseOffsetRead_raised {x : Request} (ch b : Nat) (s : State) (h : Raised x s) :
    Raised x (raiseOffsetRead ch b s) := by simp [raiseOffsetRead, h]

@[simp] theorem walkStep_raised {x : Request} (ch : Nat) (header : List Byte) (s : State) (h : Raised x s) :
    Raised x (walkStep ch header s) := by
  unfold walkStep
  dsimp only
  (repeat' split) <;> simp (maxDischargeDepth := 20) [h]

@[simp] theorem fetchArrived_raised {x : Request} (ch : Nat) (second : Bool) (data : List Byte) (s : State) (h : Raised x s) :
    Raised x (fetchArrived ch second data s) := by
  unfold fetchArrived
  dsimp only
  (repeat' split) <;> simp (maxDischargeDepth := 20) [h]

@[simp] theorem workOutBarred_raised {x : Request} (r : Nat) (total : Int) (s : State) (h : Raised x s) :
    Raised x (workOutBarred r total s) := by
  unfold workOutBarred
  dsimp only
  (repeat' split) <;> simp (maxDischargeDepth := 20) [h]

@[simp] theorem settleBarred_raised {x : Request} (r : Nat) (s : State) (h : Raised x s) :
    Raised x (settleBarred r s) := h

@[simp] theorem raiseFolioWrite_raised {x : Request} (s : State) (h : Raised x s) :
    Raised x (raiseFolioWrite s) := by
  unfold raiseFolioWrite
  dsimp only
  (repeat' split) <;> simp (maxDischargeDepth := 20) [h]

@[simp] theorem queueFolioWrite_raised {x : Request} (w : FolioWrite) (s : State) (h : Raised x s) :
    Raised x (queueFolioWrite w s) := by simp [queueFolioWrite, h]

@[simp] theorem appendCharge_raised {x : Request} (r : Nat) (p : Place) (f : Folio) (c : Charge) (order : Option Nat) (s : State) (h : Raised x s) :
    Raised x (appendCharge r p f c order s).2 := by
  unfold appendCharge
  dsimp only
  (repeat' split) <;> simp (maxDischargeDepth := 20) [h]

@[simp] theorem unbilled_raised {x : Request} (c : Charge) (s : State) (h : Raised x s) :
    Raised x (unbilled c s) := by simp [unbilled, h]

@[simp] theorem lateCharge_raised {x : Request} (f : Folio) (c : Charge) (s : State) (h : Raised x s) :
    Raised x (lateCharge f c s) := by
  unfold lateCharge
  dsimp only
  (repeat' split) <;> simp (maxDischargeDepth := 20) [h]

@[simp] theorem handOver_raised {x : Request} (c : Charge) (s : State) (h : Raised x s) : Raised x (handOver c s) := by
  have hu := unbilled_raised c s h
  unfold handOver
  split
  · split
    · split
      · exact appendCharge_raised _ _ _ _ _ _ h
      · split
        · split
          · exact lateCharge_raised _ _ _ h
          · exact hu
        · exact hu
    · split
      · split
        · exact lateCharge_raised _ _ _ h
        · exact hu
      · exact hu
  · exact hu

@[simp] theorem openFolio_raised {x : Request} (r : Nat) (s : State) (h : Raised x s) :
    Raised x (openFolio r s) := h

@[simp] theorem returnRecords_raised {x : Request} (f : Folio) (s : State) (h : Raised x s) :
    Raised x (returnRecords f s) := h

@[simp] theorem discardClosed_raised {x : Request} (r : Nat) (s : State) (h : Raised x s) :
    Raised x (discardClosed r s) := by
  unfold discardClosed
  dsimp only
  (repeat' split) <;> simp (maxDischargeDepth := 20) [h]

@[simp] theorem closeFolio_raised {x : Request} (r : Nat) (s : State) (h : Raised x s) :
    Raised x (closeFolio r s) := by
  unfold closeFolio
  dsimp only
  (repeat' split) <;> simp (maxDischargeDepth := 20) [h]

@[simp] theorem trunkSequence_raised {x : Request} (t anomaly : Nat) (written : Byte) (s : State) (h : Raised x s) :
    Raised x (trunkSequence t anomaly written s) := by simp [trunkSequence, h]

@[simp] theorem seizeTrunk_raised {x : Request} (t : Nat) (s : State) (h : Raised x s) :
    Raised x (seizeTrunk t s) := h

@[simp] theorem captureCall_raised {x : Request} (t : Nat) (s : State) (h : Raised x s) :
    Raised x (captureCall t s) := h

@[simp] theorem countAnswer_raised {x : Request} (t : Nat) (s : State) (h : Raised x s) :
    Raised x (countAnswer t s) := by
  unfold countAnswer
  split <;> simp [h]

@[simp] theorem missedSeize_raised {x : Request} (t : Nat) (s : State) (h : Raised x s) :
    Raised x (missedSeize t s) := by
  unfold missedSeize
  dsimp only
  (repeat' split) <;> simp (maxDischargeDepth := 20) [h]

@[simp] theorem idleTrunk_raised {x : Request} (t : Nat) (s : State) (h : Raised x s) :
    Raised x (idleTrunk t s) := h

@[simp] theorem unansweredClear_raised {x : Request} (t : Nat) (s : State) (h : Raised x s) :
    Raised x (unansweredClear t s) := by
  unfold unansweredClear
  dsimp only
  (repeat' split) <;> simp (maxDischargeDepth := 20) [h]

@[simp] theorem noticeUnrated_raised {x : Request} (c : Charge) (s : State) (h : Raised x s) :
    Raised x (noticeUnrated c s) := by simp [noticeUnrated, h]

@[simp] theorem rateCall_raised {x : Request} (t : Nat) (implicit : Bool) (s : State) (h : Raised x s) :
    Raised x (rateCall t implicit s) := by
  unfold rateCall
  dsimp only
  (repeat' split) <;> simp (maxDischargeDepth := 20) [h]

@[simp] theorem answeredClear_raised {x : Request} (t : Nat) (implicit : Bool) (s : State) (h : Raised x s) :
    Raised x (answeredClear t implicit s) := by
  unfold answeredClear
  dsimp only
  (repeat' split) <;> simp (maxDischargeDepth := 20) [h]

@[simp] theorem stepTrunk_raised {x : Request} (t : Nat) (w : WrittenState) (s : State) (h : Raised x s) :
    Raised x (stepTrunk t w s) := by
  unfold stepTrunk
  split <;> simp [h]

@[simp] theorem trunkWritten_raised {x : Request} (t : Nat) (old new : Byte) (s : State) (h : Raised x s) :
    Raised x (trunkWritten t old new s) := by
  unfold trunkWritten
  dsimp only
  (repeat' split) <;> simp (maxDischargeDepth := 20) [h]

@[simp] theorem settleTrunk_raised {x : Request} (t : Nat) (s : State) (h : Raised x s) :
    Raised x (settleTrunk t s) := by
  unfold settleTrunk
  dsimp only
  (repeat' split) <;> simp (maxDischargeDepth := 20) [h]

@[simp] theorem sendFrame_raised {x : Request} (k : Nat) (f : BitVec 32) (changed : List Nat) (s : State) (h : Raised x s) :
    Raised x (sendFrame k f changed s) := h

@[simp] theorem startSweep_raised {x : Request} (s : State) (h : Raised x s) :
    Raised x (startSweep s) := by
  unfold startSweep
  split <;> simp [h]

@[simp] theorem writeLinkHeader_raised {x : Request} (s : State) (h : Raised x s) :
    Raised x (writeLinkHeader s) := by simp [writeLinkHeader, h]

@[simp] theorem writeLinkEntry_raised {x : Request} (k : Nat) (s : State) (h : Raised x s) :
    Raised x (writeLinkEntry k s) := by simp [writeLinkEntry, h]

@[simp] theorem clearMismatches_raised {x : Request} (k : Nat) (s : State) (h : Raised x s) : Raised x (clearMismatches k s) :=
  foldl_raised _ (fun t _ ht => State.setLamp_raised t _ _ ht) _ s h

@[simp] theorem badReturn_raised {x : Request} (k : Nat) (r : BadReason) (s : State) (h : Raised x s) :
    Raised x (badReturn k r s) := by
  unfold badReturn
  dsimp only
  (repeat' split) <;> simp (maxDischargeDepth := 20) [h]

@[simp] theorem latchFault_raised {x : Request} (r : Nat) (kind : Latch) (f : BitVec 32) (s : State) (h : Raised x s) :
    Raised x (latchFault r kind f s) := by
  unfold latchFault
  dsimp only
  (repeat' split) <;> simp (maxDischargeDepth := 20) [h]

@[simp] theorem evaluateLamp_raised {x : Request} (r : Nat) (on sensed : Bool) (f : BitVec 32) (s : State) (h : Raised x s) :
    Raised x (evaluateLamp r on sensed f s) := by
  unfold evaluateLamp
  dsimp only
  (repeat' split) <;> simp (maxDischargeDepth := 20) [h]

@[simp] theorem evaluateCard_raised {x : Request} (k : Nat) (drive sense : BitVec 64) (f : BitVec 32) (s : State) (h : Raised x s) :
    Raised x (evaluateCard k drive sense f s) :=
  foldl_raised _ (fun t _ ht => evaluateLamp_raised _ _ _ _ t ht) _ s h

@[simp] theorem goodReturn_raised {x : Request} (w : Sweep) (s : State) (h : Raised x s) : Raised x (goodReturn w s) := by
  unfold goodReturn
  dsimp only
  split
  · apply evaluateCard_raised
    split <;> simp (maxDischargeDepth := 9) [h]
  · split <;> simp (maxDischargeDepth := 9) [h]

@[simp] theorem judgeCard_raised {x : Request} (w : Sweep) (s : State) (h : Raised x s) :
    Raised x (judgeCard w s) := by
  unfold judgeCard
  split <;> simp [h]

@[simp] theorem closeWindow_raised {x : Request} (w : Sweep) (s : State) (h : Raised x s) : Raised x (closeWindow w s) := by
  unfold closeWindow
  dsimp only
  split
  · exact sendFrame_raised _ _ _ _ (judgeCard_raised _ _ h)
  · apply foldl_raised _ (fun t k ht => writeLinkEntry_raised k t ht)
    have hj := judgeCard_raised w s h
    exact hj

@[simp] theorem clearFault_raised {x : Request} (r : Nat) (s : State) (h : Raised x s) :
    Raised x (clearFault r s) := by
  unfold clearFault
  dsimp only
  (repeat' split) <;> simp (maxDischargeDepth := 20) [h]

@[simp] theorem createMessage_raised {x : Request} (c : List Byte) (i : Nat) (s : State) (h : Raised x s) :
    Raised x (createMessage c i s) := by
  unfold createMessage
  dsimp only
  (repeat' split) <;> simp (maxDischargeDepth := 20) [h]

@[simp] theorem recordOpenAct_raised {x : Request} (slot : Nat) (c : List Byte) (s : State) (h : Raised x s) :
    Raised x (recordOpenAct slot c s) := by
  unfold recordOpenAct
  dsimp only
  (repeat' split) <;> simp (maxDischargeDepth := 20) [h]

@[simp] theorem enterClosing_raised {x : Request} (slot ch : Nat) (how : Closing) (s : State) (h : Raised x s) :
    Raised x (enterClosing slot ch how s) := by
  unfold enterClosing
  dsimp only
  (repeat' split) <;> simp (maxDischargeDepth := 20) [h]

@[simp] theorem recordCloseAct_raised {x : Request} (slot : Nat) (c : List Byte) (s : State) (h : Raised x s) :
    Raised x (recordCloseAct slot c s) := by
  unfold recordCloseAct
  dsimp only
  (repeat' split) <;> simp (maxDischargeDepth := 20) [h]

@[simp] theorem recordAbandonAct_raised {x : Request} (slot : Nat) (c : List Byte) (s : State) (h : Raised x s) :
    Raised x (recordAbandonAct slot c s) := by
  unfold recordAbandonAct
  dsimp only
  (repeat' split) <;> simp (maxDischargeDepth := 20) [h]

@[simp] theorem claimPlay_raised {x : Request} (slot ch i offset : Nat) (s : State) (h : Raised x s) :
    Raised x (claimPlay slot ch i offset s) := h

@[simp] theorem playOpenAct_raised {x : Request} (slot : Nat) (c : List Byte) (s : State) (h : Raised x s) :
    Raised x (playOpenAct slot c s) := by
  unfold playOpenAct
  dsimp only
  (repeat' split) <;> simp (maxDischargeDepth := 20) [h]

@[simp] theorem dispose_raised {x : Request} (i d : Nat) (s : State) (h : Raised x s) :
    Raised x (dispose i d s) := by
  unfold dispose
  dsimp only
  (repeat' split) <;> simp (maxDischargeDepth := 20) [h]

@[simp] theorem dropBuffers_raised {x : Request} (ch : Nat) (s : State) (h : Raised x s) :
    Raised x (dropBuffers ch s) := h

@[simp] theorem playCloseAct_raised {x : Request} (slot : Nat) (c : List Byte) (s : State) (h : Raised x s) :
    Raised x (playCloseAct slot c s) := by
  unfold playCloseAct
  dsimp only
  (repeat' split) <;> simp (maxDischargeDepth := 20) [h]

@[simp] theorem messageSaveAct_raised {x : Request} (slot : Nat) (c : List Byte) (s : State) (h : Raised x s) :
    Raised x (messageSaveAct slot c s) := by
  unfold messageSaveAct
  dsimp only
  (repeat' split) <;> simp (maxDischargeDepth := 20) [h]

@[simp] theorem messageMarkNewAct_raised {x : Request} (slot : Nat) (c : List Byte) (s : State) (h : Raised x s) :
    Raised x (messageMarkNewAct slot c s) := by
  unfold messageMarkNewAct
  dsimp only
  (repeat' split) <;> simp (maxDischargeDepth := 20) [h]

@[simp] theorem holdOrder_raised {x : Request} (slot left : Nat) (deferred : Bool) (res : List Byte) (s : State) (h : Raised x s) :
    Raised x (holdOrder slot left deferred res s) := h

@[simp] theorem messageDeleteAct_raised {x : Request} (slot : Nat) (c : List Byte) (s : State) (h : Raised x s) :
    Raised x (messageDeleteAct slot c s) := by
  unfold messageDeleteAct
  dsimp only
  (repeat' split) <;> simp (maxDischargeDepth := 20) [h]

@[simp] theorem mailboxPurgeAct_raised {x : Request} (slot : Nat) (c : List Byte) (s : State) (h : Raised x s) :
    Raised x (mailboxPurgeAct slot c s) := by
  have hf := foldl_raised (fun t i => releaseMessage i (.order slot) t)
    (fun t i ht => releaseMessage_raised i _ t ht) (s.purgeScope c) s h
  unfold mailboxPurgeAct
  dsimp only
  split
  · exact completeOrder_raised _ _ _ _ _ hf
  · exact holdOrder_raised _ _ _ _ _ hf

@[simp] theorem lampOverrideAct_raised {x : Request} (slot : Nat) (c : List Byte) (s : State) (h : Raised x s) :
    Raised x (lampOverrideAct slot c s) :=
  completeOrder_raised _ _ _ _ _ (foldl_raised _ (fun t r ht => setOverride_raised _ r t ht) _ s h)

@[simp] theorem lampFaultClearAct_raised {x : Request} (slot : Nat) (c : List Byte) (s : State) (h : Raised x s) :
    Raised x (lampFaultClearAct slot c s) :=
  completeOrder_raised _ _ _ _ _ (foldl_raised _ (fun t r ht => clearFault_raised r t ht) _ s h)

@[simp] theorem folioAdjustAct_raised {x : Request} (slot : Nat) (c : List Byte) (s : State) (h : Raised x s) :
    Raised x (folioAdjustAct slot c s) := by
  unfold folioAdjustAct
  dsimp only
  (repeat' split) <;> simp (maxDischargeDepth := 20) [h]

@[simp] theorem folioReleaseAct_raised {x : Request} (slot : Nat) (c : List Byte) (s : State) (h : Raised x s) :
    Raised x (folioReleaseAct slot c s) := by
  unfold folioReleaseAct
  dsimp only
  (repeat' split) <;> simp (maxDischargeDepth := 20) [h]

@[simp] theorem clockSetAct_raised {x : Request} (slot : Nat) (c : List Byte) (s : State) (h : Raised x s) :
    Raised x (clockSetAct slot c s) := by simp [clockSetAct, h]

@[simp] theorem orderAct_raised {x : Request} (o : Order) (slot : Nat) (c : List Byte) (s : State) (h : Raised x s) :
    Raised x (orderAct o slot c s) := by
  unfold orderAct
  split <;> simp [h]

@[simp] theorem actOnCopy_raised {x : Request} (slot : Nat) (c : List Byte) (s : State) (h : Raised x s) : Raised x (actOnCopy slot c s) := by
  unfold actOnCopy
  split
  · exact completeOrder_raised _ _ _ _ _ h
  · split
    · exact completeOrder_raised _ _ _ _ _ h
    · exact orderAct_raised _ _ _ _ h

@[simp] theorem completeTake_raised {x : Request} (slot : Nat) (c : List Byte) (s : State) (h : Raised x s) :
    Raised x (completeTake slot c s) := by
  unfold completeTake
  dsimp only
  (repeat' split) <;> simp (maxDischargeDepth := 20) [h]

@[simp] theorem takeOrder_raised {x : Request} (slot : Nat) (c : List Byte) (s : State) (h : Raised x s) :
    Raised x (takeOrder slot c s) := by
  unfold takeOrder
  dsimp only
  (repeat' split) <;> simp (maxDischargeDepth := 20) [h]

@[simp] theorem takeReturned_raised {x : Request} (slot : Nat) (c : List Byte) (s : State) (h : Raised x s) :
    Raised x (takeReturned slot c s) := by
  unfold takeReturned
  split <;> simp [h]

@[simp] theorem renewFirst_raised {x : Request} (n : Nat) (s : State) (h : Raised x s) :
    Raised x (renewFirst n s) := by
  unfold renewFirst
  split <;> simp [h]

@[simp] theorem leaveReleaseLine_raised {x : Request} (s : State) (h : Raised x s) :
    Raised x (leaveReleaseLine s) := h

@[simp] theorem takeGranted_raised {x : Request} (slot need : Nat) (c : List Byte) (s : State) (h : Raised x s) :
    Raised x (takeGranted slot need c s) := by
  unfold takeGranted
  split <;> simp [h]

@[simp] theorem startPop_raised {x : Request} (s : State) (h : Raised x s) :
    Raised x (startPop s) := by simp [startPop, h]

@[simp] theorem popReturned_raised {x : Request} (data : List Byte) (s : State) (h : Raised x s) :
    Raised x (popReturned data s) := by simp [popReturned, h]

@[simp] theorem startPush_raised {x : Request} (s : State) (h : Raised x s) :
    Raised x (startPush s) := by
  unfold startPush
  split <;> simp [h]

@[simp] theorem reportRelease_raised {x : Request} (cause : Cause) (s : State) (h : Raised x s) :
    Raised x (reportRelease cause s) := by
  unfold reportRelease
  split <;> simp [h]

@[simp] theorem completeEntry_raised {x : Request} (e : ReleaseEntry) (rest : List ReleaseEntry) (s : State) (h : Raised x s) :
    Raised x (completeEntry e rest s) := by
  unfold completeEntry
  dsimp only
  (repeat' split) <;> simp (maxDischargeDepth := 20) [h]

@[simp] theorem releaseInHand_raised {x : Request} (w : Walk) (e : ReleaseEntry) (s : State) (h : Raised x s) :
    Raised x (releaseInHand w e s) := by
  unfold releaseInHand
  dsimp only
  (repeat' split) <;> simp (maxDischargeDepth := 20) [h]

@[simp] theorem walkReturned_raised {x : Request} (header : List Byte) (s : State) (h : Raised x s) :
    Raised x (walkReturned header s) := by
  unfold walkReturned
  dsimp only
  (repeat' split) <;> simp (maxDischargeDepth := 20) [h]

end Sys2Proof.Machine
end

