-- ==== Sys2Proof/Laws/Takes.lean ====
section
/-! SUPPORT. The take of an order, said once (R175): what every order that is not refused does beside its own effect. -/

namespace Sys2Proof.Machine

/-- The state in which a taken order acts: its slot no longer taking, counted, its EXECUTING write raised (R175). -/
def State.atAct (s : State) (slot : Nat) (copy : List Byte) : State :=
  let u := raiseExecuting slot copy
    (updateEntry slot (fun e => { e with code := param copy 1 1, copy := copy, stage := .executing }) s)
  { u with ring.taking := none, ring.ordersTaken := sat32 u.ring.ordersTaken }

/-- The consumer index moves on (R175). -/
def nextSlot (s : State) : State := { s with ring.consumer := (s.ring.consumer + 1) % s.profile.orderSlots }

theorem completeTake_eq (slot : Nat) (copy : List Byte) (s : State) :
    completeTake slot copy s = nextSlot (actOnCopy slot copy (s.atAct slot copy)) := rfl

/-- An engine's effect keeps what a base view shows. -/
theorem outer_sameOuter {s t : State} (h : t.outer = s.outer) : sameOuter s t := by
  unfold State.outer at h
  simp only [Prod.mk.injEq] at h
  exact ⟨h.2.2.2.1, h.2.2.2.2, h.2.2.1, h.2.1, h.1⟩

/-- The entry of a slot after a change to it. -/
theorem entryOf_updateEntry {s : State} {slot : Nat} {e : InFlight} (f : InFlight → InFlight)
    (hf : ∀ e, (f e).slot = e.slot) (h : s.entryOf slot = some e) : (updateEntry slot f s).entryOf slot = some (f e) := by
  unfold State.entryOf updateEntry at *
  dsimp only
  generalize s.ring.inFlight = l at *
  induction l with
  | nil => cases h
  | cons a t ih =>
    simp only [List.map_cons, List.find?_cons] at *
    by_cases ha : a.slot = slot
    · simp only [ha, if_true, hf, decide_true] at h ⊢
      cases h
      rfl
    · simp only [ha, if_false, decide_false] at h ⊢
      exact ih h

theorem atAct_entry {s : State} {slot : Nat} {e : InFlight} (copy : List Byte) (h : s.entryOf slot = some e) :
    ∃ e', (s.atAct slot copy).entryOf slot = some e' ∧ e'.copy = copy := by
  refine ⟨_, entryOf_updateEntry (s := s) _ (fun _ => rfl) h, rfl⟩

/-- The EXECUTING write is raised before the order acts. -/
theorem atAct_raised (s : State) (slot : Nat) (copy : List Byte) :
    Raised (executingWrite s slot copy) (s.atAct slot copy) := by
  unfold State.atAct raiseExecuting
  simp only [Raised]
  exact List.mem_append_right _ (List.mem_singleton.mpr rfl)

theorem profile_of_base {s t : State} (h : t.base = s.base) : t.profile = s.profile :=
  congrArg (fun b : (List Instr × BitVec 3 × BitVec 32 × Table Byte × TimeBase) × Control × HostPath × Arbiter × Notices =>
    b.2.1.profile) h

theorem time_of_outer {s t : State} (h : t.outer = s.outer) : t.time = s.time :=
  congrArg (fun b : List Instr × BitVec 3 × BitVec 32 × Table Byte × TimeBase => b.2.2.2.2) h

/-- A completion raises the completion write with the copy of its entry (R177). -/
theorem completeOrder_raises {s : State} {slot : Nat} {e : InFlight} (st : Status) (deferred : Bool) (res : List Byte)
    (h : s.entryOf slot = some e) :
    Raised (completionWrite s slot e.copy st deferred res) (completeOrder slot st deferred res s) := by
  unfold completeOrder
  rw [h]
  exact raised_raise _ _

/-- Two states with the same profile write a slot at the same place. -/
theorem completionWrite_congr {s t : State} (h : t.profile = s.profile) (slot : Nat) (copy : List Byte) (st : Status)
    (deferred : Bool) (res : List Byte) :
    completionWrite t slot copy st deferred res = completionWrite s slot copy st deferred res := by
  unfold completionWrite State.slotAddr
  rw [h]

theorem lineGrew_of_ends {s u t : State} (h : EndsAs u t) (he : u.arbiter.lines = s.arbiter.lines) {who : Requester}
    {rs : List Request} (hr : ∀ r ∈ rs, Raised r u ∧ r.source.requester = who) : lineGrew s t who rs := by
  obtain ⟨l, hl, hm⟩ := h.lines who
  refine ⟨l, by rw [hl, he], fun r hx => hm r ?_⟩
  unfold State.raisedFor
  simp only [List.mem_filter, decide_eq_true_eq]
  exact hr r hx

/-- A taken order, whatever it does: if its effect keeps the base and the ring but for its orders in flight, the take
is complete as R175 says, and the step ends as that effect. -/
theorem order_taken {s : State} {o : Order} {slot : Nat} {copy : List Byte} (h : s.takesNow o slot copy)
    (hr : ∀ t, (orderAct o slot copy t).ringCore = t.ringCore)
    (hb : ∀ t, { (orderAct o slot copy t) with time := t.time }.base = t.base)
    (hq : ∀ t x, Raised x t → Raised x (orderAct o slot copy t)) :
    ∃ t, exec o.row s = .next t ∧ OrderTaken s t slot copy ∧
      EndsAs (nextSlot (orderAct o slot copy ((takeReturn Source.isTake s).atAct slot copy))) t ∧
      ∃ e, ((takeReturn Source.isTake s).atAct slot copy).entryOf slot = some e ∧ e.copy = copy := by
  obtain ⟨ho, ht, ⟨e, he⟩, href, hg⟩ := h
  have hrow : exec o.row s = stepOrder o s := by cases o <;> rfl
  have hcopy : copyOrder copy = some o := by
    unfold State.takeOf at ht
    split at ht
    · split at ht
      · next hc => cases ht; exact hc.2
      · cases ht
    · cases ht
  have hp : (takeReturn Source.isTake s).placesOf copy = orderPlaces o copy s := by
    unfold State.placesOf
    rw [hcopy]
    have : orderRefusal o copy (takeReturn Source.isTake s) = none := href
    simp only [this]
    rfl
  have hg' : (takeReturn Source.isTake s).grantsAtOnce (orderPlaces o copy s) = true := hg
  have hact : takeOrder slot copy (takeReturn Source.isTake s) =
      nextSlot (orderAct o slot copy ((takeReturn Source.isTake s).atAct slot copy)) := by
    unfold takeOrder
    simp only [hp, hg', if_true]
    rw [completeTake_eq]
    unfold actOnCopy
    have : orderRefusal o copy ((takeReturn Source.isTake s).atAct slot copy) = none := href
    simp only [hcopy, this]
  have hstep : exec o.row s = .next (taken (fun t => takeOrder slot copy (takeReturn Source.isTake t)) s) := by
    rw [hrow]
    unfold stepOrder
    rw [ht]
  have hends := taken_endsAs' (f := fun t => takeOrder slot copy (takeReturn Source.isTake t)) ho hact
  obtain ⟨e', he', hc'⟩ := atAct_entry (s := takeReturn Source.isTake s) copy he
  have hcore := hr ((takeReturn Source.isTake s).atAct slot copy)
  have hbase := hb ((takeReturn Source.isTake s).atAct slot copy)
  have hprof : (orderAct o slot copy ((takeReturn Source.isTake s).atAct slot copy)).profile = s.profile :=
    congrArg (fun b : (List Instr × BitVec 3 × BitVec 32 × Table Byte × TimeBase) × Control × HostPath × Arbiter × Notices =>
      b.2.1.profile) hbase
  have hlines : (orderAct o slot copy ((takeReturn Source.isTake s).atAct slot copy)).arbiter.lines = s.arbiter.lines :=
    congrArg (fun b : (List Instr × BitVec 3 × BitVec 32 × Table Byte × TimeBase) × Control × HostPath × Arbiter × Notices =>
      b.2.2.2.1.lines) hbase
  have hrc (f : Ring → Nat) (hf : ∀ r : Ring, f r.core = f r) :
      f (orderAct o slot copy ((takeReturn Source.isTake s).atAct slot copy)).ring =
        f ((takeReturn Source.isTake s).atAct slot copy).ring := by
    rw [← hf, ← hf ((takeReturn Source.isTake s).atAct slot copy).ring]
    exact congrArg f hcore
  refine ⟨_, hstep, ⟨?_, ?_, ?_, ?_⟩, hends, e', he', hc'⟩
  · rw [hends.ring]
    exact congrArg Ring.taking hcore
  · rw [hends.ring]
    show (_ + 1) % _ = _
    rw [hprof, hrc Ring.consumer fun _ => rfl]
    rfl
  · rw [hends.ring]
    exact (hrc Ring.ordersTaken fun _ => rfl).trans rfl
  · refine lineGrew_of_ends hends hlines ?_
    intro r hx
    rw [List.mem_singleton] at hx
    subst hx
    exact ⟨hq _ _ (atAct_raised (takeReturn Source.isTake s) slot copy), rfl⟩

/-- An order whose effect keeps the base: the whole of its take (R175). -/
theorem order_taken_base {s : State} {o : Order} {slot : Nat} {copy : List Byte} (h : s.takesNow o slot copy)
    (hc : o ≠ .clockSet) :
    ∃ t, exec o.row s = .next t ∧ sameOuter s t ∧ OrderTaken s t slot copy ∧
      EndsAs (nextSlot (orderAct o slot copy ((takeReturn Source.isTake s).atAct slot copy))) t ∧
      ∃ e, ((takeReturn Source.isTake s).atAct slot copy).entryOf slot = some e ∧ e.copy = copy := by
  have hb : ∀ t, (orderAct o slot copy t).base = t.base := by
    intro t; cases o <;> first | exact absurd rfl hc | simp [orderAct]
  obtain ⟨t, h1, h2, h3, h4⟩ := order_taken h
    (by intro t; cases o <;> first | exact absurd rfl hc | simp [orderAct])
    (by
      intro t
      have ht : (orderAct o slot copy t).time = t.time := time_of_outer (State.outer_of_base (hb t))
      rw [← ht]
      exact hb t)
    (by intro t x hx; cases o <;> first | exact absurd rfl hc | simp [orderAct, hx])
  exact ⟨t, h1, h3.sameOuter (outer_sameOuter ((State.outer_of_base (hb _)).trans rfl)), h2, h3, h4⟩

/-- An order that ends in a completion is answered (R177). -/
theorem answered_of {s w t : State} {slot : Nat} {copy : List Byte} {st : Status} {deferred : Bool} {res : List Byte}
    {e : InFlight} (h : EndsAs (nextSlot (completeOrder slot st deferred res w)) t)
    (hb : w.base = ((takeReturn Source.isTake s).atAct slot copy).base)
    (hr : w.ring = ((takeReturn Source.isTake s).atAct slot copy).ring)
    (hx : Raised (executingWrite s slot copy) w)
    (he : ((takeReturn Source.isTake s).atAct slot copy).entryOf slot = some e) (hc : e.copy = copy) :
    Answered s t slot copy st deferred res := by
  have hw : w.entryOf slot = some e := by
    unfold State.entryOf at he ⊢
    rw [hr]; exact he
  refine lineGrew_of_ends h ?_ ?_
  · have := completeOrder_base slot st deferred res w
    rw [hb] at this
    exact congrArg (fun b : (List Instr × BitVec 3 × BitVec 32 × Table Byte × TimeBase) × Control × HostPath × Arbiter ×
      Notices => b.2.2.2.1.lines) this
  · intro r hm
    rcases List.mem_cons.mp hm with rfl | hm
    · exact ⟨completeOrder_raised _ _ _ _ _ hx, rfl⟩
    · rw [List.mem_singleton] at hm
      subst hm
      refine ⟨?_, rfl⟩
      have := completeOrder_raises st deferred res hw
      rw [hc, completionWrite_congr (s := s) ((profile_of_base hb).trans rfl)] at this
      exact this

theorem atAct_executing (s : State) (slot : Nat) (copy : List Byte) :
    Raised (executingWrite s slot copy) ((takeReturn Source.isTake s).atAct slot copy) :=
  atAct_raised (takeReturn Source.isTake s) slot copy

end Sys2Proof.Machine
end

