-- ==== Sys2Proof/Laws/Store.lean ====
section
/-! SUPPORT. What the operations on message records and mailboxes do (2.8 to 2.10): which record, which summary, and
that the rest of the store is as it was. -/

namespace Sys2Proof.Machine

/-- A message but for its place in a list. -/
def Message.core (m : Message) : Message := { m with next := 0 }

theorem Message.core_state {m n : Message} (h : m.core = n.core) : m.state = n.state := by
  have := congrArg Message.state h
  exact this

theorem Message.core_room {m n : Message} (h : m.core = n.core) : m.room = n.room := by
  have := congrArg Message.room h
  exact this

/-- The store but for its records, summaries and mirror marks. -/
def Store.shelf (t : Store) : Store := { t with messages := [], mailboxes := [], marks := [] }

theorem Store.shelf_releaseQueue {t u : Store} (h : t.shelf = u.shelf) : t.releaseQueue = u.releaseQueue := by
  have := congrArg Store.releaseQueue h
  exact this

theorem Store.shelf_releaseLine {t u : Store} (h : t.shelf = u.shelf) : t.releaseLine = u.releaseLine := by
  have := congrArg Store.releaseLine h
  exact this

theorem message_congr {s t : State} (h : t.store.messages = s.store.messages) (j : Nat) : t.message j = s.message j := by
  unfold State.message; rw [h]

theorem mailbox_congr {s t : State} (h : t.store.mailboxes = s.store.mailboxes) (r : Nat) : t.mailbox r = s.mailbox r := by
  unfold State.mailbox; rw [h]

@[simp] theorem updateMessage_message (i : Nat) (m : Message) (s : State) (j : Nat) :
    (updateMessage i m s).message j = if j = i then m else s.message j := by
  unfold updateMessage recordWrite
  split <;> simp

@[simp] theorem updateMessage_mailbox (i : Nat) (m : Message) (s : State) (r : Nat) :
    (updateMessage i m s).mailbox r = s.mailbox r := by
  unfold updateMessage recordWrite
  split <;> simp

@[simp] theorem updateMessage_shelf (i : Nat) (m : Message) (s : State) :
    (updateMessage i m s).store.shelf = s.store.shelf := by
  unfold updateMessage recordWrite
  split <;> rfl

@[simp] theorem updateMessage_marks (i : Nat) (m : Message) (s : State) :
    (updateMessage i m s).store.marks = s.store.marks := by
  unfold updateMessage recordWrite
  split <;> simp

theorem updateMessage_host (i : Nat) (m : Message) (s : State) : (updateMessage i m s).host = s.host :=
  congrArg (fun b : (List Instr × BitVec 3 × BitVec 32 × Table Byte × TimeBase) × Control × HostPath × Arbiter × Notices =>
    b.2.2.1) (updateMessage_base i m s)

/-- Relinking changes the next index of its own record, and nothing else (R36). -/
theorem relink_spec (list : List Nat) (i : Nat) (s : State) :
    (∀ j, ((relink list i s).message j).core = (s.message j).core) ∧
    (∀ r, (relink list i s).mailbox r = s.mailbox r) ∧ (relink list i s).store.shelf = s.store.shelf ∧
    (relink list i s).store.marks = s.store.marks := by
  unfold relink
  dsimp only
  split
  · exact ⟨fun _ => rfl, fun _ => rfl, rfl, rfl⟩
  · refine ⟨fun j => ?_, fun r => ?_, ?_, ?_⟩
    · rw [updateMessage_message]
      split
      · next h => rw [h]; rfl
      · rfl
    · simp
    · simp
    · simp

theorem relinks_spec (list l : List Nat) (s : State) :
    (∀ j, ((l.foldl (fun t i => relink list i t) s).message j).core = (s.message j).core) ∧
    (∀ r, (l.foldl (fun t i => relink list i t) s).mailbox r = s.mailbox r) ∧
    (l.foldl (fun t i => relink list i t) s).store.shelf = s.store.shelf ∧
    (l.foldl (fun t i => relink list i t) s).store.marks = s.store.marks := by
  refine ⟨fun j => ?_, fun r => ?_, ?_, ?_⟩
  · exact foldl_keeps (fun t => (State.message t j).core) _ (fun t i => (relink_spec list i t).1 j) l s
  · exact foldl_keeps (fun t => State.mailbox t r) _ (fun t i => (relink_spec list i t).2.1 r) l s
  · exact foldl_keeps (fun t => (State.store t).shelf) _ (fun t i => (relink_spec list i t).2.2.1) l s
  · exact foldl_keeps (fun t => (State.store t).marks) _ (fun t i => (relink_spec list i t).2.2.2) l s

/-- A view of the state that the lamp engine and its mark are no part of. -/
theorem recomputeLamp_message (r : Nat) (s : State) (j : Nat) : (recomputeLamp r s).message j = s.message j := by
  unfold State.message; rw [recomputeLamp_store]

theorem recomputeLamp_mailbox (r : Nat) (s : State) (q : Nat) : (recomputeLamp r s).mailbox q = s.mailbox q := by
  unfold State.mailbox; rw [recomputeLamp_store]

/-- A change of a room's list, the whole of it in the store (R36). -/
theorem setList_spec (r : Nat) (list : List Nat) (s : State) :
    (∀ j, ((setList r list s).message j).core = (s.message j).core) ∧
    (∀ q, q ≠ r → (setList r list s).mailbox q = s.mailbox q) ∧
    ((setList r list s).mailbox r).list = list ∧
    ((setList r list s).mailbox r).places = (s.mailbox r).places ∧
    ((setList r list s).mailbox r).blocksUsed = (s.mailbox r).blocksUsed ∧
    (setList r list s).store.shelf = s.store.shelf ∧
    (setList r list s).store.marks = addMark s.store.marks r := by
  obtain ⟨h1, h2, h3, h4⟩ := relinks_spec list ((s.mailbox r).list ++ list) s
  unfold setList
  dsimp only
  generalize ((s.mailbox r).list ++ list).foldl (fun t i => relink list i t) s = v at *
  have key (u : State) (h : u.store = (markMail r (v.setMailbox r (recounted v (s.mailbox r) list))).store) :
      (∀ j, (u.message j).core = (s.message j).core) ∧ (∀ q, q ≠ r → u.mailbox q = s.mailbox q) ∧
      (u.mailbox r).list = list ∧ (u.mailbox r).places = (s.mailbox r).places ∧
      (u.mailbox r).blocksUsed = (s.mailbox r).blocksUsed ∧ u.store.shelf = s.store.shelf ∧
      u.store.marks = addMark s.store.marks r := by
    have hm (j) : u.message j = v.message j := by unfold State.message; rw [h]; rfl
    have hb (q) : u.mailbox q = if q = r then recounted v (s.mailbox r) list else v.mailbox q := by
      have : u.mailbox q = (markMail r (v.setMailbox r (recounted v (s.mailbox r) list))).mailbox q :=
        congrArg (fun t : Store => Table.get ({} : Mailbox) t.mailboxes q) h
      rw [this]; simp
    refine ⟨fun j => by rw [hm, h1], fun q hq => by rw [hb, if_neg hq, h2], by rw [hb, if_pos rfl]; rfl,
      by rw [hb, if_pos rfl]; rfl, by rw [hb, if_pos rfl]; rfl, ?_, ?_⟩
    · rw [h]; exact h3
    · rw [h, markMail_store_marks, State.setMailbox_store_marks, h4]
  split
  · exact key _ rfl
  · exact key _ (recomputeLamp_store _ _)

theorem mem_insertPlay (s : State) (i j : Nat) (l : List Nat) : j ∈ insertPlay s i l ↔ j = i ∨ j ∈ l := by
  induction l with
  | nil => simp [insertPlay]
  | cons a t ih =>
    unfold insertPlay
    split
    · simp
    · simp [ih, or_left_comm]

/-- A message takes a listed state: its record, its room's list, and nothing else of the store (R34, R39, R40). -/
theorem moveMessage_spec (i : Nat) (st : MessageState) (s : State) :
    ((moveMessage i st s).message i).core = { (s.message i).core with state := st } ∧
    (∀ j, j ≠ i → ((moveMessage i st s).message j).core = (s.message j).core) ∧
    (∀ q, q ≠ (s.message i).room → (moveMessage i st s).mailbox q = s.mailbox q) ∧
    (∀ j, j ∈ ((moveMessage i st s).mailbox (s.message i).room).list ↔
      j = i ∨ j ∈ (s.mailbox (s.message i).room).list) ∧
    ((moveMessage i st s).mailbox (s.message i).room).places = (s.mailbox (s.message i).room).places ∧
    ((moveMessage i st s).mailbox (s.message i).room).blocksUsed = (s.mailbox (s.message i).room).blocksUsed ∧
    (moveMessage i st s).store.shelf = s.store.shelf ∧
    (s.message i).room ∈ (moveMessage i st s).store.marks := by
  unfold moveMessage
  dsimp only
  obtain ⟨h1, h2, h3, h4, h5, h6, h7⟩ := setList_spec (s.message i).room
    (insertPlay (updateMessage i { s.message i with state := st } s) i
      (((updateMessage i { s.message i with state := st } s).mailbox (s.message i).room).list.filter fun j => j ≠ i))
    (updateMessage i { s.message i with state := st } s)
  refine ⟨?_, fun j hj => ?_, fun q hq => ?_, fun j => ?_, ?_, ?_, ?_, ?_⟩
  · rw [h1]; simp [Message.core]
  · rw [h1]; simp [hj]
  · rw [h2 q hq]; simp
  · rw [h3, mem_insertPlay]
    simp only [updateMessage_mailbox, List.mem_filter, ne_eq, decide_not, Bool.not_eq_eq_eq_not, Bool.not_true,
      decide_eq_false_iff_not]
    by_cases hj : j = i <;> simp [hj]
  · rw [h4]; simp
  · rw [h5]; simp
  · rw [h6]; simp
  · rw [h7]; simp [mem_addMark]

/-- A record becomes FREE (R29, R30). -/
theorem freeRecord_spec (i : Nat) (s : State) :
    ((freeRecord i s).message i).core = { (s.message i).core with state := .free } ∧
    (∀ j, j ≠ i → (freeRecord i s).message j = s.message j) ∧ (∀ r, (freeRecord i s).mailbox r = s.mailbox r) ∧
    (freeRecord i s).store.marks = s.store.marks ∧ (freeRecord i s).store.releaseQueue = s.store.releaseQueue ∧
    (freeRecord i s).store.releaseLine = s.store.releaseLine := by
  have hs := updateMessage_shelf i { s.message i with state := .free, next := none16 } s
  have hm := updateMessage_message i { s.message i with state := .free, next := none16 } s
  have hb := updateMessage_mailbox i { s.message i with state := .free, next := none16 } s
  have hk := updateMessage_marks i { s.message i with state := .free, next := none16 } s
  unfold freeRecord
  dsimp only
  generalize updateMessage i { s.message i with state := .free, next := none16 } s = v at *
  have key (u : State) (hu : u.store = { v.store with freeRecords := u.store.freeRecords }) :
      (u.message i).core = { (s.message i).core with state := .free } ∧ (∀ j, j ≠ i → u.message j = s.message j) ∧
      (∀ r, u.mailbox r = s.mailbox r) ∧ u.store.marks = s.store.marks ∧
      u.store.releaseQueue = s.store.releaseQueue ∧ u.store.releaseLine = s.store.releaseLine := by
    have h1 (j) : u.message j = v.message j := by unfold State.message; rw [hu]
    have h2 (q) : u.mailbox q = v.mailbox q := by unfold State.mailbox; rw [hu]
    refine ⟨by rw [h1, hm]; simp [Message.core], fun j hj => by rw [h1, hm]; simp [hj], fun r => by rw [h2, hb], ?_, ?_, ?_⟩
    · rw [hu]; exact hk
    · rw [hu, ← Store.shelf_releaseQueue hs]
    · rw [hu, ← Store.shelf_releaseLine hs]
  split
  · exact key _ rfl
  · exact key _ rfl

theorem startWalk_store (s : State) :
    (startWalk s).store.messages = s.store.messages ∧ (startWalk s).store.mailboxes = s.store.mailboxes ∧
    (startWalk s).store.marks = s.store.marks ∧ (startWalk s).store.releaseQueue = s.store.releaseQueue ∧
    (startWalk s).store.releaseLine = s.store.releaseLine := by
  unfold startWalk raiseWalk
  split <;> exact ⟨rfl, rfl, rfl, rfl, rfl⟩

/-- The end of a message's release: its chain joins the queue, or its record is FREE at once (R37). -/
theorem queueChain_spec (i : Nat) (cause : Cause) (s : State) :
    ((queueChain i cause s).message i).core =
      (if 0 < (s.message i).blocks then (s.message i).core else { (s.message i).core with state := .free }) ∧
    (∀ j, j ≠ i → (queueChain i cause s).message j = s.message j) ∧
    (∀ r, (queueChain i cause s).mailbox r = s.mailbox r) ∧
    (queueChain i cause s).store.marks = s.store.marks ∧
    (queueChain i cause s).store.releaseQueue =
      (if 0 < (s.message i).blocks then
        s.store.releaseQueue ++ [⟨(s.message i).first, (s.message i).blocks, i, cause⟩] else s.store.releaseQueue) ∧
    (queueChain i cause s).store.releaseLine = s.store.releaseLine := by
  unfold queueChain
  dsimp only
  split
  · next h =>
    obtain ⟨h1, h2, h3, h4, h5⟩ := startWalk_store { s with
      store.releaseQueue := s.store.releaseQueue ++ [⟨(s.message i).first, (s.message i).blocks, i, cause⟩] }
    refine ⟨?_, fun j _ => ?_, fun r => ?_, h3, h4, h5⟩
    · rw [message_congr h1]; rfl
    · rw [message_congr h1]; rfl
    · rw [mailbox_congr h2]; rfl
  · next h =>
    obtain ⟨h1, h2, h3, h4, h5, h6⟩ := freeRecord_spec i s
    exact ⟨h1, h2, h3, h4, h5, h6⟩

/-- A message leaves its room on release (R37, step 1): its state, its room's list and places. -/
theorem releaseMessage_spec (i : Nat) (cause : Cause) (s : State) :
    ((releaseMessage i cause s).message i).core =
      { (s.message i).core with
        state := if (s.message i).readers = 0 ∧ (s.message i).blocks = 0 then .free else .deleting } ∧
    (∀ j, j ≠ i → ((releaseMessage i cause s).message j).core = (s.message j).core) ∧
    (∀ q, q ≠ (s.message i).room → (releaseMessage i cause s).mailbox q = s.mailbox q) ∧
    ((releaseMessage i cause s).mailbox (s.message i).room).list =
      (if (s.message i).state.listed then (s.mailbox (s.message i).room).list.filter fun j => j ≠ i
       else (s.mailbox (s.message i).room).list) ∧
    ((releaseMessage i cause s).mailbox (s.message i).room).places =
      (if (s.message i).state.listed ∨ (s.message i).state = .recording then (s.mailbox (s.message i).room).places - 1
       else (s.mailbox (s.message i).room).places) ∧
    (releaseMessage i cause s).store.releaseQueue =
      (if (s.message i).readers = 0 ∧ 0 < (s.message i).blocks then
        s.store.releaseQueue ++ [⟨(s.message i).first, (s.message i).blocks, i, cause⟩] else s.store.releaseQueue) ∧
    (releaseMessage i cause s).store.releaseLine = s.store.releaseLine ∧
    (∀ k ∈ s.store.marks, k ∈ (releaseMessage i cause s).store.marks) ∧
    ((s.message i).state.listed → (s.message i).room ∈ (releaseMessage i cause s).store.marks) := by
  have hm := updateMessage_message i { s.message i with state := .deleting } s
  have hb := updateMessage_mailbox i { s.message i with state := .deleting } s
  have hs := updateMessage_shelf i { s.message i with state := .deleting } s
  have hk := updateMessage_marks i { s.message i with state := .deleting } s
  unfold releaseMessage
  dsimp only
  generalize updateMessage i { s.message i with state := .deleting } s = v at *
  -- the state after the list and the places
  have key (w : State) (h1 : ∀ j, (w.message j).core = (v.message j).core)
      (h6 : w.store.shelf = v.store.shelf) :
      (((if (s.message i).readers = 0 then queueChain i cause w else w).message i).core =
        { (s.message i).core with
          state := if (s.message i).readers = 0 ∧ (s.message i).blocks = 0 then .free else .deleting }) ∧
      (∀ j, j ≠ i → ((if (s.message i).readers = 0 then queueChain i cause w else w).message j).core = (s.message j).core) ∧
      (∀ q, (if (s.message i).readers = 0 then queueChain i cause w else w).mailbox q = w.mailbox q) ∧
      (if (s.message i).readers = 0 then queueChain i cause w else w).store.marks = w.store.marks ∧
      (if (s.message i).readers = 0 then queueChain i cause w else w).store.releaseQueue =
        (if (s.message i).readers = 0 ∧ 0 < (s.message i).blocks then
          s.store.releaseQueue ++ [⟨(s.message i).first, (s.message i).blocks, i, cause⟩] else s.store.releaseQueue) ∧
      (if (s.message i).readers = 0 then queueChain i cause w else w).store.releaseLine = s.store.releaseLine := by
    have hi : (w.message i).core = { (s.message i).core with state := .deleting } := by
      rw [h1, hm]; simp [Message.core]
    have hblk : (w.message i).blocks = (s.message i).blocks := by
      have := congrArg Message.blocks hi
      exact this
    have hfst : (w.message i).first = (s.message i).first := by
      have := congrArg Message.first hi
      exact this
    have hj (j) (hj : j ≠ i) : (w.message j).core = (s.message j).core := by rw [h1, hm]; simp [hj]
    have hq : w.store.releaseQueue = s.store.releaseQueue :=
      (Store.shelf_releaseQueue h6).trans
        (Store.shelf_releaseQueue hs)
    have hl : w.store.releaseLine = s.store.releaseLine :=
      (Store.shelf_releaseLine h6).trans
        (Store.shelf_releaseLine hs)
    by_cases hr : (s.message i).readers = 0
    · simp only [hr, if_true, true_and]
      obtain ⟨c1, c2, c3, c4, c5, c6⟩ := queueChain_spec i cause w
      refine ⟨?_, fun j hne => by rw [c2 j hne, hj j hne], c3, c4, ?_, by rw [c6, hl]⟩
      · rw [c1, hblk, hi]
        by_cases hb0 : (s.message i).blocks = 0
        · simp [hb0]
        · rw [if_pos (Nat.pos_of_ne_zero hb0), if_neg hb0]
      · rw [c5, hblk, hfst, hq]
    · simp only [hr, if_false, false_and]
      exact ⟨hi, hj, fun _ => trivial, trivial, hq, hl⟩
  by_cases hlist : (s.message i).state.listed = true
  · simp only [hlist, if_true, true_or]
    obtain ⟨l1, l2, l3, l4, l5, l6, l7⟩ := setList_spec (s.message i).room
      ((v.mailbox (s.message i).room).list.filter fun j => j ≠ i)
      (setPlaces (s.message i).room ((v.mailbox (s.message i).room).places - 1) v)
    obtain ⟨k1, k2, k3, k4, k5, k6⟩ := key _ (fun j => by rw [l1]; simp) (by rw [l6]; rfl)
    refine ⟨k1, k2, fun q hq => ?_, ?_, ?_, k5, k6, fun k hkm => ?_, fun _ => ?_⟩
    · rw [k3, l2 q hq]; simp [hq, hb]
    · rw [k3, l3]; simp [hb]
    · rw [k3, l4]; simp [hb]
    · rw [k4, l7]; simp [mem_addMark, hk, hkm]
    · rw [k4, l7]; simp [mem_addMark]
  · have hlf : (s.message i).state.listed = false := by simpa using hlist
    simp only [hlf, Bool.false_eq_true, if_false, false_or]
    by_cases hrec : (s.message i).state = .recording
    · rw [if_pos hrec, if_pos hrec]
      obtain ⟨k1, k2, k3, k4, k5, k6⟩ := key (setPlaces (s.message i).room ((v.mailbox (s.message i).room).places - 1) v)
        (fun j => by simp) rfl
      refine ⟨k1, k2, fun q hq => ?_, ?_, ?_, k5, k6, fun k hkm => ?_, fun h => h.elim⟩
      · rw [k3]; simp [hq, hb]
      · rw [k3]; simp [hb]
      · rw [k3]; simp [hb]
      · rw [k4]; simp [mem_addMark, hk, hkm]
    · rw [if_neg hrec, if_neg hrec]
      obtain ⟨k1, k2, k3, k4, k5, k6⟩ := key v (fun j => rfl) rfl
      refine ⟨k1, k2, fun q _ => by rw [k3, hb], by rw [k3, hb], by rw [k3, hb], k5, k6, fun k hkm => by rw [k4, hk]; exact hkm,
        fun h => h.elim⟩

/-- Releasing messages of one room in turn (R42, R78): each is DELETING or FREE and in no list, every other message is
as it was, and the list keeps the others in order. -/
theorem releases_spec (cause : Cause) (r : Nat) (l : List Nat) (s : State)
    (h : ∀ i ∈ l, (s.message i).room = r ∧ ((s.message i).state.listed = true ∨ i ∉ (s.mailbox r).list)) :
    (∀ j ∉ l, ((l.foldl (fun t i => releaseMessage i cause t) s).message j).core = (s.message j).core) ∧
    (∀ j ∈ l, ((l.foldl (fun t i => releaseMessage i cause t) s).message j).state = .deleting ∨
      ((l.foldl (fun t i => releaseMessage i cause t) s).message j).state = .free) ∧
    (∀ q, q ≠ r → (l.foldl (fun t i => releaseMessage i cause t) s).mailbox q = s.mailbox q) ∧
    ((l.foldl (fun t i => releaseMessage i cause t) s).mailbox r).list =
      (s.mailbox r).list.filter fun j => decide (j ∉ l) := by
  induction l generalizing s with
  | nil =>
    refine ⟨fun _ _ => rfl, fun _ hj => absurd hj List.not_mem_nil, fun _ _ => rfl, ?_⟩
    exact (List.filter_eq_self.mpr fun a _ => by simp).symm
  | cons i l ih =>
    obtain ⟨a1, a2, a3, a4, a5, a6, a7, a8, a9⟩ := releaseMessage_spec i cause s
    obtain ⟨hroom, hlisted⟩ := h i List.mem_cons_self
    rw [hroom] at a3 a4
    have hlist : ((releaseMessage i cause s).mailbox r).list = (s.mailbox r).list.filter fun j => decide (j ≠ i) := by
      rw [a4]
      split
      · rfl
      · next hn =>
        rcases hlisted with hl | hl
        · exact absurd hl hn
        · exact (List.filter_eq_self.mpr fun a ha => by simp; rintro rfl; exact hl ha).symm
    have hst : ((releaseMessage i cause s).message i).state = .deleting ∨
        ((releaseMessage i cause s).message i).state = .free := by
      have := congrArg Message.state a1
      change ((releaseMessage i cause s).message i).state = _ at this
      rw [this]
      dsimp only
      split
      · exact .inr rfl
      · exact .inl rfl
    have hr (j : Nat) : ((releaseMessage i cause s).message j).room = (s.message j).room := by
      by_cases hj : j = i
      · subst hj
        have := congrArg Message.room a1
        exact this
      · exact Message.core_room (a2 j hj)
    have h' : ∀ j ∈ l, ((releaseMessage i cause s).message j).room = r ∧
        (((releaseMessage i cause s).message j).state.listed = true ∨ j ∉ ((releaseMessage i cause s).mailbox r).list) := by
      intro j hj
      obtain ⟨h1, h2⟩ := h j (List.mem_cons_of_mem _ hj)
      refine ⟨(hr j).trans h1, ?_⟩
      rw [hlist]
      by_cases hji : j = i
      · right; simp [hji]
      · have hs : ((releaseMessage i cause s).message j).state = (s.message j).state := Message.core_state (a2 j hji)
        rcases h2 with h2 | h2
        · left; rw [hs]; exact h2
        · right; simp [h2]
    obtain ⟨b1, b2, b3, b4⟩ := ih (releaseMessage i cause s) h'
    simp only [List.foldl_cons]
    refine ⟨fun j hj => ?_, fun j hj => ?_, fun q hq => by rw [b3 q hq, a3 q hq], ?_⟩
    · rw [List.mem_cons, not_or] at hj
      rw [b1 j hj.2, a2 j hj.1]
    · by_cases hjl : j ∈ l
      · exact b2 j hjl
      · rcases List.mem_cons.mp hj with rfl | hj
        · have hs : ((l.foldl (fun t i => releaseMessage i cause t) (releaseMessage j cause s)).message j).state =
              ((releaseMessage j cause s).message j).state := Message.core_state (b1 j hjl)
          rw [hs]; exact hst
        · exact absurd hj hjl
    · rw [b4, hlist, List.filter_filter]
      refine List.filter_congr fun j _ => ?_
      by_cases h1 : j = i <;> by_cases h2 : j ∈ l <;> simp [h1, h2]

end Sys2Proof.Machine
end

