-- ==== Sys2Proof/Tests/Slice0.lean ====
section
/-! SUPPORT. The model's own tests: what the checks of WellFormed refuse; for each statement with hypotheses a state
that meets them (`witness_…`); and steps on small states, with results taken from the manual's worked cases or worked
out from its rules (`test_…`). -/

namespace Sys2Proof.Tests

open Sys2Proof.Machine

-- one test at a time: each is a kernel evaluation
set_option Elab.async false

/-! ### Small states -/

/-- An ACTIVE part with one region of each kind, one floor, and the lists of reset. -/
def base : State :=
  { control :=
      { state := .active
        profile :=
          { apertureBase := 0x100000, roomBase := 0x200000, trunkBase := 0x210000, tariffBase := 0x220000
            orderBase := 0x230000, noticeBase := 0x240000, messageBase := 0x250000, poolBase := 0x260000
            stackBase := 0x270000, storeBase := 0x300000, floors := 1, cards := 2, loadLimit := 3, trunks := 2
            tariffs := 2, orderSlots := 8, noticeSlots := 16, records := 64, poolRecords := 64, blocks := 64
            defaultQuota := 40, stepIndex := 16, recordLimit := 36000, minRecord := 1, dayStart := 252000
            nightStart := 684000, noticeEnable := 0xFFFF#32 } } }

/-- The state after a command; the state itself where it stops. -/
def after (c : Instr) (s : State) : State :=
  match exec c s with
  | .next t => t
  | _ => s

/-- A host write of whole beats from `a`. -/
def writeAt (a : Nat) (lanes : List (Option Byte)) : HostRequest :=
  { write := true, addr := BitVec.ofNat 34 a, beats := lanes.length / 8, lanes := lanes }

/-- Lanes with these bytes enabled, filled up to whole beats. -/
def lanesOf (bs : List Byte) : List (Option Byte) :=
  bs.map some ++ List.replicate ((8 - bs.length % 8) % 8) none

/-- The write is at the head, and its only burst is at the arbiter. -/
def leavingReq (r : HostRequest) (s : State) : State :=
  { s with
    host.fifo := [.host r], host.head := some { mode := s.control.state, parts := reqParts r, phase := .burst }
    arbiter.lines.host :=
      [{ source := .hostPart, write := true, addr := reqStart r, beats := r.beats
         lanes := s.passing s.control.state (reqStart r) r.lanes }] }

/-- A write of these bytes at `a` leaves at the next grant. -/
def leaving (a : Nat) (bs : List Byte) (s : State) : State := leavingReq (writeAt a (lanesOf bs)) s

/-- Nothing of the write at the head is left to do (all of it was masked). -/
def leavingMasked (a : Nat) (bs : List Byte) (s : State) : State :=
  let r := writeAt a (lanesOf bs)
  { s with host.fifo := [.host r], host.head := some { mode := s.control.state, phase := .ready } }

/-- What the write that leaves carries, as a test of `leavesCarrying`. -/
def carries (s : State) (obs : List Observation) : Bool :=
  s.leaving.any fun l =>
    decide (s.atLeave.observations l.2.mode l.1 = obs) && decide (s.atLeave.guardedBytes l.2.mode l.1 = [])

theorem carries_spec {s : State} {obs : List Observation} (h : carries s obs = true) : s.leavesCarrying obs := by
  unfold carries at h
  match hl : s.leaving with
  | none => simp [hl] at h
  | some (req, w) =>
    simp only [hl, Option.any_some, Bool.and_eq_true, decide_eq_true_eq] at h
    exact ⟨req, w, hl, h.1, h.2⟩

/-- A loaded shadow with these first bytes. -/
def shadow (bs : List Byte) : Shadow := ⟨true, bs ++ zeros (64 - bs.length)⟩

/-- A room host half: status, lamp present, credit limit, quota (12.3). -/
def roomHalf (status lampPresent limit quota : Nat) : List Byte :=
  le 1 status ++ le 1 lampPresent ++ zeros 2 ++ le 4 limit ++ le 4 quota

/-- Room `r` is OCCUPIED with a lamp and this credit limit. -/
def guest (r limit : Nat) (s : State) : State := s.setRoomShadow r (shadow (roomHalf 1 1 limit 0))

/-- The take read of slot 0 has returned with this slot. -/
def taking (copy : List Byte) (s : State) : State :=
  { s with
    ring.taking := some 0, ring.inFlight := [{ slot := 0, stage := .reading, copy := copy }]
    arbiter.returned := [{ source := .takeRead, data := copy }] }

/-- A POSTED slot: order code, then parameters from byte 8 (12.6). -/
def slotOf (code : Nat) (params : List Byte) : List Byte :=
  le 1 1 ++ le 1 code ++ zeros 6 ++ params ++ zeros (56 - params.length)

/-- `takesNow` as a test. -/
def takes (s : State) (o : Order) (copy : List Byte) : Bool :=
  decide (s.out = {}) && decide (s.takeOf o = some (0, copy)) && (s.entryOf 0).isSome
    && decide (orderRefusal o copy s = none) && s.grantsAtOnce (orderPlaces o copy s)

theorem takes_spec {s : State} {o : Order} {copy : List Byte} (h : takes s o copy = true) :
    s.takesNow o 0 copy := by
  simp only [takes, Bool.and_eq_true, decide_eq_true_eq] at h
  obtain ⟨⟨⟨⟨h1, h2⟩, h3⟩, h4⟩, h5⟩ := h
  exact ⟨h1, h2, Option.isSome_iff_exists.mp h3, h4, h5⟩

/-- A burst has come back for a source. -/
def back (src : Source) (data : List Byte) (s : State) : State :=
  { s with arbiter.returned := [{ source := src, data := data }] }

/-- The requests of a requester's line by source. -/
def raised (s : State) (who : Requester) : List Source := (s.arbiter.lines.get who).map fun r => r.source

/-- The kinds of the notices queued. -/
def noticeKinds (s : State) : List (NoticeKind × Nat × Nat × Nat) :=
  s.notices.queue.map fun n => (n.kind, n.room, n.detail1, n.detail2)

/-! ### WellFormed -/

theorem test_wellFormed_accepts : (writeAt 0x200008 (lanesOf (le 4 7))).wellFormed = true := by decide
theorem test_wellFormed_refuses_no_beats :
    HostRequest.wellFormed { write := false, addr := 0#34, beats := 0, lanes := [] } = false := by decide
theorem test_wellFormed_refuses_nine_beats :
    HostRequest.wellFormed { write := false, addr := 0#34, beats := 9, lanes := List.replicate 72 none } = false := by
  decide
theorem test_wellFormed_refuses_missing_lanes :
    Instr.wellFormed (.hostRequest { write := true, addr := 0#34, beats := 2, lanes := List.replicate 8 none }) = false := by
  decide

/-! ### Voice coding (1.5 to 1.7) and the lamp link's check -/

/-- Code samples from a state. -/
def codes : Int → Nat → List Int → List Nat × Int × Nat
  | p, i, [] => ([], p, i)
  | p, i, x :: xs =>
    let c := encodeSample p i x
    let (cs, q, j) := codes (nextPrediction p i c) (nextIndex i c) xs
    (c :: cs, q, j)

/-- 1.5: four samples. -/
theorem test_codec_four_samples : codes 0 16 [500, 620, 580, -100] = ([7, 2, 8, 15], -114, 30) := by decide
/-- 1.7: an idle input. -/
theorem test_codec_idle : codes 0 16 (List.replicate 8 0) = ([0, 8, 8, 0, 0, 8, 8, 0], 1, 8) := by decide
/-- 1.6: the clamps. -/
theorem test_codec_clamps :
    (nextPrediction 32000 63 7, nextIndex 63 7, nextPrediction (-32000) 63 15, nextPrediction 0 0 3, nextIndex 0 3)
      = (32767, 63, -32768, 14, 0) ∧
    (encodeSample (-32768) 0 32767, nextPrediction (-32768) 0 7, nextIndex 0 7) = (7, -32738, 8) := by decide
/-- The check value of the CRC-8 of R97 (12.8). -/
theorem test_crc8 : crc8 [0x31#8, 0x32#8, 0x33#8, 0x34#8, 0x35#8, 0x36#8, 0x37#8, 0x38#8, 0x39#8] = 0xF4#8 := by
  decide +kernel

/-! ### Power, reset, the queue -/

/-- A part that has been running. -/
def worn : State :=
  guest 5 0 { base with time := ⟨700000, 12#16, 10150#32, true⟩, frame := 10150#32, mem := [(0x5000, 7#8)], ring.marks := [3] }

theorem test_powerOn_clears_the_clock : (after (.powerOn 3#3) worn).time = {} ∧ (after (.powerOn 3#3) worn).straps = 3#3 := by
  decide +kernel
theorem test_reset_keeps_memory : (after (.reset 0#3) worn).mem = [(0x5000, 7#8)] ∧
    (after (.reset 0#3) worn).roomShadow 5 = {} ∧ (after (.reset 0#3) worn).ring = {} := by decide +kernel

/-- A tenth waits in the queue. -/
def queued : State := { State.reset with pending := [.tenthSecondEvent, .stackPop] }

theorem witness_StepKeepsTheInvariant : Inv queued ∧ step queued = .next (after .tenthSecondEvent { queued with pending := [.stackPop] }) :=
  ⟨⟨by decide, by decide, by decide, by decide, by decide, by decide, by decide, by decide⟩, rfl⟩
theorem witness_StepRunsTheFrontCommand : queued.pending = .tenthSecondEvent :: [.stackPop] ∧ State.reset.pending = [] :=
  ⟨rfl, rfl⟩
theorem witness_CommandsKeepQueueTimeAndState :
    (∀ p, Instr.clockSet ≠ .powerOn p) ∧ (∀ p, Instr.clockSet ≠ .reset p) ∧ Instr.clockSet ≠ .tenthSecondEvent ∧
    Instr.clockSet ≠ .endOfStarting ∧ exec .clockSet worn = .next worn ∧ worn.time.clockSet = true ∧
    exec .clockSet State.reset = .next State.reset ∧ State.reset.control.state ≠ .active :=
  ⟨fun _ => nofun, fun _ => nofun, nofun, nofun, rfl, rfl, rfl, nofun⟩

/-! ### Host requests -/

/-- A read of one beat of memory below the regions. -/
def readReq : HostRequest := { write := false, addr := 0x5000#34, beats := 1, lanes := List.replicate 8 (some 0#8) }

/-- A PASSIVE part whose head is a read on its way. -/
def busyHost (fill : Nat) : State :=
  { State.reset with
    host.fifo := List.replicate fill (.host readReq)
    host.head := some { mode := .passive, parts := reqParts readReq, phase := .burst } }

/-- A read of the last 8 bytes of the address space and of 8 lanes past its end. -/
def endReq : HostRequest := { readReq with addr := 0x3FFFFFFF8#34, beats := 2, lanes := List.replicate 16 (some 0#8) }

theorem witness_HostRequestsJoinTheFifo :
    HostRequest.wellFormed { readReq with beats := 9 } = false ∧
    endReq.wellFormed = true ∧
    (∀ n ∈ [1, 31, 32], (busyHost n).out = {} ∧ readReq.wellFormed = true ∧ (busyHost n).host.waiting = [] ∧
      (busyHost n).host.loads = [] ∧ (busyHost n).host.fifo.length = n) ∧
    (∀ n, ∃ w, (busyHost n).host.head = some w ∧ ∀ ch seen, w.phase ≠ .stalled ch seen) :=
  ⟨by decide +kernel, by decide +kernel, by decide +kernel, fun _ => ⟨_, rfl, fun _ _ => nofun⟩⟩
theorem test_hostRequest_fills_the_fifo :
    (after (.hostRequest readReq) (busyHost 31)).host.fifo.length = 32 ∧
    (after (.hostRequest readReq) (busyHost 31)).hostReady = false ∧
    (after (.hostRequest readReq) (busyHost 32)).host.waiting = [readReq] := by decide +kernel
theorem test_hostRequest_stops :
    exec (.hostRequest { readReq with beats := 0, lanes := [] }) State.reset = .refused .notAPortRequest := rfl

theorem witness_PassiveRequestRaisesItsFirstBurst :
    let s := State.reset
    s.out = {} ∧ readReq.wellFormed = true ∧ endReq.wellFormed = true ∧
    reqParts endReq = [⟨0x3FFFFFFF8, List.replicate 8 (some 0#8)⟩] ∧ s.control.state = .passive ∧ s.control.validating = none ∧ s.host.head = none ∧ s.host.fifo = [] ∧
    s.host.waiting = [] ∧ s.host.loads = [] ∧ reqParts readReq = [⟨0x5000, List.replicate 8 (some 0#8)⟩] ∧
    (List.replicate 8 (some 0#8)).any Option.isSome = true := by decide +kernel

/-! ### Writes leave the FIFO -/

theorem witness_HostWriteLeavesAtItsGrant :
    ∀ s ∈ [leaving 0x5000 [1#8, 2#8] base, leavingMasked 0x5000 [1#8] base],
      s.out = {} ∧ (∃ req w, s.leaving = some (req, w)) ∧ s.leavingMarks = some [] := by
  have h : ∀ s ∈ [leaving 0x5000 [1#8, 2#8] base, leavingMasked 0x5000 [1#8] base],
      s.out = {} ∧ s.leaving.isSome = true ∧ s.leavingMarks = some [] := by decide +kernel
  intro s hs
  obtain ⟨h1, h2, h3⟩ := h s hs
  obtain ⟨x, hx⟩ := Option.isSome_iff_exists.mp h2
  exact ⟨h1, ⟨x.1, x.2, hx⟩, h3⟩
theorem test_hostWrite_reaches_memory :
    (after .hostWrite (leaving 0x5000 [1#8, 2#8] base)).mem = [(0x5000, 1#8), (0x5001, 2#8)] ∧
    (after .hostWrite (leaving 0x5000 [1#8, 2#8] base)).host.fifo = [] := by decide +kernel

theorem witness_OnlyGrantedWritesChangeMemory :
    let s := leaving 0x5000 [1#8, 2#8] { base with mem := [(0x5001, 9#8)] }
    s.out = {} ∧ (s.granted.map fun r => r.write) = some true ∧
    exec .arbiterDecision s = .next (after .arbiterDecision s) ∧
    exec (.reset 2#3) (after .arbiterDecision s) = .next (after (.reset 2#3) (after .arbiterDecision s)) :=
  ⟨by decide +kernel, by decide +kernel, rfl, rfl⟩
/-- R149, R170, R194: the write burst in flight is lost. -/
theorem test_reset_loses_the_write_in_flight :
    let s := leaving 0x5000 [1#8, 2#8] { base with mem := [(0x5001, 9#8)] }
    (after .arbiterDecision s).mem = [(0x5000, 1#8), (0x5001, 2#8)] ∧
    (after (.reset 2#3) (after .arbiterDecision s)).mem = [(0x5001, 9#8)] := by decide +kernel

/-- A write of one value to 64 bytes. -/
def wideWrite (a : Nat) : HostRequest := writeAt a (List.replicate 64 (some 7#8))

/-- A write across the line below the notice ring, its first part on its way. -/
def straddling : State :=
  let r := wideWrite 0x23FFE8
  { base with
    host.fifo := [.host r], host.head := some { mode := .active, parts := reqParts r, phase := .burst }
    arbiter.lines.host :=
      [{ source := .hostPart, write := true, addr := 0x23FFE8, beats := 3, lanes := List.replicate 24 (some 7#8) }] }
/-- 8.10, W3: a write of the whole part half of room 3.05 (code 197): four floors. -/
def guarded : State :=
  leavingMasked (0x200000 + 128 * 197 + 64) (List.replicate 64 1#8) { base with control.profile.floors := 4 }

theorem witness_GuardedBytesAreMaskedAndCounted :
    (∀ r ∈ [wideWrite 0x240000, wideWrite 0x200020], ∀ s ∈ [base, { base with control.state := .starting }],
      s.out = {} ∧ r.wellFormed = true ∧ r.write = true ∧ 8 * (r.addr.toNat / 8) + 8 * r.beats ≤ 2 ^ 34 ∧
      s.control.state ≠ .passive ∧ s.control.validating = none ∧ s.host.head = none ∧ s.host.fifo = [] ∧
      s.host.waiting = [] ∧ s.host.loads = [] ∧ allApart (regionsOf s.profileBlock s.profile) = true ∧
      s.checkoutRooms s.control.state r = [] ∧
      ((reqParts r).head?.any fun p => !s.inVoiceSpace p.addr && (s.hostLanes p.addr p.lanes).any Option.isSome) = true) ∧
    (straddling.out = {} ∧ straddling.decision.isSome = true ∧
      (straddling.granted.map fun r => (r.source, r.write)) = some (.hostPart, true) ∧
      straddling.headRequest = some (wideWrite 0x23FFE8) ∧
      (∃ w p q, straddling.host.head = some w ∧ w.phase = .burst ∧ w.mode = .active ∧ w.parts = [p, q] ∧ q.addr = 0x240000 ∧
        straddling.inVoiceSpace q.addr = false ∧ (straddling.hostLanes q.addr q.lanes).any Option.isSome = true)) ∧
    (guarded.out = {} ∧ (∃ req w, guarded.leaving = some (req, w)) ∧
      (∀ l, guarded.leaving = some l → guarded.atLeave.observations l.2.mode l.1 = [] ∧
        (guarded.atLeave.guardedBytes l.2.mode l.1).head? = some (0x200000 + 128 * 197 + 64, 2)) ∧
      allApart (regionsOf guarded.profileBlock guarded.profile) = true) :=
  ⟨by decide +kernel,
   ⟨by decide +kernel, by decide +kernel, by decide +kernel, by decide +kernel, _, _, _, rfl, rfl, rfl, rfl, by decide +kernel⟩,
   ⟨by decide +kernel, ⟨_, _, rfl⟩, fun l h => by cases h; decide +kernel, by decide +kernel⟩⟩
/-- R155: of the notice ring's header line only the consumer index goes on; R156: a dropped flag byte counts. -/
theorem test_hostRequest_masks_the_header :
    ((after (.hostRequest (wideWrite 0x240000)) base).arbiter.lines.host.map fun r => r.lanes) =
      [List.replicate 32 none ++ List.replicate 4 (some 7#8) ++ List.replicate 28 none] ∧
    (after .guardedWrite (leavingMasked 0x240000 (List.replicate 16 1#8) base)).notices.queue.map (fun n => n.detail2) =
      [3 + 65536 * 16] := by decide +kernel
theorem test_guardedWrite_counts_64_bytes :
    (after .guardedWrite guarded).host.guardCount = 1 ∧ (after .guardedWrite guarded).mem = [] ∧
    noticeKinds (after .guardedWrite guarded) = [(.guard, 197, (0x200000 + 128 * 197 + 64) / 64, 2 + 65536 * 64)] := by
  decide +kernel

/-! ### Room writes -/

/-- 7.9: the counter stands at 120; the room (5 here) is checked in with limit 800. -/
def checkInState : State :=
  leaving (0x200000 + 128 * 5) (roomHalf 1 1 800 0)
    ({ base with rating.serial := 120 }.setRoomShadow 5 (shadow (roomHalf 0 1 500 0)))

theorem witness_CheckInOpensAFolio :
    let es := (List.range 12).zip (roomHalf 1 1 800 0)
    checkInState.out = {} ∧ checkInState.leavesCarrying [.room 5 es] ∧ checkInState.control.state = .active ∧
    (checkInState.roomShadow 5).loaded = true ∧
    isCheckIn (checkInState.roomShadow 5) (checkInState.roomAfter 5 es) = true :=
  ⟨rfl, carries_spec (by decide +kernel), rfl, by decide +kernel, by decide +kernel⟩
theorem test_checkIn_takes_the_next_serial :
    (after .checkIn checkInState).folios 5 = ⟨some { serial := 120 }, none, false⟩ ∧
    (after .checkIn checkInState).rating.serial = 121 ∧
    ((after .checkIn checkInState).roomShadow 5).creditLimit = 800 := by decide +kernel

/-- 4.8: two listed messages without readers, and one with; 63 entries in the release queue. -/
def checkoutState (queue : Nat) : State :=
  let r := writeAt (0x200000 + 128 * 5) (lanesOf [0#8])
  let s := guest 5 1200 { base with
    host.fifo := [.host r], host.head := some { mode := .active, parts := reqParts r, phase := .checkout }
    store.releaseQueue := List.replicate queue ⟨60, 1, 60, .silent⟩, store.walk := some ⟨60, 1⟩
    store.mailboxes := [(5, { list := [12, 30, 44], places := 3, newCount := 1, urgentNew := 1, heardCount := 1,
                              savedCount := 1, blocksUsed := 11 })]
    store.messages :=
      [(12, { generation := 1, state := .new, room := 5, urgent := true, blocks := 2, first := 1, next := 30 }),
       (30, { generation := 1, state := .heard, room := 5, readers := 1, blocks := 6, first := 3, next := 44 }),
       (44, { generation := 1, state := .saved, room := 5, blocks := 3, first := 9 })]
    lamp.lamps := [(5, { pattern := .fast, phase := .a, override := .desk })]
    lamp.cards := [(0, { link := .up, fastA := 1 })] }
  s.setFolios 5 ⟨some { serial := 88, total := 1240 }, some { serial := 71, total := 530, records := [4, 5] }, true⟩

theorem witness_CheckoutWriteIsHeld :
    let s := checkoutState 63
    s.out = {} ∧ (∃ req w, s.atCheckout .checkout = some (req, w) ∧ s.checkoutPlaces w.mode req = 2 ∧
      s.freePlaces < 2) :=
  ⟨by decide +kernel, _, _, rfl, by decide +kernel, by decide +kernel⟩
theorem test_checkoutWriteHeld_waits :
    (after .checkoutWriteHeld (checkoutState 63)).store.releaseLine = [⟨.checkout, 2⟩] ∧
    (after .checkoutWriteHeld (checkoutState 63)).roomShadow 5 = (checkoutState 63).roomShadow 5 := by decide +kernel

/-- The same write, held, with two places free. -/
def heldState : State :=
  let s := checkoutState 62
  { s with host.head := s.host.head.map fun w => { w with phase := .held }, store.releaseLine := [⟨.checkout, 2⟩] }

theorem witness_CheckoutClosesTheFolio :
    (∀ s ∈ [checkoutState 62, heldState],
      s.out = {} ∧ s.control.state = .active ∧ (s.roomShadow 5).loaded = true ∧
      isCheckout (s.roomShadow 5) (s.roomAfter 5 [(0, 0#8)]) = true ∧ (s.folios 5).opened.isSome = true) ∧
    (∃ req w, (checkoutState 62).leavesAtOnce = some (req, w) ∧ heldState.leavesAtOnce = none ∧
      (∀ p ∈ w.parts, (checkoutState 62).inAperture w.mode p = false) ∧
      (checkoutState 62).observations w.mode req = [.room 5 [(0, 0#8)]] ∧
      (checkoutState 62).guardedBytes w.mode req = []) ∧
    (∃ req w, heldState.placesGranted = some (req, w) ∧ heldState.checkoutPlaces w.mode req ≤ heldState.freePlaces ∧
      (∀ p ∈ w.parts, heldState.inAperture w.mode p = false) ∧
      heldState.observations w.mode req = [.room 5 [(0, 0#8)]] ∧ heldState.guardedBytes w.mode req = []) :=
  ⟨by decide +kernel, ⟨_, _, rfl, by decide +kernel⟩, ⟨_, _, rfl, by decide +kernel⟩⟩
/-- 4.8: the checkout leaves the FIFO. -/
theorem test_checkout_of_section_4_8 :
    let t := after .checkout heldState
    t.folios 5 = ⟨none, some { serial := 88, total := 1240 }, false⟩ ∧ (t.mailbox 5).list = [] ∧
    (t.mailbox 5).places = 0 ∧ t.store.releaseQueue.length = 64 ∧ t.lampOf 5 = {} ∧
    t.rating.freePool = [4, 5] ∧ (t.message 30).state = .deleting := by decide +kernel
theorem test_checkout_raises_its_notices :
    let n := noticeKinds (after .checkout heldState)
    (NoticeKind.folioDiscarded, 5, 71, 530) ∈ n ∧ (NoticeKind.creditClear, 5, 1240, 1200) ∈ n ∧ n.length = 2 := by
  decide +kernel
/-- A RECORDING channel with a filling buffer. -/
def recording : Channel :=
  { state := .recording, dir := .record, stepIndex := 16, buffer0 := ⟨9, .filling, zeros 512⟩, room := 5, index := 3 }
/-- Channel 6 records message 50 of the room that is checked out. -/
def meeting (c : Channel) (blocks : Nat) : State :=
  ({ checkoutState 0 with
      ring.inFlight := [{ slot := 3, stage := .executing, copy := slotOf 1 [] }]
      store.takeLine := if c.state = ChannelState.opening then [6] else [] }.setChannel 6
    { c with dir := .record, room := 5, index := 50 }).setMessage 50
    { generation := 2, state := .recording, room := 5, blocks := blocks, first := if blocks = 0 then none32 else 30 }

/-- The channels that record for room 5 (R60). -/
def recordsHere (s : State) (k : Nat) : Bool :=
  decide ((s.channel k).dir = .record) && decide ((s.channel k).room = 5) &&
    [ChannelState.opening, .recording, .stopped, .closing].contains (s.channel k).state

/-- The checkout write of room 5 leaves at once, and carries nothing else. -/
def leavesChecking (s : State) : Bool :=
  decide (s.out = {}) && decide (s.control.state = .active) && (s.roomShadow 5).loaded &&
    isCheckout (s.roomShadow 5) (s.roomAfter 5 [(0, 0#8)]) &&
    s.leavesAtOnce.any fun l => (l.2.parts.all fun p => !s.inAperture l.2.mode p) &&
      decide (s.observations l.2.mode l.1 = [.room 5 [(0, 0#8)]]) && decide (s.guardedBytes l.2.mode l.1 = [])

/-- The everyday checkout: channel 3 recorded message 12, which is listed, and is FREE again. -/
def everyday : State := (checkoutState 0).setChannel 3 { state := .free, dir := .record, room := 5, index := 12 }

/-- Several channels record for the room, each a message of its own: each with the blocks of its message. -/
def severalRecord (cs : List (Nat × Channel × Nat)) : State :=
  cs.foldl (fun s x => (s.setChannel x.1 { x.2.1 with dir := .record, room := 5, index := 50 + x.1 }).setMessage (50 + x.1)
    { generation := 2, state := .recording, room := 5, blocks := x.2.2, first := 30 })
    { checkoutState 0 with control.profile.noticeEnable := 0x4000#32 }

/-- Two RECORDING channels, a STOPPED one with a write in flight and one with none, a CLOSING one. -/
def fiveRecord : State :=
  severalRecord
    [(1, { recording with position := 700 }, 1), (2, { recording with position := 900, buffer1 := ⟨31, .writing, []⟩, writes := 1 }, 2),
     (4, { state := .stopped, stopReason := .length, writes := 1 }, 2), (6, { state := .stopped, stopReason := .length }, 2),
     (7, { state := .closing, closing := .close, writes := 1 }, 2)]

/-- The conditions a checkout may find the channel in, with the blocks of its message. -/
def metChannels : List (Channel × Nat) :=
  [({ recording with position := 700, buffer1 := ⟨31, .writing, []⟩, writes := 1 }, 2), ({ recording with position := 700 }, 1),
   ({ state := .stopped, stopReason := .length, writes := 1 }, 2), ({ state := .closing, closing := .close, writes := 1 }, 2),
   ({ state := .opening, order := some 3 }, 0), ({ state := .stopped, stopReason := .checkedOut, writes := 1 }, 2),
   ({ state := .closing, closing := .abandon, writes := 1 }, 2), ({ state := .closing, closing := .close }, 2),
   ({ state := .stopped, stopReason := .length }, 2), ({ state := .stopped, stopReason := .length }, 0)]
theorem witness_CheckoutEmptiesTheMailbox :
    (∀ s ∈ [checkoutState 62, heldState, everyday],
      (∀ ch < 16, recordsHere s ch = false) ∧
      (∀ i ∈ (s.mailbox 5).list, (s.message i).room = 5 ∧ (s.message i).state.listed = true)) ∧
    leavesChecking everyday = true ∧ (everyday.channel 3).dir = .record ∧ (everyday.channel 3).index ∈ (everyday.mailbox 5).list ∧
    (∀ x ∈ metChannels, let s := meeting x.1 x.2
      leavesChecking s = true ∧ (∀ ch < 16, recordsHere s ch = decide (ch = 6)) ∧
      (s.channel 6).index ∉ (s.mailbox 5).list ∧ (s.message (s.channel 6).index).room = 5 ∧
      (∀ k ∈ s.store.takeLine, k = 6) ∧ s.notices.queue.length ≤ 12 ∧ s.enabled .recordingStopped = true ∧
      (s.entryOf 3).isSome = true) ∧
    (let s := fiveRecord
     leavesChecking s = true ∧ s.store.takeLine = [] ∧ s.notices.queue = [] ∧ s.enabled .recordingStopped = true ∧
     (∀ ch < 16, recordsHere s ch = [1, 2, 4, 6, 7].contains ch) ∧
     ∀ ch ∈ [1, 2, 4, 6, 7], (s.channel ch).index = 50 + ch ∧ 50 + ch ∉ (s.mailbox 5).list ∧
       (s.message (50 + ch)).room = 5) := by decide +kernel
/-- 3.3: a recording stops for CHECKED OUT and returns its filling block; an opening is answered ROOM VACANT; R60, R78: every
channel that records is met, and after the everyday one the channel stays FREE. -/
theorem test_checkout_meets_the_recording :
    (let s := meeting { recording with position := 700, buffer1 := ⟨31, .writing, []⟩, writes := 1 } 2
     let t := after .checkout { s with control.profile.noticeEnable := 0x4000#32 }
     ((t.channel 6).state, (t.channel 6).stopReason, (t.channel 6).writes) = (.stopped, .checkedOut, 1) ∧
     (t.message 50).blocks = 1 ∧ (t.message 50).length = 700 ∧ t.freeCount = s.freeCount + 1 ∧
     noticeKinds t = [(.recordingStopped, 5, 6 + 65536 * 4, 700)]) ∧
    (let t := after .checkout (meeting { state := .opening, order := some 3 } 0)
     (t.channel 6).state = .free ∧ (t.message 50).state = .free ∧
     (t.ring.inFlight.map fun e => e.stage) = [.completing]) ∧
    (let t := after .checkout fiveRecord
     ([1, 2, 4, 6, 7].map fun k => ((t.channel k).state, (t.channel k).stopReason, (t.channel k).checkedOut)) =
       [(.stopped, .checkedOut, false), (.stopped, .checkedOut, false), (.stopped, .checkedOut, false),
        (.stopped, .checkedOut, false), (.closing, .none, true)] ∧
     ([51, 52, 54, 56, 57].map fun i => (t.message i).state) = [.free, .recording, .recording, .deleting, .recording] ∧
     (noticeKinds t).filter (fun n => decide (n.1 = .recordingStopped)) =
       [(.recordingStopped, 5, 1 + 65536 * 4, 700), (.recordingStopped, 5, 2 + 65536 * 4, 900)]) ∧
    (let t := after .checkout everyday
     (t.channel 3).state = .free ∧ (t.mailbox 5).list = [] ∧ (t.message 12).state = .deleting) := by decide +kernel

/-- Room 5 is OCCUPIED with an OPEN total of 510; its host half is written anew. -/
def roomWrite (bs : List Byte) : State :=
  leaving (0x200000 + 128 * 5) bs
    ((guest 5 500 base).setFolios 5 ⟨some { serial := 63, total := 510 }, none, true⟩)

/-- Room 5 has an urgent NEW message; its lamp present byte becomes `present`. -/
def lampWrite (present : Nat) (l : Lamp) (c : Card) : State :=
  leaving (0x200000 + 128 * 5) (roomHalf 1 present 500 0)
    ({ base with
        store.mailboxes := [(5, { newCount := 1, urgentNew := 1 })]
        lamp := { lamps := [(5, l)], cards := [(0, c)] } }.setRoomShadow 5 (shadow (roomHalf 1 (1 - present) 500 0)))

/-- Lamps that enter FAST, leave it, and keep their pattern. -/
def lampWrites : List (Nat × Lamp × Card) :=
  [(1, {}, { fastA := 2, fastB := 1 }), (1, {}, { fastA := 2, fastB := 2 }), (1, { pattern := .slow, phase := .a }, { slowA := 1 }),
   (0, { pattern := .fast, phase := .a }, { fastA := 3, fastB := 2 }), (1, { pattern := .steady, override := .testOn }, {})]
theorem witness_LimitAndLampPresentChanges :
    (∀ x ∈ lampWrites, let s := lampWrite x.1 x.2.1 x.2.2
      let es := (List.range 12).zip (roomHalf 1 x.1 500 0)
      s.out = {} ∧ carries s [.room 5 es] = true ∧ s.control.state = .active ∧ (s.roomShadow 5).loaded = true ∧
      isCheckIn (s.roomShadow 5) (s.roomAfter 5 es) = false ∧ isCheckout (s.roomShadow 5) (s.roomAfter 5 es) = false ∧
      (s.roomAfter 5 es).creditLimit = (s.roomShadow 5).creditLimit ∧
      (s.roomAfter 5 es).lampPresent ≠ (s.roomShadow 5).lampPresent) ∧
    (∀ bs ∈ [roomHalf 1 1 800 0, roomHalf 1 1 400 0, roomHalf 1 0 500 0],
      let s := roomWrite bs
      let es := (List.range 12).zip bs
      s.out = {} ∧ carries s [.room 5 es] = true ∧ s.control.state = .active ∧ (s.roomShadow 5).loaded = true ∧
      isCheckIn (s.roomShadow 5) (s.roomAfter 5 es) = false ∧ isCheckout (s.roomShadow 5) (s.roomAfter 5 es) = false) ∧
    ((roomWrite (roomHalf 1 1 800 0)).roomAfter 5 ((List.range 12).zip (roomHalf 1 1 800 0))).creditLimit = 800 ∧
    ((roomWrite (roomHalf 1 0 500 0)).roomAfter 5 ((List.range 12).zip (roomHalf 1 0 500 0))).lampPresent = false := by
  decide +kernel
theorem test_creditLimitChange_clears_the_bar :
    ((after .creditLimitChange (roomWrite (roomHalf 1 1 800 0))).folios 5).barred = false ∧
    noticeKinds (after .creditLimitChange (roomWrite (roomHalf 1 1 800 0))) = [(.creditClear, 5, 510, 800)] := by
  decide +kernel
theorem test_lampPresentChange_marks_the_mirror :
    (after .lampPresentChange (roomWrite (roomHalf 1 0 500 0))).lamp.marks = [5] ∧
    (after .lampPresentChange (roomWrite (roomHalf 1 0 500 0))).rating.marks = [] := by decide +kernel
/-- R92: counts A 2 and B 1 give phase B, 2 and 2 give A; a lamp that leaves FAST lowers its count. -/
theorem test_lampPresentChange_gives_the_phase :
    let f (x : Nat × Lamp × Card) :=
      let t := after .lampPresentChange (lampWrite x.1 x.2.1 x.2.2)
      ((t.lampOf 5).pattern, (t.lampOf 5).phase, (t.card 0).fastA, (t.card 0).fastB, (t.card 0).slowA)
    lampWrites.map f =
      [(.fast, .b, 2, 2, 0), (.fast, .a, 3, 2, 0), (.fast, .a, 1, 0, 0), (.off, .none, 2, 2, 0), (.steady, .none, 0, 0, 0)] := by
  decide +kernel
theorem witness_QuotaAndTariffWritesAreRecorded :
    (let s := roomWrite (roomHalf 1 1 500 9)
     let es := (List.range 12).zip (roomHalf 1 1 500 9)
     s.out = {} ∧ carries s [.room 5 es] = true ∧ s.control.state = .active ∧ (s.roomShadow 5).loaded = true ∧
     isCheckIn (s.roomShadow 5) (s.roomAfter 5 es) = false ∧ isCheckout (s.roomShadow 5) (s.roomAfter 5 es) = false ∧
     (s.roomAfter 5 es).creditLimit = (s.roomShadow 5).creditLimit ∧
     (s.roomAfter 5 es).lampPresent = (s.roomShadow 5).lampPresent ∧ (s.roomAfter 5 es).quota = 9) ∧
    (let s := leaving 0x220040 [1#8] (base.setTariffShadow 1 (shadow []))
     s.out = {} ∧ carries s [.tariff 1 [(0, 1#8)]] = true ∧ (s.tariffShadow 1).loaded = true) := by decide +kernel
theorem test_mailboxQuotaChange_sets_the_quota :
    (after .mailboxQuotaChange (roomWrite (roomHalf 1 1 500 9))).quotaOf 5 = 9 ∧
    (roomWrite (roomHalf 1 1 500 0)).quotaOf 5 = 40 := by decide +kernel
theorem test_tariffWrite_puts_the_entry_in_service :
    ((after .tariffWrite (leaving 0x220040 [1#8] (base.setTariffShadow 1 (shadow [])))).tariffShadow 1).inService = true := by
  decide +kernel

/-! ### Trunk writes (6.3, 6.8) -/

/-- A trunk entry: state, direction, room, digit count, digits (12.3). -/
def trunkEntry (state room : Nat) (digits : List Nat) : List Byte :=
  le 1 state ++ le 1 0 ++ le 2 room ++ le 1 digits.length ++ zeros 3 ++ packDigits digits 12

/-- A tariff entry (12.3): prefix, G, P1, P2, S, F, C1 and C2 by day and night, K. -/
def tariffEntry (pre : List Nat) (g p1 p2 sur fee c1d c1n c2d c2n cap : Nat) : List Byte :=
  le 1 1 ++ le 1 pre.length ++ zeros 2 ++ packDigits pre 8 ++ le 2 g ++ le 2 p1 ++ le 2 p2 ++ le 2 sur ++ le 4 fee
    ++ le 4 c1d ++ le 4 c1n ++ le 4 c2d ++ le 4 c2n ++ le 4 cap

/-- 6.8: trunk 1 (17 there) in a state, its room (7 here) with OPEN folio 41; entry 1 is entry 3 of 6.3. -/
def trunkState (t : Trunk) (elapsed clock : Nat) : State :=
  let s := (guest 7 0 { base with time := ⟨clock, 12#16, BitVec.ofNat 32 elapsed, true⟩, rating.freePool := [0, 1, 2] }).setFolios 7
    ⟨some { serial := 41 }, none, false⟩
  ((s.setTrunkShadow 1 (shadow (trunkEntry 0 7 [0, 0, 4, 4, 1]))).setTariffShadow 1
    (shadow (tariffEntry [0, 0, 4, 4] 50 600 300 1500 5000 20000 16000 10000 8000 0))).setTrunk 1 t

/-- The host writes a state byte of trunk 1. -/
def trunkWrite (v : Byte) (t : Trunk) (elapsed clock : Nat) : State := leaving 0x210040 [v] (trunkState t elapsed clock)

/-- The answered call of 6.8. -/
def answered : Trunk :=
  { state := .answered, seizeCount := 10000#32, answerCount := 10150#32, answerStamp := ⟨12#16, 700000, true⟩
    room := 7, serial := 41, digits := [0, 0, 4, 4, 1] }

theorem witness_TrunkContextFollowsTheTable :
    ∀ v ∈ [0#8, 1#8, 2#8, 3#8, 9#8], ∀ t ∈ [{}, { state := .seized }, answered],
      let s := trunkWrite v t 11985 701835
      s.out = {} ∧ carries s [.trunk 1 [(0, v)]] = true ∧ s.control.state = .active ∧ (s.trunkShadow 1).loaded = true ∧
      [((0 : Nat), v)].any (fun e => decide (e.1 = 0)) = true ∧
      byteAt (mergeBytes trunkField (s.trunkShadow 1).bytes [(0, v)]) 0 = v := by decide +kernel
theorem test_trunkSeize_stamps :
    (after .trunkSeize (trunkWrite 1#8 {} 10000 699850)).trunk 1 = { state := .seized, seizeCount := 10000#32 } := by
  decide +kernel
/-- The byte is written again as the shadow has it. -/
def rewritten (v : Byte) (t : Trunk) : State :=
  let s := trunkWrite v t 10150 700000
  s.setTrunkShadow 1 { s.trunkShadow 1 with bytes := mergeBytes trunkField (s.trunkShadow 1).bytes [(0, v)] }

theorem witness_SeizeAndAnswerCaptureTheCall :
    ∀ v ∈ [1#8, 2#8, 9#8], ∀ t ∈ [{}, { state := .seized }],
      let s := trunkWrite v t 10150 700000
      s.out = {} ∧ carries s [.trunk 1 [(0, v)]] = true ∧ s.control.state = .active ∧ (s.trunkShadow 1).loaded = true ∧
      byteAt (mergeBytes trunkField (s.trunkShadow 1).bytes [(0, v)]) 0 = v ∧ s.enabled .trunkSequence = true ∧
      s.notices.queue = [] ∧ (writtenStateOf v = .unknown ↔ v = 9#8) ∧ byteAt (s.trunkShadow 1).bytes 0 ≠ v ∧
      (v = 9#8 → carries (rewritten v t) [.trunk 1 [(0, v)]] = true ∧ byteAt ((rewritten v t).trunkShadow 1).bytes 0 = v ∧
        ((rewritten v t).trunkShadow 1).loaded = true) := by decide +kernel
/-- 6.8: the answer at elapsed 10,150. -/
theorem test_trunkAnswer_of_section_6_8 :
    (after .trunkAnswer (trunkWrite 2#8 { state := .seized, seizeCount := 10000#32 } 10150 700000)).trunk 1 = answered := by
  decide +kernel
/-- 6.8: the missed seize at 12,100. -/
theorem test_trunkAnswer_missed :
    let t := after .trunkAnswer (trunkWrite 2#8 {} 12100 701950)
    (t.trunk 1).missedSeize = true ∧ (t.trunk 1).seizeCount = 12100#32 ∧
    noticeKinds t = [(.trunkSequence, 7, 1 + 65536 * 1, 2)] := by decide +kernel
/-- The cleared call of 6.8 finds no free record, or a folio with a record and one free queue entry. -/
def unstored : List State :=
  let s := trunkWrite 3#8 answered 11985 701835
  [{ s with rating.freePool := [] },
   { s.setFolios 7 ⟨some { serial := 41, records := [9] }, none, false⟩ with
     rating.queue := List.replicate 63 ⟨0x260000, [], none⟩ }]

theorem witness_ClearedCallIsPricedOntoItsFolio :
    let s := trunkWrite 3#8 answered 11985 701835
    s.out = {} ∧ carries s [.trunk 1 [(0, 3#8)]] = true ∧ s.control.state = .active ∧ (s.trunkShadow 1).loaded = true ∧
    byteAt (mergeBytes trunkField (s.trunkShadow 1).bytes [(0, 3#8)]) 0 = 3#8 ∧ (s.trunk 1).state = .answered ∧
    (s.trunk 1).incoming = false ∧ (s.trunk 1).room < s.roomCount ∧ (s.trunk 1).serial ≠ 0 ∧
    s.matchTariff (s.trunk 1).digits = some 1 ∧ (s.folios 7).opened = some { serial := 41 } ∧
    s.rating.freePool = 0 :: [1, 2] ∧ Folio.entriesNeeded { serial := 41 } ≤ 64 - s.rating.queue.length ∧
    (∀ u ∈ unstored, u.out = {} ∧ carries u [.trunk 1 [(0, 3#8)]] = true ∧ (u.trunk 1).state = .answered ∧
      (u.folios 7).opened.map (fun f => f.serial) = some 41 ∧ u.enabled .poolFull = true ∧ u.notices.queue = []) ∧
    (unstored.map fun u => (u.rating.freePool, 64 - u.rating.queue.length)) = [([], 64), ([0, 1, 2], 1)] ∧
    Folio.entriesNeeded { serial := 41, records := [9] } = 2 := by
  decide +kernel
/-- R140: no record is free, or one entry only where two are needed: POOL FULL, causes 1 and 2. -/
theorem test_trunkClear_pool_full :
    ((unstored.map fun u => (after .trunkClear u).folios 7) =
      [⟨some { serial := 41, total := 70, incomplete := true }, none, false⟩,
       ⟨some { serial := 41, total := 70, records := [9], incomplete := true }, none, false⟩]) ∧
    ((unstored.map fun u => noticeKinds (after .trunkClear u)) = [[(.poolFull, 7, 41, 1)], [(.poolFull, 7, 41, 2)]]) ∧
    ((unstored.map fun u => ((after .trunkClear u).rating.poolFullCount, (after .trunkClear u).rating.queue.length)) =
      [(1, 0), (1, 63)]) := by decide +kernel

/-- 6.8: the second call, unanswered, is written over at 12,050; the shadow holds this direction and room. -/
def unanswered (v : Byte) (log : Bool) (direction room : Nat) : State :=
  let s := trunkState { state := .seized, seizeCount := 12000#32 } 12050 701900
  leaving 0x210040 [v]
    ({ s with control.profile.logUnanswered := log }.setTrunkShadow 1
      (shadow (le 1 1 ++ le 1 direction ++ le 2 room ++ le 1 5 ++ zeros 3 ++ packDigits [0, 0, 4, 4, 1] 12)))
/-- Clauses (2) and (3): every write that ends a call, over a call of each kind. -/
theorem witness_CallsEndByEveryWrite :
    (∀ x ∈ [(3#8, WrittenState.cleared), (0#8, .idle), (1#8, .seized), (9#8, .unknown)],
      ∀ u ∈ [answered, { answered with incoming := true }, { answered with digits := [11, 7] }],
      let s := trunkWrite x.1 u 11985 701835
      s.out = {} ∧ carries s [.trunk 1 [(0, x.1)]] = true ∧ s.control.state = .active ∧ (s.trunkShadow 1).loaded = true ∧
      writtenStateOf (byteAt (mergeBytes trunkField (s.trunkShadow 1).bytes [(0, x.1)]) 0) = x.2 ∧ s.trunk 1 = u ∧
      7 < s.roomCount ∧ (s.folios 7).opened = some { serial := 41 } ∧ s.rating.freePool = 0 :: [1, 2] ∧
      Folio.entriesNeeded { serial := 41 } ≤ 64 - s.rating.queue.length ∧ s.notices.queue.length < 15 ∧
      s.enabled .unratedCall = true ∧ (s.matchTariff u.digits = none ↔ u.digits = [11, 7])) ∧
    (∀ x ∈ [(3#8, WrittenState.cleared), (0#8, .idle), (9#8, .unknown)],
      ∀ y ∈ [(false, 0, 7), (true, 1, 7), (true, 0, 7), (true, 0, 8), (true, 0, 64)],
      let s := unanswered x.1 y.1 y.2.1 y.2.2
      let h := { s.trunkShadow 1 with bytes := mergeBytes trunkField (s.trunkShadow 1).bytes [(0, x.1)] }
      s.out = {} ∧ carries s [.trunk 1 [(0, x.1)]] = true ∧ s.control.state = .active ∧ (s.trunkShadow 1).loaded = true ∧
      writtenStateOf (byteAt h.bytes 0) = x.2 ∧ (s.trunk 1).state = .seized ∧ s.profile.logUnanswered = y.1 ∧
      h.trunkIncoming = decide (y.2.1 = 1) ∧ h.trunkRoom = y.2.2 ∧ s.roomCount = 64 ∧ (s.folios 8).opened = none) := by
  decide +kernel
/-- 6.8: the first call, 70 minor units. -/
theorem test_trunkClear_of_section_6_8 :
    let t := after .trunkClear (trunkWrite 3#8 answered 11985 701835)
    t.folios 7 = ⟨some { serial := 41, total := 70, records := [0] }, none, false⟩ ∧ t.rating.rated = 1 ∧
    raised t .rating = [.folioQueue] := by decide +kernel
/-- 6.6: the rating case by day, the grace, one pulse, the surcharge cap and the saturation. -/
theorem test_rating_cases :
    let h := shadow (tariffEntry [] 50 600 300 1500 5000 20000 16000 10000 8000 0)
    ([1835, 50, 51, 600, 601].map fun d => (priceBy h 1 d {kind := .unrated}).amount) = [86, 0, 29, 29, 40] ∧
    (priceBy (shadow (tariffEntry [] 50 600 300 1500 5000 20000 16000 10000 8000 30000)) 1 1835 {kind := .unrated}).amount = 30 ∧
    (priceBy (shadow (tariffEntry [] 50 600 300 65535 5000 20000 16000 10000 8000 0)) 1 1835 {kind := .unrated}).amount = 450 ∧
    (priceBy (shadow (tariffEntry [] 0 1 1 1500 0 0 0 4000000 0 0)) 1 2000 {kind := .unrated}).amount = 4294967 := by
  decide +kernel
theorem test_trunkIdleWrite_clears_implicitly :
    let t := after .trunkIdleWrite (trunkWrite 0#8 answered 11985 701835)
    (t.trunk 1).state = .idle ∧ t.rating.implicits = 1 ∧ (t.folios 7).opened = some { serial := 41, total := 70, records := [0] } := by
  decide +kernel
/-- 6.8: the unanswered call, duration 50, to folio 41; without an OPEN folio it is counted alone. -/
theorem test_trunkIdleWrite_of_section_6_8 :
    (let t := after .trunkIdleWrite (unanswered 0#8 true 0 7)
     t.folios 7 = ⟨some { serial := 41, records := [0] }, none, false⟩ ∧ t.rating.unanswered = 1 ∧
     (t.rating.queue.map fun w => (w.lanes.getD 0 none, (w.lanes.drop 24).take 4)) = [(some 3#8, allLanes (le 4 50))]) ∧
    (let t := after .trunkIdleWrite (unanswered 0#8 true 0 8)
     t.rating.unanswered = 1 ∧ t.rating.queue = [] ∧ noticeKinds t = []) ∧
    (after .trunkIdleWrite (unanswered 0#8 false 0 7)).rating.unanswered = 0 := by decide +kernel
/-- R120, R124: a call that matches no entry, ended by a seize. -/
theorem test_trunkSeize_ends_an_unrated_call :
    let t := after .trunkSeize (trunkWrite 1#8 { answered with digits := [11, 7] } 11985 701835)
    t.trunk 1 = { answered with digits := [11, 7], state := .seized, seizeCount := 11985#32 } ∧
    (t.rating.implicits, t.rating.unrated, t.rating.rated) = (1, 1, 0) ∧
    t.folios 7 = ⟨some { serial := 41, records := [0] }, none, false⟩ ∧ noticeKinds t = [(.unratedCall, 7, 1, 1835)] := by
  decide +kernel
theorem test_trunkUnknownState_is_noticed :
    let t := after .trunkUnknownState (trunkWrite 9#8 {} 10000 0)
    (t.trunk 1).state = .idle ∧ t.rating.unknownStates = 1 ∧
    noticeKinds t = [(.trunkSequence, 7, 1 + 65536 * 2, 9)] ∧
    (let t := after .trunkUnknownState (rewritten 9#8 {})
     t.rating.unknownStates = 0 ∧ noticeKinds t = []) := by decide +kernel
/-- R125: the examples of 6.4. -/
theorem test_bands :
    ([700000, 100000, 252000, 684000].map (isNight 252000 684000)) = [true, true, false, true] ∧
    isNight 216000 36000 800000 = false ∧ isNight 216000 36000 36000 = true ∧ isNight 5 5 5 = false := by decide
theorem witness_BandAndPrefixMatch :
    (trunkState {} 0 0).matchTariff [0, 0, 4, 4, 1] = some 1 ∧ (trunkState {} 0 0).matchTariff [11, 7] = none := by
  decide +kernel

/-! ### Ring and activation writes -/

/-- Slot 4's state byte is written; slot 1 is EXECUTING, slot 2 marked. -/
def slotWrite (i : Nat) (v : Byte) : State :=
  leaving (0x230000 + 64 * i) [v]
    { base with ring.inFlight := [{ slot := 1, stage := .executing }], ring.marks := [2] }

theorem witness_RingWritesReachTheRings :
    (∀ x ∈ [(4, 1#8), (1, 1#8), (2, 0#8), (1, 0#8)],
      let s := slotWrite x.1 x.2
      s.out = {} ∧ carries s [.slot x.1 x.2] = true ∧ (x.2 = 1#8 ∨ x.1 ∈ s.ring.marks ∨ s.slotHeld x.1 = true) ∧
      s.slotHeld x.1 = decide (x.1 = 1)) ∧
    (∀ v ∈ [15, 16], carries (leaving (0x240000 + 32) (le 4 v) base) [.consumer v] = true) ∧
    carries (leavingReq (writeAt 0x240000 [none, none, none, none, some 0#8, none, none, none]) base) [.clearOverflow] = true := by
  decide +kernel
theorem test_orderPost_marks_or_errs :
    (after .orderPost (slotWrite 4 1#8)).ring.marks = [2, 4] ∧
    noticeKinds (after .orderPost (slotWrite 1 1#8)) = [(.ringError, 0xFFFF, 1 + 65536 * 2, 1)] := by decide +kernel
theorem test_orderCancel_clears_the_mark :
    (after .orderCancel (slotWrite 2 0#8)).ring.marks = [] ∧ (after .orderCancel (slotWrite 1 0#8)).ring.ringErrors = 1 := by
  decide +kernel
theorem test_consumerIndexWrite_below_the_slots :
    (after .consumerIndexWrite (leaving (0x240000 + 32) (le 4 15) base)).notices.consumer = 15 ∧
    (after .consumerIndexWrite (leaving (0x240000 + 32) (le 4 16) base)).notices.consumer = 0 := by decide +kernel
theorem test_overflowFlagClear_keeps_the_count :
    let t := after .overflowFlagClear (leavingReq (writeAt 0x240000 [none, none, none, none, some 0#8, none, none, none])
      { base with notices.overflow := true, notices.dropped := 4 })
    t.notices.overflow = false ∧ t.notices.dropped = 4 ∧ raised t .directory = [.noticeHeader false] := by decide +kernel

theorem witness_ActivationStartsValidation :
    ∀ v ∈ [1, 2], ∀ s ∈ [State.reset, base], let u := leaving 0 (le 4 v) s
      u.out = {} ∧ carries u [.activation v] = true ∧ u.control.state = s.control.state := by decide +kernel
theorem test_format_reads_the_profile :
    let t := after .format (leaving 0 (le 4 1) State.reset)
    t.control.validating = some .format ∧ (raised t .host).length = 32 := by decide +kernel
theorem test_adopt_is_refused_while_active :
    let t := after .adopt (leaving 0 (le 4 2) base)
    t.control.result = .refused ∧ t.control.state = .active ∧ raised t .host = [.activation] := by decide +kernel
theorem witness_StopDropsTheContexts :
    ∀ s ∈ [State.reset, worn], let u := leaving 0 (le 4 3) s
      u.out = {} ∧ carries u [.activation 3] = true := by decide +kernel
theorem witness_PowerOnAndResetRestart :
    exec .stop (leaving 0 (le 4 3) worn) = .next (after .stop (leaving 0 (le 4 3) worn)) := rfl
theorem test_stop_leaves_the_time :
    let t := after .stop (leaving 0 (le 4 3) worn)
    t.control.state = .passive ∧ t.control.result = .stopped ∧ t.time = worn.time ∧ t.ring = {} ∧
    t.roomShadow 5 = {} := by decide +kernel

/-! ### Reads and the voice aperture space -/

/-- A read of memory whose burst has come back. -/
def readBack : State :=
  back .hostPart (le 8 0x0102030405060708)
    { base with
      host.fifo := [.host { readReq with lanes := [some 0#8, none] ++ List.replicate 6 (some 0#8) }]
      host.head := some { mode := .active, parts := [⟨0x5000, [some 0#8, none] ++ List.replicate 6 (some 0#8)⟩]
                          phase := .burst } }

/-- The data of `endReq` has come back. -/
def endBack : State :=
  { readBack with
    host.fifo := [.host endReq]
    host.head := some { mode := .active, parts := reqParts endReq, phase := .burst } }

theorem witness_ReadDataReachesTheHost :
    readBack.out = {} ∧ readBack.returnOf Source.isHostPart = some ⟨.hostPart, le 8 0x0102030405060708⟩ ∧
    readBack.host.waiting = [] ∧ readBack.host.loads = [] ∧
    (∃ req w p, readBack.readOut = some (req, w) ∧ w.parts = [p] ∧ readBack.host.fifo = [.host req]) ∧
    (endBack.out = {} ∧ endBack.readOut.map (fun x => x.2.parts) = some [⟨0x3FFFFFFF8, List.replicate 8 (some 0#8)⟩]) :=
  ⟨rfl, rfl, rfl, rfl, ⟨_, _, _, rfl, rfl, rfl⟩, by decide +kernel⟩
/-- R150: the lanes past the end of the address space are given a byte too, and the read is completed. -/
theorem test_hostReadData_past_the_end :
    ((after .hostReadData endBack).host.answers.map fun l => (l.take 8, l.length)) =
      [(allLanes (le 8 0x0102030405060708), 16)] := by decide +kernel
theorem test_hostReadData_in_its_lanes :
    (after .hostReadData { readBack with host.answers := [[some 9#8]] }).host.answers =
      [[some 9#8], [some 8#8, none, some 6#8, some 5#8, some 4#8, some 3#8, some 2#8, some 1#8]] := by decide +kernel

/-- A request in the voice aperture space, at the head, with channel 6 as given. -/
def atAperture (write : Bool) (a : Nat) (lanes : List (Option Byte)) (phase : HeadPhase) (c : Channel) : State :=
  { base.setChannel 6 c with
    host.fifo := [.host { write := write, addr := BitVec.ofNat 34 a, beats := lanes.length / 8, lanes := lanes }]
    host.head := some { mode := .active, parts := [⟨a, lanes⟩], phase := phase } }

/-- 1.5's four samples to channel 6's record aperture. -/
def fourSamples : State :=
  atAperture true (0x100000 + 65536 * 6)
    (allLanes (leInt 2 500 ++ leInt 2 620 ++ leInt 2 580 ++ leInt 2 (-100))) .voice recording

theorem witness_ApertureWriteGivesItsSamples :
    fourSamples.out = {} ∧ ∃ req w, fourSamples.atVoice true = some (req, w) ∧ w.mode = .active ∧
      w.parts.all (fourSamples.inAperture w.mode) = true ∧ fourSamples.observations w.mode req = [] ∧
      fourSamples.guardedBytes w.mode req = [] :=
  ⟨by decide +kernel, _, _, rfl, by decide +kernel⟩
/-- 1.5: the code bytes 27h and F8h, and the state after. -/
theorem test_recordApertureWrite_of_section_1_5 :
    let c := (after .recordApertureWrite fourSamples).channel 6
    slice c.buffer0.data 8 2 = [0x27#8, 0xF8#8] ∧ (c.prediction, c.stepIndex, c.sampleCount, c.accepted) = (-114, 30, 4, 4) := by
  decide +kernel
theorem witness_CodecArithmetic : (0 ≤ 63 ∧ 0 < 16) ∧ (63 ≤ 63 ∧ 15 < 16) := by decide

/-- Channel 6 records message 3 of room 5 against a limit of 3 tenths; the pocket as given. -/
def sampling (c : Channel) (pocket : List PocketEntry) (used : Nat) : State :=
  { (guest 5 0 { base with control.profile.recordLimit := 3, control.profile.reserve := 1 }) with
    store.pocket := pocket, store.stackPtr := BitVec.ofNat 34 (0x270000 + 4 * 64 - 4)
    store.messages := [(3, { generation := 1, state := .recording, room := 5, blocks := 2, first := 9 })]
    store.mailboxes := [(5, { blocksUsed := used })] }.setChannel 6 c

/-- One sample short of a full block. -/
def nearlyFull : Channel := { recording with sampleCount := 1007, position := 1007 }

theorem witness_RecordSamplesAreCodedOrCounted :
    (fourSamples.out = {} ∧ ∃ req w p, fourSamples.atVoice true = some (req, w) ∧ w.mode = .active ∧ w.parts = [p] ∧
      fourSamples.inAperture w.mode p = true ∧ fourSamples.observations w.mode req = [] ∧
      fourSamples.guardedBytes w.mode req = []) ∧
    32768 ≤ (65536 * 6 + 32768) % 65536 ∧ ((65536 * 6 + 32766) / 65536 = 6 ∧ (65536 * 6 + 32766) % 65536 < 32768) ∧
    (({} : Channel).dir ≠ .record ∨ ({} : Channel).state ≠ .recording) ∧
    ({ recording with buffer0 := {} } : Channel).bufferIn .filling = none ∧
    (∀ c ∈ [recording, nearlyFull, { recording with position := 2399 }], ∀ p ∈ [[], [.ready 4], [.ready 3, .ready 4]],
      ∀ used ∈ [39, 40],
      let s := sampling c p used
      (s.channel 6).dir = .record ∧ (s.channel 6).state = .recording ∧ (s.channel 6).bufferIn .filling = some false ∧
      ((s.channel 6).buffer true).cond ≠ .full) ∧
    (nearlyFull.sampleCount + 1 = 1008 ∧ nearlyFull.position + 1 ≠ 800 * 3 ∧ 2399 + 1 = 800 * 3) ∧
    (let s := sampling nearlyFull [] 39
     s.freeCount ≤ s.profile.reserve ∧ takeReady s.store.pocket = none) ∧
    (let s := sampling nearlyFull [.ready 3, .ready 4] 39
     ¬s.freeCount ≤ s.profile.reserve ∧ ¬(s.quotaOf 5 < 39 + 1) ∧ s.quotaOf 5 < 40 + 1 ∧
     takeReady s.store.pocket = some (3, [.ready 4])) ∧
    (let s := sampling nearlyFull [.arriving, .arriving] 39
     ¬s.freeCount ≤ s.profile.reserve ∧ takeReady s.store.pocket = none) :=
  ⟨⟨by decide +kernel, _, _, _, rfl, rfl, rfl, by decide +kernel⟩, by decide +kernel⟩
/-- R52: the 1008th sample with a block ready; R51, R56: the sample at the limit. -/
theorem test_recordApertureWrite_ends_the_block :
    (let t := takePosition (65536 * 6) (some 1#8) (some 0#8) (sampling nearlyFull [.ready 3, .ready 4] 39)
     (t.channel 6).buffer0.cond = .writing ∧ (t.channel 6).buffer1.block = 3 ∧ (t.channel 6).sampleCount = 0) ∧
    (let t := takePosition (65536 * 6) (some 1#8) (some 0#8) (sampling { recording with position := 2399 } [.ready 3] 39)
     (t.channel 6).state = .stopped ∧ (t.channel 6).stopReason = .length ∧ (t.message 3).truncated = true) := by
  decide +kernel

/-- A PLAYING channel over the block of 1.5: four samples, the last of the message. -/
def playing : Channel :=
  { state := .playing, dir := .play, index := 3, sampleCount := 4, stepIndex := 16
    buffer0 := ⟨9, .arrived, blockHeader none32 0 16 false 4 ++ [0x27#8, 0xF8#8] ++ zeros 502⟩ }

/-- Channel 6 plays a message of four samples, and its play aperture is read. -/
def playRead (lanes : List (Option Byte)) (phase : HeadPhase) (c : Channel) : State :=
  (atAperture false (0x100000 + 65536 * 6 + 32768) lanes phase c).setMessage 3 { state := .new, length := 4, blocks := 1, first := 9 }

/-- One position of a beat. -/
def onePosition : List (Option Byte) := [some 0#8, some 0#8, none, none, none, none, none, none]

theorem witness_PlayReadsOfTheAperture :
    (let s := playRead onePosition .voice playing
     s.out = {} ∧ (s.channel 6).state = .playing ∧ (playStep 6 s).1 = .sample 311 ∧
     s.streamEnded (s.channel 6) (s.channel 6).position = false ∧ (s.channel 6).blockPos < (s.channel 6).sampleCount ∧
     65536 * 6 + 32768 ≤ s.apertureOffset (0x100000 + 65536 * 6 + 32768) ∧
     s.apertureOffset (0x100000 + 65536 * 6 + 32768) + 8 ≤ 65536 * (6 + 1) ∧
     s.inAperture .active ⟨0x100000 + 65536 * 6 + 32768, onePosition⟩ = true) ∧
    (∃ req w, (playRead onePosition .voice playing).atVoice false = some (req, w) ∧ w.mode = .active ∧
      w.parts = [⟨0x100000 + 65536 * 6 + 32768, onePosition⟩] ∧
      (playRead onePosition .voice playing).host.fifo = [.host req]) ∧
    (∀ c ∈ [{}, { playing with state := .ended }], ∃ req w, (playRead onePosition .voice c).atVoice false = some (req, w) ∧
      w.mode = .active ∧ ((playRead onePosition .voice c).channel 6).state ≠ .playing ∧
      (playRead onePosition .voice c).host.fifo = [.host req]) ∧
    (∃ req w, (playRead onePosition (.stalled 6 [6]) playing).stalledRead = some (req, w, 6, [6]) ∧
      req.write = false ∧ w.mode = .active ∧ (playRead onePosition (.stalled 6 [6]) playing).host.fifo = [.host req]) := by
  refine ⟨by decide +kernel, ⟨_, _, rfl, rfl, rfl, rfl⟩, ?_, ⟨_, _, rfl, rfl, rfl, rfl⟩⟩
  intro c hc
  refine ⟨_, _, rfl, rfl, ?_, rfl⟩
  revert c
  decide +kernel
/-- 1.5 decoded: 311, 587, 538 and −114; the stream has ended. -/
theorem test_playApertureRead_of_section_1_5 :
    let t := after .playApertureRead (playRead (List.replicate 8 (some 0#8)) .voice playing)
    t.host.answers = [allLanes (leInt 2 311 ++ leInt 2 587 ++ leInt 2 538 ++ leInt 2 (-114))] ∧
    (t.channel 6).state = .ended := by decide +kernel
/-- 8.10: the underrun; four zero samples. -/
theorem test_stallExpiry_answers_zeros :
    let t := after .stallExpiry (playRead (List.replicate 8 (some 0#8)) (.stalled 6 [6])
      { playing with blockPos := 4, sampleCount := 4, buffer1 := ⟨10, .fetching, []⟩ })
    t.host.answers = [List.replicate 8 (some 0#8)] ∧ (t.channel 6).underruns = 1 ∧ t.host.fifo = [] := by decide +kernel

/-! ### Start-up -/

/-- Put bytes into a run of bytes. -/
def patch (h : List Byte) (off : Nat) (bs : List Byte) : List Byte := h.take off ++ bs ++ h.drop (off + bs.length)

/-- A profile host part (12.2): the bases, one floor, 64 blocks and records, every requester in the round robin. -/
def profilePart (floors blocks : Nat) : List Byte :=
  let bases := [0x100000, 0x200000, 0x210000, 0x220000, 0x230000, 0x240000, 0x250000, 0x260000, 0x270000, 0x300000]
  patch (patch (patch (patch (zeros 2048) 8 (bases.flatMap (le 8))) 88 (le 4 floors)) 116 (le 4 64 ++ le 4 64 ++ le 4 blocks))
    170 (le 1 5) |> fun h => patch h 246 [0#8, 0#8, 1#8, 0#8, 2#8, 0#8, 3#8, 0#8, 4#8, 0#8]

/-- The 32 lines of the profile have been read. -/
def validating (h : List Byte) : State :=
  { State.reset with
    control.validating := some .format
    arbiter.returned := (List.range 32).map fun k => ⟨.validation k, slice h (64 * k) 64⟩ }

/-- The error code of a validation. -/
def refusal (x : ActResult ⊕ (Profile × Lists)) : Option ActResult :=
  match x with
  | .inl c => some c
  | .inr _ => none

theorem witness_ValidationRefusesOrStarts :
    (∀ h ∈ [profilePart 1 64, profilePart 0 64], (validating h).out = {} ∧
      (validating h).control.validating = some .format ∧
      ((validating h).arbiter.returned.filter fun r => r.source.isValidation).length = 32) ∧
    refusal (validate 0 (validating (profilePart 0 64)).validationData) = some .range ∧
    refusal (validate 0 (validating (profilePart 1 64)).validationData) = none := by decide +kernel
theorem test_profileValidation_starts :
    let t := after .profileValidation (validating (profilePart 1 64))
    t.control.state = .starting ∧ t.control.result = .started ∧ t.profile.blocks = 64 ∧ t.arbiter.roundPos = 4 ∧
    t.host.fifo.length + t.host.loads.length = 64 := by decide +kernel
theorem test_profileValidation_refuses :
    (after .profileValidation (validating (profilePart 1 63))).control.result = .range ∧
    (after .profileValidation (validating (profilePart 1 63))).control.state = .passive := by decide +kernel
theorem witness_ValidatedProfileKeepsTheChecks :
    refusal (validate 0 (profilePart 64 1048576)) = some .overlap ∧
    ∃ p l, validate 0 (profilePart 1 64) = .inr (p, l) := by
  have h : refusal (validate 0 (profilePart 1 64)) = none := by decide +kernel
  refine ⟨by decide +kernel, ?_⟩
  match hv : validate 0 (profilePart 1 64) with
  | .inl c => rw [hv] at h; simp [refusal] at h
  | .inr (p, l) => exact ⟨p, l, rfl⟩

/-- A load read of room 5, trunk 1 or tariff entry 1 has come back. -/
def loading (t : LoadTarget) : State :=
  back .loadRead (roomHalf 1 1 500 7 ++ List.replicate 52 0xEE#8)
    { base with control.state := .starting, host.fifo := [.load t]
                host.head := some { mode := .starting, phase := .burst } }

theorem witness_LoadReadFillsItsShadow :
    ∀ t ∈ [LoadTarget.room 5, .trunk 1, .tariff 1], (loading t).out = {} ∧
      ((loading t).returnOf Source.isLoad).isSome = true ∧ (loading t).host.fifo = [.load t] := by decide +kernel
theorem test_loadReadReturn_keeps_the_fields :
    ((after .loadReadReturn (loading (.room 5))).roomShadow 5).bytes = le 1 1 ++ le 1 1 ++ zeros 2 ++ le 4 500 ++ le 4 7 ++ zeros 52 := by
  decide +kernel

/-- STARTING at a stage of the work. -/
def starting (w : StartWork) : State := { base with control := { base.control with state := .starting, work := w } }

/-- A read of ADOPT has come back. -/
def adoptRead (w : StartWork) (data : List Byte) : State := back .startWork data (starting { w with kind := .adopt, reading := true })

/-- The record of a NEW message of room 5 in blocks 9 and 10. -/
def keptMessage : Message :=
  { generation := 3, state := .new, room := 5, length := 1100, blocks := 2, first := 9, serial := 8 }

/-- ADOPT has read record `i`, the only one that is not FREE. -/
def sorting (i : Nat) (m : Message) : State :=
  (adoptRead { stage := .adoptRecords, index := i } (messageRecord m)).setRoomShadow 5 (shadow (roomHalf 1 1 0 0))

/-- Records that are kept, FREE, and released. -/
def adoptedRecords : List Message :=
  [keptMessage, { keptMessage with state := .heard, urgent := true, digits := [1, 2, 3], readers := 2 },
   { keptMessage with state := .saved, stamp := ⟨5#16, 70, true⟩ }, { generation := 65535, first := 0 },
   { keptMessage with state := .recording }, { keptMessage with room := 6 }, { keptMessage with room := 64 }]
theorem witness_StartingWorkBeginsAndSorts :
    (∀ k ∈ [StartKind.format, .adopt], let s := starting { kind := k }
      s.out = {} ∧ s.control.state = .starting ∧ s.control.work.stage = .loading ∧ s.host.loads = [] ∧
      s.host.fifo.any FifoEntry.isLoad = false ∧ s.control.work.kind = k ∧ 0 < s.profile.records ∧ 0 < s.profile.orderSlots) ∧
    (let s := adoptRead { stage := .adoptSlots, index := 6 } (slotOf 1 [])
     s.out = {} ∧ s.control.work.stage = .adoptSlots ∧ (s.returnOf Source.isWork).isSome = true ∧
     s.control.work.index + 1 < s.profile.orderSlots ∧ 0 < s.profile.noticeSlots ∧
     (adoptRead { stage := .adoptSlots, index := 7 } (slotOf 1 [])).control.work.index + 1 = s.profile.orderSlots) ∧
    (∀ m ∈ adoptedRecords, ∀ i ∈ [62, 63],
      let s := sorting i m
      s.out = {} ∧ s.control.work.stage = .adoptRecords ∧ (s.returnOf Source.isWork).isSome = true ∧
      (s.control.work.index + 1 < s.profile.records ↔ i = 62) ∧ s.control.work.index = i ∧ s.profile.records = 64 ∧
      s.occupied 5 = true ∧ 5 < s.roomCount ∧ s.store.messages = [] ∧ s.store.mailboxes = [] ∧
      s.control.work.claims = [] ∧ m.first < s.profile.blocks ∧ 0 < s.profile.blocks) := by decide +kernel
theorem test_startingWorkBegin_format_writes_record_0 :
    let t := after .startingWorkBegin (starting {})
    (t.arbiter.lines.directory.map fun r => (r.addr, r.write)) = [(0x250000, true)] := by decide +kernel
theorem test_adoptSlotRead_marks :
    (after .adoptSlotRead (adoptRead { stage := .adoptSlots, index := 6 } (slotOf 1 []))).ring.marks = [6] ∧
    (after .adoptSlotRead (adoptRead { stage := .adoptSlots, index := 6 } (zeros 64))).ring.marks = [] := by decide +kernel
theorem test_adoptRecordRead_keeps_or_releases :
    let s (m : Message) := adoptRead { stage := .adoptRecords, index := 3 } (messageRecord m)
    (after .adoptRecordRead ((s keptMessage).setRoomShadow 5 (shadow (roomHalf 1 1 0 0)))).message 3 = keptMessage ∧
    ((after .adoptRecordRead (s keptMessage)).message 3).state = .deleting := by decide +kernel
/-- R190: the last record, kept, released, FREE; the last slot. -/
theorem test_adoptRecordRead_goes_on :
    let f (m : Message) :=
      let t := after .adoptRecordRead (sorting 63 m)
      (t.control.work.stage, t.control.work.index, t.arbiter.lines.directory.map fun r => (r.addr, r.write))
    f keptMessage = (.adoptWalk, 63, [(0x300000 + 512 * 9, false)]) ∧
    f { keptMessage with room := 6 } = (.adoptWrite, 63, [(0x250000 + 64 * 63, true)]) ∧
    f {} = (.stack, 0, [(0x270000 + 192, true)]) ∧
    (let t := after .adoptSlotRead (adoptRead { stage := .adoptSlots, index := 7 } (slotOf 1 []))
     t.ring.marks = [7] ∧ t.control.work.stage = .noticeSlots ∧ (t.arbiter.lines.directory.map fun r => r.addr) = [0x240040]) := by
  decide +kernel

/-- The walk of record 3 has read the header of block 9. -/
def chainWalk (next walked : Nat) : State :=
  ((adoptRead
    { stage := .adoptWalk, index := 3, claims := [9], block := 9
      chains := [(3, if walked = 1 then [9] else [9, 8])] } (blockHeader next 0 16 false 1008 ++ [])).setMessage 3 keptMessage).setMessage
    4 { keptMessage with first := 20 }

/-- A folio walk of room 5, at pool record 10. -/
def folioWalkState (rec : List Byte) : State :=
  adoptRead
    { stage := .adoptFolios, index := 5, folio := some { inClosed := false, serial := 63, flagged := false, next := 10 } } rec

/-- A charge of folio 63 of room 5, and the record that follows it. -/
def folioRecord (next : Nat) : List Byte :=
  chargeRecord { kind := .rated, room := 5, serial := 63, amount := 420, late := true } next

/-- The walk of record 3 has ended, record 4 has a first block that is refused or counts no block, and record 7 follows. -/
def refusedWalk (first blocks : Nat) : State :=
  ((chainWalk none32 2).setMessage 4 { keptMessage with first := first, blocks := blocks }).setMessage 7
    { keptMessage with first := 20 }

/-- A folio summary: flags, serial, count and head of the OPEN and of the CLOSED place. -/
def summaryBytes (flags so co ho sc cc hc : Nat) : List Byte :=
  le 1 flags ++ zeros 3 ++ le 4 so ++ zeros 4 ++ le 2 co ++ le 2 ho ++ zeros 2 ++ le 4 sc ++ zeros 4 ++ le 2 cc ++ le 2 hc
    ++ zeros 2

/-- The summary of room `r` has been read. -/
def summaryRead (r : Nat) (summary : List Byte) : State :=
  adoptRead { stage := .adoptFolios, index := r, poolClaims := [7], damaged := [3, 4] } summary

/-- A record of folio `serial` with link `next` has been read in the walk of folio 63 of room `r`. -/
def walkRead (r serial next : Nat) (w : FolioWalk) : State :=
  adoptRead { stage := .adoptFolios, index := r, poolClaims := [7], damaged := [3, 4], folio := some w }
    (chargeRecord { kind := .rated, room := r, serial := serial, amount := 420, late := true } next)

/-- Room 5 has `n` messages of two blocks, and the walk of the last has read its last header. -/
def lastChain (n : Nat) : State :=
  { adoptRead { stage := .adoptWalk, index := n - 1, claims := [8, 9], block := 9, chains := [(n - 1, [9, 8])] }
      (blockHeader none32 0 16 false 1008) with
    store.messages := (List.range n).map fun i => (i, { keptMessage with serial := i + 1 }) }
theorem witness_AdoptWalksChainsAndFolios :
    (let s := chainWalk 10 1
     s.out = {} ∧ s.control.work.stage = .adoptWalk ∧ s.returnOf Source.isWork = some ⟨.startWork, blockHeader 10 0 16 false 1008⟩ ∧
     headerNext (blockHeader 10 0 16 false 1008) = 10 ∧ 10 < s.profile.blocks ∧ 10 ≠ none32 ∧ 10 ∉ s.control.work.claims ∧
     (s.chainOf 3).length < (s.message 3).blocks) ∧
    (let s := chainWalk none32 2
     s.out = {} ∧ headerNext (blockHeader none32 0 16 false 1008) = none32 ∧ (s.chainOf 3).length = (s.message 3).blocks ∧
     s.keptFrom (3 + 1) = some 4 ∧ (s.message 4).first < s.profile.blocks ∧ (s.message 4).first ∉ s.control.work.claims ∧
     0 < (s.message 4).blocks) ∧
    (let s := folioWalkState (folioRecord 11)
     s.out = {} ∧ s.control.work.stage = .adoptFolios ∧ (s.returnOf Source.isWork).isSome = true ∧
     s.control.work.folio.isSome = true ∧ field (folioRecord 11) 4 2 = s.control.work.index ∧
     field (folioRecord 11) 12 4 = 63 ∧ field (folioRecord 11) 60 4 = 11 ∧ 11 < s.profile.poolRecords ∧ 11 ≠ none32 ∧
     11 ∉ s.control.work.poolClaims) ∧
    (∀ x ∈ [(none32, 1), (10, 2), (64, 1), (9, 1)], let s := chainWalk x.1 x.2
     s.out = {} ∧ s.control.work.stage = .adoptWalk ∧ headerNext (blockHeader x.1 0 16 false 1008) = x.1 ∧
     (blockHeader x.1 0 16 false 1008).length = 8 ∧
     ((x.1 = none32 ∧ x.2 < (s.message 3).blocks) ∨
       (x.1 ≠ none32 ∧ ((s.message 3).blocks ≤ x.2 ∨ s.profile.blocks ≤ x.1 ∨ x.1 ∈ s.control.work.claims)))) ∧
    (∀ n ∈ [1, 33], let s := lastChain n
     s.out = {} ∧ s.control.work.stage = .adoptWalk ∧ (s.returnOf Source.isWork).isSome = true ∧
     s.control.work.index = n - 1 ∧ (s.chainOf (n - 1)).length = (s.message (n - 1)).blocks ∧ n - 1 < s.profile.records ∧
     (s.message (n - 1)).state.listed = true ∧ s.keptFrom n = none ∧ s.store.mailboxes = []) ∧
    (∀ x ∈ [(64, 2), (9, 2), (20, 0)], let s := refusedWalk x.1 x.2
     s.out = {} ∧ s.keptFrom 4 = some 4 ∧ s.keptFrom 5 = some 7 ∧ (s.chainOf 3).length = (s.message 3).blocks ∧
     (s.profile.blocks ≤ (s.message 4).first ∨ (s.message 4).first ∈ s.control.work.claims ∨ (s.message 4).blocks = 0) ∧
     (s.message 7).first < s.profile.blocks ∧ (s.message 7).first ∉ s.control.work.claims ∧ 0 < (s.message 7).blocks) ∧
    (∀ r ∈ [62, 63], ∀ x ∈ [(0, 0, 0), (1, 0, 10), (1, 1, 7), (1, 1, 63), (5, 1, 64)],
     let s := summaryRead r (summaryBytes x.1 8 x.2.1 x.2.2 9 1 12)
     s.out = {} ∧ s.control.work.stage = .adoptFolios ∧ (s.returnOf Source.isWork).isSome = true ∧
     s.control.work.folio = none ∧ s.roomCount = 64 ∧ s.profile.poolRecords = 64) ∧
    (∀ r ∈ [62, 63], ∀ inClosed ∈ [false, true], ∀ next ∈ [none32, 64, 10, 7, 11], ∀ serial ∈ [63, 64],
     let s := walkRead r serial next { inClosed := inClosed, serial := 63, flagged := false, next := 10 }
     s.out = {} ∧ s.control.work.stage = .adoptFolios ∧ (s.returnOf Source.isWork).isSome = true ∧
     s.control.work.folio.isSome = true ∧ s.roomCount = 64) := by
  refine ⟨?_, ?_, ?_, ?_, ?_, ?_, ?_, ?_⟩ <;> decide +kernel
/-- R190: a record whose first block is claimed is released; R192: a head outside the pool leaves no records, a link
outside the pool is cut, and the last room ends ADOPT with ADOPT REPAIR. -/
theorem test_adopt_repairs :
    (let t := after .adoptHeaderRead (refusedWalk 9 2)
     ((t.message 4).state, t.control.work.damaged, t.control.work.index) = (.deleting, [4], 7)) ∧
    ((after .adoptFolioRead (summaryRead 5 (summaryBytes 1 8 1 64 0 0 0))).folios 5).opened
      = some { serial := 8, incomplete := true } ∧
    (let t := after .adoptFolioRead (walkRead 5 63 64 { inClosed := true, serial := 63, flagged := false, next := 10 })
     (t.folios 5).closed = some { serial := 63, total := 420, records := [10], incomplete := true, late := 1 } ∧
     (t.arbiter.lines.directory.map fun r => (r.addr, r.lanes)) =
       [(0x260000 + 64 * 10 + 56, [none, none, none, none] ++ allLanes (le 4 none32))]) ∧
    (let t := after .adoptFolioRead
       { walkRead 63 63 none32 { inClosed := true, serial := 63, flagged := false, next := 10 } with
         control.profile.noticeEnable := 0xFFFF#32 }
     t.control.work.stage = .finished ∧ t.rating.serial = 64 ∧ noticeKinds t = [(.adoptRepair, 0xFFFF, 2, 0)]) := by
  decide +kernel
/-- R191: the 33rd message of a room is released and counted damaged. -/
theorem test_adoptHeaderRead_rebuilds :
    let t := after .adoptHeaderRead (lastChain 33)
    (t.mailbox 5).list = List.range 32 ∧ (t.mailbox 5).blocksUsed = 64 ∧ (t.message 31).next = none16 ∧
    t.control.work.damaged = [32] ∧ (t.message 32).state = .deleting := by decide +kernel
theorem test_adoptHeaderRead_goes_on :
    (after .adoptHeaderRead (chainWalk 10 1)).control.work.claims = [9, 10] ∧
    ((after .adoptHeaderRead (chainWalk none32 1)).message 3).blocks = 1 ∧
    ((after .adoptHeaderRead (chainWalk none32 1)).message 3).damaged = true := by decide +kernel
theorem test_adoptFolioRead_keeps_the_record :
    let w := (after .adoptFolioRead (folioWalkState (folioRecord 11))).control.work.folio
    (w.map fun w => (w.records, w.total, w.late, w.next)) = some ([10], 420, 1, 11) := by decide +kernel

/-- The work of STARTING is finished: room 5 is OCCUPIED without a folio, room 6 VACANT with one. -/
def finishedWork : State :=
  ((guest 5 0 (starting { stage := .finished })).setFolios 6 ⟨some { serial := 9, total := 5 }, none, false⟩).setTrunkShadow 1
    (shadow (trunkEntry 1 5 []))

theorem witness_EndOfStartingSettlesTheRooms :
    finishedWork.out = {} ∧ finishedWork.control.state = .starting ∧ finishedWork.control.work.stage = .finished := by
  decide +kernel
theorem test_endOfStarting_settles :
    let t := after .endOfStarting finishedWork
    t.control.state = .active ∧ (t.folios 5).opened.isSome = true ∧ (t.folios 6).opened = none ∧
    (t.folios 6).closed = some { serial := 9, total := 5 } ∧ (t.trunk 1).state = .seized := by decide +kernel

/-! ### Time and the lamp link -/

theorem test_tenthSecondEvent_midnight :
    (after .tenthSecondEvent { State.reset with time := ⟨863999, 0xFFFF#16, 0xFFFFFFFF#32, true⟩ }).time = ⟨0, 0#16, 0#32, true⟩ := by
  decide +kernel

/-- 5.6: the lamps of a floor, as frames 14 and 15 find them (card 1 here). -/
def floorLamps : State :=
  { base with lamp.lamps :=
      [(64 + 5, { pattern := .steady }), (64 + 7, { pattern := .steady }), (64 + 10, { pattern := .fast, phase := .a }),
       (64 + 20, { pattern := .fast, phase := .a }), (64 + 30, { pattern := .fast, phase := .b }),
       (64 + 50, { pattern := .steady }), (64 + 60, { pattern := .steady })] }

/-- 5.6: frame 14 drives 5, 7 and 50; with 2.07 still OFF, frame 12 drives 5, 50 and 60. -/
theorem test_loadLimit_of_section_5_6 :
    floorLamps.litPositions 1 14 = [5, 7, 50] ∧
    (floorLamps.setLamp (64 + 7) {}).litPositions 1 12 = [5, 50, 60] ∧
    (floorLamps.setLamp (64 + 7) {}).litPositions 1 10 = [5, 50, 60] := by decide +kernel

/-- Card 0's frame has been sent, its link as given. -/
def sweeping (isOpen : Bool) (received : List Byte) (c : Card) : State :=
  { base with lamp := { sweep := some { card := 0, frame := 7#32, drive := 0x20#64, isOpen := isOpen, received := received }
                        cards := [(0, c)] } }

/-- Every status word has been written as it stands. -/
def shownAll : State :=
  { base with
    host.written := some (le 4 0), arbiter.written := some (base.arbiterStatus.1 ++ base.arbiterStatus.2)
    store.written := some base.storeStatus, ring.written := some base.ringStatus
    rating.written := some (base.ratingStatus.1 ++ base.ratingStatus.2), rating.folioWritten := some base.folioStatus }
theorem witness_TenthSecondAdvancesAndSweeps :
    (∀ s ∈ [base, shownAll, sweeping true [] {}], s.out = {} ∧ s.control.state = .active) ∧
    (∀ g ∈ [WorkStage.records, .finished], (starting { stage := g }).out = {} ∧ (starting { stage := g }).control.state = .starting ∧
      (starting { stage := g }).control.work.stage = g) ∧
    base.out = {} ∧ State.reset.control.state = .passive ∧ base.control.state = .active ∧ 0 < base.profile.cards ∧
    base.lamp.sweep = none ∧ base.host.written ≠ some (le 4 base.host.guardCount) ∧
    (sweeping true [] {}).control.state = .active ∧ (sweeping true [] {}).lamp.sweep ≠ none := by decide +kernel
/-- R161, R43, R106: words that stand as written are not written again; while STARTING the store words alone. -/
theorem test_tenthSecondEvent_writes_what_changed :
    (let t := after .tenthSecondEvent shownAll
     raised t .host = [] ∧ raised t .directory = [] ∧ raised t .rating = [] ∧ raised t .lamp = [.linkHeader]) ∧
    (let t := after .tenthSecondEvent { shownAll with host.guardCount := 5, ring.ringErrors := 1 }
     (t.arbiter.lines.host.map fun r => (r.addr, r.lanes)) = [(2064, allLanes (le 4 5) ++ List.replicate 4 none)] ∧
     (t.arbiter.lines.directory.map fun r => (r.addr, r.beats)) = [(2176, 2)]) ∧
    raised (after .tenthSecondEvent (starting { stage := .records })) .directory = [] ∧
    raised (after .tenthSecondEvent (starting { stage := .finished })) .directory = [.storeStatus] := by decide +kernel
/-- A return frame of card 0: sense set and supply-good byte (12.8). -/
def returnOfCard (sense : Nat) (supply : Byte) : List Byte :=
  let body := le 1 0 ++ le 8 sense ++ [supply]
  body ++ [crc8 body]

theorem witness_ReturnWindowCollectsBytes :
    (sweeping false [] {}).out = {} ∧ ((sweeping false [] {}).lamp.sweep.map fun w => w.isOpen) = some false ∧
    ((sweeping true [1#8] {}).lamp.sweep.map fun w => w.isOpen) = some true ∧ base.lamp.sweep = none := by decide +kernel
theorem test_returnFrame_is_kept :
    ((after (.returnFrame [2#8, 3#8]) (sweeping true [1#8] {})).lamp.sweep.map fun w => w.received) = some [1#8, 2#8, 3#8] := by
  decide +kernel
theorem test_returnWindowOpen_empties :
    ((after .returnWindowOpen (sweeping false [1#8] {})).lamp.sweep.map fun w => (w.isOpen, w.received)) = some (true, []) := by
  decide +kernel
/-- Every state of a card's link. -/
def linkStates : List Card :=
  [{ link := .up }, { link := .suspect, run := 2 }, { link := .recovering, run := 3 }, { link := .recovering, run := 2 },
   { link := .down }]

/-- Lamp 5 is lit and about to latch, lamp 4 is sensed lit; both are fitted. -/
def faulty (r : List Byte) (c : Card) : State :=
  (((sweeping true r c).setLamp 5 { pattern := .steady, mismatch := 2 }).setRoomShadow 5 (shadow (roomHalf 1 1 0 0))).setRoomShadow 4
    (shadow (roomHalf 1 1 0 0))
/-- Card 1, the last, has not answered; card 0 changed earlier in the sweep. -/
def lastCard : State :=
  { base with lamp := { sweep := some { card := 1, frame := 7#32, drive := 0#64, isOpen := true, changed := [0] }
                        cards := [(0, { link := .up, good := 5, supplyGood := true }), (1, { link := .suspect, run := 1, bad := 1 })] } }
theorem witness_ReturnsStepTheLink :
    (sweeping true [] {}).out = {} ∧ (∀ r ∈ [[], returnOfCard 0 1#8 |>.set 10 0x55#8, [1#8] ++ (returnOfCard 0 1#8).drop 1],
      ((sweeping true r {}).lamp.sweep.map fun w => (w.isOpen, w.received, w.card)) = some (true, r, 0)) ∧
    0 + 1 < base.profile.cards ∧ ([] : List Byte).length < 11 ∧
    (lastCard.out = {} ∧ (lastCard.lamp.sweep.map fun w => (w.isOpen, w.received, w.card)) = some (true, [], 1) ∧
      base.profile.cards ≤ 1 + 1) ∧
    (let r := (returnOfCard 0 1#8).set 10 0x55#8
     11 ≤ r.length ∧ crc8 (r.take 10) ≠ byteAt r 10) ∧
    (let b := [1#8] ++ zeros 9
     let r := b ++ [crc8 b]
     11 ≤ r.length ∧ crc8 (r.take 10) = byteAt r 10 ∧ byteAt r 0 ≠ BitVec.ofNat 8 0) ∧
    (let r := returnOfCard 0 0#8
     11 ≤ r.length ∧ crc8 (r.take 10) = byteAt r 10 ∧ byteAt r 0 = BitVec.ofNat 8 0 ∧ byteAt r 9 ≠ 1#8) ∧
    (∀ c ∈ linkStates, let r := returnOfCard 0x10 1#8
     let s := faulty r c
     s.out = {} ∧ (s.lamp.sweep.map fun w => (w.isOpen, w.received, w.card)) = some (true, r, 0) ∧ 11 ≤ r.length ∧
     crc8 (r.take 10) = byteAt r 10 ∧ byteAt r 0 = BitVec.ofNat 8 0 ∧ byteAt r 9 = 1#8 ∧ s.card 0 = c ∧
     s.notices.queue = [] ∧ s.enabled .lampFault = true ∧ s.enabled .cardUp = true) := by decide +kernel
/-- R99: the fourth bad return in a row takes the card DOWN. -/
theorem test_returnWindowClose_card_down :
    let t := after .returnWindowClose (sweeping true [] { link := .suspect, run := 3 })
    (t.card 0).link = .down ∧ noticeKinds t = [(.cardDown, 0xFFFF, 0, 1)] ∧ t.lamp.dataOut.length = 10 := by decide +kernel
/-- R106: at the end of the sweep the entries that changed are written. -/
theorem test_returnWindowClose_ends_the_sweep :
    let t := after .returnWindowClose lastCard
    t.lamp.sweep = none ∧ t.lamp.dataOut = [] ∧
    (t.arbiter.lines.lamp.map fun r => (r.addr, r.lanes)) =
      [(3072, allLanes (le 1 0 ++ le 1 128 ++ zeros 8 ++ le 3 5 ++ le 3 0)),
       (3088, allLanes (le 1 (1 + 16 * 2) ++ le 1 1 ++ zeros 8 ++ le 3 0 ++ le 3 2))] := by decide +kernel
/-- R99 to R102: a card that comes UP clears its counts, raises CARD UP and is evaluated; one not UP is not. -/
theorem test_returnWindowClose_card_up :
    (let t := after .returnWindowClose (faulty (returnOfCard 0x10 1#8) { link := .recovering, run := 3, bad := 9 })
     (t.card 0).link = .up ∧ ((t.lampOf 4).mismatch, (t.lampOf 5).mismatch, (t.lampOf 5).latch) = (1, 1, .none) ∧
     noticeKinds t = [(.cardUp, 0xFFFF, 0, 9)]) ∧
    ((after .returnWindowClose (faulty (returnOfCard 0x10 1#8) { link := .down })).lampOf 5).mismatch = 2 := by decide +kernel
/-- 5.6, frame 3: position 5 is not sensed lit for the third time, and latches OPEN. -/
theorem test_returnWindowClose_lamp_fault :
    let s := (sweeping true (returnOfCard 0 1#8) { link := .up }).setLamp 5 { pattern := .steady, mismatch := 2 }
    let t := after .returnWindowClose (s.setRoomShadow 5 (shadow (roomHalf 1 1 0 0)))
    (t.lampOf 5).latch = .isOpen ∧ noticeKinds t = [(.lampFault, 5, 1, 7)] ∧ t.lamp.marks = [5] := by decide +kernel

/-! ### The memory port (9.6) -/

/-- A request of a source. -/
def burst (src : Source) (write : Bool) : Request := { source := src, write := write, addr := 0x5000, beats := 1 }

/-- 9.6: the lists, and the lines when the port first becomes free. -/
def nineDecisions : State :=
  { base with arbiter :=
      { lists :=
          { wheel := [⟨.voice, .write⟩, ⟨.voice, .read⟩, ⟨.host, .either⟩, ⟨.rating, .either⟩]
            priority := [⟨.host, .either⟩]
            roundRobin := [⟨.directory, .either⟩, ⟨.rating, .either⟩, ⟨.lamp, .either⟩, ⟨.voice, .either⟩] }
        roundPos := 3
        lines :=
          { host := [burst .loadRead false, burst .activation true]
            voice := [burst (.blockWrite 3 false 0) true, burst (.blockWrite 3 false 1) true, burst (.blockFetch 8 false 0) false]
            directory := [burst .walkHeader false], rating := [burst .ratingStatus true], lamp := [burst .linkHeader true] } } }

/-- One decision, and the port free again: what was decided, and the positions after. -/
def decisions : Nat → State → List (Option (Nat × Requester) × Nat × Nat)
  | 0, _ => []
  | n + 1, s =>
    let t := after .arbiterDecision s
    ((s.decision.map fun d => (d.step, d.who)), t.arbiter.roundPos, t.arbiter.wheelPos)
      :: decisions n { t with arbiter.port := none }

/-- 9.6: the lines at decision 5, H3 having been raised. -/
def fifthDecision : State :=
  { nineDecisions with arbiter.lines :=
      { host := [burst .activation true], voice := [burst (.blockWrite 3 false 1) true, burst (.blockFetch 8 false 0) false]
        directory := [burst .walkHeader false], lamp := [burst .linkHeader true] } }

/-- 9.6: the nine decisions. -/
theorem test_arbiterDecision_of_section_9_6 :
    decisions 4 nineDecisions =
      [(some (1, .voice), 3, 1), (some (2, .host), 3, 2), (some (1, .host), 3, 3), (some (1, .rating), 3, 0)] ∧
    decisions 5 fifthDecision =
      [(some (1, .voice), 3, 1), (some (1, .voice), 3, 2), (some (1, .host), 3, 3), (some (3, .directory), 0, 0),
       (some (3, .lamp), 2, 1)] := by
  decide +kernel
/-- A write of the work of STARTING is about to be granted; slots 3 and 7 are marked, record 5 is released, 9 kept. -/
def granting (w : StartWork) : State :=
  let s := starting w
  { s with
    ring.marks := [3, 7]
    store.messages := [(5, { generation := 3, state := .deleting, room := 5 }), (9, { generation := 1, state := .new, room := 5 })]
    arbiter.lines.directory := [{ source := .startWork, write := true, addr := 0x5000, beats := 8, lanes := allLanes (zeros 64) }] }

/-- The stages of FORMAT and of ADOPT, within a stage and at its end. -/
def workGrants : List StartWork :=
  ([(.records, 62), (.records, 63), (.stack, 2), (.stack, 3), (.pool, 62), (.pool, 63), (.roomHalves, 62), (.roomHalves, 63),
    (.slots, 6), (.slots, 7), (.noticeSlots, 14), (.noticeSlots, 15), (.noticeHeader, 0)].map fun x =>
      ({ stage := x.1, index := x.2 } : StartWork)) ++
  ([(.adoptWrite, 4), (.adoptWrite, 5), (.adoptWrite, 9), (.stack, 2), (.stack, 3), (.noticeSlots, 14), (.noticeSlots, 15),
    (.noticeHeader, 0)].map fun x => ({ kind := .adopt, stage := x.1, index := x.2, claims := [0, 3] } : StartWork)) ++
  [{ kind := .adopt, stage := .adoptWrite, index := 9, claims := List.range 64 }]

/-- ADOPT: the patch of a chain that was cut is granted, record 3 being the last kept, or 5 after it. -/
def patchGrant (more : List (Nat × Message)) : State :=
  { granting { kind := .adopt, stage := .adoptWalk, index := 3, claims := [8, 9], chains := [(3, [9, 8])], block := 9 } with
    store.messages := (3, { keptMessage with damaged := true }) :: more }

/-- ADOPT: the cut link of a folio of room `r` is granted, the walk as given. -/
def cutGrant (r : Nat) (w : Option FolioWalk) : State :=
  granting { kind := .adopt, stage := .adoptFolios, index := r, poolClaims := [7], cutFolios := 2, folio := w }

/-- The walk of the CLOSED place at this record. -/
def closedWalk (next : Nat) : FolioWalk := { inClosed := true, serial := 9, flagged := false, next := next }
theorem witness_GrantCarriesTheRequest :
    nineDecisions.out = {} ∧ (nineDecisions.decision.map fun d => d.who) = some .voice ∧
    (nineDecisions.granted.map fun r => r.source.onlyData) = some true ∧ (nineDecisions.granted.map fun r => r.write) = some true ∧
    (let s := { nineDecisions with arbiter.wheelPos := 1 }
     (s.granted.map fun r => (r.source.onlyData, r.write)) = some (true, false)) ∧
    (∀ w ∈ workGrants, let s := granting w
     s.out = {} ∧ s.decision.isSome = true ∧ (s.granted.map fun r => (r.source, r.write)) = some (.startWork, true) ∧
     s.control.work = w ∧ 0 < s.profile.blocks ∧ 0 < s.profile.poolRecords ∧ 0 < s.roomCount ∧ 0 < s.profile.orderSlots ∧
     0 < s.profile.noticeSlots) ∧
    (∀ s ∈ [patchGrant [], patchGrant [(5, { keptMessage with first := 20 })], cutGrant 62 none, cutGrant 63 none] ++
        [none32, 64, 7, 10].map fun n => cutGrant 62 (some (closedWalk n)),
      s.out = {} ∧ s.decision.isSome = true ∧
      (s.granted.map fun r => (r.source, r.write)) = some (.startWork, true)) ∧
    ((patchGrant []).keptFrom 4 = none ∧ ((patchGrant []).message 3).state.listed = true ∧
      (patchGrant []).store.mailboxes = [] ∧ 3 < (patchGrant []).profile.records) ∧
    (let s := patchGrant [(5, { keptMessage with first := 20 })]
     s.keptFrom 4 = some 5 ∧ (s.message 5).first < s.profile.blocks ∧ (s.message 5).first ∉ s.control.work.claims ∧
     0 < (s.message 5).blocks) ∧
    ((64 : Nat) ≠ none32 ∧ base.profile.poolRecords ≤ 64 ∧ (7 : Nat) ∈ [7] ∧ 10 < base.profile.poolRecords ∧ (10 : Nat) ∉ [7]) := by
  decide +kernel
/-- R190 to R192: what follows ADOPT's header, the patch of a cut chain, and the cut link of a folio. -/
theorem test_arbiterDecision_goes_on_with_adopt :
    (let t := after .arbiterDecision (granting { kind := .adopt, stage := .noticeHeader })
     t.notices.isOpen = true ∧ t.control.work.stage = .adoptRecords ∧
     (t.arbiter.lines.directory.map fun r => r.addr) = [0x250000]) ∧
    ((after .arbiterDecision (patchGrant [])).mailbox 5).list = [3] ∧
    ((after .arbiterDecision (patchGrant [(5, { keptMessage with first := 20 })])).arbiter.lines.directory.map fun r => r.addr) =
      [0x300000 + 512 * 20] ∧
    (let t := after .arbiterDecision (cutGrant 62 (some (closedWalk 64)))
     ((t.folios 62).closed.map fun f => (f.serial, f.incomplete)) = some (9, true) ∧ t.control.work.cutFolios = 3 ∧
     (t.arbiter.lines.directory.map fun r => r.addr) = [0x200000 + 128 * 63 + 80]) ∧
    ((after .arbiterDecision (cutGrant 62 (some (closedWalk 10)))).arbiter.lines.directory.map fun r => r.addr) =
      [0x260000 + 64 * 10] := by decide +kernel
/-- R189, R179: the last record write is followed by the top line of the stack, a slot write clears its mark, and the
header line opens notice writing. -/
theorem test_arbiterDecision_goes_on_with_the_work :
    (let t := after .arbiterDecision (granting { stage := .records, index := 63 })
     (t.arbiter.lines.directory.map fun r => r.addr) = [0x270000 + 192] ∧ t.store.freeRecords = List.range 64) ∧
    (after .arbiterDecision (granting { stage := .slots, index := 3 })).ring.marks = [7] ∧
    (after .arbiterDecision (granting { stage := .noticeHeader })).notices.isOpen = true ∧
    (after .arbiterDecision (granting { kind := .adopt, stage := .stack, index := 3, claims := [0, 3] })).store.stackPtr =
      BitVec.ofNat 34 (0x270000 + 8) - 4#34 := by decide +kernel
theorem witness_DecisionFollowsItsSteps :
    ((nineDecisions.decision.map fun d => d.step) = some 1 ∧
      (({ nineDecisions with arbiter.wheelPos := 1 } : State).decision.map fun d => d.step) = some 2) ∧
    (let s := { nineDecisions with arbiter.wheelPos := 1, arbiter.lines := { nineDecisions.arbiter.lines with host := [] } }
     (s.decision.map fun d => (d.step, d.who, d.round)) = some (3, .directory, 0)) ∧
    nineDecisions.arbiter.port = none ∧ nineDecisions.arbiter.lines.get .voice ≠ [] ∧ base.decision = none ∧
    (∀ v : Requester, ⟨v, .either⟩ ∈ nineDecisions.arbiter.lists.priority ++ nineDecisions.arbiter.lists.roundRobin) ∧
    (nineDecisions.matched ⟨.voice, .write⟩).isSome = true ∧ (nineDecisions.granted.map fun r => r.source) = some (.blockWrite 3 false 0) ∧
    (∀ s ∈ [worn, State.reset], let u := leaving 0 (le 4 3) s
     u.out = {} ∧ (u.granted.map fun r => r.source) = some .hostPart ∧ (u.host.head.map fun w => w.phase) = some .burst ∧
     carries u [.activation 3] = true) := by
  refine ⟨by decide +kernel, by decide +kernel, rfl, by decide +kernel, by decide +kernel, ?_, by decide +kernel, by decide +kernel,
    by decide +kernel⟩
  intro v; cases v <;> decide +kernel
/-- R170: the STOP write puts the lists and both positions back at its grant. -/
theorem test_arbiterDecision_stops :
    let u := leaving 0 (le 4 3) worn
    let s := { u with arbiter := { u.arbiter with lists := { u.arbiter.lists with wheel := [⟨.host, .either⟩, ⟨.voice, .read⟩] }, roundPos := 1 } }
    (after .arbiterDecision s).arbiter.lists = {} ∧ (after .arbiterDecision s).arbiter.wheelPos = 0 ∧
    (after .arbiterDecision s).arbiter.roundPos = 4 := by decide +kernel

/-- The one request of a line, ready to be granted. -/
def offered (who : Requester) (r : Request) (s : State) : State := { s with arbiter.lines := s.arbiter.lines.set who [r] }

/-- The sources whose grant acts: the mirrors of room 5, a take of slot 2, a completion of slot 1, a notice header. -/
def acting (who : Requester) (r : Request) : State :=
  offered who r
    { base with
      store.mirrorRaised := some 5, store.marks := [5], rating.mirrorRaised := some 5, rating.marks := [5]
      lamp.mirrorRaised := some 5, lamp.marks := [5], ring.taking := some 2, ring.marks := [2, 6]
      ring.inFlight := [{ slot := 1, stage := .completing }, { slot := 2 }], notices.producer := 15, notices.writing := true }

theorem witness_GrantsActForTheirSource :
    (∀ x ∈ [(Requester.directory, burst .mailMirror true), (.rating, burst .folioMirror true), (.lamp, burst .lampMirror true),
        (.directory, burst .takeRead false), (.directory, burst (.completion 1) true), (.directory, burst (.noticeHeader true) true)],
      (acting x.1 x.2).out = {} ∧ (acting x.1 x.2).granted = some x.2 ∧ (acting x.1 x.2).decision.isSome = true) ∧
    (let s := { base with store.marks := [3, 9], store.mirrorLast := some 3, rating.marks := [5], lamp.marks := [7] }
     s.control.state = .active ∧ s.mirrorNext .directory = some 9 ∧ s.mirrorNext .rating = some 5 ∧ s.mirrorNext .lamp = some 7) := by
  decide +kernel
theorem test_arbiterDecision_acts :
    (after .arbiterDecision (acting .directory (burst .takeRead false))).ring.marks = [6] ∧
    (after .arbiterDecision (acting .directory (burst (.noticeHeader true) true))).notices.producer = 0 ∧
    ((after .arbiterDecision (acting .directory (burst (.completion 1) true))).ring.inFlight.map fun e => e.slot) = [2] := by
  decide +kernel
theorem test_mirrorWriteRaise_next_above :
    let s := { base with store.marks := [3, 9], store.mirrorLast := some 3 }
    (after (.mirrorWriteRaise .directory) s).store.mirrorRaised = some 9 ∧
    ((after (.mirrorWriteRaise .directory) s).arbiter.lines.directory.map fun r => (r.addr, r.beats)) = [(0x200000 + 128 * 9 + 64, 2)] := by
  decide +kernel
/-- The port carries a burst. -/
def carrying (src : Source) (write : Bool) (data : List Byte) : State :=
  { base with arbiter.port := some { req := burst src write, data := data }, store.stackOp := .push }

theorem witness_AcknowledgeReturnsTheData :
    ∀ src ∈ [Source.orphan, .push, .blockFetch 2 false 6, .blockFetch 2 false 7, .takeRead, .activation],
      (carrying src false []).out = {} ∧ ((carrying src false []).arbiter.port.map fun c => c.req.source) = some src := by
  decide +kernel
theorem test_memoryAcknowledge_returns :
    (after .memoryAcknowledge (carrying .takeRead false [1#8])).arbiter.returned = [⟨.takeRead, [1#8]⟩] ∧
    (after .memoryAcknowledge (carrying .push true [])).store.stackOp = .none ∧
    (after .memoryAcknowledge (carrying .orphan false [1#8])).arbiter.returned = [] := by decide +kernel

/-! ### The store -/

/-- Three blocks on the stack: the pointer stands 16 below the top (R19). -/
def stacked (pocket : List PocketEntry) (pushes : List Nat) : State :=
  { base with store.stackPtr := BitVec.ofNat 34 (0x270000 + 4 * 64 - 16), store.pocket := pocket, store.pushLine := pushes }

/-- What channel 6 records or opens, while its take waits: OPENING; a FULL buffer beside an EMPTY or a writing one. -/
def takers : List Channel :=
  [{ state := .opening, dir := .record, index := 3, generation := 4, room := 5, stepIndex := 7, order := some 0 },
   { recording with buffer0 := ⟨9, .full, zeros 512⟩, sampleCount := 1008, position := 1008, generation := 4 },
   { recording with buffer0 := ⟨9, .full, zeros 512⟩, buffer1 := ⟨8, .writing, zeros 512⟩, sampleCount := 1008
                    position := 2016, writes := 1, generation := 4 }]

/-- The take of channel 6 is the oldest of the line; the reserve and the room's quota as given. -/
def takeLine (c : Channel) (rest : List Nat) (reserve quota : Nat) (pocket : List PocketEntry) : State :=
  { (guest 5 0 base).setChannel 6 c with
    control.profile.reserve := reserve, control.profile.defaultQuota := quota
    store :=
      { pocket := pocket, takeLine := 6 :: rest, stackOp := .pop
        stackPtr := BitVec.ofNat 34 (0x270000 + 4 * 64 - 8)
        messages := [(3, { generation := 4, state := .recording, room := 5, blocks := if c.state = .opening then 0 else 1
                           first := if c.state = .opening then none32 else 9 }),
                     (7, { generation := 2, state := .deleting, room := 6, blocks := 3, first := 50 })]
        mailboxes := [(5, { places := 1, blocksUsed := 1 }), (6, { blocksUsed := 3 })]
        walk := some ⟨50, 3⟩, releaseQueue := [⟨50, 3, 7, .silent⟩] }
    ring.inFlight := [{ slot := 0, stage := .executing, copy := slotOf 1 [] }] }

/-- A pop returns, or the walk reads its first header. -/
def popServes (c : Channel) (rest : List Nat) (reserve quota : Nat) : State :=
  back .pop (le 8 0x0000000700000006) (takeLine c rest reserve quota [.arriving])
def walkServes (c : Channel) (rest : List Nat) (reserve quota : Nat) : State :=
  back .walkHeader (blockHeader 51 0 16 false 1008) (takeLine c rest reserve quota [])

/-- A block is granted, with and without another request behind it; STORE FULL; QUOTA. -/
def servings : List (List Nat × Nat × Nat × Bool × Bool) :=
  [([], 0, 40, false, false), ([8], 0, 40, false, false), ([], 9, 40, true, false), ([], 0, 1, false, true)]

theorem witness_PocketAndStackMoveBlocks :
    (∀ c ∈ takers, ∀ x ∈ servings, let s := popServes c x.1 x.2.1 x.2.2.1
      s.out = {} ∧ (s.returnOf Source.isPop).isSome = true ∧ s.store.takeLine = 6 :: x.1 ∧
      s.store.pocket = .arriving :: [] ∧ takeReady [] = none ∧ (s.message 3).state = .recording ∧
      (s.takeFull 6 s.freeCount, s.takeBeyond 6 (s.mailbox 5).blocksUsed) = (x.2.2.2.1, x.2.2.2.2) ∧
      (s.entryOf 0).isSome = true ∧ (c.state = .opening ∨ c.bufferIn .full = some false) ∧
      s.enabled .recordingStopped = true ∧ s.notices.queue = []) ∧
    (let s := stacked [.ready 1] []
     s.out = {} ∧ s.control.state = .active ∧ s.store.pocket.length ≤ 8 ∧ s.stackCount = 3 ∧ s.store.stackOp = .none ∧
     s.store.pushLine = []) ∧
    (let s := back .pop (le 8 0x0000000700000006) (stacked [.ready 1, .arriving] [])
     s.out = {} ∧ (s.returnOf Source.isPop).isSome = true ∧ s.store.takeLine = [] ∧ s.store.pocket = [.ready 1] ++ .arriving :: []) ∧
    (let s := stacked [] [8, 9]
     s.out = {} ∧ s.store.pushLine = 8 :: [9] ∧ s.store.stackOp = .none) := by decide +kernel
theorem test_stackPop_raises_the_pointer :
    (after .stackPop (stacked [.ready 1] [])).store.pocket = [.arriving, .ready 1] ∧
    (after .stackPop (stacked [.ready 1] [])).freeCount = 4 ∧
    ((after .stackPop (stacked [.ready 1] [])).arbiter.lines.directory.map fun r => r.addr) = [0x270000 + 4 * 64 - 16] := by
  decide +kernel
theorem test_popReadReturn_reads_its_entry :
    (after .popReadReturn (back .pop (le 8 0x0000000700000006) (stacked [.arriving] []))).store.pocket = [.ready 6] := by
  decide +kernel
theorem test_stackPush_writes_its_entry :
    let t := after .stackPush (stacked [] [8, 9])
    t.store.pushLine = [9] ∧ t.stackCount = 4 ∧ t.freeCount = 5 ∧
    (t.arbiter.lines.directory.map fun r => (r.addr, r.lanes.take 4)) = [(0x270000 + 4 * 64 - 16, allLanes (le 4 8))] := by
  decide +kernel

/-- 2.6: the walk of a message of room 12 (room 5 here) in blocks 50, 51 and 52; the pocket holds 25 to 31. -/
def walking (block remaining next : Nat) : State :=
  back .walkHeader (blockHeader next 0 16 false 1008)
    { base with
      store.pocket := [25, 26, 27, 28, 29, 30, 31].map PocketEntry.ready, store.walk := some ⟨block, remaining⟩
      store.stackPtr := BitVec.ofNat 34 (0x270000 + 4 * 64 - 4)
      store.releaseQueue := [⟨50, 3, 7, .order 0⟩], store.messages := [(7, { generation := 2, state := .deleting, room := 5, blocks := 3, first := 50 })]
      store.mailboxes := [(5, { blocksUsed := 3 })]
      ring.inFlight := [{ slot := 0, stage := .executing, copy := slotOf 8 [], result := le 4 3, left := 1 }] }

/-- R24, R50, R52: the waiting take is granted block 6, or refused. -/
theorem test_popReadReturn_serves_the_take :
    let f (c : Channel) (x : List Nat × Nat × Nat × Bool × Bool) :=
      let t := after .popReadReturn (popServes c x.1 x.2.1 x.2.2.1)
      ((t.channel 6).state, (t.channel 6).stopReason, (t.message 3).state, (t.message 3).blocks)
    (servings.map (f (takers.getD 0 {})) = [(.recording, .none, .recording, 1), (.recording, .none, .recording, 1),
      (.free, .none, .free, 0), (.free, .none, .free, 0)]) ∧
    (servings.map (f (takers.getD 1 {})) = [(.recording, .none, .recording, 2), (.recording, .none, .recording, 2),
      (.stopped, .storeFull, .recording, 1), (.stopped, .quota, .recording, 1)]) ∧
    (servings.map fun x => (after .popReadReturn (popServes (takers.getD 0 {}) x.1 x.2.1 x.2.2.1)).ring.inFlight.map fun e => e.stage) =
      [[.completing], [.completing], [.completing], [.completing]] ∧
    (let t := after .popReadReturn (popServes (takers.getD 0 {}) [] 0 40)
     (t.channel 6).buffer0.block = 6 ∧ t.store.takeLine = [] ∧ t.store.pocket = []) := by decide +kernel

theorem witness_WalkReleasesTheBlockInHand :
    (∀ c ∈ takers, ∀ x ∈ servings, let s := walkServes c x.1 x.2.1 x.2.2.1
      s.out = {} ∧ (s.returnOf Source.isWalk).isSome = true ∧ s.store.walk = some ⟨50, 3⟩ ∧
      s.store.releaseQueue = [⟨50, 3, 7, .silent⟩] ∧ s.store.takeLine = 6 :: x.1 ∧ takeReady s.store.pocket = none ∧
      (s.message 3).state = .recording ∧ (s.message 3).room = 5 ∧ (s.message 7).room = 6 ∧
      (s.takeFull 6 (s.freeCount + 1), s.takeBeyond 6 (s.mailbox 5).blocksUsed) = (x.2.2.2.1, x.2.2.2.2)) ∧
    let s := walking 50 3 51
    s.out = {} ∧ s.returnOf Source.isWalk = some ⟨.walkHeader, blockHeader 51 0 16 false 1008⟩ ∧ s.store.walk = some ⟨50, 3⟩ ∧
    s.store.releaseQueue = ⟨50, 3, 7, .order 0⟩ :: [] ∧ s.store.takeLine = [] ∧ 1 < 3 ∧
    headerNext (blockHeader 51 0 16 false 1008) < s.profile.blocks := by decide +kernel
theorem test_walkHeaderRead_of_section_2_6 :
    let t := after .walkHeaderRead (walking 50 3 51)
    t.store.pocket = [50, 25, 26, 27, 28, 29, 30, 31].map PocketEntry.ready ∧ t.freeCount = 8 ∧
    (t.mailbox 5).blocksUsed = 2 ∧ raised t .directory = [.walkHeader] := by decide +kernel
/-- R24: the block released goes to the waiting take, and the walk goes on. -/
theorem test_walkHeaderRead_serves_the_take :
    let t := after .walkHeaderRead (walkServes (takers.getD 1 {}) [] 0 40)
    ((t.channel 6).buffer0.cond, (t.channel 6).buffer1.cond, (t.channel 6).buffer1.block) = (.writing, .filling, 50) ∧
    t.store.walk = some ⟨51, 2⟩ ∧ (t.mailbox 6).blocksUsed = 2 ∧ (t.mailbox 5).blocksUsed = 2 := by decide +kernel
/-- 2.6: the last block; the record becomes FREE and the order is DONE. -/
theorem test_walkHeaderRead_completes :
    let t := after .walkHeaderRead (walking 52 1 none32)
    (t.message 7).state = .free ∧ (t.message 7).generation = 2 ∧ t.store.releaseQueue = [] ∧
    (t.ring.inFlight.map fun e => e.stage) = [.completing] := by decide +kernel

/-- A channel's release waits first in the line. -/
def waitingRelease : State :=
  { base.setChannel 9 { state := .stopped, dir := .record, index := 51, room := 5, stopReason := .checkedOut, release := .asked } with
    store.releaseLine := [⟨.channel 9, 1⟩, ⟨.take, 1⟩]
    store.messages := [(51, { generation := 1, state := .recording, room := 5, blocks := 4, first := 40 })]
    store.mailboxes := [(5, { places := 1, blocksUsed := 4 })] }

theorem witness_ReleaseLineGrantQueuesTheChain :
    let s := waitingRelease
    s.out = {} ∧ s.store.releaseLine = ⟨.channel 9, 1⟩ :: [⟨.take, 1⟩] ∧ 1 ≤ 64 - s.store.releaseQueue.length ∧
    (s.message (s.channel 9).index).state = .recording ∧ (s.message (s.channel 9).index).readers = 0 ∧
    0 < (s.message (s.channel 9).index).blocks ∧ (s.channel 9).state ≠ .playing ∧ (s.channel 9).state ≠ .ended := by
  decide +kernel
/-- 4.8: D is DELETING, its entry joins the queue, the place is given back. -/
theorem test_releaseLineGrant_of_section_4_8 :
    let t := after .releaseLineGrant waitingRelease
    (t.message 51).state = .deleting ∧ (t.mailbox 5).places = 0 ∧ t.store.releaseQueue = [⟨40, 4, 51, .channel 9⟩] := by
  decide +kernel

/-! ### The channels -/

/-- Channel 6 records message 3 of room 5, with a write of its first buffer in flight. -/
def writingChannel (c : Channel) : State :=
  { (guest 5 0 base).setChannel 6 { c with dir := .record, index := 3, room := 5, writes := 1 } with
    store.messages := [(3, { generation := 1, state := .recording, room := 5, blocks := 2, first := 9, length := 2000 })]
    ring.inFlight := [{ slot := 0, stage := .executing, copy := slotOf 2 (le 1 6) }] }

/-- A RECORDING channel whose next block waits for the buffer. -/
def waitsForBuffer : Channel :=
  { state := .recording, waitingBlock := some 20, prediction := 11, stepIndex := 17, pendingGap := true
    buffer0 := ⟨9, .writing, zeros 512⟩, buffer1 := ⟨10, .filling, zeros 512⟩ }

/-- A CLOSING channel of RECORD CLOSE, slot 0. -/
def closingChannel : Channel := { state := .closing, closing := .close, order := some 0 }

/-- The last write of a RECORD CLOSE that is refused has finished: the channel, the message, the release line. -/
def refusedClose (c : Channel) (blocks length status : Nat) (full : Bool) : State :=
  let s := back (.headerPatch 6) [] (writingChannel { c with state := .closing, closing := .close, order := some 0 })
  (s.setMessage 3 { s.message 3 with blocks := blocks, length := length }).setRoomShadow 5 (shadow (roomHalf status 1 0 0)) |> fun u =>
    { u with store.mailboxes := [(5, { places := 1, blocksUsed := blocks })]
             store.releaseLine := if full then [⟨.checkout, 70⟩] else [] }

/-- Cases 1 to 4 of R57, with the answer each gives. -/
def refusedCloses : List (State × Status) :=
  [(refusedClose { stopReason := .checkedOut, release := .queued } 2 2000 1 false, .roomVacant),
   (refusedClose { stopReason := .checkedOut, release := .asked } 2 2000 1 false, .roomVacant),
   (refusedClose { stopReason := .checkedOut, release := .finished } 2 2000 1 false, .roomVacant),
   (refusedClose { checkedOut := true } 2 2000 1 true, .roomVacant),
   (refusedClose {} 0 0 1 false, .tooShort), (refusedClose {} 1 799 1 false, .tooShort),
   (refusedClose {} 1 800 0 true, .roomVacant)]
/-- The last write is that of the block in the first buffer. -/
def blockFinished (s : State) : State :=
  { s.setChannel 6 { s.channel 6 with buffer0 := ⟨9, .writing, zeros 512⟩ } with
    arbiter.returned := [{ source := .blockWrite 6 false 7, data := [] }] }

/-- RECORD CLOSE is taken with channel 6 STOPPED and every write finished; a write of the record is pending. -/
def stoppedClose (s : State) : State :=
  taking (slotOf 2 (le 1 6))
    { s.setChannel 6 { s.channel 6 with state := .stopped, writes := 0, closing := .none, order := none } with
      arbiter.lines.directory := [{ source := .record 3, write := true, addr := 0x250000 + 64 * 3, beats := 8 }] }

/-- The close that is kept: case 5. -/
def keptClose : State := back (.headerPatch 6) [] (writingChannel closingChannel)

theorem witness_FinishedWritesMoveTheRecording :
    (∀ u ∈ keptClose :: refusedCloses.map Prod.fst,
      (let s := blockFinished u
       s.out = {} ∧ s.returnOf Source.isBlockWrite = some ⟨.blockWrite 6 false 7, []⟩ ∧ (s.channel 6).writes = 1 ∧
       (s.channel 6).waitingBlock = none ∧ (s.channel 6).state = .closing ∧ (s.channel 6).closing = .close) ∧
      (let s := stoppedClose u
       takes s .recordClose (slotOf 2 (le 1 6)) = true ∧ (s.channel 6).state = .stopped ∧ (s.channel 6).writes = 0)) ∧
    (∀ x ∈ refusedCloses, let c := x.1.channel 6
      let m := x.1.message c.index
      x.1.out = {} ∧ x.1.returnOf Source.isPatch = some ⟨.headerPatch 6, []⟩ ∧ c.dir = .record ∧ c.writes = 1 ∧
      c.state = .closing ∧ c.closing = .close ∧ c.order = some 0 ∧
      (x.1.entryOf 0).any (fun e => decide (e.stage = .executing)) = true ∧ (c.release = .none → m.state = .recording) ∧
      m.readers = 0 ∧
      (((c.stopReason = .checkedOut ∨ c.checkedOut = true) ∧ x.2 = .roomVacant) ∨
       (c.stopReason ≠ .checkedOut ∧ c.checkedOut = false ∧ (m.length = 0 ∨ m.length < 800 * x.1.profile.minRecord) ∧
        x.2 = .tooShort) ∨
       (c.stopReason ≠ .checkedOut ∧ c.checkedOut = false ∧ 0 < m.length ∧ 800 * x.1.profile.minRecord ≤ m.length ∧
        x.1.occupied m.room = false ∧ x.2 = .roomVacant))) ∧
    (∀ w ∈ [none, some 20], let s := back (.blockWrite 6 false 7) [] (writingChannel { waitsForBuffer with waitingBlock := w })
      s.out = {} ∧ s.returnOf Source.isBlockWrite = some ⟨.blockWrite 6 false 7, []⟩ ∧ (s.channel 6).state = .recording ∧
      (s.channel 6).waitingBlock = w) ∧
    (let s := back (.headerPatch 6) [] (writingChannel closingChannel)
     let c := s.channel 6
     let m := s.message c.index
     s.out = {} ∧ s.returnOf Source.isPatch = some ⟨.headerPatch 6, []⟩ ∧ c.dir = .record ∧ c.writes = 1 ∧ c.state = .closing ∧
     c.closing = .close ∧ c.stopReason ≠ .checkedOut ∧ c.checkedOut = false ∧ 0 < m.length ∧
     800 * s.profile.minRecord ≤ m.length ∧ s.occupied m.room = true ∧ c.order = some 0 ∧ (s.entryOf 0).isSome = true) := by
  decide +kernel
theorem test_blockWriteFinish_fills_the_waiting_block :
    let c := (after .blockWriteFinish (back (.blockWrite 6 false 7) [] (writingChannel waitsForBuffer))).channel 6
    c.buffer0 = ⟨20, .filling, zeros 512⟩ ∧ (c.startPred, c.startIndex, c.blockGap, c.writes) = (11, 17, true, 0) := by decide +kernel
theorem test_headerPatchFinish_commits :
    let t := after .headerPatchFinish (back (.headerPatch 6) [] (writingChannel closingChannel))
    (t.message 3).state = .new ∧ (t.mailbox 5).list = [3] ∧ (t.mailbox 5).newCount = 1 ∧ (t.channel 6).state = .free ∧
    (t.lampOf 5).pattern = .steady := by decide +kernel
/-- R57: the write of the last block decides as the header patch does, RECORD CLOSE of a STOPPED channel at its take. -/
theorem test_closes_without_a_patch :
    (∀ t ∈ [after .blockWriteFinish (blockFinished keptClose), after .recordClose (stoppedClose keptClose)],
      (t.message 3).state = .new ∧ (t.mailbox 5).list = [3] ∧ (t.channel 6).state = .free ∧
      (t.lampOf 5).pattern = .steady) ∧
    (refusedCloses.map fun x => ((after .recordClose (stoppedClose x.1)).channel 6).verdict) = refusedCloses.map Prod.snd ∧
    (refusedCloses.map fun x => ((after .blockWriteFinish (blockFinished x.1)).channel 6).verdict) =
      refusedCloses.map Prod.snd := by decide +kernel

/-- R57, cases 1 to 4: which wait for a release and which are answered, with what status. -/
theorem test_headerPatchFinish_refuses :
    ∀ x ∈ refusedCloses.zip
        [(ChannelState.closing, ReleaseProgress.queued, MessageState.recording), (.closing, .asked, .recording),
         (.free, .finished, .recording), (.closing, .asked, .recording), (.free, .finished, .free),
         (.closing, .queued, .deleting), (.closing, .asked, .recording)],
      let t := after .headerPatchFinish x.1.1
      (t.channel 6).state = x.2.1 ∧ (t.channel 6).release = x.2.2.1 ∧ (t.message 3).state = x.2.2.2 ∧
      (t.channel 6).verdict = x.1.2 ∧
      (t.ring.inFlight.map fun e => e.stage) = [if x.2.1 = .free then .completing else .executing] := by decide +kernel

/-- Channel 6 waits for its second buffer, or for a header of the offset walk. -/
def fetching (st : ChannelState) : State :=
  back (.blockFetch 6 true 7) [1#8] (base.setChannel 6 { playing with state := st, buffer1 := ⟨20, .fetching, zeros 448⟩ })

/-- 1.13: an offset walk over the three-block message. -/
def offsetWalk (left next : Nat) : State :=
  { back (.offsetWalk 6) (blockHeader next 0 16 false 1008)
      (base.setChannel 6 { state := .opening, dir := .play, index := 3, walkLeft := left, walkBlock := 37, offset := 2496, order := some 0 }) with
    store.messages := [(3, { generation := 1, state := .new, room := 5, blocks := 3, first := 37, length := 2500 })]
    ring.inFlight := [{ slot := 0, stage := .executing, copy := slotOf 4 [] }] }

/-- Channel 6 opens a playback of message 3 of this length: a block of 1.5's four samples has arrived. -/
def opening (discard length next : Nat) : State :=
  { back (.blockFetch 6 false 7) (zeros 64)
      (base.setChannel 6 { state := .opening, dir := .play, index := 3, generation := 1, discard := discard, offset := discard
                           position := discard, order := some 0
                           buffer0 := ⟨37, .fetching, (blockHeader next 0 16 false 4 ++ [0x27#8, 0xF8#8]) ++ zeros 438⟩ }) with
    store.messages := [(3, { generation := 1, state := .new, room := 5, blocks := 2, first := 37, length := length })]
    ring.inFlight := [{ slot := 0, stage := .executing, copy := slotOf 4 [] }] }

/-- It plays, at once or after the discard; it ends by the length or the chain; it needs the next block. -/
def openings : List (Nat × Nat × Nat) :=
  [(0, 8, 38), (0, 8, none32), (2, 8, 38), (4, 8, 38), (3, 8, none32), (4, 3, 38), (4, 8, none32), (5, 8, 38)]
theorem witness_FetchAndOffsetWalkMoveThePlayback :
    (∀ x ∈ openings, let s := opening x.1 x.2.1 x.2.2
      s.out = {} ∧ s.returnOf Source.isFetch = some ⟨.blockFetch 6 false 7, zeros 64⟩ ∧ (s.channel 6).state = .opening ∧
      (s.channel 6).order = some 0 ∧ (s.entryOf 0).isSome = true ∧ (s.channel 6).discard = x.1 ∧ (s.channel 6).reached = 0 ∧
      (s.message (s.channel 6).index).length = x.2.1 ∧
      headerCount (((s.channel 6).buffer0.data ++ zeros 64).take 8) = 4 ∧
      headerNext (((s.channel 6).buffer0.data ++ zeros 64).take 8) = x.2.2 ∧ s.profile.blocks = 64) ∧
    (∀ st ∈ [ChannelState.playing, .closing], (fetching st).out = {} ∧ (fetching st).returnOf Source.isFetch = some ⟨.blockFetch 6 true 7, [1#8]⟩ ∧
      ((fetching st).channel 6).state = st ∧ (fetching st).host.head = none ∧ (fetching st).host.fifo = [] ∧
      (fetching st).host.waiting = [] ∧ (fetching st).host.loads = []) ∧
    (∀ x ∈ [(2, 38), (1, 38), (2, none32)], let s := offsetWalk x.1 x.2
      s.out = {} ∧ s.returnOf Source.isOffsetWalk = some ⟨.offsetWalk 6, blockHeader x.2 0 16 false 1008⟩ ∧ (s.channel 6).state = .opening ∧
      (s.channel 6).walkLeft = x.1 ∧ headerNext (blockHeader x.2 0 16 false 1008) = x.2 ∧ s.host.head = none ∧ s.host.fifo = [] ∧
      s.host.waiting = [] ∧ s.host.loads = [] ∧ (s.entryOf 0).isSome = true) := by decide +kernel
theorem test_blockFetchArrival_fills_or_frees :
    ((after .blockFetchArrival (fetching .playing)).channel 6).buffer1.cond = .arrived ∧
    ((after .blockFetchArrival (fetching .playing)).channel 6).buffer1.data.length = 449 ∧
    ((after .blockFetchArrival (fetching .closing)).channel 6).state = .free := by decide +kernel
/-- R62 with 1.5's codes (states 311 and 24, 587 and 23, 538 and 22, −114 and 30 after 1, 2, 3 and 4 samples). -/
theorem test_blockFetchArrival_opens :
    ∀ x ∈ openings.zip
        [(ChannelState.playing, (0, 0), BufferCond.fetching, some (some 0#8)), (.playing, (0, 0), .empty, some (some 0#8)),
         (.playing, (587, 2), .fetching, some (some 0#8)), (.playing, (-114, 4), .fetching, some (some 0#8)),
         (.playing, (538, 3), .empty, some (some 0#8)), (.ended, (538, 3), .empty, some (some 1#8)),
         (.ended, (-114, 4), .empty, some (some 1#8)), (.opening, (-114, 5), .fetching, none)],
      let t := after .blockFetchArrival (opening x.1.1 x.1.2.1 x.1.2.2)
      let c := t.channel 6
      c.state = x.2.1 ∧ c.prediction = x.2.2.1.1 ∧ c.position = x.2.2.1.2 ∧ c.buffer1.cond = x.2.2.2.1 ∧
      (t.arbiter.lines.directory.head?.map fun r => r.lanes.getD 33 none) = x.2.2.2.2 := by decide +kernel
/-- 1.13, 312 ms: headers 37 and 38 are read, then block 12 is fetched. -/
theorem test_offsetWalkRead_of_section_1_13 :
    ((after .offsetWalkRead (offsetWalk 2 38)).arbiter.lines.voice.map fun r => r.addr) = [0x300000 + 512 * 38] ∧
    ((after .offsetWalkRead (offsetWalk 1 12)).channel 6).buffer0.block = 12 ∧
    ((after .offsetWalkRead (offsetWalk 2 none32)).channel 6).state = .ended := by decide +kernel

/-! ### The order ring (10.9) -/

/-- Slot 0 is marked, and the consumer index stands there. -/
def posted : State := { base with ring.marks := [0, 1, 2] }

/-- A take of slot 0 has been read with these bytes; the store and mailbox are those of 2.12, for room 5,
and the writes of its records are pending. -/
def house : State :=
  { (guest 5 0 base) with
    store :=
      { messages :=
          [(2, { generation := 3, state := .heard, room := 5, serial := 7, blocks := 5, first := 20, next := 6 }),
           (4, { generation := 1, state := .new, room := 5, urgent := true, serial := 10, blocks := 3, first := 30, length := 2500, next := 9 }),
           (6, { generation := 1, state := .saved, room := 5, serial := 3, blocks := 1, first := 40 }),
           (9, { generation := 2, state := .new, room := 5, serial := 12, blocks := 2, first := 50, next := 2 })]
        mailboxes := [(5, { list := [4, 9, 2, 6], places := 4, newCount := 2, urgentNew := 1, heardCount := 1
                            savedCount := 1, blocksUsed := 11 })]
        pocket := [.ready 22, .ready 23], freeRecords := [0, 1, 3, 5], serial := 13 }
    lamp := { lamps := [(5, { pattern := .fast, phase := .a })], cards := [(0, { link := .up, fastA := 1 })] }
    rating := { folios := [(5, ⟨some { serial := 88, total := 100, records := [0] }, some { serial := 71, total := 530, records := [4, 5], late := 1 }, false⟩)]
                freePool := [1, 2, 3] }
    time := ⟨700000, 12#16, 0#32, true⟩
    arbiter.lines.directory := [0, 2, 4, 6, 9].map fun i =>
      { source := .record i, write := true, addr := 0x250000 + 64 * i, beats := 8 } }

/-- Message 2 as its reader on channel 1 leaves it counted. -/
def reader : State :=
  (house.setMessage 2 { house.message 2 with readers := 1 }).setChannel 1 { state := .playing, dir := .play, index := 2, generation := 3, room := 5 }

/-- The order in a slot: code and parameters. -/
def order (code : Nat) (params : List Byte) (s : State) : State := taking (slotOf code params) s

theorem witness_TakeReadsTheSlot :
    (posted.out = {} ∧ posted.control.state = .active ∧ posted.ring.consumer ∈ posted.ring.marks ∧ posted.ring.taking = none ∧
      posted.ring.inFlight.length < 8) ∧
    (let s := taking (zeros 64) base
     s.ring.taking = some 0 ∧ s.returnOf Source.isTake = some ⟨.takeRead, zeros 64⟩ ∧ byteAt (zeros 64) 0 ≠ 1#8) ∧
    (let s := order 15 [] base
     s.out = {} ∧ s.returnOf Source.isTake = some ⟨.takeRead, slotOf 15 []⟩ ∧ byteAt (slotOf 15 []) 0 = 1#8 ∧
     copyOrder (slotOf 15 []) = none ∧ (s.entryOf 0).isSome = true) := by decide +kernel
theorem test_takeStart_reads_the_slot :
    (after .takeStart posted).ring.taking = some 0 ∧
    ((after .takeStart posted).arbiter.lines.directory.map fun r => (r.source, r.addr, r.write)) = [(.takeRead, 0x230000, false)] := by
  decide +kernel
theorem test_takeReadReturn_unknown_order :
    let t := after .takeReadReturn (order 15 [] base)
    t.ring.consumer = 1 ∧ raised t .directory = [.executing 0, .completion 0] ∧
    ((t.arbiter.lines.directory.getD 1 (burst .takeRead false)).lanes.getD 4 none) = some 1#8 := by decide +kernel

/-- MESSAGE DELETE (2, 3) waits for a place of the release queue. -/
def waitingTake (need : Nat) (m : Message) : State :=
  { (taking (slotOf 8 (le 2 2 ++ le 2 3)) house).setMessage 2 m with store.releaseLine := [⟨.take, need⟩, ⟨.channel 9, 1⟩] }

theorem witness_WaitingTakesAreEvaluatedAgain :
    (let s := order 9 (le 2 5 ++ le 1 0) { house with store.releaseLine := [⟨.take, 2⟩] }
     s.out = {} ∧ s.ring.taking = some 0 ∧ s.store.releaseLine = ⟨.take, 2⟩ :: [] ∧ 2 ≤ 64 - s.store.releaseQueue.length ∧
     2 < s.placesOf (slotOf 9 (le 2 5 ++ le 1 0)) ∧ (s.entryOf 0).isSome = true) ∧
    (let s := waitingTake 1 {}
     let copy := slotOf 8 (le 2 2 ++ le 2 3)
     copyOrder copy = some .messageDelete ∧ orderRefusal .messageDelete copy s = some .noSuchMessage ∧
     1 ≤ 64 - s.store.releaseQueue.length) ∧
    (let s := waitingTake 1 (house.message 2)
     let copy := slotOf 8 (le 2 2 ++ le 2 3)
     s.placesOf copy ≤ 1 ∧ orderRefusal .messageDelete copy s = none ∧ (s.entryOf 0).isSome = true) ∧
    ((order 8 (le 2 2 ++ le 2 3) house).takeOf .messageDelete).isSome = true ∧
    (waitingTake 1 (house.message 2)).arbiter.returned ≠ [] ∧
    (let s := { waitingTake 1 (house.message 2) with arbiter.returned := [] }
     s.takeOf .messageDelete = none ∧ (s.grantOf .messageDelete).isSome = true) := by decide +kernel
theorem test_takePlacesGranted_deletes :
    let t := after .takePlacesGranted { waitingTake 1 (house.message 2) with arbiter.returned := [] }
    (t.message 2).state = .deleting ∧ t.store.releaseLine = [⟨.channel 9, 1⟩] ∧ t.ring.consumer = 1 := by decide +kernel
theorem witness_RefusedOrderChangesNothing :
    let copy := slotOf 1 (le 2 6 ++ le 1 0 ++ le 1 255)
    let s := taking copy house
    s.out = {} ∧ s.takeOf .recordOpen = some (0, copy) ∧ orderRefusal .recordOpen copy s = some .roomVacant ∧
    (s.entryOf 0).isSome = true := by decide +kernel

/-! ### The fourteen orders -/

/-- The status a completion write of slot 0 carries. -/
def answer (t : State) : Option (Option Byte) :=
  (t.arbiter.lines.directory.find? fun r => decide (r.source = .completion 0)).map fun r => r.lanes.getD 4 none

/-- The result bytes of that write (12.6). -/
def resultOf (t : State) (n : Nat) : List (Option Byte) :=
  ((t.arbiter.lines.directory.find? fun r => decide (r.source = .completion 0)).map fun r => (r.lanes.drop 32).take n).getD []

/-- RECORD OPEN for room 5, not urgent, any channel. -/
def recordOpenSlot : List Byte := slotOf 1 (le 2 5 ++ le 1 0 ++ le 1 255 ++ le 1 0)

/-- No block is ready; or a take brings the free count below the threshold. -/
def openings50 : List State :=
  [taking recordOpenSlot { house with store.pocket := [] },
   taking recordOpenSlot { house with store.pocket := [.arriving], store.takeLine := [3] }]
def lowState : State := taking recordOpenSlot { house with control.profile.storeLowLevel := 2 }

theorem witness_RecordOpenStartsARecording :
    (∀ s ∈ openings50, takes s .recordOpen recordOpenSlot = true ∧ takeReady s.store.pocket = none ∧
      s.store.freeRecords = 0 :: [1, 3, 5]) ∧
    (let s := { lowState with store.stackPtr := BitVec.ofNat 34 (0x270000 + 4 * 64 - 4) }
     takes s .recordOpen recordOpenSlot = true ∧ s.freeCount = 2 ∧ s.store.storeLow = .armed ∧
     s.enabled .storeLow = true ∧ s.notices.queue = []) ∧
    (taking recordOpenSlot house).takesNow .recordOpen 0 recordOpenSlot ∧
    takeReady (taking recordOpenSlot house).store.pocket = some (22, [.ready 23]) ∧
    (taking recordOpenSlot house).store.freeRecords = 0 :: [1, 3, 5] ∧ (∀ j ∈ [1, 3, 5], 0 < j) :=
  ⟨by decide +kernel, by decide +kernel, takes_spec (by decide +kernel), by decide +kernel, rfl, by decide⟩
/-- R50, R24: no block is ready, and the take waits; R25: the take from 2 to 1 against a threshold of 2. -/
theorem test_recordOpen_waits_or_warns :
    (openings50.map fun s => ((after .recordOpen s).channel 0).state) = [.opening, .opening] ∧
    (openings50.map fun s => (after .recordOpen s).store.takeLine) = [[0], [3, 0]] ∧
    (let t := after .recordOpen { lowState with store.stackPtr := BitVec.ofNat 34 (0x270000 + 4 * 64 - 4) }
     noticeKinds t = [(.storeLow, 0xFFFF, 1, 2)] ∧ t.store.storeLow = .raised) := by decide +kernel
theorem test_recordOpen_takes_the_topmost_block :
    let t := after .recordOpen (taking recordOpenSlot house)
    (t.channel 0).state = .recording ∧ (t.channel 0).buffer0.block = 22 ∧ (t.message 0).serial = 13 ∧
    (t.message 0).generation = 1 ∧ (t.mailbox 5).places = 5 ∧ (t.mailbox 5).blocksUsed = 12 ∧
    answer (after .recordOpen (taking (slotOf 1 (le 2 6 ++ le 1 0 ++ le 1 255)) house)) = some (some 5#8) := by decide +kernel

/-- Channel 6 records message 0 of room 5: 4 samples in the filling buffer; or is STOPPED with a write in flight. -/
def recordingHouse (c : Channel) : State :=
  (house.setChannel 6 { c with index := 0 }).setMessage 0 { generation := 1, state := .recording, room := 5, blocks := 1, first := 9 }

/-- RECORD ABANDON of a recording: with a write in flight; with its only block; with a chain, its place granted or not. -/
def abandoned : List State :=
  let s (c : Channel) (blocks : Nat) : State :=
    let h := recordingHouse { c with sampleCount := 4, position := 4 }
    taking (slotOf 3 (le 1 6)) (h.setMessage 0 { h.message 0 with blocks := blocks })
  [s { recording with writes := 1, buffer1 := ⟨8, .writing, []⟩ } 2, s recording 1, s recording 2,
   { s recording 2 with store.releaseLine := [⟨.checkout, 70⟩] }]

/-- The last write of an abandoned recording has finished. -/
def abandonWritten : State :=
  back (.blockWrite 6 false 7) []
    (writingChannel { state := .closing, closing := .abandon, order := some 0, buffer0 := ⟨9, .writing, zeros 512⟩ })

/-- The walk of 2.6 has read its last header, for a cause. -/
def lastWalk (cause : Cause) (rest : List ReleaseEntry) (left : Nat) (st : ChannelState) : State :=
  { (walking 52 1 none32).setChannel 9 { state := st, dir := .record, order := some 0, verdict := .tooShort } with
    store.releaseQueue := ⟨50, 3, 7, cause⟩ :: rest
    ring.inFlight := [{ slot := 0, stage := .executing, copy := slotOf 2 [], result := le 4 3, left := left }] }
/-- RECORD CLOSE of a RECORDING channel whose message has `blocks` blocks. -/
def closes (c : Channel) (blocks : Nat) (line : List Nat) : State :=
  let h := recordingHouse { c with state := .recording, dir := .record, room := 5 }
  taking (slotOf 2 (le 1 6)) { h.setMessage 0 { h.message 0 with blocks := blocks } with store.takeLine := line }

/-- A FULL buffer whose take waits. -/
def fullClose : State := closes { buffer0 := ⟨9, .full, zeros 512⟩, sampleCount := 1008, position := 1008 } 1 [6]

/-- The block that holds no sample, with the blocks of the message: it follows block 3, in a buffer or waiting for one;
it is the first, with a write in flight, with none. -/
def emptyCloses : List (Channel × Nat) :=
  let h := blockHeader 9 0 16 false 1008
  [({ buffer0 := ⟨3, .writing, []⟩, buffer1 := ⟨9, .filling, zeros 512⟩, writes := 1, position := 1008, lastBlock := some (3, h) }, 2),
   ({ buffer0 := ⟨3, .writing, []⟩, buffer1 := ⟨4, .writing, []⟩, writes := 2, position := 2016, waitingBlock := some 9
      lastBlock := some (4, h) }, 3),
   ({ buffer0 := ⟨9, .filling, zeros 512⟩, writes := 1 }, 1), ({ buffer0 := ⟨9, .filling, zeros 512⟩ }, 1)]

theorem witness_RecordEndsEnterClosing :
    (takes fullClose .recordClose (slotOf 2 (le 1 6)) = true ∧ (fullClose.channel 6).bufferIn .full = some false ∧
      (fullClose.channel 6).state = .recording) ∧
    (∀ x ∈ emptyCloses, let s := closes x.1 x.2 []
      let c := s.channel 6
      takes s .recordClose (slotOf 2 (le 1 6)) = true ∧ c.state = .recording ∧ s.store.takeLine = [] ∧
      c.bufferIn .full = none ∧ c.sampleCount = 0 ∧ (s.message 0).blocks = x.2 ∧
      ((c.bufferIn .filling).isSome = true ∨ (c.bufferIn .filling = none ∧ c.waitingBlock = some 9)) ∧
      ((1 < x.2 ∧ c.lastBlock ≠ none) ∨ (x.2 ≤ 1 ∧ 0 < c.writes) ∨
        (x.2 ≤ 1 ∧ c.writes = 0 ∧ c.stopReason ≠ .checkedOut ∧ c.checkedOut = false ∧ c.position = 0 ∧
          c.release = .none ∧ (s.message 0).state = .recording ∧ (s.message 0).readers = 0))) ∧
    (let s := taking (slotOf 2 (le 1 6)) (recordingHouse { recording with sampleCount := 4, position := 4 })
     s.takesNow .recordClose 0 (slotOf 2 (le 1 6)) ∧ (s.channel 6).state = .recording ∧ (s.channel 6).bufferIn .full = none ∧
     (s.channel 6).bufferIn .filling = some false ∧ 0 < (s.channel 6).sampleCount) ∧
    (let s := taking (slotOf 3 (le 1 6)) (recordingHouse { state := .stopped, dir := .record, writes := 1 })
     s.takesNow .recordAbandon 0 (slotOf 3 (le 1 6)) ∧ (s.channel 6).state = .stopped ∧ 0 < (s.channel 6).writes) ∧
    (∀ x ∈ abandoned, x.takesNow .recordAbandon 0 (slotOf 3 (le 1 6)) ∧ (x.channel 6).state = .recording ∧
      (∀ k ∈ x.store.takeLine, k = 6) ∧ (x.channel 6).release = .none ∧ (x.message 0).state = .recording ∧
      (x.message 0).readers = 0) ∧
    (let s := abandonWritten
     s.out = {} ∧ s.returnOf Source.isBlockWrite = some ⟨.blockWrite 6 false 7, []⟩ ∧ (s.channel 6).closing = .abandon ∧
     (s.channel 6).writes = 1 ∧ (s.channel 6).release = .none ∧ (s.entryOf 0).any (fun e => decide (e.stage = .executing)) = true ∧
     (s.message 3).state = .recording ∧ (s.message 3).readers = 0 ∧ 0 < (s.message 3).blocks ∧ s.grantsAtOnce 1 = true) ∧
    (∀ cause ∈ [Cause.order 0, .channel 9, .silent], ∀ rest ∈ [[], [⟨20, 2, 8, .silent⟩]], ∀ left ∈ [1, 2],
      let s := lastWalk cause rest left .closing
      s.out = {} ∧ (s.returnOf Source.isWalk).isSome = true ∧ s.store.walk = some ⟨52, 1⟩ ∧
      s.store.releaseQueue = ⟨50, 3, 7, cause⟩ :: rest ∧ s.store.takeLine = [] ∧ (s.entryOf 0).isSome = true ∧
      (s.channel 9).state = .closing ∧ (s.channel 9).order = some 0 ∧
      ((lastWalk cause rest left .stopped).channel 9).state = .stopped) := by
  refine ⟨by decide +kernel, by decide +kernel, ⟨takes_spec (by decide +kernel), by decide +kernel⟩,
    ⟨takes_spec (by decide +kernel), by decide +kernel⟩, ?_, by decide +kernel, by decide +kernel⟩
  have h : ∀ x ∈ abandoned, takes x .recordAbandon (slotOf 3 (le 1 6)) = true ∧ (x.channel 6).state = .recording ∧
      (∀ k ∈ x.store.takeLine, k = 6) ∧ (x.channel 6).release = .none ∧ (x.message 0).state = .recording ∧
      (x.message 0).readers = 0 := by decide +kernel
  exact fun x hx => ⟨takes_spec (h x hx).1, (h x hx).2⟩
theorem test_recordClose_writes_the_block :
    let t := after .recordClose (order 2 (le 1 6) (recordingHouse { recording with sampleCount := 4, position := 4 }))
    (t.channel 6).state = .closing ∧ (t.message 0).length = 4 ∧
    (t.arbiter.lines.voice.map fun r => r.addr) = (List.range 8).map fun k => 0x300000 + 512 * 9 + 64 * k := by decide +kernel
/-- R58: the rows of a FULL buffer and of a block without samples. -/
theorem test_recordClose_of_each_row :
    (let t := after .recordClose fullClose
     t.store.takeLine = [] ∧ (t.channel 6).buffer0.cond = .writing ∧ (raised t .voice).length = 8) ∧
    (emptyCloses.map fun x =>
      let t := after .recordClose (closes x.1 x.2 [])
      ((t.channel 6).state, (t.message 0).blocks, t.store.pocket.head?, raised t .voice)) =
      [(.closing, 1, some (.ready 9), [.headerPatch 6]), (.closing, 2, some (.ready 9), [.headerPatch 6]),
       (.closing, 0, some (.ready 9), []), (.free, 0, some (.ready 9), [])] ∧
    answer (after .recordClose (closes { buffer0 := ⟨9, .filling, zeros 512⟩ } 1 [])) = some (some (BitVec.ofNat 8 Status.tooShort.code)) := by
  decide +kernel
theorem test_recordAbandon_releases :
    let t := after .recordAbandon (order 3 (le 1 6) (recordingHouse { recording with sampleCount := 4, position := 4 }))
    (t.message 0).state = .free ∧ (t.channel 6).state = .free ∧ t.store.pocket = [.ready 9, .ready 22, .ready 23] ∧
    t.arbiter.lines.voice = [] ∧ answer t = some (some 0#8) := by decide +kernel

/-- R59, R29: an abandon writes nothing, and is answered when its release has ended. -/
theorem test_recordAbandon_waits_for_its_release :
    (let t := after .blockWriteFinish abandonWritten
     t.store.releaseQueue = [⟨9, 2, 3, .channel 6⟩] ∧ raised t .voice = [] ∧
     (t.ring.inFlight.map fun e => e.stage) = [.executing]) ∧
    (let t := after .walkHeaderRead (lastWalk (.channel 9) [] 1 .closing)
     (t.channel 9).state = .free ∧ (t.ring.inFlight.map fun e => e.stage) = [.completing]) := by decide +kernel
/-- 2.12: PLAY OPEN of room 5, NEXT, channel 0. -/
def playOpenSlot (ms : Nat) : List Byte := slotOf 4 (le 2 5 ++ le 2 0xFFFF ++ le 2 0 ++ le 1 0 ++ zeros 1 ++ le 4 ms)

/-- PLAY CLOSE of channel 1 with a disposition. -/
def playCloseSlot (d : Nat) : List Byte := slotOf 5 (le 1 1 ++ le 1 d)

/-- Channel 1 plays message 2, of a state, with readers and blocks. -/
def playedBy (st : MessageState) (readers blocks : Nat) (c : Channel) : State :=
  let s := house.setMessage 2 { house.message 2 with state := st, readers := readers, blocks := blocks }
  let u := if st = .deleting then s.setMailbox 5 { s.mailbox 5 with list := [4, 9, 6] } else s
  u.setChannel 1 { c with dir := .play, index := 2, generation := 3, room := 5 }

/-- PLAY CLOSE with each disposition, of a playback with a fetch in flight and of one that is ENDED. -/
def closings : List (Nat × State) :=
  let c : Channel := { state := .playing, buffer0 := ⟨20, .arrived, [1#8]⟩, buffer1 := ⟨21, .fetching, [2#8]⟩ }
  let e : Channel := { state := .ended }
  [(0, playedBy .heard 1 5 c), (1, playedBy .new 1 5 e), (2, playedBy .heard 1 5 c), (3, playedBy .saved 2 5 e),
   (3, playedBy .new 1 5 c), (3, playedBy .new 1 0 e), (0, playedBy .deleting 2 5 e), (0, playedBy .deleting 1 5 e),
   (3, playedBy .deleting 1 0 e)]
theorem witness_PlayOpenAndClose :
    (∀ ms ∈ [0, 125, 126, 312, 313], (taking (playOpenSlot ms) house).takesNow .playOpen 0 (playOpenSlot ms) ∧
      (taking (playOpenSlot ms) house).headWaits) ∧
    (8 * param (playOpenSlot 125) 16 4 < 1008 ∧ 1008 ≤ 8 * param (playOpenSlot 126) 16 4 ∧
      8 * param (playOpenSlot 312) 16 4 < (house.message 4).length ∧ (house.message 4).length ≤ 8 * param (playOpenSlot 313) 16 4) ∧
    (∀ x ∈ closings, (taking (playCloseSlot x.1) x.2).takesNow .playClose 0 (playCloseSlot x.1) ∧
      (taking (playCloseSlot x.1) x.2).headWaits) ∧
    (closings.map fun x => ((x.2.message 2).state, (x.2.message 2).readers, (x.2.message 2).blocks)) =
      [(.heard, 1, 5), (.new, 1, 5), (.heard, 1, 5), (.saved, 2, 5), (.new, 1, 5), (.new, 1, 0), (.deleting, 2, 5),
       (.deleting, 1, 5), (.deleting, 1, 0)] := by
  have k : ∀ ms ∈ [0, 125, 126, 312, 313], takes (taking (playOpenSlot ms) house) .playOpen (playOpenSlot ms) = true := by
    decide +kernel
  have c : ∀ x ∈ closings, takes (taking (playCloseSlot x.1) x.2) .playClose (playCloseSlot x.1) = true ∧
      (taking (playCloseSlot x.1) x.2).host.head = none ∧ (taking (playCloseSlot x.1) x.2).host.fifo = [] ∧
      (taking (playCloseSlot x.1) x.2).host.waiting = [] ∧ (taking (playCloseSlot x.1) x.2).host.loads = [] := by decide +kernel
  exact ⟨fun ms h => ⟨takes_spec (k ms h), .inr ⟨rfl, rfl, rfl, rfl⟩⟩, by decide +kernel,
    fun x h => ⟨takes_spec (c x h).1, .inr (c x h).2⟩, by decide +kernel⟩
/-- 1.13: an offset of 312 ms is o = 2496: two headers are to be read before the block. -/
theorem test_playOpen_walks_to_its_offset :
    let t := after .playOpen (taking (playOpenSlot 312) house)
    ((t.channel 0).walkLeft, (t.channel 0).discard, (t.channel 0).position) = (2, 480, 2496) ∧
    raised t .voice = [.offsetWalk 0] := by decide +kernel
theorem test_playOpen_next_plays_the_head :
    let t := after .playOpen (taking (playOpenSlot 0) house)
    (t.channel 0).index = 4 ∧ (t.message 4).readers = 1 ∧ (t.channel 0).state = .opening ∧
    (t.arbiter.lines.voice.map fun r => r.addr) = (List.range 8).map fun k => 0x300000 + 512 * 30 + 64 * k := by decide +kernel
/-- 2.12: PLAY CLOSE with HEARD of the urgent message: the list M9, M4, M6 (here with M2 still listed), the lamp STEADY. -/
theorem test_playClose_heard :
    let s := (house.setMessage 4 { house.message 4 with readers := 1 }).setChannel 1 { state := .playing, dir := .play, index := 4 }
    let t := after .playClose (taking (playCloseSlot 1) s)
    (t.mailbox 5).list = [9, 2, 4, 6] ∧ (t.mailbox 5).counts = (1, 0, 2, 1) ∧ (t.lampOf 5).pattern = .steady ∧
    (t.channel 1).state = .free := by decide +kernel

/-- The two orders that move a message, with a handle. -/
def moveSlot (code i g : Nat) : List Byte := slotOf code (le 2 i ++ le 2 g)

theorem witness_SaveAndMarkNewMoveTheMessage :
    (∀ x ∈ [(4, 1), (6, 1)], takes (taking (moveSlot 6 x.1 x.2) house) .messageSave (moveSlot 6 x.1 x.2) = true) ∧
    (∀ x ∈ [(2, 3), (9, 2)], takes (taking (moveSlot 7 x.1 x.2) house) .messageMarkNew (moveSlot 7 x.1 x.2) = true) := by
  decide +kernel
theorem test_messageSave_moves :
    let t := after .messageSave (taking (moveSlot 6 9 2) house)
    (t.message 9).state = .saved ∧ (t.mailbox 5).list = [4, 2, 6, 9] ∧ resultOf t 1 = [some 2#8] := by decide +kernel
theorem test_messageMarkNew_keeps_arrival_order :
    let t := after .messageMarkNew (taking (moveSlot 7 2 3) house)
    (t.mailbox 5).list = [4, 2, 9, 6] ∧ (t.mailbox 5).counts = (3, 1, 0, 1) ∧ resultOf t 1 = [some 3#8] := by decide +kernel
theorem witness_MessageDeleteReleasesTheMessage :
    takes (taking (moveSlot 8 2 3) house) .messageDelete (moveSlot 8 2 3) = true ∧
    takes (taking (moveSlot 8 2 3) reader) .messageDelete (moveSlot 8 2 3) = true ∧
    takes (taking (moveSlot 8 2 3) (house.setMessage 2 { house.message 2 with blocks := 0 })) .messageDelete (moveSlot 8 2 3) = true := by
  decide +kernel
/-- 2.12: MESSAGE DELETE (2, 3) while channel 1 plays it. -/
theorem test_messageDelete_deferred :
    let t := after .messageDelete (taking (moveSlot 8 2 3) reader)
    (t.mailbox 5).list = [4, 9, 6] ∧ (t.mailbox 5).counts = (2, 1, 0, 1) ∧ (t.mailbox 5).places = 3 ∧
    (t.message 2).state = .deleting ∧ t.store.releaseQueue = [] ∧ resultOf t 4 = allLanes (le 4 5) := by decide +kernel
theorem test_messageDelete_queues_the_chain :
    let t := after .messageDelete (taking (moveSlot 8 2 3) house)
    t.store.releaseQueue = [⟨20, 5, 2, .order 0⟩] ∧ (t.ring.inFlight.map fun e => (e.stage, e.left)) = [(.executing, 1)] := by
    decide +kernel

/-- MAILBOX PURGE of room 5: 0 is ALL, 1 is HEARD. -/
def purgeSlot (scope : Nat) : List Byte := slotOf 9 (le 2 5 ++ le 1 scope)

/-- Room 5 with a reader on each message. -/
def readHouse : State := [2, 4, 6, 9].foldl (fun s i => s.setMessage i { s.message i with readers := 1 }) house

/-- A release entry of a purge ends, which waits for `left` of them. -/
def purgeEnds (left : Nat) : State :=
  back .walkHeader (blockHeader none32 0 16 false 1008)
    { house with
      store.releaseQueue := [⟨20, 5, 2, .order 0⟩], store.walk := some ⟨24, 1⟩
      ring.inFlight :=
        [{ slot := 0, stage := .executing, copy := purgeSlot 0, left := left, deferred := true, result := le 2 4 ++ le 2 1 }] }

/-- The list of 2.12 is in play order, and its counts are those kept. -/
theorem witness_house_list :
    house.inPlayOrder (house.mailbox 5).list ∧ (house.mailbox 5).counts = house.countsOf (house.mailbox 5).list ∧
    (house.mailbox 5).list.Nodup := by
  refine ⟨?_, by decide +kernel, by decide +kernel⟩
  unfold State.inPlayOrder State.standsBefore
  decide +kernel

theorem witness_PurgeReleasesItsScope :
    (∀ h ∈ [house, readHouse, house.setMailbox 5 {}], ∀ k ∈ [0, 1],
      takes (taking (purgeSlot k) h) .mailboxPurge (purgeSlot k) = true ∧
      ∀ i ∈ (h.mailbox 5).list, (h.message i).room = 5 ∧ (h.message i).state.listed = true) ∧
    (∀ n ∈ [1, 2], let s := purgeEnds n
      s.out = {} ∧ (s.returnOf Source.isWalk).isSome = true ∧ s.store.walk = some ⟨24, 1⟩ ∧
      s.store.releaseQueue = [⟨20, 5, 2, .order 0⟩] ∧ s.store.takeLine = [] ∧
      (s.entryOf 0).map (fun e => (e.stage, e.left)) = some (.executing, n)) := by decide +kernel
/-- R42: four releases to wait for; with every message read, DONE at once with the DEFERRED flag, 4 and 4. -/
theorem test_mailboxPurge_results :
    ((after .mailboxPurge (taking (purgeSlot 0) house)).entryOf 0).map (fun e => (e.left, e.deferred, e.result))
      = some (4, false, le 2 4 ++ le 2 0) ∧
    resultOf (after .mailboxPurge (taking (purgeSlot 0) readHouse)) 4 = allLanes (le 2 4 ++ le 2 4) ∧
    resultOf (after .walkHeaderRead (purgeEnds 1)) 4 = allLanes (le 2 4 ++ le 2 1) := by decide +kernel
theorem test_mailboxPurge_heard :
    let t := after .mailboxPurge (taking (purgeSlot 1) house)
    (t.mailbox 5).list = [4, 9, 6] ∧ t.store.releaseQueue = [⟨20, 5, 2, .order 0⟩] ∧
    (after .mailboxPurge (taking (purgeSlot 0) house)).store.releaseQueue.length = 4 := by decide +kernel

/-- The lamp orders on the room, on the floor. -/
def overrideSlot (kind value o : Nat) : List Byte := slotOf 10 (le 1 kind ++ zeros 1 ++ le 2 value ++ le 1 o)
def clearSlot (kind value : Nat) : List Byte := slotOf 11 (le 1 kind ++ zeros 1 ++ le 2 value)

theorem witness_LampOrdersActOnTheirSelection :
    (let s := taking (overrideSlot 0 6 2) house
     takes s .lampOverride (overrideSlot 0 6 2) = true ∧ s.orderRooms (overrideSlot 0 6 2) = some [6] ∧
     overrideOf (param (overrideSlot 0 6 2) 12 1) = some .testOn) ∧
    (let s := taking (clearSlot 1 0) house
     takes s .lampFaultClear (clearSlot 1 0) = true ∧ s.orderRooms (clearSlot 1 0) = some (List.range 64)) := by decide +kernel
/-- 5.6: TEST-ON for a VACANT room. -/
theorem test_lampOverride_test_on :
    let t := after .lampOverride (taking (overrideSlot 0 6 2) house)
    (t.lampOf 6).pattern = .steady ∧ (t.lampOf 6).override = .testOn ∧ t.lamp.marks = [6] ∧
    resultOf t 4 = allLanes (le 2 1 ++ le 2 1) := by decide +kernel
theorem test_lampFaultClear_counts :
    let t := after .lampFaultClear (taking (clearSlot 1 0) (house.setLamp 7 { latch := .stuck, mismatch := 3 }))
    t.lampOf 7 = {} ∧ resultOf t 4 = allLanes (le 2 64 ++ le 2 1) := by decide +kernel

/-- FOLIO ADJUST of a place of room 5, and FOLIO RELEASE of serial 71. -/
def adjustSlot (place : Nat) (amount : Int) : List Byte := slotOf 12 (le 2 5 ++ le 1 place ++ zeros 1 ++ le 2 7 ++ zeros 2 ++ leInt 4 amount)
def releaseSlot : List Byte := slotOf 13 (le 2 5 ++ zeros 2 ++ le 4 71)

/-- The oldest queue entry has been written; its order waits for `left` of them. -/
def folioQueue (order : Option Nat) (left : Nat) : State :=
  back .folioQueue []
    { house with rating.queue := [⟨0x260000, [], order⟩], rating.queueGranted := 1
                 ring.inFlight := [{ slot := 0, stage := .executing, copy := adjustSlot 0 5, left := left }] }

/-- The first of `n` queue entries is at the arbiter. -/
def queueGrant (n : Nat) : State :=
  offered .rating { source := .folioQueue, write := true, addr := 0x260000, beats := 1, lanes := allLanes (zeros 8) }
    { base with rating.queue := List.replicate n ⟨0x260040, allLanes (zeros 8), none⟩, rating.queueRaised := true }

/-- The call of 6.8 ends when its folio is CLOSED, is gone, or was none of a room. -/
def lateTrunk : State :=
  (trunkWrite 3#8 answered 11985 701835).setFolios 7
    ⟨some { serial := 50 }, some { serial := 41, total := 30, records := [9] }, false⟩
def unbilledTrunk : State := (trunkWrite 3#8 answered 11985 701835).setFolios 7 ⟨some { serial := 50 }, none, false⟩
def noRoomTrunk : State := trunkWrite 3#8 { answered with room := 64 } 11985 701835
def noSerialTrunk : State := trunkWrite 3#8 { answered with serial := 0 } 11985 701835

theorem witness_FolioOrdersKeepTheAccounts :
    (∀ p ∈ [0, 1], takes (taking (adjustSlot p (-30)) house) .folioAdjust (adjustSlot p (-30)) = true ∧
      ((house.folios 5).place (orderPlace (adjustSlot p (-30)))).isSome = true ∧
      ((house.folios 5).place (orderPlace (adjustSlot p (-30)))).all (fun f => decide (f.entriesNeeded ≤ 64 - house.rating.queue.length)) = true) ∧
    house.rating.freePool = 1 :: [2, 3] ∧
    (∀ s ∈ [{ house with rating.freePool := [] }, { house with rating.queue := List.replicate 63 ⟨0x260000, [], none⟩ }],
      takes (taking (adjustSlot 0 5) s) .folioAdjust (adjustSlot 0 5) = true ∧
      (s.rating.freePool = [] ∨ 64 - s.rating.queue.length < 2) ∧ s.enabled .poolFull = true ∧ s.notices.queue = []) ∧
    takes (taking releaseSlot house) .folioRelease releaseSlot = true ∧ (house.folios 5).closed.isSome = true ∧
    (∀ o ∈ [none, some 0], ∀ n ∈ [1, 2], (folioQueue o n).out = {} ∧ (folioQueue o n).rating.queue = [⟨0x260000, [], o⟩] ∧
      ((folioQueue o n).returnOf Source.isFolioQueue).isSome = true ∧
      ((folioQueue o n).entryOf 0).any (fun e => decide (e.left = n) && decide (e.stage = .executing)) = true) ∧
    (∀ n ∈ [1, 2], (queueGrant n).out = {} ∧ (queueGrant n).decision.isSome = true ∧
      ((queueGrant n).granted.map fun r => r.source) = some .folioQueue ∧
      ((queueGrant n).rating.queue[(queueGrant n).rating.queueGranted + 1]?).isSome = decide (n = 2)) ∧
    (∀ x ∈ [(lateTrunk, 7, 41), (unbilledTrunk, 7, 41), (noRoomTrunk, 64, 41), (noSerialTrunk, 7, 0)],
      x.1.out = {} ∧ carries x.1 [.trunk 1 [(0, 3#8)]] = true ∧ x.1.control.state = .active ∧
      (x.1.trunkShadow 1).loaded = true ∧ byteAt (mergeBytes trunkField (x.1.trunkShadow 1).bytes [(0, 3#8)]) 0 = 3#8 ∧
      (x.1.trunk 1).state = .answered ∧ (x.1.trunk 1).incoming = false ∧ x.1.matchTariff (x.1.trunk 1).digits = some 1 ∧
      ((x.1.trunk 1).room, (x.1.trunk 1).serial) = x.2 ∧ x.1.notices.queue.length < 16) ∧
    ((lateTrunk.folios 7).closed.map fun g => (g.serial, g.entriesNeeded)) = some (41, 2) ∧ lateTrunk.rating.freePool = 0 :: [1, 2] ∧
    ((lateTrunk.folios 7).opened.map fun f => f.serial) = some 50 ∧
    ((unbilledTrunk.folios 7).opened.map fun f => f.serial) = some 50 ∧ (unbilledTrunk.folios 7).closed = none := by
  decide +kernel
/-- 7.3: a late charge, and one that no folio holds. -/
theorem test_trunkClear_late_and_unbilled :
    (let t := after .trunkClear lateTrunk
     (t.folios 7).closed = some { serial := 41, total := 100, records := [9, 0], late := 1 } ∧ t.rating.lateCount = 1 ∧
     noticeKinds t = [(.lateCharge, 7, 41, 70)]) ∧
    noticeKinds (after .trunkClear unbilledTrunk) = [(.unbilledCharge, 7, 1, 70)] ∧
    noticeKinds (after .trunkClear noRoomTrunk) = [(.unbilledCharge, 0xFFFF, 1, 70)] := by decide +kernel
theorem test_arbiterDecision_raises_the_next_entry :
    raised (after .arbiterDecision (queueGrant 2)) .rating = [.folioQueue] ∧
    raised (after .arbiterDecision (queueGrant 1)) .rating = [] := by decide +kernel
theorem test_folioAdjust_takes_the_lowest_record :
    let t := after .folioAdjust (taking (adjustSlot 0 (-30)) house)
    (t.folios 5).opened = some { serial := 88, total := 70, records := [0, 1] } ∧ t.rating.queue.length = 2 ∧ answer t = none := by
  decide +kernel
/-- R135, R140: the ADJUST record in record 1, then record 0's link to it. -/
theorem test_folioAdjust_queues_its_writes :
    let t := after .folioAdjust (taking (adjustSlot 0 (-30)) house)
    (t.rating.queue.map fun w => (w.addr, w.lanes.length)) = [(0x260000 + 64, 64), (0x260000 + 56, 8)] ∧
    (t.rating.queue.map fun w => w.lanes.drop 4 |>.take 4) = [allLanes (le 2 5 ++ le 2 0xFFFF), allLanes (le 4 1)] ∧
    noticeKinds (after .folioAdjust (taking (adjustSlot 0 5) { house with rating.freePool := [] })) = [(.poolFull, 5, 88, 1)] := by
  decide +kernel
theorem test_folioRelease_frees_the_records :
    let t := after .folioRelease (taking releaseSlot house)
    (t.folios 5).closed = none ∧ t.rating.freePool = [1, 2, 3, 4, 5] ∧
    resultOf t 11 = allLanes (le 4 2 ++ le 4 530 ++ le 2 1 ++ le 1 0) := by decide +kernel
theorem test_folioQueueWriteDone_answers :
    (after .folioQueueWriteDone (folioQueue (some 0) 1)).rating.queue = [] ∧
    answer (after .folioQueueWriteDone (folioQueue (some 0) 1)) = some (some 0#8) := by decide +kernel

/-- CLOCK SET to a day and a clock of day. -/
def clockSlot (day tenths : Nat) : List Byte := slotOf 14 (le 2 day ++ zeros 2 ++ le 4 tenths)

theorem witness_ClockSetSetsTheClock :
    (taking (clockSlot 7 863999) house).takesNow .clockSet 0 (clockSlot 7 863999) := takes_spec (by decide +kernel)
theorem test_clockSet_and_its_limit :
    (after .clockSet (taking (clockSlot 7 863999) house)).time = ⟨863999, 7#16, 0#32, true⟩ ∧
    answer (after .clockSet (taking (clockSlot 7 864000) house)) = some (some 2#8) ∧
    resultOf (after .clockSet (taking (clockSlot 7 0) house)) 9 = allLanes (le 2 12 ++ zeros 2 ++ le 4 700000 ++ le 1 1) := by
  decide +kernel

/-! ### Notices -/

/-- A notice waits; the ring has room, or is full. -/
def noticeState (consumer : Nat) : State :=
  { base with notices := { queue := [⟨.guard, 197, {}, 5, 6⟩], isOpen := true, producer := 15, consumer := consumer } }

theorem witness_NoticeIsWrittenOrDropped :
    ∀ k ∈ [0, 1], (noticeState k).out = {} ∧ (noticeState k).notices.isOpen = true ∧ (noticeState k).notices.writing = false ∧
      (noticeState k).notices.queue = ⟨.guard, 197, {}, 5, 6⟩ :: [] ∧
      decide (((noticeState k).notices.producer + 1) % (noticeState k).profile.noticeSlots = (noticeState k).notices.consumer) = decide (k = 0) := by
  decide +kernel
theorem test_noticeWrite_writes_or_drops :
    ((after .noticeWrite (noticeState 1)).arbiter.lines.directory.map fun r => (r.source, r.addr)) =
      [(.noticeSlot, 0x240000 + 64 + 32 * 15), (.noticeHeader true, 0x240000)] ∧
    (after .noticeWrite (noticeState 0)).notices.dropped = 1 ∧ (after .noticeWrite (noticeState 0)).notices.overflow = true := by
  decide +kernel

end Sys2Proof.Tests
end

section
/-! PROOFS. Voice coding (chapter 1): the step table of R1, the code of R3, the update of R4. -/

namespace Sys2Proof.Machine

/-! ### The step table (R1) -/

@[simp] theorem stepSize_zero : stepSize 0 = 8 := rfl

/-- The recurrence of R1. The part holds its results as constants, so each of the 63 rows is compared with the next. -/
theorem stepSize_succ : ∀ k < 63, stepSize (k + 1) = stepSize k + stepSize k / 8 + 1 := by decide

/-- The step sizes in order are the rows of the table: no index below 64 reads the default. -/
theorem map_stepSize_range : (List.range 64).map stepSize = stepTable := by decide

/-! ### The code of a sample (R3) -/

theorem encodeSample_of_lt {p x : Int} (i : Nat) (h : x - p < 0) :
    encodeSample p i x = min 7 (2 * (x - p).natAbs / stepSize i) + 8 := if_pos h

theorem encodeSample_of_not_lt {p x : Int} (i : Nat) (h : ¬ x - p < 0) :
    encodeSample p i x = min 7 (2 * (x - p).natAbs / stepSize i) := if_neg h

/-! ### The update (R4) -/

theorem nextPrediction_of_lt {code : Nat} (p : Int) (i : Nat) (h : code < 8) :
    nextPrediction p i code = clampSample (p + quantised (code % 8) (stepSize i)) := by
  simp [nextPrediction, h]

theorem nextPrediction_of_not_lt {code : Nat} (p : Int) (i : Nat) (h : ¬ code < 8) :
    nextPrediction p i code = clampSample (p - quantised (code % 8) (stepSize i)) := by
  simp [nextPrediction, h]

/-- The adjustments as R4 tabulates them, by magnitude. -/
theorem indexAdjust_eq_getD : ∀ m < 8, indexAdjust m = [(-1 : Int), -1, -1, -1, 2, 4, 6, 8].getD m 0 := by decide

/-- Taking the clamped index as a natural number loses nothing: the clamp keeps it from falling below 0. -/
theorem coe_nextIndex (i code : Nat) :
    (nextIndex i code : Int) = max 0 (min 63 ((i : Int) + indexAdjust (code % 8))) :=
  Int.toNat_of_nonneg (le_max_left 0 _)

/-! ### The statement -/

/-- Settles O26: the table row by row, then the code and the prediction by the sign, and the index by the magnitude. -/
theorem codecArithmetic : Obligations.CodecArithmetic := by
  unfold Obligations.CodecArithmetic
  refine ⟨⟨stepSize_zero, stepSize_succ, map_stepSize_range⟩, fun p x i code _ _ => ⟨?code, ?prediction, ?index⟩⟩
  case code =>
    split
    next hneg => exact encodeSample_of_lt i hneg
    next hnonneg => exact encodeSample_of_not_lt i hnonneg
  case prediction =>
    dsimp only
    split
    next hplus => exact nextPrediction_of_lt p i hplus
    next hminus => exact nextPrediction_of_not_lt p i hminus
  case index =>
    have hm : code % 8 < 8 := Nat.mod_lt _ (by decide)
    rw [coe_nextIndex, indexAdjust_eq_getD _ hm]

end Sys2Proof.Machine
end

section
/-! PROOFS. The load limit (5.3, R95): the drive set is a prefix of the candidates listed by precedence, STEADY ones
before flashing ones and each rising, so what the limit keeps comes before what it removes. -/

namespace Sys2Proof.Machine

/-! ### Sets of positions -/

/-- Bit `p` of the word with the single bit `q`. -/
theorem getLsbD_ofNat_two_pow (q p : Nat) :
    (BitVec.ofNat 64 (2 ^ q)).getLsbD p = true ↔ p < 64 ∧ p = q := by
  rw [BitVec.getLsbD_ofNat, Bool.and_eq_true, decide_eq_true_iff, Nat.testBit_two_pow, decide_eq_true_iff,
    eq_comm (a := q)]

theorem positionSet_concat (ps : List Nat) (q : Nat) :
    positionSet (ps ++ [q]) = positionSet ps ||| BitVec.ofNat 64 (2 ^ q) :=
  List.foldl_concat ..

/-- The drive set of 12.8 has bit `p` for each of its positions below 64. -/
@[simp] theorem getLsbD_positionSet (ps : List Nat) (p : Nat) :
    (positionSet ps).getLsbD p = true ↔ p < 64 ∧ p ∈ ps := by
  induction ps using List.reverseRecOn with
  | nil => simp [positionSet]
  | append_singleton qs q ih =>
    rw [positionSet_concat, BitVec.getLsbD_or, Bool.or_eq_true, ih, getLsbD_ofNat_two_pow, List.mem_append,
      List.mem_singleton, and_or_left]

/-! ### Candidates -/

/-- The lamp at position `p` of card `k` is STEADY. -/
def State.steadyAt (s : State) (k p : Nat) : Bool := decide ((s.lampOf (64 * k + p)).pattern = .steady)

@[simp] theorem State.steadyAt_iff (s : State) (k p : Nat) :
    s.steadyAt k p = true ↔ (s.lampOf (64 * k + p)).pattern = .steady := decide_eq_true_iff

@[simp] theorem State.steadyAt_eq_false_iff (s : State) (k p : Nat) :
    s.steadyAt k p = false ↔ (s.lampOf (64 * k + p)).pattern ≠ .steady := decide_eq_false_iff_not

theorem State.lt_of_mem_candidates {s : State} {k c p : Nat} (h : p ∈ s.candidates k c) : p < 64 :=
  List.mem_range.mp (List.mem_of_mem_filter h)

theorem State.candidates_rising (s : State) (k c : Nat) : (s.candidates k c).Pairwise (· < ·) :=
  List.pairwise_lt_range.filter _

/-! ### The order of precedence -/

/-- The candidates of a card in the reverse of R95's order of removal. -/
def State.byPrecedence (s : State) (k c : Nat) : List Nat :=
  (s.candidates k c).filter (s.steadyAt k) ++ (s.candidates k c).filter fun p => !s.steadyAt k p

/-- R95 removes position `p` of card `k` before position `q`: `q` is STEADY if `p` is, and of two alike `q` is the
lower. -/
def State.Outranks (s : State) (k q p : Nat) : Prop :=
  ((s.lampOf (64 * k + p)).pattern = .steady → (s.lampOf (64 * k + q)).pattern = .steady) ∧
  (((s.lampOf (64 * k + p)).pattern = .steady ↔ (s.lampOf (64 * k + q)).pattern = .steady) → q < p)

theorem State.outranks_of_lt {s : State} {k q p : Nat} (hlt : q < p)
    (hsteady : (s.lampOf (64 * k + p)).pattern = .steady → (s.lampOf (64 * k + q)).pattern = .steady) :
    s.Outranks k q p := ⟨hsteady, fun _ => hlt⟩

theorem State.litPositions_eq_take (s : State) (k c : Nat) :
    s.litPositions k c = (s.byPrecedence k c).take s.profile.loadLimit := rfl

theorem State.byPrecedence_perm (s : State) (k c : Nat) : (s.byPrecedence k c).Perm (s.candidates k c) :=
  List.filter_append_perm _ _

/-- In the list by precedence every position outranks those after it. -/
theorem State.byPrecedence_pairwise (s : State) (k c : Nat) : (s.byPrecedence k c).Pairwise (s.Outranks k) := by
  have hrising := s.candidates_rising k c
  refine List.pairwise_append.mpr ⟨?steady, ?flashing, ?across⟩
  case steady =>
    refine (hrising.filter _).imp_of_mem fun hq _ hlt => State.outranks_of_lt hlt fun _ => ?_
    simpa using List.of_mem_filter hq
  case flashing =>
    refine (hrising.filter _).imp_of_mem fun _ hp hlt => State.outranks_of_lt hlt fun hsteady => absurd hsteady ?_
    simpa using List.of_mem_filter hp
  case across =>
    intro q hq p hp
    have hq : (s.lampOf (64 * k + q)).pattern = .steady := by simpa using List.of_mem_filter hq
    have hp : (s.lampOf (64 * k + p)).pattern ≠ .steady := by simpa using List.of_mem_filter hp
    exact ⟨fun _ => hq, fun halike => absurd (halike.mpr hq) hp⟩

/-! ### The positions lit -/

theorem State.length_litPositions (s : State) (k c : Nat) :
    (s.litPositions k c).length = min s.profile.loadLimit (s.candidates k c).length := by
  rw [State.litPositions_eq_take, List.length_take, (s.byPrecedence_perm k c).length_eq]

/-- A load limit the candidates do not exceed removes none of them. -/
theorem State.litPositions_perm {s : State} {k c : Nat} (h : (s.candidates k c).length ≤ s.profile.loadLimit) :
    (s.litPositions k c).Perm (s.candidates k c) := by
  rw [← (s.byPrecedence_perm k c).length_eq] at h
  rw [State.litPositions_eq_take, List.take_of_length_le h]
  exact s.byPrecedence_perm k c

theorem State.mem_candidates_of_mem_litPositions {s : State} {k c p : Nat} (h : p ∈ s.litPositions k c) :
    p ∈ s.candidates k c :=
  (s.byPrecedence_perm k c).mem_iff.mp (List.mem_of_mem_take h)

/-- A position lit outranks every candidate removed. -/
theorem State.outranks_of_removed {s : State} {k c p q : Nat} (hp : p ∈ s.candidates k c)
    (hremoved : p ∉ s.litPositions k c) (hq : q ∈ s.litPositions k c) : s.Outranks k q p := by
  have hsplit := List.take_append_drop s.profile.loadLimit (s.byPrecedence k c)
  rw [← State.litPositions_eq_take] at hsplit
  have hpairs := s.byPrecedence_pairwise k c
  have hp : p ∈ s.byPrecedence k c := (s.byPrecedence_perm k c).mem_iff.mpr hp
  rw [← hsplit] at hpairs hp
  have hdropped := (List.mem_append.mp hp).resolve_left hremoved
  obtain ⟨-, -, hacross⟩ := List.pairwise_append.mp hpairs
  exact hacross q hq p hdropped

/-- The set sent has the bits of the positions lit at its frame's place in the cycle. -/
theorem State.getLsbD_driveSet (s : State) (k : Nat) (f : BitVec 32) (p : Nat) :
    (s.driveSet k f).getLsbD p = true ↔ p ∈ s.litPositions k (f.toNat % 16) := by
  rw [State.driveSet, getLsbD_positionSet]
  exact and_iff_right_of_imp fun h => State.lt_of_mem_candidates (State.mem_candidates_of_mem_litPositions h)

/-! ### The statement -/

/-- Settles O37: the positions lit are a prefix of the candidates by precedence. -/
theorem loadLimitBoundsTheDriveSet : Obligations.LoadLimitBoundsTheDriveSet := by
  unfold Obligations.LoadLimitBoundsTheDriveSet
  intro s k c
  refine ⟨s.length_litPositions k c, State.litPositions_perm, fun _ => State.mem_candidates_of_mem_litPositions,
    fun _ hp hremoved _ hq => State.outranks_of_removed hp hremoved hq, ?bits⟩
  case bits =>
    rintro f p rfl
    exact s.getLsbD_driveSet k f p

end Sys2Proof.Machine
end

section
/-! PROOFS. What a command can answer, said once (`exec_next`), and what holds of every command: the invariant, the
queue, the time base, the part state, and memory (8.1, 9.1, 11.1, 11.4, 11.6). -/

namespace Sys2Proof.Machine

/-! ### What a command can answer -/

/-- The rows that are the leaving of the write at the head (log entry 8). -/
def leavesRow : Instr → Bool
  | .hostWrite | .guardedWrite | .checkIn | .creditLimitChange | .mailboxQuotaChange | .lampPresentChange | .trunkSeize
  | .trunkAnswer | .trunkClear | .trunkIdleWrite | .trunkUnknownState | .tariffWrite | .orderPost | .orderCancel
  | .consumerIndexWrite | .overflowFlagClear | .format | .adopt | .stop => true
  | _ => false

/-- The effect a command has on the state that begins its step, when its moment has come in `s`: one constructor for
each effect of the table. Power-on and RESET, which end no step, are apart. -/
inductive Acts (s : State) : Instr → (State → State) → Prop where
  | present (r : HostRequest) : Acts s (.hostRequest r) (present r)
  | leaves {c : Instr} (h : leavesRow c = true) : Acts s c leaveNow
  | readData (r : Returned) : Acts s .hostReadData fun t => readReturned r (takeReturn Source.isHostPart t)
  | recordWrite (h : HostRequest × HeadWork) : Acts s .recordApertureWrite (voiceWrite h.1 h.2)
  | playRead (h : HostRequest × HeadWork) : Acts s .playApertureRead (serveHead h.1 none [] h.2)
  | stallEnds (x : HostRequest × HeadWork × Nat × List Nat) : Acts s .stallExpiry (expireStall x)
  | holds (h : HostRequest × HeadWork) : Acts s .checkoutWriteHeld (holdCheckout h)
  | checkoutLeaves (h : HostRequest × HeadWork) : Acts s .checkout (leaveCheckout h.1 h.2)
  | checkoutGranted (h : HostRequest × HeadWork) : Acts s .checkout (checkoutGranted h.1 h.2)
  | validation (k : StartKind) : Acts s .profileValidation (endValidation k)
  | loadRead (r : Returned) : Acts s .loadReadReturn fun t => loadReturned r (takeReturn Source.isLoad t)
  | workBegins : Acts s .startingWorkBegin beginWork
  | slotRead (r : Returned) : Acts s .adoptSlotRead (workData adoptSlot r)
  | recordRead (r : Returned) : Acts s .adoptRecordRead (workData adoptRecord r)
  | headerRead (r : Returned) : Acts s .adoptHeaderRead (workData adoptHeader r)
  | folioRead (r : Returned) : Acts s .adoptFolioRead (workData adoptFolio r)
  | startingEnds : Acts s .endOfStarting endStarting
  | tenth : Acts s .tenthSecondEvent tenth
  | receives (bytes : List Byte) (w : Sweep) : Acts s (.returnFrame bytes) (receive bytes w)
  | windowCloses (w : Sweep) : Acts s .returnWindowClose (closeWindow w)
  | windowOpens (w : Sweep) : Acts s .returnWindowOpen (openWindow w)
  | grants (d : Decision) (r : Request) (hd : s.decision = some d) (hr : s.granted = some r) :
      Acts s .arbiterDecision (grant d r)
  | acknowledges (c : Carried) : Acts s .memoryAcknowledge fun t => acknowledged c (freePort t)
  | mirror (e : MirrorEngine) (r : Nat) : Acts s (.mirrorWriteRaise e) (raiseMirror e r)
  | pops (h : s.canPop = true) : Acts s .stackPop startPop
  | popReturns (r : Returned) : Acts s .popReadReturn fun t => popReturned r.data (takeReturn Source.isPop t)
  | pushes : Acts s .stackPush startPush
  | walks (r : Returned) : Acts s .walkHeaderRead fun t => walkReturned r.data (takeReturn Source.isWalk t)
  | releases (ch : Nat) : Acts s .releaseLineGrant fun t => startChannelRelease ch (leaveReleaseLine t)
  | blockWrite (r : Returned) : Acts s .blockWriteFinish fun t => blockFinished r (takeReturn Source.isBlockWrite t)
  | patch (r : Returned) : Acts s .headerPatchFinish fun t => patchFinished r (takeReturn Source.isPatch t)
  | fetch (r : Returned) : Acts s .blockFetchArrival fun t => fetchFinished r (takeReturn Source.isFetch t)
  | offsetWalk (r : Returned) : Acts s .offsetWalkRead fun t => offsetRead r (takeReturn Source.isOffsetWalk t)
  | folioWrite : Acts s .folioQueueWriteDone fun t => folioEntryWritten (takeReturn Source.isFolioQueue t)
  | takes (h : s.canTake = true) : Acts s .takeStart startTake
  | takeReturns (r : Returned) : Acts s .takeReadReturn fun t => takeData r (takeReturn Source.isTake t)
  | takePlaces (x : Nat × Nat × List Byte) : Acts s .takePlacesGranted (takeGranted x.1 x.2.1 x.2.2)
  | notice (n : Notice) : Acts s .noticeWrite (writeNotice n)
  | order (o : Order) (x : Nat × List Byte) : Acts s o.row fun t => takeOrder x.1 x.2 (takeReturn Source.isTake t)
  | orderPlaces (o : Order) (x : Nat × Nat × List Byte) : Acts s o.row (takeGranted x.1 x.2.1 x.2.2)

theorem stepIf_acts {c : Instr} {b : Bool} {f : State → State} {s t : State} (h : stepIf b f s = .next t)
    (hf : b = true → Acts s c f) : t = s ∨ ∃ f, Acts s c f ∧ t = taken f s :=
  (stepIf_next h).symm.imp_right fun ⟨hb, ht⟩ => ⟨f, hf hb, ht⟩

theorem stepOn_acts {c : Instr} {α : Type} {o : Option α} {f : α → State → State} {s t : State}
    (h : stepOn o f s = .next t) (hf : ∀ a, o = some a → Acts s c (f a)) : t = s ∨ ∃ f, Acts s c f ∧ t = taken f s :=
  (stepOn_next h).symm.imp_right fun ⟨a, ha, ht⟩ => ⟨f a, hf a ha, ht⟩

theorem stepOrder_acts {o : Order} {s t : State} (h : stepOrder o s = .next t) :
    t = s ∨ ∃ f, Acts s o.row f ∧ t = taken f s := by
  unfold stepOrder at h
  split at h
  next x _ => exact .inr ⟨_, .order o x, (Host.Outcome.next.inj h).symm⟩
  next => exact stepOn_acts h fun x _ => .orderPlaces o x

theorem execCheckout_acts {s t : State} (h : execCheckout s = .next t) :
    t = s ∨ ∃ f, Acts s .checkout f ∧ t = taken f s := by
  unfold execCheckout at h
  split at h
  next x _ => exact .inr ⟨_, .checkoutLeaves x, (Host.Outcome.next.inj h).symm⟩
  next => exact stepOn_acts h fun x _ => .checkoutGranted x

theorem turn_eq_some {s : State} {x : Decision × Request} (h : s.turn = some x) :
    s.decision = some x.1 ∧ s.granted = some x.2 := by
  unfold State.turn at h
  split at h
  next hd hr => cases h; exact ⟨hd, hr⟩
  next => cases h

theorem execHostRequest_acts {r : HostRequest} {s t : State} (h : execHostRequest r s = .next t) :
    t = s ∨ ∃ f, Acts s (.hostRequest r) f ∧ t = taken f s := by
  unfold execHostRequest at h
  split at h
  · cases h
  · exact .inr ⟨_, .present r, (Host.Outcome.next.inj h).symm⟩

/-- All that a command can answer: power-on and RESET restart the part; any other leaves the state as it is, or takes
place with the effect its row has. -/
theorem exec_next {c : Instr} {s t : State} (h : exec c s = .next t) :
    (∃ p, (c = .powerOn p ∨ c = .reset p) ∧ t = restart p s) ∨ t = s ∨ ∃ f, Acts s c f ∧ t = taken f s := by
  cases c
  case powerOn p => exact .inl ⟨p, .inl rfl, (Host.Outcome.next.inj h).symm⟩
  case reset p => exact .inl ⟨p, .inr rfl, (Host.Outcome.next.inj h).symm⟩
  all_goals refine .inr ?_
  case hostRequest r => exact execHostRequest_acts h
  case hostReadData => exact stepOn_acts h fun r _ => .readData r
  case recordApertureWrite => exact stepOn_acts h fun x _ => .recordWrite x
  case playApertureRead => exact stepOn_acts h fun x _ => .playRead x
  case stallExpiry => exact stepOn_acts h fun x _ => .stallEnds x
  case checkoutWriteHeld => exact stepOn_acts h fun x _ => .holds x
  case checkout => exact execCheckout_acts h
  case profileValidation => exact stepOn_acts h fun k _ => .validation k
  case loadReadReturn => exact stepOn_acts h fun r _ => .loadRead r
  case startingWorkBegin => exact stepIf_acts h fun _ => .workBegins
  case adoptSlotRead => exact stepOn_acts h fun r _ => .slotRead r
  case adoptRecordRead => exact stepOn_acts h fun r _ => .recordRead r
  case adoptHeaderRead => exact stepOn_acts h fun r _ => .headerRead r
  case adoptFolioRead => exact stepOn_acts h fun r _ => .folioRead r
  case endOfStarting => exact stepIf_acts h fun _ => .startingEnds
  case tenthSecondEvent => exact .inr ⟨_, .tenth, (Host.Outcome.next.inj h).symm⟩
  case returnFrame bytes => exact stepOn_acts h fun w _ => .receives bytes w
  case returnWindowClose => exact stepOn_acts h fun w _ => .windowCloses w
  case returnWindowOpen => exact stepOn_acts h fun w _ => .windowOpens w
  case arbiterDecision =>
    exact stepOn_acts h fun x hx => .grants x.1 x.2 (turn_eq_some hx).1 (turn_eq_some hx).2
  case memoryAcknowledge => exact stepOn_acts h fun c _ => .acknowledges c
  case mirrorWriteRaise e => exact stepOn_acts h fun r _ => .mirror e r
  case stackPop => exact stepIf_acts h fun hp => .pops hp
  case popReadReturn => exact stepOn_acts h fun r _ => .popReturns r
  case stackPush => exact stepIf_acts h fun _ => .pushes
  case walkHeaderRead => exact stepOn_acts h fun r _ => .walks r
  case releaseLineGrant => exact stepOn_acts h fun ch _ => .releases ch
  case blockWriteFinish => exact stepOn_acts h fun r _ => .blockWrite r
  case headerPatchFinish => exact stepOn_acts h fun r _ => .patch r
  case blockFetchArrival => exact stepOn_acts h fun r _ => .fetch r
  case offsetWalkRead => exact stepOn_acts h fun r _ => .offsetWalk r
  case folioQueueWriteDone => exact stepOn_acts h fun _ _ => .folioWrite
  case takeStart => exact stepIf_acts h fun ht => .takes ht
  case takeReadReturn => exact stepOn_acts h fun r _ => .takeReturns r
  case takePlacesGranted => exact stepOn_acts h fun x _ => .takePlaces x
  case noticeWrite => exact stepOn_acts h fun n _ => .notice n
  case recordOpen => exact stepOrder_acts (o := .recordOpen) h
  case recordClose => exact stepOrder_acts (o := .recordClose) h
  case recordAbandon => exact stepOrder_acts (o := .recordAbandon) h
  case playOpen => exact stepOrder_acts (o := .playOpen) h
  case playClose => exact stepOrder_acts (o := .playClose) h
  case messageSave => exact stepOrder_acts (o := .messageSave) h
  case messageMarkNew => exact stepOrder_acts (o := .messageMarkNew) h
  case messageDelete => exact stepOrder_acts (o := .messageDelete) h
  case mailboxPurge => exact stepOrder_acts (o := .mailboxPurge) h
  case lampOverride => exact stepOrder_acts (o := .lampOverride) h
  case lampFaultClear => exact stepOrder_acts (o := .lampFaultClear) h
  case folioAdjust => exact stepOrder_acts (o := .folioAdjust) h
  case folioRelease => exact stepOrder_acts (o := .folioRelease) h
  case clockSet => exact stepOrder_acts (o := .clockSet) h
  all_goals exact stepIf_acts h fun _ => .leaves rfl

/-! ### The invariant -/

/-- Every effect keeps the invariant of the state that begins its step. -/
theorem Acts.good {s : State} {c : Instr} {f : State → State} (h : Acts s c f) (hs : Good s) :
    Good (f (beginStep s)) := by
  have hb := beginStep_good s hs
  cases h with
  | present r => exact present_good r _ hb
  | leaves _ => exact leaveNow_good _ hb
  | readData r => exact readReturned_good r _ (takeReturn_good _ _ hb)
  | recordWrite h => exact voiceWrite_good _ _ _ hb
  | playRead h => exact serveHead_good _ _ _ _ _ hb
  | stallEnds x => exact expireStall_good x _ hb
  | holds h => exact holdCheckout_good h _ hb
  | checkoutLeaves h => exact leaveCheckout_good _ _ _ hb
  | checkoutGranted h => exact checkoutGranted_good _ _ _ hb
  | validation k => exact endValidation_good k _ hb
  | loadRead r => exact loadReturned_good r _ (takeReturn_good _ _ hb)
  | workBegins => exact beginWork_good _ hb
  | slotRead r => exact workData_good _ adoptSlot_good r _ hb
  | recordRead r => exact workData_good _ adoptRecord_good r _ hb
  | headerRead r => exact workData_good _ adoptHeader_good r _ hb
  | folioRead r => exact workData_good _ adoptFolio_good r _ hb
  | startingEnds => exact endStarting_good _ hb
  | tenth => exact tenth_good _ hb
  | receives bytes w => exact receive_good bytes w _ hb
  | windowCloses w => exact closeWindow_good w _ hb
  | windowOpens w => exact openWindow_good w _ hb
  | grants d r _ _ => exact grant_good d r _ hb
  | acknowledges c => exact acknowledged_good c _ (freePort_good _ hb)
  | mirror e r => exact raiseMirror_good e r _ hb
  | pops h => exact startPop_good _ hb h
  | popReturns r => exact popReturned_good _ _ (takeReturn_good _ _ hb)
  | pushes => exact startPush_good _ hb
  | walks r => exact walkReturned_good _ _ (takeReturn_good _ _ hb)
  | releases ch => exact startChannelRelease_good ch _ (leaveReleaseLine_good _ hb)
  | blockWrite r => exact blockFinished_good r _ (takeReturn_good _ _ hb)
  | patch r => exact patchFinished_good r _ (takeReturn_good _ _ hb)
  | fetch r => exact fetchFinished_good r _ (takeReturn_good _ _ hb)
  | offsetWalk r => exact offsetRead_good r _ (takeReturn_good _ _ hb)
  | folioWrite => exact folioEntryWritten_good _ (takeReturn_good _ _ hb)
  | takes h => exact startTake_good _ hb h
  | takeReturns r => exact takeData_good r _ (takeReturn_good _ _ hb)
  | takePlaces x => exact takeGranted_good _ _ _ _ hb
  | notice n => exact writeNotice_good n _ hb
  | order o x => exact takeOrder_good _ _ _ (takeReturn_good _ _ hb)
  | orderPlaces o x => exact takeGranted_good _ _ _ _ hb

theorem reset_inv : Inv State.reset :=
  ⟨rfl, rfl, by decide, by decide, by decide, by decide, by decide, by decide⟩

theorem restart_inv (p : BitVec 3) {s : State} (h : Inv s) : Inv (restart p s) :=
  ⟨memoryAtLoss_wf s h.memory, rfl, reset_inv.fifo, reset_inv.notices, reset_inv.pocket, reset_inv.inFlight,
    reset_inv.queue, reset_inv.clock⟩

/-- Every command keeps the invariant. -/
theorem exec_inv {c : Instr} {s t : State} (h : Inv s) (hx : exec c s = .next t) : Inv t := by
  obtain ⟨p, -, rfl⟩ | rfl | ⟨f, hf, rfl⟩ := exec_next hx
  · exact restart_inv p h
  · exact h
  · exact (finish_good _ (hf.good h.good)).inv (finish_out _)

theorem inv_pending {s : State} (h : Inv s) (q : List Instr) : Inv { s with pending := q } :=
  ⟨h.memory, h.placed, h.fifo, h.notices, h.pocket, h.inFlight, h.queue, h.clock⟩

theorem step_of_cons {c : Instr} {rest : List Instr} {s : State} (h : s.pending = c :: rest) :
    step s = exec c { s with pending := rest } := by
  unfold step; rw [h]

theorem step_of_nil {s : State} (h : s.pending = []) : step s = .next s := by
  unfold step; rw [h]

/-- Settles O2: every queue of the part is empty after reset. -/
theorem resetMeetsTheInvariant : Obligations.ResetMeetsTheInvariant := reset_inv

/-- Settles O3, by the effects of the table: each keeps the invariant but for the outbox, which the end of the step
empties. -/
theorem stepKeepsTheInvariant : Obligations.StepKeepsTheInvariant := by
  intro s t h hs
  cases hp : s.pending with
  | nil => rw [step_of_nil hp] at hs; cases hs; exact h
  | cons c rest => rw [step_of_cons hp] at hs; exact exec_inv (inv_pending h rest) hs

/-- Settles O4. -/
theorem stepRunsTheFrontCommand : Obligations.StepRunsTheFrontCommand :=
  ⟨fun _ _ _ h => step_of_cons h, fun _ h => step_of_nil h⟩
end Sys2Proof.Machine
end

section
/-! PROOFS. What no effect changes but the few that are there to change it: the queue, the straps, the frame counter,
memory, the time base, and the part state (9.1, 11.1, 11.4, 11.6). -/

namespace Sys2Proof.Machine

/-! ### What stays fixed -/

/-- What a reset loses: the burst in flight, and what stands under it (R149, R194). -/
def State.inFlight (s : State) : Option (Bool × Nat × List (Option Byte)) :=
  s.arbiter.port.map fun c => (c.req.write, c.req.addr, c.under)

/-- The lists in force and the two positions (R167 to R169). -/
def State.turns (s : State) : Lists × Nat × Nat := (s.arbiter.lists, s.arbiter.wheelPos, s.arbiter.roundPos)

/-- What no engine changes: what is outside the part's own state, the part state, the burst in flight, and the lists and
positions of the arbiter. -/
def State.fixed (s : State) :
    (List Instr × BitVec 3 × BitVec 32 × Table Byte × TimeBase) × PartState ×
      Option (Bool × Nat × List (Option Byte)) × (Lists × Nat × Nat) :=
  (s.outer, s.control.state, s.inFlight, s.turns)

theorem fixed_of_base {s t : State} (h : t.base = s.base) : t.fixed = s.fixed := by
  unfold State.fixed
  rw [State.outer_of_base h]
  exact congrArg (fun b => (s.outer, b.2.1.state, b.2.2.2.1.port.map fun c => (c.req.write, c.req.addr, c.under),
    (b.2.2.2.1.lists, b.2.2.2.1.wheelPos, b.2.2.2.1.roundPos))) h

theorem fixed_of_steady {s t : State} (h : t.steady = s.steady) : t.fixed = s.fixed :=
  (congrArg State.fixed h : t.steady.fixed = s.steady.fixed)

/-! ### The work of STARTING -/

theorem settleRecord_fixed (i : Nat) (isCut : Bool) (s : State) : (settleRecord i isCut s).fixed = s.fixed := by
  unfold settleRecord; dsimp only; split <;> rfl

theorem startChain_fixed (i : Nat) (s : State) : (startChain i s).2.fixed = s.fixed := by
  unfold startChain; dsimp only; split <;> rfl

theorem startChains_fixed (n i : Nat) (s : State) : (startChains n i s).2.fixed = s.fixed := by
  induction n generalizing i s with
  | zero => rfl
  | succ n ih =>
    unfold startChains
    split
    · rfl
    · dsimp only
      split
      · exact startChain_fixed _ s
      · exact (ih _ _).trans (startChain_fixed _ s)

theorem settleMailbox_fixed (r : Nat) (s : State) : (settleMailbox r s).fixed = s.fixed := by
  unfold settleMailbox
  exact (foldl_keeps State.fixed (fun t i => t.setMessage i _) (fun _ _ => rfl) _ _).trans
    (foldl_keeps State.fixed (fun t i => releaseSurplus i t) (fun _ _ => rfl) _ s)

theorem placeKept_fixed (i : Nat) (s : State) : (placeKept i s).fixed = s.fixed := by
  unfold placeKept; dsimp only; split <;> rfl

theorem rebuildMailboxes_fixed (s : State) : (rebuildMailboxes s).fixed = s.fixed := by
  unfold rebuildMailboxes
  exact (foldl_keeps State.fixed _ (fun t r => settleMailbox_fixed r t) _ _).trans
    (foldl_keeps State.fixed _ (fun t i => placeKept_fixed i t) _ s)

theorem endFolio_fixed (r : Nat) (w : FolioWalk) (isCut : Bool) (s : State) :
    (endFolio r w isCut s).fixed = s.fixed := by
  unfold endFolio; dsimp only; split <;> rfl

theorem endAdopt_fixed (s : State) : (endAdopt s).fixed = s.fixed := by
  unfold endAdopt
  exact (fixed_of_base (notify_base ..)).trans rfl

theorem folioOn_fixed (r : Nat) (w : FolioWalk) (s : State) : (folioOn r w s).2.fixed = s.fixed := by
  unfold folioOn
  dsimp only
  split
  · exact endFolio_fixed ..
  · split
    · split
      · exact endFolio_fixed r w true { s with control.work.folio := w.following }
      · exact endFolio_fixed ..
    · rfl

theorem folioPlaces_fixed (r n : Nat) (w : Option FolioWalk) (s : State) :
    (folioPlaces r n w s).2.fixed = s.fixed := by
  induction n generalizing w s with
  | zero => cases w <;> rfl
  | succ n ih =>
    cases w with
    | none => rfl
    | some w =>
      unfold folioPlaces
      dsimp only
      split
      · exact folioOn_fixed r w s
      · exact (ih _ _).trans (folioOn_fixed r w s)

theorem nextRoomFolios_fixed (s : State) : (nextRoomFolios s).fixed = s.fixed := by
  unfold nextRoomFolios
  dsimp only
  split
  · rfl
  · exact endAdopt_fixed (nextElement s)

theorem folioWork_fixed (w : Option FolioWalk) (s : State) : (folioWork w s).fixed = s.fixed := by
  unfold folioWork
  dsimp only
  split
  · exact folioPlaces_fixed ..
  · exact (nextRoomFolios_fixed _).trans (folioPlaces_fixed ..)

/-- The stages of the work change neither memory, nor time, nor the part state (R189 to R192). -/
theorem nextWork_fixed (n : Nat) (s : State) : (nextWork n s).fixed = s.fixed := by
  induction n generalizing s with
  | zero => rfl
  | succ n ih =>
    unfold nextWork
    dsimp only
    split
    case h_10 =>
      split
      · exact startChains_fixed ..
      · exact (ih _).trans ((rebuildMailboxes_fixed _).trans (startChains_fixed ..))
    case h_13 | h_14 => rfl
    case h_7 =>
      split
      · rfl
      · split
        · rfl
        · exact ih _
    case h_12 => rfl
    all_goals
      split
      · rfl
      · exact ih _


theorem workGranted_fixed (s : State) : (workGranted s).fixed = s.fixed := by
  have he : (workGrantEffect s).fixed = s.fixed := by unfold workGrantEffect; split <;> rfl
  unfold workGranted
  dsimp only
  split
  · exact (folioWork_fixed _ _).trans he
  · exact (nextWork_fixed _ _).trans he

theorem adoptSlot_fixed (data : List Byte) (s : State) : (adoptSlot data s).fixed = s.fixed := by
  unfold adoptSlot
  refine (nextWork_fixed _ _).trans ?_
  split <;> rfl

theorem adoptRecord_fixed (data : List Byte) (s : State) : (adoptRecord data s).fixed = s.fixed := by
  unfold adoptRecord
  exact (nextWork_fixed _ _).trans rfl

theorem endChain_fixed (i : Nat) (isCut : Bool) (b : Nat) (header : List Byte) (s : State) :
    (endChain i isCut b header s).fixed = s.fixed := by
  unfold endChain
  dsimp only
  split
  · exact settleRecord_fixed i isCut s
  · exact (nextWork_fixed _ _).trans (settleRecord_fixed i isCut s)

theorem adoptHeader_fixed (data : List Byte) (s : State) : (adoptHeader data s).fixed = s.fixed := by
  unfold adoptHeader
  dsimp only
  split
  · exact (endChain_fixed _ _ _ _ _).trans rfl
  · split
    · exact (endChain_fixed _ _ _ _ _).trans rfl
    · rfl

theorem adoptFolio_fixed (data : List Byte) (s : State) : (adoptFolio data s).fixed = s.fixed := by
  unfold adoptFolio
  dsimp only
  split
  · exact folioWork_fixed _ s
  · split
    · exact (folioWork_fixed _ _).trans rfl
    · split
      · exact endFolio_fixed ..
      · exact (folioWork_fixed _ _).trans (endFolio_fixed ..)

theorem workData_fixed {f : List Byte → State → State} (hf : ∀ d s, (f d s).fixed = s.fixed) (r : Returned)
    (s : State) : (workData f r s).fixed = s.fixed := by
  unfold workData
  exact (hf _ _).trans rfl

/-! ### What an effect leaves calm -/

/-- From `s` to `t` the queue, the straps, the frame counter, the elapsed count and memory are kept, the clock-set flag
is not cleared, the part does not become ACTIVE, and the burst in flight is the same. -/
structure Calm (s t : State) : Prop where
  pending : t.pending = s.pending
  straps : t.straps = s.straps
  frame : t.frame = s.frame
  elapsed : t.time.elapsed = s.time.elapsed
  clockSet : s.time.clockSet = true → t.time.clockSet = true
  mem : t.mem = s.mem
  state : t.control.state = .active → s.control.state = .active
  inFlight : t.inFlight = s.inFlight

theorem Calm.refl (s : State) : Calm s s := ⟨rfl, rfl, rfl, rfl, id, rfl, id, rfl⟩

theorem Calm.trans {s t u : State} (h : Calm s t) (g : Calm t u) : Calm s u :=
  ⟨g.pending.trans h.pending, g.straps.trans h.straps, g.frame.trans h.frame, g.elapsed.trans h.elapsed,
    fun hs => g.clockSet (h.clockSet hs), g.mem.trans h.mem, fun ht => h.state (g.state ht),
    g.inFlight.trans h.inFlight⟩

theorem Calm.of_outer {s t : State} (h : t.outer = s.outer)
    (hs : t.control.state = .active → s.control.state = .active) (hi : t.inFlight = s.inFlight) : Calm s t := by
  obtain ⟨hm, ht, hf, hst, hp⟩ := outer_sameOuter h
  exact ⟨hp, hst, hf, congrArg TimeBase.elapsed ht, fun hc => by rw [ht]; exact hc, hm, hs, hi⟩

theorem Calm.of_fixed {s t : State} (h : t.fixed = s.fixed) : Calm s t :=
  .of_outer (congrArg Prod.fst h) (fun ht => (congrArg (fun f => f.2.1) h).symm.trans ht)
    (congrArg (fun f => f.2.2.1) h)

theorem Calm.of_base {s t : State} (h : t.base = s.base) : Calm s t := .of_fixed (fixed_of_base h)

theorem Calm.of_steady {s t : State} (h : t.steady = s.steady) : Calm s t := .of_fixed (fixed_of_steady h)

theorem stopPart_inFlight (s : State) : (stopPart s).inFlight = s.inFlight := by
  show (s.arbiter.port.map Carried.stopped).map _ = s.arbiter.port.map _
  rw [Option.map_map]
  congr 1
  funext c
  show ((Carried.stopped c).req.write, (Carried.stopped c).req.addr, (Carried.stopped c).under) = _
  unfold Carried.stopped
  split <;> rfl

/-- An activation write validates, stops the part, or is refused: none of them makes it ACTIVE (R187). -/
theorem activationWritten_calm (v : Nat) (s : State) : Calm s (activationWritten v s) := by
  unfold activationWritten
  dsimp only
  split
  · split <;> exact .of_fixed rfl
  · split
    · split <;> exact .of_fixed rfl
    · split
      · split
        · exact .of_fixed rfl
        · exact .of_outer rfl (fun h => nomatch h) (stopPart_inFlight _)
      · exact .refl s

theorem slotWritten_base (i : Nat) (v : Byte) (s : State) : (slotWritten i v s).base = s.base := by
  unfold slotWritten ringError
  split
  · exact notify_base ..
  · split <;> rfl

theorem roomWritten_fixed (r : Nat) (es : List (Nat × Byte)) (s : State) :
    (roomWritten r es s).fixed = s.fixed := by
  unfold roomWritten
  dsimp only
  split
  · rfl
  · split
    · exact (fixed_of_base (handChanges_base ..)).trans rfl
    · rfl

theorem trunkEntryWritten_fixed (k : Nat) (es : List (Nat × Byte)) (s : State) :
    (trunkEntryWritten k es s).fixed = s.fixed := by
  unfold trunkEntryWritten
  dsimp only
  split
  · rfl
  · split
    · exact (fixed_of_base (trunkWritten_base ..)).trans rfl
    · rfl

theorem tariffWritten_fixed (i : Nat) (es : List (Nat × Byte)) (s : State) :
    (tariffWritten i es s).fixed = s.fixed := by
  unfold tariffWritten; dsimp only; split <;> rfl

theorem consumerWritten_fixed (v : Nat) (s : State) : (consumerWritten v s).fixed = s.fixed := by
  unfold consumerWritten; split <;> rfl

/-- Every observation leaves the state calm (R157). -/
theorem observed_calm (o : Observation) (s : State) : Calm s (observed o s) := by
  cases o with
  | activation v => exact activationWritten_calm v s
  | room r es => exact .of_fixed (roomWritten_fixed r es s)
  | trunk k es => exact .of_fixed (trunkEntryWritten_fixed k es s)
  | tariff i es => exact .of_fixed (tariffWritten_fixed i es s)
  | slot i v => exact .of_base (slotWritten_base i v s)
  | clearOverflow => exact .of_fixed rfl
  | consumer v => exact .of_fixed (consumerWritten_fixed v s)

theorem observations_calm (obs : List Observation) (s : State) :
    Calm s (obs.foldl (fun t o => observed o t) s) := by
  induction obs generalizing s with
  | nil => exact .refl s
  | cons o obs ih => exact (observed_calm o s).trans (ih _)

theorem guardWrite_calm (g : List (Nat × Nat)) (n : Nat) (s : State) : Calm s (guardWrite g n s) := by
  unfold guardWrite
  split
  · exact .refl s
  · exact .of_fixed ((fixed_of_base (notify_base ..)).trans rfl)

theorem leaveWrite_calm (req : HostRequest) (mode : PartState) (s : State) : Calm s (leaveWrite req mode s) := by
  unfold leaveWrite
  refine .trans (.trans ?_ (guardWrite_calm ..)) (observations_calm ..)
  exact .of_fixed rfl

theorem advanceHead_calm (req : HostRequest) (n : Nat) (w : HeadWork) (s : State) : Calm s (advanceHead req n w s) :=
  .of_steady (advanceHead_steady req n w s)

theorem serveHead_calm (req : HostRequest) (zeroed : Option Nat) (seen : List Nat) (w : HeadWork) (s : State) :
    Calm s (serveHead req zeroed seen w s) := .of_steady (serveHead_steady req zeroed seen w s)

theorem readReturned_calm (r : Returned) (s : State) : Calm s (readReturned r s) := by
  unfold readReturned
  split
  · exact .refl s
  · split
    · exact .refl s
    · exact advanceHead_calm ..

theorem expireStall_calm (x : HostRequest × HeadWork × Nat × List Nat) (s : State) : Calm s (expireStall x s) := by
  refine .trans ?_ (serveHead_calm ..)
  exact .of_fixed rfl

theorem takeVoice_calm (w : HeadWork) (s : State) : Calm s (takeVoice w s) := by
  unfold takeVoice
  dsimp only
  split
  · exact .refl s
  · exact .of_base (takeLanes_base ..)

theorem voiceWrite_calm (req : HostRequest) (w : HeadWork) (s : State) : Calm s (voiceWrite req w s) := by
  unfold voiceWrite
  dsimp only
  split
  · exact (takeVoice_calm w s).trans (leaveWrite_calm ..)
  · exact (takeVoice_calm w s).trans (advanceHead_calm ..)

theorem performParts_calm (mode : PartState) (ps : List Part) (s : State) : Calm s (performParts mode ps s) := by
  induction ps generalizing s with
  | nil => exact .refl s
  | cons p ps ih =>
    unfold performParts
    split
    · exact .trans (.of_base (takeLanes_base ..)) (ih _)
    · refine .trans ?_ (ih _)
      split
      · exact .of_fixed rfl
      · exact .refl s

theorem leaveCheckout_calm (req : HostRequest) (w : HeadWork) (s : State) : Calm s (leaveCheckout req w s) :=
  (performParts_calm w.mode w.parts s).trans (leaveWrite_calm ..)

theorem holdCheckout_calm (h : HostRequest × HeadWork) (s : State) : Calm s (holdCheckout h s) := by
  unfold holdCheckout
  refine .trans ?_ (.of_base (joinReleaseLine_base ..))
  exact .of_fixed rfl

theorem checkoutGranted_calm (req : HostRequest) (w : HeadWork) (s : State) : Calm s (checkoutGranted req w s) := by
  unfold checkoutGranted
  dsimp only
  split
  · exact .trans (.of_base (leaveReleaseLine_base s)) (leaveCheckout_calm ..)
  · exact .of_base (renewFirst_base ..)

theorem endValidation_calm (k : StartKind) (s : State) : Calm s (endValidation k s) := by
  unfold endValidation
  dsimp only
  split
  · exact .of_fixed rfl
  · exact .of_outer rfl (fun h => nomatch h) rfl

theorem loadReturned_calm (r : Returned) (s : State) : Calm s (loadReturned r s) := by
  unfold loadReturned
  split
  next => exact .refl s
  next t _ => cases t <;> exact .of_fixed rfl

theorem acknowledged_fixed (c : Carried) (s : State) : (acknowledged c s).fixed = s.fixed := by
  unfold acknowledged
  (repeat' split) <;> rfl

theorem raiseMirror_fixed (e : MirrorEngine) (r : Nat) (s : State) : (raiseMirror e r s).fixed = s.fixed := by
  cases e <;> rfl

theorem blockFinished_base (r : Returned) (s : State) : (blockFinished r s).base = s.base := by
  unfold blockFinished
  split
  · exact blockWritten_base ..
  · rfl

theorem patchFinished_base (r : Returned) (s : State) : (patchFinished r s).base = s.base := by
  unfold patchFinished
  split
  · exact patchWritten_base ..
  · rfl

theorem fetchFinished_base (r : Returned) (s : State) : (fetchFinished r s).base = s.base := by
  unfold fetchFinished
  split
  · exact fetchArrived_base ..
  · rfl

theorem offsetRead_base (r : Returned) (s : State) : (offsetRead r s).base = s.base := by
  unfold offsetRead
  split
  · exact walkStep_base ..
  · rfl

theorem folioEntryWritten_base (s : State) : (folioEntryWritten s).base = s.base := by
  unfold folioEntryWritten
  split
  · rfl
  · dsimp only
    split
    · exact (orderStep_base _ _).trans rfl
    · rfl

theorem writeNotice_calm (n : Notice) (s : State) : Calm s (writeNotice n s) := by
  unfold writeNotice
  dsimp only
  split <;> exact .of_fixed rfl

/-- CLOCK SET sets the clock-set flag, and neither counter (R182). -/
theorem clockSetAct_calm (slot : Nat) (c : List Byte) (s : State) : Calm s (clockSetAct slot c s) := by
  unfold clockSetAct
  refine .trans (t := { s with time := _ }) ?_ (.of_base (completeOrder_base ..))
  exact ⟨rfl, rfl, rfl, rfl, fun _ => rfl, rfl, id, rfl⟩

theorem orderAct_calm (o : Order) (slot : Nat) (c : List Byte) (s : State) : Calm s (orderAct o slot c s) := by
  unfold orderAct
  cases o with
  | clockSet => exact clockSetAct_calm slot c s
  | _ => exact .of_base (by simp)

theorem actOnCopy_calm (slot : Nat) (c : List Byte) (s : State) : Calm s (actOnCopy slot c s) := by
  unfold actOnCopy
  split
  · exact .of_base (completeOrder_base ..)
  · split
    · exact .of_base (completeOrder_base ..)
    · exact orderAct_calm ..

theorem completeTake_calm (slot : Nat) (c : List Byte) (s : State) : Calm s (completeTake slot c s) := by
  rw [completeTake_eq]
  refine .trans (.trans ?_ (actOnCopy_calm slot c _)) (.of_fixed rfl)
  exact .of_fixed rfl

theorem takeOrder_calm (slot : Nat) (c : List Byte) (s : State) : Calm s (takeOrder slot c s) := by
  unfold takeOrder
  dsimp only
  split
  · exact completeTake_calm ..
  · exact .of_base ((joinReleaseLine_base ..).trans (updateEntry_base ..))

theorem takeGranted_calm (slot need : Nat) (c : List Byte) (s : State) : Calm s (takeGranted slot need c s) := by
  unfold takeGranted
  split
  · exact .trans (.of_base (leaveReleaseLine_base s)) (completeTake_calm ..)
  · exact .of_base (renewFirst_base ..)

theorem takeData_calm (r : Returned) (s : State) : Calm s (takeData r s) := by
  unfold takeData
  split
  · unfold takeReturned
    split
    · exact takeOrder_calm ..
    · exact .of_base ((freeEntry_base ..).trans rfl)
  · exact .refl s

/-! ### The grant -/

theorem hostPartGranted_calm (write : Bool) (s : State) : Calm s (hostPartGranted write s) := by
  unfold hostPartGranted leaveOrAsk
  split
  · split
    · split
      · split
        · exact leaveWrite_calm ..
        · exact .of_fixed rfl
      · exact advanceHead_calm ..
    · exact .refl s
  · exact .refl s

/-- What a grant does for the source of the burst leaves the state calm (R83, R151, R175, R177, R184, R140). -/
theorem grantEffect_calm (r : Request) (s : State) : Calm s (grantEffect r s) := by
  unfold grantEffect
  split
  · exact hostPartGranted_calm ..
  · unfold mailMirrorGranted; split <;> exact .of_fixed rfl
  · unfold folioMirrorGranted; split <;> exact .of_fixed rfl
  · unfold lampMirrorGranted; split <;> exact .of_fixed rfl
  · unfold takeGrantedRead; split <;> exact .of_fixed rfl
  · exact .of_base (freeEntry_base ..)
  · unfold noticeHeaderGranted; split <;> exact .of_fixed rfl
  · exact .of_base ((raiseFolioWrite_base _).trans rfl)
  · split
    · exact .of_fixed (workGranted_fixed s)
    · exact .refl s
  · exact .refl s

/-! ### The tenth, and the end of STARTING -/

theorem writePathStatus_fixed (s : State) : (writePathStatus s).fixed = s.fixed := by
  unfold writePathStatus; dsimp only; split <;> rfl

theorem writeArbiterStatus_fixed (s : State) : (writeArbiterStatus s).fixed = s.fixed := by
  unfold writeArbiterStatus; dsimp only; split <;> rfl

theorem writeStoreStatus_fixed (s : State) : (writeStoreStatus s).fixed = s.fixed := by
  unfold writeStoreStatus; dsimp only; split <;> rfl

theorem writeRingStatus_fixed (s : State) : (writeRingStatus s).fixed = s.fixed := by
  unfold writeRingStatus; dsimp only; split <;> rfl

theorem writeRatingStatus_fixed (s : State) : (writeRatingStatus s).fixed = s.fixed := by
  unfold writeRatingStatus; dsimp only; split <;> rfl

theorem writeFolioStatus_fixed (s : State) : (writeFolioStatus s).fixed = s.fixed := by
  unfold writeFolioStatus; dsimp only; split <;> rfl

theorem writeStatus_fixed (s : State) : (writeStatus s).fixed = s.fixed := by
  have hs : (if s.storeStands then writeStoreStatus s else s).fixed = s.fixed := by
    split
    · exact writeStoreStatus_fixed s
    · rfl
  unfold writeStatus
  dsimp only
  generalize (if s.storeStands then writeStoreStatus s else s) = s1 at hs
  split
  · calc (writeLinkHeader _).fixed = State.fixed _ := fixed_of_base (writeLinkHeader_base _)
      _ = _ := writeFolioStatus_fixed _
      _ = _ := writeRatingStatus_fixed _
      _ = _ := writeRingStatus_fixed _
      _ = _ := writeArbiterStatus_fixed _
      _ = _ := writePathStatus_fixed _
      _ = _ := hs
  · exact hs

/-- A tenth ends: the time base and the frame counter advance, and nothing else of what is fixed changes (R181, R93). -/
theorem tenth_fixed (s : State) :
    (tenth s).fixed = ({ s with time := s.time.tick, frame := s.frame + 1#32 } : State).fixed :=
  (fixed_of_base (startSweep_base _)).trans (writeStatus_fixed _)

theorem settleFolios_base (r : Nat) (s : State) : (settleFolios r s).base = s.base := by
  unfold settleFolios
  dsimp only
  refine (settleBarred_base ..).trans ?_
  split
  · split
    · rfl
    · exact openFolio_base r s
  · split
    · exact closeFolio_base r s
    · rfl

theorem settleStoreLow_base (s : State) : (settleStoreLow s).base = s.base := by
  unfold settleStoreLow
  split
  · exact (notify_base ..).trans rfl
  · rfl

theorem markRoom_base (r : Nat) (s : State) : (markRoom r s).base = s.base := rfl

theorem writeIdleEntries_base (s : State) : (writeIdleEntries s).base = s.base :=
  foldl_keeps State.base _ (fun t k => writeLinkEntry_base k t) _ s

/-- The state of the end of STARTING before the part becomes ACTIVE (R86, R133, R25). -/
def State.settled (s : State) : State :=
  (List.range s.roomCount).foldl (fun t r => markRoom r (recomputeLamp r t))
    (settleStoreLow ((List.range s.profile.trunks).foldl (fun t k => settleTrunk k t)
      ((List.range s.roomCount).foldl (fun t r => settleFolios r t) s)))

theorem endStarting_eq (s : State) : endStarting s = writeActivation (writeIdleEntries
    { s.settled with control.state := .active, control.work := {} }) := by
  unfold endStarting State.settled
  dsimp only

theorem settled_base (s : State) : s.settled.base = s.base :=
  calc s.settled.base
      = State.base _ := foldl_keeps State.base _ (fun t r => (markRoom_base r _).trans (recomputeLamp_base r t)) _ _
    _ = State.base _ := settleStoreLow_base _
    _ = State.base _ := foldl_keeps State.base _ (fun t k => settleTrunk_base k t) _ _
    _ = s.base := foldl_keeps State.base _ (fun t r => settleFolios_base r t) _ s

theorem endStarting_outer (s : State) : (endStarting s).outer = s.outer := by
  rw [endStarting_eq]
  refine Eq.trans ?_ (State.outer_of_base (settled_base s))
  generalize s.settled = u
  exact (State.outer_of_base (writeIdleEntries_base { u with control.state := .active, control.work := {} })).trans rfl

/-! ### What every effect keeps -/

/-- What a command, power-on and RESET aside, keeps: from `s` to `t` memory changes only by the burst granted. -/
structure Keeps (c : Instr) (s t : State) : Prop where
  pending : t.pending = s.pending
  straps : t.straps = s.straps
  running : c ≠ .tenthSecondEvent → t.time.elapsed = s.time.elapsed ∧ t.frame = s.frame
  clockSet : s.time.clockSet = true → t.time.clockSet = true
  state : c ≠ .endOfStarting → t.control.state = .active → s.control.state = .active
  mem : t.mem = s.mem ∨ ∃ r, s.granted = some r ∧ r.write = true ∧ t.mem = writeLanes s.mem r.addr (s.grantLanes r)

theorem Calm.keeps {c : Instr} {s t : State} (h : Calm s t) : Keeps c s t :=
  ⟨h.pending, h.straps, fun _ => ⟨h.elapsed, h.frame⟩, h.clockSet, fun _ => h.state, .inl h.mem⟩

/-- A granted burst in memory, and what leaves that calm. -/
theorem Calm.keeps_carry {c : Instr} {s t : State} {d : Decision} {r : Request} (hr : s.granted = some r)
    (h : Calm (carry r (settleGrant d (beginStep s))) t) : Keeps c s t := by
  have hm := h.mem
  have hmem : t.mem = s.mem ∨
      ∃ r, s.granted = some r ∧ r.write = true ∧ t.mem = writeLanes s.mem r.addr (s.grantLanes r) := by
    unfold carry at hm
    split at hm
    next hw => exact .inr ⟨r, hr, hw, hm⟩
    next => exact .inl hm
  have hc (u : State) : (carry r u).pending = u.pending ∧ (carry r u).straps = u.straps ∧
      (carry r u).frame = u.frame ∧ (carry r u).time = u.time ∧ (carry r u).control = u.control := by
    unfold carry
    split <;> exact ⟨rfl, rfl, rfl, rfl, rfl⟩
  obtain ⟨hp, hs, hf, ht, hctl⟩ := hc (settleGrant d (beginStep s))
  exact ⟨h.pending.trans hp, h.straps.trans hs, fun _ => ⟨h.elapsed.trans (congrArg _ ht), h.frame.trans hf⟩,
    fun hk => h.clockSet (by rw [ht]; exact hk), fun _ ha => (congrArg Control.state hctl).symm.trans (h.state ha), hmem⟩

/-- A write leaves with its last burst granted, or with none left (R151). -/
theorem leaveNow_keeps (c : Instr) (s : State) : Keeps c s (leaveNow (beginStep s)) := by
  have hb : Calm s (beginStep s) := .of_fixed rfl
  unfold leaveNow
  split
  next req w hl =>
    obtain ⟨-, -, ha⟩ | ⟨d, r, -, hr, -, -, -, -, ha⟩ := leaving_burst hl
    · rw [ha]; exact (hb.trans (leaveWrite_calm req w.mode (beginStep s))).keeps
    · rw [ha]; exact (leaveWrite_calm req w.mode _).keeps_carry hr
  next => exact hb.keeps

/-- Every effect of the table keeps all this. -/
theorem Acts.keeps {s : State} {c : Instr} {f : State → State} (h : Acts s c f) : Keeps c s (f (beginStep s)) := by
  have hb : Calm s (beginStep s) := .of_fixed rfl
  have ht (p : Source → Bool) : Calm s (takeReturn p (beginStep s)) := .of_fixed rfl
  have base {t u : State} (h : Calm s t) (hu : u.base = t.base) : Keeps c s u := (h.trans (.of_base hu)).keeps
  have same {u : State} (hu : u.fixed = s.fixed) : Keeps c s u := (Calm.of_fixed hu).keeps
  cases h with
  | present r => exact same rfl
  | leaves _ => exact leaveNow_keeps c s
  | readData r => exact ((ht _).trans (readReturned_calm r _)).keeps
  | recordWrite h => exact (hb.trans (voiceWrite_calm ..)).keeps
  | playRead h => exact (hb.trans (serveHead_calm ..)).keeps
  | stallEnds x => exact (hb.trans (expireStall_calm x _)).keeps
  | holds h => exact (hb.trans (holdCheckout_calm h _)).keeps
  | checkoutLeaves h => exact (hb.trans (leaveCheckout_calm ..)).keeps
  | checkoutGranted h => exact (hb.trans (checkoutGranted_calm ..)).keeps
  | validation k => exact (hb.trans (endValidation_calm k _)).keeps
  | loadRead r => exact ((ht _).trans (loadReturned_calm r _)).keeps
  | workBegins => exact same ((nextWork_fixed _ _).trans rfl)
  | slotRead r => exact same (workData_fixed adoptSlot_fixed r _)
  | recordRead r => exact same (workData_fixed adoptRecord_fixed r _)
  | headerRead r => exact same (workData_fixed adoptHeader_fixed r _)
  | folioRead r => exact same (workData_fixed adoptFolio_fixed r _)
  | startingEnds =>
    obtain ⟨hm, ht, hf, hs, hp⟩ := outer_sameOuter (endStarting_outer (beginStep s))
    exact ⟨hp, hs, fun _ => ⟨congrArg _ ht, hf⟩, fun hk => by rw [ht]; exact hk, fun hc => absurd rfl hc, .inl hm⟩
  | tenth =>
    have h := tenth_fixed (beginStep s)
    obtain ⟨hm, ht, -, hs, hp⟩ := outer_sameOuter (congrArg Prod.fst h)
    exact ⟨hp, hs, fun hc => absurd rfl hc, fun hk => by rw [ht]; exact hk,
      fun _ ha => (congrArg (fun f => f.2.1) h).symm.trans ha, .inl hm⟩
  | receives bytes w => exact same rfl
  | windowCloses w => exact base hb (closeWindow_base ..)
  | windowOpens w => exact same rfl
  | grants d r _ hr => exact (grantEffect_calm r _).keeps_carry hr
  | acknowledges c => 
    have h : Calm (freePort (beginStep s)) _ := .of_fixed (acknowledged_fixed c (freePort (beginStep s)))
    exact ⟨h.pending, h.straps, fun _ => ⟨h.elapsed, h.frame⟩, h.clockSet, fun _ => h.state, .inl h.mem⟩
  | mirror e r => exact same (raiseMirror_fixed e r _)
  | pops _ => exact base hb (startPop_base _)
  | popReturns r => exact base (ht _) (popReturned_base ..)
  | pushes => exact base hb (startPush_base _)
  | walks r => exact base (ht _) (walkReturned_base ..)
  | releases ch => exact base hb ((startChannelRelease_base ..).trans (leaveReleaseLine_base _))
  | blockWrite r => exact base (ht _) (blockFinished_base ..)
  | patch r => exact base (ht _) (patchFinished_base ..)
  | fetch r => exact base (ht _) (fetchFinished_base ..)
  | offsetWalk r => exact base (ht _) (offsetRead_base ..)
  | folioWrite => exact base (ht _) (folioEntryWritten_base _)
  | takes _ => exact same rfl
  | takeReturns r => exact ((ht _).trans (takeData_calm r _)).keeps
  | takePlaces x => exact (hb.trans (takeGranted_calm ..)).keeps
  | notice n => exact (hb.trans (writeNotice_calm n _)).keeps
  | order o x => exact ((ht _).trans (takeOrder_calm ..)).keeps
  | orderPlaces o x => exact (hb.trans (takeGranted_calm ..)).keeps

theorem Keeps.of_steady {c : Instr} {s t u : State} (h : Keeps c s t) (hu : u.steady = t.steady) : Keeps c s u := by
  have hc := Calm.of_steady hu
  have hs : u.control = t.control := (congrArg State.control hu : u.steady.control = t.steady.control)
  have ht : u.time = t.time := (congrArg State.time hu : u.steady.time = t.steady.time)
  exact ⟨hc.pending.trans h.pending, hc.straps.trans h.straps,
    fun hn => ⟨(congrArg _ ht).trans (h.running hn).1, hc.frame.trans (h.running hn).2⟩,
    fun hk => by rw [ht]; exact h.clockSet hk, fun hn ha => h.state hn (by rw [← hs]; exact ha), by rw [hc.mem]; exact h.mem⟩

/-- A command restarts the part, or keeps what every effect keeps. -/
theorem exec_keeps {c : Instr} {s t : State} (h : exec c s = .next t) :
    (∃ p, (c = .powerOn p ∨ c = .reset p) ∧ t = restart p s) ∨ Keeps c s t := by
  obtain hp | rfl | ⟨f, hf, rfl⟩ := exec_next h
  · exact .inl hp
  · exact .inr (Calm.refl t).keeps
  · exact .inr (hf.keeps.of_steady (finish_steady _))

/-- Settles O1: both are `restart`, and STOP keeps the straps as every command but these two does. -/
theorem powerOnAndResetRestart : Obligations.PowerOnAndResetRestart := by
  refine ⟨fun straps s => ⟨rfl, rfl⟩, rfl, rfl, rfl, rfl, rfl, rfl, rfl, rfl, rfl, fun w => by cases w <;> rfl, rfl, rfl,
    rfl, rfl, rfl, rfl, rfl, rfl, rfl, rfl, rfl, rfl, fun s t h => ?_⟩
  obtain ⟨p, hp | hp, -⟩ | h := exec_keeps h
  · cases hp
  · cases hp
  · exact h.straps

/-- Settles O5. -/
theorem commandsKeepQueueTimeAndState : Obligations.CommandsKeepQueueTimeAndState := by
  refine ⟨fun c s t h => ?_, fun c s t hp hr h => ?_, fun c s t hc hs h => ?_⟩
  · obtain ⟨p, -, rfl⟩ | h := exec_keeps h
    · rfl
    · exact h.pending
  · obtain ⟨p, rfl | rfl, -⟩ | h := exec_keeps h
    · exact absurd rfl (hp p)
    · exact absurd rfl (hr p)
    · exact ⟨h.running, h.clockSet⟩
  · obtain ⟨p, -, rfl⟩ | h := exec_keeps h
    · exact fun ha => nomatch ha
    · exact fun ha => hs (h.state hc ha)

theorem memoryAtLoss_congr {s t : State} (hm : t.mem = s.mem) (hi : t.inFlight = s.inFlight) :
    t.memoryAtLoss = s.memoryAtLoss := by
  have h (u : State) : u.memoryAtLoss = match u.inFlight with
      | some (w, a, under) => if w then writeLanes u.mem a under else u.mem
      | none => u.mem := by
    unfold State.memoryAtLoss State.inFlight
    cases u.arbiter.port <;> rfl
  rw [h t, h s, hm, hi]

/-- The grant of a write, and then its loss: what stood under it is back (R149, R170, R194). -/
theorem loss_after_grant {s t : State} {r : Request} (hr : s.granted = some r) (hw : r.write = true)
    (h : exec .arbiterDecision s = .next t) (c : Nat) : readByte t.memoryAtLoss c = readByte s.mem c := by
  obtain ⟨d, hd, -⟩ : ∃ d, s.decision = some d ∧ s.offer d.who = some r := Option.bind_eq_some_iff.mp hr
  have ht : s.turn = some (d, r) := by unfold State.turn; rw [hd, hr]
  obtain rfl : t = taken (grant d r) s := (Host.Outcome.next.inj ((stepOn_of _ s ht).symm.trans h)).symm
  have hcalm : Calm (carry r (settleGrant d (beginStep s))) (taken (grant d r) s) :=
    (grantEffect_calm r _).trans (.of_steady (finish_steady _))
  rw [memoryAtLoss_congr hcalm.mem hcalm.inFlight, readByte_memoryAtLoss_carry r _ hw]
  rfl

/-- Settles O6. -/
theorem onlyGrantedWritesChangeMemory : Obligations.OnlyGrantedWritesChangeMemory := by
  refine ⟨fun c s t h => ?_, fun s t u r p _ hr hw ht hu a => ?_⟩
  · obtain ⟨p, hc, rfl⟩ | h := exec_keeps h
    · exact .inr (.inr ⟨⟨p, hc⟩, rfl⟩)
    · exact h.mem.imp_right .inl
  · have hmem : u.mem = t.memoryAtLoss := by
      obtain hu | hu := hu <;> rw [← Host.Outcome.next.inj hu] <;> rfl
    rw [hmem]
    exact loss_after_grant hr hw ht a

end Sys2Proof.Machine
end

section
/-! PROOFS. The FIFO, the head, and the writes that leave it (8.1 to 8.5, 8.8). -/

namespace Sys2Proof.Machine

/-! ### A request joins (R150) -/

theorem finish_of_held {s : State} {w : HeadWork} (h : s.host.head = some w) (hp : ∀ ch seen, w.phase ≠ .stalled ch seen) :
    finish s = commit (fillFifo Config.fifoDepth s) := by
  unfold finish
  rw [resumeStall_of_not_stalled s w h hp]
  exact congrArg commit (settleFifo_of_head _ s (by rw [h]; rfl))

theorem fillFifo_of_none {n : Nat} {s : State} (hw : s.host.waiting = []) (hl : s.host.loads = []) : fillFifo n s = s := by
  cases n with
  | zero => rfl
  | succ n => unfold fillFifo; rw [hw, hl]; simp

theorem fillFifo_of_full {n : Nat} {s : State} (h : Config.fifoDepth ≤ s.host.fifo.length) : fillFifo n s = s := by
  cases n with
  | zero => rfl
  | succ n => unfold fillFifo; exact if_neg fun hc => absurd hc.1 (by omega)

/-- One host request waits, no load read does, and an entry is free: it joins the tail (R150). -/
theorem fillFifo_joins {n : Nat} {s : State} {r : HostRequest} (hw : s.host.waiting = [r]) (hl : s.host.loads = [])
    (hf : s.host.fifo.length < Config.fifoDepth) :
    fillFifo (n + 1) s = { s with host.fifo := s.host.fifo ++ [.host r], host.waiting := [] } := by
  have hj : joinFifo s = { s with host.fifo := s.host.fifo ++ [.host r], host.waiting := [] } := by
    unfold joinFifo; simp [hw, hl]
  unfold fillFifo
  rw [if_pos ⟨hf, .inl (by rw [hw]; simp)⟩, hj]
  exact fillFifo_of_none rfl hl

/-- Settles O7. -/
theorem hostRequestsJoinTheFifo : Obligations.HostRequestsJoinTheFifo := by
  have refused (r : HostRequest) (s : State) (h : r.wellFormed = false) :
      exec (.hostRequest r) s = .refused .notAPortRequest := by
    show execHostRequest r s = _
    unfold execHostRequest; rw [h]; rfl
  have completed (r : HostRequest) (s : State) (h : r.wellFormed = true) :
      exec (.hostRequest r) s = .next (taken (present r) s) := by
    show execHostRequest r s = _
    unfold execHostRequest; rw [h]; rfl
  refine ⟨fun r s => ⟨refused r s, fun h => ⟨_, completed r s h⟩⟩, fun r s w ho hr hh hp hw hl => ?_⟩
  have he := taken_endsAs' (f := present r) ho rfl
  have hfill : taken (present r) s = commit (fillFifo Config.fifoDepth (present r s)) := by
    unfold taken; rw [beginStep_eq ho]; exact finish_of_held hh hp
  have hu : (present r s).headWaits := .inl ⟨w, hh, hp⟩
  have hwait : (present r s).host.waiting = [r] := congrArg (· ++ [r]) hw
  refine ⟨_, completed r s hr, ⟨he.steady, he.channels, fun _ => he.voice hu, fun _ => he.head hu,
    he.lines, fun _ => he.exact hu, he.notices, he.placed⟩,
    fun hf => ?_, fun hf => ?_⟩
  · have hj : fillFifo Config.fifoDepth (present r s) = _ := fillFifo_joins hwait hl hf
    rw [hfill, hj, commit_host]
    exact ⟨rfl, rfl⟩
  · have hj : fillFifo Config.fifoDepth (present r s) = present r s := fillFifo_of_full hf
    rw [hfill, hj]
    unfold State.hostReady
    rw [commit_host]
    exact ⟨rfl, hwait, decide_eq_false (by change ¬ s.host.fifo.length < 32; omega)⟩

/-! ### The head is started (R151, R152) -/

/-- The state in which a request that finds nothing before it is at the head. -/
def State.atHead (s : State) (r : HostRequest) : State := { s with host.fifo := [.host r], host.waiting := [] }

/-- With nothing before it, a request joins and is started, and stays at the head. -/
theorem present_starts {s t : State} {r : HostRequest} {w : HeadWork} (ho : s.out = {}) (hr : r.wellFormed = true)
    (hv : s.control.validating = none) (hh : s.host.head = none) (hf : s.host.fifo = []) (hw : s.host.waiting = [])
    (hl : s.host.loads = []) (ht : startRequest r (s.atHead r) = t) (hhead : t.host.head = some w)
    (hp : ∀ ch seen, w.phase ≠ .stalled ch seen) (hwait : t.host.waiting = []) (hloads : t.host.loads = []) :
    Completes (.hostRequest r) s t := by
  have hx : exec (.hostRequest r) s = .next (taken (present r) s) := by
    show execHostRequest r s = _
    unfold execHostRequest; rw [hr]; rfl
  have hfill : fillFifo Config.fifoDepth (present r s) = s.atHead r := by
    have : fillFifo Config.fifoDepth (present r s) = _ :=
      fillFifo_joins (congrArg (· ++ [r]) hw) hl (by show s.host.fifo.length < _; rw [hf]; decide)
    rw [this]
    unfold State.atHead present
    simp [hf]
  have hstart : startHead (s.atHead r) = t := by
    unfold startHead
    rw [if_neg (by simp [State.atHead, hh, hv])]
    exact ht
  have htaken : taken (present r) s = commit t := by
    unfold taken
    rw [beginStep_eq ho]
    unfold finish
    rw [resumeStall_of_empty (present r s) hh]
    refine congrArg commit ?_
    unfold settleFifo
    dsimp only
    rw [hfill, hstart, hhead]
    rfl
  have hfin : finish t = commit t := by rw [finish_of_held hhead hp, fillFifo_of_none hwait hloads]
  exact ⟨_, hx, by rw [htaken, ← hfin]; exact finish_endsAs t⟩

/-- The first part of a request raises its burst, where it lies outside the voice aperture space and has a byte that
goes on to memory (R152). -/
theorem advanceHead_raises {req : HostRequest} {n : Nat} {w : HeadWork} {p : Part} {rest : List Part} {s : State}
    (hw : w.parts = p :: rest) (ha : s.inAperture w.mode p = false)
    (hl : (if req.write then s.passing w.mode p.addr p.lanes else p.lanes).any Option.isSome = true) :
    advanceHead req (n + 1) w s =
      raise { source := .hostPart, write := req.write, addr := p.addr, beats := p.lanes.length / 8
              lanes := if req.write then s.passing w.mode p.addr p.lanes else [] }
        { s with host.head := some { w with phase := .burst } } := by
  unfold advanceHead
  rw [hw]
  dsimp only
  rw [ha, if_neg (by decide), if_pos hl]
  split <;> rfl

theorem passing_passive (s : State) (a : Nat) (ls : List (Option Byte)) : s.passing .passive a ls = ls := by
  induction ls generalizing a with
  | nil => rfl
  | cons l ls ih => unfold State.passing; rw [ih]; rfl

/-- The parts of a request follow each other from its start, and hold its lanes. -/
theorem reqParts_ends {r : HostRequest} {q : Part} (h : q ∈ reqParts r) : q.addr + q.lanes.length ≤ 2 ^ 34 := by
  have hs : reqStart r ≤ 2 ^ 34 := by unfold reqStart; omega
  have hl : (reqLanes r).length ≤ 2 ^ 34 - reqStart r := by
    unfold reqLanes; rw [List.length_take]; exact Nat.min_le_left _ _
  unfold reqParts at h
  dsimp only at h
  split at h
  · obtain rfl := List.mem_singleton.mp h
    show reqStart r + (reqLanes r).length ≤ _
    omega
  · obtain h | h : q = _ ∨ q = _ := by simpa using h
    · subst h
      show reqStart r + ((reqLanes r).take _).length ≤ _
      rw [List.length_take]
      omega
    · subst h
      show reqStart r + (64 - reqStart r % 64) + ((reqLanes r).drop _).length ≤ _
      rw [List.length_drop]
      omega

/-- Settles O8. -/
theorem passiveRequestRaisesItsFirstBurst : Obligations.PassiveRequestRaisesItsFirstBurst := by
  intro r s p rest ho hr hs hv hh hf hw hl hparts hany
  refine ⟨fun q hq => reqParts_ends (hparts ▸ hq), ?_⟩
  refine present_starts (w := { mode := .passive, parts := p :: rest, phase := .burst }) ho hr hv hh hf hw hl ?_ rfl
    (fun _ _ => nofun) hw hl
  have hrooms : (s.atHead r).checkoutRooms .passive r = [] := by
    unfold State.checkoutRooms
    exact if_neg fun hc => by simp [State.active, State.atHead, hs] at hc
  have hlanes : (if r.write then (s.atHead r).passing .passive p.addr p.lanes else p.lanes) = p.lanes := by
    rw [passing_passive, ite_self]
  unfold startRequest
  dsimp only
  have hstate : (s.atHead r).control.state = .passive := hs
  rw [hstate, hrooms, if_pos rfl, hparts]
  rw [headFuel, advanceHead_raises (p := p) (rest := rest) rfl (by rfl) (by rw [hlanes]; exact hany), passing_passive]
  unfold raise State.atHead
  simp [ho, hw]

/-! ### Which bytes a write keeps (R153, R155) -/

/-- The byte lies in the region. -/
def inRegion (a : Nat) (x : Region × Nat × Nat) : Prop := x.2.1 ≤ a ∧ a < x.2.1 + x.2.2

theorem findRegion_of_mem {a : Nat} {l : List (Region × Nat × Nat)} {x : Region × Nat × Nat} (hl : allApart l = true)
    (hx : x ∈ l) (ha : inRegion a x) : findRegion a l = (x.1, a - x.2.1) := by
  induction l with
  | nil => cases hx
  | cons y l ih =>
    obtain ⟨R, base, len⟩ := y
    obtain ⟨hy, hl⟩ : l.all (apart (R, base, len)) = true ∧ allApart l = true := by
      simpa only [allApart, Bool.and_eq_true] using hl
    unfold findRegion
    split
    next hin =>
      obtain rfl | hx := List.mem_cons.mp hx
      · rfl
      · have h := List.all_eq_true.mp hy x hx
        unfold inRegion at ha
        simp only [apart, Bool.or_eq_true, decide_eq_true_eq] at h
        omega
    next hout =>
      obtain rfl | hx := List.mem_cons.mp hx
      · exact absurd ha hout
      · exact ih hl hx

theorem findRegion_cases (a : Nat) (l : List (Region × Nat × Nat)) :
    (∃ x ∈ l, inRegion a x ∧ findRegion a l = (x.1, a - x.2.1)) ∨ findRegion a l = (.unlisted, a) := by
  induction l with
  | nil => exact .inr rfl
  | cons y l ih =>
    unfold findRegion
    split
    next hin => exact .inl ⟨y, List.mem_cons_self, hin, rfl⟩
    next => exact ih.imp_left fun ⟨x, hx, h⟩ => ⟨x, List.mem_cons_of_mem _ hx, h⟩

/-- With the regions apart, a byte lies in a region if and only if it is found there (R153, R154). -/
theorem inRegion_iff {s : State} {a : Nat} {x : Region × Nat × Nat}
    (h : allApart (regionsOf s.profileBlock s.profile) = true) (hx : x ∈ regionsOf s.profileBlock s.profile) :
    (inRegion a x ↔ (s.regionOf a).1 = x.1) ∧ (inRegion a x → (s.regionOf a).2 = a - x.2.1) := by
  refine ⟨⟨fun hin => congrArg Prod.fst (findRegion_of_mem h hx hin), fun hname => ?_⟩,
    fun hin => congrArg Prod.snd (findRegion_of_mem h hx hin)⟩
  obtain ⟨y, hy, hin, hf⟩ | hf := findRegion_cases a (regionsOf s.profileBlock s.profile)
  · have hyx : y.1 = x.1 := by rw [← hname]; exact (congrArg Prod.fst hf).symm
    have hnodup : ((regionsOf s.profileBlock s.profile).map Prod.fst).Nodup := by
      show ([.profile, .aperture, .room, .trunk, .tariff, .order, .notice, .message, .pool, .stack, .store] : List Region).Nodup
      decide
    rwa [← List.inj_on_of_nodup_map hnodup hy hx hyx]
  · have hu : x.1 = .unlisted := hname.symm.trans (congrArg Prod.fst hf)
    unfold regionsOf at hx
    simp at hx
    rcases hx with rfl | rfl | rfl | rfl | rfl | rfl | rfl | rfl | rfl | rfl | rfl <;> cases hu

/-- The class of a byte at an offset of a region (R155). -/
def regionClass (x : Region × Nat) : WriteClass :=
  match x with
  | (.profile, off) => if off < 2048 then .passes else .guarded 1
  | (.room, off) => if off % 128 < 64 then .passes else .guarded 2
  | (.notice, off) => if 32 ≤ off ∧ off < 36 then .passes else if off = 4 then .flagRequest else .guarded 3
  | (.message, _) => .guarded 4
  | (.pool, _) => .guarded 5
  | (.stack, _) => .guarded 6
  | (.store, _) => .guarded 7
  | (.aperture, _) => .aperture
  | (.unlisted, _) | (.trunk, _) | (.tariff, _) | (.order, _) => .passes

theorem writeClass_eq (s : State) (a : Nat) : s.writeClass a = regionClass (s.regionOf a) := rfl

/-- The bytes the part owns, by the region they are found in (R155). -/
theorem partOwned_iff {s : State} (h : allApart (regionsOf s.profileBlock s.profile) = true) (a : Nat) :
    s.partOwned a = true ↔
      ((s.regionOf a).1 = .profile ∧ 2048 ≤ (s.regionOf a).2) ∨ ((s.regionOf a).1 = .room ∧ 64 ≤ (s.regionOf a).2 % 128) ∨
      ((s.regionOf a).1 = .notice ∧ ¬ (32 ≤ (s.regionOf a).2 ∧ (s.regionOf a).2 < 36)) ∨
      (s.regionOf a).1 = .message ∨ (s.regionOf a).1 = .pool ∨ (s.regionOf a).1 = .stack ∨ (s.regionOf a).1 = .store := by
  have found (x) (hx : x ∈ regionsOf s.profileBlock s.profile) := inRegion_iff (a := a) h hx
  simp only [regionsOf, List.mem_cons, List.not_mem_nil, or_false, forall_eq_or_imp, forall_eq, inRegion] at found
  obtain ⟨⟨hp, hpo⟩, -, ⟨hr, hro⟩, -, -, -, ⟨hn, hno⟩, ⟨hm, -⟩, ⟨hc, -⟩, ⟨hs, -⟩, ⟨hb, -⟩⟩ := found
  have hprofile : (s.profileBlock + 2048 ≤ a ∧ a < s.profileBlock + 2048 + 2048) ↔
      (s.regionOf a).1 = .profile ∧ 2048 ≤ (s.regionOf a).2 := by
    rw [← hp]; clear hr hn hm hc hs hb hro hno hp; omega
  have hroom : ((s.profile.roomBase ≤ a ∧ a < s.profile.roomBase + 8192 * s.profile.floors) ∧
      64 ≤ (a - s.profile.roomBase) % 128) ↔ (s.regionOf a).1 = .room ∧ 64 ≤ (s.regionOf a).2 % 128 := by
    rw [← hr]
    exact and_congr_right fun hin => by rw [hro hin]
  have hnotice : ((s.profile.noticeBase ≤ a ∧ a < s.profile.noticeBase + (64 + 32 * s.profile.noticeSlots)) ∧
      ¬ (s.profile.noticeBase + 32 ≤ a ∧ a < s.profile.noticeBase + 32 + 4)) ↔
      (s.regionOf a).1 = .notice ∧ ¬ (32 ≤ (s.regionOf a).2 ∧ (s.regionOf a).2 < 36) := by
    rw [← hn]
    refine and_congr_right fun hin => ?_
    rw [hno hin]; clear hr hm hc hs hb hro hno hp hpo hn hprofile hroom; omega
  unfold State.partOwned
  simp only [Bool.or_eq_true, Bool.and_eq_true, Bool.not_eq_true', ← Bool.not_eq_true, decide_eq_true_eq, hprofile, hroom,
    hnotice, hm, hc, hs, hb, or_assoc]

/-- A byte is masked or dropped if and only if the part owns it, and consumed if and only if it lies in the voice
aperture space (R155). -/
theorem writeClass_owned {s : State} (h : allApart (regionsOf s.profileBlock s.profile) = true) (a : Nat) :
    (s.writeClass a).masks = s.partOwned a ∧ (s.writeClass a = .aperture ↔ s.inVoiceSpace a = true) := by
  have hvoice : s.inVoiceSpace a = true ↔ (s.regionOf a).1 = .aperture := by
    have := (inRegion_iff (a := a) h (x := (.aperture, s.profile.apertureBase, Config.apertureSpace))
      (List.mem_cons_of_mem _ List.mem_cons_self)).1
    unfold State.inVoiceSpace
    rw [Bool.and_eq_true, decide_eq_true_iff, decide_eq_true_iff]
    exact this
  rw [Bool.eq_iff_iff, partOwned_iff h, hvoice, writeClass_eq]
  obtain ⟨R, off⟩ := s.regionOf a
  cases R
  case profile | room =>
    simp only [regionClass]
    split <;> simp [WriteClass.masks] <;> omega
  case notice =>
    simp only [regionClass]
    split
    · simp [WriteClass.masks]; omega
    · split <;> simp [WriteClass.masks] <;> omega
  all_goals simp [regionClass, WriteClass.masks]

theorem classUnder_passes {s : State} (h : allApart (regionsOf s.profileBlock s.profile) = true) {mode : PartState}
    (hm : mode ≠ .passive) (a : Nat) :
    s.classUnder mode a = .passes ↔ (s.partOwned a || s.inVoiceSpace a) = false := by
  obtain ⟨hmask, hvoice⟩ := writeClass_owned h a
  unfold State.classUnder
  rw [if_neg hm, ← hmask, Bool.or_eq_false_iff, ← Bool.not_eq_true (s.inVoiceSpace a), ← hvoice]
  cases s.writeClass a <;> simp [WriteClass.masks]

/-- The lanes of a write that go on to memory, while the part is not PASSIVE: those of bytes that neither the part owns
nor the voice aperture space holds (R152, R155). -/
theorem passing_hostLanes {s : State} (h : allApart (regionsOf s.profileBlock s.profile) = true) {mode : PartState}
    (hm : mode ≠ .passive) (a : Nat) (ls : List (Option Byte)) : s.passing mode a ls = s.hostLanes a ls := by
  have key (k : Nat) : s.passing mode (a + k) ls = (ls.zipIdx k).map fun x =>
      if s.partOwned (a + x.2) || s.inVoiceSpace (a + x.2) then none else x.1 := by
    induction ls generalizing k with
    | nil => rfl
    | cons l ls ih =>
      have hl := classUnder_passes h hm (a + k)
      unfold State.passing
      rw [List.zipIdx_cons, List.map_cons, ← ih (k + 1), Nat.add_assoc]
      cases hb : (s.partOwned (a + k) || s.inVoiceSpace (a + k)) <;> simp_all
  exact key 0

theorem inAperture_eq {s : State} (h : allApart (regionsOf s.profileBlock s.profile) = true) {mode : PartState}
    (hm : mode ≠ .passive) (p : Part) : s.inAperture mode p = s.inVoiceSpace p.addr := by
  unfold State.inAperture State.classUnder
  rw [if_neg hm, Bool.eq_iff_iff, decide_eq_true_iff]
  exact (writeClass_owned h p.addr).2

/-- The bytes of a write that are masked or dropped are those the part owns (R155, R156). -/
theorem maskedCount_owned {s : State} (h : allApart (regionsOf s.profileBlock s.profile) = true) {mode : PartState}
    (hm : mode ≠ .passive) (r : HostRequest) :
    s.maskedCount mode r = ((reqEnabled r).filter fun e => s.partOwned e.1).length := by
  unfold State.maskedCount State.classUnder
  simp only [if_neg hm, (writeClass_owned h _).1]

theorem guardedBytes_passive (s : State) (r : HostRequest) : s.guardedBytes .passive r = [] := by
  unfold State.guardedBytes State.classUnder
  simp

/-- A write whose first part has a byte that goes on to memory raises that part's burst when it reaches the head. -/
theorem advanceHead_raises_write {req : HostRequest} {n : Nat} {w : HeadWork} {p : Part} {rest : List Part} {s : State}
    (h : allApart (regionsOf s.profileBlock s.profile) = true) (hm : w.mode ≠ .passive) (hreq : req.write = true)
    (hw : w.parts = p :: rest) (hv : s.inVoiceSpace p.addr = false)
    (hl : (s.hostLanes p.addr p.lanes).any Option.isSome = true) :
    advanceHead req (n + 1) w s =
      raise { source := .hostPart, write := true, addr := p.addr, beats := p.lanes.length / 8
              lanes := s.hostLanes p.addr p.lanes }
        { s with host.head := some { w with phase := .burst } } := by
  have hlanes := passing_hostLanes h hm p.addr p.lanes
  rw [advanceHead_raises hw ((inAperture_eq h hm p).trans hv) (by rw [hreq, if_pos rfl, hlanes]; exact hl), hreq,
    if_pos rfl, hlanes]

/-! The classes of access follow from the straps and the settings alone. -/

theorem inVoiceSpace_congr {s t : State} (hp : t.profile = s.profile) : t.inVoiceSpace = s.inVoiceSpace := by
  funext a; unfold State.inVoiceSpace; rw [hp]

theorem partOwned_congr {s t : State} (hp : t.profile = s.profile) (hs : t.straps = s.straps) :
    t.partOwned = s.partOwned := by
  funext a; unfold State.partOwned State.profileBlock; rw [hp, hs]

theorem hostLanes_congr {s t : State} (hp : t.profile = s.profile) (hs : t.straps = s.straps) (a : Nat)
    (ls : List (Option Byte)) : t.hostLanes a ls = s.hostLanes a ls := by
  unfold State.hostLanes; rw [inVoiceSpace_congr hp, partOwned_congr hp hs]

theorem regions_congr {s t : State} (hp : t.profile = s.profile) (hs : t.straps = s.straps) :
    regionsOf t.profileBlock t.profile = regionsOf s.profileBlock s.profile := by
  unfold State.profileBlock; rw [hp, hs]

theorem regionOf_congr {s t : State} (hp : t.profile = s.profile) (hs : t.straps = s.straps) :
    t.regionOf = s.regionOf := by
  funext a; unfold State.regionOf State.profileBlock; rw [hp, hs]

theorem observations_congr {s t : State} (hp : t.profile = s.profile) (hs : t.straps = s.straps) (hm : t.mem = s.mem)
    (mode : PartState) (r : HostRequest) : t.observations mode r = s.observations mode r := by
  have hw : t.mergedWord = s.mergedWord := by
    funext a es; unfold State.mergedWord; rw [hm]
  have ho : t.observe = s.observe := by
    funext es; unfold State.observe; rw [regionOf_congr hp hs, hw]
  unfold State.observations; rw [ho]

theorem checkoutRooms_congr {s t : State} (hc : t.control = s.control) (hs : t.straps = s.straps) (hm : t.mem = s.mem)
    (hr : t.host.rooms = s.host.rooms) (mode : PartState) (r : HostRequest) :
    t.checkoutRooms mode r = s.checkoutRooms mode r := by
  have ha : t.active = s.active := by unfold State.active; rw [hc]
  have hroom : t.roomShadow = s.roomShadow := by funext q; unfold State.roomShadow; rw [hr]
  have hafter : t.roomAfter = s.roomAfter := by funext q es; unfold State.roomAfter; rw [hroom]
  unfold State.checkoutRooms
  rw [ha, observations_congr (by unfold State.profile; rw [hc]) hs hm, hroom, hafter]
theorem maskedWrite_firstPart (r : HostRequest) (s : State) (p : Part) (rest : List Part) (ho : s.out = {})
    (hr : r.wellFormed = true) (hwr : r.write = true) (hs : s.control.state ≠ .passive)
    (hval : s.control.validating = none) (hh : s.host.head = none) (hf : s.host.fifo = []) (hw : s.host.waiting = [])
    (hl : s.host.loads = []) (hapart : allApart (regionsOf s.profileBlock s.profile) = true)
    (hrooms : s.checkoutRooms s.control.state r = []) (hparts : reqParts r = p :: rest)
    (hv : s.inVoiceSpace p.addr = false) (hlanes : (s.hostLanes p.addr p.lanes).any Option.isSome = true) :
    Completes (.hostRequest r) s
      { s with
        host := { s.host with
          fifo := [.host r], head := some { mode := s.control.state, parts := p :: rest, phase := .burst } }
        out.requests := [{ source := .hostPart, write := true, addr := p.addr, beats := p.lanes.length / 8
                           lanes := s.hostLanes p.addr p.lanes }] } := by
  refine present_starts (w := { mode := s.control.state, parts := p :: rest, phase := .burst }) ho hr hval hh hf hw hl ?_
    rfl (fun _ _ => nofun) hw hl
  have hstart : startRequest r (s.atHead r) =
      advanceHead r headFuel { mode := s.control.state, parts := p :: rest } (s.atHead r) := by
    have hstate : (s.atHead r).control.state = s.control.state := rfl
    unfold startRequest
    dsimp only
    rw [hstate, checkoutRooms_congr (s := s) (t := s.atHead r) rfl rfl rfl rfl, hrooms, if_pos rfl, hparts]
  have hlanes' := hostLanes_congr (s := s) (t := s.atHead r) rfl rfl p.addr p.lanes
  have hapart' : allApart (regionsOf (s.atHead r).profileBlock (s.atHead r).profile) = true := by
    rw [regions_congr (s := s) (t := s.atHead r) rfl rfl]; exact hapart
  have hv' := (congrFun (inVoiceSpace_congr (s := s) (t := s.atHead r) rfl) p.addr).trans hv
  rw [hstart, headFuel, advanceHead_raises_write (s := s.atHead r) hapart' hs hwr rfl hv' (by rw [hlanes']; exact hlanes),
    hlanes']
  unfold raise State.atHead
  simp [ho, hw]

theorem guardRoom_congr {s t : State} (hp : t.profile = s.profile) (hs : t.straps = s.straps) (a : Nat) :
    t.guardRoom a = s.guardRoom a := by
  suffices key : ∀ g, g = State.guardRoom → g t a = g s a from key _ rfl
  intro g hg
  delta State.guardRoom at hg
  rw [hg]
  dsimp only
  rw [regionOf_congr hp hs]

theorem carry_rest (r : Request) (d : Decision) (s : State) :
    ∃ m a, carry r (settleGrant d s) = { s with mem := m, arbiter := a } := by
  unfold carry
  split
  · exact ⟨_, _, rfl⟩
  · exact ⟨_, _, rfl⟩

/-- A decision that is made grants its request (R167). -/
theorem decision_completes {s u : State} {d : Decision} {r : Request} (ho : s.out = {}) (hd : s.decision = some d)
    (hr : s.granted = some r) (hu : grantEffect r (carry r (settleGrant d s)) = u) : Completes .arbiterDecision s u := by
  have ht : s.turn = some (d, r) := by unfold State.turn; rw [hd, hr]
  exact ⟨_, stepOn_of _ s ht, taken_endsAs' ho hu⟩

theorem maskedWrite_secondPart (s : State) (d : Decision) (r : Request) (req : HostRequest) (w : HeadWork) (p q : Part)
    (ho : s.out = {}) (hd : s.decision = some d) (hr : s.granted = some r) (hsrc : r.source = .hostPart)
    (hrw : r.write = true) (hhead : s.headRequest = some req) (hreq : req.write = true) (hh : s.host.head = some w)
    (hph : w.phase = .burst) (hm : w.mode ≠ .passive) (hparts : w.parts = [p, q])
    (hapart : allApart (regionsOf s.profileBlock s.profile) = true) (hv : s.inVoiceSpace q.addr = false)
    (hlanes : (s.hostLanes q.addr q.lanes).any Option.isSome = true) :
    Completes .arbiterDecision s
      { carry r (settleGrant d s) with
        host.head := some { w with parts := [q], phase := .burst }
        out.requests := [{ source := .hostPart, write := true, addr := q.addr, beats := q.lanes.length / 8
                           lanes := s.hostLanes q.addr q.lanes }] } := by
  refine decision_completes ho hd hr ?_
  obtain ⟨m, a, hc⟩ := carry_rest r d s
  rw [hc]
  generalize hu : ({ s with mem := m, arbiter := a } : State) = u
  have hprofile : u.profile = s.profile := by rw [← hu]; rfl
  have hstraps : u.straps = s.straps := by rw [← hu]
  have happ : allApart (regionsOf u.profileBlock u.profile) = true := by rw [regions_congr hprofile hstraps]; exact hapart
  have hl := hostLanes_congr hprofile hstraps q.addr q.lanes
  have hvu : u.inVoiceSpace q.addr = false := by rw [inVoiceSpace_congr hprofile]; exact hv
  have hraises : u.raisesNothing w.mode q = false := by
    unfold State.raisesNothing
    rw [passing_hostLanes happ hm, hl, hlanes]
    simp
  have hheadu : u.headRequest = some req := by rw [← hu]; exact hhead
  have hhu : u.host.head = some w := by rw [← hu]; exact hh
  have hou : u.out = {} := by rw [← hu]; exact ho
  unfold grantEffect
  rw [hsrc]
  dsimp only
  unfold hostPartGranted
  rw [hheadu, hhu]
  dsimp only
  rw [hrw, hreq, hph, hparts]
  simp only [List.tail_cons, List.all_cons, List.all_nil, hraises, decide_true, Bool.and_self, if_true, Bool.false_and,
    Bool.false_eq_true, if_false]
  rw [headFuel, advanceHead_raises_write (w := { mode := w.mode, parts := [q], answer := w.answer }) happ hm hreq rfl hvu
    (by rw [hl]; exact hlanes), hl]
  unfold raise
  rw [hou]
  rfl

theorem sat32_eq (n : Nat) : sat32 n = if n ≥ 0xFFFFFFFF then 0xFFFFFFFF else n + 1 := by
  unfold sat32 none32; rfl

theorem guardedWrite_counted (s : State) (req : HostRequest) (w : HeadWork) (a kind : Nat) (more : List (Nat × Nat))
    (ho : s.out = {}) (hl : s.leaving = some (req, w)) (hobs : s.atLeave.observations w.mode req = [])
    (hg : s.atLeave.guardedBytes w.mode req = (a, kind) :: more)
    (hapart : allApart (regionsOf s.profileBlock s.profile) = true) :
    WriteLeaves .guardedWrite s
      { s.leftHost with
        host.guardCount := if s.host.guardCount ≥ 0xFFFFFFFF then 0xFFFFFFFF else s.host.guardCount + 1
        out.notices := if s.enabled .guard then
          [(.host, ⟨.guard, s.guardRoom a, s.stamp, a / 64 % 4294967296,
            twoItems kind ((reqEnabled req).filter fun e => s.partOwned e.1).length⟩)] else [] } := by
  have hm : w.mode ≠ .passive := fun hp => by rw [hp, guardedBytes_passive] at hg; cases hg
  refine writeLeaves_of (m := .guarded) ho rfl hl ?_ ?_
  · unfold writeMarks; rw [hg]; simp
  · rw [leaveNow_eq hl, hobs, hg]
    obtain ⟨mem, arb, hs⟩ := atLeave_rest hl
    have hprofile : s.atLeave.profile = s.profile := by rw [hs]; rfl
    have hstraps : s.atLeave.straps = s.straps := by rw [hs]
    have hroom : s.leftHost.guardRoom a = s.guardRoom a := 
      guardRoom_congr (s := s) (t := s.leftHost) hprofile hstraps a
    have hcount : s.atLeave.maskedCount w.mode req = ((reqEnabled req).filter fun e => s.partOwned e.1).length := by
      rw [maskedCount_owned (by rw [regions_congr hprofile hstraps]; exact hapart) hm,
        partOwned_congr hprofile hstraps]
    have hen : s.leftHost.enabled .guard = s.enabled .guard := by
      unfold State.enabled; rw [show s.leftHost.profile = s.profile from hprofile]
    have hout : s.leftHost.out = {} := by unfold State.leftHost; rw [hs]; exact ho
    have hguard : s.leftHost.host.guardCount = s.host.guardCount := by unfold State.leftHost; rw [hs]
    have hstamp : s.leftHost.stamp = s.stamp := by unfold State.leftHost; rw [hs]; rfl
    rw [List.foldl_nil, hcount, ← sat32_eq, ← hroom, ← hen, ← hguard, ← hstamp]
    generalize s.leftHost = u at hout ⊢
    unfold guardWrite notify
    dsimp only
    split
    next he => rw [if_pos (show u.enabled .guard = true from he), hout]; rfl
    next he => rw [if_neg (show ¬ u.enabled .guard = true from he), hout]

/-- Settles O10, by the classes of access of regions that are apart. -/
theorem guardedBytesAreMaskedAndCounted : Obligations.GuardedBytesAreMaskedAndCounted :=
  ⟨maskedWrite_firstPart, maskedWrite_secondPart, guardedWrite_counted⟩

/-- A granted host write carries the lanes it was raised with, and they are in memory then (R151). -/
theorem carry_hostPart {r : Request} {d : Decision} {s : State} (hw : r.write = true) (hs : r.source = .hostPart) :
    (carry r (settleGrant d s)).arbiter.port = some { req := r, under := lanesUnder s.mem r.addr r.lanes } ∧
    (carry r (settleGrant d s)).mem = writeLanes s.mem r.addr r.lanes := by
  have hl : (settleGrant d s).grantLanes r = r.lanes := by unfold State.grantLanes; rw [hs]
  unfold carry
  rw [if_pos hw]
  dsimp only
  rw [hl]
  exact ⟨rfl, rfl⟩

/-- Settles O9. -/
theorem hostWriteLeavesAtItsGrant : Obligations.HostWriteLeavesAtItsGrant := by
  intro s req w ho hl hmarks
  have hguarded : s.atLeave.guardedBytes w.mode req = [] := by
    unfold State.leavingMarks at hmarks
    rw [hl] at hmarks
    have hnil : writeMarks s.atLeave w.mode req = [] := Option.some.inj hmarks
    unfold writeMarks at hnil
    by_contra hg
    rw [if_neg hg] at hnil
    cases hnil
  have hnow : leaveNow s = (s.atLeave.observations w.mode req).foldl (fun u o => observed o u) s.leftHost := by
    rw [leaveNow_eq hl, hguarded]; rfl
  refine ⟨?_, fun hb => ?_, atLeave_rest hl, fun r hb hend => ?_⟩
  · have he := taken_endsAs' ho hnow
    refine ⟨_, stepIf_of leaveNow s (by rw [hmarks]; rfl), he, atLeave_memory hl ?_⟩
    rw [he.mem, ← hnow, leaveNow_mem hl]
  · obtain ⟨-, -, ha⟩ | ⟨d, r, -, -, hr, -⟩ := leaving_burst hl
    · exact ha
    · rw [hb] at hr; cases hr
  · obtain ⟨-, hn, -⟩ | ⟨d, r', -, -, hr, hw, hs, -, ha⟩ := leaving_burst hl
    · rw [hb] at hn; cases hn
    · obtain rfl : r = r' := Option.some.inj (hb.symm.trans hr)
      obtain ⟨hport, hmem⟩ := carry_hostPart (d := d) (s := s) hw hs
      rw [ha]
      refine ⟨hport, fun k b hk => ?_⟩
      obtain ⟨hlt, -⟩ := List.getElem?_eq_some_iff.mp hk
      rw [hmem, readByte_writeLanes_inside _ _ _ k hlt hend, List.getD_eq_getElem?_getD, hk]
      rfl

end Sys2Proof.Machine
end

section
/-! PROOFS. Writes of room and tariff entries: check-in, checkout, and the changes of limit, quota and lamp present
(4.2 to 4.5, 6.3, 7.5, 7.7). -/

namespace Sys2Proof.Machine

theorem control_of_base {s t : State} (h : t.base = s.base) : t.control = s.control := congrArg (fun b => b.2.1) h

theorem host_of_base {s t : State} (h : t.base = s.base) : t.host = s.host := congrArg (fun b => b.2.2.1) h

theorem store_of_unlit {s t : State} (h : t.unlit = s.unlit) : t.store = s.store :=
  (congrArg State.store h : t.unlit.store = s.unlit.store)

theorem ring_of_unlit {s t : State} (h : t.unlit = s.unlit) : t.ring = s.ring :=
  (congrArg State.ring h : t.unlit.ring = s.unlit.ring)

theorem rating_of_unlit {s t : State} (h : t.unlit = s.unlit) : t.rating = s.rating :=
  (congrArg State.rating h : t.unlit.rating = s.unlit.rating)

theorem voice_of_unlit {s t : State} (h : t.unlit = s.unlit) : t.voice = s.voice :=
  (congrArg State.voice h : t.unlit.voice = s.unlit.voice)

/-! ### The state a write leaves in -/

theorem leftHost_rest {s : State} {req : HostRequest} {w : HeadWork} (h : s.leaving = some (req, w)) :
    ∃ m a, s.leftHost = { s with mem := m, arbiter := a, host := { s.host with fifo := s.host.fifo.tail, head := none } } := by
  obtain ⟨m, a, hs⟩ := atLeave_rest h
  exact ⟨m, a, by unfold State.leftHost; rw [hs]⟩

theorem handChanges_eq {r : Nat} {old new : Shadow} (hi : isCheckIn old new = false) (ho : isCheckout old new = false)
    (s : State) : handChanges r old new s = lampChange r old new (limitChange r old new s) := by
  unfold handChanges statusChange
  rw [hi, ho]; rfl

/-- A loaded room's host half has been written while the part is ACTIVE: its changes are handed over (R74, R75, R80). -/
theorem room_leaves {c : Instr} {m : WriteMark} {s : State} {r : Nat} {es : List (Nat × Byte)} (ho : s.out = {})
    (hc : exec c s = stepIf (s.leavesWith m) leaveNow s) (h : s.leavesCarrying [.room r es])
    (ha : s.control.state = .active) (hl : (s.roomShadow r).loaded = true)
    (hm : m ∈ roomMarks (s.roomShadow r) (s.roomAfter r es)) :
    WriteLeaves c s (handChanges r (s.roomShadow r) (s.roomAfter r es) (s.leftHost.setRoomShadow r (s.roomAfter r es))) := by
  have hw := writeLeaves_one (m := m) ho hc h
  obtain ⟨req, w, hleave, -, -⟩ := h
  obtain ⟨mem, arb, hat⟩ := atLeave_rest hleave
  have hmark : m ∈ observationMarks s.atLeave (.room r es) := by
    have hactive : s.atLeave.active = true := by rw [hat]; exact decide_eq_true ha
    have hroom : s.atLeave.roomShadow r = s.roomShadow r := by rw [hat]; rfl
    have hafter : s.atLeave.roomAfter r es = s.roomAfter r es := by rw [hat]; rfl
    unfold observationMarks
    dsimp only
    rw [hactive, hroom, hafter, hl]
    exact hm
  have hobs : observed (.room r es) s.leftHost =
      handChanges r (s.roomShadow r) (s.roomAfter r es) (s.leftHost.setRoomShadow r (s.roomAfter r es)) := by
    obtain ⟨m', a', hs⟩ := leftHost_rest hleave
    have hroom : s.leftHost.roomShadow r = s.roomShadow r := by rw [hs]; rfl
    have hafter : s.leftHost.roomAfter r es = s.roomAfter r es := by rw [hs]; rfl
    have hactive : s.leftHost.active = true := by rw [hs]; exact decide_eq_true ha
    show roomWritten r es s.leftHost = _
    unfold roomWritten
    dsimp only
    rw [hroom, hafter, hl, hactive]
    rfl
  rw [← hobs]
  exact hw hmark

/-! ### Quota and tariff -/

/-- Settles O16. -/
theorem quotaAndTariffWritesAreRecorded : Obligations.QuotaAndTariffWritesAreRecorded := by
  refine ⟨fun s r es ho h ha hl hi hco hlimit hlamp hquota => ⟨?_, ?_⟩, fun s i es ho h hl => ?_⟩
  · have hw := room_leaves (c := .mailboxQuotaChange) (m := .quota) ho rfl h ha hl (by simp [roomMarks, hquota.symm])
    rw [handChanges_eq hi hco] at hw
    unfold lampChange limitChange at hw
    rwa [if_pos hlimit.symm, if_pos hlamp.symm] at hw
  · obtain ⟨req, w, hleave, -, -⟩ := h
    obtain ⟨m, a, hs⟩ := leftHost_rest hleave
    unfold State.quotaOf
    rw [hs]
    simp
    rfl
  · have hw := writeLeaves_one (c := .tariffWrite) (m := .tariff) ho rfl h
    obtain ⟨req, w, hleave, -, -⟩ := h
    obtain ⟨mem, arb, hat⟩ := atLeave_rest hleave
    obtain ⟨m, a, hs⟩ := leftHost_rest hleave
    have htariff : s.leftHost.tariffShadow i = s.tariffShadow i := by rw [hs]; rfl
    have hmark : WriteMark.tariff ∈ observationMarks s.atLeave (.tariff i es) := by
      unfold observationMarks
      dsimp only
      rw [show s.atLeave.tariffShadow i = s.tariffShadow i by rw [hat]; rfl, hl]
      exact List.mem_singleton_self _
    have hobs : observed (.tariff i es) s.leftHost = s.leftHost.setTariffShadow i
        { s.tariffShadow i with bytes := mergeBytes tariffField (s.tariffShadow i).bytes es } := by
      show tariffWritten i es s.leftHost = _
      unfold tariffWritten
      dsimp only
      rw [htariff, hl]
      rfl
    rw [← hobs]
    exact hw hmark

/-! ### A checkout write that is held -/

/-- Settles O12. -/
theorem checkoutWriteIsHeld : Obligations.CheckoutWriteIsHeld := by
  intro s req w ho hat hpos hline
  have hno : s.grantsAtOnce (s.checkoutPlaces w.mode req) = false := by
    unfold State.grantsAtOnce
    rw [Bool.or_eq_false_iff, Bool.and_eq_false_iff]
    refine ⟨decide_eq_false (by omega), hline.imp (fun h => ?_) fun h => decide_eq_false (by omega)⟩
    simpa using h
  have hold : s.mustHold = some (req, w) := by
    unfold State.mustHold
    rw [hat]
    exact Option.filter_some_pos (by rw [hno]; rfl)
  exact ⟨_, stepOn_of _ s hold, taken_endsAs' ho rfl⟩

/-! ### Credit limit and lamp present -/

/-- The first thing a step raises is a notice, or nothing (R183). -/
theorem notify_first {s : State} (h : s.out = {}) (who : Requester) (k : NoticeKind) (room a b : Nat) :
    notify who k room a b s =
      { s with out.notices := if s.enabled k then [(who, ⟨k, room, s.stamp, a, b⟩)] else [] } := by
  unfold notify
  split
  · rw [h]; rfl
  · cases s; cases h; rfl

theorem barredBy_eq (o : Option Folio) (limit : Nat) :
    barredBy o limit = o.any fun g => decide (0 < limit) && decide ((limit : Int) ≤ g.total) := by
  cases o <;> rfl

/-- R80, R145, R146: a change of credit limit alone. -/
theorem creditLimit_changes (s : State) (r : Nat) (es : List (Nat × Byte)) (ho : s.out = {})
    (h : s.leavesCarrying [.room r es]) (ha : s.control.state = .active) (hl : (s.roomShadow r).loaded = true)
    (hi : isCheckIn (s.roomShadow r) (s.roomAfter r es) = false)
    (hco : isCheckout (s.roomShadow r) (s.roomAfter r es) = false)
    (hlimit : (s.roomAfter r es).creditLimit ≠ (s.roomShadow r).creditLimit)
    (hlamp : (s.roomAfter r es).lampPresent = (s.roomShadow r).lampPresent) :
    let limit := (s.roomAfter r es).creditLimit
    let f := s.folios r
    let barred := f.opened.any fun g => decide (0 < limit) && decide ((limit : Int) ≤ g.total)
    let u := s.leftHost.setRoomShadow r (s.roomAfter r es)
    let v := { u.setFolios r { f with barred := barred } with
      rating.marks := addMark s.rating.marks r
      out.notices :=
        if s.enabled (if barred then .creditStop else .creditClear) then
          [(.rating, ⟨if barred then .creditStop else .creditClear, r, s.stamp, word32 (s.openTotal r), limit⟩)] else [] }
    WriteLeaves .creditLimitChange s (if barred = f.barred then u else v) := by
  have hw := room_leaves (c := .creditLimitChange) (m := .limit) ho rfl h ha hl (by simp [roomMarks, hlimit.symm])
  rw [handChanges_eq hi hco] at hw
  unfold lampChange limitChange at hw
  rw [if_neg hlimit.symm, if_pos hlamp.symm] at hw
  obtain ⟨req, w, hleave, -, -⟩ := h
  obtain ⟨m, a, hs⟩ := leftHost_rest hleave
  intro limit f barred u v
  suffices he : workOutBarred r (u.openTotal r) u = if barred = f.barred then u else v by rw [← he]; exact hw
  have hf : u.folios r = f := by show s.leftHost.folios r = _; rw [hs]; rfl
  have hcl : u.creditLimit r = limit := by simp [u, limit, State.creditLimit]
  have hb : barredBy f.opened limit = barred := barredBy_eq _ _
  have htotal : u.openTotal r = s.openTotal r := by show s.leftHost.openTotal r = _; rw [hs]; rfl
  have hout : u.out = {} := by show s.leftHost.out = _; rw [hs]; exact ho
  have hen (k : NoticeKind) : s.enabled k = u.enabled k := by show _ = s.leftHost.enabled k; rw [hs]; rfl
  have hstamp : s.stamp = u.stamp := by show _ = s.leftHost.stamp; rw [hs]; rfl
  have hmarks : s.rating.marks = u.rating.marks := by show _ = s.leftHost.rating.marks; rw [hs]
  unfold workOutBarred
  dsimp only
  rw [hf, hcl, hb, htotal]
  split
  · rfl
  · have hv : v = { u.setFolios r { f with barred := barred } with
        rating.marks := addMark u.rating.marks r
        out.notices := if u.enabled (if barred then .creditStop else .creditClear) then
          [(.rating, ⟨if barred then .creditStop else .creditClear, r, u.stamp, word32 (s.openTotal r), limit⟩)]
          else [] } := by
      show ({ u.setFolios r { f with barred := barred } with rating.marks := _, out.notices := _ } : State) = _
      rw [hmarks, hen, hstamp]
    rw [hv, notify_first (by exact hout)]
    rfl

/-! The phase counts of a card (R89, R91, R92). -/

theorem count_leave (c : Card) (q : Pattern) (qh : Phase) (p : Pattern) (ph : Phase) :
    (c.leave q qh).count p ph = c.count p ph - if q = p ∧ qh = ph then 1 else 0 := by
  cases q <;> cases qh <;> cases p <;> cases ph <;> rfl

theorem count_enter (c : Card) (q : Pattern) (qh : Phase) (p : Pattern) (ph : Phase) (hp : p = .fast ∨ p = .slow)
    (hph : ph = .a ∨ ph = .b) : (c.enter q qh).count p ph = c.count p ph + if q = p ∧ qh = ph then 1 else 0 := by
  rcases hp with rfl | rfl <;> rcases hph with rfl | rfl <;> cases q <;> cases qh <;> rfl

theorem recomputeLamp_card (r k : Nat) (s : State) :
    (recomputeLamp r s).card k =
      if s.patternOf r = (s.lampOf r).pattern ∨ k ≠ r / 64 then s.card k
      else ((s.card k).leave (s.lampOf r).pattern (s.lampOf r).phase).enter (s.patternOf r)
        (phaseFor ((s.card k).leave (s.lampOf r).pattern (s.lampOf r).phase) (s.patternOf r)) := by
  unfold recomputeLamp
  dsimp only
  split
  next h => rw [if_pos (.inl h)]
  next h =>
    simp only [h, false_or]
    by_cases hk : k = r / 64
    · subst hk; simp
    · simp [hk]

theorem phaseFor_eq (c : Card) (p : Pattern) :
    phaseFor c p = if p = .fast ∨ p = .slow then (if c.count p .b < c.count p .a then .b else .a) else .none := by
  cases p <;> rfl

/-- R80, R91, R92: a change of lamp present alone. -/
theorem lampPresent_changes (s : State) (r : Nat) (es : List (Nat × Byte)) (ho : s.out = {})
    (h : s.leavesCarrying [.room r es]) (ha : s.control.state = .active) (hl : (s.roomShadow r).loaded = true)
    (hi : isCheckIn (s.roomShadow r) (s.roomAfter r es) = false)
    (hco : isCheckout (s.roomShadow r) (s.roomAfter r es) = false)
    (hlimit : (s.roomAfter r es).creditLimit = (s.roomShadow r).creditLimit)
    (hlamp : (s.roomAfter r es).lampPresent ≠ (s.roomShadow r).lampPresent) :
    ∃ t, exec .lampPresentChange s = .next t ∧ leavesMemory s t ∧
      EndsAs (markLamp r (recomputeLamp r (s.leftHost.setRoomShadow r (s.roomAfter r es)))) t := by
  have hw := room_leaves (c := .lampPresentChange) (m := .lampPresent) ho rfl h ha hl (by simp [roomMarks, hlamp.symm])
  rw [handChanges_eq hi hco] at hw
  unfold lampChange limitChange at hw
  rw [if_pos hlimit.symm, if_neg hlamp.symm] at hw
  obtain ⟨t, hx, he, hm⟩ := hw
  exact ⟨t, hx, hm, he⟩

/-- Settles O15. -/
theorem limitAndLampPresentChanges : Obligations.LimitAndLampPresentChanges := by
  refine ⟨creditLimit_changes, fun s r es ho h ha hl hi hco hlimit hlamp => ?_⟩
  obtain ⟨t, hx, hm, he⟩ := lampPresent_changes s r es ho h ha hl hi hco hlimit hlamp
  obtain ⟨req, w, hleave, -, -⟩ := h
  obtain ⟨m, a, hs⟩ := leftHost_rest hleave
  generalize hu : s.leftHost.setRoomShadow r (s.roomAfter r es) = u at he
  have hlampOf (q) : u.lampOf q = s.lampOf q := by rw [← hu, hs]; rfl
  have hcard (k) : u.card k = s.card k := by rw [← hu, hs]; rfl
  have hbox (q) : u.mailbox q = s.mailbox q := by rw [← hu, hs]; rfl
  have hshadow (q) : u.roomShadow q = if q = r then s.roomAfter r es else s.roomShadow q := by
    rw [← hu, hs, State.setRoomShadow_roomShadow]; rfl
  have hloaded : (s.roomAfter r es).loaded = true := hl
  have hpat : u.patternOf r = effectivePattern (s.lampOf r).override (s.roomAfter r es).lampPresent
      (decide ((s.roomAfter r es).status = .occupied)) (s.mailbox r) := by
    unfold State.patternOf State.occupied
    rw [hlampOf, hbox, hshadow, if_pos rfl, hloaded, Bool.true_and]
  obtain ⟨hothers, hown, -, -, hunlit⟩ := recomputeLamp_spec r u
  obtain ⟨hover, hlatch, hmis⟩ := recomputeLamp_kept r u
  have hlamps (q) : t.lampOf q = (recomputeLamp r u).lampOf q := (he.lampOf q).trans rfl
  have hcards (k) : t.card k = (recomputeLamp r u).card k := (he.card k).trans rfl
  have hshadows (q) : t.roomShadow q = u.roomShadow q := by
    rw [he.roomShadow]
    exact (congrArg (fun v : State => v.roomShadow q) hunlit : (recomputeLamp r u).unlit.roomShadow q = u.unlit.roomShadow q)
  have hpattern : (t.lampOf r).pattern = u.patternOf r := by rw [hlamps, recomputeLamp_pattern]
  refine ⟨t, hx, hm, ?_, ?_, ?_, ?_, ?_, ?_, ?_, fun k hk => ?_, fun q hq => ⟨?_, ?_⟩, ?_, ?_, ?_, ?_, ?_⟩
  · rw [hshadows, hshadow, if_pos rfl]
  · rw [hpattern, hpat]
  · rw [hlamps, hover, hlampOf]
  · rw [hlamps, hlatch, hlampOf]
  · rw [hlamps, hmis, hlampOf]
  · rw [he.lamp]; exact mem_addMark.mpr (.inl rfl)
  · have hold : t.lampOf r = if u.patternOf r = (s.lampOf r).pattern then s.lampOf r else
        { s.lampOf r with pattern := u.patternOf r
                          phase := phaseFor ((s.card (r / 64)).leave (s.lampOf r).pattern (s.lampOf r).phase) (u.patternOf r) } := by
      rw [hlamps, hown, hlampOf, hcard]
    have hnew : t.card (r / 64) = if u.patternOf r = (s.lampOf r).pattern then s.card (r / 64) else
        ((s.card (r / 64)).leave (s.lampOf r).pattern (s.lampOf r).phase).enter (u.patternOf r)
          (phaseFor ((s.card (r / 64)).leave (s.lampOf r).pattern (s.lampOf r).phase) (u.patternOf r)) := by
      rw [hcards, recomputeLamp_card, hlampOf, hcard]; simp
    dsimp only
    refine ⟨fun hp => ?_, fun hp => ?_⟩
    · rw [hpattern] at hp
      rw [hold, hnew, if_pos hp, if_pos hp]
      exact ⟨rfl, rfl⟩
    · rw [hpattern] at hp
      rw [hold, hnew, if_neg hp, if_neg hp, phaseFor_eq]
      simp only [count_leave]
      exact ⟨trivial, fun p ph hp hph => by rw [count_enter _ _ _ _ _ hp hph, count_leave]⟩
  · rw [hcards, recomputeLamp_card, if_pos (.inr hk), hcard]
  · rw [hlamps, hothers q hq, hlampOf]
  · rw [hshadows, hshadow, if_neg hq]
  · rw [he.store, markLamp_store, recomputeLamp_store, ← hu, hs]; rfl
  · rw [he.ring, markLamp_ring, recomputeLamp_ring, ← hu, hs]; rfl
  · rw [he.rating, markLamp_rating, recomputeLamp_rating, ← hu, hs]; rfl
  · rw [he.time, time_of_outer (State.outer_of_base ((markLamp_base ..).trans (recomputeLamp_base ..))), ← hu, hs]; rfl
  · rw [he.control, control_of_base ((markLamp_base ..).trans (recomputeLamp_base ..)), ← hu, hs]; rfl

/-! ### Check-in -/

/-- Without an OPEN folio that reaches the limit, and with the flag clear, nothing is worked out anew (R145). -/
theorem limitChange_of_unbarred {r : Nat} {old new : Shadow} {s : State}
    (h : barredBy (s.folios r).opened (s.creditLimit r) = (s.folios r).barred) : limitChange r old new s = s := by
  unfold limitChange workOutBarred
  dsimp only
  rw [if_pos h, ite_self]

/-- What a change of lamp present leaves, whether there is one or not (R80, R91). -/
theorem lampChange_spec (r : Nat) (old new : Shadow) (s : State) :
    (∀ q, q ≠ r → (lampChange r old new s).lampOf q = s.lampOf q) ∧
    ((lampChange r old new s).lampOf r).override = (s.lampOf r).override ∧
    ((s.lampOf r).pattern = s.patternOf r → ((lampChange r old new s).lampOf r).pattern = s.patternOf r) ∧
    (∀ k ∈ s.lamp.marks, k ∈ (lampChange r old new s).lamp.marks) ∧
    (lampChange r old new s).unlit = s.unlit := by
  unfold lampChange
  split
  · exact ⟨fun _ _ => rfl, rfl, id, fun _ => id, rfl⟩
  · obtain ⟨hothers, -, hmarks, -, hunlit⟩ := recomputeLamp_spec r s
    exact ⟨hothers, (recomputeLamp_kept r s).1, fun _ => recomputeLamp_pattern r s,
      fun k hk => mem_addMark.mpr (.inr (hmarks k hk)), hunlit⟩

theorem EndsAs.patternOf {u t : State} (h : EndsAs u t) (r : Nat) : t.patternOf r = u.patternOf r := by
  unfold State.patternOf State.occupied
  rw [h.lampOf, h.roomShadow, h.mailbox]

/-- The serial a folio opened in room `r` takes: the next one that the CLOSED folio does not hold (R137). -/
def State.openingSerial (s : State) (r : Nat) : Nat :=
  if (s.folios r).closed.any (fun g => decide (g.serial = s.rating.serial)) then nextSerial s.rating.serial
  else s.rating.serial

/-- The serial counter follows the folio opened (R137). -/
def State.withSerial (s : State) (n : Nat) : State := { s with rating.serial := n }

theorem openFolio_eq (r : Nat) (s : State) :
    openFolio r s = (s.setFolios r { s.folios r with opened := some { serial := s.openingSerial r } }).withSerial
      (nextSerial (s.openingSerial r)) := by
  unfold openFolio State.openingSerial
  dsimp only
  cases (s.folios r).closed <;> rfl

/-- What the check-in does to the books: the folio, the serial, toll-barred and the mark (R77, R137). -/
theorem checkIn_books (r : Nat) (s : State) :
    ((checkIn r s).folios r = ⟨some { serial := s.openingSerial r }, (s.folios r).closed, false⟩ ∧
      ∀ q, q ≠ r → (checkIn r s).folios q = s.folios q) ∧
    (checkIn r s).rating.serial = nextSerial (s.openingSerial r) ∧ r ∈ (checkIn r s).rating.marks ∧
    (checkIn r s).rating.trunks = s.rating.trunks := by
  have hfol (q) (v : State) (n) : (v.withSerial n).folios q = v.folios q := rfl
  generalize hy : markFolio r ((openFolio r s).setFolios r { (openFolio r s).folios r with barred := false }) = y
  have hrat : (checkIn r s).rating = y.rating := by rw [← hy]; exact clearDesk_rating r _
  have hfols (q) : (checkIn r s).folios q = y.folios q := by unfold State.folios; rw [hrat]
  have hyfol (q) : y.folios q =
      if q = r then ⟨some { serial := s.openingSerial r }, (s.folios r).closed, false⟩ else s.folios q := by
    rw [← hy, markFolio_folios, State.setFolios_folios, openFolio_eq, hfol, hfol, State.setFolios_folios,
      State.setFolios_folios, if_pos rfl]
    split <;> rfl
  rw [hrat]
  refine ⟨⟨by rw [hfols, hyfol, if_pos rfl], fun q hq => by rw [hfols, hyfol, if_neg hq]⟩, ?_, ?_, ?_⟩
  · rw [← hy, openFolio_eq]; rfl
  · rw [← hy]; exact mem_addMark.mpr (.inl rfl)
  · rw [← hy, openFolio_eq]; rfl

/-- What it does to the lamps, and that nothing else of the engines changes (R77). -/
theorem checkIn_lamps (r : Nat) (s : State) :
    (∀ q, q ≠ r → (checkIn r s).lampOf q = s.lampOf q) ∧
    ((checkIn r s).lampOf r).override = (if (s.lampOf r).override = .desk then .none else (s.lampOf r).override) ∧
    ((checkIn r s).lampOf r).pattern = (checkIn r s).patternOf r ∧ r ∈ (checkIn r s).lamp.marks ∧
    (checkIn r s).store = s.store ∧ (checkIn r s).ring = s.ring ∧ (checkIn r s).voice = s.voice := by
  generalize hy : markFolio r ((openFolio r s).setFolios r { (openFolio r s).folios r with barred := false }) = y
  have heq : checkIn r s = clearDesk r y := by rw [← hy]; rfl
  have hl (q) : y.lampOf q = s.lampOf q := by rw [← hy, openFolio_eq]; rfl
  obtain ⟨hothers, hover, hpat, hmark, hunlit⟩ := clearDesk_spec r y
  rw [heq, ← hl r]
  refine ⟨fun q hq => (hothers q hq).trans (hl q), hover, ?_, hmark, ?_, ?_, ?_⟩
  · rw [hpat]
    have hshadow : (clearDesk r y).roomShadow r = y.roomShadow r :=
      (congrArg (fun v : State => v.roomShadow r) hunlit : (clearDesk r y).unlit.roomShadow r = y.unlit.roomShadow r)
    have hbox : (clearDesk r y).mailbox r = y.mailbox r := by unfold State.mailbox; rw [clearDesk_store]
    unfold State.patternOf State.occupied
    rw [hover, hshadow, hbox]
  · rw [clearDesk_store, ← hy]; exact openFolio_store r s
  · rw [clearDesk_ring, ← hy]; exact openFolio_ring r s
  · rw [clearDesk_voice, ← hy]; exact openFolio_voice r s

/-- Settles O11: a check-in clears toll-barred, and a folio of total 0 bars nobody, so a change of limit in the same
write works out nothing. -/
theorem checkInOpensAFolio : Obligations.CheckInOpensAFolio := by
  intro s r es ho h ha hl hi
  obtain ⟨t, hx, he, hm⟩ := room_leaves (c := .checkIn) (m := .checkIn) ho rfl h ha hl (by simp [roomMarks, hi])
  obtain ⟨req, w, hleave, -, -⟩ := h
  obtain ⟨m, a, hs⟩ := leftHost_rest hleave
  generalize hu : s.leftHost.setRoomShadow r (s.roomAfter r es) = u at he
  obtain ⟨⟨hfr, hfq⟩, hserial, hmark, htrunks⟩ := checkIn_books r u
  obtain ⟨hlq, hover, hpat, hlmark, hstore, hring, hvoice⟩ := checkIn_lamps r u
  have hbase := handChanges_base r (s.roomShadow r) (s.roomAfter r es) u
  have hn : u.openingSerial r = s.openingSerial r := by rw [← hu, hs]; rfl
  have hlimit : limitChange r (s.roomShadow r) (s.roomAfter r es) (checkIn r u) = checkIn r u := by
    refine limitChange_of_unbarred ?_
    rw [hfr]
    unfold barredBy
    cases (checkIn r u).creditLimit r <;> rfl
  have hhand : handChanges r (s.roomShadow r) (s.roomAfter r es) u =
      lampChange r (s.roomShadow r) (s.roomAfter r es) (checkIn r u) := by
    unfold handChanges statusChange
    rw [if_pos hi, hlimit]
  rw [hhand] at he hbase
  obtain ⟨hcq, hcover, hcpat, hcmarks, hunlit⟩ := lampChange_spec r (s.roomShadow r) (s.roomAfter r es) (checkIn r u)
  generalize lampChange r (s.roomShadow r) (s.roomAfter r es) (checkIn r u) = v at *
  have hrat : t.rating = (checkIn r u).rating := he.rating.trans (rating_of_unlit hunlit)
  have hfol (q) : t.folios q = (checkIn r u).folios q := by unfold State.folios; rw [hrat]
  have hshadow (q) : t.roomShadow q = if q = r then s.roomAfter r es else s.roomShadow q := by
    have : t.host.rooms = u.host.rooms := he.rooms.trans (congrArg HostPath.rooms (host_of_base hbase))
    unfold State.roomShadow
    rw [this, ← hu, hs]
    exact State.setRoomShadow_roomShadow s r _ q
  refine ⟨t, _, hx, hm, rfl, ?_, ?_, ?_, ?_, ?_, ?_, ?_, fun q hq => ⟨?_, ?_, ?_⟩, ?_, ?_, ?_, ?_, ?_, ?_, ?_⟩
  · rw [hfol, hfr, hn, ← hu, hs]; rfl
  · rw [hrat, hserial, hn]; rfl
  · rw [hrat]; exact hmark
  · rw [he.lamp]; exact hcmarks r hlmark
  · rw [he.lampOf, hcover, hover, ← hu, hs]; rfl
  · rw [he.lampOf, he.patternOf, hcpat hpat, patternOf_congr hunlit r hcover]
  · rw [hshadow, if_pos rfl]
  · rw [hfol, hfq q hq, ← hu, hs]; rfl
  · rw [he.lampOf, hcq q hq, hlq q hq, ← hu, hs]; rfl
  · rw [hshadow, if_neg hq]
  · rw [he.store]; exact (store_of_unlit hunlit).trans (hstore.trans (by rw [← hu, hs]; rfl))
  · rw [he.ring]; exact (ring_of_unlit hunlit).trans (hring.trans (by rw [← hu, hs]; rfl))
  · rw [hrat, htrunks, ← hu, hs]; rfl
  · rw [he.time, time_of_outer (State.outer_of_base hbase), ← hu, hs]; rfl
  · rw [he.frame, (outer_sameOuter (State.outer_of_base hbase)).2.2.1, ← hu, hs]; rfl
  · rw [he.control, control_of_base hbase, ← hu, hs]; rfl
  · intro k hk
    have hv : v.voice = s.voice := (voice_of_unlit hunlit).trans (hvoice.trans (by rw [← hu, hs]; rfl))
    have hch (k) : v.channel k = s.channel k := by unfold State.channel; rw [hv]
    rw [he.channels k (by unfold State.stillChannel; rw [hch]; exact hk), hch]

/-! ### Checkout -/

theorem classUnder_congr {s t : State} (hp : t.profile = s.profile) (hs : t.straps = s.straps) (mode : PartState) :
    t.classUnder mode = s.classUnder mode := by
  funext a
  unfold State.classUnder
  rw [writeClass_eq, writeClass_eq, regionOf_congr hp hs]

theorem inAperture_congr {s t : State} (hp : t.profile = s.profile) (hs : t.straps = s.straps) (mode : PartState)
    (p : Part) : t.inAperture mode p = s.inAperture mode p := by
  unfold State.inAperture; rw [classUnder_congr hp hs]

theorem guardedBytes_congr {s t : State} (hp : t.profile = s.profile) (hs : t.straps = s.straps) (mode : PartState)
    (r : HostRequest) : t.guardedBytes mode r = s.guardedBytes mode r := by
  unfold State.guardedBytes; rw [classUnder_congr hp hs]

/-- A write without aperture parts only raises its bursts as it leaves (R76). -/
theorem performParts_raises {mode : PartState} {ps : List Part} {s : State}
    (h : ∀ p ∈ ps, s.inAperture mode p = false) :
    ∃ rs, performParts mode ps s = { s with out.requests := rs } := by
  induction ps generalizing s with
  | nil => exact ⟨s.out.requests, rfl⟩
  | cons p ps ih =>
    unfold performParts
    rw [h p List.mem_cons_self]
    dsimp only
    rw [if_neg Bool.false_ne_true]
    split
    · obtain ⟨rs, hrs⟩ := ih (s := raise _ s) fun q hq =>
        (inAperture_congr (s := s) (t := raise _ s) rfl rfl mode q).trans (h q (List.mem_cons_of_mem _ hq))
      exact ⟨rs, hrs⟩
    · exact ih fun q hq => h q (List.mem_cons_of_mem _ hq)

/-- The state with another release line. -/
def State.withLine (s : State) (line : List ReleaseRequest) : State := { s with store.releaseLine := line }

/-- The state in which a checkout write has left, its bursts `rs` raised. -/
def State.checkoutLeft (s : State) (rs : List Request) (line : List ReleaseRequest) : State :=
  { s.withLine line with out.requests := rs, host := { s.host with fifo := s.host.fifo.tail, head := none } }

/-- A checkout write of one room, with nothing guarded, hands over its changes as it leaves (R76, R78, R79). -/
theorem leaveCheckout_hands {s : State} {req : HostRequest} {w : HeadWork} {r : Nat} {es : List (Nat × Byte)}
    (hparts : ∀ p ∈ w.parts, s.inAperture w.mode p = false) (hobs : s.observations w.mode req = [.room r es])
    (hg : s.guardedBytes w.mode req = []) (ha : s.control.state = .active) (hl : (s.roomShadow r).loaded = true)
    (line : List ReleaseRequest) :
    ∃ rs, leaveCheckout req w (s.withLine line) = handChanges r (s.roomShadow r) (s.roomAfter r es)
      ((s.checkoutLeft rs line).setRoomShadow r (s.roomAfter r es)) := by
  obtain ⟨rs, hrs⟩ := performParts_raises (mode := w.mode) (ps := w.parts) (s := s.withLine line)
    fun p hp => (inAperture_congr (s := s) (t := s.withLine line) rfl rfl w.mode p).trans (hparts p hp)
  refine ⟨rs, ?_⟩
  unfold leaveCheckout leaveWrite
  rw [hrs]
  dsimp only
  rw [observations_congr (s := s) (t := { s.withLine line with out.requests := rs }) rfl rfl rfl, hobs,
    guardedBytes_congr (s := s) (t := { s.withLine line with out.requests := rs }) rfl rfl, hg]
  show roomWritten r es (s.checkoutLeft rs line) = _
  have hroom : (s.checkoutLeft rs line).roomShadow r = s.roomShadow r := rfl
  have hafter : (s.checkoutLeft rs line).roomAfter r es = s.roomAfter r es := rfl
  have hactive : (s.checkoutLeft rs line).active = true := decide_eq_true ha
  unfold roomWritten
  dsimp only
  rw [hroom, hafter, hl, hactive]
  rfl

theorem mem_foldl_addMark {l m : List Nat} {k : Nat} : k ∈ l.foldl addMark m ↔ k ∈ l ∨ k ∈ m := by
  induction l generalizing m with
  | nil => simp
  | cons a l ih => rw [List.foldl_cons, ih, mem_addMark, List.mem_cons]; tauto

/-- The CLOSED folio goes, its records return to the pool, and the discard is counted (R141). -/
theorem discardClosed_books (r : Nat) (s : State) :
    ((discardClosed r s).folios r = { s.folios r with closed := none } ∧
      ∀ q, q ≠ r → (discardClosed r s).folios q = s.folios q) ∧
    (discardClosed r s).rating.trunks = s.rating.trunks ∧
    (discardClosed r s).rating.discardedCount =
      (if (s.folios r).closed.isSome then sat32 s.rating.discardedCount else s.rating.discardedCount) ∧
    (∀ g, (s.folios r).closed = some g → ∀ k ∈ g.records, k ∈ (discardClosed r s).rating.freePool) := by
  unfold discardClosed
  cases hc : (s.folios r).closed with
  | none =>
    have he : ({ s.folios r with closed := none } : RoomFolios) = s.folios r := by rw [← hc]
    exact ⟨⟨he.symm, fun _ _ => rfl⟩, rfl, rfl, nofun⟩
  | some g =>
    dsimp only
    generalize hy : ({ (returnRecords g s).setFolios r { (returnRecords g s).folios r with closed := none } with
        rating.discardedCount := sat32 (returnRecords g s).rating.discardedCount } : State) = y
    have hyfol (q) : y.folios q = if q = r then { s.folios r with closed := none } else s.folios q := by
      rw [← hy]
      exact State.setFolios_folios (returnRecords g s) r { s.folios r with closed := none } q
    have hrat : (notify .rating .folioDiscarded r g.serial (word32 g.total) y).rating = y.rating := notify_rating ..
    have hfol (q) : (notify .rating .folioDiscarded r g.serial (word32 g.total) y).folios q = y.folios q := by
      unfold State.folios; rw [hrat]
    rw [hrat, hfol, hyfol, if_pos rfl]
    refine ⟨⟨rfl, fun q hq => by rw [hfol, hyfol, if_neg hq]⟩, by rw [← hy]; rfl, by rw [← hy]; rfl, fun g' hg k hk => ?_⟩
    obtain rfl := Option.some.inj hg
    rw [← hy]
    exact mem_foldl_addMark.mpr (.inl hk)

/-- The OPEN folio closes (R79, R141). -/
theorem closeFolio_books {r : Nat} {s : State} {f : Folio} (hf : (s.folios r).opened = some f) :
    ((closeFolio r s).folios r = ⟨none, some { f with late := 0 }, (s.folios r).barred⟩ ∧
      ∀ q, q ≠ r → (closeFolio r s).folios q = s.folios q) ∧
    (closeFolio r s).rating.trunks = s.rating.trunks ∧
    (closeFolio r s).rating.discardedCount =
      (if (s.folios r).closed.isSome then sat32 s.rating.discardedCount else s.rating.discardedCount) ∧
    (∀ g, (s.folios r).closed = some g → ∀ k ∈ g.records, k ∈ (closeFolio r s).rating.freePool) ∧
    r ∈ (closeFolio r s).rating.marks := by
  obtain ⟨⟨hr, hq⟩, htrunks, hcount, hpool⟩ := discardClosed_books r s
  unfold closeFolio
  dsimp only
  have hopened : ((discardClosed r s).folios r).opened = some f := by rw [hr]; exact hf
  rw [hopened]
  dsimp only
  refine ⟨⟨?_, fun q hne => ?_⟩, htrunks, hcount, hpool, mem_addMark.mpr (.inl rfl)⟩
  · rw [markFolio_folios, State.setFolios_folios, if_pos rfl, hr]
  · rw [markFolio_folios, State.setFolios_folios, if_neg hne, hq q hne]

/-- Without an OPEN folio the room is not barred (R145): what working it out leaves. -/
theorem workOutBarred_books {r : Nat} {total : Int} {s : State} (ho : (s.folios r).opened = none) :
    ((workOutBarred r total s).folios r = { s.folios r with barred := false } ∧
      ∀ q, q ≠ r → (workOutBarred r total s).folios q = s.folios q) ∧
    (workOutBarred r total s).rating.trunks = s.rating.trunks ∧
    (workOutBarred r total s).rating.discardedCount = s.rating.discardedCount ∧
    (workOutBarred r total s).rating.freePool = s.rating.freePool ∧
    (∀ k ∈ s.rating.marks, k ∈ (workOutBarred r total s).rating.marks) := by
  have hb : barredBy (s.folios r).opened (s.creditLimit r) = false := by rw [ho]; rfl
  unfold workOutBarred
  dsimp only
  rw [hb]
  split
  next h => exact ⟨⟨by rw [h], fun _ _ => rfl⟩, rfl, rfl, rfl, fun _ => id⟩
  next h =>
    generalize hy : markFolio r (s.setFolios r { s.folios r with barred := false }) = y
    have hrat (k a) : (notify .rating k r a (s.creditLimit r) y).rating = y.rating := notify_rating ..
    have hfol (k a q) : (notify .rating k r a (s.creditLimit r) y).folios q = y.folios q := by
      unfold State.folios; rw [hrat]
    simp only [hrat, hfol]
    rw [← hy]
    exact ⟨⟨by simp, fun q hq => by simp [hq]⟩, rfl, rfl, rfl, fun k hk => mem_addMark.mpr (.inr hk)⟩

theorem checkoutMessages_rating (r : Nat) (s : State) : (checkoutMessages r s).rating = s.rating := by
  unfold checkoutMessages
  rw [checkoutChannels_rating, setList_rating]
  exact foldl_keeps State.rating _ (fun t i => releaseMessage_rating ..) _ s

/-- What a checkout does to the books (R79, R141, R145). -/
theorem checkOut_books {r : Nat} {s : State} {f : Folio} (hf : (s.folios r).opened = some f) :
    ((checkOut r s).folios r = ⟨none, some { f with late := 0 }, false⟩ ∧
      ∀ q, q ≠ r → (checkOut r s).folios q = s.folios q) ∧
    (checkOut r s).rating.trunks = s.rating.trunks ∧
    (checkOut r s).rating.discardedCount =
      (if (s.folios r).closed.isSome then sat32 s.rating.discardedCount else s.rating.discardedCount) ∧
    (∀ g, (s.folios r).closed = some g → ∀ k ∈ g.records, k ∈ (checkOut r s).rating.freePool) ∧
    r ∈ (checkOut r s).rating.marks := by
  generalize hm : checkoutMessages r s = m
  have hmr : m.rating = s.rating := by rw [← hm]; exact checkoutMessages_rating r s
  have hmf (q) : m.folios q = s.folios q := by unfold State.folios; rw [hmr]
  have hrat : (checkOut r s).rating = (checkoutFolios r m).rating := by
    unfold checkOut; rw [hm]; exact clearDesk_rating ..
  have hfol (q) : (checkOut r s).folios q = (checkoutFolios r m).folios q := by unfold State.folios; rw [hrat]
  obtain ⟨⟨hcr, hcq⟩, hctrunks, hccount, hcpool, hcmark⟩ := closeFolio_books (s := m) (r := r) (f := f) (by rw [hmf]; exact hf)
  obtain ⟨⟨hwr, hwq⟩, hwtrunks, hwcount, hwpool, hwmarks⟩ :=
    workOutBarred_books (s := closeFolio r m) (r := r) (total := m.openTotal r) (by rw [hcr])
  simp only [hrat, hfol]
  unfold checkoutFolios
  rw [hwr, hcr, hwtrunks, hctrunks, hwcount, hccount, hwpool, hmr, hmf]
  rw [hmf] at hcpool
  exact ⟨⟨rfl, fun q hq => by rw [hwq q hq, hcq q hq, hmf]⟩, rfl, rfl, hcpool, hwmarks r hcmark⟩

/-- A checkout write at its moment leaves, and its changes are handed over: what it leaves besides them is the head,
the release line, and the bursts raised (R76). -/
theorem checkout_hands {s : State} {req : HostRequest} {w : HeadWork} {r : Nat} {es : List (Nat × Byte)} (ho : s.out = {})
    (hw : s.leavesAtOnce = some (req, w) ∨
      (s.leavesAtOnce = none ∧ s.placesGranted = some (req, w) ∧ s.checkoutPlaces w.mode req ≤ s.freePlaces))
    (hparts : ∀ p ∈ w.parts, s.inAperture w.mode p = false) (hobs : s.observations w.mode req = [.room r es])
    (hg : s.guardedBytes w.mode req = []) (ha : s.control.state = .active) (hl : (s.roomShadow r).loaded = true) :
    ∃ rs line t, exec .checkout s = .next t ∧ EndsAs (handChanges r (s.roomShadow r) (s.roomAfter r es)
      ((s.checkoutLeft rs line).setRoomShadow r (s.roomAfter r es))) t := by
  obtain hw | ⟨hnone, hgranted, hle⟩ := hw
  · obtain ⟨rs, hrs⟩ := leaveCheckout_hands hparts hobs hg ha hl s.store.releaseLine
    refine ⟨rs, s.store.releaseLine, taken (leaveCheckout req w) s, ?_, taken_endsAs' ho hrs⟩
    show execCheckout s = _
    unfold execCheckout; rw [hw]
  · obtain ⟨rs, hrs⟩ := leaveCheckout_hands hparts hobs hg ha hl s.store.releaseLine.tail
    have hleave : checkoutGranted req w s = leaveCheckout req w (s.withLine s.store.releaseLine.tail) := by
      unfold checkoutGranted
      dsimp only
      rw [if_pos hle]
      rfl
    refine ⟨rs, s.store.releaseLine.tail, taken (checkoutGranted req w) s, ?_, taken_endsAs' ho (hleave.trans hrs)⟩
    show execCheckout s = _
    unfold execCheckout
    rw [hnone]
    dsimp only
    rw [stepOn_of _ s hgranted]

/-- Settles O13. -/
theorem checkoutClosesTheFolio : Obligations.CheckoutClosesTheFolio := by
  intro s req w r es f ho hw hparts hobs hg ha hl hco hf
  obtain ⟨rs, line, t, hx, he⟩ := checkout_hands ho hw hparts hobs hg ha hl
  generalize hu : (s.checkoutLeft rs line).setRoomShadow r (s.roomAfter r es) = u at he
  have hi : isCheckIn (s.roomShadow r) (s.roomAfter r es) = false := by
    unfold isCheckout at hco
    unfold isCheckIn
    simp_all
  have hbase := handChanges_base r (s.roomShadow r) (s.roomAfter r es) u
  have hfu : (u.folios r).opened = some f := by rw [← hu]; exact hf
  obtain ⟨⟨hbr, hbq⟩, htrunks, hcount, hpool, hmark⟩ := checkOut_books hfu
  have hlimit : limitChange r (s.roomShadow r) (s.roomAfter r es) (checkOut r u) = checkOut r u :=
    limitChange_of_unbarred (by rw [hbr]; rfl)
  have hhand : handChanges r (s.roomShadow r) (s.roomAfter r es) u =
      lampChange r (s.roomShadow r) (s.roomAfter r es) (checkOut r u) := by
    unfold handChanges statusChange
    rw [hi, if_neg Bool.false_ne_true, if_pos hco, hlimit]
  obtain ⟨-, hover, -, hdesk, -⟩ := clearDesk_spec r (checkoutFolios r (checkoutMessages r u))
  rw [hhand] at he hbase
  obtain ⟨-, hcover, -, hcmarks, hunlit⟩ := lampChange_spec r (s.roomShadow r) (s.roomAfter r es) (checkOut r u)
  generalize lampChange r (s.roomShadow r) (s.roomAfter r es) (checkOut r u) = v at *
  have hrat : t.rating = (checkOut r u).rating := he.rating.trans (rating_of_unlit hunlit)
  have hfol (q) : t.folios q = (checkOut r u).folios q := by unfold State.folios; rw [hrat]
  have hufol (q) : u.folios q = s.folios q := by rw [← hu]; rfl
  have hurat : u.rating = s.rating := by rw [← hu]; rfl
  have houter := outer_sameOuter (State.outer_of_base hbase)
  refine ⟨t, hx, by rw [hfol, hbr], fun q hq => by rw [hfol, hbq q hq, hufol], by rw [hrat, htrunks, hurat], ?_, ?_, ?_, ?_,
    ?_, ?_, ?_, ?_, ?_⟩
  · rw [hrat, hcount, hufol, hurat]
  · rw [hrat, ← hufol]; exact hpool
  · rw [hrat]; exact hmark
  · rw [he.lamp]; exact hcmarks r hdesk
  · rw [he.lampOf, hcover]
    show ((clearDesk r _).lampOf r).override ≠ _
    rw [hover]
    split
    next => exact nofun
    next hne => exact hne
  · have hrooms : t.host.rooms = u.host.rooms := he.rooms.trans (congrArg HostPath.rooms (host_of_base hbase))
    have : t.roomShadow r = u.roomShadow r := by unfold State.roomShadow; rw [hrooms]
    rw [this, ← hu, State.setRoomShadow_roomShadow, if_pos rfl]
  · intro a
    rw [he.mem, houter.1, ← hu]; rfl
  · rw [he.time, houter.2.1, ← hu]; rfl
  · rw [he.control, control_of_base hbase, ← hu]; rfl

end Sys2Proof.Machine
end

section
/-! PROOFS. The band, the tariff match, and the trunk writes: the contexts, the notices and the charges (chapter 6, 7.3,
7.4). -/

namespace Sys2Proof.Machine

/-! ### The band and the tariff match (R124, R125) -/

/-- `best` is the best of the entries `l` (R124): one of them, and every other matches fewer digits, or as many at
a higher index. -/
def State.bestOf (s : State) (l : List Nat) (best : Option Nat) : Prop :=
  match best with
  | none => l = []
  | some i => i ∈ l ∧ ∀ j ∈ l,
      (s.tariffShadow j).prefixLength < (s.tariffShadow i).prefixLength ∨
      ((s.tariffShadow j).prefixLength = (s.tariffShadow i).prefixLength ∧ i ≤ j)

/-- An entry above all those before it is compared with the best of them. -/
theorem longerMatch_bestOf {s : State} {l : List Nat} {best : Option Nat} {k : Nat} (h : s.bestOf l best)
    (hk : ∀ j ∈ l, j < k) : s.bestOf (l ++ [k]) (longerMatch s best k) := by
  cases best with
  | none =>
    obtain rfl : l = [] := h
    exact ⟨by simp, fun j hj => by simp at hj; subst hj; exact .inr ⟨rfl, le_rfl⟩⟩
  | some i =>
    obtain ⟨hi, hbest⟩ := h
    have hik := hk i hi
    unfold longerMatch
    dsimp only
    split
    next hlt =>
      refine ⟨by simp, fun j hj => ?_⟩
      obtain hj | rfl : j ∈ l ∨ j = k := by simpa using hj
      · have := hbest j hj; left; omega
      · exact .inr ⟨rfl, le_rfl⟩
    next hge =>
      refine ⟨by simp [hi], fun j hj => ?_⟩
      obtain hj | rfl : j ∈ l ∨ j = k := by simpa using hj
      · exact hbest j hj
      · omega

theorem foldl_longerMatch_bestOf (s : State) (l done : List Nat) (best : Option Nat) (h : s.bestOf done best)
    (hl : l.Pairwise (· < ·)) (hd : ∀ i ∈ done, ∀ j ∈ l, i < j) :
    s.bestOf (done ++ l) (l.foldl (longerMatch s) best) := by
  induction l generalizing done best with
  | nil => simpa using h
  | cons k l ih =>
    obtain ⟨hk, hl⟩ := List.pairwise_cons.mp hl
    rw [List.foldl_cons, List.append_cons]
    refine ih _ _ (longerMatch_bestOf h fun j hj => hd j hj k List.mem_cons_self) hl fun i hi j hj => ?_
    obtain hi | rfl : i ∈ done ∨ i = k := by simpa using hi
    · exact hd i hi j (List.mem_cons_of_mem _ hj)
    · exact hk j hj

/-- Settles O20. -/
theorem bandAndPrefixMatch : Obligations.BandAndPrefixMatch := by
  refine ⟨fun d n t => ⟨fun h => ?_, fun h => ?_, fun h => ?_⟩, fun s ds => ?_⟩
  · unfold isNight; rw [if_pos h]
  · unfold isNight; rw [if_neg (by omega), if_pos h]; simp
  · unfold isNight; rw [if_neg (by omega), if_neg (by omega)]; simp
  · have hsorted : ((List.range s.profile.tariffs).filter fun i => (s.tariffShadow i).matchesDigits ds).Pairwise (· < ·) :=
      List.pairwise_lt_range.filter _
    have hbest := foldl_longerMatch_bestOf s _ [] none rfl hsorted nofun
    rw [List.nil_append] at hbest
    change s.bestOf _ (s.matchTariff ds) at hbest
    refine ⟨fun i hi => ?_, fun hnone j hj => ?_⟩
    · rw [hi] at hbest
      obtain ⟨hmem, hall⟩ := hbest
      obtain ⟨hr, hm⟩ := List.mem_filter.mp hmem
      exact ⟨List.mem_range.mp hr, hm, fun j hj hmj => hall j (List.mem_filter.mpr ⟨List.mem_range.mpr hj, hmj⟩)⟩
    · rw [hnone] at hbest
      have := List.filter_eq_nil_iff.mp hbest j (List.mem_range.mpr hj)
      simpa using this

/-! ### Notices of one block reach the queue in order (R183) -/

theorem lastOfKey_all {α : Type} {key : α → Nat} {k : Nat} {l : List α} (h : ∀ x ∈ l, key x = k) :
    lastOfKey key k l = l.length := by
  induction l with
  | nil => rfl
  | cons x l ih =>
    unfold lastOfKey
    rw [ih fun y hy => h y (List.mem_cons_of_mem _ hy)]
    dsimp only
    split
    next h0 => rw [if_pos (h x List.mem_cons_self), List.length_cons, h0]
    next => rfl

theorem choose_one {n : Nat} (h : n ≤ 1) (s : State) : choose n s = (0, s) := if_pos h

/-- What one source raises stays in order. -/
theorem interleave_oneKey {α : Type} {key : α → Nat} {k : Nat} (xs batch : List α) (s : State)
    (hx : ∀ x ∈ xs, key x = k) (hb : ∀ x ∈ batch, key x = k) : interleave key xs batch s = (batch ++ xs, s) := by
  induction xs generalizing batch with
  | nil => unfold interleave; rw [List.append_nil]
  | cons x xs ih =>
    unfold interleave
    dsimp only
    rw [hx x List.mem_cons_self, lastOfKey_all hb, choose_one (n := batch.length - batch.length + 1) (by omega)]
    dsimp only
    rw [Nat.add_zero, List.insertIdx_length_self]
    rw [ih _ (fun y hy => hx y (List.mem_cons_of_mem _ hy)) fun y hy => ?_, List.append_assoc]
    · rfl
    · obtain hy | rfl : y ∈ batch ∨ y = x := by simpa using hy
      · exact hb y hy
      · exact hx y List.mem_cons_self

/-- The queue takes notices in order until it holds 16 (R183). -/
theorem foldl_queueNotice_queue (batch : List (Requester × Notice)) (s : State) :
    (batch.foldl (fun t n => queueNotice n.2 t) s).notices.queue =
      s.notices.queue ++ (batch.map Prod.snd).take (16 - s.notices.queue.length) := by
  induction batch generalizing s with
  | nil => simp
  | cons n batch ih =>
    rw [List.foldl_cons, ih]
    unfold queueNotice
    split
    next h =>
      change _ < 16 at h
      obtain ⟨m, hm⟩ : ∃ m, 16 - s.notices.queue.length = m + 1 := ⟨15 - s.notices.queue.length, by omega⟩
      rw [hm]
      simp only [List.length_append, List.length_cons, List.length_nil, List.map_cons, List.take_succ_cons, List.append_assoc,
        List.cons_append, List.nil_append]
      rw [show 16 - (s.notices.queue.length + (0 + 1)) = m by omega]
    next h =>
      change ¬ _ < 16 at h
      have h0 : 16 - s.notices.queue.length = 0 := by omega
      show s.notices.queue ++ _ = _
      change s.notices.queue ++ (batch.map Prod.snd).take (16 - s.notices.queue.length) = _
      rw [h0]
      simp

theorem commitLine_notices (who : Requester) (rs : List Request) (s : State) :
    (commitLine who rs s).notices = s.notices := by
  unfold commitLine
  exact interleave_notices ..

theorem commit_queue_of_one {s : State} {who : Requester} (h : ∀ x ∈ s.out.notices, x.1 = who) :
    (commit s).notices.queue =
      s.notices.queue ++ (s.out.notices.map Prod.snd).take (16 - s.notices.queue.length) := by
  unfold commit
  simp only [List.foldl_cons, List.foldl_nil, commitLine_notices]
  unfold commitNotices
  rw [interleave_oneKey (k := requesterIndex who) _ _ _ (fun x hx => by rw [h x hx]) nofun]
  exact foldl_queueNotice_queue _ _

/-- The notices that one block raises in a step reach the queue in order, as far as it has room (R183). -/
theorem finish_queue_of_one {u : State} {who : Requester} (h : ∀ x ∈ u.out.notices, x.1 = who) :
    (finish u).notices.queue =
      u.notices.queue ++ (u.out.notices.map Prod.snd).take (16 - u.notices.queue.length) := by
  have hq : Quiet u (settleFifo ((resumeStall u).host.fifo.length + (resumeStall u).host.waiting.length + 1) (resumeStall u)) :=
    (resumeStall_quiet u).trans (settleFifo_quiet _ _)
  obtain ⟨hn, ho⟩ := hq
  unfold finish
  dsimp only
  rw [commit_queue_of_one (who := who) (by rw [ho]; exact h), hn, ho]

/-- From `s` to `t` the rating engine has raised the notices `l`, and no other block any. -/
def Told (s t : State) (l : List Notice) : Prop :=
  t.notices = s.notices ∧ t.out.notices = s.out.notices ++ l.map (Prod.mk Requester.rating)

theorem Told.of_quiet {s t : State} (h : Quiet s t) : Told s t [] := ⟨h.1, by simp [h.2]⟩

theorem Told.trans {s t u : State} {l m : List Notice} (h : Told s t l) (g : Told t u m) : Told s u (l ++ m) :=
  ⟨g.1.trans h.1, by rw [g.2, h.2, List.map_append, List.append_assoc]⟩

theorem Told.after {s t u : State} {l : List Notice} (h : Told t u l) (hq : Quiet s t) : Told s u l :=
  ⟨h.1.trans hq.1, by rw [h.2, hq.2]⟩

theorem notify_told (k : NoticeKind) (room a b : Nat) (s : State) :
    Told s (notify .rating k room a b s) (if s.enabled k then [⟨k, room, s.stamp, a, b⟩] else []) := by
  unfold notify
  split
  · exact ⟨rfl, rfl⟩
  · exact .of_quiet (.refl s)

theorem kind_of_told {k : NoticeKind} {room a b : Nat} {s : State} {n : Notice}
    (h : n ∈ if s.enabled k then [(⟨k, room, s.stamp, a, b⟩ : Notice)] else []) : n.kind = k := by
  split at h
  · rw [List.mem_singleton.mp h]
  · cases h

theorem Told.queue {s u : State} {l : List Notice} (h : Told s u l) (ho : s.out.notices = []) :
    (finish u).notices.queue = s.notices.queue ++ l.take (16 - s.notices.queue.length) := by
  have hone : ∀ x ∈ u.out.notices, x.1 = Requester.rating := by
    rw [h.2, ho]
    intro x hx
    obtain ⟨n, -, rfl⟩ := List.mem_map.mp (by simpa using hx)
    rfl
  rw [finish_queue_of_one hone, h.1, h.2, ho, List.nil_append, List.map_map]
  rw [show (Prod.snd ∘ Prod.mk Requester.rating : Notice → Notice) = id from rfl, List.map_id]

/-! ### What the charges of calls touch -/

/-- The rating engine without its accounts: folios, pool, queue, marks, and the counts of what the accounts refuse. -/
def State.calls (s : State) : Rating :=
  { s.rating with
    folios := [], freePool := [], queue := [], queueRaised := false, marks := [], lateCount := 0, unbilledCount := 0
    poolFullCount := 0 }

theorem trunk_of_calls {s t : State} (h : t.calls = s.calls) (k : Nat) : t.trunk k = s.trunk k :=
  (congrArg (fun r : Rating => Table.get {} r.trunks k) h : Table.get {} t.calls.trunks k = Table.get {} s.calls.trunks k)

theorem notify_calls (who : Requester) (k : NoticeKind) (room a b : Nat) (s : State) :
    (notify who k room a b s).calls = s.calls := by unfold State.calls; rw [notify_rating]

theorem workOutBarred_calls (r : Nat) (total : Int) (s : State) : (workOutBarred r total s).calls = s.calls := by
  unfold workOutBarred
  dsimp only
  split
  · rfl
  · rw [notify_calls]; rfl

theorem queueFolioWrite_calls (w : FolioWrite) (s : State) : (queueFolioWrite w s).calls = s.calls := by
  unfold queueFolioWrite raiseFolioWrite
  split
  · rfl
  · split <;> rfl

/-- The state after the change of the books, before toll-barred is worked out (R139). -/
theorem appendCharge_calls (r : Nat) (p : Place) (f : Folio) (c : Charge) (order : Option Nat) (s : State) :
    (appendCharge r p f c order s).2.calls = s.calls := by
  have hfin (total : Int) (u : State) :
      (markFolio r (if p = .opened then workOutBarred r total u else u)).calls = u.calls := by
    show (if p = .opened then workOutBarred r total u else u).calls = _
    split
    · exact workOutBarred_calls ..
    · rfl
  unfold appendCharge
  dsimp only
  split
  · split
    · rw [hfin]
      show State.calls (match f.records.getLast? with | some tail => _ | none => _) = _
      cases f.records.getLast? <;> simp only [queueFolioWrite_calls] <;> rfl
    · rw [hfin, notify_calls]; rfl
  · rw [hfin, notify_calls]; rfl

theorem unbilled_calls (c : Charge) (s : State) : (unbilled c s).calls = s.calls := by
  unfold unbilled; rw [notify_calls]; rfl

theorem lateCharge_calls (f : Folio) (c : Charge) (s : State) : (lateCharge f c s).calls = s.calls := by
  unfold lateCharge; dsimp only; rw [appendCharge_calls, notify_calls]; rfl

/-- One of the four ways of R138. -/
theorem handOver_cases {P : State → Prop} (c : Charge) (s : State)
    (happend : ∀ f, (s.folios c.room).opened = some f → f.serial = c.serial → P (appendCharge c.room .opened f c none s).2)
    (hlate : ∀ g, (s.folios c.room).closed = some g → g.serial = c.serial → P (lateCharge g c s))
    (hnone : P (unbilled c s)) : P (handOver c s) := by
  have hclosed : P (match (s.folios c.room).closed with
      | some g => if g.serial = c.serial then lateCharge g c s else unbilled c s
      | none => unbilled c s) := by
    split
    next g hg =>
      split
      next he => exact hlate g hg he
      next => exact hnone
    next => exact hnone
  unfold handOver
  split
  · split
    next f hf =>
      split
      next he => exact happend f hf he
      next => exact hclosed
    next => exact hclosed
  · exact hnone

theorem handOver_calls (c : Charge) (s : State) : (handOver c s).calls = s.calls :=
  handOver_cases (P := fun t => t.calls = s.calls) c s (fun _ _ _ => appendCharge_calls ..)
    (fun _ _ _ => lateCharge_calls ..) (unbilled_calls ..)

/-! ### Appending to a folio (R139, R140) -/

theorem folios_of_rating {s t : State} (h : t.rating = s.rating) (q : Nat) : t.folios q = s.folios q := by
  unfold State.folios; rw [h]

theorem workOutBarred_spec (r : Nat) (total : Int) (s : State) :
    (∃ b, (workOutBarred r total s).folios r = { s.folios r with barred := b }) ∧
    (∀ q, q ≠ r → (workOutBarred r total s).folios q = s.folios q) ∧
    (∃ fs m, (workOutBarred r total s).rating = { s.rating with folios := fs, marks := m }) ∧
    ∃ l, Told s (workOutBarred r total s) l ∧ ∀ n ∈ l, n.kind ≠ .trunkSequence := by
  unfold workOutBarred
  dsimp only
  generalize barredBy (s.folios r).opened (s.creditLimit r) = b
  split
  · exact ⟨⟨_, rfl⟩, fun _ _ => rfl, ⟨_, _, rfl⟩, [], .of_quiet (.refl s), nofun⟩
  · generalize hu : markFolio r (s.setFolios r { s.folios r with barred := b }) = u
    refine ⟨⟨b, ?_⟩, fun q hq => ?_, ⟨u.rating.folios, u.rating.marks, ?_⟩, _,
      .trans (t := u) (.of_quiet ?_) (notify_told _ _ _ _ u), fun n hn => ?_⟩
    · rw [folios_of_rating (notify_rating ..), ← hu, markFolio_folios, State.setFolios_folios, if_pos rfl]
    · rw [folios_of_rating (notify_rating ..), ← hu, markFolio_folios, State.setFolios_folios, if_neg hq]
    · rw [notify_rating, ← hu]; rfl
    · rw [← hu]; exact ⟨rfl, rfl⟩
    · rw [List.nil_append] at hn
      rw [kind_of_told hn]
      cases b <;> decide

/-- The write queue takes entries in order; raising the next one changes no more of the accounts (R140). -/
theorem queueFolioWrite_rating (w : FolioWrite) (s : State) :
    ∃ raised, (queueFolioWrite w s).rating = { s.rating with queue := s.rating.queue ++ [w], queueRaised := raised } := by
  unfold queueFolioWrite raiseFolioWrite
  split
  · exact ⟨_, rfl⟩
  · split
    · exact ⟨_, rfl⟩
    · exact ⟨_, rfl⟩

theorem queueFolioWrite_quiet (w : FolioWrite) (s : State) : Quiet s (queueFolioWrite w s) := by
  unfold queueFolioWrite raiseFolioWrite
  split
  · exact ⟨rfl, rfl⟩
  · split
    · exact ⟨rfl, rfl⟩
    · exact ⟨rfl, rfl⟩

/-- The entries of an append, queued: the record, then the link of the old tail (R139). -/
def queueAppend (f : Folio) (k : Nat) (c : Charge) (order : Option Nat) (s : State) : State :=
  match f.records.getLast? with
  | some tail => queueFolioWrite (linkWrite s tail k order)
      (queueFolioWrite ⟨s.poolAddr k, allLanes (chargeRecord c none32), order⟩ s)
  | none => queueFolioWrite ⟨s.poolAddr k, allLanes (chargeRecord c none32), order⟩ s

theorem linkWrite_eq (s : State) (tail k : Nat) (order : Option Nat) :
    linkWrite s tail k order =
      ⟨s.profile.poolBase + 64 * tail + 56, List.replicate 4 none ++ allLanes (le 4 k), order⟩ := rfl

theorem queueAppend_rating (f : Folio) (k : Nat) (c : Charge) (order : Option Nat) (s : State) :
    ∃ raised, (queueAppend f k c order s).rating =
      { s.rating with queue := s.rating.queue ++ s.appendWrites f k c order, queueRaised := raised } := by
  unfold queueAppend State.appendWrites
  obtain ⟨b, hb⟩ := queueFolioWrite_rating ⟨s.poolAddr k, allLanes (chargeRecord c none32), order⟩ s
  cases f.records.getLast? with
  | none => exact ⟨b, hb⟩
  | some tail =>
    obtain ⟨b', hb'⟩ := queueFolioWrite_rating (linkWrite s tail k order)
      (queueFolioWrite ⟨s.poolAddr k, allLanes (chargeRecord c none32), order⟩ s)
    refine ⟨b', ?_⟩
    dsimp only
    rw [hb', hb, linkWrite_eq, List.append_assoc]
    rfl

theorem queueAppend_quiet (f : Folio) (k : Nat) (c : Charge) (order : Option Nat) (s : State) :
    Quiet s (queueAppend f k c order s) := by
  unfold queueAppend
  cases f.records.getLast? with
  | none => exact queueFolioWrite_quiet ..
  | some tail => exact (queueFolioWrite_quiet ..).trans (queueFolioWrite_quiet ..)

/-- The end of an append: toll-barred, where the folio is the OPEN one, and the mark (R139, R145). -/
def endAppend (r : Nat) (p : Place) (total : Int) (s : State) : State :=
  markFolio r (if p = .opened then workOutBarred r total s else s)

theorem markFolio_rating (r : Nat) (s : State) :
    (markFolio r s).rating = { s.rating with marks := addMark s.rating.marks r } := rfl

theorem endAppend_spec (r : Nat) (p : Place) (total : Int) (s : State) :
    (∃ b, (endAppend r p total s).folios r = { s.folios r with barred := b }) ∧
    (∀ q, q ≠ r → (endAppend r p total s).folios q = s.folios q) ∧
    (∃ fs m, (endAppend r p total s).rating = { s.rating with folios := fs, marks := m } ∧ r ∈ m) ∧
    ∃ l, Told s (endAppend r p total s) l ∧ ∀ n ∈ l, n.kind ≠ .trunkSequence := by
  unfold endAppend
  split
  · obtain ⟨⟨b, hb⟩, hq, ⟨fs, m, hr⟩, l, hl, hk⟩ := workOutBarred_spec r total s
    refine ⟨⟨b, ?_⟩, fun q hqr => ?_, ⟨fs, addMark m r, ?_, mem_addMark.mpr (.inl rfl)⟩, l, hl, hk⟩
    · rw [markFolio_folios, hb]
    · rw [markFolio_folios, hq q hqr]
    · rw [markFolio_rating, hr]
  · exact ⟨⟨_, rfl⟩, fun _ _ => rfl, ⟨_, _, rfl, mem_addMark.mpr (.inl rfl)⟩, [], .of_quiet ⟨rfl, rfl⟩, nofun⟩

/-- The folio with the amount taken in, its record not yet listed (R136, R139). -/
def Folio.taking (f : Folio) (c : Charge) : Folio := { f with total := saturate32 (f.total + c.amount) }

/-- POOL FULL is counted and raised with its cause, and the folio is incomplete (R140). -/
def refuseAppend (r : Nat) (p : Place) (f : Folio) (c : Charge) (cause : Nat) (s : State) : State :=
  notify .rating .poolFull r f.serial cause
    { s.setFolios r ((s.folios r).setPlace p (some { f.taking c with incomplete := true })) with
      rating.poolFullCount := sat32 s.rating.poolFullCount }

theorem appendCharge_stored {r : Nat} {p : Place} {f : Folio} {c : Charge} {order : Option Nat} {s : State} {k : Nat}
    {pool : List Nat} (hp : s.rating.freePool = k :: pool) (hq : f.entriesNeeded ≤ s.freeEntries) :
    appendCharge r p f c order s = (some k, endAppend r p (f.taking c).total
      ((queueAppend f k c order { s with rating.freePool := pool }).setFolios r
        (((queueAppend f k c order { s with rating.freePool := pool }).folios r).setPlace p
          (some { f.taking c with records := f.records ++ [k] })))) := by
  unfold appendCharge
  rw [hp]
  dsimp only
  rw [if_pos hq]
  unfold queueAppend
  cases f.records.getLast? <;> rfl

theorem appendCharge_refused {r : Nat} {p : Place} {f : Folio} {c : Charge} {order : Option Nat} {s : State}
    (h : s.rating.freePool = [] ∨ s.freeEntries < f.entriesNeeded) :
    appendCharge r p f c order s = (none, endAppend r p (f.taking c).total
      (refuseAppend r p f c (if s.rating.freePool = [] then 1 else 2) s)) := by
  unfold appendCharge
  cases hp : s.rating.freePool with
  | nil => rfl
  | cons k pool =>
    dsimp only
    have hfew : ¬ f.entriesNeeded ≤ s.freeEntries := by
      obtain h | h := h
      · rw [hp] at h; cases h
      · omega
    rw [if_neg hfew, if_neg (List.cons_ne_nil k pool)]
    rfl

/-- What a stored append leaves (R139). -/
theorem appendCharge_stored_spec {r : Nat} {p : Place} {f : Folio} {c : Charge} {order : Option Nat} {s t : State}
    {k : Nat} {pool : List Nat} (hp : s.rating.freePool = k :: pool) (hq : f.entriesNeeded ≤ s.freeEntries)
    (ht : (appendCharge r p f c order s).2 = t) :
    (∃ b, t.folios r =
      { (s.folios r).setPlace p (some { f.taking c with records := f.records ++ [k] }) with barred := b }) ∧
    (∀ q, q ≠ r → t.folios q = s.folios q) ∧
    (∃ fs m raised, t.rating = { s.rating with folios := fs, marks := m, freePool := pool, queueRaised := raised
                                               queue := s.rating.queue ++ s.appendWrites f k c order } ∧ r ∈ m) ∧
    ∃ l, Told s t l ∧ ∀ n ∈ l, n.kind ≠ .trunkSequence := by
  rw [appendCharge_stored hp hq] at ht
  dsimp only at ht
  obtain ⟨raised, hrat⟩ := queueAppend_rating f k c order { s with rating.freePool := pool }
  have hquiet := queueAppend_quiet f k c order { s with rating.freePool := pool }
  generalize queueAppend f k c order { s with rating.freePool := pool } = v at *
  have hv (q) : v.folios q = s.folios q := by unfold State.folios; rw [hrat]
  generalize hu : v.setFolios r ((v.folios r).setPlace p (some { f.taking c with records := f.records ++ [k] })) = u at ht
  obtain ⟨⟨b, hb⟩, hother, ⟨fs, m, hr, hm⟩, l, hl, hk⟩ := endAppend_spec r p (f.taking c).total u
  rw [ht] at hb hother hr hl
  refine ⟨⟨b, ?_⟩, fun q hqr => ?_, ⟨fs, m, raised, ?_, hm⟩, l, ?_, hk⟩
  · rw [hb, ← hu, State.setFolios_folios, if_pos rfl, hv]
  · rw [hother q hqr, ← hu, State.setFolios_folios, if_neg hqr, hv]
  · rw [hr, ← hu]
    show { v.rating with folios := fs, marks := m } = _
    rw [hrat]
    rfl
  · have hsu : Told s u [] := .of_quiet (by rw [← hu]; exact hquiet)
    exact hsu.trans hl

/-- What an append that is not stored leaves (R140). -/
theorem appendCharge_refused_spec {r : Nat} {p : Place} {f : Folio} {c : Charge} {order : Option Nat} {s t : State}
    (h : s.rating.freePool = [] ∨ s.freeEntries < f.entriesNeeded) (ht : (appendCharge r p f c order s).2 = t) :
    (∃ b, t.folios r = { (s.folios r).setPlace p (some { f.taking c with incomplete := true }) with barred := b }) ∧
    (∀ q, q ≠ r → t.folios q = s.folios q) ∧
    (∃ fs m, t.rating = { s.rating with folios := fs, marks := m
                                        poolFullCount := sat32 s.rating.poolFullCount } ∧ r ∈ m) ∧
    ∃ l, Told s t ((if s.enabled .poolFull then
        [⟨.poolFull, r, s.stamp, f.serial, if s.rating.freePool = [] then 1 else 2⟩] else []) ++ l) ∧
      ∀ n ∈ l, n.kind ≠ .trunkSequence := by
  rw [appendCharge_refused h] at ht
  dsimp only at ht
  generalize (if s.rating.freePool = [] then 1 else 2) = cause at *
  generalize hv : ({ s.setFolios r ((s.folios r).setPlace p (some { f.taking c with incomplete := true })) with
    rating.poolFullCount := sat32 s.rating.poolFullCount } : State) = v
  generalize hu : refuseAppend r p f c cause s = u at ht
  have huv : u = notify .rating .poolFull r f.serial cause v := by rw [← hu, ← hv]; rfl
  have hrat : u.rating = v.rating := by rw [huv, notify_rating]
  have htold : Told s u (if s.enabled .poolFull then [⟨.poolFull, r, s.stamp, f.serial, cause⟩] else []) := by
    rw [huv]
    have := notify_told .poolFull r f.serial cause v
    rw [← hv] at this ⊢
    exact this
  obtain ⟨⟨b, hb⟩, hother, ⟨fs, m, hr, hm⟩, l, hl, hk⟩ := endAppend_spec r p (f.taking c).total u
  rw [ht] at hb hother hr hl
  have hfol (q) : u.folios q = if q = r then (s.folios r).setPlace p (some { f.taking c with incomplete := true })
      else s.folios q := by
    rw [folios_of_rating hrat, ← hv]
    exact State.setFolios_folios ..
  refine ⟨⟨b, ?_⟩, fun q hqr => ?_, ⟨fs, m, ?_, hm⟩, l, htold.trans hl, hk⟩
  · rw [hb, hfol, if_pos rfl]
  · rw [hother q hqr, hfol, if_neg hqr]
  · rw [hr, hrat, ← hv]
    rfl

/-! ### Notices that are no TRUNK SEQUENCE -/

/-- From `s` to `t` the rating engine raises notices, none of them TRUNK SEQUENCE. -/
def ToldOther (s t : State) : Prop := ∃ l, Told s t l ∧ ∀ n ∈ l, n.kind ≠ .trunkSequence

theorem ToldOther.of_quiet {s t : State} (h : Quiet s t) : ToldOther s t := ⟨[], .of_quiet h, nofun⟩

theorem ToldOther.trans {s t u : State} (h : ToldOther s t) (g : ToldOther t u) : ToldOther s u := by
  obtain ⟨l, hl, hk⟩ := h
  obtain ⟨m, hm, hk'⟩ := g
  exact ⟨l ++ m, hl.trans hm, fun n hn => (List.mem_append.mp hn).elim (hk n) (hk' n)⟩

theorem notify_toldOther {k : NoticeKind} (hk : k ≠ .trunkSequence) (room a b : Nat) (s : State) :
    ToldOther s (notify .rating k room a b s) :=
  ⟨_, notify_told .., fun n hn => by rw [kind_of_told hn]; exact hk⟩

theorem appendCharge_toldOther (r : Nat) (p : Place) (f : Folio) (c : Charge) (order : Option Nat) (s : State) :
    ToldOther s (appendCharge r p f c order s).2 := by
  by_cases h : s.rating.freePool = [] ∨ s.freeEntries < f.entriesNeeded
  · obtain ⟨-, -, -, l, hl, hk⟩ := appendCharge_refused_spec (r := r) (p := p) (c := c) (order := order) h rfl
    refine ⟨_, hl, fun n hn => ?_⟩
    obtain hn | hn := List.mem_append.mp hn
    · rw [kind_of_told hn]; decide
    · exact hk n hn
  · obtain ⟨hne, hq⟩ := not_or.mp h
    obtain ⟨k, pool, hp⟩ := List.exists_cons_of_ne_nil hne
    exact (appendCharge_stored_spec hp (by omega) rfl).2.2.2

theorem handOver_toldOther (c : Charge) (s : State) : ToldOther s (handOver c s) := by
  refine handOver_cases c s (fun _ _ _ => appendCharge_toldOther ..) (fun g _ _ => ?_) ?_
  · unfold lateCharge
    refine .trans (.of_quiet ?_) (.trans (notify_toldOther (by decide) _ _ _ _) (appendCharge_toldOther ..))
    exact ⟨rfl, rfl⟩
  · unfold unbilled
    refine .trans (.of_quiet ?_) (notify_toldOther (by decide) _ _ _ _)
    exact ⟨rfl, rfl⟩

/-! ### The end of a call (R119, R120) -/

/-- The charge of an answered call, priced by the entry its digits match (R124, R126 to R129). -/
def State.pricedCall (s : State) (t : Nat) (implicit : Bool) : Charge :=
  match s.matchTariff (callCharge t implicit s).digits with
  | none => callCharge t implicit s
  | some i => priceBy (s.tariffShadow i) i (callCharge t implicit s).duration (callCharge t implicit s)

/-- The call counted by what it was charged as (R131). -/
def State.countCall (s : State) (kind : ChargeKind) : State :=
  match kind with
  | .rated => { s with rating.rated := sat32 s.rating.rated }
  | .free => { s with rating.free := sat32 s.rating.free }
  | .unrated => { s with rating.unrated := sat32 s.rating.unrated }
  | _ => s

theorem priceBy_kind (h : Shadow) (i d : Nat) (c : Charge) :
    (priceBy h i d c).kind = if d ≤ h.grace then .free else .rated := by
  unfold priceBy
  split
  · rfl
  · rfl

theorem rateCall_eq (t : Nat) (implicit : Bool) (s : State) :
    rateCall t implicit s = handOver (s.pricedCall t implicit)
      (if s.matchTariff (s.trunk t).digits = none then
        noticeUnrated (callCharge t implicit s) (s.countCall (s.pricedCall t implicit).kind)
       else s.countCall (s.pricedCall t implicit).kind) := by
  have hd : (callCharge t implicit s).digits = (s.trunk t).digits := rfl
  unfold rateCall State.pricedCall
  dsimp only
  rw [hd]
  cases s.matchTariff (s.trunk t).digits with
  | none => rfl
  | some i =>
    dsimp only
    rw [priceBy_kind, if_neg (Option.some_ne_none i)]
    by_cases hg : (callCharge t implicit s).duration ≤ (s.tariffShadow i).grace
    · simp only [if_pos hg]; rfl
    · simp only [if_neg hg]; rfl

/-- The call book after an answered outgoing call is rated (R131). -/
theorem rateCall_calls (t : Nat) (implicit : Bool) (s : State) :
    (rateCall t implicit s).calls = (s.countCall (s.pricedCall t implicit).kind).calls := by
  rw [rateCall_eq, handOver_calls]
  split
  · exact notify_calls ..
  · rfl

theorem countCall_trunk (kind : ChargeKind) (s : State) (j : Nat) : (s.countCall kind).trunk j = s.trunk j := by
  cases kind <;> rfl

theorem countCall_quiet (kind : ChargeKind) (s : State) : Quiet s (s.countCall kind) := by
  cases kind <;> exact ⟨rfl, rfl⟩

theorem rateCall_toldOther (t : Nat) (implicit : Bool) (s : State) : ToldOther s (rateCall t implicit s) := by
  rw [rateCall_eq]
  refine .trans (.of_quiet (countCall_quiet (s.pricedCall t implicit).kind s)) (.trans ?_ (handOver_toldOther ..))
  split
  · exact notify_toldOther (by decide) ..
  · exact .of_quiet (.refl _)

/-- An implicit clear is counted (R121). -/
def State.countImplicit (s : State) (implicit : Bool) : State :=
  if implicit then { s with rating.implicits := sat32 s.rating.implicits } else s

theorem answeredClear_eq (t : Nat) (implicit : Bool) (s : State) :
    answeredClear t implicit s =
      if (s.trunk t).incoming then s.countImplicit implicit else rateCall t implicit (s.countImplicit implicit) := rfl

theorem countImplicit_trunk (implicit : Bool) (s : State) (j : Nat) : (s.countImplicit implicit).trunk j = s.trunk j := by
  cases implicit <;> rfl

theorem countImplicit_quiet (implicit : Bool) (s : State) : Quiet s (s.countImplicit implicit) := by
  cases implicit <;> exact ⟨rfl, rfl⟩

theorem answeredClear_trunk (t : Nat) (implicit : Bool) (s : State) (j : Nat) :
    (answeredClear t implicit s).trunk j = s.trunk j := by
  rw [answeredClear_eq]
  split
  · exact countImplicit_trunk ..
  · rw [trunk_of_calls (rateCall_calls ..)]
    exact (countCall_trunk ..).trans (countImplicit_trunk ..)

theorem answeredClear_toldOther (t : Nat) (implicit : Bool) (s : State) : ToldOther s (answeredClear t implicit s) := by
  rw [answeredClear_eq]
  refine .trans (.of_quiet (countImplicit_quiet implicit s)) ?_
  split
  · exact .of_quiet (.refl _)
  · exact rateCall_toldOther ..

/-- The charge of an unanswered call (R119). -/
def State.unansweredCharge (s : State) (t : Nat) : Charge :=
  { kind := .unanswered, missed := (s.trunk t).missedSeize, clockUnset := !s.time.clockSet, trunk := t
    room := (s.trunkShadow t).trunkRoom, serial := s.openSerial (s.trunkShadow t).trunkRoom
    digits := (s.trunkShadow t).trunkDigits, stamp := s.stamp
    duration := (s.time.elapsed - (s.trunk t).seizeCount).toNat
    night := isNight s.profile.dayStart s.profile.nightStart s.time.clock }

theorem unansweredClear_eq (t : Nat) (s : State) :
    unansweredClear t s =
      if s.profile.logUnanswered = false ∨ (s.trunkShadow t).trunkIncoming = true then s
      else if s.openSerial (s.trunkShadow t).trunkRoom = 0 then
        { s with rating.unanswered := sat32 s.rating.unanswered }
      else handOver (s.unansweredCharge t) { s with rating.unanswered := sat32 s.rating.unanswered } := by
  unfold unansweredClear
  simp only [Bool.not_eq_true']
  rfl

theorem unansweredClear_trunk (t : Nat) (s : State) (j : Nat) : (unansweredClear t s).trunk j = s.trunk j := by
  rw [unansweredClear_eq]
  split
  · rfl
  · split
    · rfl
    · exact trunk_of_calls (handOver_calls ..) j

theorem unansweredClear_toldOther (t : Nat) (s : State) : ToldOther s (unansweredClear t s) := by
  rw [unansweredClear_eq]
  split
  · exact .of_quiet (.refl s)
  · split
    · exact .of_quiet ⟨rfl, rfl⟩
    · refine .trans (.of_quiet ?_) (handOver_toldOther ..)
      exact ⟨rfl, rfl⟩

/-! ### The step of a trunk context (R115) -/

theorem countAnswer_trunk (t : Nat) (s : State) (j : Nat) : (countAnswer t s).trunk j = s.trunk j := by
  unfold countAnswer; split <;> rfl

theorem missedSeize_trunk (t : Nat) (s : State) (j : Nat) :
    (missedSeize t s).trunk j = (captureCall t (s.setTrunk t { s.trunk t with
      seizeCount := s.time.elapsed, missedSeize := true })).trunk j := by
  unfold missedSeize trunkSequence
  dsimp only
  generalize s.setTrunk t _ = v
  show Table.get {} (notify _ _ _ _ _ _).rating.trunks j = _
  rw [notify_rating]
  exact countAnswer_trunk t (captureCall t v) j

theorem captureCall_trunk (t : Nat) (s : State) (j : Nat) :
    (captureCall t s).trunk j = if j = t then
      { s.trunk t with
        state := .answered, answerCount := s.time.elapsed, answerStamp := s.stamp
        room := (s.trunkShadow t).trunkRoom, incoming := (s.trunkShadow t).trunkIncoming
        digits := (s.trunkShadow t).trunkDigits, serial := s.openSerial (s.trunkShadow t).trunkRoom }
    else s.trunk j := State.setTrunk_trunk ..

theorem seizeTrunk_trunk (t : Nat) (s : State) (j : Nat) :
    (seizeTrunk t s).trunk j = if j = t then
      { s.trunk t with state := .seized, seizeCount := s.time.elapsed, missedSeize := false } else s.trunk j :=
  State.setTrunk_trunk ..

theorem idleTrunk_trunk (t : Nat) (s : State) (j : Nat) :
    (idleTrunk t s).trunk j = if j = t then { s.trunk t with state := .idle } else s.trunk j :=
  State.setTrunk_trunk ..

theorem stepTrunk_others {t : Nat} (w : WrittenState) (s : State) {j : Nat} (h : j ≠ t) :
    (stepTrunk t w s).trunk j = s.trunk j := by
  have hidle (v : State) : (idleTrunk t v).trunk j = v.trunk j := by rw [idleTrunk_trunk, if_neg h]
  have hseize (v : State) : (seizeTrunk t v).trunk j = v.trunk j := by rw [seizeTrunk_trunk, if_neg h]
  have hcapture (v : State) : (captureCall t v).trunk j = v.trunk j := by rw [captureCall_trunk, if_neg h]
  have hset (v : State) (x : Trunk) : (v.setTrunk t x).trunk j = v.trunk j := by rw [State.setTrunk_trunk, if_neg h]
  unfold stepTrunk
  cases (s.trunk t).state <;> cases w <;>
    simp only [hidle, hseize, hcapture, hset, countAnswer_trunk, missedSeize_trunk, unansweredClear_trunk, answeredClear_trunk]

theorem stepTrunk_state (t : Nat) (w : WrittenState) (s : State) :
    ((stepTrunk t w s).trunk t).state =
      (match w, (s.trunk t).state with
        | .seized, _ => .seized
        | .answered, _ => .answered
        | _, _ => .idle) := by
  unfold stepTrunk
  cases hs : (s.trunk t).state <;> cases w <;>
    simp only [idleTrunk_trunk, seizeTrunk_trunk, captureCall_trunk, countAnswer_trunk, missedSeize_trunk, if_true, hs]

theorem stepTrunk_unknown_toldOther (t : Nat) (s : State) : ToldOther s (stepTrunk t .unknown s) := by
  have hidle (v : State) : Quiet v (idleTrunk t v) := ⟨rfl, rfl⟩
  unfold stepTrunk
  cases (s.trunk t).state with
  | idle => exact .of_quiet (.refl s)
  | seized => exact (unansweredClear_toldOther t s).trans (.of_quiet (hidle _))
  | answered => exact (answeredClear_toldOther t true s).trans (.of_quiet (hidle _))

/-- A step as IDLE counts neither anomaly (R131). -/
theorem stepTrunk_unknown_counts (t : Nat) (s : State) :
    (stepTrunk t .unknown s).rating.missedSeizes = s.rating.missedSeizes ∧
    (stepTrunk t .unknown s).rating.unknownStates = s.rating.unknownStates := by
  have hkept {u v : State} (h : v.calls = u.calls) :
      v.rating.missedSeizes = u.rating.missedSeizes ∧ v.rating.unknownStates = u.rating.unknownStates :=
    ⟨(congrArg Rating.missedSeizes h : v.calls.missedSeizes = u.calls.missedSeizes),
     (congrArg Rating.unknownStates h : v.calls.unknownStates = u.calls.unknownStates)⟩
  unfold stepTrunk
  cases (s.trunk t).state with
  | idle => exact ⟨rfl, rfl⟩
  | seized =>
    show (unansweredClear t s).rating.missedSeizes = _ ∧ (unansweredClear t s).rating.unknownStates = _
    rw [unansweredClear_eq]
    split
    · exact ⟨rfl, rfl⟩
    · split
      · exact ⟨rfl, rfl⟩
      · exact hkept (u := { s with rating.unanswered := sat32 s.rating.unanswered }) (handOver_calls ..)
  | answered =>
    show (answeredClear t true s).rating.missedSeizes = _ ∧ (answeredClear t true s).rating.unknownStates = _
    rw [answeredClear_eq]
    split
    · exact ⟨rfl, rfl⟩
    · obtain ⟨hm, hu⟩ := hkept (rateCall_calls t true (s.countImplicit true))
      rw [hm, hu]
      generalize (State.pricedCall _ t true).kind = kind
      cases kind <;> exact ⟨rfl, rfl⟩

/-- An unknown state is counted, and told, where the byte has changed (R118, R131). -/
def noteUnknown (t : Nat) (old new : Byte) (s : State) : State :=
  if writtenStateOf new = .unknown ∧ old ≠ new then
    trunkSequence t 2 new { s with rating.unknownStates := sat32 s.rating.unknownStates }
  else s

theorem trunkWritten_eq (t : Nat) (old new : Byte) (s : State) :
    trunkWritten t old new s = stepTrunk t (writtenStateOf new) (noteUnknown t old new s) := by
  unfold trunkWritten noteUnknown
  dsimp only
  split
  · rfl
  · rfl

/-- What an unknown state does to the state: a count, and a notice. -/
theorem noteUnknown_rest (t : Nat) (old new : Byte) (s : State) :
    ∃ n o, noteUnknown t old new s = { s with rating.unknownStates := n, out := o } := by
  unfold noteUnknown trunkSequence notify
  split
  · split
    · exact ⟨_, _, rfl⟩
    · exact ⟨_, _, rfl⟩
  · exact ⟨_, _, rfl⟩

/-! ### A trunk entry is written -/

/-- `u` is the state in which a host write has left and trunk `k` has the shadow `h`: the trunk engine is yet to be
told. -/
structure TrunkLeft (s u : State) (k : Nat) (h : Shadow) : Prop where
  rest    : ∃ m a hp, u = { s with mem := m, arbiter := a, host := hp }
  rooms   : u.host.rooms = s.host.rooms
  tariffs : u.host.tariffs = s.host.tariffs
  shadow  : ∀ j, u.trunkShadow j = if j = k then h else s.trunkShadow j

/-- A write that carries one observation leaves, and the end of the step follows (R151). -/
theorem leavesCarrying_finish {c : Instr} {m : WriteMark} {s : State} {o : Observation} (ho : s.out = {})
    (hc : exec c s = stepIf (s.leavesWith m) leaveNow s) (h : s.leavesCarrying [o])
    (hm : m ∈ observationMarks s.atLeave o) :
    exec c s = .next (finish (observed o s.leftHost)) ∧ leavesMemory s (finish (observed o s.leftHost)) := by
  obtain ⟨t, hx, -, hmem⟩ := writeLeaves_one ho hc h hm
  obtain ⟨req, w, hl, h1, h2⟩ := h
  have hwith : s.leavesWith m = true := by
    unfold State.leavesWith State.leavingMarks
    rw [hl]
    unfold writeMarks
    dsimp only [Option.map, Option.any]
    rw [h1, h2]
    simpa using hm
  have hleave : leaveNow s = observed o s.leftHost := by
    rw [leaveNow_eq hl, h1, h2]
    rfl
  have ht : exec c s = .next (finish (observed o s.leftHost)) := by
    rw [hc, stepIf_of _ _ hwith, ← hleave]
    unfold taken
    rw [beginStep_eq ho]
  rw [ht] at hx
  obtain rfl := Host.Outcome.next.inj hx
  exact ⟨ht, hmem⟩

/-- A loaded trunk's state byte has been written while the part is ACTIVE: the rating engine is told (R112). -/
theorem trunk_leaves {c : Instr} {s : State} {k : Nat} {es : List (Nat × Byte)} {w : WrittenState} (ho : s.out = {})
    (hc : exec c s = stepIf (s.leavesWith (.trunk w)) leaveNow s) (h : s.leavesCarrying [.trunk k es])
    (ha : s.control.state = .active) (hl : (s.trunkShadow k).loaded = true)
    (hany : es.any (fun e => decide (e.1 = 0)) = true)
    (hw : writtenStateOf (byteAt (mergeBytes trunkField (s.trunkShadow k).bytes es) 0) = w) :
    ∃ u t, TrunkLeft s u k { s.trunkShadow k with bytes := mergeBytes trunkField (s.trunkShadow k).bytes es } ∧
      t = finish (trunkWritten k (byteAt (s.trunkShadow k).bytes 0)
        (byteAt (mergeBytes trunkField (s.trunkShadow k).bytes es) 0) u) ∧
      exec c s = .next t ∧ leavesMemory s t := by
  obtain ⟨req, wk, hleave, -, -⟩ := id h
  obtain ⟨mem, arb, hat⟩ := atLeave_rest hleave
  have hmark : WriteMark.trunk w ∈ observationMarks s.atLeave (.trunk k es) := by
    have hactive : s.atLeave.active = true := by rw [hat]; exact decide_eq_true ha
    have htrunk : s.atLeave.trunkShadow k = s.trunkShadow k := by rw [hat]; rfl
    unfold observationMarks
    dsimp only
    rw [hactive, htrunk, hl, hany, hw]
    exact List.mem_singleton_self _
  have hx := leavesCarrying_finish ho hc h hmark
  obtain ⟨m', a', hs⟩ := leftHost_rest hleave
  generalize hh : ({ s.trunkShadow k with bytes := mergeBytes trunkField (s.trunkShadow k).bytes es } : Shadow) = h'
  have hobs : observed (.trunk k es) s.leftHost = trunkWritten k (byteAt (s.trunkShadow k).bytes 0)
      (byteAt h'.bytes 0) (s.leftHost.setTrunkShadow k h') := by
    have htrunk : s.leftHost.trunkShadow k = s.trunkShadow k := by rw [hs]; rfl
    have hactive : s.leftHost.active = true := by rw [hs]; exact decide_eq_true ha
    show trunkEntryWritten k es s.leftHost = _
    unfold trunkEntryWritten
    dsimp only
    rw [htrunk, if_neg (by rw [hl]; decide), hactive, hany, ← hh]
    rfl
  have hb : h'.bytes = mergeBytes trunkField (s.trunkShadow k).bytes es := by rw [← hh]
  rw [← hb]
  refine ⟨s.leftHost.setTrunkShadow k h', _, ⟨?_, ?_, ?_, fun j => ?_⟩, rfl, ?_⟩
  · rw [hs]; exact ⟨_, _, _, rfl⟩
  · rw [hs]; rfl
  · rw [hs]; rfl
  · rw [State.setTrunkShadow_trunkShadow, hs]; rfl
  · rw [← hobs]; exact hx

/-- The rows of the written trunk states (R112, R115). -/
theorem exec_trunkRow {c : Instr} {w : WrittenState}
    (h : (c, w) ∈ [(Instr.trunkSeize, WrittenState.seized), (.trunkAnswer, .answered), (.trunkClear, .cleared),
      (.trunkIdleWrite, .idle), (.trunkUnknownState, .unknown)]) (s : State) :
    exec c s = stepIf (s.leavesWith (.trunk w)) leaveNow s := by
  simp only [List.mem_cons, Prod.mk.injEq, List.not_mem_nil, or_false] at h
  obtain ⟨rfl, rfl⟩ | ⟨rfl, rfl⟩ | ⟨rfl, rfl⟩ | ⟨rfl, rfl⟩ | ⟨rfl, rfl⟩ := h
  · rfl
  · rfl
  · rfl
  · rfl
  · rfl

theorem noteUnknown_trunk (t : Nat) (old new : Byte) (s : State) (j : Nat) :
    (noteUnknown t old new s).trunk j = s.trunk j := by
  obtain ⟨n, o, h⟩ := noteUnknown_rest t old new s
  rw [h]; rfl

theorem TrunkLeft.trunk {s u : State} {k : Nat} {h : Shadow} (hu : TrunkLeft s u k h) (j : Nat) : u.trunk j = s.trunk j := by
  obtain ⟨m, a, hp, hrest⟩ := hu.rest
  rw [hrest]; rfl

/-- What a trunk write leaves as it was. -/
theorem trunkWritten_frame {s u : State} {k : Nat} {h : Shadow} (hu : TrunkLeft s u k h) (old new : Byte) :
    let t := finish (trunkWritten k old new u)
    (∀ j, t.trunkShadow j = if j = k then h else s.trunkShadow j) ∧
    t.store = s.store ∧ t.ring = s.ring ∧ t.lamp = s.lamp ∧ t.time = s.time ∧ t.frame = s.frame ∧
    t.control = s.control ∧ ∀ c, s.stillChannel c → t.channel c = s.channel c := by
  intro t
  have he : EndsAs (trunkWritten k old new u) t := finish_endsAs _
  have hbase := trunkWritten_base k old new u
  have houter := outer_sameOuter (State.outer_of_base hbase)
  obtain ⟨m, a, hp, hrest⟩ := hu.rest
  have hchannel (c) : (trunkWritten k old new u).channel c = s.channel c := by
    unfold State.channel
    rw [trunkWritten_voice, hrest]
  refine ⟨fun j => ?_, ?_, ?_, ?_, ?_, ?_, ?_, fun c hc => ?_⟩
  · rw [← hu.shadow j]
    unfold State.trunkShadow
    rw [he.trunks, host_of_base hbase]
  · rw [he.store, trunkWritten_store, hrest]
  · rw [he.ring, trunkWritten_ring, hrest]
  · rw [he.lamp, trunkWritten_lamp, hrest]
  · rw [he.time, houter.2.1, hrest]
  · rw [he.frame, houter.2.2.1, hrest]
  · rw [he.control, control_of_base hbase, hrest]
  · rw [he.channels c (by unfold State.stillChannel; rw [hchannel]; exact hc), hchannel]

/-- Settles O17. -/
theorem trunkContextFollowsTheTable : Obligations.TrunkContextFollowsTheTable := by
  intro s k es c w ho hrow h ha hl hany hw
  obtain ⟨u, t, hu, rfl, hx, hm⟩ := trunk_leaves ho (exec_trunkRow hrow s) h ha hl hany hw
  generalize byteAt (s.trunkShadow k).bytes 0 = old at *
  generalize byteAt (mergeBytes trunkField (s.trunkShadow k).bytes es) 0 = new at *
  obtain ⟨hsh, hstore, hring, hlamp, htime, hframe, hcontrol, hch⟩ := trunkWritten_frame hu old new
  have htrunk (j) : (finish (trunkWritten k old new u)).trunk j = (stepTrunk k w (noteUnknown k old new u)).trunk j := by
    rw [(finish_endsAs (trunkWritten k old new u)).trunk, trunkWritten_eq, hw]
  refine ⟨_, hx, hm, ?_, fun j hj => ?_, ?_, fun j hj => ?_, hstore, hring, hlamp, htime, hframe, hcontrol, hch⟩
  · have hstate := stepTrunk_state k w (noteUnknown k old new u)
    rw [noteUnknown_trunk, hu.trunk] at hstate
    exact (congrArg Trunk.state (htrunk k)).trans hstate
  · rw [htrunk, stepTrunk_others w _ hj, noteUnknown_trunk, hu.trunk]
  · rw [hsh, if_pos rfl]
  · rw [hsh, if_neg hj]

/-! ### Seize and answer (R116 to R118) -/

theorem noteUnknown_of_known {t : Nat} {old new : Byte} {s : State} (h : writtenStateOf new ≠ .unknown) :
    noteUnknown t old new s = s := by unfold noteUnknown; rw [if_neg fun hc => h hc.1]

theorem noteUnknown_of_same {t : Nat} {b : Byte} {s : State} : noteUnknown t b b s = s := by
  unfold noteUnknown; rw [if_neg fun hc => hc.2 rfl]

/-- What an answer captures (R116): `u` is the context, stamped with the seize `seize` and the flag `missed`. -/
def State.captured (s : State) (h : Shadow) (u : Trunk) (seize : BitVec 32) (missed : Bool) : Trunk :=
  { u with
    state := .answered, seizeCount := seize, answerCount := s.time.elapsed, answerStamp := s.stamp
    missedSeize := missed, room := h.trunkRoom, incoming := h.trunkIncoming, digits := h.trunkDigits
    serial := s.openSerial h.trunkRoom }

/-- An answer changes the context and the count of its direction, and nothing else (R116, R131). -/
theorem countAnswer_captureCall (k : Nat) (u : State) :
    ∃ tr, countAnswer k (captureCall k u) =
      { u with rating := { u.rating with
          trunks := tr
          outgoing := if (u.trunkShadow k).trunkIncoming then u.rating.outgoing else sat32 u.rating.outgoing
          incoming := if (u.trunkShadow k).trunkIncoming then sat32 u.rating.incoming else u.rating.incoming } } ∧
      Table.get {} tr k = u.captured (u.trunkShadow k) (u.trunk k) (u.trunk k).seizeCount (u.trunk k).missedSeize := by
  have hcap : (captureCall k u).trunk k =
      u.captured (u.trunkShadow k) (u.trunk k) (u.trunk k).seizeCount (u.trunk k).missedSeize := by
    rw [captureCall_trunk, if_pos rfl]
    rfl
  refine ⟨(captureCall k u).rating.trunks, ?_, hcap⟩
  unfold countAnswer
  rw [show ((captureCall k u).trunk k).incoming = (u.trunkShadow k).trunkIncoming by rw [hcap]; rfl]
  cases (u.trunkShadow k).trunkIncoming <;> rfl

/-- The state in which an answer from IDLE is counted, before its notice (R117, R131). -/
def State.answeredUnseized (u : State) (k : Nat) (tr : Table Trunk) : State :=
  { u with rating := { u.rating with
      trunks := tr
      outgoing := if (u.trunkShadow k).trunkIncoming then u.rating.outgoing else sat32 u.rating.outgoing
      incoming := if (u.trunkShadow k).trunkIncoming then sat32 u.rating.incoming else u.rating.incoming
      missedSeizes := sat32 u.rating.missedSeizes } }

theorem missedSeize_eq (k : Nat) (u : State) :
    ∃ tr, missedSeize k u = trunkSequence k 1 (byteAt (u.trunkShadow k).bytes 0) (u.answeredUnseized k tr) ∧
      Table.get {} tr k = u.captured (u.trunkShadow k) (u.trunk k) u.time.elapsed true := by
  have hv : (u.setTrunk k { u.trunk k with seizeCount := u.time.elapsed, missedSeize := true }).trunk k =
      { u.trunk k with seizeCount := u.time.elapsed, missedSeize := true } := by
    rw [State.setTrunk_trunk, if_pos rfl]
  obtain ⟨tr, hcount, htr⟩ := countAnswer_captureCall k
    (u.setTrunk k { u.trunk k with seizeCount := u.time.elapsed, missedSeize := true })
  refine ⟨tr, ?_, ?_⟩
  · unfold missedSeize
    dsimp only
    rw [hcount]
    rfl
  · rw [htr, hv]
    rfl

theorem noticeRoom_eq (s : State) (r : Nat) : s.noticeRoom r = if r < s.roomCount then r else 0xFFFF := rfl

theorem take_one {α : Type} (x : α) {n : Nat} (h : 0 < n) (l : List α) : ∃ m, (x :: l).take n = x :: m := by
  obtain ⟨n, rfl⟩ := Nat.exists_eq_succ_of_ne_zero (by omega : n ≠ 0)
  exact ⟨_, List.take_succ_cons⟩

/-- A notice that is raised first reaches a queue with a free entry, right behind what it held (R183). -/
theorem Told.first {s u : State} {n : Notice} {l : List Notice} (h : Told s u (n :: l)) (ho : s.out.notices = [])
    (hlen : s.notices.queue.length < 16) : ∃ m, (finish u).notices.queue = s.notices.queue ++ n :: m := by
  obtain ⟨m, hm⟩ := take_one n (show 0 < 16 - s.notices.queue.length by omega) l
  exact ⟨m, by rw [h.queue ho, hm]⟩

/-- What a state of the trunk engine shares with the one before the write. -/
theorem TrunkLeft.told {s u v : State} {k : Nat} {h : Shadow} {l : List Notice} (hu : TrunkLeft s u k h) (ht : Told u v l) :
    Told s v l := by
  obtain ⟨m, a, hp, hrest⟩ := hu.rest
  rw [hrest] at ht
  exact ht

theorem trunkSequence_told (k anomaly : Nat) (b : Byte) (v : State) :
    Told v (trunkSequence k anomaly b v) (if v.enabled .trunkSequence then
      [⟨.trunkSequence, v.noticeRoom (v.trunkShadow k).trunkRoom, v.stamp, twoItems k anomaly, b.toNat⟩] else []) :=
  notify_told ..

/-- R117, R131: an answer from IDLE. -/
theorem missedSeize_answers {s u : State} {k : Nat} {h : Shadow} (hu : TrunkLeft s u k h) (ho : s.out = {}) :
    let t := finish (missedSeize k u)
    t.trunk k = s.captured h (s.trunk k) s.time.elapsed true ∧ t.rating.folios = s.rating.folios ∧
    t.rating.missedSeizes = sat32 s.rating.missedSeizes ∧ t.rating.unknownStates = s.rating.unknownStates ∧
    t.rating.outgoing = (if h.trunkIncoming then s.rating.outgoing else sat32 s.rating.outgoing) ∧
    t.rating.incoming = (if h.trunkIncoming then sat32 s.rating.incoming else s.rating.incoming) ∧
    (s.enabled .trunkSequence = true → s.notices.queue.length < 16 →
      t.notices.queue = s.notices.queue ++
        [⟨.trunkSequence, if h.trunkRoom < s.roomCount then h.trunkRoom else 0xFFFF, s.stamp, twoItems k 1,
          (byteAt h.bytes 0).toNat⟩]) := by
  intro t
  have hsh : u.trunkShadow k = h := by rw [hu.shadow, if_pos rfl]
  have hut := hu.trunk k
  obtain ⟨tr, hmiss, htr⟩ := missedSeize_eq k u
  generalize hv : u.answeredUnseized k tr = v at hmiss
  rw [hsh] at hmiss
  have he : EndsAs (missedSeize k u) t := finish_endsAs _
  have hr : t.rating = v.rating := by rw [he.rating, hmiss]; exact notify_rating ..
  have htrunk (j) : t.trunk j = Table.get {} v.rating.trunks j := by unfold State.trunk; rw [hr]
  rw [hsh, hut] at htr
  have hvsh : v.trunkShadow k = h := by rw [← hsh, ← hv]; rfl
  have htold : Told u (missedSeize k u) (if v.enabled .trunkSequence then
      [⟨.trunkSequence, v.noticeRoom h.trunkRoom, v.stamp, twoItems k 1, (byteAt h.bytes 0).toNat⟩] else []) := by
    rw [hmiss]
    have := trunkSequence_told k 1 (byteAt h.bytes 0) v
    rw [hvsh] at this
    exact this.after (by rw [← hv]; exact ⟨rfl, rfl⟩)
  replace htold := hu.told htold
  obtain ⟨m, a, hp, hrest⟩ := hu.rest
  rw [hr]
  refine ⟨?_, ?_, ?_, ?_, ?_, ?_, fun hen hlen => ?_⟩
  · rw [htrunk, ← hv]
    refine htr.trans ?_
    rw [hrest]; rfl
  · rw [← hv, hrest]; rfl
  · rw [← hv, hrest]; rfl
  · rw [← hv, hrest]; rfl
  · rw [← hv]; unfold State.answeredUnseized; rw [hsh, hrest]
  · rw [← hv]; unfold State.answeredUnseized; rw [hsh, hrest]
  · have hven : v.enabled .trunkSequence = true := by rw [← hen, ← hv, hrest]; rfl
    have hvroom : v.noticeRoom h.trunkRoom = if h.trunkRoom < s.roomCount then h.trunkRoom else 0xFFFF := by
      rw [noticeRoom_eq, show v.roomCount = s.roomCount by rw [← hv, hrest]; rfl]
    have hvstamp : v.stamp = s.stamp := by rw [← hv, hrest]; rfl
    rw [if_pos hven, hvroom, hvstamp] at htold
    rw [htold.queue (congrArg Outbox.notices ho), List.take_of_length_le (by simp; omega)]

/-- The notice of an unknown state comes before what its step raises (R118). -/
theorem noteUnknown_told {k : Nat} {old new : Byte} {u : State} (hb : writtenStateOf new = .unknown) (hne : old ≠ new) :
    Told u (noteUnknown k old new u) (if u.enabled .trunkSequence then
      [⟨.trunkSequence, u.noticeRoom (u.trunkShadow k).trunkRoom, u.stamp, twoItems k 2, new.toNat⟩] else []) := by
  unfold noteUnknown
  rw [if_pos ⟨hb, hne⟩]
  exact .trans (l := []) (.of_quiet ⟨rfl, rfl⟩)
    (notify_told _ _ _ _ { u with rating.unknownStates := sat32 u.rating.unknownStates })

theorem noteUnknown_count {k : Nat} {old new : Byte} {u : State} (hb : writtenStateOf new = .unknown) (hne : old ≠ new) :
    (noteUnknown k old new u).rating = { u.rating with unknownStates := sat32 u.rating.unknownStates } := by
  unfold noteUnknown
  rw [if_pos ⟨hb, hne⟩, trunkSequence_rating]

/-- R118, R131: a byte that is none of the four codes. -/
theorem unknownState_written {s u t : State} {k : Nat} {h : Shadow} {old new : Byte} (hu : TrunkLeft s u k h)
    (ho : s.out = {}) (hb : writtenStateOf new = .unknown)
    (ht : t = finish (stepTrunk k .unknown (noteUnknown k old new u))) :
    t.rating.missedSeizes = s.rating.missedSeizes ∧
    (new ≠ old →
      t.rating.unknownStates = sat32 s.rating.unknownStates ∧
      (s.enabled .trunkSequence = true → s.notices.queue.length < 16 →
        ∃ l, t.notices.queue = s.notices.queue ++
          ⟨.trunkSequence, if h.trunkRoom < s.roomCount then h.trunkRoom else 0xFFFF, s.stamp, twoItems k 2,
            new.toNat⟩ :: l)) ∧
    (new = old →
      t.rating.unknownStates = s.rating.unknownStates ∧
      ∀ n ∈ t.notices.queue, n.kind = .trunkSequence → n ∈ s.notices.queue) := by
  have hsh : u.trunkShadow k = h := by rw [hu.shadow, if_pos rfl]
  have hout : s.out.notices = [] := congrArg Outbox.notices ho
  have hr : t.rating = (stepTrunk k .unknown (noteUnknown k old new u)).rating := by
    rw [ht]; exact (finish_endsAs _).rating
  obtain ⟨hcm, hcu⟩ := stepTrunk_unknown_counts k (noteUnknown k old new u)
  obtain ⟨l, hl, hk⟩ := stepTrunk_unknown_toldOther k (noteUnknown k old new u)
  have hus : u.rating = s.rating := by obtain ⟨m, a, hp, hrest⟩ := hu.rest; rw [hrest]
  rw [hr, hcm, hcu]
  refine ⟨?_, fun hne => ⟨?_, fun hen hlen => ?_⟩, fun hsame => ?_⟩
  · obtain ⟨n, o, hn⟩ := noteUnknown_rest k old new u
    rw [hn, ← hus]
  · rw [noteUnknown_count hb hne.symm, hus]
  · have htold := hu.told ((noteUnknown_told (k := k) hb hne.symm).trans hl)
    obtain ⟨m, a, hp, hrest⟩ := hu.rest
    have hven : u.enabled .trunkSequence = true := by rw [← hen, hrest]; rfl
    have hroom : u.noticeRoom h.trunkRoom = if h.trunkRoom < s.roomCount then h.trunkRoom else 0xFFFF := by
      rw [noticeRoom_eq, show u.roomCount = s.roomCount by rw [hrest]; rfl]
    rw [if_pos hven, hsh, hroom, show u.stamp = s.stamp by rw [hrest]; rfl] at htold
    rw [List.singleton_append] at htold
    rw [ht]
    exact htold.first hout hlen
  · have hnone : noteUnknown k old new u = u := by rw [hsame]; exact noteUnknown_of_same
    have htold := hu.told (hl.after (s := u) (by rw [hnone]; exact .refl u))
    refine ⟨by rw [hnone, hus], fun n hn hkind => ?_⟩
    have hq : t.notices.queue = s.notices.queue ++ l.take (16 - s.notices.queue.length) := by
      rw [ht]; exact htold.queue hout
    rw [hq] at hn
    obtain hn | hn := List.mem_append.mp hn
    · exact hn
    · exact absurd hkind (hk n (List.mem_of_mem_take hn))

/-- R116, R131: an answer from SEIZED. -/
theorem captureCall_answers {s u : State} {k : Nat} {h : Shadow} (hu : TrunkLeft s u k h) :
    let t := finish (countAnswer k (captureCall k u))
    t.trunk k = s.captured h (s.trunk k) (s.trunk k).seizeCount (s.trunk k).missedSeize ∧
    t.rating.folios = s.rating.folios ∧
    t.rating.outgoing = (if h.trunkIncoming then s.rating.outgoing else sat32 s.rating.outgoing) ∧
    t.rating.incoming = (if h.trunkIncoming then sat32 s.rating.incoming else s.rating.incoming) := by
  intro t
  have hut := hu.trunk k
  have hsh : u.trunkShadow k = h := by rw [hu.shadow, if_pos rfl]
  obtain ⟨tr, hcount, htr⟩ := countAnswer_captureCall k u
  have he : EndsAs (countAnswer k (captureCall k u)) t := finish_endsAs _
  rw [hcount] at he
  obtain ⟨m, a, hp, hrest⟩ := hu.rest
  rw [hsh, hut] at htr
  refine ⟨(he.trunk k).trans (htr.trans ?_), ?_, ?_, ?_⟩
  · rw [hrest]; rfl
  · rw [he.rating, hrest]
  · rw [he.rating, hsh, hrest]
  · rw [he.rating, hsh, hrest]

/-- Settles O18. -/
theorem seizeAndAnswerCaptureTheCall : Obligations.SeizeAndAnswerCaptureTheCall := by
  intro s k es ho h ha hl hany h' taken room
  have hnew : mergeBytes trunkField (s.trunkShadow k).bytes es = h'.bytes := rfl
  have hrow {c : Instr} {w : WrittenState} (hc : exec c s = stepIf (s.leavesWith (.trunk w)) leaveNow s)
      (hw : writtenStateOf (byteAt h'.bytes 0) = w) := trunk_leaves ho hc h ha hl hany hw
  refine ⟨fun hb hs => ?_, fun hb hs => ?_, fun hb hs => ?_, fun hb => ?_⟩
  · obtain ⟨u, t, hu, ht, hx, hm⟩ := hrow (c := .trunkSeize) (w := .seized) rfl (by rw [hb]; rfl)
    rw [trunkWritten_eq, hnew, hb, noteUnknown_of_known (by decide)] at ht
    have hstep : stepTrunk k (writtenStateOf 1#8) u = seizeTrunk k u := by
      unfold stepTrunk; rw [hu.trunk, hs]; rfl
    rw [hstep] at ht
    have he : EndsAs (seizeTrunk k u) t := by rw [ht]; exact finish_endsAs _
    have hut := hu.trunk k
    obtain ⟨m, a, hp, hrest⟩ := hu.rest
    refine ⟨t, hx, hm, ?_, ?_⟩
    · rw [he.trunk, seizeTrunk_trunk, if_pos rfl, hut, hrest]
    · rw [he.rating, hrest]; rfl
  · obtain ⟨u, t, hu, ht, hx, hm⟩ := hrow (c := .trunkAnswer) (w := .answered) rfl (by rw [hb]; rfl)
    rw [trunkWritten_eq, hnew, hb, noteUnknown_of_known (by decide)] at ht
    have hstep : stepTrunk k (writtenStateOf 2#8) u = countAnswer k (captureCall k u) := by
      unfold stepTrunk; rw [hu.trunk, hs]; rfl
    rw [hstep] at ht
    rw [ht] at hx hm
    exact ⟨_, hx, hm, captureCall_answers hu⟩
  · obtain ⟨u, t, hu, ht, hx, hm⟩ := hrow (c := .trunkAnswer) (w := .answered) rfl (by rw [hb]; rfl)
    rw [trunkWritten_eq, hnew, hb, noteUnknown_of_known (by decide)] at ht
    have hstep : stepTrunk k (writtenStateOf 2#8) u = missedSeize k u := by
      unfold stepTrunk; rw [hu.trunk, hs]; rfl
    rw [hstep] at ht
    rw [ht] at hx hm
    have hspec := missedSeize_answers hu ho
    dsimp only at hspec
    rw [show byteAt ({ s.trunkShadow k with bytes := mergeBytes trunkField (s.trunkShadow k).bytes es } : Shadow).bytes 0 = 2#8
      from hb] at hspec
    exact ⟨_, hx, hm, hspec⟩
  · obtain ⟨u, t, hu, ht, hx, hm⟩ := hrow (c := .trunkUnknownState) (w := .unknown) rfl hb
    rw [trunkWritten_eq, hnew, hb] at ht
    exact ⟨t, hx, hm, unknownState_written hu ho hb ht⟩

end Sys2Proof.Machine
end

section
/-! PROOFS. The charges of calls: what the end of a call prices, appends, counts and tells (6.2 to 6.7, 7.3, 7.4). -/

namespace Sys2Proof.Machine

/-! ### Where a charge goes (R138) -/

theorem handOver_open {c : Charge} {s : State} {f : Folio} (hroom : c.room < s.roomCount) (hserial : c.serial ≠ 0)
    (hf : (s.folios c.room).opened = some f) (hs : f.serial = c.serial) :
    handOver c s = (appendCharge c.room .opened f c none s).2 := by
  unfold handOver
  rw [if_pos ⟨hroom, hserial⟩, hf]
  dsimp only
  rw [if_pos hs]

/-- A charge that the OPEN folio does not hold goes by the CLOSED one. -/
theorem handOver_notOpen {c : Charge} {s : State} (hroom : c.room < s.roomCount) (hserial : c.serial ≠ 0)
    (hf : ∀ f, (s.folios c.room).opened = some f → f.serial ≠ c.serial) :
    handOver c s = match (s.folios c.room).closed with
      | some g => if g.serial = c.serial then lateCharge g c s else unbilled c s
      | none => unbilled c s := by
  unfold handOver
  rw [if_pos ⟨hroom, hserial⟩]
  cases ho : (s.folios c.room).opened with
  | none => rfl
  | some f =>
    exact if_neg (hf f ho)

theorem handOver_late {c : Charge} {s : State} {g : Folio} (hroom : c.room < s.roomCount) (hserial : c.serial ≠ 0)
    (hf : ∀ f, (s.folios c.room).opened = some f → f.serial ≠ c.serial) (hg : (s.folios c.room).closed = some g)
    (hs : g.serial = c.serial) : handOver c s = lateCharge g c s := by
  rw [handOver_notOpen hroom hserial hf, hg]
  dsimp only
  rw [if_pos hs]

theorem handOver_unbilled {c : Charge} {s : State}
    (h : s.roomCount ≤ c.room ∨ c.serial = 0 ∨
      ((∀ f, (s.folios c.room).opened = some f → f.serial ≠ c.serial) ∧
        ∀ g, (s.folios c.room).closed = some g → g.serial ≠ c.serial)) : handOver c s = unbilled c s := by
  by_cases hin : c.room < s.roomCount ∧ c.serial ≠ 0
  · obtain ⟨hf, hg⟩ : (∀ f, (s.folios c.room).opened = some f → f.serial ≠ c.serial) ∧
        ∀ g, (s.folios c.room).closed = some g → g.serial ≠ c.serial := by
      obtain h | h | h := h
      · omega
      · exact absurd h hin.2
      · exact h
    rw [handOver_notOpen hin.1 hin.2 hf]
    cases hc : (s.folios c.room).closed with
    | none => rfl
    | some g => exact if_neg (hg g hc)
  · unfold handOver; rw [if_neg hin]

/-! ### What a charge is made of -/

theorem matchTariff_congr {s t : State} (hc : t.control = s.control) (ht : t.host.tariffs = s.host.tariffs) (ds : List Nat) :
    t.matchTariff ds = s.matchTariff ds := by
  have hshadow : t.tariffShadow = s.tariffShadow := by funext i; unfold State.tariffShadow; rw [ht]
  have hlonger : longerMatch t = longerMatch s := by funext b i; unfold longerMatch; rw [hshadow]
  unfold State.matchTariff State.profile
  rw [hlonger, hshadow, hc]

theorem callCharge_congr {s t : State} (hc : t.control = s.control) (htime : t.time = s.time) {k : Nat}
    (hk : t.trunk k = s.trunk k) (implicit : Bool) : callCharge k implicit t = callCharge k implicit s := by
  unfold callCharge State.profile
  rw [hk, hc, htime]

theorem pricedCall_congr {s t : State} (hc : t.control = s.control) (htime : t.time = s.time)
    (ht : t.host.tariffs = s.host.tariffs) {k : Nat} (hk : t.trunk k = s.trunk k) (implicit : Bool) :
    t.pricedCall k implicit = s.pricedCall k implicit := by
  have hshadow : t.tariffShadow = s.tariffShadow := by funext i; unfold State.tariffShadow; rw [ht]
  unfold State.pricedCall
  rw [callCharge_congr hc htime hk, matchTariff_congr hc ht, hshadow]

theorem priceBy_kept (h : Shadow) (i d : Nat) (c : Charge) :
    (priceBy h i d c).room = c.room ∧ (priceBy h i d c).serial = c.serial ∧ (priceBy h i d c).trunk = c.trunk := by
  unfold priceBy
  split
  · exact ⟨rfl, rfl, rfl⟩
  · exact ⟨rfl, rfl, rfl⟩

theorem pricedCall_kept (s : State) (k : Nat) (implicit : Bool) :
    (s.pricedCall k implicit).room = (s.trunk k).room ∧ (s.pricedCall k implicit).serial = (s.trunk k).serial ∧
    (s.pricedCall k implicit).trunk = k := by
  unfold State.pricedCall
  split
  · exact ⟨rfl, rfl, rfl⟩
  · exact priceBy_kept ..

/-! ### The end of an answered call -/

/-- The state before the charge of an answered call is handed over: the call counted, and UNRATED CALL raised where no
entry matches (R124, R131). -/
def State.callCounted (s : State) (k : Nat) (implicit : Bool) : State :=
  if s.matchTariff (s.trunk k).digits = none then
    noticeUnrated (callCharge k implicit s) (s.countCall (s.pricedCall k implicit).kind)
  else s.countCall (s.pricedCall k implicit).kind

theorem rateCall_handOver (k : Nat) (implicit : Bool) (s : State) :
    rateCall k implicit s = handOver (s.pricedCall k implicit) (s.callCounted k implicit) := rateCall_eq ..

theorem callCounted_rating (s : State) (k : Nat) (implicit : Bool) :
    (s.callCounted k implicit).rating = (s.countCall (s.pricedCall k implicit).kind).rating := by
  unfold State.callCounted
  split
  · exact noticeUnrated_rating ..
  · rfl

theorem countCall_base (s : State) (kind : ChargeKind) : (s.countCall kind).base = s.base := by cases kind <;> rfl

theorem callCounted_base (s : State) (k : Nat) (implicit : Bool) : (s.callCounted k implicit).base = s.base := by
  unfold State.callCounted
  split
  · exact (noticeUnrated_base ..).trans (countCall_base ..)
  · exact countCall_base ..

/-- The notice of a call that no entry matches (R124). -/
def State.unratedNotice (s : State) (k : Nat) : List Notice :=
  if s.matchTariff (s.trunk k).digits = none then
    if s.enabled .unratedCall then
      [⟨.unratedCall, s.noticeRoom (s.trunk k).room, s.stamp, k, (s.time.elapsed - (s.trunk k).answerCount).toNat⟩]
    else []
  else []

theorem callCounted_told (s : State) (k : Nat) (implicit : Bool) :
    Told s (s.callCounted k implicit) (s.unratedNotice k) := by
  have hquiet := countCall_quiet (s.pricedCall k implicit).kind s
  unfold State.callCounted State.unratedNotice
  split
  · have hnote : Told (s.countCall (s.pricedCall k implicit).kind)
        (noticeUnrated (callCharge k implicit s) (s.countCall (s.pricedCall k implicit).kind)) _ := notify_told ..
    refine Told.after ?_ hquiet
    generalize (s.pricedCall k implicit).kind = kind at *
    cases kind <;> exact hnote
  · exact .of_quiet hquiet

theorem countCall_rating (s : State) (kind : ChargeKind) :
    (s.countCall kind).rating = { s.rating with
      rated := if kind = .rated then sat32 s.rating.rated else s.rating.rated
      free := if kind = .free then sat32 s.rating.free else s.rating.free
      unrated := if kind = .unrated then sat32 s.rating.unrated else s.rating.unrated } := by
  cases kind <;> rfl

/-- The context after the end of an answered call (R115, R116). -/
def closeCall (k : Nat) (w : WrittenState) (x : State) : State :=
  if w = .seized then seizeTrunk k x else idleTrunk k x

/-- Such an end is implicit unless it is a write of CLEARED (R121). -/
def WrittenState.implicit (w : WrittenState) : Bool := decide (w ≠ .cleared)

theorem stepTrunk_answered {k : Nat} {w : WrittenState} {v : State} (hw : w ≠ .answered)
    (h : (v.trunk k).state = .answered) : stepTrunk k w v = closeCall k w (answeredClear k w.implicit v) := by
  unfold stepTrunk
  rw [h]
  cases w with
  | idle => rfl
  | seized => rfl
  | answered => exact absurd rfl hw
  | cleared => rfl
  | unknown => rfl

theorem closeCall_rating (k : Nat) (w : WrittenState) (x : State) :
    ∃ tr, (closeCall k w x).rating = { x.rating with trunks := tr } := by
  unfold closeCall
  split
  · exact ⟨_, rfl⟩
  · exact ⟨_, rfl⟩

theorem closeCall_quiet (k : Nat) (w : WrittenState) (x : State) : Quiet x (closeCall k w x) := by
  unfold closeCall
  split
  · exact ⟨rfl, rfl⟩
  · exact ⟨rfl, rfl⟩

/-- The context that the end of the call of `u` leaves, with the elapsed count `e`. -/
def Trunk.ended (u : Trunk) (w : WrittenState) (e : BitVec 32) : Trunk :=
  if w = .seized then { u with state := .seized, seizeCount := e, missedSeize := false } else { u with state := .idle }

theorem closeCall_trunk (k : Nat) (w : WrittenState) (x : State) :
    (closeCall k w x).trunk k = (x.trunk k).ended w x.time.elapsed := by
  unfold closeCall Trunk.ended
  split
  · rw [seizeTrunk_trunk, if_pos rfl]
  · rw [idleTrunk_trunk, if_pos rfl]

/-- `v` is the state in which the answered call of trunk `k` is over and its charge is to be made: the write has left, an
unknown state is noted, an implicit clear counted. -/
structure CallReady (s v : State) (w : WrittenState) : Prop where
  rest    : ∃ m a hp n o, v = { s with
    mem := m, arbiter := a, host := hp, out := o
    rating := { s.rating with
      unknownStates := n, implicits := if w.implicit then sat32 s.rating.implicits else s.rating.implicits } }
  tariffs : v.host.tariffs = s.host.tariffs
  told    : ∃ l, Told s v l ∧ l.length ≤ if w = .unknown then 1 else 0

theorem noteUnknown_of_unknown_told (k : Nat) (old new : Byte) (u : State) :
    ∃ l, Told u (noteUnknown k old new u) l ∧ l.length ≤ if writtenStateOf new = .unknown then 1 else 0 := by
  by_cases h : writtenStateOf new = .unknown ∧ old ≠ new
  · refine ⟨_, noteUnknown_told h.1 h.2, ?_⟩
    rw [if_pos h.1]
    split
    · exact le_rfl
    · exact Nat.zero_le _
  · refine ⟨[], .of_quiet ?_, Nat.zero_le _⟩
    unfold noteUnknown
    rw [if_neg h]
    exact .refl u

theorem callReady_of_left {s u : State} {k : Nat} {h : Shadow} {old new : Byte} {w : WrittenState}
    (hu : TrunkLeft s u k h) (hw : writtenStateOf new = w) :
    CallReady s ((noteUnknown k old new u).countImplicit w.implicit) w := by
  obtain ⟨l, hl, hlen⟩ := noteUnknown_of_unknown_told k old new u
  have hq := countImplicit_quiet w.implicit (noteUnknown k old new u)
  have hcount : (noteUnknown k old new u).countImplicit w.implicit = { noteUnknown k old new u with
      rating.implicits := if w.implicit then sat32 (noteUnknown k old new u).rating.implicits
        else (noteUnknown k old new u).rating.implicits } := by
    cases w.implicit <;> rfl
  refine ⟨?_, ?_, l, hu.told ⟨hq.1.trans hl.1, hq.2.trans hl.2⟩, hw ▸ hlen⟩
  · obtain ⟨m, a, hp, hrest⟩ := hu.rest
    obtain ⟨n, o, hn⟩ := noteUnknown_rest k old new u
    rw [hcount, hn, hrest]
    exact ⟨m, a, hp, n, o, rfl⟩
  · obtain ⟨n, o, hn⟩ := noteUnknown_rest k old new u
    rw [hcount, hn]
    exact hu.tariffs

/-- The end of an answered call, up to its charge (R115, R120, R121): `x` is the state with the charge made. -/
theorem call_ends {s u t : State} {k : Nat} {h : Shadow} {old new : Byte} {w : WrittenState} (hu : TrunkLeft s u k h)
    (ho : s.out = {}) (hw : writtenStateOf new = w) (hne : w ≠ .answered) (hs : (s.trunk k).state = .answered)
    (ht : t = finish (trunkWritten k old new u)) :
    ∃ v, CallReady s v w ∧ ∀ x, x = (if (s.trunk k).incoming then v else rateCall k w.implicit v) →
      t.trunk k = (s.trunk k).ended w s.time.elapsed ∧ (∃ tr, t.rating = { x.rating with trunks := tr }) ∧
      (∀ q, t.folios q = x.folios q) ∧
      ∀ l, Told s x l → t.notices.queue = s.notices.queue ++ l.take (16 - s.notices.queue.length) := by
  refine ⟨_, callReady_of_left (old := old) hu hw, fun x hx => ?_⟩
  have hnote (j) : (noteUnknown k old new u).trunk j = s.trunk j := by rw [noteUnknown_trunk, hu.trunk]
  have hx' : answeredClear k w.implicit (noteUnknown k old new u) = x := by rw [answeredClear_eq, hnote, hx]
  rw [trunkWritten_eq, hw, stepTrunk_answered hne (by rw [hnote]; exact hs), hx'] at ht
  have he : EndsAs (closeCall k w x) t := by rw [ht]; exact finish_endsAs _
  obtain ⟨tr, htr⟩ := closeCall_rating k w x
  have htime : x.time = s.time := by
    obtain ⟨m, a, hp, hrest⟩ := hu.rest
    obtain ⟨n, o, hn⟩ := noteUnknown_rest k old new u
    rw [← hx', time_of_outer (State.outer_of_base (answeredClear_base ..)), hn, hrest]
  refine ⟨?_, ⟨tr, he.rating.trans htr⟩, fun q => ?_, fun l hl => ?_⟩
  · rw [he.trunk, closeCall_trunk, htime, ← hx', answeredClear_trunk, hnote]
  · unfold State.folios
    rw [he.rating, htr]
  · have hq := closeCall_quiet k w x
    have hc : Told s (closeCall k w x) l := ⟨hq.1.trans hl.1, hq.2.trans hl.2⟩
    rw [ht]
    exact hc.queue (congrArg Outbox.notices ho)

/-- The counts after a call has ended with a charge of this kind (R131). -/
def State.endCounts (s : State) (w : WrittenState) (kind : ChargeKind) (n : Nat) : Rating :=
  { s.rating with
    unknownStates := n, implicits := if w.implicit then sat32 s.rating.implicits else s.rating.implicits
    rated := if kind = .rated then sat32 s.rating.rated else s.rating.rated
    free := if kind = .free then sat32 s.rating.free else s.rating.free
    unrated := if kind = .unrated then sat32 s.rating.unrated else s.rating.unrated }

/-- `x` is the state in which the charge of the ended call is handed over. -/
structure CallCounted (s x : State) (k : Nat) (w : WrittenState) : Prop where
  rating  : ∃ n, x.rating = s.endCounts w (s.pricedCall k w.implicit).kind n
  control : x.control = s.control
  time    : x.time = s.time
  told    : ∃ l, Told s x (l ++ s.unratedNotice k) ∧ l.length ≤ if w = .unknown then 1 else 0

theorem CallReady.counted {s v : State} {w : WrittenState} (hv : CallReady s v w) (k : Nat) :
    CallCounted s (v.callCounted k w.implicit) k w ∧
    rateCall k w.implicit v = handOver (s.pricedCall k w.implicit) (v.callCounted k w.implicit) := by
  obtain ⟨m, a, hp, n, o, hrest⟩ := hv.rest
  obtain ⟨l, hl, hlen⟩ := hv.told
  have hc : v.control = s.control := by rw [hrest]
  have htime : v.time = s.time := by rw [hrest]
  have htrunk : v.trunk k = s.trunk k := by rw [hrest]; rfl
  have hprice := pricedCall_congr hc htime hv.tariffs htrunk w.implicit
  have hbase := callCounted_base v k w.implicit
  have hnote : v.unratedNotice k = s.unratedNotice k := by
    unfold State.unratedNotice
    rw [htrunk, matchTariff_congr hc hv.tariffs, hrest]
    rfl
  refine ⟨⟨⟨n, ?_⟩, ?_, ?_, l, ?_, hlen⟩, ?_⟩
  · rw [callCounted_rating, hprice, countCall_rating, hrest]
    rfl
  · rw [control_of_base hbase, hc]
  · rw [time_of_outer (State.outer_of_base hbase), htime]
  · exact hl.trans (hnote ▸ callCounted_told v k w.implicit)
  · rw [rateCall_handOver, hprice]

theorem CallCounted.folios {s x : State} {k : Nat} {w : WrittenState} (hx : CallCounted s x k w) (q : Nat) :
    x.folios q = s.folios q := by
  obtain ⟨n, hr⟩ := hx.rating
  unfold State.folios
  rw [hr]
  rfl

theorem CallCounted.roomCount {s x : State} {k : Nat} {w : WrittenState} (hx : CallCounted s x k w) :
    x.roomCount = s.roomCount := by
  unfold State.roomCount State.profile
  rw [hx.control]

theorem CallCounted.appendWrites {s x : State} {k : Nat} {w : WrittenState} (hx : CallCounted s x k w) :
    x.appendWrites = s.appendWrites := by
  unfold State.appendWrites State.profile
  rw [hx.control]

theorem CallCounted.enabled {s x : State} {k : Nat} {w : WrittenState} (hx : CallCounted s x k w) (n : NoticeKind) :
    x.enabled n = s.enabled n := by
  unfold State.enabled State.profile
  rw [hx.control]

theorem saturate32_eq (v : Int) : saturate32 v = max (-2147483648) (min 2147483647 v) := rfl

/-- A call charged to the OPEN folio it was captured with, its record stored (R138, R139). -/
theorem CallCounted.stored {s x : State} {k rec : Nat} {w : WrittenState} {f : Folio} {pool : List Nat}
    (hx : CallCounted s x k w) (hroom : (s.trunk k).room < s.roomCount) (hserial : (s.trunk k).serial ≠ 0)
    (hf : (s.folios (s.trunk k).room).opened = some f) (hfs : f.serial = (s.trunk k).serial)
    (hp : s.rating.freePool = rec :: pool) (hq : f.entriesNeeded ≤ 64 - s.rating.queue.length) :
    let c := s.pricedCall k w.implicit
    let y := handOver c x
    (y.folios (s.trunk k).room).opened = some { f.taking c with records := f.records ++ [rec] } ∧
    (y.folios (s.trunk k).room).closed = (s.folios (s.trunk k).room).closed ∧
    (∀ q, q ≠ (s.trunk k).room → y.folios q = s.folios q) ∧
    (∃ fs m raised n, y.rating = { s.endCounts w c.kind n with
      folios := fs, marks := m, freePool := pool, queueRaised := raised
      queue := s.rating.queue ++ s.appendWrites f rec c none } ∧ (s.trunk k).room ∈ m) ∧
    ∃ l l', Told s y (l ++ s.unratedNotice k ++ l') ∧ l.length ≤ if w = .unknown then 1 else 0 := by
  intro c
  obtain ⟨hcr, hcs, -⟩ := pricedCall_kept s k w.implicit
  have hcr' : c.room = (s.trunk k).room := hcr
  obtain ⟨n, hrat⟩ := hx.rating
  obtain ⟨l, hl, hlen⟩ := hx.told
  have hhand : handOver c x = (appendCharge (s.trunk k).room .opened f c none x).2 := by
    rw [handOver_open (f := f), hcr']
    · rw [hcr', hx.roomCount]; exact hroom
    · rw [hcs]; exact hserial
    · rw [hcr', hx.folios, hf]
    · rw [hcs, hfs]
  obtain ⟨⟨b, hb⟩, hother, ⟨fs, m, raised, hr, hm⟩, l', hl', -⟩ := appendCharge_stored_spec (r := (s.trunk k).room) (p := .opened) (c := c)
    (order := none) (s := x) (f := f) (k := rec) (pool := pool) (by rw [hrat]; exact hp)
    (by unfold State.freeEntries; rw [hrat]; exact hq) rfl
  dsimp only
  rw [hhand]
  rw [hx.folios] at hb
  refine ⟨?_, ?_, fun q hqr => ?_, ⟨fs, m, raised, n, ?_, hm⟩, l, l', hl.trans hl', hlen⟩
  · rw [hb]; rfl
  · rw [hb]; rfl
  · rw [hother q hqr, hx.folios]
  · rw [hr, hrat, hx.appendWrites]
    rfl

/-- A call charged to its OPEN folio, its record not stored (R140). -/
theorem CallCounted.refused {s x : State} {k : Nat} {w : WrittenState} {f : Folio}
    (hx : CallCounted s x k w) (hroom : (s.trunk k).room < s.roomCount) (hserial : (s.trunk k).serial ≠ 0)
    (hf : (s.folios (s.trunk k).room).opened = some f) (hfs : f.serial = (s.trunk k).serial)
    (hfull : s.rating.freePool = [] ∨ 64 - s.rating.queue.length < f.entriesNeeded) :
    let c := s.pricedCall k w.implicit
    let y := handOver c x
    (y.folios (s.trunk k).room).opened = some { f.taking c with incomplete := true } ∧
    (y.folios (s.trunk k).room).closed = (s.folios (s.trunk k).room).closed ∧
    (∀ q, q ≠ (s.trunk k).room → y.folios q = s.folios q) ∧
    (∃ fs m n, y.rating = { s.endCounts w c.kind n with
      folios := fs, marks := m, poolFullCount := sat32 s.rating.poolFullCount } ∧ (s.trunk k).room ∈ m) ∧
    ∃ l l', Told s y (l ++ s.unratedNotice k ++ ((if s.enabled .poolFull then [⟨.poolFull, (s.trunk k).room, s.stamp, f.serial,
      if s.rating.freePool = [] then 1 else 2⟩] else []) ++ l')) ∧ l.length ≤ if w = .unknown then 1 else 0 := by
  intro c
  obtain ⟨hcr, hcs, -⟩ := pricedCall_kept s k w.implicit
  have hcr' : c.room = (s.trunk k).room := hcr
  obtain ⟨n, hrat⟩ := hx.rating
  obtain ⟨l, hl, hlen⟩ := hx.told
  have hhand : handOver c x = (appendCharge (s.trunk k).room .opened f c none x).2 := by
    rw [handOver_open (f := f), hcr']
    · rw [hcr', hx.roomCount]; exact hroom
    · rw [hcs]; exact hserial
    · rw [hcr', hx.folios, hf]
    · rw [hcs, hfs]
  have hpool : x.rating.freePool = s.rating.freePool := by rw [hrat]; rfl
  obtain ⟨⟨b, hb⟩, hother, ⟨fs, m, hr, hm⟩, l', hl', -⟩ := appendCharge_refused_spec (r := (s.trunk k).room) (p := .opened) (c := c)
    (order := none) (s := x) (f := f) (by rw [hpool]; unfold State.freeEntries; rw [hrat]; exact hfull) rfl
  rw [hpool, hx.enabled, show x.stamp = s.stamp by unfold State.stamp; rw [hx.time]] at hl'
  dsimp only
  rw [hhand]
  rw [hx.folios] at hb
  refine ⟨?_, ?_, fun q hqr => ?_, ⟨fs, m, n, ?_, hm⟩, l, l', hl.trans hl', hlen⟩
  · rw [hb]; rfl
  · rw [hb]; rfl
  · rw [hother q hqr, hx.folios]
  · rw [hr, hrat]
    rfl

theorem unratedNotice_of_match {s : State} {k i : Nat} (h : s.matchTariff (s.trunk k).digits = some i) :
    s.unratedNotice k = [] := by unfold State.unratedNotice; rw [if_neg (by rw [h]; exact Option.some_ne_none i)]

theorem pricedCall_of_match {s : State} {k i : Nat} (h : s.matchTariff (s.trunk k).digits = some i) (implicit : Bool) :
    s.pricedCall k implicit =
      priceBy (s.tariffShadow i) i (callCharge k implicit s).duration (callCharge k implicit s) := by
  unfold State.pricedCall
  rw [show (callCharge k implicit s).digits = (s.trunk k).digits from rfl, h]

theorem pricedCall_of_none {s : State} {k : Nat} (h : s.matchTariff (s.trunk k).digits = none) (implicit : Bool) :
    s.pricedCall k implicit = callCharge k implicit s := by
  unfold State.pricedCall
  rw [show (callCharge k implicit s).digits = (s.trunk k).digits from rfl, h]

/-- The price written out (R126 to R128). -/
theorem priceBy_eq (h : Shadow) (i d : Nat) (c : Charge) :
    let n := if d > h.firstPeriod then (d - h.firstPeriod + h.pulsePeriod - 1) / h.pulsePeriod else 0
    let base := min (h.connectionFee + h.firstCharge c.night + n * h.pulseCharge c.night) 4294967295
    let marked := (base * (10000 + h.surcharge) + 5000) / 10000
    let capped := min (if h.cap > 0 ∧ marked > h.cap then h.cap else marked) 4294967295
    priceBy h i d c = if d ≤ h.grace then { c with kind := .free, tariff := i } else
      { c with kind := .rated, tariff := i, pulses := n, base := base, marked := capped
               amount := ((capped + 500) / 1000 : Nat) } := rfl

/-- A notice stands in a queue that takes the first of what is raised. -/
theorem mem_take_of_append {n : Notice} {a b : List Notice} {m : Nat} (h : a.length < m) : n ∈ (a ++ n :: b).take m := by
  rw [List.take_append]
  obtain ⟨c, hc⟩ := take_one n (show 0 < m - a.length by omega) b
  rw [hc]
  simp

/-- (1) of O19: the CLEARED write over an answered outgoing call. -/
theorem clearedCall_priced (s : State) (k : Nat) (es : List (Nat × Byte)) (i : Nat) (f : Folio) (ho : s.out = {})
    (h : s.leavesCarrying [.trunk k es]) (ha : s.control.state = .active) (hl : (s.trunkShadow k).loaded = true)
    (hany : es.any (fun e => decide (e.1 = 0)) = true)
    (hb : byteAt (mergeBytes trunkField (s.trunkShadow k).bytes es) 0 = 3#8)
    (hs : (s.trunk k).state = .answered) (hin : (s.trunk k).incoming = false)
    (hroom : (s.trunk k).room < s.roomCount) (hserial : (s.trunk k).serial ≠ 0)
    (hmatch : s.matchTariff (s.trunk k).digits = some i)
    (hf : (s.folios (s.trunk k).room).opened = some f) (hfs : f.serial = (s.trunk k).serial) :
    let c := priceBy (s.tariffShadow i) i (s.time.elapsed - (s.trunk k).answerCount).toNat (callCharge k false s)
    ∃ t, exec .trunkClear s = .next t ∧ leavesMemory s t ∧ (t.trunk k).state = .idle ∧
      (t.folios (s.trunk k).room).closed = (s.folios (s.trunk k).room).closed ∧
      (∀ q, q ≠ (s.trunk k).room → t.folios q = s.folios q) ∧ (s.trunk k).room ∈ t.rating.marks ∧
      t.rating.free = (if c.kind = .free then sat32 s.rating.free else s.rating.free) ∧
      t.rating.rated = (if c.kind = .rated then sat32 s.rating.rated else s.rating.rated) ∧
      (∀ rec pool, s.rating.freePool = rec :: pool → f.entriesNeeded ≤ 64 - s.rating.queue.length →
        (t.folios (s.trunk k).room).opened = some { f.taking c with records := f.records ++ [rec] } ∧
        t.rating.freePool = pool ∧ t.rating.poolFullCount = s.rating.poolFullCount ∧
        t.rating.queue = s.rating.queue ++ s.appendWrites f rec c none) ∧
      (s.rating.freePool = [] ∨ 64 - s.rating.queue.length < f.entriesNeeded →
        (t.folios (s.trunk k).room).opened = some { f.taking c with incomplete := true } ∧
        t.rating.freePool = s.rating.freePool ∧ t.rating.queue = s.rating.queue ∧
        t.rating.poolFullCount = sat32 s.rating.poolFullCount ∧
        (s.enabled .poolFull = true → s.notices.queue.length < 16 →
          ⟨.poolFull, (s.trunk k).room, s.stamp, f.serial, if s.rating.freePool = [] then 1 else 2⟩ ∈ t.notices.queue)) := by
  intro c
  have hw : writtenStateOf (byteAt (mergeBytes trunkField (s.trunkShadow k).bytes es) 0) = .cleared := by rw [hb]; rfl
  obtain ⟨u, t, hu, ht, hx, hm⟩ := trunk_leaves (c := .trunkClear) ho rfl h ha hl hany hw
  obtain ⟨v, hv, hend⟩ := call_ends hu ho hw (by decide) hs ht
  obtain ⟨hcounted, hrate⟩ := hv.counted k
  obtain ⟨htk, ⟨tr, htr⟩, hfol, hq⟩ := hend (rateCall k WrittenState.cleared.implicit v)
    (by rw [if_neg (by rw [hin]; decide)])
  have hc : s.pricedCall k WrittenState.cleared.implicit = c := pricedCall_of_match hmatch false
  have hnone := unratedNotice_of_match hmatch
  rw [hrate] at htr hfol hq
  generalize v.callCounted k WrittenState.cleared.implicit = x at *
  by_cases hfull : s.rating.freePool = [] ∨ 64 - s.rating.queue.length < f.entriesNeeded
  · obtain ⟨hopen, hclosed, hother, ⟨fs, m, n, hr, hmark⟩, l, l', hl', hlen⟩ :=
      hcounted.refused hroom hserial hf hfs hfull
    rw [hnone, List.append_nil] at hl'
    have hl0 : l = [] := List.length_eq_zero_iff.mp (by simpa using hlen)
    rw [hl0, List.nil_append] at hl'
    replace hq := hq _ hl'
    rw [hc] at hopen hclosed hother hr htr hfol
    rw [hr] at htr
    refine ⟨t, hx, hm, by rw [htk]; rfl, by rw [hfol, hclosed], fun q hqr => by rw [hfol, hother q hqr],
      by rw [htr]; exact hmark, by rw [htr]; rfl, by rw [htr]; rfl, fun rec pool hp hn => ?_, fun _ =>
      ⟨by rw [hfol, hopen], by rw [htr]; rfl, by rw [htr]; rfl, by rw [htr], fun hen hlt => ?_⟩⟩
    · rw [hp] at hfull
      obtain h0 | h0 := hfull
      · cases h0
      · omega
    · rw [hq, if_pos hen]
      exact List.mem_append_right _ (mem_take_of_append (a := []) (by simp; omega))
  · obtain ⟨hne, hn⟩ := not_or.mp hfull
    obtain ⟨rec, pool, hp⟩ := List.exists_cons_of_ne_nil hne
    obtain ⟨hopen, hclosed, hother, ⟨fs, m, raised, n, hr, hmark⟩, -⟩ :=
      hcounted.stored hroom hserial hf hfs hp (by omega)
    rw [hc] at hopen hclosed hother hr htr hfol
    rw [hr] at htr
    refine ⟨t, hx, hm, by rw [htk]; rfl, by rw [hfol, hclosed], fun q hqr => by rw [hfol, hother q hqr],
      by rw [htr]; exact hmark, by rw [htr]; rfl, by rw [htr]; rfl, fun rec' pool' hp' _ => ?_, fun h0 => absurd h0 hfull⟩
    obtain ⟨rfl, rfl⟩ := List.cons.inj (hp.symm.trans hp')
    exact ⟨by rw [hfol, hopen], by rw [htr], by rw [htr]; rfl, by rw [htr]⟩

theorem unratedNotice_mem {s : State} {k : Nat} (h : s.matchTariff (s.trunk k).digits = none)
    (hen : s.enabled .unratedCall = true) (hroom : (s.trunk k).room < s.roomCount) :
    s.unratedNotice k = [⟨.unratedCall, (s.trunk k).room, s.stamp, k,
      (s.time.elapsed - (s.trunk k).answerCount).toNat⟩] := by
  unfold State.unratedNotice
  rw [if_pos h, if_pos hen, noticeRoom_eq, if_pos hroom]

/-- (2) of O19: the ends of an answered call. -/
theorem answeredCall_ends (s : State) (k : Nat) (es : List (Nat × Byte)) (c : Instr) (w : WrittenState) (ho : s.out = {})
    (hrow : exec c s = stepIf (s.leavesWith (.trunk w)) leaveNow s) (hne : w ≠ .answered)
    (h : s.leavesCarrying [.trunk k es]) (ha : s.control.state = .active) (hl : (s.trunkShadow k).loaded = true)
    (hany : es.any (fun e => decide (e.1 = 0)) = true)
    (hw : writtenStateOf (byteAt (mergeBytes trunkField (s.trunkShadow k).bytes es) 0) = w)
    (hs : (s.trunk k).state = .answered) :
    ∃ t, exec c s = .next t ∧ leavesMemory s t ∧ t.trunk k = (s.trunk k).ended w s.time.elapsed ∧
      t.rating.implicits = (if w.implicit then sat32 s.rating.implicits else s.rating.implicits) ∧
      ((s.trunk k).incoming = true →
        t.rating.folios = s.rating.folios ∧ t.rating.queue = s.rating.queue ∧ t.rating.freePool = s.rating.freePool ∧
        t.rating.rated = s.rating.rated ∧ t.rating.free = s.rating.free ∧ t.rating.unrated = s.rating.unrated) ∧
      (∀ f rec pool, (s.trunk k).incoming = false → (s.trunk k).room < s.roomCount → (s.trunk k).serial ≠ 0 →
        (s.folios (s.trunk k).room).opened = some f → f.serial = (s.trunk k).serial →
        s.rating.freePool = rec :: pool → f.entriesNeeded ≤ 64 - s.rating.queue.length →
        let charge := s.pricedCall k w.implicit
        (t.folios (s.trunk k).room).opened = some { f.taking charge with records := f.records ++ [rec] } ∧
        (t.folios (s.trunk k).room).closed = (s.folios (s.trunk k).room).closed ∧
        (∀ q, q ≠ (s.trunk k).room → t.folios q = s.folios q) ∧ t.rating.freePool = pool ∧
        (s.trunk k).room ∈ t.rating.marks ∧
        t.rating.queue = s.rating.queue ++ s.appendWrites f rec charge none ∧
        t.rating.unrated = (if charge.kind = .unrated then sat32 s.rating.unrated else s.rating.unrated) ∧
        t.rating.free = (if charge.kind = .free then sat32 s.rating.free else s.rating.free) ∧
        t.rating.rated = (if charge.kind = .rated then sat32 s.rating.rated else s.rating.rated) ∧
        (s.matchTariff (s.trunk k).digits = none → s.enabled .unratedCall = true →
          s.notices.queue.length < (if w = .unknown then 15 else 16) →
          ⟨.unratedCall, (s.trunk k).room, s.stamp, k, (s.time.elapsed - (s.trunk k).answerCount).toNat⟩
            ∈ t.notices.queue)) := by
  obtain ⟨u, t, hu, ht, hx, hm⟩ := trunk_leaves ho hrow h ha hl hany hw
  obtain ⟨v, hv, hend⟩ := call_ends hu ho hw hne hs ht
  obtain ⟨hcounted, hrate⟩ := hv.counted k
  rw [hrate] at hend
  generalize v.callCounted k w.implicit = x at *
  cases hin : (s.trunk k).incoming with
  | true =>
    rw [hin] at hend
    obtain ⟨htk, ⟨tr, htr⟩, -, -⟩ := hend v rfl
    obtain ⟨m, a, hp, n, o, hrest⟩ := hv.rest
    rw [hrest] at htr
    exact ⟨t, hx, hm, htk, by rw [htr], fun _ => by rw [htr]; exact ⟨rfl, rfl, rfl, rfl, rfl, rfl⟩, fun _ _ _ hf => by cases hf⟩
  | false =>
    rw [hin] at hend
    obtain ⟨htk, ⟨tr, htr⟩, hfol, hq⟩ := hend (handOver (s.pricedCall k w.implicit) x) rfl
    have himplicit : (handOver (s.pricedCall k w.implicit) x).rating.implicits = x.rating.implicits :=
      (congrArg Rating.implicits (handOver_calls (s.pricedCall k w.implicit) x) :
        (State.calls (handOver _ x)).implicits = x.calls.implicits)
    refine ⟨t, hx, hm, htk, ?_, nofun, fun f rec pool _ hroom hserial hf hfs hp hn => ?_⟩
    · obtain ⟨n, hr⟩ := hcounted.rating
      rw [htr]
      dsimp only
      rw [himplicit, hr]
      rfl
    · obtain ⟨hopen, hclosed, hother, ⟨fs, m, raised, n, hr, hmark⟩, l, l', hl', hlen⟩ :=
        hcounted.stored hroom hserial hf hfs hp hn
      rw [hr] at htr
      refine ⟨by rw [hfol, hopen], by rw [hfol, hclosed], fun q hqr => by rw [hfol, hother q hqr], by rw [htr],
        by rw [htr]; exact hmark, by rw [htr], by rw [htr]; rfl, by rw [htr]; rfl, by rw [htr]; rfl,
        fun hnone hen hlt => ?_⟩
      rw [hq _ hl', unratedNotice_mem hnone hen hroom, List.append_assoc]
      refine List.mem_append_right _ (mem_take_of_append ?_)
      split at hlen
      next hu => rw [if_pos hu] at hlt; omega
      next hu => rw [if_neg hu] at hlt; omega

/-! ### The end of an unanswered call (R119) -/

theorem stepTrunk_seized {k : Nat} {w : WrittenState} {v : State} (hw : w ≠ .answered ∧ w ≠ .seized)
    (h : (v.trunk k).state = .seized) : stepTrunk k w v = idleTrunk k (unansweredClear k v) := by
  unfold stepTrunk
  rw [h]
  cases w with
  | idle => rfl
  | seized => exact absurd rfl hw.2
  | answered => exact absurd rfl hw.1
  | cleared => rfl
  | unknown => rfl

theorem openSerial_of {s : State} {r : Nat} {f : Folio} (hr : r < s.roomCount) (hf : (s.folios r).opened = some f) :
    s.openSerial r = f.serial := by unfold State.openSerial; rw [if_pos hr, hf]

theorem openSerial_of_none {s : State} {r : Nat} (h : s.roomCount ≤ r ∨ (s.folios r).opened = none) :
    s.openSerial r = 0 := by
  unfold State.openSerial
  split
  · obtain h | h := h
    · omega
    · rw [h]
  · rfl

theorem idleTrunk_rating (k : Nat) (v : State) :
    (idleTrunk k v).rating = { v.rating with trunks := (idleTrunk k v).rating.trunks } := rfl

/-- (3) of O19: the ends of an unanswered call. -/
theorem unansweredCall_ends (s : State) (k : Nat) (es : List (Nat × Byte)) (c : Instr) (w : WrittenState) (ho : s.out = {})
    (hrow : exec c s = stepIf (s.leavesWith (.trunk w)) leaveNow s) (hne : w ≠ .answered ∧ w ≠ .seized)
    (h : s.leavesCarrying [.trunk k es]) (ha : s.control.state = .active) (hl : (s.trunkShadow k).loaded = true)
    (hany : es.any (fun e => decide (e.1 = 0)) = true)
    (hw : writtenStateOf (byteAt (mergeBytes trunkField (s.trunkShadow k).bytes es) 0) = w)
    (hs : (s.trunk k).state = .seized) :
    let h' : Shadow := { s.trunkShadow k with bytes := mergeBytes trunkField (s.trunkShadow k).bytes es }
    ∃ t n tr x, exec c s = .next t ∧ leavesMemory s t ∧ t.trunk k = { s.trunk k with state := .idle } ∧
      x.rating = { s.rating with unknownStates := n } ∧ x.control = s.control ∧
      t.rating = { (if s.profile.logUnanswered = false ∨ h'.trunkIncoming = true then x
        else if s.openSerial h'.trunkRoom = 0 then { x with rating.unanswered := sat32 s.rating.unanswered }
        else handOver
          { kind := .unanswered, missed := (s.trunk k).missedSeize, clockUnset := !s.time.clockSet, trunk := k
            room := h'.trunkRoom, serial := s.openSerial h'.trunkRoom, digits := h'.trunkDigits, stamp := s.stamp
            duration := (s.time.elapsed - (s.trunk k).seizeCount).toNat
            night := isNight s.profile.dayStart s.profile.nightStart s.time.clock }
          { x with rating.unanswered := sat32 s.rating.unanswered }).rating with trunks := tr } := by
  intro h'
  obtain ⟨u, t, hu, ht, hx, hm⟩ := trunk_leaves ho hrow h ha hl hany hw
  have hnote (j) : (noteUnknown k (byteAt (s.trunkShadow k).bytes 0)
    (byteAt (mergeBytes trunkField (s.trunkShadow k).bytes es) 0) u).trunk j = s.trunk j := by
    rw [noteUnknown_trunk, hu.trunk]
  have hsh : u.trunkShadow k = h' := by rw [hu.shadow, if_pos rfl]
  rw [trunkWritten_eq, hw, stepTrunk_seized hne (by rw [hnote]; exact hs)] at ht
  obtain ⟨n, o, hn⟩ := noteUnknown_rest k (byteAt (s.trunkShadow k).bytes 0)
    (byteAt (mergeBytes trunkField (s.trunkShadow k).bytes es) 0) u
  generalize noteUnknown k (byteAt (s.trunkShadow k).bytes 0)
    (byteAt (mergeBytes trunkField (s.trunkShadow k).bytes es) 0) u = x at *
  have he : EndsAs (idleTrunk k (unansweredClear k x)) t := by rw [ht]; exact finish_endsAs _
  have hxsh : x.trunkShadow k = h' := by rw [← hsh, hn]; rfl
  obtain ⟨m, a, hp, hrest⟩ := hu.rest
  have hxr : x.rating = { s.rating with unknownStates := n } := by rw [hn, hrest]
  have hxc : x.control = s.control := by rw [hn, hrest]
  have hserial : x.openSerial h'.trunkRoom = s.openSerial h'.trunkRoom := by rw [hn, hrest]; rfl
  have hcharge : x.unansweredCharge k =
      { kind := .unanswered, missed := (s.trunk k).missedSeize, clockUnset := !s.time.clockSet, trunk := k
        room := h'.trunkRoom, serial := s.openSerial h'.trunkRoom, digits := h'.trunkDigits, stamp := s.stamp
        duration := (s.time.elapsed - (s.trunk k).seizeCount).toNat
        night := isNight s.profile.dayStart s.profile.nightStart s.time.clock } := by
    unfold State.unansweredCharge
    rw [hxsh, hnote, hserial, hn, hrest]
    rfl
  refine ⟨t, n, (idleTrunk k (unansweredClear k x)).rating.trunks, x, hx, hm, ?_, hxr, hxc, ?_⟩
  · rw [he.trunk, idleTrunk_trunk, if_pos rfl, unansweredClear_trunk, hnote]
  · rw [he.rating, ← hcharge, ← hserial]
    rw [idleTrunk_rating k (unansweredClear k x)]
    generalize (idleTrunk k (unansweredClear k x)).rating.trunks = tr
    rw [unansweredClear_eq, hxsh, show x.profile = s.profile from congrArg Control.profile hxc, show x.rating.unanswered = s.rating.unanswered by rw [hxr]]

/-- Settles O19. -/
theorem clearedCallIsPricedOntoItsFolio : Obligations.ClearedCallIsPricedOntoItsFolio := by
  refine ⟨?_, ?_, ?_⟩
  · intro s k es i f ho h ha hl hany hb hs hin hroom hserial hmatch hf hfs u tariff d night n base marked capped amount call
      charge total
    have hc : priceBy tariff i d (callCharge k false s) = charge := by
      rw [priceBy_eq]
      show (if d ≤ tariff.grace then _ else _) = if d ≤ tariff.grace then _ else _
      split
      next hg => rfl
      next hg =>
        have hamount : amount = ((capped + 500) / 1000 : Nat) := if_neg hg
        show _ = ({ call with kind := .rated, pulses := n, base := base, marked := capped, amount := amount } : Charge)
        rw [hamount]
        rfl
    have hkind : charge.kind = if d ≤ tariff.grace then .free else .rated := by rw [← hc, priceBy_kind]
    have htaking : f.taking charge = { f with total := total } := by
      have hamount : charge.amount = amount := by
        show (if d ≤ tariff.grace then call else _ : Charge).amount = amount
        split
        next hg => exact (if_pos hg : amount = 0).symm
        next hg => rfl
      unfold Folio.taking
      rw [hamount, saturate32_eq]
    have hmain := clearedCall_priced s k es i f ho h ha hl hany hb hs hin hroom hserial hmatch hf hfs
    dsimp only at hmain
    rw [show priceBy (s.tariffShadow i) i (s.time.elapsed - (s.trunk k).answerCount).toNat (callCharge k false s) = charge
      from hc, hkind, htaking] at hmain
    obtain ⟨t, hx, hm, hidle, hclosed, hother, hmark, hfree, hrated, hstored, hrefused⟩ := hmain
    refine ⟨t, hx, hm, hidle, hclosed, hother, hmark, ?_, ?_, hstored, hrefused⟩
    · rw [hfree]; split <;> rfl
    · rw [hrated]; split <;> rfl
  · intro s k es c w implicit ho hrow h ha hl hany hw hs u after implicits
    obtain ⟨hrow', hne, himp⟩ : exec c s = stepIf (s.leavesWith (.trunk w)) leaveNow s ∧ w ≠ .answered ∧
        w.implicit = implicit := by
      simp only [List.mem_cons, Prod.mk.injEq, List.not_mem_nil, or_false] at hrow
      obtain ⟨rfl, rfl, rfl⟩ | ⟨rfl, rfl, rfl⟩ | ⟨rfl, rfl, rfl⟩ | ⟨rfl, rfl, rfl⟩ := hrow
      · exact ⟨rfl, by decide, rfl⟩
      · exact ⟨rfl, by decide, rfl⟩
      · exact ⟨rfl, by decide, rfl⟩
      · exact ⟨rfl, by decide, rfl⟩
    obtain ⟨t, hx, hm, htk, himpl, hincoming, hout⟩ := answeredCall_ends s k es c w ho hrow' hne h ha hl hany hw hs
    rw [himp] at himpl hout
    refine ⟨fun hin => ⟨t, hx, hm, htk, himpl, hincoming hin⟩, ?_⟩
    intro f rec pool hin hroom hserial hf hfs hp hn call charge
    have hc : s.pricedCall k implicit = charge := by
      have hcharge : charge = match s.matchTariff (s.trunk k).digits with
        | none => call
        | some i => priceBy (s.tariffShadow i) i call.duration call := rfl
      rw [hcharge]
      cases hmatch : s.matchTariff (s.trunk k).digits with
      | none => exact pricedCall_of_none hmatch implicit
      | some i => exact pricedCall_of_match hmatch implicit
    obtain ⟨hopen, hclosed, hother, hpool, hmark, hqueue, hunrated, hfree, hrated, hnote⟩ :=
      hout f rec pool hin hroom hserial hf hfs hp hn
    rw [hc] at hopen hqueue hunrated hfree hrated
    exact ⟨t, hx, hm, htk, himpl, hopen, hclosed, hother, hpool, hmark, hqueue, hunrated, hfree, hrated, hnote⟩
  · intro s k es c w ho hrow h ha hl hany hw hs u h' room
    obtain ⟨hrow', hne⟩ : exec c s = stepIf (s.leavesWith (.trunk w)) leaveNow s ∧ w ≠ .answered ∧ w ≠ .seized := by
      simp only [List.mem_cons, Prod.mk.injEq, List.not_mem_nil, or_false] at hrow
      obtain ⟨rfl, rfl⟩ | ⟨rfl, rfl⟩ | ⟨rfl, rfl⟩ := hrow
      · exact ⟨rfl, by decide, by decide⟩
      · exact ⟨rfl, by decide, by decide⟩
      · exact ⟨rfl, by decide, by decide⟩
    obtain ⟨t, n, tr, x, hx, hm, htk, hxr, hxc, hr⟩ := unansweredCall_ends s k es c w ho hrow' hne h ha hl hany hw hs
    have hxf (q) : x.folios q = s.folios q := by unfold State.folios; rw [hxr]
    refine ⟨fun hno => ?_, fun hlog hout => ⟨fun hnone => ?_, ?_⟩⟩
    · rw [if_pos hno, hxr] at hr
      exact ⟨t, hx, hm, htk, by rw [hr], by rw [hr], by rw [hr], by rw [hr]⟩
    · rw [if_neg (by rw [hlog, hout]; decide), if_pos (openSerial_of_none hnone)] at hr
      dsimp only at hr
      rw [hxr] at hr
      exact ⟨t, hx, hm, htk, by rw [hr], by rw [hr], by rw [hr], by rw [hr], by rw [hr]⟩
    · intro f rec pool hroom hf hserial hp hn charge
      have hopen : s.openSerial room = f.serial := openSerial_of hroom hf
      rw [if_neg (by rw [hlog, hout]; decide), if_neg (by rw [hopen]; exact hserial), hopen] at hr
      generalize hy : ({ x with rating.unanswered := sat32 s.rating.unanswered } : State) = y at hr
      have hyf (q) : y.folios q = s.folios q := by rw [← hy]; exact hxf q
      have hhand : handOver charge y = (appendCharge room .opened f charge none y).2 :=
        handOver_open (f := f) (by rw [← hy]; show room < 64 * x.control.profile.floors; rw [hxc]; exact hroom)
          hserial (by rw [hyf]; exact hf) rfl
      have hyr : y.rating = { s.rating with unknownStates := n, unanswered := sat32 s.rating.unanswered } := by
        rw [← hy]; dsimp only; rw [hxr]
      obtain ⟨⟨b, hb⟩, hother, ⟨fs, m, raised, hrat, hmark⟩, -⟩ := appendCharge_stored_spec (r := room) (p := .opened)
        (c := charge) (order := none) (s := y) (f := f) (k := rec) (pool := pool) (by rw [hyr]; exact hp)
        (by unfold State.freeEntries; rw [hyr]; exact hn) rfl
      have hr' : t.rating = { (handOver charge y).rating with trunks := tr } := hr
      rw [hhand] at hr'
      have hfol (q) : t.folios q = (appendCharge room .opened f charge none y).2.folios q := by
        unfold State.folios; rw [hr']
      have hwrites : y.appendWrites f rec charge none = s.appendWrites f rec charge none := by
        have : y.profile = s.profile := by rw [← hy]; exact congrArg Control.profile hxc
        unfold State.appendWrites
        rw [this]
      have htotal : f.taking charge = { f with total := max (-2147483648) (min 2147483647 f.total) } := by
        unfold Folio.taking
        rw [saturate32_eq, show f.total + charge.amount = f.total from Int.add_zero _]
      rw [hyf, htotal] at hb
      refine ⟨t, hx, hm, htk, ?_, ?_, ?_, fun q hqr => ?_, ?_, ?_, ?_⟩
      · rw [hr', hrat, hyr]
      · rw [hfol, hb]; rfl
      · rw [hfol, hb]; rfl
      · rw [hfol, hother q hqr, hyf]
      · rw [hr', hrat]
      · rw [hr', hrat]; exact hmark
      · rw [hr', hrat, hyr, hwrites]

end Sys2Proof.Machine
end

section
/-! PROOFS. Writes that reach the rings, activation, and the end of validation (8.9, 10.3, 11.2, 11.3, 11.6). -/

namespace Sys2Proof.Machine

theorem profileBlock_eq (s : State) : s.profileBlock = s.straps.toNat * 2 ^ 30 := by
  unfold State.profileBlock; norm_num

/-! ### The order ring and the notice ring (R174, R185) -/

/-- A write that carries one observation of the rings, whose behaviour the present ring gives. -/
theorem leavesCarrying_effect {c : Instr} {m : WriteMark} {s u : State} {o : Observation} (ho : s.out = {})
    (hc : exec c s = stepIf (s.leavesWith m) leaveNow s) (h : s.leavesCarrying [o])
    (hm : ∀ (mem : Table Byte) (a : Arbiter), m ∈ observationMarks { s with mem := mem, arbiter := a } o)
    (hu : ∀ mem a, s.leftHost = { s with mem := mem, arbiter := a, host := { s.host with fifo := s.host.fifo.tail, head := none } } →
      observed o s.leftHost = u) : WriteLeaves c s u := by
  obtain ⟨req, w, hleave, h1, h2⟩ := id h
  obtain ⟨mem, a, hat⟩ := atLeave_rest hleave
  obtain ⟨mem', a', hs⟩ := leftHost_rest hleave
  rw [← hu mem' a' hs]
  exact writeLeaves_one ho hc h (by rw [hat]; exact hm mem a)

theorem ringError_eq {slot : Nat} {v : Byte} {s : State} (h : s.out = {}) :
    ringError slot v s =
      { s with
        ring.ringErrors := sat32 s.ring.ringErrors
        out.notices := if s.enabled .ringError then
          [(.directory, ⟨.ringError, 0xFFFF, s.stamp, twoItems slot (s.heldCondition slot), v.toNat⟩)] else [] } := by
  unfold ringError
  rw [notify_first (by exact h)]
  rfl

/-- Settles O21. -/
theorem ringWritesReachTheRings : Obligations.RingWritesReachTheRings := by
  refine ⟨fun s i v c ho h hrow => ?_, fun s v ho => ⟨fun h => ?_, fun h => ?_⟩⟩
  · have hleaves (u : State) (hu : ∀ mem a, s.leftHost = { s with mem := mem, arbiter := a, host := { s.host with fifo := s.host.fifo.tail, head := none } } →
        slotWritten i v s.leftHost = u) : WriteLeaves c s u := by
      obtain ⟨rfl, rfl⟩ | ⟨rfl, hv, hmarked⟩ := hrow
      · exact leavesCarrying_effect (m := .post) ho rfl h (fun _ _ => List.mem_singleton_self _) hu
      · refine leavesCarrying_effect (m := .cancel) ho rfl h (fun _ _ => ?_) hu
        unfold observationMarks
        dsimp only
        rw [if_neg hv]
        show WriteMark.cancel ∈ if i ∈ s.ring.marks ∨ s.slotHeld i = true then _ else _
        rw [if_pos hmarked]
        exact List.mem_singleton_self _
    refine ⟨fun hheld => hleaves _ fun mem a hs => ?_, fun hidle hv => hleaves _ fun mem a hs => ?_,
      fun hidle hv => hleaves _ fun mem a hs => ?_⟩
    · have hheld' : s.leftHost.slotHeld i = true := by rw [hs]; exact hheld
      unfold slotWritten
      rw [if_pos hheld', ringError_eq (by rw [hs]; exact ho), ← sat32_eq, hs]
      rfl
    · have hidle' : ¬ s.leftHost.slotHeld i = true := by rw [hs]; show ¬ s.slotHeld i = true; rw [hidle]; decide
      unfold slotWritten
      rw [if_neg hidle', if_pos hv, hs]
    · have hidle' : ¬ s.leftHost.slotHeld i = true := by rw [hs]; show ¬ s.slotHeld i = true; rw [hidle]; decide
      unfold slotWritten
      rw [if_neg hidle', if_neg hv, hs]
      rfl
  · refine leavesCarrying_effect (m := .consumer) ho rfl h (fun _ _ => List.mem_singleton_self _) fun mem a hs => ?_
    show consumerWritten v s.leftHost = _
    unfold consumerWritten
    rw [hs]
    show (if v < s.profile.noticeSlots then _ else _) = _
    split
    · rfl
    · rfl
  · refine leavesCarrying_effect (m := .clearOverflow) ho rfl h (fun _ _ => List.mem_singleton_self _) fun mem a hs => ?_
    show overflowCleared s.leftHost = _
    unfold overflowCleared raise headerRequest
    rw [hs]
    show ({ s with mem := _, arbiter := _, host := _, notices.overflow := _, out.requests := s.out.requests ++ _ } : State) = _
    rw [ho]
    rfl

/-! ### Activation writes (R186, R187, R193) -/

/-- Settles O22. -/
theorem activationStartsValidation : Obligations.ActivationStartsValidation := by
  intro s c kind v ho hrow h
  have hleaves (u : State) (hu : ∀ mem a, s.leftHost = { s with mem := mem, arbiter := a, host := { s.host with fifo := s.host.fifo.tail, head := none } } →
      activationWritten v s.leftHost = u) : WriteLeaves c s u := by
    simp only [List.mem_cons, Prod.mk.injEq, List.not_mem_nil, or_false] at hrow
    obtain ⟨rfl, rfl, rfl⟩ | ⟨rfl, rfl, rfl⟩ := hrow
    · exact leavesCarrying_effect (m := .format) ho rfl h (fun _ _ => List.mem_singleton_self _) hu
    · exact leavesCarrying_effect (m := .adopt) ho rfl h (fun _ _ => List.mem_singleton_self _) hu
  have hact (t : State) : activationWritten v t =
      if t.control.state = .passive then startValidation kind { t with control.lastValue := v }
      else recordResult .refused { t with control.lastValue := v } := by
    simp only [List.mem_cons, Prod.mk.injEq, List.not_mem_nil, or_false] at hrow
    unfold activationWritten
    obtain ⟨-, rfl, rfl⟩ | ⟨-, rfl, rfl⟩ := hrow
    · by_cases hp : t.control.state = .passive
      · simp [hp]
      · simp [hp]
    · by_cases hp : t.control.state = .passive
      · simp [hp]
      · simp [hp]
  refine ⟨fun hp => hleaves _ fun mem a hs => ?_, fun hp => hleaves _ fun mem a hs => ?_⟩
  · rw [hact, if_pos (by rw [hs]; exact hp)]
    unfold startValidation raiseAll validationReads
    rw [profileBlock_eq, hs]
    dsimp only
    rw [ho]
    rfl
  · rw [hact, if_neg (by rw [hs]; exact hp)]
    unfold recordResult writeActivation raise
    rw [profileBlock_eq, hs]
    dsimp only
    rw [ho]
    rfl

/-- The grant of a write returns nothing (R165). -/
theorem atLeave_returned {s : State} {req : HostRequest} {w : HeadWork} (h : s.leaving = some (req, w)) :
    s.atLeave.arbiter.returned = s.arbiter.returned := by
  rcases leaving_burst h with ⟨-, -, e⟩ | ⟨d, r, -, -, -, hw, -, -, e⟩
  · rw [e]
  · rw [e]
    unfold carry settleGrant
    rw [hw]
    rfl

/-- Settles O23. -/
theorem stopDropsTheContexts : Obligations.StopDropsTheContexts := by
  intro s ho h
  have hleaves (u : State) (hu : activationWritten 3 s.leftHost = u) : WriteLeaves .stop s u :=
    leavesCarrying_effect (m := .stop) ho rfl h (fun _ _ => List.mem_singleton_self _) fun _ _ _ => hu
  obtain ⟨req, w, hleave, -, -⟩ := h
  obtain ⟨mem, a, hat⟩ := atLeave_rest hleave
  have hret := atLeave_returned hleave
  have hs : s.leftHost = { s with mem := mem, arbiter := a, host := { s.host with fifo := s.host.fifo.tail, head := none } } := by
    unfold State.leftHost; rw [hat]
  refine ⟨fun hp => hleaves _ ?_, fun hp => hleaves _ ?_⟩
  · rw [hat] at hret ⊢
    have hstop : activationWritten 3 s.leftHost = stopPart { s.leftHost with control.lastValue := 3 } := by
      unfold activationWritten
      rw [show decide (s.leftHost.control.state = .passive) = false from decide_eq_false (by rw [hs]; exact hp)]
      rfl
    rw [hstop]
    unfold stopPart recordResult writeActivation raise
    rw [profileBlock_eq, hs]
    dsimp only
    rw [ho]
    unfold Arbiter.stopped HostPath.stopped
    dsimp only at hret ⊢
    rw [hret]
    rfl
  · have hstop : activationWritten 3 s.leftHost = recordResult .refused { s.leftHost with control.lastValue := 3 } := by
      unfold activationWritten
      rw [show decide (s.leftHost.control.state = .passive) = true from decide_eq_true (by rw [hs]; exact hp)]
      rfl
    rw [hstop]
    unfold recordResult writeActivation raise State.activationStatus
    rw [profileBlock_eq, hs]
    dsimp only
    rw [ho, hp]
    rfl

/-! ### Reads and aperture writes leave (R53, R150, R151) -/

/-- The count of choices is none of what the statements see. -/
theorem EndsAs.of_choices {u t : State} {c : Nat} (h : EndsAs { u with choices := c } t) : EndsAs u t :=
  ⟨h.steady, h.channels, h.voice, h.head, h.lines, h.exact, h.notices, h.placed⟩

/-- A read with no part left is answered and leaves (R151). -/
theorem advanceHead_answers {req : HostRequest} {w : HeadWork} {s : State} (hw : req.write = false) (hp : w.parts = []) :
    ∃ past c, givenPast req past ∧ advanceHead req headFuel w s =
      { s with
        host.fifo := s.host.fifo.tail, host.head := none, host.answers := s.host.answers ++ [w.answer ++ past]
        choices := c } := by
  obtain ⟨past, c, hpast, heq⟩ := leaveRead_eq req w.answer s
  refine ⟨past, c, hpast, ?_⟩
  rw [← heq]
  unfold headFuel advanceHead
  rw [hp]
  dsimp only
  rw [hw]
  rfl

theorem readOut_of {s : State} {req : HostRequest} {w : HeadWork} (h : s.readOut = some (req, w)) : req.write = false := by
  unfold State.readOut at h
  split at h
  · split at h
    next hc =>
      obtain ⟨rfl, rfl⟩ := Prod.mk.inj (Option.some.inj h)
      simpa using hc.1
    next => cases h
  · cases h

/-- Settles O24. -/
theorem readDataReachesTheHost : Obligations.ReadDataReachesTheHost := by
  intro s req w p ret ho hret hout hparts hfifo hwait hloads
  have hread : readReturned ret (takeReturn Source.isHostPart s) =
      advanceHead req headFuel
        { w with parts := [], answer := w.answer ++ readLanes p.lanes ret.data, phase := .ready }
        (takeReturn Source.isHostPart s) := by
    unfold readReturned
    rw [show (takeReturn Source.isHostPart s).readOut = some (req, w) from hout]
    dsimp only
    rw [hparts]
  obtain ⟨past, c, hpast, hadv⟩ := advanceHead_answers (s := takeReturn Source.isHostPart s)
    (w := { w with parts := [], answer := w.answer ++ readLanes p.lanes ret.data, phase := .ready }) (readOut_of hout) rfl
  refine ⟨past, hpast, _, stepReturn_of readReturned s hret, ?_⟩
  refine EndsAs.of_choices (c := c) (taken_endsAs' (f := fun t => readReturned ret (takeReturn Source.isHostPart t)) ho ?_)
  rw [hread, hadv]
  show ({ takeReturn Source.isHostPart s with host := { s.host with fifo := s.host.fifo.tail, head := none, answers := _ }, choices := c } : State) = _
  rw [hfifo]
  rfl

/-- Settles O25. -/
theorem apertureWriteGivesItsSamples : Obligations.ApertureWriteGivesItsSamples := by
  intro s req w ho hat hmode hall hobs hguard
  have hparts : s.voiceParts w = w.parts :=
    List.takeWhile_eq_self_iff.mpr fun p hp => List.all_eq_true.mp hall p hp
  have htake : takeVoice w s = takeLanes (s.voiceOffset w.parts) (partLanes w.parts) s := by
    unfold takeVoice
    dsimp only
    rw [hparts, if_neg (by rw [hmode]; decide)]
  have hbase := takeLanes_base (s.voiceOffset w.parts) (partLanes w.parts) s
  have houter := outer_sameOuter (State.outer_of_base hbase)
  have hwrite : voiceWrite req w s = { takeLanes (s.voiceOffset w.parts) (partLanes w.parts) s with
      host := { s.host with fifo := s.host.fifo.tail, head := none } } := by
    unfold voiceWrite
    dsimp only
    rw [hparts, List.drop_length, htake, List.all_nil, if_pos rfl]
    have hhost := host_of_base hbase
    have hprofile := congrArg Control.profile (control_of_base hbase)
    generalize takeLanes (s.voiceOffset w.parts) (partLanes w.parts) s = v at *
    unfold leaveWrite
    dsimp only
    rw [observations_congr (s := s) (t := v) hprofile houter.2.2.2.1 houter.1, hobs,
      guardedBytes_congr (s := s) (t := v) hprofile houter.2.2.2.1, hguard, hhost]
    rfl
  refine ⟨_, stepOn_of _ s hat, ?_, ?_⟩
  · refine EndsAs.sameOuter (taken_endsAs' (f := fun t => voiceWrite req w t) ho hwrite) ?_
    exact houter
  · exact taken_endsAs' (f := fun t => voiceWrite req w t) ho hwrite

/-! ### Load reads (R158) -/

/-- Settles O30. -/
theorem loadReadFillsItsShadow : Obligations.LoadReadFillsItsShadow := by
  intro s target ret rest ho hret hfifo u
  refine ⟨_, stepReturn_of loadReturned s hret, ?_⟩
  refine taken_endsAs' (f := fun t => loadReturned ret (takeReturn Source.isLoad t)) ho ?_
  have hload : (takeReturn Source.isLoad s).headLoad = some target := by
    unfold State.headLoad
    rw [show (takeReturn Source.isLoad s).host.fifo = .load target :: rest from hfifo]
  have hu : { takeReturn Source.isLoad s with
      host.fifo := (takeReturn Source.isLoad s).host.fifo.tail, host.head := none } = u := by
    show ({ takeReturn Source.isLoad s with host := { s.host with fifo := s.host.fifo.tail, head := none } } : State) = _
    rw [hfifo]
    rfl
  unfold loadReturned
  rw [hload]
  dsimp only
  rw [hu]
  cases target <;> rfl

/-! ### A validated profile (R153, R154, R166, R186) -/

theorem listEntries_length {h : List Byte} {off n : Nat} {l : List ListEntry} (hl : listEntries h off n = some l) :
    l.length = n := by
  induction n generalizing off l with
  | zero => obtain rfl := Option.some.inj hl; rfl
  | succ n ih =>
    unfold listEntries at hl
    split at hl
    next e es he hes =>
      obtain rfl := Option.some.inj hl
      rw [List.length_cons, ih hes]
    next => cases hl

/-- The lists that parse are within their lengths and serve every requester (R166). -/
theorem parseLists_spec {h : List Byte} {l : Lists} (hl : parseLists h = some l) :
    (∀ w : Requester, ⟨w, .either⟩ ∈ l.priority ++ l.roundRobin) ∧ l.wheel.length ≤ 32 ∧ l.priority.length ≤ 5 ∧
    l.roundRobin.length ≤ 8 := by
  unfold parseLists at hl
  split at hl
  next w p r hw hp hr =>
    split at hl
    next hs =>
      obtain rfl := Option.some.inj hl
      refine ⟨fun x => ?_, ?_, ?_, ?_⟩
      · have hx : x ∈ [Requester.host, .voice, .directory, .rating, .lamp] := by cases x <;> decide
        obtain ⟨e, he, heq⟩ := List.any_eq_true.mp (List.all_eq_true.mp hs x hx)
        rw [← of_decide_eq_true heq]
        exact he
      · rw [listEntries_length hw]; exact Nat.min_le_left ..
      · rw [listEntries_length hp]; exact Nat.min_le_left ..
      · rw [listEntries_length hr]; exact Nat.min_le_left ..
    next => cases hl
  next => cases hl

/-- What a copy that validation accepts has passed (R186). -/
theorem validate_passes {block : Nat} {h : List Byte} {p : Profile} {l : Lists} (hv : validate block h = .inr (p, l)) :
    p = parseProfile h ∧ parseLists h = some l ∧ rangesOk p = true ∧ aligned p = true ∧ withinSpace block p = true ∧
    allApart (regionsOf block p) = true := by
  unfold validate at hv
  dsimp only at hv
  split at hv
  · cases hv
  next hr =>
    split at hv
    · cases hv
    next ha =>
      split at hv
      · cases hv
      next hw =>
        split at hv
        · cases hv
        next hap =>
          split at hv
          · cases hv
          next l' hl =>
            obtain ⟨rfl, rfl⟩ := Prod.mk.inj (Sum.inr.inj hv)
            exact ⟨rfl, hl, by simpa using hr, by simpa using ha, by simpa using hw, by simpa using hap⟩

theorem apart_noShared {a b : Region × Nat × Nat} (h : apart a b = true) (x : Nat) :
    ¬(a.2.1 ≤ x ∧ x < a.2.1 + a.2.2 ∧ b.2.1 ≤ x ∧ x < b.2.1 + b.2.2) := by
  unfold apart at h
  simp only [Bool.or_eq_true, decide_eq_true_eq] at h
  omega

theorem allApart_pairwise {l : List (Region × Nat × Nat)} (h : allApart l = true) :
    l.Pairwise fun a b => ∀ x, ¬(a.2.1 ≤ x ∧ x < a.2.1 + a.2.2 ∧ b.2.1 ≤ x ∧ x < b.2.1 + b.2.2) := by
  induction l with
  | nil => exact .nil
  | cons r rs ih =>
    unfold allApart at h
    obtain ⟨hr, hrs⟩ := Bool.and_eq_true_iff.mp h
    exact .cons (fun b hb => apart_noShared (List.all_eq_true.mp hr b hb)) (ih hrs)

theorem clampTo_le (limit v : Nat) : clampTo limit v ≤ limit := by
  unfold clampTo; split <;> omega

theorem le_clampTo {limit v : Nat} (h : 1 ≤ limit) : 1 ≤ clampTo limit v := by
  unfold clampTo; split <;> omega

/-- The ranges to which the chapters clamp the settings (R9, R17, R47, R71, R88, R110, R135, R172, R184). -/
theorem parseProfile_ranges (h : List Byte) (hblocks : 1 ≤ (parseProfile h).blocks) :
    let p := parseProfile h
    p.floors ≤ 64 ∧ p.cards ≤ p.floors ∧ 1 ≤ p.loadLimit ∧ p.loadLimit ≤ 64 ∧ p.trunks ≤ 256 ∧ p.tariffs ≤ 512 ∧
    8 ≤ p.orderSlots ∧ p.orderSlots ≤ 256 ∧ 16 ≤ p.noticeSlots ∧ p.noticeSlots ≤ 1024 ∧ p.records ≤ 16384 ∧
    p.poolRecords ≤ 65536 ∧ p.blocks ≤ 1048576 ∧ p.reserve ≤ p.blocks ∧ p.storeLowLevel ≤ p.blocks ∧
    1 ≤ p.defaultQuota ∧ p.defaultQuota ≤ p.blocks ∧ p.stepIndex ≤ 63 ∧ 1 ≤ p.recordLimit ∧ p.recordLimit ≤ 36000 ∧
    p.minRecord ≤ 600 ∧ 1 ≤ p.stallLimit ∧ p.stallLimit ≤ 255 := by
  have hquota : 1 ≤ (parseProfile h).defaultQuota := le_clampTo hblocks
  exact ⟨Nat.min_le_left .., Nat.min_le_left .., le_clampTo (by omega), clampTo_le .., Nat.min_le_left ..,
    Nat.min_le_left .., Nat.le_max_left .., max_le (by omega) (Nat.min_le_left ..), Nat.le_max_left ..,
    max_le (by omega) (Nat.min_le_left ..), Nat.min_le_left .., Nat.min_le_left .., Nat.min_le_left ..,
    Nat.min_le_left .., Nat.min_le_left .., hquota, clampTo_le .., Nat.min_le_left .., le_clampTo (by omega),
    clampTo_le .., Nat.min_le_left .., Nat.le_max_left .., max_le (by omega) (Nat.min_le_left ..)⟩

/-- Settles O29. -/
theorem validatedProfileKeepsTheChecks : Obligations.ValidatedProfileKeepsTheChecks := by
  intro block h p l hv
  obtain ⟨hp, hl, hranges, haligned, hspace, hapart⟩ := validate_passes hv
  obtain ⟨hserved, hwheel, hprio, hround⟩ := parseLists_spec hl
  unfold rangesOk at hranges
  simp only [Bool.and_eq_true, decide_eq_true_eq] at hranges
  obtain ⟨⟨⟨⟨hfloors, hblocks⟩, hrecords⟩, hday⟩, hnight⟩ := hranges
  unfold aligned at haligned
  simp only [Bool.and_eq_true, decide_eq_true_eq, List.all_cons, List.all_nil, Bool.and_true] at haligned
  obtain ⟨hap, hroom, htrunk, htariff, horder, hnotice, hmessage, hpool, hstack, hstore⟩ := haligned
  have hregion : ∀ r ∈ regionsOf block p, r.2.1 + r.2.2 ≤ 2 ^ 34 := fun r hr => by
    have := List.all_eq_true.mp hspace r hr
    simp only [Bool.and_eq_true, decide_eq_true_eq] at this
    exact this.2
  have hclamped := parseProfile_ranges h (by rw [← hp]; omega)
  rw [← hp] at hclamped
  exact ⟨by omega, hblocks, hrecords, hday, hnight, hap, hroom, htrunk, htariff, horder, hnotice, hmessage, hpool, hstack,
    hstore, hregion, allApart_pairwise hapart, hserved, hwheel, hprio, hround, hclamped⟩

/-! ### The end of validation (R186 to R188) -/

/-- The entries of the FIFO and the load reads that wait for it, in order (R188). -/
def State.loadOrder (s : State) : List FifoEntry := s.host.fifo ++ s.host.loads.map .load

theorem fillFifo_loadOrder {n : Nat} {s : State} (h : s.host.waiting = []) :
    (fillFifo n s).loadOrder = s.loadOrder ∧ (fillFifo n s).host.waiting = [] ∧
    (fillFifo n s).host.head = s.host.head ∧ (fillFifo n s).control = s.control := by
  induction n generalizing s with
  | zero => exact ⟨rfl, h, rfl, rfl⟩
  | succ n ih =>
    unfold fillFifo
    split
    next hc =>
      obtain ⟨t, rest, hl⟩ : ∃ t rest, s.host.loads = t :: rest :=
        List.exists_cons_of_ne_nil (hc.2.resolve_left fun hw => hw h)
      have hjoin : joinFifo s = { s with host.fifo := s.host.fifo ++ [.load t], host.loads := rest } := by
        unfold joinFifo
        rw [h]
        dsimp only
        rw [hl]
      rw [hjoin]
      obtain ⟨h1, h2, h3, h4⟩ := ih (s := { s with host.fifo := s.host.fifo ++ [.load t], host.loads := rest }) h
      refine ⟨h1.trans ?_, h2, h3, h4⟩
      unfold State.loadOrder
      rw [hl]
      simp
    next => exact ⟨rfl, h, rfl, rfl⟩

/-- A FIFO of load reads: the first is started, and the order of the rest is kept (R150, R188). -/
theorem settleFifo_loadOrder {n : Nat} {s : State} (hw : s.host.waiting = [])
    (hall : ∀ e ∈ s.loadOrder, e.isLoad = true) :
    (settleFifo (n + 1) s).loadOrder = s.loadOrder := by
  obtain ⟨hf, hwait, -, -⟩ := fillFifo_loadOrder (n := Config.fifoDepth) hw
  unfold settleFifo
  dsimp only
  generalize fillFifo Config.fifoDepth s = u at *
  have hstart : (startHead u).loadOrder = u.loadOrder ∧
      ((startHead u).host.head.isSome || (startHead u).host.fifo.isEmpty || (startHead u).control.validating.isSome) = true := by
    unfold startHead
    split
    next hc =>
      refine ⟨rfl, ?_⟩
      obtain h | h := Bool.or_eq_true_iff.mp hc
      · rw [h]; rfl
      · rw [h, Bool.or_true]
    next =>
      split
      next he => exact ⟨rfl, by rw [he]; simp⟩
      next req rest he =>
        have hmem : FifoEntry.host req ∈ s.loadOrder := by
          rw [← hf]
          unfold State.loadOrder
          rw [he]
          simp
        exact absurd (hall _ hmem) (by simp [FifoEntry.isLoad])
      next => exact ⟨rfl, rfl⟩
  rw [if_pos hstart.2, hstart.1, hf]

theorem commit_loadOrder (s : State) : (commit s).loadOrder = s.loadOrder := by
  unfold State.loadOrder
  rw [commit_host]

theorem EndsAs.wheelPos {u t : State} (h : EndsAs u t) : t.arbiter.wheelPos = u.arbiter.wheelPos :=
  (congrArg Arbiter.wheelPos h.arbiter : ({ t.arbiter with lines := {} } : Arbiter).wheelPos = _)

theorem EndsAs.roundPos {u t : State} (h : EndsAs u t) : t.arbiter.roundPos = u.arbiter.roundPos :=
  (congrArg Arbiter.roundPos h.arbiter : ({ t.arbiter with lines := {} } : Arbiter).roundPos = _)

/-- STARTING is entered (R170, R187, R188). -/
theorem enterStarting_fields (kind : StartKind) (p : Profile) (l : Lists) (s : State) :
    let v := enterStarting kind p l s
    v.control.state = .starting ∧ v.control.result = .started ∧ v.control.work.kind = kind ∧ v.profile = p ∧
    v.arbiter.lists = l ∧ v.arbiter.wheelPos = 0 ∧ v.arbiter.roundPos = l.roundRobin.length - 1 ∧
    v.host = { s.host with loads := loadTargets p } ∧ v.mem = s.mem ∧ v.time = s.time :=
  ⟨rfl, rfl, rfl, rfl, rfl, rfl, rfl, rfl, rfl, rfl⟩

/-- Settles O28. -/
theorem validationRefusesOrStarts : Obligations.ValidationRefusesOrStarts := by
  intro s kind ho hval hlen
  have hdone : s.validationDone = true := by
    unfold State.validationDone
    rw [hval, hlen]
    rfl
  have hx (u : State) (hu : endValidation kind s = u) : exec .profileValidation s = .next (finish u) := by
    have hon : (if s.validationDone then s.control.validating else none) = some kind := by rw [if_pos hdone, hval]
    show execProfileValidation s = _
    unfold execProfileValidation
    rw [stepOn_of _ s hon]
    unfold taken
    rw [beginStep_eq ho, hu]
  refine ⟨fun code hcode => ?_, fun p l hpl => ?_⟩
  · have hu : endValidation kind s = recordResult code { s with
        control.validating := none
        arbiter.returned := s.arbiter.returned.filter fun r => !r.source.isValidation } := by
      unfold endValidation
      dsimp only
      rw [profileBlock_eq, hcode]
    have he := finish_endsAs (endValidation kind s)
    rw [hu] at he
    obtain ⟨r, hr, hsource, haddr, hlanes⟩ : ∃ r, Raised r (recordResult code { s with
        control.validating := none
        arbiter.returned := s.arbiter.returned.filter fun r => !r.source.isValidation }) ∧ r.source = .activation ∧
        r.addr = s.profileBlock + 2048 ∧
        r.lanes = allLanes (le 1 s.control.state.code ++ le 1 code.code ++ zeros 2 ++ le 4 s.control.lastValue) :=
      ⟨_, raised_raise _ _, rfl, rfl, rfl⟩
    refine ⟨_, hx _ hu, ?_, ?_, ?_, ?_, r, ?_, hsource, by rw [haddr, profileBlock_eq], hlanes⟩
    · rw [he.control]; rfl
    · rw [he.profile]; rfl
    · rw [he.lists]; rfl
    · rw [he.mem]; rfl
    · exact lineGrew_of_ends he rfl fun r' hr' => by
        rw [List.mem_singleton.mp hr']
        exact ⟨hr, by rw [hsource]; rfl⟩
  · have hu : endValidation kind s = enterStarting kind p l { s with
        control.validating := none
        arbiter.returned := s.arbiter.returned.filter fun r => !r.source.isValidation } := by
      unfold endValidation
      dsimp only
      rw [profileBlock_eq, hpl]
    obtain ⟨hstate, hresult, hkind, hprofile, hlists, hwheel, hround, hhost, hmem, htime⟩ := enterStarting_fields kind p l { s with
        control.validating := none
        arbiter.returned := s.arbiter.returned.filter fun r => !r.source.isValidation }
    replace hx := hx _ hu
    generalize enterStarting kind p l _ = v at *
    have he := finish_endsAs v
    refine ⟨_, hx, ?_, ?_, ?_, ?_, ?_, ?_, ?_, fun hhead hfifo hwait => ?_, ?_, ?_⟩
    · rw [he.control, hstate]
    · rw [he.control, hresult]
    · rw [he.control, hkind]
    · rw [he.profile, hprofile]
    · rw [he.lists, hlists]
    · exact he.wheelPos.trans hwheel
    · exact he.roundPos.trans hround
    · have hvorder : v.loadOrder = (loadTargets p).map .load := by
        unfold State.loadOrder
        rw [hhost]
        show s.host.fifo ++ _ = _
        rw [hfifo]
        rfl
      show (finish v).loadOrder = _
      unfold finish
      dsimp only
      rw [resumeStall_of_empty v (by rw [hhost]; exact hhead), commit_loadOrder,
        settleFifo_loadOrder (by rw [hhost]; exact hwait), hvorder]
      · rfl
      · intro e he
        rw [hvorder] at he
        obtain ⟨t, -, rfl⟩ := List.mem_map.mp he
        rfl
    · rw [he.mem, hmem]
    · rw [he.time, htime]

end Sys2Proof.Machine
end

section
/-! PROOFS. The end of STARTING, the tenth of a second, the link's return window, the arbiter's decision, the mirrors and
the acknowledge (chapter 9, 11.1, 11.4). -/

namespace Sys2Proof.Machine

/-! ### Settling the rooms and trunks at the end of STARTING (R86, R133) -/

/-- A sweep over `n` rooms or trunks: what the step of each establishes for it from what held of it before, the later
steps keep. -/
theorem foldl_range_each {f : State → Nat → State} {before after : Nat → State → Prop}
    (hset : ∀ t k, before k t → after k (f t k)) (hafter : ∀ t k j, j ≠ k → after j t → after j (f t k))
    (hbefore : ∀ t k j, j ≠ k → before j t → before j (f t k)) (n : Nat) (s : State) (h : ∀ k, before k s) :
    (∀ k < n, after k ((List.range n).foldl f s)) ∧ ∀ k, n ≤ k → before k ((List.range n).foldl f s) := by
  induction n with
  | zero => exact ⟨fun k hk => absurd hk (Nat.not_lt_zero k), fun k _ => h k⟩
  | succ n ih =>
    obtain ⟨ha, hb⟩ := ih
    rw [List.range_succ, List.foldl_append, List.foldl_cons, List.foldl_nil]
    refine ⟨fun k hk => ?_, fun k hk => hbefore _ n k (by omega) (hb k (by omega))⟩
    by_cases hkn : k = n
    · rw [hkn]; exact hset _ n (hb n le_rfl)
    · exact hafter _ n k hkn (ha k (by omega))

theorem barred_eq (s : State) (r : Nat) (o : Option Folio) :
    barredBy o (s.creditLimit r) =
      o.any fun f => decide (0 < s.creditLimit r) && decide ((s.creditLimit r : Int) ≤ f.total) := barredBy_eq ..

theorem settleBarred_folios (r q : Nat) (s : State) :
    (settleBarred r s).folios q =
      if q = r then { s.folios r with barred := barredBy (s.folios r).opened (s.creditLimit r) } else s.folios q :=
  State.setFolios_folios ..

/-- The folios of a room that the end of STARTING leaves (R86), from those it finds. -/
structure FoliosSettled (s : State) (r : Nat) (t : State) : Prop where
  opened : (t.folios r).opened.isSome = s.occupied r
  barred : (t.folios r).barred = barredBy (t.folios r).opened (s.creditLimit r)
  kept   : s.occupied r = true → (s.folios r).opened.isSome = true → (t.folios r).opened = (s.folios r).opened

theorem occupied_of_base {s t : State} (h : t.base = s.base) (r : Nat) : t.occupied r = s.occupied r := by
  unfold State.occupied State.roomShadow; rw [host_of_base h]

theorem creditLimit_of_base {s t : State} (h : t.base = s.base) (r : Nat) : t.creditLimit r = s.creditLimit r := by
  unfold State.creditLimit State.roomShadow; rw [host_of_base h]

theorem openFolio_folios (r q : Nat) (s : State) :
    (openFolio r s).folios q =
      if q = r then { s.folios r with opened := some { serial := s.openingSerial r } } else s.folios q := by
  rw [openFolio_eq]
  exact State.setFolios_folios s r { s.folios r with opened := some { serial := s.openingSerial r } } q

/-- The OPEN place of a room follows its status (R86). -/
def placeFolio (r : Nat) (s : State) : State :=
  if s.occupied r then (if (s.folios r).opened.isSome then s else openFolio r s)
  else if (s.folios r).opened.isSome then closeFolio r s
  else s

theorem settleFolios_eq (r : Nat) (s : State) : settleFolios r s = settleBarred r (placeFolio r s) := rfl

theorem placeFolio_others {r q : Nat} (h : q ≠ r) (s : State) : (placeFolio r s).folios q = s.folios q := by
  unfold placeFolio
  split
  · split
    · rfl
    · rw [openFolio_folios, if_neg h]
  · split
    next hopen =>
      obtain ⟨f, hf⟩ := Option.isSome_iff_exists.mp hopen
      exact (closeFolio_books hf).1.2 q h
    · rfl

theorem placeFolio_opened (r : Nat) (s : State) :
    ((placeFolio r s).folios r).opened.isSome = s.occupied r ∧
    (s.occupied r = true → (s.folios r).opened.isSome = true →
      ((placeFolio r s).folios r).opened = (s.folios r).opened) := by
  unfold placeFolio
  split
  next hocc =>
    split
    next hopen => exact ⟨by rw [hocc, hopen], fun _ _ => rfl⟩
    next hopen => exact ⟨by rw [openFolio_folios, if_pos rfl, hocc]; rfl, fun _ h => absurd h hopen⟩
  next hocc =>
    refine ⟨?_, fun h => absurd h hocc⟩
    split
    next hopen =>
      obtain ⟨f, hf⟩ := Option.isSome_iff_exists.mp hopen
      rw [(closeFolio_books hf).1.1, Bool.eq_false_iff.mpr hocc]
      rfl
    next hopen => rw [Bool.eq_false_iff.mpr hocc, Bool.eq_false_iff.mpr hopen]

theorem placeFolio_base (r : Nat) (s : State) : (placeFolio r s).base = s.base := by
  unfold placeFolio
  split
  · split
    · rfl
    · exact openFolio_base r s
  · split
    · exact closeFolio_base r s
    · rfl

/-- R86 for one room. -/
theorem settleFolios_settles (r : Nat) (s : State) : FoliosSettled s r (settleFolios r s) := by
  obtain ⟨hopened, hkept⟩ := placeFolio_opened r s
  have hlimit := creditLimit_of_base (placeFolio_base r s) r
  rw [settleFolios_eq]
  generalize placeFolio r s = v at *
  have hf : (settleBarred r v).folios r = { v.folios r with barred := barredBy (v.folios r).opened (v.creditLimit r) } := by
    rw [settleBarred_folios, if_pos rfl]
  refine ⟨?_, ?_, ?_⟩
  · rw [hf]; exact hopened
  · rw [hf, hlimit]
  · rw [hf]; exact hkept

theorem settleFolios_others {r q : Nat} (h : q ≠ r) (s : State) : (settleFolios r s).folios q = s.folios q := by
  rw [settleFolios_eq, settleBarred_folios, if_neg h, placeFolio_others h]

/-- The folios of every room are settled (R86). -/
theorem settleRooms_folios (n : Nat) (s : State) {r : Nat} (hr : r < n) :
    FoliosSettled s r ((List.range n).foldl (fun t r => settleFolios r t) s) := by
  refine (foldl_range_each (f := fun t r => settleFolios r t)
    (before := fun k t => t.folios k = s.folios k ∧ t.base = s.base) (after := fun k t => FoliosSettled s k t)
    (fun t k hk => ?_) (fun t k j hj h => ?_) (fun t k j hj h => ?_) n s fun k => ⟨rfl, rfl⟩).1 r hr
  · obtain ⟨hf, hb⟩ := hk
    obtain ⟨ho, hbar, hkept⟩ := settleFolios_settles k t
    rw [occupied_of_base hb] at ho hkept
    rw [creditLimit_of_base hb] at hbar
    rw [hf] at hkept
    exact ⟨ho, hbar, hkept⟩
  · obtain ⟨ho, hbar, hkept⟩ := h
    have hf : (settleFolios k t).folios j = t.folios j := settleFolios_others hj t
    exact ⟨by rw [hf]; exact ho, by rw [hf]; exact hbar, by rw [hf]; exact hkept⟩
  · exact ⟨(settleFolios_others hj t).trans h.1, (settleFolios_base k t).trans h.2⟩

/-! The trunk contexts follow their shadows (R133). -/

/-- The state of a context at the end of STARTING, from the state byte of its shadow. -/
def State.settledTrunk (s : State) (k : Nat) : TrunkState :=
  if byteAt (s.trunkShadow k).bytes 0 = 1#8 then .seized
  else if byteAt (s.trunkShadow k).bytes 0 = 2#8 then .answered else .idle

theorem settleTrunk_trunk (k j : Nat) (s : State) :
    ((settleTrunk k s).trunk j).state = if j = k then s.settledTrunk k else (s.trunk j).state := by
  unfold settleTrunk State.settledTrunk writtenStateOf
  dsimp only
  generalize byteAt (s.trunkShadow k).bytes 0 = b
  by_cases hj : j = k
  · rw [if_pos hj, hj]
    by_cases h1 : b = 1#8
    · subst h1; simp
    · by_cases h2 : b = 2#8
      · subst h2; simp [captureCall_trunk]
      · by_cases h0 : b = 0#8
        · subst h0; simp [idleTrunk_trunk]
        · by_cases h3 : b = 3#8
          · subst h3; simp [idleTrunk_trunk]
          · simp [h0, h1, h2, h3, idleTrunk_trunk]
  · rw [if_neg hj]
    by_cases h1 : b = 1#8
    · subst h1; simp [hj]
    · by_cases h2 : b = 2#8
      · subst h2; simp [captureCall_trunk, hj]
      · by_cases h0 : b = 0#8
        · subst h0; simp [idleTrunk_trunk, hj]
        · by_cases h3 : b = 3#8
          · subst h3; simp [idleTrunk_trunk, hj]
          · simp [h0, h1, h2, h3, idleTrunk_trunk, hj]

theorem settledTrunk_of_base {s t : State} (h : t.base = s.base) (k : Nat) : t.settledTrunk k = s.settledTrunk k := by
  unfold State.settledTrunk State.trunkShadow; rw [host_of_base h]

theorem settleTrunks_state (n : Nat) (s : State) {k : Nat} (hk : k < n) :
    (((List.range n).foldl (fun t k => settleTrunk k t) s).trunk k).state = s.settledTrunk k := by
  refine (foldl_range_each (f := fun t k => settleTrunk k t) (before := fun _ t => t.base = s.base)
    (after := fun k t => (t.trunk k).state = s.settledTrunk k ∧ t.base = s.base)
    (fun t k h => ?_) (fun t k j hj h => ?_) (fun t k j hj h => ?_) n s fun _ => rfl).1 k hk |>.1
  · exact ⟨by rw [settleTrunk_trunk, if_pos rfl, settledTrunk_of_base h], (settleTrunk_base k t).trans h⟩
  · exact ⟨by rw [settleTrunk_trunk, if_neg hj]; exact h.1, (settleTrunk_base k t).trans h.2⟩
  · exact (settleTrunk_base k t).trans h

theorem settleTrunk_rest (k : Nat) (s : State) :
    ∃ tr, settleTrunk k s = { s with rating.trunks := tr } := by
  unfold settleTrunk
  dsimp only
  split
  · exact ⟨_, rfl⟩
  · exact ⟨_, rfl⟩
  · exact ⟨_, rfl⟩

theorem settleTrunks_rest (n : Nat) (s : State) :
    ∃ tr, (List.range n).foldl (fun t k => settleTrunk k t) s = { s with rating.trunks := tr } := by
  induction n with
  | zero => exact ⟨_, rfl⟩
  | succ n ih =>
    obtain ⟨tr, htr⟩ := ih
    rw [List.range_succ, List.foldl_append, htr]
    obtain ⟨tr', htr'⟩ := settleTrunk_rest n { s with rating.trunks := tr }
    exact ⟨tr', htr'⟩

theorem settleFolios_store (r : Nat) (s : State) : (settleFolios r s).store = s.store := by
  rw [settleFolios_eq]
  show (placeFolio r s).store = s.store
  unfold placeFolio
  split
  · split
    · rfl
    · exact openFolio_store r s
  · split
    · exact closeFolio_store r s
    · rfl

/-- R25 at the end of STARTING: the store-low state, and nothing else of the engines. -/
theorem settleStoreLow_rest (s : State) :
    ∃ o, settleStoreLow s = { s with
      store.storeLow := if s.freeCount < s.profile.storeLowLevel then .raised else .armed, out := o } := by
  unfold settleStoreLow
  split
  · unfold notify
    split
    · exact ⟨_, rfl⟩
    · exact ⟨_, rfl⟩
  · exact ⟨_, rfl⟩

/-- A room is marked and its lamp computed (R86, R90). -/
structure RoomMarked (r : Nat) (t : State) : Prop where
  mail    : r ∈ t.store.marks
  folio   : r ∈ t.rating.marks
  lamp    : r ∈ t.lamp.marks
  pattern : (t.lampOf r).pattern = t.patternOf r

theorem markRoom_patternOf (r q : Nat) (s : State) : (markRoom r s).patternOf q = s.patternOf q := rfl

theorem patternOf_recomputeLamp (r q : Nat) (s : State) : (recomputeLamp r s).patternOf q = s.patternOf q := by
  obtain ⟨hothers, -, -, -, hunlit⟩ := recomputeLamp_spec r s
  refine patternOf_congr hunlit q ?_
  by_cases hq : q = r
  · rw [hq]; exact (recomputeLamp_kept r s).1
  · rw [hothers q hq]

/-- The lamp of a room is computed, and the room marked (R86, R90). -/
theorem markRoom_recomputes (r : Nat) (s : State) : RoomMarked r (markRoom r (recomputeLamp r s)) := by
  have hpattern := recomputeLamp_pattern r s
  have hsame := patternOf_recomputeLamp r r s
  generalize recomputeLamp r s = u at *
  refine ⟨mem_addMark.mpr (.inl rfl), mem_addMark.mpr (.inl rfl), mem_addMark.mpr (.inl rfl), ?_⟩
  rw [markRoom_patternOf, hsame]
  exact hpattern

theorem RoomMarked.of_other {r j : Nat} {s : State} (hj : j ≠ r) (h : RoomMarked j s) :
    RoomMarked j (markRoom r (recomputeLamp r s)) := by
  obtain ⟨hothers, -, hmarks, -, -⟩ := recomputeLamp_spec r s
  have hlamp := hothers j hj
  have hmark := hmarks j h.lamp
  have hsame := patternOf_recomputeLamp r j s
  have hstore := recomputeLamp_store r s
  have hrating := recomputeLamp_rating r s
  generalize recomputeLamp r s = u at *
  refine ⟨mem_addMark.mpr (.inr ?_), mem_addMark.mpr (.inr ?_), mem_addMark.mpr (.inr hmark), ?_⟩
  · show j ∈ u.store.marks
    rw [hstore]; exact h.mail
  · show j ∈ u.rating.marks
    rw [hrating]; exact h.folio
  · rw [markRoom_patternOf, hsame]
    show (u.lampOf j).pattern = _
    rw [hlamp]
    exact h.pattern

/-- What the lamps and marks of the rooms leave as it was. -/
theorem markRoom_recompute_rest (r : Nat) (s : State) :
    let t := markRoom r (recomputeLamp r s)
    (t.rating.folios, t.rating.trunks, t.store.storeLow) = (s.rating.folios, s.rating.trunks, s.store.storeLow) := by
  have hstore := recomputeLamp_store r s
  have hrating := recomputeLamp_rating r s
  generalize recomputeLamp r s = u at *
  show (u.rating.folios, u.rating.trunks, u.store.storeLow) = _
  rw [hstore, hrating]

/-- The lamps and marks of every room (R86). -/
theorem markRooms_marked (n : Nat) (s : State) {r : Nat} (hr : r < n) :
    RoomMarked r ((List.range n).foldl (fun t r => markRoom r (recomputeLamp r t)) s) :=
  (foldl_range_each (f := fun t r => markRoom r (recomputeLamp r t)) (before := fun _ _ => True)
    (after := RoomMarked) (fun t k _ => markRoom_recomputes k t) (fun _ _ _ hj h => h.of_other hj)
    (fun _ _ _ _ _ => trivial) n s fun _ => trivial).1 r hr

theorem markRooms_rest (n : Nat) (s : State) :
    let t := (List.range n).foldl (fun t r => markRoom r (recomputeLamp r t)) s
    (t.rating.folios, t.rating.trunks, t.store.storeLow) = (s.rating.folios, s.rating.trunks, s.store.storeLow) :=
  foldl_keeps (fun t : State => (t.rating.folios, t.rating.trunks, t.store.storeLow))
    (fun t r => markRoom r (recomputeLamp r t)) (fun t r => markRoom_recompute_rest r t) _ s

theorem writeIdleEntries_rest (s : State) : ∃ o, writeIdleEntries s = { s with out := o } := by
  unfold writeIdleEntries
  generalize (List.range 64).filter _ = l
  induction l generalizing s with
  | nil => exact ⟨s.out, rfl⟩
  | cons k l ih => exact ih (writeLinkEntry k s)

/-- What the end of STARTING leaves in the engines: the settled rooms and trunks, ACTIVE (R188). -/
theorem endStarting_rest (s : State) :
    ∃ c o, endStarting s = { s.settled with control := c, out := o } ∧ c.state = .active := by
  rw [endStarting_eq]
  obtain ⟨o, ho⟩ := writeIdleEntries_rest { s.settled with control.state := .active, control.work := {} }
  rw [ho]
  exact ⟨_, _, rfl, rfl⟩

theorem freeCount_congr {s t : State} (hs : t.store = s.store) (hc : t.control = s.control) : t.freeCount = s.freeCount := by
  unfold State.freeCount State.stackCount State.stackTop State.profile
  rw [hs, hc]

/-- The settled state, engine by engine (R86, R25, R133). -/
theorem settled_spec (s : State) :
    (∀ r < s.roomCount, FoliosSettled s r s.settled ∧ RoomMarked r s.settled) ∧
    (∀ k < s.profile.trunks, (s.settled.trunk k).state = s.settledTrunk k) ∧
    s.settled.store.storeLow = if s.freeCount < s.profile.storeLowLevel then .raised else .armed := by
  have hrooms := fun r (hr : r < s.roomCount) => settleRooms_folios s.roomCount s hr
  have hstore : ((List.range s.roomCount).foldl (fun t r => settleFolios r t) s).store = s.store :=
    foldl_keeps State.store _ (fun t r => settleFolios_store r t) _ s
  have hbase : ((List.range s.roomCount).foldl (fun t r => settleFolios r t) s).base = s.base :=
    foldl_keeps State.base _ (fun t r => settleFolios_base r t) _ s
  unfold State.settled
  generalize (List.range s.roomCount).foldl (fun t r => settleFolios r t) s = v at *
  have htrunks := fun k (hk : k < s.profile.trunks) => settleTrunks_state s.profile.trunks v hk
  obtain ⟨tr, htr⟩ := settleTrunks_rest s.profile.trunks v
  rw [htr] at htrunks ⊢
  obtain ⟨o, hlow⟩ := settleStoreLow_rest { v with rating.trunks := tr }
  rw [hlow]
  have hcontrol := control_of_base hbase
  have hfree : State.freeCount { v with rating.trunks := tr } = s.freeCount := freeCount_congr hstore hcontrol
  have hlevel : State.profile { v with rating.trunks := tr } = s.profile := congrArg Control.profile hcontrol
  rw [hfree, hlevel]
  generalize hw : ({ v with rating.trunks := tr, out := o
                            store.storeLow := if s.freeCount < s.profile.storeLowLevel then .raised else .armed } : State) = w
  have hwf : w.rating.folios = v.rating.folios := by rw [← hw]
  have hwt : w.rating.trunks = tr := by rw [← hw]
  have hmarked := fun r (hr : r < s.roomCount) => markRooms_marked s.roomCount w hr
  have hrest := markRooms_rest s.roomCount w
  generalize (List.range s.roomCount).foldl (fun t r => markRoom r (recomputeLamp r t)) w = x at *
  obtain ⟨hf, ht, hl⟩ : x.rating.folios = w.rating.folios ∧ x.rating.trunks = w.rating.trunks ∧
      x.store.storeLow = w.store.storeLow := ⟨congrArg (·.1) hrest, congrArg (·.2.1) hrest, congrArg (·.2.2) hrest⟩
  have hfol (q) : x.folios q = v.folios q := by unfold State.folios; rw [hf, hwf]
  refine ⟨fun r hr => ⟨?_, hmarked r hr⟩, fun k hk => ?_, ?_⟩
  · obtain ⟨h1, h2, h3⟩ := hrooms r hr
    exact ⟨by rw [hfol]; exact h1, by rw [hfol]; exact h2, by rw [hfol]; exact h3⟩
  · rw [← settledTrunk_of_base hbase, ← htrunks k hk]
    unfold State.trunk
    rw [ht, hwt]
  · rw [hl, ← hw]

/-- Settles O33. -/
theorem endOfStartingSettlesTheRooms : Obligations.EndOfStartingSettlesTheRooms := by
  intro s ho hstate hstage
  have hdone : s.workDone = true := by unfold State.workDone; rw [hstate, hstage]; rfl
  have hx : exec .endOfStarting s = .next (finish (endStarting s)) := by
    show stepIf s.workDone endStarting s = _
    rw [stepIf_of _ _ hdone]
    unfold taken
    rw [beginStep_eq ho]
  have he := finish_endsAs (endStarting s)
  have houter := outer_sameOuter (endStarting_outer s)
  obtain ⟨c, o, hrest, hactive⟩ := endStarting_rest s
  obtain ⟨hrooms, htrunks, hlow⟩ := settled_spec s
  generalize finish (endStarting s) = t at *
  generalize endStarting s = u at *
  have hrating : u.rating = s.settled.rating := by rw [hrest]
  refine ⟨t, hx, ?_, fun a => ?_, ?_, fun r hr => ?_, ?_, fun k hk => ?_⟩
  · rw [he.control, hrest]; exact hactive
  · rw [he.mem, houter.1]
  · rw [he.time, houter.2.1]
  · obtain ⟨⟨hopened, hbarred, hkept⟩, hmail, hfolio, hlamp, hpattern⟩ := hrooms r hr
    have hf : t.folios r = s.settled.folios r := by rw [he.folios]; unfold State.folios; rw [hrating]
    rw [hf]
    refine ⟨hopened, hbarred.trans (barred_eq ..), hkept, ?_, ?_, ?_, ?_⟩
    · rw [he.store, hrest]; exact hmail
    · rw [he.rating, hrest]; exact hfolio
    · rw [he.lamp, hrest]; exact hlamp
    · rw [he.lampOf, he.patternOf, hrest]
      exact hpattern
  · rw [he.store, hrest]
    show s.settled.store.storeLow = _ ↔ _
    rw [hlow]
    split
    next h => exact ⟨fun _ => h, fun _ => rfl⟩
    next h => exact ⟨nofun, fun h' => absurd h' h⟩
  · rw [he.trunk, hrest]
    exact htrunks k hk

/-! ### The return window (R96, R98) -/

/-- Settles O35. -/
theorem returnWindowCollectsBytes : Obligations.ReturnWindowCollectsBytes := by
  intro s bytes ho
  have hwindow (w : Sweep) (h : s.lamp.sweep = some w) (b : Bool) :
      s.window b = if w.isOpen = b then some w else none := by
    unfold State.window
    rw [h, Option.filter_some]
    simp
  have hclosed (h : s.window true = none) : exec (.returnFrame bytes) s = .next s := by
    show stepOn (s.window true) (receive bytes) s = _
    rw [h]
    rfl
  refine ⟨fun w h hw => ⟨?_, hclosed (by rw [hwindow w h, hw]; rfl)⟩, fun w h hw => ?_, fun h => hclosed ?_⟩
  · exact ⟨_, stepOn_of openWindow s (by rw [hwindow w h, if_pos hw]), taken_endsAs' ho rfl⟩
  · exact ⟨_, stepOn_of (receive bytes) s (by rw [hwindow w h, if_pos hw]), taken_endsAs' ho rfl⟩
  · unfold State.window
    rw [h]
    rfl

/-! ### The acknowledge (R165) -/

/-- Settles O41. -/
theorem acknowledgeReturnsTheData : Obligations.AcknowledgeReturnsTheData := by
  intro s c ho hport u
  have hcompletes (v : State) (hv : acknowledged c u = v) : Completes .memoryAcknowledge s v :=
    ⟨_, stepOn_of (fun c t => acknowledged c (freePort t)) s hport,
      taken_endsAs' (f := fun t => acknowledged c (freePort t)) ho hv⟩
  refine ⟨fun h => hcompletes _ ?_, fun h => hcompletes _ ?_, fun ch second k h hk => hcompletes _ ?_,
    fun hw h => hcompletes _ ?_, fun hw h => hcompletes _ ?_⟩
  · unfold acknowledged; rw [h]
  · unfold acknowledged; rw [h]
  · unfold acknowledged; rw [h]
    dsimp only
    rw [if_pos hk]
    rfl
  · have hread : acknowledged c u = returnBurst c u := by
      unfold acknowledged
      obtain h | h | h | h | h | h | ⟨ch, h⟩ | ⟨ch, b, h⟩ := h
      case inr.inr.inr.inr.inr.inr.inr => rw [h]; rfl
      all_goals
        rw [h]
        dsimp only
        rw [hw]
        rfl
    rw [hread]
    rfl
  · unfold acknowledged
    obtain h | h | h | ⟨k, h⟩ | ⟨i, h⟩ := h <;> rw [h] <;> dsimp only <;> rw [hw] <;> rfl

/-! ### The decision (R167 to R169) -/

theorem matched_iff (s : State) (e : ListEntry) (r : Request) : s.matched e = some r ↔
    (s.arbiter.lines.get e.who).head? = some r ∧
    (e.dir = .either ∨ (e.dir = .read ∧ r.write = false) ∨ (e.dir = .write ∧ r.write = true)) := by
  unfold State.matched State.offer
  cases (s.arbiter.lines.get e.who).head? with
  | none => simp
  | some q =>
    have hadmits : e.dir.admits q = true ↔
        (e.dir = .either ∨ (e.dir = .read ∧ q.write = false) ∨ (e.dir = .write ∧ q.write = true)) := by
      cases e.dir <;> simp [BusDir.admits]
    dsimp only
    constructor
    · intro h
      split at h
      next ha =>
        obtain rfl := Option.some.inj h
        exact ⟨rfl, hadmits.mp ha⟩
      next => cases h
    · rintro ⟨hq, ha⟩
      obtain rfl := Option.some.inj hq
      rw [if_pos (hadmits.mpr ha)]

/-- An entry that is matched offers a request (R167). -/
theorem offers_of_matched {s : State} {e : ListEntry} (h : (s.matched e).isSome = true) :
    ∃ r, (s.arbiter.lines.get e.who).head? = some r := by
  obtain ⟨r, hr⟩ := Option.isSome_iff_exists.mp h
  exact ⟨r, ((matched_iff s e r).mp hr).1⟩

theorem unmatched_iff {s : State} {e : ListEntry} : s.matched e = none ↔ ¬ (s.matched e).isSome = true := by
  cases s.matched e <;> simp

/-- Step 1 (R167). -/
theorem wheelGrant_iff (s : State) (d : Decision) : s.wheelGrant = some d ↔
    ∃ e, s.arbiter.lists.wheel[s.arbiter.wheelPos]? = some e ∧ (s.matched e).isSome = true ∧ d = { step := 1, who := e.who } := by
  unfold State.wheelGrant State.wheelEntry
  cases s.arbiter.lists.wheel[s.arbiter.wheelPos]? with
  | none => simp
  | some e =>
    dsimp only
    constructor
    · intro h
      split at h
      next hm => exact ⟨e, rfl, hm, (Option.some.inj h).symm⟩
      next => cases h
    · rintro ⟨e', he, hm, rfl⟩
      obtain rfl := Option.some.inj he
      rw [if_pos hm]

theorem wheelGrant_none {s : State} (h : s.wheelGrant = none) {e : ListEntry}
    (he : s.arbiter.lists.wheel[s.arbiter.wheelPos]? = some e) : s.matched e = none := by
  rw [unmatched_iff]
  intro hm
  have := (wheelGrant_iff s { step := 1, who := e.who }).mpr ⟨e, he, hm, rfl⟩
  rw [h] at this
  cases this

/-- Step 2 (R167). -/
theorem priorityGrant_spec {s : State} {d : Decision} (h : s.priorityGrant = some d) :
    d.step = 2 ∧ ∃ (j : Nat) (e : ListEntry), s.arbiter.lists.priority[j]? = some e ∧ e.who = d.who ∧
      (s.matched e).isSome = true ∧ ∀ k < j, ∀ e', s.arbiter.lists.priority[k]? = some e' → s.matched e' = none := by
  unfold State.priorityGrant at h
  obtain ⟨e, he, rfl⟩ := Option.map_eq_some_iff.mp h
  obtain ⟨hm, as, bs, hl, hbefore⟩ := List.find?_eq_some_iff_append.mp he
  refine ⟨rfl, as.length, e, by rw [hl]; simp, rfl, hm, fun k hk e' he' => ?_⟩
  rw [hl, List.getElem?_append_left hk] at he'
  have := hbefore e' (List.mem_of_getElem? he')
  rw [unmatched_iff]
  simpa using this

theorem priorityGrant_none {s : State} (h : s.priorityGrant = none) (e : ListEntry) (he : e ∈ s.arbiter.lists.priority) :
    s.matched e = none := by
  unfold State.priorityGrant at h
  rw [Option.map_eq_none_iff, List.find?_eq_none] at h
  rw [unmatched_iff]
  exact h e he

end Sys2Proof.Machine
end

section
/-! PROOFS. Every decision follows the steps of R167 and advances the positions of R168 and R169 (chapter 9). -/

namespace Sys2Proof.Machine

/-! ### Step 3, and the decision as a whole (R167, R168) -/

/-- What step 3 answers at one index (R167). -/
def State.roundAt (s : State) (k : Nat) : Option Decision :=
  match s.arbiter.lists.roundRobin[k]? with
  | some e => if (s.matched e).isSome then some { step := 3, who := e.who, round := k } else none
  | none => none

theorem roundGrant_eq (s : State) : s.roundGrant =
    (roundOrder s.arbiter.lists.roundRobin.length s.arbiter.roundPos).findSome? s.roundAt := rfl

theorem roundAt_iff (s : State) (k : Nat) (d : Decision) : s.roundAt k = some d ↔
    ∃ e, s.arbiter.lists.roundRobin[k]? = some e ∧ (s.matched e).isSome = true ∧
      d = { step := 3, who := e.who, round := k } := by
  unfold State.roundAt
  cases s.arbiter.lists.roundRobin[k]? with
  | none => simp
  | some e =>
    dsimp only
    constructor
    · intro h
      split at h
      next hm => exact ⟨e, rfl, hm, (Option.some.inj h).symm⟩
      next => cases h
    · rintro ⟨e', he, hm, rfl⟩
      obtain rfl := Option.some.inj he
      rw [if_pos hm]

theorem roundAt_none {s : State} {k : Nat} (h : s.roundAt k = none) {e : ListEntry}
    (he : s.arbiter.lists.roundRobin[k]? = some e) : s.matched e = none := by
  rw [unmatched_iff]
  intro hm
  have := (roundAt_iff s k { step := 3, who := e.who, round := k }).mpr ⟨e, he, hm, rfl⟩
  rw [h] at this
  cases this

/-- The indexes before a split of the order are those reached first (R168). -/
theorem roundOrder_split {n pos a : Nat} {as bs : List Nat} (h : roundOrder n pos = as ++ a :: bs) :
    as.length < n ∧ a = (pos + 1 + as.length) % n ∧ ∀ k < as.length, (pos + 1 + k) % n ∈ as := by
  have hlen : (roundOrder n pos).length = n := by unfold roundOrder; simp
  have hat (k : Nat) (hk : k < n) : (roundOrder n pos)[k]? = some ((pos + 1 + k) % n) := by
    unfold roundOrder
    simp [hk]
  have hlt : as.length < n := by
    rw [h] at hlen
    simp at hlen
    omega
  refine ⟨hlt, ?_, fun k hk => ?_⟩
  · have := hat as.length hlt
    rw [h] at this
    simpa using this
  · have := hat k (by omega)
    rw [h, List.getElem?_append_left hk] at this
    exact List.mem_of_getElem? this

/-- Step 3 (R167, R168). -/
theorem roundGrant_spec {s : State} {d : Decision} (h : s.roundGrant = some d) :
    d.step = 3 ∧ ∃ (j : Nat) (e : ListEntry), j < s.arbiter.lists.roundRobin.length ∧
      d.round = (s.arbiter.roundPos + 1 + j) % s.arbiter.lists.roundRobin.length ∧
      s.arbiter.lists.roundRobin[d.round]? = some e ∧ e.who = d.who ∧ (s.matched e).isSome = true ∧
      ∀ k < j, ∀ e', s.arbiter.lists.roundRobin[(s.arbiter.roundPos + 1 + k) % s.arbiter.lists.roundRobin.length]? =
        some e' → s.matched e' = none := by
  rw [roundGrant_eq, List.findSome?_eq_some_iff] at h
  obtain ⟨as, a, bs, hsplit, hd, hbefore⟩ := h
  obtain ⟨hlt, ha, hfirst⟩ := roundOrder_split hsplit
  obtain ⟨e, he, hm, rfl⟩ := (roundAt_iff s a d).mp hd
  exact ⟨rfl, as.length, e, hlt, ha, he, rfl, hm, fun k hk e' he' => roundAt_none (hbefore _ (hfirst k hk)) he'⟩

theorem decision_cases {s : State} {d : Decision} (h : s.decision = some d) :
    s.arbiter.port = none ∧ (s.wheelGrant = some d ∨ s.wheelGrant = none ∧ s.priorityGrant = some d ∨
      s.wheelGrant = none ∧ s.priorityGrant = none ∧ s.roundGrant = some d) := by
  unfold State.decision at h
  split at h
  next => cases h
  next hp =>
    refine ⟨by simpa using hp, ?_⟩
    cases hw : s.wheelGrant with
    | some d' => rw [hw] at h; exact .inl h
    | none =>
      rw [hw] at h
      cases hq : s.priorityGrant with
      | some d' => rw [hq] at h; exact .inr (.inl ⟨rfl, h⟩)
      | none => rw [hq] at h; exact .inr (.inr ⟨rfl, rfl, h⟩)

/-- A decision follows the three steps in turn (R167, R168). -/
theorem decision_spec {s : State} {d : Decision} (h : s.decision = some d) :
    s.arbiter.port = none ∧ (∃ r, (s.arbiter.lines.get d.who).head? = some r ∧ s.granted = some r) ∧
    (d.step = 1 ∨ d.step = 2 ∨ d.step = 3) ∧
    (d.step = 1 → ∃ e, s.arbiter.lists.wheel[s.arbiter.wheelPos]? = some e ∧ e.who = d.who ∧ (s.matched e).isSome = true) ∧
    (d.step ≠ 1 → ∀ e, s.arbiter.lists.wheel[s.arbiter.wheelPos]? = some e → s.matched e = none) ∧
    (d.step = 2 → ∃ (j : Nat) (e : ListEntry), s.arbiter.lists.priority[j]? = some e ∧ e.who = d.who ∧ (s.matched e).isSome = true ∧
      ∀ k < j, ∀ e', s.arbiter.lists.priority[k]? = some e' → s.matched e' = none) ∧
    (d.step = 3 → (∀ e ∈ s.arbiter.lists.priority, s.matched e = none) ∧
      ∃ (j : Nat) (e : ListEntry), j < s.arbiter.lists.roundRobin.length ∧
        d.round = (s.arbiter.roundPos + 1 + j) % s.arbiter.lists.roundRobin.length ∧
        s.arbiter.lists.roundRobin[d.round]? = some e ∧ e.who = d.who ∧ (s.matched e).isSome = true ∧
        ∀ k < j, ∀ e', s.arbiter.lists.roundRobin[(s.arbiter.roundPos + 1 + k) % s.arbiter.lists.roundRobin.length]? =
          some e' → s.matched e' = none) := by
  obtain ⟨hport, hcases⟩ := decision_cases h
  have hgrant {e : ListEntry} (he : e.who = d.who) (hm : (s.matched e).isSome = true) :
      ∃ r, (s.arbiter.lines.get d.who).head? = some r ∧ s.granted = some r := by
    obtain ⟨r, hr⟩ := offers_of_matched hm
    rw [he] at hr
    exact ⟨r, hr, by unfold State.granted State.offer; rw [h]; exact hr⟩
  obtain hw | ⟨hw, hp⟩ | ⟨hw, hp, hr⟩ := hcases
  · obtain ⟨e, he, hm, rfl⟩ := (wheelGrant_iff s d).mp hw
    exact ⟨hport, hgrant rfl hm, .inl rfl, fun _ => ⟨e, he, rfl, hm⟩, fun h1 => absurd rfl h1, nofun, nofun⟩
  · obtain ⟨hstep, hspec⟩ := priorityGrant_spec hp
    obtain ⟨j, e, he, hwho, hm, hbefore⟩ := id hspec
    exact ⟨hport, hgrant hwho hm, .inr (.inl hstep), fun h1 => by omega, fun _ e' he' => wheelGrant_none hw he',
      fun _ => hspec, fun h3 => by omega⟩
  · obtain ⟨hstep, hspec⟩ := roundGrant_spec hr
    obtain ⟨j, e, hj, hround, he, hwho, hm, hbefore⟩ := id hspec
    exact ⟨hport, hgrant hwho hm, .inr (.inr hstep), fun h1 => by omega, fun _ e' he' => wheelGrant_none hw he',
      fun h2 => by omega, fun _ => ⟨priorityGrant_none hp, hspec⟩⟩

/-- Every index of the round robin is reached (R168). -/
theorem mem_roundOrder {n pos i : Nat} (h : i < n) : i ∈ roundOrder n pos := by
  unfold roundOrder
  rw [List.mem_map]
  refine ⟨(i + n - (pos + 1) % n) % n, List.mem_range.mpr (Nat.mod_lt _ (by omega)), ?_⟩
  have hlt : (pos + 1) % n < n := Nat.mod_lt _ (by omega)
  rw [Nat.add_mod_mod, ← Nat.mod_add_mod, show (pos + 1) % n + (i + n - (pos + 1) % n) = i + n by omega,
    Nat.add_mod_right, Nat.mod_eq_of_lt h]

/-- With the port free, a request offered, and every requester served, a decision grants (R165 to R167). -/
theorem decision_made {s : State} {w : Requester} (hp : s.arbiter.port = none) (hw : s.arbiter.lines.get w ≠ [])
    (hserves : ∀ v : Requester, ⟨v, .either⟩ ∈ s.arbiter.lists.priority ++ s.arbiter.lists.roundRobin) :
    ∃ d r, s.decision = some d ∧ s.granted = some r := by
  obtain ⟨r, hr⟩ : ∃ r, (s.arbiter.lines.get w).head? = some r := by
    cases h : s.arbiter.lines.get w with
    | nil => exact absurd h hw
    | cons r l => exact ⟨r, rfl⟩
  have hm : s.matched ⟨w, .either⟩ ≠ none := by
    rw [(matched_iff s ⟨w, .either⟩ r).mpr ⟨hr, .inl rfl⟩]
    exact Option.some_ne_none r
  have hsome : s.decision ≠ none := by
    unfold State.decision
    rw [if_neg (by simp [hp])]
    intro h
    obtain ⟨h12, h3⟩ := Option.or_eq_none_iff.mp h
    obtain ⟨-, h2⟩ := Option.or_eq_none_iff.mp h12
    obtain hin | hin := List.mem_append.mp (hserves w)
    · exact hm (priorityGrant_none h2 _ hin)
    · obtain ⟨i, hi, he⟩ := List.mem_iff_getElem.mp hin
      rw [roundGrant_eq, List.findSome?_eq_none_iff] at h3
      exact hm (roundAt_none (h3 i (mem_roundOrder hi)) (by rw [List.getElem?_eq_getElem hi, he]))
  obtain ⟨d, hd⟩ := Option.ne_none_iff_exists'.mp hsome
  obtain ⟨-, ⟨q, -, hq⟩, -⟩ := decision_spec hd
  exact ⟨d, q, hd, hq⟩

/-! ### What a grant does to the lists and positions (R168 to R170) -/

/-- Only a STOP write changes the part state, the lists or the positions (R157, R170). -/
theorem observed_fixed {o : Observation} {s : State} (h : o ≠ .activation 3) : (observed o s).fixed = s.fixed := by
  cases o with
  | activation v =>
    show (activationWritten v s).fixed = s.fixed
    unfold activationWritten
    dsimp only
    split
    · split <;> rfl
    · split
      · split <;> rfl
      · rw [if_neg fun hv => h (congrArg Observation.activation hv)]
  | room r es => exact roomWritten_fixed r es s
  | trunk k es => exact trunkEntryWritten_fixed k es s
  | tariff i es => exact tariffWritten_fixed i es s
  | slot i v => exact fixed_of_base (slotWritten_base i v s)
  | clearOverflow => rfl
  | consumer v => exact consumerWritten_fixed v s

/-- In a PASSIVE part STOP is refused, and changes neither state nor lists (R187). -/
theorem observed_fixed_of_passive {s : State} (h : s.control.state = .passive) (o : Observation) :
    (observed o s).fixed = s.fixed := by
  by_cases ho : o = .activation 3
  · rw [ho]
    show (activationWritten 3 s).fixed = s.fixed
    unfold activationWritten
    dsimp only
    rw [if_neg (by decide), if_neg (by decide), if_pos rfl, if_pos (decide_eq_true h)]
    rfl
  · exact observed_fixed ho

theorem state_of_fixed {s t : State} (h : t.fixed = s.fixed) : t.control.state = s.control.state :=
  congrArg (fun f => f.2.1) h

theorem turns_of_fixed {s t : State} (h : t.fixed = s.fixed) : t.turns = s.turns := congrArg (fun f => f.2.2.2) h

theorem observations_fixed_of_passive {s : State} (h : s.control.state = .passive) (obs : List Observation) :
    (obs.foldl (fun t o => observed o t) s).fixed = s.fixed := by
  induction obs generalizing s with
  | nil => rfl
  | cons o obs ih =>
    have ho := observed_fixed_of_passive h o
    exact (ih ((state_of_fixed ho).trans h)).trans ho

theorem observations_fixed {obs : List Observation} (h : .activation 3 ∉ obs) (s : State) :
    (obs.foldl (fun t o => observed o t) s).fixed = s.fixed := by
  induction obs generalizing s with
  | nil => rfl
  | cons o obs ih =>
    obtain ⟨ho, hobs⟩ := not_or.mp (fun hc => h (List.mem_cons.mpr hc))
    exact (ih hobs _).trans (observed_fixed fun he => ho he.symm)

/-- STOP, written while STARTING or ACTIVE, puts the lists and positions to the PASSIVE arrangement, and what the same
write carries after it keeps them there (R170). -/
theorem observations_stop {obs : List Observation} {s : State} (h : .activation 3 ∈ obs) (hs : s.control.state ≠ .passive) :
    (obs.foldl (fun t o => observed o t) s).turns = ({}, 0, 4) := by
  induction obs generalizing s with
  | nil => cases h
  | cons o obs ih =>
    by_cases ho : o = .activation 3
    · have hstop : observed o s = stopPart { s with control.lastValue := 3 } := by
        rw [ho]
        show activationWritten 3 s = _
        unfold activationWritten
        dsimp only
        rw [if_neg (by decide), if_neg (by decide), if_pos rfl, if_neg (by simpa using hs)]
      have hpassive : (observed o s).control.state = .passive := by rw [hstop]; rfl
      exact (turns_of_fixed (observations_fixed_of_passive hpassive obs)).trans (by rw [hstop]; rfl)
    · have hin : .activation 3 ∈ obs := by
        obtain h | h := List.mem_cons.mp h
        · exact absurd h.symm ho
        · exact h
      exact ih hin (by rw [state_of_fixed (observed_fixed ho)]; exact hs)

theorem guardWrite_fixed (g : List (Nat × Nat)) (n : Nat) (s : State) : (guardWrite g n s).fixed = s.fixed := by
  unfold guardWrite
  split
  · rfl
  · exact (fixed_of_base (notify_base ..)).trans rfl

/-- The write that leaves carries STOP while the part is STARTING or ACTIVE (R170, R187). -/
def State.stopLeaves (s : State) (req : HostRequest) (mode : PartState) : Prop :=
  s.control.state ≠ .passive ∧ .activation 3 ∈ s.observations mode req

theorem leaveWrite_turns (req : HostRequest) (mode : PartState) (s : State) :
    (¬ s.stopLeaves req mode → (leaveWrite req mode s).turns = s.turns) ∧
    (s.stopLeaves req mode → (leaveWrite req mode s).turns = ({}, 0, 4)) := by
  unfold leaveWrite
  dsimp only
  generalize hobs : s.observations mode req = obs
  generalize hu : guardWrite _ _ _ = u
  have hfix : u.fixed = s.fixed := by rw [← hu]; exact (guardWrite_fixed ..).trans rfl
  refine ⟨fun hn => (turns_of_fixed ?_).trans (turns_of_fixed hfix), fun hy => ?_⟩
  · by_cases hp : u.control.state = .passive
    · exact observations_fixed_of_passive hp obs
    · exact observations_fixed (fun h => hn ⟨by rw [← state_of_fixed hfix]; exact hp, hobs ▸ h⟩) u
  · exact observations_stop (hobs ▸ hy.2) (by rw [state_of_fixed hfix]; exact hy.1)

/-- A grant that no write leaves at keeps the lists and positions (R169). -/
theorem grantEffect_fixed {r : Request} (h : r.source ≠ .hostPart) (s : State) : (grantEffect r s).fixed = s.fixed := by
  unfold grantEffect
  split
  next hs => exact absurd hs h
  · unfold mailMirrorGranted; split <;> rfl
  · unfold folioMirrorGranted; split <;> rfl
  · unfold lampMirrorGranted; split <;> rfl
  · unfold takeGrantedRead; split <;> rfl
  · exact fixed_of_base (freeEntry_base ..)
  · unfold noticeHeaderGranted; split <;> rfl
  · exact (fixed_of_base (raiseFolioWrite_base _)).trans rfl
  · split
    · exact workGranted_fixed s
    · rfl
  · rfl

/-- The STOP write that leaves at the grant of its last burst (R151, R170, R187). -/
def State.stopGranted (s : State) (r : Request) : Prop :=
  r.source = .hostPart ∧ s.control.state ≠ .passive ∧
    ∃ req w, s.leaving = some (req, w) ∧ w.phase = .burst ∧ .activation 3 ∈ s.atLeave.observations w.mode req

/-- The write at the head leaves with the grant of this burst (R151). -/
def State.leavesAt (u : State) (write : Bool) (req : HostRequest) (w : HeadWork) : Prop :=
  w.phase = .burst ∧ write = true ∧ req.write = true ∧ w.parts.tail.all (u.raisesNothing w.mode) = true ∧
    u.checkoutRooms w.mode req = []

/-- A grant for the head request, by whether the write leaves with it (R151, R76). -/
theorem hostPartGranted_cases {u : State} {req : HostRequest} {w : HeadWork} (write : Bool) (hq : u.headRequest = some req)
    (hw : u.host.head = some w) :
    (u.leavesAt write req w → hostPartGranted write u = leaveWrite req w.mode u) ∧
    (¬ u.leavesAt write req w → (hostPartGranted write u).fixed = u.fixed) := by
  unfold hostPartGranted
  rw [hq, hw]
  dsimp only
  constructor
  · rintro ⟨hph, hwr, hreq, hall, hrooms⟩
    rw [hwr, hreq, if_pos (by simp [hph]), if_pos hall]
    exact if_pos hrooms
  · intro hn
    split
    next hout =>
      split
      next hall =>
        unfold leaveOrAsk
        split
        next hrooms =>
          simp only [Bool.and_eq_true, decide_eq_true_eq] at hout
          exact absurd ⟨hout.2, hout.1.1, hout.1.2, hall, hrooms⟩ hn
        next => rfl
      next => exact fixed_of_steady (advanceHead_steady ..)
    next => rfl

theorem leaving_isSome {s : State} {req : HostRequest} {w : HeadWork} (h : s.leaving = some (req, w)) :
    s.headRequest = some req ∧ s.host.head = some w := by
  unfold State.leaving at h
  split at h
  next req' w' hq hw =>
    have : (req', w') = (req, w) := by
      split at h
      · cases h
      · split at h
        · exact Option.some.inj h
        · split at h
          · exact Option.some.inj h
          · cases h
    obtain ⟨rfl, rfl⟩ := Prod.mk.inj this
    exact ⟨hq, hw⟩
  next => cases h

/-- A write whose last burst is granted leaves exactly so (R151). -/
theorem leaving_burst_iff {s u : State} {r : Request} {req : HostRequest} {w : HeadWork} (hr : s.granted = some r)
    (hsrc : r.source = .hostPart) (hat : s.atLeave = u) (hq : s.headRequest = some req) (hw : s.host.head = some w)
    (hph : w.phase = .burst) : s.leaving = some (req, w) ↔ u.leavesAt r.write req w := by
  unfold State.leaving State.leavesAt
  rw [hq, hw, hr, hat]
  simp only [hph, hsrc, reduceCtorEq, false_and, if_false, true_and, Option.any_some, decide_true, Bool.and_true]
  cases req.write <;> simp [and_left_comm]

/-- What the grant for the head request leaves of the lists and positions (R151, R169, R170). -/
theorem hostPartGranted_turns {s u : State} {d : Decision} {r : Request} (hd : s.decision = some d)
    (hr : s.granted = some r) (hsrc : r.source = .hostPart) (hu : carry r (settleGrant d s) = u) :
    (¬ s.stopGranted r → (hostPartGranted r.write u).turns = u.turns) ∧
    (s.stopGranted r → (hostPartGranted r.write u).turns = ({}, 0, 4)) := by
  obtain ⟨m, a, hrest⟩ := carry_rest r d s
  rw [hu] at hrest
  have hhead : u.headRequest = s.headRequest := by rw [hrest]; rfl
  have hwork : u.host.head = s.host.head := by rw [hrest]
  have hstate : u.control.state = s.control.state := by rw [hrest]
  have hat {w : HeadWork} (hw : s.host.head = some w) (hp : w.phase = .burst) : s.atLeave = u := by
    unfold State.atLeave
    rw [hd, hr, hw, if_neg (by simp [hp])]
    exact hu
  constructor
  · intro hn
    cases hq : s.headRequest with
    | none => unfold hostPartGranted; rw [hhead, hq]
    | some req =>
      cases hw : s.host.head with
      | none => unfold hostPartGranted; rw [hhead, hwork, hq, hw]
      | some w =>
        obtain ⟨hleaves, hstays⟩ := hostPartGranted_cases r.write (hhead.trans hq) (hwork.trans hw)
        by_cases hl : u.leavesAt r.write req w
        · rw [hleaves hl]
          have hlv := (leaving_burst_iff hr hsrc (hat hw hl.1) hq hw hl.1).mpr hl
          refine (leaveWrite_turns req w.mode u).1 fun ⟨hs, hin⟩ => hn ⟨hsrc, hstate ▸ hs, req, w, hlv, hl.1, ?_⟩
          rw [hat hw hl.1]
          exact hin
        · exact turns_of_fixed (hstays hl)
  · rintro ⟨-, hs, req, w, hlv, hph, hin⟩
    obtain ⟨hq, hw⟩ := leaving_isSome hlv
    have hl := (leaving_burst_iff hr hsrc (hat hw hph) hq hw hph).mp hlv
    rw [(hostPartGranted_cases r.write (hhead.trans hq) (hwork.trans hw)).1 hl]
    exact (leaveWrite_turns req w.mode u).2 ⟨hstate ▸ hs, (hat hw hph) ▸ hin⟩

/-- What every decision that is made leaves of the lists and positions (R168 to R170). -/
theorem grantEffect_turns {s u : State} {d : Decision} {r : Request} (hd : s.decision = some d) (hr : s.granted = some r)
    (hu : carry r (settleGrant d s) = u) :
    (¬ s.stopGranted r → (grantEffect r u).turns = u.turns) ∧ (s.stopGranted r → (grantEffect r u).turns = ({}, 0, 4)) := by
  by_cases hsrc : r.source = .hostPart
  · have he : grantEffect r u = hostPartGranted r.write u := by unfold grantEffect; rw [hsrc]
    rw [he]
    exact hostPartGranted_turns hd hr hsrc hu
  · exact ⟨fun _ => turns_of_fixed (grantEffect_fixed hsrc u), fun h => absurd h.1 hsrc⟩

theorem carry_turns (r : Request) (d : Decision) (s : State) : (carry r (settleGrant d s)).turns =
    (s.arbiter.lists, (if s.arbiter.lists.wheel = [] then 0 else (s.arbiter.wheelPos + 1) % s.arbiter.lists.wheel.length),
      if d.step = 3 then d.round else s.arbiter.roundPos) := by
  unfold carry
  split <;> rfl

/-- Settles O39. -/
theorem decisionFollowsItsSteps : Obligations.DecisionFollowsItsSteps := by
  refine ⟨matched_iff, fun s d h => decision_spec h, fun s w hp hw hs => decision_made hp hw hs,
    fun s ho => ⟨fun hd => ?_, fun d r hd hr => ?_⟩⟩
  · have ht : s.turn = none := by unfold State.turn; rw [hd]
    show stepOn s.turn _ s = _
    rw [ht]
    rfl
  · obtain ⟨t, hx, he⟩ := decision_completes ho hd hr rfl
    obtain ⟨hkeeps, hstops⟩ := grantEffect_turns hd hr rfl
    have hturns : t.turns = (grantEffect r (carry r (settleGrant d s))).turns := by
      unfold State.turns
      rw [he.lists, he.wheelPos, he.roundPos]
    refine ⟨t, hx, fun hn => ?_, fun hy => ?_⟩
    · have h := (hturns.trans (hkeeps hn)).trans (carry_turns r d s)
      unfold State.turns at h
      obtain ⟨hl, hwr⟩ := Prod.mk.inj h
      obtain ⟨hw, hr⟩ := Prod.mk.inj hwr
      refine ⟨hl, fun he => ?_, fun n hn => ?_, fun h3 => ?_, fun h3 => ?_⟩
      · rw [hw, if_pos he]
      · rw [hw, if_neg (fun h => by rw [h] at hn; simp at hn), hn]
      · rw [hr, if_pos h3]
      · rw [hr, if_neg h3]
    · have h := hturns.trans (hstops hy)
      unfold State.turns at h
      obtain ⟨hl, hwr⟩ := Prod.mk.inj h
      obtain ⟨hw, hr⟩ := Prod.mk.inj hwr
      exact ⟨hl, hw, hr⟩

end Sys2Proof.Machine
end

section
/-! PROOFS. What a grant does for the sources that act at it, the mirror writers (9.1, 4.7), and the tenth-second event
(11.1). -/

namespace Sys2Proof.Machine

/-! ### Grants that act for their source, and the mirror writers (R83, R175, R177, R184) -/

/-- Settles O40. -/
theorem grantsActForTheirSource : Obligations.GrantsActForTheirSource := by
  refine ⟨fun s d r ho hd hr => ?_, fun s r ho hact => ?_⟩
  · intro carried
    obtain ⟨m, a, hrest⟩ := carry_rest r d s
    have hmem (ls : List (Option Byte)) (hw : r.write = true) (hl : (settleGrant d s).grantLanes r = ls) :
        carried.mem = writeLanes s.mem r.addr ls := by
      show (carry r (settleGrant d s)).mem = _
      unfold carry
      rw [if_pos hw, ← hl]
      rfl
    have hc : carried = { s with mem := m, arbiter := a } := hrest
    have hgrant (v : State) (hv : grantEffect r carried = v) : Completes .arbiterDecision s v :=
      decision_completes ho hd hr hv
    clear_value carried
    refine ⟨fun q hs hw hq => ⟨hgrant _ ?_, hmem _ hw ?_⟩, fun q hs hw hq => ⟨hgrant _ ?_, hmem _ hw ?_⟩,
      fun q hs hw hq => ⟨hgrant _ ?_, hmem _ hw ?_⟩, fun slot hs ht => hgrant _ ?_, fun slot hs => hgrant _ ?_,
      fun hs => hgrant _ ?_⟩
    · unfold grantEffect mailMirrorGranted; rw [hs, hc]; dsimp only; rw [hq]; rfl
    · unfold State.grantLanes; rw [hs]; dsimp only; rw [show (settleGrant d s).store = s.store from rfl, hq]; rfl
    · unfold grantEffect folioMirrorGranted; rw [hs, hc]; dsimp only; rw [hq]; rfl
    · unfold State.grantLanes; rw [hs]; dsimp only; rw [show (settleGrant d s).rating = s.rating from rfl, hq]; rfl
    · unfold grantEffect lampMirrorGranted; rw [hs, hc]; dsimp only; rw [hq]; rfl
    · unfold State.grantLanes; rw [hs]; dsimp only; rw [show (settleGrant d s).lamp = s.lamp from rfl, hq]; rfl
    · unfold grantEffect takeGrantedRead; rw [hs, hc]; dsimp only; rw [ht]; rfl
    · unfold grantEffect; rw [hs, hc]; rfl
    · unfold grantEffect; rw [hs, hc]; rfl
  · intro base
    have hraise (e : MirrorEngine) (h : s.mirrorNext e = some r) (v : State) (hv : raiseMirror e r s = v) :
        Completes (.mirrorWriteRaise e) s v :=
      ⟨_, stepOn_of (raiseMirror e) s (by unfold State.active; rw [if_pos (decide_eq_true hact)]; exact h),
        taken_endsAs' ho hv⟩
    have hout (x : Request) : s.out.requests ++ [x] = [x] := by rw [ho]; rfl
    refine ⟨fun h => hraise _ h _ ?_, fun h => hraise _ h _ ?_, fun h => hraise _ h _ ?_⟩ <;>
    · unfold raiseMirror raise
      dsimp only
      rw [hout]
      rfl

/-! ### The status words (R43, R131, R148, R161, R171, R180) -/

/-- The write of a group of status words at an offset of the profile block (12.2). -/
def State.statusGroup (s : State) (src : Source) (off beats : Nat) (bytes : List Byte) : Request :=
  { source := src, write := true, addr := s.straps.toNat * 2 ^ 30 + off, beats := beats
    lanes := bytes.map some ++ List.replicate (8 * beats - bytes.length) none }

/-- A group is written where it differs from what was written last. -/
def ifChanged (last : Option (List Byte)) (bytes : List Byte) (raised : List Request) : List Request :=
  if last = some bytes then [] else raised

theorem statusWrite_eq (src : Source) (off beats : Nat) (bytes : List Byte) (s : State) :
    statusWrite src off beats bytes s = { s with out.requests := s.out.requests ++ [s.statusGroup src off beats bytes] } :=
  rfl

theorem writePathStatus_eq (s : State) : writePathStatus s =
    { s with
      host.written := some (le 4 s.host.guardCount)
      out.requests := s.out.requests ++
        ifChanged s.host.written (le 4 s.host.guardCount) [s.statusGroup .pathStatus 2064 1 (le 4 s.host.guardCount)] } := by
  unfold writePathStatus ifChanged
  dsimp only
  split
  next h => rw [List.append_nil, ← h]
  next => rfl

theorem writeStoreStatus_eq (s : State) : writeStoreStatus s =
    { s with
      store.written := some s.storeStatus
      out.requests := s.out.requests ++
        ifChanged s.store.written s.storeStatus [s.statusGroup .storeStatus 2144 3 s.storeStatus] } := by
  unfold writeStoreStatus ifChanged
  dsimp only
  split
  next h => rw [List.append_nil, ← h]
  next => rfl

theorem writeRingStatus_eq (s : State) : writeRingStatus s =
    { s with
      ring.written := some s.ringStatus
      out.requests := s.out.requests ++
        ifChanged s.ring.written s.ringStatus [s.statusGroup .ringStatus 2176 2 s.ringStatus] } := by
  unfold writeRingStatus ifChanged
  dsimp only
  split
  next h => rw [List.append_nil, ← h]
  next => rfl

theorem writeFolioStatus_eq (s : State) : writeFolioStatus s =
    { s with
      rating.folioWritten := some s.folioStatus
      out.requests := s.out.requests ++
        ifChanged s.rating.folioWritten s.folioStatus [s.statusGroup .folioStatus 2272 4 s.folioStatus] } := by
  unfold writeFolioStatus ifChanged
  dsimp only
  split
  next h => rw [List.append_nil, ← h]
  next => rfl

theorem writeArbiterStatus_eq (s : State) : writeArbiterStatus s =
    { s with
      arbiter.written := some (s.arbiterStatus.1 ++ s.arbiterStatus.2)
      out.requests := s.out.requests ++
        ifChanged s.arbiter.written (s.arbiterStatus.1 ++ s.arbiterStatus.2)
          [s.statusGroup .arbiterStatus 2080 3 s.arbiterStatus.1, s.statusGroup .arbiterStatus 2112 2 s.arbiterStatus.2] } := by
  unfold writeArbiterStatus ifChanged
  dsimp only
  split
  next h => rw [List.append_nil, ← h]
  next =>
    rw [statusWrite_eq, statusWrite_eq]
    dsimp only
    rw [List.append_assoc]
    rfl

theorem writeRatingStatus_eq (s : State) : writeRatingStatus s =
    { s with
      rating.written := some (s.ratingStatus.1 ++ s.ratingStatus.2)
      out.requests := s.out.requests ++
        ifChanged s.rating.written (s.ratingStatus.1 ++ s.ratingStatus.2)
          [s.statusGroup .ratingStatus 2208 4 s.ratingStatus.1, s.statusGroup .ratingStatus 2240 2 s.ratingStatus.2] } := by
  unfold writeRatingStatus ifChanged
  dsimp only
  split
  next h => rw [List.append_nil, ← h]
  next =>
    rw [statusWrite_eq, statusWrite_eq]
    dsimp only
    rw [List.append_assoc]
    rfl

theorem writeLinkHeader_eq (s : State) : writeLinkHeader s =
    { s with out.requests := s.out.requests ++ [s.statusGroup .linkHeader 3040 1 s.linkHeader] } := rfl

/-- The order of what a step raises is none of what the statements see (R164). -/
theorem EndsAs.of_perm {u t : State} {l : List Request} (h : EndsAs { u with out.requests := l } t)
    (hp : l.Perm u.out.requests) : EndsAs u t := by
  have hraised (who : Requester) : (State.raisedFor { u with out.requests := l } who).Perm (u.raisedFor who) := by
    unfold State.raisedFor
    exact hp.filter _
  refine ⟨h.steady, h.channels, h.voice, h.head, fun who => ?_, fun hw hn who => ?_, h.notices, h.placed⟩
  · obtain ⟨k, hk, hin⟩ := h.lines who
    exact ⟨k, hk, fun r hr => hin r ((hraised who).mem_iff.mpr hr)⟩
  · obtain ⟨k, hk, hperm⟩ := h.exact hw hn who
    exact ⟨k, hk, hperm.trans (hraised who)⟩

/-! ### The tenth (R181, R93, R96) -/

/-- The state in which the engines act on a tenth (R181, R93). -/
def State.ticked (s : State) : State := { s with time := s.time.tick, frame := s.frame + 1#32 }

theorem ticked_time (s : State) : s.ticked.time =
    { s.time with
      clock := if s.time.clock + 1 ≥ 864000 then 0 else s.time.clock + 1
      day := if s.time.clock + 1 ≥ 864000 then s.time.day + 1#16 else s.time.day
      elapsed := s.time.elapsed + 1#32 } := by
  have h : s.ticked.time = s.time.tick := rfl
  rw [h]
  unfold TimeBase.tick
  by_cases hc : s.time.clock + 1 ≥ 864000
  · rw [if_pos hc, if_pos hc, decide_eq_true (show s.time.clock + 1 ≥ Config.tenthsPerDay from hc)]
    rfl
  · rw [if_neg hc, if_neg hc, decide_eq_false (show ¬ s.time.clock + 1 ≥ Config.tenthsPerDay from hc)]
    rfl

theorem tenth_eq (s : State) : tenth s = startSweep (writeStatus s.ticked) := rfl

theorem writeStatus_active {s : State} (h : s.control.state = .active) (ho : s.out = {}) : writeStatus s =
    { s with
      host := { s.host with written := some (le 4 s.host.guardCount) }
      arbiter := { s.arbiter with written := some (s.arbiterStatus.1 ++ s.arbiterStatus.2) }
      store := { s.store with written := some s.storeStatus }
      ring := { s.ring with written := some s.ringStatus }
      rating := { s.rating with
        written := some (s.ratingStatus.1 ++ s.ratingStatus.2), folioWritten := some s.folioStatus }
      out.requests :=
        ifChanged s.store.written s.storeStatus [s.statusGroup .storeStatus 2144 3 s.storeStatus]
        ++ ifChanged s.host.written (le 4 s.host.guardCount) [s.statusGroup .pathStatus 2064 1 (le 4 s.host.guardCount)]
        ++ ifChanged s.arbiter.written (s.arbiterStatus.1 ++ s.arbiterStatus.2)
          [s.statusGroup .arbiterStatus 2080 3 s.arbiterStatus.1, s.statusGroup .arbiterStatus 2112 2 s.arbiterStatus.2]
        ++ ifChanged s.ring.written s.ringStatus [s.statusGroup .ringStatus 2176 2 s.ringStatus]
        ++ ifChanged s.rating.written (s.ratingStatus.1 ++ s.ratingStatus.2)
          [s.statusGroup .ratingStatus 2208 4 s.ratingStatus.1, s.statusGroup .ratingStatus 2240 2 s.ratingStatus.2]
        ++ ifChanged s.rating.folioWritten s.folioStatus [s.statusGroup .folioStatus 2272 4 s.folioStatus]
        ++ [s.statusGroup .linkHeader 3040 1 s.linkHeader] } := by
  have ha : s.active = true := decide_eq_true h
  have hs : s.storeStands = true := by unfold State.storeStands; rw [ha]; rfl
  have hout : s.out.requests = [] := by rw [ho]
  unfold writeStatus
  dsimp only
  rw [if_pos hs, if_pos ha, writeStoreStatus_eq, hout, List.nil_append, writePathStatus_eq]
  dsimp only
  rw [writeArbiterStatus_eq]
  dsimp only
  rw [writeRingStatus_eq]
  dsimp only
  rw [writeRatingStatus_eq]
  dsimp only
  rw [writeFolioStatus_eq]
  dsimp only
  rw [writeLinkHeader_eq]
  rfl

theorem writeStatus_idle {s : State} (h : s.storeStands = false) : writeStatus s = s := by
  have ha : s.active = false := by
    unfold State.storeStands at h
    exact (Bool.or_eq_false_iff.mp h).1
  unfold writeStatus
  dsimp only
  rw [if_neg (c := s.active = true) (by rw [ha]; decide), if_neg (by rw [h]; decide)]

theorem writeStatus_starting {s : State} (h : s.control.state = .starting) (hs : s.control.work.stage = .finished)
    (ho : s.out = {}) : writeStatus s =
    { s with
      store := { s.store with written := some s.storeStatus }
      out.requests := ifChanged s.store.written s.storeStatus [s.statusGroup .storeStatus 2144 3 s.storeStatus] } := by
  have ha : s.active = false := by unfold State.active; rw [h]; rfl
  have hst : s.storeStands = true := by unfold State.storeStands; rw [ha, h, hs]; rfl
  unfold writeStatus
  dsimp only
  rw [if_pos hst, if_neg (by rw [ha]; decide), writeStoreStatus_eq, show s.out.requests = [] by rw [ho]]
  rfl

theorem startSweep_idle {s : State} (h : s.control.state ≠ .active) : startSweep s = s := by
  unfold startSweep State.active
  rw [decide_eq_false h]
  rfl

theorem startSweep_active {s : State} (h : s.control.state = .active) : startSweep s =
    { s with
      lamp := if 0 < s.profile.cards ∧ s.lamp.sweep = none then
          { s.lamp with
            sweep := some { card := 0, frame := s.frame, drive := s.driveSet 0 s.frame }
            dataOut := outputFrame 0 (s.driveSet 0 s.frame) }
        else s.lamp } := by
  unfold startSweep State.active
  rw [decide_eq_true h]
  by_cases hc : 0 < s.profile.cards ∧ s.lamp.sweep = none
  · rw [if_pos hc, if_pos (by simp [hc.1, hc.2])]
    rfl
  · rw [if_neg hc, if_neg]
    simpa using hc

/-- What a tenth changes is time, frame, what was written last, the sweep, and what it raises (R181, R93, R96). -/
structure TenthKeeps (s t : State) : Prop where
  time : t.time = s.ticked.time
  frame : t.frame = s.frame + 1#32
  mem : t.mem = s.mem
  control : t.control = s.control
  marks : t.ring.marks = s.ring.marks
  folios : t.rating.folios = s.rating.folios
  messages : t.store.messages = s.store.messages
  lamps : t.lamp.lamps = s.lamp.lamps
  cards : t.lamp.cards = s.lamp.cards

theorem tenth_passive {s : State} (h : s.control.state = .passive) : tenth s = s.ticked := by
  have hst : s.ticked.storeStands = false := by
    unfold State.storeStands State.active
    rw [show s.ticked.control = s.control from rfl, h]
    rfl
  rw [tenth_eq, writeStatus_idle hst, startSweep_idle]
  show s.control.state ≠ .active
  rw [h]
  decide

theorem tenth_loading {s : State} (h : s.control.state = .starting) (hs : s.control.work.stage ≠ .finished) :
    tenth s = s.ticked := by
  have hst : s.ticked.storeStands = false := by
    unfold State.storeStands State.active
    rw [show s.ticked.control = s.control from rfl, h, decide_eq_false hs]
    rfl
  rw [tenth_eq, writeStatus_idle hst, startSweep_idle]
  show s.control.state ≠ .active
  rw [h]
  decide

theorem tenth_started {s : State} (h : s.control.state = .starting) (hs : s.control.work.stage = .finished)
    (ho : s.out = {}) : tenth s =
    { s.ticked with
      store := { s.store with written := some s.ticked.storeStatus }
      out.requests := ifChanged s.store.written s.ticked.storeStatus
        [s.ticked.statusGroup .storeStatus 2144 3 s.ticked.storeStatus] } := by
  rw [tenth_eq, writeStatus_starting (s := s.ticked) h hs ho, startSweep_idle]
  · rfl
  · show s.control.state ≠ .active
    rw [h]
    decide

theorem tenth_keeps {s : State} (ho : s.out = {}) : TenthKeeps s (tenth s) := by
  cases h : s.control.state with
  | passive => rw [tenth_passive h]; exact ⟨rfl, rfl, rfl, rfl, rfl, rfl, rfl, rfl, rfl⟩
  | starting =>
    by_cases hs : s.control.work.stage = .finished
    · rw [tenth_started h hs ho]; exact ⟨rfl, rfl, rfl, rfl, rfl, rfl, rfl, rfl, rfl⟩
    · rw [tenth_loading h hs]; exact ⟨rfl, rfl, rfl, rfl, rfl, rfl, rfl, rfl, rfl⟩
  | active =>
    rw [tenth_eq, startSweep_active (by rw [writeStatus_active (s := s.ticked) h ho]; exact h),
      writeStatus_active (s := s.ticked) h ho]
    refine ⟨rfl, rfl, rfl, rfl, rfl, rfl, rfl, ?_, ?_⟩
    · dsimp only
      split <;> rfl
    · dsimp only
      split <;> rfl

/-- What the tenth raises while ACTIVE, the store status first, in the order of the obligation. -/
theorem storeGroup_perm {α : Type} (st path a b c d e : List α) :
    (st ++ path ++ a ++ b ++ c ++ d ++ e).Perm (path ++ a ++ st ++ b ++ c ++ d ++ e) := by
  have h : (st ++ path ++ a).Perm (path ++ a ++ st) := by
    rw [List.append_assoc]
    exact List.perm_append_comm
  exact (((h.append_right b).append_right c).append_right d).append_right e

/-- Settles O34. -/
theorem tenthSecondAdvancesAndSweeps : Obligations.TenthSecondAdvancesAndSweeps := by
  intro s ho now frame group changed inState contexts path a arbiter1 arbiter2 store ring g rating1 rating2 folio
  have hx : exec .tenthSecondEvent s = .next (taken tenth s) := rfl
  have hnow : s.ticked.time = now := ticked_time s
  have hcompletes (v : State) (hv : tenth s = v) : Completes .tenthSecondEvent s v := ⟨_, hx, taken_endsAs' ho hv⟩
  have hstore : s.ticked.storeStatus = store := by
    have hlow : s.store.storeLow.code = if s.store.storeLow = .raised then 1 else 0 := by
      cases s.store.storeLow <;> rfl
    show _ ++ le 1 s.store.storeLow.code = _
    rw [hlow]
    rfl
  refine ⟨?_, fun h => hcompletes _ ?_, fun h => ?_, fun h => ⟨fun hs => hcompletes _ ?_, fun hs => hcompletes _ ?_⟩⟩
  · obtain ⟨t, hx, he⟩ := hcompletes _ rfl
    have hk := tenth_keeps ho
    refine ⟨t, hx, he.time.trans (hk.time.trans hnow), he.frame.trans hk.frame, he.mem.trans hk.mem,
      he.control.trans hk.control, ?_, ?_, ?_, ?_, ?_⟩
    · rw [he.ring, hk.marks]
    · rw [he.rating, hk.folios]
    · rw [he.store, hk.messages]
    · rw [he.lamp, hk.lamps]
    · rw [he.lamp, hk.cards]
  · rw [tenth_passive h, ← hnow]
    rfl
  · obtain ⟨t, hx, he⟩ := hcompletes _ rfl
    refine ⟨t, hx, ?_⟩
    rw [tenth_eq, startSweep_active (by rw [writeStatus_active (s := s.ticked) h ho]; exact h),
      writeStatus_active (s := s.ticked) h ho] at he
    rw [hstore, hnow] at he
    exact he.of_perm (storeGroup_perm _ _ _ _ _ _ _)
  · rw [tenth_loading h hs, ← hnow]
    rfl
  · rw [tenth_started h hs ho, hstore, ← hnow]
    rfl

end Sys2Proof.Machine
end

section
/-! PROOFS. Takes (10.4), refused orders, CLOCK SET (11.1), notices (11.2), and the release line (2.7). -/

namespace Sys2Proof.Machine

/-! ### What a take is, said by its end (R175, R177) -/

/-- The taken state, whatever way the take began, shows what R175 says. -/
theorem orderTaken_of {s w v t : State} {slot : Nat} {copy : List Byte} (h : EndsAs (nextSlot v) t) (hr : w.ring = s.ring)
    (hp : v.profile = s.profile) (hl : v.arbiter.lines = s.arbiter.lines)
    (hcore : v.ringCore = (w.atAct slot copy).ringCore) (hx : Raised (executingWrite s slot copy) v) :
    OrderTaken s t slot copy := by
  have hrc {α : Type} (f : Ring → α) (hf : ∀ r : Ring, f r.core = f r) : f v.ring = f (w.atAct slot copy).ring := by
    rw [← hf, ← hf (w.atAct slot copy).ring]
    exact congrArg f hcore
  refine ⟨?_, ?_, ?_, lineGrew_of_ends h hl fun r hx' => ?_⟩
  · rw [h.ring]
    exact hrc Ring.taking fun _ => rfl
  · rw [h.ring]
    show (v.ring.consumer + 1) % v.profile.orderSlots = _
    rw [hp, hrc Ring.consumer fun _ => rfl]
    show (w.ring.consumer + 1) % _ = _
    rw [hr]
  · rw [h.ring]
    refine (hrc Ring.ordersTaken fun _ => rfl).trans ?_
    show sat32 w.ring.ordersTaken = _
    rw [hr]
  · rw [List.mem_singleton] at hx'
    rw [hx']
    exact ⟨hx, rfl⟩

theorem executingWrite_congr {s t : State} (h : t.profile = s.profile) (slot : Nat) (copy : List Byte) :
    executingWrite t slot copy = executingWrite s slot copy := by
  unfold executingWrite State.slotAddr
  rw [h]

/-- An order that ends in a completion is answered, whatever it did before (R177). -/
theorem answered_by {s w t : State} {slot : Nat} {copy : List Byte} {st : Status} {deferred : Bool} {res : List Byte}
    {e : InFlight} (h : EndsAs (nextSlot (completeOrder slot st deferred res w)) t) (hp : w.profile = s.profile)
    (hl : w.arbiter.lines = s.arbiter.lines) (hx : Raised (executingWrite s slot copy) w) (he : w.entryOf slot = some e)
    (hc : e.copy = copy) : Answered s t slot copy st deferred res := by
  refine lineGrew_of_ends h ?_ fun r hm => ?_
  · exact (congrArg (fun b => b.2.2.2.1.lines) (completeOrder_base slot st deferred res w) : _).trans hl
  · obtain rfl | hm := List.mem_cons.mp hm
    · exact ⟨completeOrder_raised _ _ _ _ _ hx, rfl⟩
    · rw [List.mem_singleton] at hm
      subst hm
      have hr := completeOrder_raises st deferred res he
      rw [hc, completionWrite_congr hp] at hr
      exact ⟨hr, rfl⟩

/-- A completion, written out (R177). -/
theorem completeOrder_eq {s : State} {slot : Nat} {e : InFlight} (st : Status) (deferred : Bool) (res : List Byte)
    (h : s.entryOf slot = some e) : completeOrder slot st deferred res s =
    { s with
      ring.inFlight := s.ring.inFlight.map fun x => if x.slot = slot then { x with stage := .completing } else x
      out.requests := s.out.requests ++ [completionWrite s slot e.copy st deferred res] } := by
  unfold completeOrder
  rw [h]
  rfl

/-- What a take read that returned with an order is (R175). -/
theorem takeOf_spec {s : State} {o : Order} {slot : Nat} {copy : List Byte} (h : s.takeOf o = some (slot, copy)) :
    ∃ r, s.ring.taking = some slot ∧ s.returnOf Source.isTake = some r ∧ r.data = copy ∧ copyPosted copy = true ∧
      copyOrder copy = some o := by
  unfold State.takeOf at h
  split at h
  next slot' r ht hr =>
    split at h
    next hc =>
      obtain ⟨rfl, rfl⟩ := Prod.mk.inj (Option.some.inj h)
      exact ⟨r, ht, hr, rfl, hc.1, hc.2⟩
    next => cases h
  next => cases h

/-- A take that needs no place completes (R175). -/
theorem takeOrder_now {s : State} {slot : Nat} {copy : List Byte} (h : s.placesOf copy = 0) :
    takeOrder slot copy s = nextSlot (actOnCopy slot copy (s.atAct slot copy)) := by
  unfold takeOrder
  dsimp only
  rw [h, if_pos (show s.grantsAtOnce 0 = true from rfl), completeTake_eq]

theorem actOnCopy_refused {s : State} {slot : Nat} {copy : List Byte} {o : Order} {st : Status}
    (ho : copyOrder copy = some o) (hr : orderRefusal o copy s = some st) :
    actOnCopy slot copy s = completeOrder slot st false [] s := by
  unfold actOnCopy
  rw [ho]
  dsimp only
  rw [hr]

theorem actOnCopy_unknown {s : State} {slot : Nat} {copy : List Byte} (ho : copyOrder copy = none) :
    actOnCopy slot copy s = completeOrder slot .unknownOrder false [] s := by
  unfold actOnCopy
  rw [ho]

theorem actOnCopy_acts {s : State} {slot : Nat} {copy : List Byte} {o : Order} (ho : copyOrder copy = some o)
    (hr : orderRefusal o copy s = none) : actOnCopy slot copy s = orderAct o slot copy s := by
  unfold actOnCopy
  rw [ho]
  dsimp only
  rw [hr]

theorem placesOf_refused {s : State} {copy : List Byte} {o : Order} {st : Status} (ho : copyOrder copy = some o)
    (hr : orderRefusal o copy s = some st) : s.placesOf copy = 0 := by
  unfold State.placesOf
  rw [ho]
  dsimp only
  rw [hr]
  rfl

theorem placesOf_unknown {s : State} {copy : List Byte} (ho : copyOrder copy = none) : s.placesOf copy = 0 := by
  unfold State.placesOf
  rw [ho]

theorem nextSlot_base (s : State) : (nextSlot s).base = s.base := rfl

theorem atAct_outer (s : State) (slot : Nat) (copy : List Byte) : (s.atAct slot copy).outer = s.outer := rfl

/-- A take that is answered at once, whatever the answer: taken, answered, and nothing else of the engines (R178). -/
theorem answered_at_take {s w t : State} {slot : Nat} {copy : List Byte} {st : Status} {e : InFlight}
    (hw : w.entryOf slot = some e) (h : EndsAs (nextSlot (completeOrder slot st false [] (w.atAct slot copy))) t)
    (hr : w.ring = s.ring) (hp : w.profile = s.profile) (hl : w.arbiter.lines = s.arbiter.lines) :
    OrderTaken s t slot copy ∧ Answered s t slot copy st false [] := by
  obtain ⟨e', he', hc'⟩ := atAct_entry copy hw
  have hx : Raised (executingWrite s slot copy) (w.atAct slot copy) := by
    rw [← executingWrite_congr hp]
    exact atAct_raised w slot copy
  refine ⟨orderTaken_of h hr ?_ ?_ (completeOrder_ringCore ..) (completeOrder_raised _ _ _ _ _ hx),
    answered_by h hp hl hx he' hc'⟩
  · exact (profile_of_base (completeOrder_base ..)).trans hp
  · exact (congrArg (fun b => b.2.2.2.1.lines) (completeOrder_base slot st false [] (w.atAct slot copy)) : _).trans hl

/-! ### Refused orders (R178) -/

theorem exec_row (s : State) (o : Order) : exec o.row s = stepOrder o s := by cases o <;> rfl

/-- The entry of a slot, once its order is taken and answered (R175, R177). -/
theorem entries_answered (l : List InFlight) (slot : Nat) (copy : List Byte) :
    (l.map fun x => if x.slot = slot then { x with code := param copy 1 1, copy := copy, stage := .executing } else x).map
      (fun x => if x.slot = slot then { x with stage := .completing } else x) =
    l.map fun x => if x.slot = slot then { x with code := param copy 1 1, copy := copy, stage := .completing } else x := by
  rw [List.map_map]
  refine List.map_congr_left fun x _ => ?_
  by_cases h : x.slot = slot <;> simp [h]

/-- Settles O49. -/
theorem refusedOrderChangesNothing : Obligations.RefusedOrderChangesNothing := by
  intro s o slot copy st e ho ht hrefused he
  obtain ⟨r, htaking, hret, hdata, hposted, hcopy⟩ := takeOf_spec ht
  have hrefused' : orderRefusal o copy (takeReturn Source.isTake s) = some st := hrefused
  have hrefused'' : orderRefusal o copy ((takeReturn Source.isTake s).atAct slot copy) = some st := hrefused
  refine ⟨_, by rw [exec_row]; unfold stepOrder; rw [ht],
    taken_endsAs' (f := fun t => takeOrder slot copy (takeReturn Source.isTake t)) ho ?_⟩
  obtain ⟨e', he', hc'⟩ := atAct_entry (s := takeReturn Source.isTake s) copy he
  have hout : s.out = {} := ho
  have hraised : ((takeReturn Source.isTake s).atAct slot copy).out.requests = [executingWrite s slot copy] := by
    show s.out.requests ++ _ = _
    rw [ho]
    rfl
  dsimp only
  rw [takeOrder_now (placesOf_refused hcopy hrefused'), actOnCopy_refused hcopy hrefused'', completeOrder_eq _ _ _ he', hc',
    hraised, ← entries_answered]
  rfl

/-! ### The take, and orders that name nothing (R175, R178) -/

/-- Settles O47. -/
theorem takeReadsTheSlot : Obligations.TakeReadsTheSlot := by
  refine ⟨fun s ho => ⟨fun hact hmark hnone hfew => ?_, fun slot ret ht hret hpost => ?_⟩,
    fun s slot ret e ho ht hret hpost hcopy he => ?_⟩
  · have hcan : s.canTake = true := by
      unfold State.canTake State.active
      rw [decide_eq_true hact, decide_eq_true hmark, hnone, decide_eq_true (show s.ring.inFlight.length < Config.inFlightMax from hfew)]
      rfl
    refine ⟨_, stepIf_of startTake s hcan, taken_endsAs' ho ?_⟩
    unfold startTake raise
    dsimp only
    rw [show s.out.requests = [] by rw [ho]]
    rfl
  · refine ⟨_, stepOn_of (fun r t => takeData r (takeReturn Source.isTake t)) s hret,
      taken_endsAs' (f := fun t => takeData ret (takeReturn Source.isTake t)) ho ?_⟩
    have ht' : (takeReturn Source.isTake s).ring.taking = some slot := ht
    dsimp only
    unfold takeData
    rw [ht']
    dsimp only
    unfold takeReturned
    rw [if_neg (by unfold copyPosted; simpa using hpost)]
    rfl
  · have ht' : (takeReturn Source.isTake s).ring.taking = some slot := ht
    have heff : takeData ret (takeReturn Source.isTake s) =
        nextSlot (completeOrder slot .unknownOrder false [] ((takeReturn Source.isTake s).atAct slot ret.data)) := by
      unfold takeData
      rw [ht']
      dsimp only
      unfold takeReturned
      rw [if_pos (by unfold copyPosted; simpa using hpost), takeOrder_now (placesOf_unknown hcopy), actOnCopy_unknown hcopy]
    have hends := taken_endsAs' (f := fun t => takeData ret (takeReturn Source.isTake t)) ho heff
    obtain ⟨htaken, hanswered⟩ := answered_at_take (s := s) (w := takeReturn Source.isTake s) he hends rfl rfl rfl
    have hbase := completeOrder_base slot .unknownOrder false [] ((takeReturn Source.isTake s).atAct slot ret.data)
    refine ⟨_, stepOn_of (fun r t => takeData r (takeReturn Source.isTake t)) s hret,
      hends.sameOuter (outer_sameOuter (((State.outer_of_base hbase).trans (atAct_outer _ _ _)).trans rfl)), htaken, hanswered,
      ?_, ?_, ?_, ?_⟩
    · rw [hends.store]; exact completeOrder_store ..
    · rw [hends.rating]; exact completeOrder_rating ..
    · rw [hends.lamp]; exact completeOrder_lamp ..
    · rw [hends.control]; exact (control_of_base hbase).trans rfl

/-! ### Takes that wait for places (R176) -/

theorem takeGrant_of {s : State} {slot n : Nat} {e : InFlight} {line : List ReleaseRequest} (ht : s.ring.taking = some slot)
    (he : s.entryOf slot = some e) (hl : s.store.releaseLine = ⟨.take, n⟩ :: line) (hn : n ≤ 64 - s.store.releaseQueue.length) :
    s.takeGrant = some (slot, n, e.copy) := by
  have hg : s.lineGrant = some ⟨.take, n⟩ := by
    unfold State.lineGrant
    rw [hl]
    exact if_pos hn
  unfold State.takeGrant
  rw [hg, ht]
  dsimp only
  rw [if_pos rfl, he]
  rfl

theorem takeGranted_now {s : State} {slot need : Nat} {copy : List Byte} (h : s.placesOf copy ≤ need) :
    takeGranted slot need copy s = nextSlot (actOnCopy slot copy ((leaveReleaseLine s).atAct slot copy)) := by
  unfold takeGranted
  rw [if_pos h, completeTake_eq]

theorem exec_takeGrant {s : State} {x : Nat × Nat × List Byte} (h : s.takeGrant = some x) :
    exec .takePlacesGranted s = .next (taken (takeGranted x.1 x.2.1 x.2.2) s) := by
  have hx : exec .takePlacesGranted s = execTakePlacesGranted s := rfl
  rw [hx]
  unfold execTakePlacesGranted
  rw [h]
  rfl

/-- The step of a take whose places are granted (R176). -/
theorem exec_takeGranted {s : State} {slot n : Nat} {e : InFlight} {line : List ReleaseRequest}
    (ht : s.ring.taking = some slot) (he : s.entryOf slot = some e) (hl : s.store.releaseLine = ⟨.take, n⟩ :: line)
    (hn : n ≤ 64 - s.store.releaseQueue.length) :
    exec .takePlacesGranted s = .next (taken (takeGranted slot n e.copy) s) := by
  have hgrant : s.takeGrant = some (slot, n, e.copy) := takeGrant_of ht he hl hn
  rw [exec_takeGrant hgrant]

/-- A take granted its places that meets a refusal is answered, and leaves the line (R176, R178). -/
theorem takeGranted_refused {s : State} {slot n : Nat} {e : InFlight} {line : List ReleaseRequest} {o : Order} {st : Status}
    (ho : s.out = {}) (he : s.entryOf slot = some e) (hl : s.store.releaseLine = ⟨.take, n⟩ :: line)
    (hcopy : copyOrder e.copy = some o) (hrefused : orderRefusal o e.copy s = some st) (t : State)
    (ht : t = taken (takeGranted slot n e.copy) s) :
    sameOuter s t ∧ OrderTaken s t slot e.copy ∧ Answered s t slot e.copy st false [] ∧
      t.store = { s.store with releaseLine := line } := by
  have hrefused' : orderRefusal o e.copy ((leaveReleaseLine s).atAct slot e.copy) = some st := hrefused
  have heff : takeGranted slot n e.copy s =
      nextSlot (completeOrder slot st false [] ((leaveReleaseLine s).atAct slot e.copy)) := by
    rw [takeGranted_now (by rw [placesOf_refused hcopy hrefused]; exact Nat.zero_le n), actOnCopy_refused hcopy hrefused']
  have hends := taken_endsAs' ho heff
  rw [← ht] at hends
  obtain ⟨htaken, hanswered⟩ := answered_at_take (s := s) (w := leaveReleaseLine s) he hends rfl rfl rfl
  have hbase := completeOrder_base slot st false [] ((leaveReleaseLine s).atAct slot e.copy)
  have houter := (State.outer_of_base ((nextSlot_base _).trans hbase)).trans (atAct_outer (leaveReleaseLine s) slot e.copy)
  have hstore : (nextSlot (completeOrder slot st false [] ((leaveReleaseLine s).atAct slot e.copy))).store =
      (leaveReleaseLine s).store := completeOrder_store ..
  refine ⟨hends.sameOuter (outer_sameOuter houter), htaken, hanswered, ?_⟩
  rw [hends.store, hstore]
  show { s.store with releaseLine := s.store.releaseLine.tail } = _
  rw [hl]
  rfl

/-- What MESSAGE DELETE leaves in the store: the message has left, and no request has joined the release line (R41). -/
theorem messageDeleteAct_store (slot : Nat) (copy : List Byte) (s : State) :
    (((messageDeleteAct slot copy s).message (param copy 8 2)).state = .deleting ∨
      ((messageDeleteAct slot copy s).message (param copy 8 2)).state = .free) ∧
    (messageDeleteAct slot copy s).store.releaseLine = s.store.releaseLine := by
  obtain ⟨hcore, -, -, -, -, -, hline, -, -⟩ := releaseMessage_spec (param copy 8 2) (.order slot) s
  have hstate : ((releaseMessage (param copy 8 2) (.order slot) s).message (param copy 8 2)).state =
      if (s.message (param copy 8 2)).readers = 0 ∧ (s.message (param copy 8 2)).blocks = 0 then .free else .deleting :=
    congrArg Message.state hcore
  have hstore : (messageDeleteAct slot copy s).store = (releaseMessage (param copy 8 2) (.order slot) s).store := by
    unfold messageDeleteAct
    dsimp only
    split
    · exact completeOrder_store ..
    · split
      · exact completeOrder_store ..
      · rfl
  rw [message_congr (congrArg Store.messages hstore), hstate, hstore, hline]
  refine ⟨?_, rfl⟩
  split
  · exact .inr rfl
  · exact .inl rfl

/-- A MESSAGE DELETE granted its places, and not refused, is taken (R176, R41). -/
theorem takeGranted_delete {s : State} {slot n : Nat} {e : InFlight} {line : List ReleaseRequest} (ho : s.out = {})
    (hl : s.store.releaseLine = ⟨.take, n⟩ :: line) (hcopy : copyOrder e.copy = some .messageDelete)
    (hplaces : s.placesOf e.copy ≤ n) (hrefused : orderRefusal .messageDelete e.copy s = none) (t : State)
    (ht : t = taken (takeGranted slot n e.copy) s) :
    sameOuter s t ∧ OrderTaken s t slot e.copy ∧
      ((t.message (param e.copy 8 2)).state = .deleting ∨ (t.message (param e.copy 8 2)).state = .free) ∧
      t.store.releaseLine = line := by
  have hrefused' : orderRefusal .messageDelete e.copy ((leaveReleaseLine s).atAct slot e.copy) = none := hrefused
  have heff : takeGranted slot n e.copy s =
      nextSlot (messageDeleteAct slot e.copy ((leaveReleaseLine s).atAct slot e.copy)) := by
    rw [takeGranted_now hplaces, actOnCopy_acts hcopy hrefused']
    rfl
  have hends := taken_endsAs' ho heff
  rw [← ht] at hends
  obtain ⟨hstate, hline⟩ := messageDeleteAct_store slot e.copy ((leaveReleaseLine s).atAct slot e.copy)
  have hbase := messageDeleteAct_base slot e.copy ((leaveReleaseLine s).atAct slot e.copy)
  have hcore := messageDeleteAct_ringCore slot e.copy ((leaveReleaseLine s).atAct slot e.copy)
  have hx := messageDeleteAct_raised slot e.copy _ (atAct_raised (leaveReleaseLine s) slot e.copy)
  have houter := (State.outer_of_base hbase).trans (atAct_outer (leaveReleaseLine s) slot e.copy)
  have hlines := congrArg (fun b => b.2.2.2.1.lines) hbase
  have hprofile := profile_of_base hbase
  generalize messageDeleteAct slot e.copy ((leaveReleaseLine s).atAct slot e.copy) = v at *
  refine ⟨hends.sameOuter (outer_sameOuter houter),
    orderTaken_of (w := leaveReleaseLine s) hends rfl hprofile hlines hcore hx, ?_, ?_⟩
  · rw [hends.message]
    exact hstate
  · rw [hends.store]
    refine hline.trans ?_
    show s.store.releaseLine.tail = _
    rw [hl]
    rfl

/-- The row of an order, where its take read has returned, is the take (R175; log entry 8). -/
theorem exec_row_take {s : State} {o : Order} {x : Nat × List Byte} (hx : s.takeOf o = some x) :
    exec o.row s = exec .takeReadReturn s := by
  obtain ⟨slot, copy⟩ := x
  obtain ⟨r, htaking, hret, rfl, hposted, -⟩ := takeOf_spec hx
  have hstep : exec .takeReadReturn s = .next (taken (fun t => takeData r (takeReturn Source.isTake t)) s) :=
    stepOn_of (fun r t => takeData r (takeReturn Source.isTake t)) s hret
  have heff (t : State) (ht : t.ring.taking = some slot) :
      takeData r (takeReturn Source.isTake t) = takeOrder slot r.data (takeReturn Source.isTake t) := by
    have ht' : (takeReturn Source.isTake t).ring.taking = some slot := ht
    unfold takeData
    rw [ht']
    dsimp only
    unfold takeReturned
    rw [if_pos hposted]
  rw [hstep, exec_row]
  unfold stepOrder taken
  dsimp only
  rw [hx, heff (beginStep s) htaking]

/-- Settles O48. -/
theorem waitingTakesAreEvaluatedAgain : Obligations.WaitingTakesAreEvaluatedAgain := by
  refine ⟨fun s slot n e line ho ht he hl hn => ⟨fun hmore => ?_, fun o st hcopy hrefused => ?_,
    fun hcopy hplaces hrefused => ?_⟩, fun s o => ⟨fun h => ?_, fun h hg => ?_⟩⟩
  · refine ⟨_, exec_takeGranted ht he hl hn, taken_endsAs' ho ?_⟩
    unfold takeGranted renewFirst
    rw [if_neg (by omega), hl]
  · exact ⟨_, exec_takeGranted ht he hl hn, takeGranted_refused ho he hl hcopy hrefused _ rfl⟩
  · exact ⟨_, exec_takeGranted ht he hl hn, takeGranted_delete ho hl hcopy hplaces hrefused _ rfl⟩
  · obtain ⟨x, hx⟩ := Option.isSome_iff_exists.mp h
    exact exec_row_take hx
  · obtain ⟨x, hx⟩ := Option.isSome_iff_exists.mp hg
    have hgr : s.takeGrant = some x := (Option.filter_eq_some_iff.mp hx).1
    rw [exec_row]
    unfold stepOrder
    rw [h]
    dsimp only
    rw [hx]
    rw [exec_takeGrant hgr]
    rfl

/-! ### CLOCK SET (R182) -/

theorem boolByte_eq (b : Bool) : boolByte b = le 1 (if b then 1 else 0) := by cases b <;> rfl

/-- The clock that CLOCK SET is given is a time of day (R182). -/
theorem clockSet_inDay {copy : List Byte} {s : State} (h : clockSetRefusal copy s = none) : param copy 12 4 < 864000 := by
  unfold clockSetRefusal at h
  split at h
  next => cases h
  next hlt => exact Nat.lt_of_not_le hlt

/-- Settles O58. -/
theorem clockSetSetsTheClock : Obligations.ClockSetSetsTheClock := by
  intro s slot copy h
  have hday : param copy 12 4 < 864000 := clockSet_inDay (s := s) h.2.2.2.1
  obtain ⟨t, hx, htaken, hends, e, he, hc⟩ := order_taken (o := .clockSet) h (fun t => clockSetAct_ringCore slot copy t)
    (fun t => (congrArg (fun b => ((b.1.1, b.1.2.1, b.1.2.2.1, b.1.2.2.2.1, t.time), b.2)) (completeOrder_base ..) : _))
    (fun t x hx => clockSetAct_raised slot copy t hx)
  refine ⟨t, hx, htaken, ?_⟩
  generalize hw : ({ (takeReturn Source.isTake s).atAct slot copy with
      time.day := BitVec.ofNat 16 (param copy 8 2), time.clock := param copy 12 4, time.clockSet := true } : State) = w
  have hact : orderAct .clockSet slot copy ((takeReturn Source.isTake s).atAct slot copy) =
      completeOrder slot .done false
        (le 2 s.time.day.toNat ++ zeros 2 ++ le 4 s.time.clock ++ le 1 (if s.time.clockSet then 1 else 0)) w := by
    rw [← boolByte_eq, ← hw]
    rfl
  rw [hact] at hends
  have hbase := completeOrder_base slot .done false
    (le 2 s.time.day.toNat ++ zeros 2 ++ le 4 s.time.clock ++ le 1 (if s.time.clockSet then 1 else 0)) w
  have hstore := completeOrder_store slot .done false
    (le 2 s.time.day.toNat ++ zeros 2 ++ le 4 s.time.clock ++ le 1 (if s.time.clockSet then 1 else 0)) w
  have hrating := completeOrder_rating slot .done false
    (le 2 s.time.day.toNat ++ zeros 2 ++ le 4 s.time.clock ++ le 1 (if s.time.clockSet then 1 else 0)) w
  have hlamp := completeOrder_lamp slot .done false
    (le 2 s.time.day.toNat ++ zeros 2 ++ le 4 s.time.clock ++ le 1 (if s.time.clockSet then 1 else 0)) w
  have hvoice := completeOrder_voice slot .done false
    (le 2 s.time.day.toNat ++ zeros 2 ++ le 4 s.time.clock ++ le 1 (if s.time.clockSet then 1 else 0)) w
  have hanswered : Answered s t slot copy .done false
      (le 2 s.time.day.toNat ++ zeros 2 ++ le 4 s.time.clock ++ le 1 (if s.time.clockSet then 1 else 0)) :=
    answered_by hends (by rw [← hw]; rfl) (by rw [← hw]; rfl)
      (by rw [← hw]; exact atAct_raised (takeReturn Source.isTake s) slot copy) (by rw [← hw]; exact he) hc
  generalize completeOrder slot .done false _ w = v at *
  obtain ⟨hmem, htime, hframe, -, -⟩ := outer_sameOuter (State.outer_of_base hbase)
  have htime' : t.time = { s.time with
      day := BitVec.ofNat 16 (param copy 8 2), clock := param copy 12 4, clockSet := true } := by
    rw [hends.time]
    refine htime.trans ?_
    rw [← hw]
    rfl
  refine ⟨?_, ?_, htime', ?_, hanswered, ?_, ?_, ?_, ?_, fun k hk => ?_⟩
  · rw [hends.mem]; refine hmem.trans ?_; rw [← hw]; rfl
  · rw [hends.frame]; refine hframe.trans ?_; rw [← hw]; rfl
  · rw [htime']; exact hday
  · rw [hends.store]; refine hstore.trans ?_; rw [← hw]; rfl
  · rw [hends.rating]; refine hrating.trans ?_; rw [← hw]; rfl
  · rw [hends.lamp]; refine hlamp.trans ?_; rw [← hw]; rfl
  · rw [hends.control]; refine (control_of_base hbase).trans ?_; rw [← hw]; rfl
  · have hk' : (nextSlot v).channel k = s.channel k := channel_congr (hvoice.trans (by rw [← hw]; rfl)) k
    rw [hends.channels k (hk.of_eq hk'), hk']

/-! ### Notices (R184) -/

/-- Settles O59. -/
theorem noticeIsWrittenOrDropped : Obligations.NoticeIsWrittenOrDropped := by
  intro s n rest ho hopen hwriting hqueue
  have hturn : s.noticeTurn = some n := by
    unfold State.noticeTurn
    rw [hopen, hwriting, hqueue]
    rfl
  have hout : s.out.requests = [] := by rw [ho]
  refine ⟨fun hfree => ⟨_, stepOn_of writeNotice s hturn, taken_endsAs' ho ?_⟩,
    fun hfull => ⟨_, stepOn_of writeNotice s hturn, taken_endsAs' ho ?_⟩⟩
  · unfold writeNotice raise
    dsimp only
    rw [if_neg (by unfold State.ringFull; simpa using hfree), hqueue, hout]
    rfl
  · unfold writeNotice dropNotice raise
    dsimp only
    rw [if_pos (by unfold State.ringFull; simpa using hfull), hqueue, hout]
    rfl

/-! ### The release line (R26, R37) -/

theorem channelGrant_of {s : State} {ch n : Nat} {line : List ReleaseRequest}
    (hl : s.store.releaseLine = ⟨.channel ch, n⟩ :: line) (hn : n ≤ 64 - s.store.releaseQueue.length) :
    s.channelGrant = some ch := by
  have hg : s.lineGrant = some ⟨.channel ch, n⟩ := by
    unfold State.lineGrant
    rw [hl]
    exact if_pos hn
  unfold State.channelGrant
  rw [hg]
  rfl

/-- A chain joins the release queue, and no record or summary changes (R37). -/
theorem queueChain_chain {s : State} {i : Nat} {m : Message} (hm : s.message i = m) (cause : Cause) (hb : 0 < m.blocks) :
    (∀ j, (queueChain i cause s).message j = s.message j) ∧ (∀ q, (queueChain i cause s).mailbox q = s.mailbox q) ∧
    (queueChain i cause s).store.releaseQueue = s.store.releaseQueue ++ [⟨m.first, m.blocks, i, cause⟩] ∧
    (queueChain i cause s).store.releaseLine = s.store.releaseLine := by
  subst hm
  unfold queueChain
  dsimp only
  rw [if_pos hb]
  generalize hv : ({ s with
    store.releaseQueue := s.store.releaseQueue ++ [⟨(s.message i).first, (s.message i).blocks, i, cause⟩] } : State) = v
  obtain ⟨h1, h2, -, h4, h5⟩ := startWalk_store v
  refine ⟨fun j => ?_, fun q => ?_, h4.trans (by rw [← hv]), h5.trans (by rw [← hv])⟩
  · rw [message_congr h1, ← hv]
    rfl
  · rw [mailbox_congr h2, ← hv]
    rfl

/-- The release of a message that records, without readers: it leaves its place, and then its chain goes (R37). -/
theorem releaseRecording_eq {s : State} {i : Nat} {m : Message} (hm : s.message i = m) (cause : Cause)
    (hst : m.state = .recording) (hr : m.readers = 0) :
    releaseMessage i cause s =
      queueChain i cause (setPlaces m.room ((s.mailbox m.room).places - 1)
        (updateMessage i { m with state := .deleting } s)) := by
  subst hm
  unfold releaseMessage
  dsimp only
  rw [if_pos hr, if_neg (by rw [hst]; decide), if_pos hst, updateMessage_mailbox]

/-- What that release leaves in the store where the message has blocks (R37). -/
theorem releaseRecording_spec {s : State} {i : Nat} {m : Message} (hm : s.message i = m) (cause : Cause)
    (hst : m.state = .recording) (hr : m.readers = 0) (hb : 0 < m.blocks) :
    (∀ j, (releaseMessage i cause s).message j = if j = i then { m with state := .deleting } else s.message j) ∧
    (∀ q, (releaseMessage i cause s).mailbox q =
      if q = m.room then { s.mailbox m.room with places := (s.mailbox m.room).places - 1 } else s.mailbox q) ∧
    (releaseMessage i cause s).store.releaseQueue = s.store.releaseQueue ++ [⟨m.first, m.blocks, i, cause⟩] ∧
    (releaseMessage i cause s).store.releaseLine = s.store.releaseLine ∧
    (releaseMessage i cause s).lamp = s.lamp := by
  rw [releaseRecording_eq hm cause hst hr]
  have hshelf := updateMessage_shelf i { m with state := .deleting } s
  have hmessage := updateMessage_message i { m with state := .deleting } s
  have hmailbox := updateMessage_mailbox i { m with state := .deleting } s
  have hlamp := updateMessage_lamp i { m with state := .deleting } s
  generalize updateMessage i { m with state := .deleting } s = v at *
  generalize hw : setPlaces m.room ((s.mailbox m.room).places - 1) v = w
  have hi : w.message i = { m with state := .deleting } := by rw [← hw, setPlaces_message, hmessage, if_pos rfl]
  obtain ⟨h1, h2, h3, h4⟩ := queueChain_chain hi cause hb
  refine ⟨fun j => ?_, fun q => ?_, ?_, ?_, ?_⟩
  · rw [h1, ← hw, setPlaces_message, hmessage]
  · rw [h2, ← hw, setPlaces_mailbox, hmailbox, hmailbox]
  · rw [h3, ← hw, setPlaces_store_releaseQueue, Store.shelf_releaseQueue hshelf]
  · rw [h4, ← hw, setPlaces_store_releaseLine, Store.shelf_releaseLine hshelf]
  · rw [queueChain_lamp, ← hw, setPlaces_lamp, hlamp]

/-- A channel's release whose message holds a chain is the release of that message (R37). -/
theorem startChannelRelease_chain {s : State} {ch : Nat} (h : (s.message (s.channel ch).index).placesNeeded ≠ 0) :
    startChannelRelease ch s =
      releaseMessage (s.channel ch).index (.channel ch) (s.setChannel ch { s.channel ch with release := .queued }) := by
  unfold startChannelRelease
  exact if_neg h

/-- Settles O44. -/
theorem releaseLineGrantQueuesTheChain : Obligations.ReleaseLineGrantQueuesTheChain := by
  intro s ch n line ho hl hn m hst hr hb hplay hended
  have hgrant : s.channelGrant = some ch := channelGrant_of hl hn
  have hx : exec .releaseLineGrant s = .next (taken (fun t => startChannelRelease ch (leaveReleaseLine t)) s) := by
    show stepOn s.channelGrant _ s = _
    rw [hgrant]
    rfl
  have hneed : (State.message (leaveReleaseLine s) (State.channel (leaveReleaseLine s) ch).index).placesNeeded ≠ 0 := by
    show m.placesNeeded ≠ 0
    unfold Message.placesNeeded
    rw [if_pos ⟨hr, hb⟩]
    decide
  have heff := startChannelRelease_chain hneed
  generalize hv : State.setChannel (leaveReleaseLine s) ch _ = v at heff
  have hends := taken_endsAs' (f := fun t => startChannelRelease ch (leaveReleaseLine t)) ho heff
  obtain ⟨hmessage, hmailbox, hqueue, hline, hlamp⟩ := releaseRecording_spec (s := v) (i := (s.channel ch).index)
    (m := m) (by rw [← hv]; rfl) (.channel ch) hst hr hb
  have hbase := releaseMessage_base (s.channel ch).index (.channel ch) v
  have hvoice := releaseMessage_voice (s.channel ch).index (.channel ch) v
  have hring := releaseMessage_ring (s.channel ch).index (.channel ch) v
  have hrating := releaseMessage_rating (s.channel ch).index (.channel ch) v
  refine ⟨_, hx, ?_⟩
  generalize taken (fun t => startChannelRelease ch (leaveReleaseLine t)) s = t at hends
  have hends' : EndsAs (releaseMessage (s.channel ch).index (.channel ch) v) t := hends
  generalize releaseMessage (s.channel ch).index (.channel ch) v = u at *
  have hchan (k : Nat) : u.channel k = if k = ch then { s.channel ch with release := .queued } else s.channel k := by
    rw [channel_congr hvoice, ← hv]
    show (s.setChannel ch { s.channel ch with release := .queued }).channel k = _
    simp
  have hstill : u.stillChannel ch := by
    unfold State.stillChannel
    rw [hchan, if_pos rfl]
    exact ⟨hplay, hended⟩
  have hv1 : v.store = { s.store with releaseLine := line } := by
    rw [← hv]
    show { s.store with releaseLine := s.store.releaseLine.tail } = _
    rw [hl]
    rfl
  have hv2 : v.ring = s.ring ∧ v.rating = s.rating ∧ v.lamp = s.lamp ∧ v.outer = s.outer := by
    rw [← hv]
    exact ⟨rfl, rfl, rfl, rfl⟩
  obtain ⟨hvring, hvrating, hvlamp, hvouter⟩ := hv2
  refine ⟨hends'.sameOuter (outer_sameOuter ((State.outer_of_base hbase).trans hvouter)),
    by rw [hends'.store, hline, hv1], by rw [hends'.store, hqueue, hv1],
    by rw [hends'.message, hmessage, if_pos rfl], ?_,
    by rw [hends'.channels ch hstill, hchan, if_pos rfl], fun i hi => ?_, fun q hq => ?_, fun k hk hs => ?_,
    by rw [hends'.ring, hring, hvring], by rw [hends'.rating, hrating, hvrating], by rw [hends'.lamp, hlamp, hvlamp]⟩
  · rw [hends'.mailbox, hmailbox, if_pos rfl, mailbox_congr (s := s) (by rw [hv1])]
  · rw [hends'.message, hmessage, if_neg hi, message_congr (s := s) (by rw [hv1])]
  · rw [hends'.mailbox, hmailbox, if_neg hq, mailbox_congr (s := s) (by rw [hv1])]
  · have hk' : u.channel k = s.channel k := by rw [hchan, if_neg hk]
    rw [hends'.channels k (hs.of_eq hk'), hk']

end Sys2Proof.Machine
end

section
/-! PROOFS. The list of a room (2.9): a change of it, next indexes, counts, mark and lamp; what keeps play order. -/

namespace Sys2Proof.Machine

/-! ### The table of R90 -/

/-- The table of R90, read line by line, is the pattern the part computes. -/
theorem tablePattern_eq (s : State) (r : Nat) : s.tablePattern r = s.patternOf r := by
  have hdark : (!(s.roomShadow r).lampPresent) = true ∨ (!s.occupied r) = true ↔
      (s.roomShadow r).lampPresent = false ∨ s.occupied r = false := by simp
  have hlines (o : Override) (hon : o ≠ .testOn) (hoff : o ≠ .testOff) :
      effectivePattern o (s.roomShadow r).lampPresent (s.occupied r) (s.mailbox r) =
        if (s.roomShadow r).lampPresent = false ∨ s.occupied r = false then .off
        else if 0 < (s.mailbox r).urgentNew then .fast
        else if 0 < (s.mailbox r).newCount then .steady
        else if o = .desk then .slow
        else .off := by
    unfold effectivePattern
    rw [if_neg hon, if_neg hoff]
    cases (s.roomShadow r).lampPresent <;> cases s.occupied r <;> rfl
  unfold State.tablePattern State.patternOf
  cases (s.lampOf r).override with
  | testOn => rfl
  | testOff => rfl
  | none => exact (hlines .none (by decide) (by decide)).symm
  | desk => exact (hlines .desk (by decide) (by decide)).symm

/-! ### Next indexes (R36) -/

/-- The next index of a message in a list that holds no message twice (R36). -/
theorem successor_of_getElem {list : List Nat} (hn : list.Nodup) {n i : Nat} (h : list[n]? = some i) :
    successor list i = list.getD (n + 1) none16 := by
  induction list generalizing n with
  | nil => cases h
  | cons a t ih =>
    obtain ⟨ha, ht⟩ := List.nodup_cons.mp hn
    cases n with
    | zero =>
      obtain rfl := Option.some.inj h
      cases t with
      | nil => rfl
      | cons b t => exact if_pos rfl
    | succ n =>
      have hi : t[n]? = some i := h
      cases t with
      | nil => cases hi
      | cons b t =>
        have hne : i ≠ a := fun he => ha (he ▸ List.mem_of_getElem? hi)
        exact (if_neg hne).trans (ih ht hi)

/-- A message that is not listed has no next (R36). -/
theorem successor_of_not_mem {list : List Nat} {i : Nat} (h : i ∉ list) : successor list i = none16 := by
  induction list with
  | nil => rfl
  | cons a t ih =>
    rw [List.mem_cons, not_or] at h
    cases t with
    | nil => rfl
    | cons b t => exact (if_neg h.1).trans (ih h.2)

theorem relink_message (list : List Nat) (i : Nat) (s : State) (j : Nat) :
    (relink list i s).message j = if j = i then { s.message i with next := successor list i } else s.message j := by
  unfold relink
  dsimp only
  split
  next h =>
    split
    next hj => rw [hj, ← h]
    next => rfl
  next => rw [updateMessage_message]

theorem relinks_message (list l : List Nat) (s : State) (j : Nat) :
    (l.foldl (fun t i => relink list i t) s).message j =
      if j ∈ l then { s.message j with next := successor list j } else s.message j := by
  induction l generalizing s with
  | nil => rfl
  | cons a t ih =>
    rw [List.foldl_cons, ih, relink_message]
    by_cases hj : j = a
    · subst hj
      by_cases ht : j ∈ t <;> simp [ht]
    · by_cases ht : j ∈ t <;> simp [ht, hj]

/-! ### A change of a room's list (R36) -/

/-- From `s` to `v` the list of room `r` has become `list` (R34, R36, R90, R91). -/
structure Relisted (s v : State) (r : Nat) (list : List Nat) : Prop where
  message  : ∀ j, v.message j =
    if j ∈ (s.mailbox r).list ++ list then { s.message j with next := successor list j } else s.message j
  mailbox  : ∀ q, v.mailbox q = if q = r then recounted s (s.mailbox r) list else s.mailbox q
  marks    : v.store.marks = addMark s.store.marks r
  computed : (v.mailbox r).counts ≠ (s.mailbox r).counts → (v.lampOf r).pattern = v.tablePattern r
  kept     : (v.mailbox r).counts = (s.mailbox r).counts → v.lamp = s.lamp
  lamps    : ∀ q, q ≠ r → v.lampOf q = s.lampOf q
  shelf    : v.store.shelf = s.store.shelf

/-- The counts look at no next index (R34). -/
theorem recounted_congr {s t : State} (h : ∀ j, (t.message j).core = (s.message j).core) (b : Mailbox) (list : List Nat) :
    recounted t b list = recounted s b list := by
  have hcount (p : Message → Bool) (hp : ∀ m, p m = p m.core) : countListed t p list = countListed s p list := by
    unfold countListed
    congr 1
    refine List.filter_congr fun i _ => ?_
    rw [hp (t.message i), hp (s.message i), h]
  unfold recounted
  rw [hcount _ fun _ => rfl, hcount _ fun _ => rfl, hcount _ fun _ => rfl, hcount _ fun _ => rfl]

theorem setList_lamps (r : Nat) (list : List Nat) (s : State) :
    ((setList r list s).mailbox r = recounted s (s.mailbox r) list) ∧
    (((setList r list s).mailbox r).counts ≠ (s.mailbox r).counts →
      ((setList r list s).lampOf r).pattern = (setList r list s).tablePattern r) ∧
    (((setList r list s).mailbox r).counts = (s.mailbox r).counts → (setList r list s).lamp = s.lamp) ∧
    (∀ q, q ≠ r → (setList r list s).lampOf q = s.lampOf q) := by
  obtain ⟨hcore, -, -, -⟩ := relinks_spec list ((s.mailbox r).list ++ list) s
  have hlamp : (((s.mailbox r).list ++ list).foldl (fun t i => relink list i t) s).lamp = s.lamp :=
    foldl_keeps State.lamp _ (fun t i => relink_lamp list i t) _ s
  unfold setList
  dsimp only
  generalize ((s.mailbox r).list ++ list).foldl (fun t i => relink list i t) s = v at *
  rw [recounted_congr hcore]
  generalize recounted s (s.mailbox r) list = new
  generalize hw : markMail r (v.setMailbox r new) = w
  have hnew : w.mailbox r = new := by
    rw [← hw]
    show (v.setMailbox r new).mailbox r = new
    simp
  have hwl : w.lamp = s.lamp := by rw [← hw]; exact hlamp
  have hlampOf (q : Nat) : w.lampOf q = s.lampOf q := by unfold State.lampOf; rw [hwl]
  split
  next he => exact ⟨hnew, fun hne => absurd (by rw [hnew, he]) hne, fun _ => hwl, fun q _ => hlampOf q⟩
  next hne =>
    have hmail : (recomputeLamp r w).mailbox r = new := by rw [recomputeLamp_mailbox, hnew]
    refine ⟨hmail, fun _ => ?_, fun h => absurd (by rw [hmail] at h; exact h) hne, fun q hq => ?_⟩
    · rw [tablePattern_eq, patternOf_recomputeLamp, recomputeLamp_pattern]
    · rw [(recomputeLamp_spec r w).1 q hq, hlampOf]

theorem setList_message (r : Nat) (list : List Nat) (s : State) (j : Nat) : (setList r list s).message j =
    if j ∈ (s.mailbox r).list ++ list then { s.message j with next := successor list j } else s.message j := by
  rw [← relinks_message list ((s.mailbox r).list ++ list) s j]
  unfold setList
  dsimp only
  split
  · rfl
  · rw [recomputeLamp_message]
    rfl

/-- What `setList` does, the whole of it (R36). -/
theorem setList_relisted (r : Nat) (list : List Nat) (s : State) : Relisted s (setList r list s) r list := by
  obtain ⟨-, hrooms, -, -, -, hshelf, hmarks⟩ := setList_spec r list s
  obtain ⟨hroom, hcomputed, hkept, hlamps⟩ := setList_lamps r list s
  refine ⟨setList_message r list s, fun q => ?_, hmarks, hcomputed, hkept, hlamps, hshelf⟩
  split
  next hq => rw [hq, hroom]
  next hq => exact hrooms q hq

/-! ### Play order (R34) -/

theorem playClass_eq (m : Message) : m.playClass = m.classRank := by
  unfold Message.playClass Message.classRank
  cases m.state <;> rfl

theorem playBefore_iff (s : State) (i j : Nat) :
    playBefore (s.message i) i (s.message j) j = true ↔ s.standsBefore i j := by
  unfold playBefore State.standsBefore
  simp only [Bool.or_eq_true, Bool.and_eq_true, decide_eq_true_eq, playClass_eq]

theorem standsBefore_irrefl (s : State) (i : Nat) : ¬ s.standsBefore i i := by
  unfold State.standsBefore
  dsimp only
  omega

theorem standsBefore_trans {s : State} {i j k : Nat} (h : s.standsBefore i j) (g : s.standsBefore j k) :
    s.standsBefore i k := by
  unfold State.standsBefore at *
  dsimp only at *
  omega

/-- Of two messages one stands before the other (R34). -/
theorem standsBefore_total {s : State} {i j : Nat} (hne : i ≠ j) (h : ¬ s.standsBefore i j) : s.standsBefore j i := by
  unfold State.standsBefore at *
  dsimp only at *
  omega

theorem inPlayOrder_nodup {s : State} {list : List Nat} (h : s.inPlayOrder list) : list.Nodup :=
  List.Pairwise.imp (fun {a b} hab => by rintro rfl; exact standsBefore_irrefl s _ hab) h

theorem standsBefore_congr {s t : State} {i j : Nat} (hi : (t.message i).core = (s.message i).core)
    (hj : (t.message j).core = (s.message j).core) : t.standsBefore i j ↔ s.standsBefore i j := by
  have hrank {m n : Message} (h : m.core = n.core) : m.classRank = n.classRank := by
    have hc := congrArg Message.classRank h
    exact hc
  have hserial {m n : Message} (h : m.core = n.core) : m.serial = n.serial := by
    have hc := congrArg Message.serial h
    exact hc
  unfold State.standsBefore
  dsimp only
  rw [hrank hi, hrank hj, hserial hi, hserial hj]

theorem inPlayOrder_congr {s t : State} {list : List Nat} (h : ∀ j ∈ list, (t.message j).core = (s.message j).core)
    (ho : s.inPlayOrder list) : t.inPlayOrder list :=
  List.Pairwise.imp_of_mem (fun ha hb hab => (standsBefore_congr (h _ ha) (h _ hb)).mpr hab) ho

/-- A message put into a list in play order leaves it in play order (R34). -/
theorem insertPlay_inPlayOrder {s : State} {i : Nat} {list : List Nat} (h : s.inPlayOrder list) (hi : i ∉ list) :
    s.inPlayOrder (insertPlay s i list) := by
  induction list with
  | nil => exact List.pairwise_singleton ..
  | cons j t ih =>
    obtain ⟨hj, ht⟩ := List.pairwise_cons.mp h
    rw [List.mem_cons, not_or] at hi
    unfold insertPlay
    split
    next hb =>
      have hij := (playBefore_iff s i j).mp hb
      refine List.pairwise_cons.mpr ⟨fun k hk => ?_, h⟩
      obtain rfl | hk := List.mem_cons.mp hk
      · exact hij
      · exact standsBefore_trans hij (hj k hk)
    next hb =>
      refine List.pairwise_cons.mpr ⟨fun k hk => ?_, ih ht hi.2⟩
      obtain rfl | hk := (mem_insertPlay s i k t).mp hk
      · exact standsBefore_total hi.1 fun hij => hb ((playBefore_iff s k j).mpr hij)
      · exact hj k hk

/-! ### What follows a room's list (R34, R36, R90, R91) -/

theorem countsOf_recounted (s : State) (b : Mailbox) (list : List Nat) : (recounted s b list).counts = s.countsOf list := rfl

theorem countsOf_congr {s t : State} {list : List Nat} (h : ∀ j ∈ list, (t.message j).core = (s.message j).core) :
    t.countsOf list = s.countsOf list := by
  have hcount (p : Message → Bool) (hp : ∀ m, p m = p m.core) :
      (list.filter fun i => p (t.message i)).length = (list.filter fun i => p (s.message i)).length := by
    congr 1
    refine List.filter_congr fun i hi => ?_
    rw [hp (t.message i), hp (s.message i), h i hi]
  exact Prod.ext (hcount (fun m => decide (m.state = .new)) fun _ => rfl)
    (Prod.ext (hcount (fun m => decide (m.state = .new) && m.urgent) fun _ => rfl)
      (Prod.ext (hcount (fun m => decide (m.state = .heard)) fun _ => rfl)
        (hcount (fun m => decide (m.state = .saved)) fun _ => rfl)))

/-- Two states that show the same of room `r` to R90 have the same table entry. -/
theorem tablePattern_congr {s t : State} {r : Nat} (hl : t.lampOf r = s.lampOf r) (hs : t.roomShadow r = s.roomShadow r)
    (hm : t.mailbox r = s.mailbox r) : t.tablePattern r = s.tablePattern r := by
  rw [tablePattern_eq, tablePattern_eq]
  unfold State.patternOf State.occupied
  rw [hl, hs, hm]

/-- What `ListFollows` says, from one change of the list, with what stands before and after it in the same step. -/
theorem Relisted.follows {s u v t : State} {r : Nat} {list : List Nat} {isIn : Nat → Prop} (h : Relisted u v r list)
    (hlist : (u.mailbox r).list = (s.mailbox r).list) (hcounts : (u.mailbox r).counts = (s.mailbox r).counts)
    (hlamp : u.lampOf r = s.lampOf r) (hin : ∀ i, i ∈ list ↔ isIn i)
    (horder : s.inPlayOrder (s.mailbox r).list → u.inPlayOrder list)
    (hmessage : ∀ j ∈ list, t.message j = v.message j)
    (hleft : ∀ j ∈ (s.mailbox r).list, j ∉ list → (t.message j).next = (v.message j).next)
    (hmail : (t.mailbox r).list = (v.mailbox r).list ∧ (t.mailbox r).counts = (v.mailbox r).counts ∧
      t.tablePattern r = v.tablePattern r)
    (hmarks : r ∈ v.store.marks → r ∈ t.store.marks) (hlampOf : t.lampOf r = v.lampOf r) : ListFollows s t r isIn := by
  obtain ⟨hmlist, hmcounts, htable⟩ := hmail
  have hroom : v.mailbox r = recounted u (u.mailbox r) list := by rw [h.mailbox, if_pos rfl]
  have htlist : (t.mailbox r).list = list := by rw [hmlist, hroom]; rfl
  have hcore (j : Nat) (hj : j ∈ list) : (t.message j).core = (u.message j).core := by
    rw [hmessage j hj, h.message]
    split <;> rfl
  refine ⟨fun i => by rw [htlist]; exact hin i, fun ho => ?_, fun ho n i hn => ?_, fun i hi hni => ?_, ?_,
    hmarks (by rw [h.marks]; simp [mem_addMark]), fun hne => ?_, fun he => ?_⟩
  · rw [htlist]
    exact inPlayOrder_congr hcore (horder ho)
  · rw [htlist] at hn ⊢
    have hi := List.mem_of_getElem? hn
    rw [hmessage i hi, h.message, if_pos (List.mem_append_right _ hi)]
    exact successor_of_getElem (inPlayOrder_nodup (horder ho)) hn
  · rw [htlist] at hni
    rw [hleft i hi hni, h.message, if_pos (List.mem_append_left _ (by rw [hlist]; exact hi))]
    exact successor_of_not_mem hni
  · rw [hmcounts, hroom, countsOf_recounted, htlist]
    exact (countsOf_congr hcore).symm
  · rw [hlampOf, htable]
    exact h.computed (by rw [hcounts, ← hmcounts]; exact hne)
  · have hk := h.kept (by rw [hcounts, ← hmcounts]; exact he)
    rw [hlampOf, ← hlamp]
    unfold State.lampOf
    rw [hk]

/-! ### A message takes a listed state (R34, R39, R40) -/

/-- A message that moves: its record, its room's list, and what follows (R34, R36). -/
theorem moveMessage_follows {s : State} {i : Nat} {m : Message} (hm : s.message i = m) (st : MessageState) :
    ListFollows s (moveMessage i st s) m.room (fun j => j = i ∨ j ∈ (s.mailbox m.room).list) ∧
    ((moveMessage i st s).message i).core = { m.core with state := st } ∧
    (∀ j, j ≠ i → ((moveMessage i st s).message j).core = (s.message j).core) ∧
    ((moveMessage i st s).mailbox m.room).places = (s.mailbox m.room).places ∧
    (∀ q, q ≠ m.room → (moveMessage i st s).mailbox q = s.mailbox q ∧ (moveMessage i st s).lampOf q = s.lampOf q) := by
  subst hm
  obtain ⟨hi, hothers, hrooms, -, hplaces, -, -, -⟩ := moveMessage_spec i st s
  have hmove : moveMessage i st s = setList (s.message i).room
      (insertPlay (updateMessage i { s.message i with state := st } s) i
        ((s.mailbox (s.message i).room).list.filter fun j => j ≠ i))
      (updateMessage i { s.message i with state := st } s) := by
    unfold moveMessage
    dsimp only
    rw [updateMessage_mailbox]
  have hmessage := updateMessage_message i { s.message i with state := st } s
  have hmailbox := updateMessage_mailbox i { s.message i with state := st } s
  have hlamp := updateMessage_lamp i { s.message i with state := st } s
  rw [hmove] at hi hothers hrooms hplaces ⊢
  generalize updateMessage i { s.message i with state := st } s = u at hi hothers hrooms hplaces hmessage hmailbox hlamp ⊢
  have hl (q : Nat) : u.lampOf q = s.lampOf q := by unfold State.lampOf; rw [hlamp]
  have hrel := setList_relisted (s.message i).room
    (insertPlay u i ((s.mailbox (s.message i).room).list.filter fun j => j ≠ i)) u
  generalize hlist : insertPlay u i ((s.mailbox (s.message i).room).list.filter fun j => j ≠ i) = list
    at hi hothers hrooms hplaces hrel ⊢
  have hmem (j : Nat) : j ∈ list ↔ j = i ∨ j ∈ (s.mailbox (s.message i).room).list := by
    rw [← hlist, mem_insertPlay]
    by_cases hj : j = i <;> simp [hj]
  refine ⟨hrel.follows (by rw [hmailbox]) (by rw [hmailbox]) (hl _) hmem (fun ho => ?_) (fun _ _ => rfl)
    (fun _ _ _ => rfl) ⟨rfl, rfl, rfl⟩ id rfl, hi, hothers, hplaces,
    fun q hq => ⟨hrooms q hq, (hrel.lamps q hq).trans (hl q)⟩⟩
  rw [← hlist]
  refine insertPlay_inPlayOrder (inPlayOrder_congr (s := s) (fun j hj => ?_) (List.Pairwise.filter _ ho)) (by simp)
  rw [hmessage, if_neg (by simpa using (List.mem_filter.mp hj).2)]

end Sys2Proof.Machine
end

section
/-! PROOFS. What is not answered: an operation that does not complete the order of a slot raises no completion write for
it, and neither does the end of a step (R177). -/

namespace Sys2Proof.Machine

/-- No completion write of `slot` has been raised in this step (R177). -/
def Mute (slot : Nat) (s : State) : Prop := ∀ r ∈ s.out.requests, r.source ≠ .completion slot

theorem Mute.of_out {slot : Nat} {s t : State} (h : Mute slot s) (ho : t.out.requests = s.out.requests) : Mute slot t := by
  unfold Mute at *
  rwa [ho]

theorem Mute.raiseAll {slot : Nat} {s : State} {rs : List Request} (h : Mute slot s)
    (hr : ∀ r ∈ rs, r.source ≠ .completion slot) : Mute slot (raiseAll rs s) := by
  intro r hm
  obtain hm | hm := List.mem_append.mp hm
  · exact h r hm
  · exact hr r hm

theorem Mute.raise {slot : Nat} {s : State} {r : Request} (h : Mute slot s) (hr : r.source ≠ .completion slot) :
    Mute slot (raise r s) :=
  h.raiseAll (rs := [r]) fun q hq => by rw [List.mem_singleton.mp hq]; exact hr

theorem Mute.setChannel {slot : Nat} {s : State} (h : Mute slot s) (c : Nat) (v : Channel) : Mute slot (s.setChannel c v) :=
  h.of_out rfl

theorem Mute.foldl {α : Type} {slot : Nat} {f : State → α → State} (hf : ∀ t a, Mute slot t → Mute slot (f t a))
    (l : List α) {s : State} (h : Mute slot s) : Mute slot (l.foldl f s) := by
  induction l generalizing s with
  | nil => exact h
  | cons a l ih => exact ih (hf s a h)

/-! ### The end of a step -/

theorem Mute.fetchBlock {slot : Nat} {s : State} (h : Mute slot s) (ch : Nat) (second : Bool) (b : Nat) :
    Mute slot (fetchBlock ch second b s) := by
  refine (h.setChannel _ _).raiseAll fun r hr => ?_
  obtain ⟨k, -, rfl⟩ := List.mem_map.mp hr
  exact Source.noConfusion

theorem Mute.prefetch {slot : Nat} {s : State} (h : Mute slot s) (ch : Nat) : Mute slot (prefetch ch s) := by
  unfold Machine.prefetch
  dsimp only
  split
  · split
    · exact h.fetchBlock _ _ _
    · exact h
  · exact h

theorem Mute.playStep {slot : Nat} {s : State} (h : Mute slot s) (ch : Nat) : Mute slot (playStep ch s).2 := by
  unfold Machine.playStep
  dsimp only
  split
  · exact h.setChannel _ _
  · split
    · exact h.setChannel _ _
    · split
      · exact ((h.setChannel _ _).prefetch _).setChannel _ _
      · exact h

theorem Mute.serveRead {slot : Nat} {s : State} (h : Mute slot s) (zeroed : Option Nat) (off : Nat)
    (ls : List (Option Byte)) (seen : List Nat) : Mute slot (serveRead zeroed off ls seen s).2.2 := by
  refine serveRead_ind (Mute slot) zeroed (fun ch seen t ht => ?_) (fun ch t ht _ => ht.playStep ch) ls off seen s h
  unfold meetChannel
  dsimp only
  split
  · exact ht.setChannel _ _
  · exact ht

theorem Mute.serveVoice {slot : Nat} {s : State} (h : Mute slot s) (zeroed : Option Nat) (seen : List Nat) (w : HeadWork) :
    Mute slot (serveVoice zeroed seen w s).2.2 := by
  have hr := h.serveRead zeroed (s.voiceOffset (s.voiceParts w)) (partLanes (s.voiceParts w)) seen
  unfold Machine.serveVoice
  dsimp only
  split
  · exact h
  · split <;> next he => rw [he] at hr; exact hr

theorem Mute.advanceHead {slot : Nat} {s : State} (h : Mute slot s) (req : HostRequest) (n : Nat) (w : HeadWork) :
    Mute slot (advanceHead req n w s) := by
  induction n generalizing w s with
  | zero => exact h.of_out rfl
  | succ n ih =>
    unfold Machine.advanceHead
    dsimp only
    split
    · split
      · exact h.of_out rfl
      · obtain ⟨_, _, -, e⟩ := leaveRead_eq req w.answer s
        rw [e]
        exact h.of_out rfl
    · split
      · split
        · exact ih (h.serveVoice _ _ _) _
        · exact h.of_out rfl
      · generalize (if req.write = true then _ else _ : List (Option Byte)) = lanes
        split
        · exact Mute.raise (h.of_out rfl) Source.noConfusion
        · exact ih h _

theorem Mute.resumeStall {slot : Nat} {s : State} (h : Mute slot s) : Mute slot (resumeStall s) := by
  have hserve (req : HostRequest) (seen : List Nat) (w : HeadWork) : Mute slot (serveHead req none seen w s) := by
    have hv := h.serveVoice none seen w
    unfold serveHead
    split
    next he => rw [he] at hv; exact hv.advanceHead _ _ _
    next he => rw [he] at hv; exact hv.of_out rfl
  unfold Machine.resumeStall
  split
  · split
    · exact hserve _ _ _
    · exact h
  · exact h

theorem Mute.startHead {slot : Nat} {s : State} (h : Mute slot s) : Mute slot (startHead s) := by
  unfold Machine.startHead
  split
  · exact h
  · split
    · exact h
    · unfold startRequest
      dsimp only
      split
      · exact h.advanceHead _ _ _
      · exact h.of_out rfl
    · exact Mute.raise (h.of_out rfl) Source.noConfusion

theorem Mute.settleFifo {slot : Nat} {s : State} (h : Mute slot s) (n : Nat) : Mute slot (settleFifo n s) := by
  induction n generalizing s with
  | zero => exact h
  | succ n ih =>
    unfold Machine.settleFifo
    dsimp only
    have hstart : Mute slot (Machine.startHead (fillFifo Config.fifoDepth s)) :=
      Mute.startHead (h.of_out (by rw [fillFifo_out]))
    split
    · exact hstart
    · exact ih hstart

theorem Mute.commitNotices {slot : Nat} {s : State} (h : Mute slot s) : Mute slot (commitNotices s) := by
  unfold Machine.commitNotices
  dsimp only
  have hout := congrArg Outbox.requests
    (interleave_out (fun n : Requester × Notice => requesterIndex n.1) s.out.notices [] s)
  refine Mute.foldl (fun t n ht => ?_) _ (h.of_out hout)
  unfold queueNotice
  split
  · exact ht.of_out rfl
  · exact Mute.raise (ht.of_out rfl) Source.noConfusion

/-- What joins the lines as a step ends has been raised (R164). -/
theorem commitLine_joins {P : Request → Prop} {rs : List Request} (hr : ∀ r ∈ rs, P r) (who w : Requester) (s : State) :
    ∃ l, (commitLine who rs s).arbiter.lines.get w = s.arbiter.lines.get w ++ l ∧ ∀ r ∈ l, P r := by
  obtain ⟨l, hl, hp⟩ := commitLine_perm who rs s w
  refine ⟨l, hl, fun r hm => ?_⟩
  have hin := hp.mem_iff.mp hm
  split at hin
  · exact hr r (List.mem_filter.mp hin).1
  · cases hin

theorem commitLines_join {P : Request → Prop} {rs : List Request} (hr : ∀ r ∈ rs, P r) (w : Requester) (ws : List Requester)
    (s : State) : ∃ l, (ws.foldl (fun t who => commitLine who rs t) s).arbiter.lines.get w =
      s.arbiter.lines.get w ++ l ∧ ∀ r ∈ l, P r := by
  induction ws generalizing s with
  | nil => exact ⟨[], by simp, nofun⟩
  | cons who ws ih =>
    obtain ⟨l, hl, hp⟩ := commitLine_joins hr who w s
    obtain ⟨l', hl', hp'⟩ := ih (commitLine who rs s)
    refine ⟨l ++ l', by rw [List.foldl_cons, hl', hl, List.append_assoc], fun r hm => ?_⟩
    obtain hm | hm := List.mem_append.mp hm
    · exact hp r hm
    · exact hp' r hm

/-- A step that raises no completion write of `slot` ends with none in the lines (R177). -/
theorem finish_mute {slot : Nat} {u : State} (h : Mute slot u) (who : Requester) :
    ∃ l, (finish u).arbiter.lines.get who = u.arbiter.lines.get who ++ l ∧ ∀ r ∈ l, r.source ≠ .completion slot := by
  have hg := (resumeStall_grows u).trans
    (settleFifo_grows ((resumeStall u).host.fifo.length + (resumeStall u).host.waiting.length + 1) (resumeStall u))
  have hm := h.resumeStall.settleFifo ((Machine.resumeStall u).host.fifo.length + (Machine.resumeStall u).host.waiting.length + 1)
  unfold finish
  dsimp only
  generalize Machine.settleFifo _ (Machine.resumeStall u) = v at *
  have hc := (commitNotices_grows v).arbiter
  unfold commit
  dsimp only
  obtain ⟨l, hl, hp⟩ := commitLines_join hm.commitNotices who [.host, .voice, .directory, .rating, .lamp]
    { Machine.commitNotices v with out := { (Machine.commitNotices v).out with requests := [] } }
  refine ⟨l, hl.trans ?_, hp⟩
  show (Machine.commitNotices v).arbiter.lines.get who ++ l = _
  rw [hc, hg.arbiter]

/-- An order that goes on is not answered (R177). -/
theorem unanswered_of {s u t : State} {slot : Nat} {e : InFlight} (ht : t = finish u) (hm : Mute slot u)
    (hl : u.arbiter.lines = s.arbiter.lines) (he : u.entryOf slot = some e) (hs : e.stage = .executing) :
    Unanswered s t slot := by
  subst ht
  refine ⟨⟨e, ?_, hs⟩, fun l hline r hr => ?_⟩
  · unfold State.entryOf
    rw [(finish_endsAs u).ring]
    exact he
  · obtain ⟨k, hk, hp⟩ := finish_mute hm .directory
    rw [hl] at hk
    rw [hk] at hline
    exact hp r ((List.append_cancel_left hline) ▸ hr)

/-! ### The operations of the store -/

theorem Mute.recordWrite {slot : Nat} {s : State} (h : Mute slot s) (i : Nat) : Mute slot (recordWrite i s) := by
  unfold Machine.recordWrite
  split
  · exact h
  · exact h.raise Source.noConfusion

theorem Mute.updateMessage {slot : Nat} {s : State} (h : Mute slot s) (i : Nat) (m : Message) :
    Mute slot (updateMessage i m s) :=
  Mute.recordWrite (s := s.setMessage i m) (h.of_out rfl) i

theorem Mute.recomputeLamp {slot : Nat} {s : State} (h : Mute slot s) (r : Nat) : Mute slot (recomputeLamp r s) := by
  unfold Machine.recomputeLamp
  dsimp only
  split
  · exact h
  · exact h.of_out rfl

theorem Mute.setList {slot : Nat} {s : State} (h : Mute slot s) (r : Nat) (list : List Nat) : Mute slot (setList r list s) := by
  have hr : Mute slot (((s.mailbox r).list ++ list).foldl (fun t i => relink list i t) s) := by
    refine Mute.foldl (fun t i ht => ?_) _ h
    unfold relink
    dsimp only
    split
    · exact ht
    · exact ht.updateMessage _ _
  unfold Machine.setList
  dsimp only
  split
  · exact hr.of_out rfl
  · refine Mute.recomputeLamp (Mute.of_out hr ?_) r
    rfl

theorem Mute.freeRecord {slot : Nat} {s : State} (h : Mute slot s) (i : Nat) : Mute slot (freeRecord i s) := by
  unfold Machine.freeRecord
  dsimp only
  split
  · exact h.updateMessage _ _
  · exact Mute.of_out (h.updateMessage _ _) rfl

theorem Mute.startWalk {slot : Nat} {s : State} (h : Mute slot s) : Mute slot (startWalk s) := by
  unfold Machine.startWalk
  split
  · exact Mute.raise (h.of_out rfl) Source.noConfusion
  · exact h

theorem Mute.queueChain {slot : Nat} {s : State} (h : Mute slot s) (i : Nat) (cause : Cause) :
    Mute slot (queueChain i cause s) := by
  unfold Machine.queueChain
  dsimp only
  split
  · exact Mute.startWalk (h.of_out rfl)
  · exact h.freeRecord i

theorem Mute.setPlaces {slot : Nat} {s : State} (h : Mute slot s) (r n : Nat) : Mute slot (setPlaces r n s) := h.of_out rfl

theorem Mute.releaseMessage {slot : Nat} {s : State} (h : Mute slot s) (i : Nat) (cause : Cause) :
    Mute slot (releaseMessage i cause s) := by
  have hmid (w : State) (hw : Mute slot w) : Mute slot (if (s.message i).readers = 0 then Machine.queueChain i cause w else w) := by
    split
    · exact hw.queueChain i cause
    · exact hw
  unfold Machine.releaseMessage
  dsimp only
  refine hmid _ ?_
  split
  · exact ((h.updateMessage _ _).setPlaces _ _).setList _ _
  · split
    · exact (h.updateMessage _ _).setPlaces _ _
    · exact h.updateMessage _ _

end Sys2Proof.Machine
end

section
/-! PROOFS. The store orders that move or delete a message (2.11). -/

namespace Sys2Proof.Machine

/-! ### The state in which a taken order acts -/

/-- The state in which the order of a take read acts (R175). -/
def State.acting (s : State) (slot : Nat) (copy : List Byte) : State := (takeReturn Source.isTake s).atAct slot copy

theorem acting_store (s : State) (slot : Nat) (copy : List Byte) : (s.acting slot copy).store = s.store := rfl
theorem acting_lamp (s : State) (slot : Nat) (copy : List Byte) : (s.acting slot copy).lamp = s.lamp := rfl
theorem acting_rating (s : State) (slot : Nat) (copy : List Byte) : (s.acting slot copy).rating = s.rating := rfl
theorem acting_voice (s : State) (slot : Nat) (copy : List Byte) : (s.acting slot copy).voice = s.voice := rfl
theorem acting_host (s : State) (slot : Nat) (copy : List Byte) : (s.acting slot copy).host = s.host := rfl
theorem acting_control (s : State) (slot : Nat) (copy : List Byte) : (s.acting slot copy).control = s.control := rfl
theorem acting_time (s : State) (slot : Nat) (copy : List Byte) : (s.acting slot copy).time = s.time := rfl
theorem acting_lines (s : State) (slot : Nat) (copy : List Byte) :
    (s.acting slot copy).arbiter.lines = s.arbiter.lines := rfl
theorem acting_message (s : State) (slot : Nat) (copy : List Byte) (i : Nat) :
    (s.acting slot copy).message i = s.message i := rfl
theorem acting_mailbox (s : State) (slot : Nat) (copy : List Byte) (r : Nat) :
    (s.acting slot copy).mailbox r = s.mailbox r := rfl
theorem acting_lampOf (s : State) (slot : Nat) (copy : List Byte) (r : Nat) :
    (s.acting slot copy).lampOf r = s.lampOf r := rfl

theorem acting_mute {s : State} (ho : s.out = {}) (slot : Nat) (copy : List Byte) : Mute slot (s.acting slot copy) := by
  have hr : (s.acting slot copy).out.requests = s.out.requests ++ [executingWrite s slot copy] := rfl
  intro r hm
  rw [hr, ho] at hm
  rw [List.mem_singleton.mp hm]
  exact Source.noConfusion

theorem acting_raised (s : State) (slot : Nat) (copy : List Byte) :
    Raised (executingWrite s slot copy) (s.acting slot copy) := atAct_raised (takeReturn Source.isTake s) slot copy

/-- What every order but CLOCK SET, not refused and with its places granted, does at its take (R175, R178). -/
theorem order_acts {s : State} {o : Order} {slot : Nat} {copy : List Byte} (h : s.takesNow o slot copy) (hc : o ≠ .clockSet) :
    ∃ t e, exec o.row s = .next t ∧ sameOuter s t ∧ OrderTaken s t slot copy ∧
      t = finish (nextSlot (orderAct o slot copy (s.acting slot copy))) ∧
      (s.acting slot copy).entryOf slot = some e ∧ e.copy = copy ∧ e.stage = .executing := by
  obtain ⟨t, hx, houter, htaken, -, -⟩ := order_taken_base h hc
  obtain ⟨ho, ht, ⟨e, he⟩, href, hg⟩ := h
  obtain ⟨r, htaking, hret, hdata, hposted, hcopy⟩ := takeOf_spec ht
  have hp : (takeReturn Source.isTake s).placesOf copy = orderPlaces o copy s := by
    unfold State.placesOf
    rw [hcopy]
    dsimp only
    rw [show orderRefusal o copy (takeReturn Source.isTake s) = none from href]
    rfl
  have hact : takeOrder slot copy (takeReturn Source.isTake s) = nextSlot (orderAct o slot copy (s.acting slot copy)) := by
    unfold takeOrder
    dsimp only
    rw [hp, if_pos (show (takeReturn Source.isTake s).grantsAtOnce (orderPlaces o copy s) = true from hg), completeTake_eq,
      actOnCopy_acts hcopy (show orderRefusal o copy ((takeReturn Source.isTake s).atAct slot copy) = none from href)]
    rfl
  have hstep : exec o.row s = .next (taken (fun t => takeOrder slot copy (takeReturn Source.isTake t)) s) := by
    rw [exec_row]
    unfold stepOrder
    rw [ht]
  have hfinish : taken (fun t => takeOrder slot copy (takeReturn Source.isTake t)) s =
      finish (nextSlot (orderAct o slot copy (s.acting slot copy))) := by
    unfold taken
    dsimp only
    rw [beginStep_eq ho, hact]
  refine ⟨t, _, hx, houter, htaken, ?_, entryOf_updateEntry (s := takeReturn Source.isTake s) _ (fun _ => rfl) he, rfl, rfl⟩
  rw [← hfinish]
  exact Host.Outcome.next.inj (hx.symm.trans hstep)

/-! ### Lists seen from the ends of a step -/

theorem ListFollows.of_right {s v t : State} {r : Nat} {p : Nat → Prop} (h : ListFollows s v r p)
    (hs : t.store = v.store) (hl : t.lamp = v.lamp) (hr : t.roomShadow r = v.roomShadow r) : ListFollows s t r p := by
  have hmail : t.mailbox r = v.mailbox r := mailbox_congr (by rw [hs]) r
  have hmessage (j) : t.message j = v.message j := message_congr (by rw [hs]) j
  have hlamp : t.lampOf r = v.lampOf r := by unfold State.lampOf; rw [hl]
  refine ⟨fun i => by rw [hmail]; exact h.members i, fun ho => ?_, fun ho n i hn => ?_, fun i hi hn => ?_, ?_,
    by rw [hs]; exact h.marked, fun hne => ?_, fun he => ?_⟩
  · rw [hmail]
    exact inPlayOrder_congr (fun j _ => by rw [hmessage]) (h.order ho)
  · rw [hmail] at hn ⊢
    rw [hmessage]
    exact h.next ho n i hn
  · rw [hmail] at hn
    rw [hmessage]
    exact h.left i hi hn
  · rw [hmail, h.counts]
    exact (countsOf_congr fun j _ => by rw [hmessage]).symm
  · rw [hlamp, tablePattern_congr hlamp hr hmail]
    exact h.computed (by rw [← hmail]; exact hne)
  · rw [hlamp]
    exact h.kept (by rw [← hmail]; exact he)

theorem ListFollows.of_left {s w t : State} {r : Nat} {p : Nat → Prop} (h : ListFollows w t r p)
    (hs : s.store = w.store) (hl : s.lamp = w.lamp) : ListFollows s t r p := by
  have hmail : s.mailbox r = w.mailbox r := mailbox_congr (by rw [hs]) r
  have hmessage (j) : w.message j = s.message j := message_congr (by rw [hs]) j
  have hlamp : s.lampOf r = w.lampOf r := by unfold State.lampOf; rw [hl]
  have horder (ho : s.inPlayOrder (s.mailbox r).list) : w.inPlayOrder (w.mailbox r).list := by
    rw [← hmail]
    exact inPlayOrder_congr (fun j _ => by rw [hmessage]) ho
  refine ⟨h.members, fun ho => h.order (horder ho), fun ho => h.next (horder ho), fun i hi => h.left i (by rw [← hmail]; exact hi),
    h.counts, h.marked, fun hne => h.computed (by rw [← hmail]; exact hne), fun he => ?_⟩
  rw [hlamp]
  exact h.kept (by rw [← hmail]; exact he)

/-! ### MESSAGE SAVE and MESSAGE MARK NEW (R39, R40) -/

/-- A handle that meets no refusal names a listed message (R33, R39 to R41). -/
theorem handle_listed {copy : List Byte} {s : State} (h : handleRefusal copy s = none) :
    (s.message (param copy 8 2)).state.listed = true := by
  unfold handleRefusal at h
  dsimp only at h
  split at h
  · cases h
  · split at h
    · cases h
    next hfree =>
      split at h
      · cases h
      next hdel =>
        split at h
        · cases h
        next hrec =>
          cases hst : (s.message (param copy 8 2)).state <;> simp_all [MessageState.listed]

/-- What MESSAGE SAVE and MESSAGE MARK NEW do, said once (R39, R40). -/
theorem moveOrder_eq {o : Order} {goal : MessageState} {s : State} {slot : Nat} {copy : List Byte} {m : Message}
    (ho : (o, goal) ∈ [(Order.messageSave, MessageState.saved), (.messageMarkNew, .new)])
    (hm : s.message (param copy 8 2) = m) (hl : m.state.listed = true) :
    orderAct o slot copy s = completeOrder slot .done false (le 1 m.state.code)
      (if m.state = goal then s else moveMessage (param copy 8 2) goal s) := by
  subst hm
  simp only [List.mem_cons, Prod.mk.injEq, List.not_mem_nil, or_false] at ho
  obtain ⟨rfl, rfl⟩ | ⟨rfl, rfl⟩ := ho
  · show messageSaveAct slot copy s = _
    unfold messageSaveAct
    cases hst : (s.message (param copy 8 2)).state <;> simp_all [MessageState.listed]
  · show messageMarkNewAct slot copy s = _
    unfold messageMarkNewAct
    cases hst : (s.message (param copy 8 2)).state <;> simp_all [MessageState.listed]

/-- What an order leaves in the engines, where all that follows its work is its completion (R177). -/
theorem completed_engines (slot : Nat) (st : Status) (deferred : Bool) (res : List Byte) (v : State) :
    (nextSlot (completeOrder slot st deferred res v)).store = v.store ∧
    (nextSlot (completeOrder slot st deferred res v)).lamp = v.lamp ∧
    (nextSlot (completeOrder slot st deferred res v)).rating = v.rating ∧
    (nextSlot (completeOrder slot st deferred res v)).voice = v.voice ∧
    (nextSlot (completeOrder slot st deferred res v)).base = v.base :=
  ⟨completeOrder_store .., completeOrder_lamp .., completeOrder_rating .., completeOrder_voice .., completeOrder_base ..⟩

/-- What the end of a step shows of the engines of `u`. -/
structure EngineView (u t : State) : Prop where
  store    : t.store = u.store
  lamp     : t.lamp = u.lamp
  rating   : t.rating = u.rating
  rooms    : t.host.rooms = u.host.rooms
  channels : ∀ k, u.stillChannel k → t.channel k = u.channel k

theorem EndsAs.view {u t : State} (h : EndsAs u t) : EngineView u t :=
  ⟨h.store, h.lamp, h.rating, h.rooms, h.channels⟩

/-- Settles O53. -/
theorem saveAndMarkNewMoveTheMessage : Obligations.SaveAndMarkNewMoveTheMessage := by
  intro s slot copy o goal hin h i m
  have hc : o ≠ .clockSet := by rintro rfl; simp at hin
  have hplain : orderRefusal o copy s = handleRefusal copy s := by
    simp only [List.mem_cons, Prod.mk.injEq, List.not_mem_nil, or_false] at hin
    obtain ⟨rfl, rfl⟩ | ⟨rfl, rfl⟩ := hin <;> rfl
  have hlisted : m.state.listed = true := handle_listed (hplain.symm.trans h.2.2.2.1)
  obtain ⟨t, e, hx, houter, htaken, ht, he, hcopy, hstage⟩ := order_acts h hc
  have hact := moveOrder_eq (o := o) (goal := goal) (s := s.acting slot copy) (slot := slot) (copy := copy) (m := m) hin rfl
    hlisted
  rw [hact] at ht
  generalize hv : (if m.state = goal then s.acting slot copy else moveMessage i goal (s.acting slot copy)) = v at ht
  have hbase : v.base = (s.acting slot copy).base := by rw [← hv]; split <;> simp
  have hring : v.ring = (s.acting slot copy).ring := by rw [← hv]; split <;> simp
  have hrating : v.rating = s.rating := by rw [← hv]; split <;> simp [acting_rating]
  have hvoice : v.voice = s.voice := by rw [← hv]; split <;> simp [acting_voice]
  have hraised : Raised (executingWrite s slot copy) v := by
    rw [← hv]; split <;> simp [acting_raised s slot copy]
  have hends : EndsAs (nextSlot (completeOrder slot .done false (le 1 m.state.code) v)) t := ht ▸ finish_endsAs _
  have hview := hends.view
  obtain ⟨hst, hla, hra, hvo, hba⟩ := completed_engines slot .done false (le 1 m.state.code) v
  have hanswered : Answered s t slot copy .done false (le 1 m.state.code) :=
    answered_by hends ((profile_of_base hbase).trans rfl) (congrArg (fun b => b.2.2.2.1.lines) hbase : _) hraised
      (by unfold State.entryOf; rw [hring]; exact he) hcopy
  generalize nextSlot (completeOrder slot .done false (le 1 m.state.code) v) = u at hview hst hla hra hvo hba
  have hstore : t.store = v.store := hview.store.trans hst
  have hlamp : t.lamp = v.lamp := hview.lamp.trans hla
  have hshadow (r : Nat) : t.roomShadow r = s.roomShadow r := by
    unfold State.roomShadow
    rw [hview.rooms, show u.host = s.host from (host_of_base hba).trans ((host_of_base hbase).trans rfl)]
  have hchannels (k : Nat) (hk : s.stillChannel k) : t.channel k = s.channel k := by
    have hu : u.channel k = s.channel k := channel_congr (hvo.trans hvoice) k
    rw [hview.channels k (hk.of_eq hu), hu]
  refine ⟨t, hx, houter, htaken, ?_⟩
  by_cases hg : m.state = goal
  · rw [if_pos hg] at hv
    have hs : t.store = s.store := by rw [hstore, ← hv]; rfl
    have hl : t.lamp = s.lamp := by rw [hlamp, ← hv]; rfl
    have hmessage (j) : t.message j = s.message j := message_congr (by rw [hs]) j
    have hmail (q) : t.mailbox q = s.mailbox q := mailbox_congr (by rw [hs]) q
    have hlampOf (q) : t.lampOf q = s.lampOf q := by unfold State.lampOf; rw [hl]
    exact ⟨by rw [hmessage]; exact hg, by rw [hmessage], by rw [hmessage], fun _ => ⟨hs, hl⟩, fun hne => absurd hg hne,
      by rw [hmail], fun j _ => by rw [hmessage], hanswered, hview.rating.trans (hra.trans hrating),
      fun q _ => ⟨hmail q, hlampOf q⟩, hchannels⟩
  · rw [if_neg hg] at hv
    obtain ⟨hfollows, hcore, hothers, hplaces, hrooms⟩ := moveMessage_follows (s := s.acting slot copy) (i := i) (m := m) rfl goal
    rw [hv] at hfollows hcore hothers hplaces hrooms
    have hmessage (j) : t.message j = v.message j := message_congr (by rw [hstore]) j
    have hmail (q) : t.mailbox q = v.mailbox q := mailbox_congr (by rw [hstore]) q
    have hlampOf (q) : t.lampOf q = v.lampOf q := by unfold State.lampOf; rw [hlamp]
    have hvshadow : t.roomShadow m.room = v.roomShadow m.room := by
      rw [hshadow]
      unfold State.roomShadow
      rw [show v.host = s.host from (host_of_base hbase).trans rfl]
    have hfield {α : Type} (f : Message → α) (hf : ∀ x : Message, f x = f x.core) :
        f (t.message i) = f { m.core with state := goal } := by
      rw [hf, hmessage, hcore]
    refine ⟨hfield Message.state fun _ => rfl, hfield Message.urgent fun _ => rfl, hfield Message.generation fun _ => rfl,
      fun h => absurd h hg, fun _ => (hfollows.of_right hstore hlamp hvshadow).of_left rfl rfl, ?_, fun j hj => ?_, hanswered,
      hview.rating.trans (hra.trans hrating), fun q hq => ?_, hchannels⟩
    · rw [hmail]
      exact hplaces
    · rw [hmessage]
      exact Message.core_state (hothers j hj)
    · rw [hmail, hlampOf]
      exact hrooms q hq

end Sys2Proof.Machine
end

section
/-! PROOFS. Messages released (2.10): one listed message, several of one room; MESSAGE DELETE and MAILBOX PURGE. -/

namespace Sys2Proof.Machine

/-! ### One message (R37) -/

theorem freeRecord_message (i : Nat) (s : State) (j : Nat) :
    (freeRecord i s).message j =
      if j = i then { s.message i with state := .free, next := none16 } else s.message j := by
  rw [← updateMessage_message]
  unfold freeRecord
  dsimp only
  split <;> rfl

/-- The chain of a message joins the release queue, or the message is FREE (R37, step 2). -/
theorem queueChain_message (i : Nat) (cause : Cause) (s : State) (j : Nat) :
    (queueChain i cause s).message j =
      if j = i ∧ (s.message i).blocks = 0 then { s.message i with state := .free, next := none16 } else s.message j := by
  by_cases hb : 0 < (s.message i).blocks
  · rw [(queueChain_chain rfl cause hb).1, if_neg fun h => by omega]
  · have he : queueChain i cause s = freeRecord i s := by
      unfold queueChain
      dsimp only
      rw [if_neg hb]
    rw [he, freeRecord_message]
    by_cases hj : j = i
    · rw [if_pos hj, if_pos ⟨hj, by omega⟩]
    · rw [if_neg hj, if_neg fun h => hj h.1]

/-- The end of the release of a message whose list has been seen to (R37, step 2). -/
def endRelease (i : Nat) (m : Message) (cause : Cause) (v : State) : State :=
  if m.readers = 0 then queueChain i cause v else v

theorem endRelease_rest (i : Nat) (m : Message) (cause : Cause) (v : State) :
    (∀ q, (endRelease i m cause v).mailbox q = v.mailbox q) ∧ (endRelease i m cause v).lamp = v.lamp ∧
    (endRelease i m cause v).store.marks = v.store.marks ∧ (endRelease i m cause v).base = v.base := by
  obtain ⟨-, -, hmail, hmarks, -, -⟩ := queueChain_spec i cause v
  unfold endRelease
  split
  · exact ⟨hmail, queueChain_lamp .., hmarks, queueChain_base ..⟩
  · exact ⟨fun _ => rfl, rfl, rfl, rfl⟩

theorem endRelease_message (i : Nat) (m : Message) (cause : Cause) (v : State) (j : Nat) :
    (endRelease i m cause v).message j =
      if m.readers = 0 ∧ j = i ∧ (v.message i).blocks = 0 then { v.message i with state := .free, next := none16 }
      else v.message j := by
  unfold endRelease
  split
  next hr => rw [queueChain_message]; simp [hr]
  next hr => simp [hr]

/-- The state in which a listed message has left its room's list (R37, step 1). -/
def unlist (i : Nat) (m : Message) (s : State) : State :=
  setList m.room ((s.mailbox m.room).list.filter fun j => j ≠ i)
    (setPlaces m.room ((s.mailbox m.room).places - 1) (updateMessage i { m with state := .deleting } s))

theorem releaseListed_eq {s : State} {i : Nat} {m : Message} (hm : s.message i = m) (cause : Cause)
    (hl : m.state.listed = true) : releaseMessage i cause s = endRelease i m cause (unlist i m s) := by
  subst hm
  unfold releaseMessage endRelease unlist
  dsimp only
  rw [if_pos hl, updateMessage_mailbox]

/-- A message that is neither listed nor recording has no place in a room (R37). -/
theorem releaseUnlisted_eq {s : State} {i : Nat} {m : Message} (hm : s.message i = m) (cause : Cause)
    (hl : m.state.listed = false) (hr : m.state ≠ .recording) :
    releaseMessage i cause s = endRelease i m cause (updateMessage i { m with state := .deleting } s) := by
  subst hm
  unfold releaseMessage endRelease
  dsimp only
  rw [if_neg (c := (s.message i).state.listed = true) (by rw [hl]; decide), if_neg hr]

/-- The state before the list of the released message is changed. -/
theorem unlisting_view (s : State) (i : Nat) (m : Message) :
    let u := setPlaces m.room ((s.mailbox m.room).places - 1) (updateMessage i { m with state := .deleting } s)
    (∀ j, u.message j = if j = i then { m with state := .deleting } else s.message j) ∧
    (∀ q, u.mailbox q =
      if q = m.room then { s.mailbox m.room with places := (s.mailbox m.room).places - 1 } else s.mailbox q) ∧
    u.lamp = s.lamp ∧ u.base = s.base := by
  refine ⟨fun j => ?_, fun q => ?_, ?_, ?_⟩
  · rw [setPlaces_message, updateMessage_message]
  · rw [setPlaces_mailbox, updateMessage_mailbox, updateMessage_mailbox]
  · rw [setPlaces_lamp, updateMessage_lamp]
  · exact (setPlaces_base ..).trans (updateMessage_base ..)

/-- A listed message leaves its room's list (R34, R36, R37). -/
theorem releaseListed_follows {s : State} {i : Nat} {m : Message} (hm : s.message i = m) (cause : Cause)
    (hl : m.state.listed = true) :
    ListFollows s (releaseMessage i cause s) m.room (fun j => j ≠ i ∧ j ∈ (s.mailbox m.room).list) ∧
    (∀ j, j ∉ (s.mailbox m.room).list → j ≠ i → (releaseMessage i cause s).message j = s.message j) ∧
    (∀ q, q ≠ m.room → (releaseMessage i cause s).lampOf q = s.lampOf q) := by
  obtain ⟨hmessage, hmail, hlamp, hbase⟩ := unlisting_view s i m
  rw [releaseListed_eq hm cause hl]
  unfold unlist
  generalize setPlaces m.room ((s.mailbox m.room).places - 1) (updateMessage i { m with state := .deleting } s) = u at *
  generalize hlist : (s.mailbox m.room).list.filter (fun j => decide (j ≠ i)) = list
  have hrel := setList_relisted m.room list u
  have hvbase := setList_base m.room list u
  generalize setList m.room list u = v at *
  obtain ⟨hemail, helamp, hemarks, hebase⟩ := endRelease_rest i m cause v
  have hemessage := endRelease_message i m cause v
  generalize endRelease i m cause v = w at *
  have humail : u.mailbox m.room = { s.mailbox m.room with places := (s.mailbox m.room).places - 1 } := by
    rw [hmail, if_pos rfl]
  have hmem (j : Nat) : j ∈ list ↔ j ≠ i ∧ j ∈ (s.mailbox m.room).list := by
    rw [← hlist]; simp [and_comm]
  have hul (q : Nat) : u.lampOf q = s.lampOf q := by unfold State.lampOf; rw [hlamp]
  have hwl (q : Nat) : w.lampOf q = v.lampOf q := by unfold State.lampOf; rw [helamp]
  have hshadow : w.roomShadow m.room = v.roomShadow m.room := by unfold State.roomShadow; rw [host_of_base hebase]
  have hkept (j : Nat) (hj : j ≠ i) : w.message j = v.message j := by
    rw [hemessage, if_neg fun h => hj h.2.1]
  refine ⟨hrel.follows (by rw [humail]) (by rw [humail]; rfl) (hul _) hmem (fun ho => ?_)
    (fun j hj => hkept j ((hmem j).mp hj).1) (fun j hj hnj => ?_)
    ⟨by rw [hemail], by rw [hemail], tablePattern_congr (hwl _) hshadow (hemail _)⟩ (by rw [hemarks]; exact id) (hwl _),
    fun j hj hji => ?_, fun q hq => by rw [hwl, hrel.lamps q hq, hul]⟩
  · rw [← hlist]
    refine inPlayOrder_congr (fun j hj => ?_) (List.Pairwise.filter _ ho)
    rw [hmessage, if_neg (by simpa using (List.mem_filter.mp hj).2)]
  · obtain rfl : j = i := by
      by_contra hji
      exact hnj ((hmem j).mpr ⟨hji, hj⟩)
    rw [hemessage]
    split
    next =>
      rw [hrel.message, if_pos (List.mem_append_left _ (by rw [humail]; exact hj))]
      exact (successor_of_not_mem hnj).symm
    next => rfl
  · rw [hkept j hji, hrel.message, if_neg, hmessage, if_neg hji]
    rw [humail, List.mem_append, not_or]
    exact ⟨hj, fun h => hj ((hmem j).mp h).2⟩

/-! ### MESSAGE DELETE (R41) -/

/-- What stays of the engines beside the store and the lamps as an order goes on or is complete (R177). -/
structure OrderRest (s u t : State) : Prop where
  outer    : t = finish u
  rating   : u.rating = s.rating
  voice    : u.voice = s.voice
  host     : u.host = s.host
  lines    : u.arbiter.lines = s.arbiter.lines
  profile  : u.profile = s.profile

theorem OrderRest.channels {s u t : State} (h : OrderRest s u t) (k : Nat) (hk : s.stillChannel k) :
    t.channel k = s.channel k := by
  have hu : u.channel k = s.channel k := channel_congr h.voice k
  rw [h.outer, (finish_endsAs u).channels k (hk.of_eq hu), hu]

theorem OrderRest.ratings {s u t : State} (h : OrderRest s u t) : t.rating = s.rating := by
  rw [h.outer, (finish_endsAs u).rating, h.rating]

theorem OrderRest.shadow {s u t : State} (h : OrderRest s u t) (r : Nat) : t.roomShadow r = s.roomShadow r := by
  rw [h.outer, (finish_endsAs u).roomShadow]
  unfold State.roomShadow
  rw [h.host]

/-- The effect of a taken order keeps base, ring, rating and channels of the state it acts in. -/
structure Keeping (s v : State) (slot : Nat) (copy : List Byte) : Prop where
  base   : v.base = (s.acting slot copy).base
  ring   : v.ring = (s.acting slot copy).ring
  rating : v.rating = s.rating
  voice  : v.voice = s.voice
  raised : Raised (executingWrite s slot copy) v

section
variable {s v t : State} {slot : Nat} {copy : List Byte} {e : InFlight} (h : Keeping s v slot copy)
  (he : (s.acting slot copy).entryOf slot = some e)
include h

theorem Keeping.host : v.host = s.host := (host_of_base h.base).trans rfl
theorem Keeping.profile : v.profile = s.profile := (profile_of_base h.base).trans rfl
theorem Keeping.lines : v.arbiter.lines = s.arbiter.lines := by
  have hl := congrArg (fun b => b.2.2.2.1.lines) h.base
  exact hl

/-- An order that is complete with that effect (R177). -/
theorem Keeping.completed {st : Status} {deferred : Bool} {res : List Byte}
    (ht : t = finish (nextSlot (completeOrder slot st deferred res v))) :
    t.store = v.store ∧ t.lamp = v.lamp ∧ OrderRest s (nextSlot (completeOrder slot st deferred res v)) t := by
  obtain ⟨hst, hla, hra, hvo, hba⟩ := completed_engines slot st deferred res v
  have hends := finish_endsAs (nextSlot (completeOrder slot st deferred res v))
  rw [← ht] at hends
  have hlines := congrArg (fun b => b.2.2.2.1.lines) hba
  exact ⟨hends.store.trans hst, hends.lamp.trans hla, ht, hra.trans h.rating, hvo.trans h.voice,
    (host_of_base hba).trans h.host, hlines.trans h.lines, (profile_of_base hba).trans h.profile⟩

include he

theorem Keeping.entry : v.entryOf slot = some e := by
  unfold State.entryOf
  rw [h.ring]
  exact he

theorem Keeping.answered {st : Status} {deferred : Bool} {res : List Byte} (hc : e.copy = copy)
    (ht : t = finish (nextSlot (completeOrder slot st deferred res v))) : Answered s t slot copy st deferred res := by
  rw [ht]
  exact answered_by (finish_endsAs _) h.profile h.lines h.raised (h.entry he) hc

/-- An order that is held with that effect (R143, R177). -/
theorem Keeping.held {left : Nat} {deferred : Bool} {res : List Byte} (hm : Mute slot v) (hs : e.stage = .executing)
    (ht : t = finish (nextSlot (holdOrder slot left deferred res v))) :
    t.store = v.store ∧ t.lamp = v.lamp ∧ OrderRest s (nextSlot (holdOrder slot left deferred res v)) t ∧
      Unanswered s t slot ∧ t.entryOf slot = some { e with left := left, deferred := deferred, result := res } := by
  have hends := finish_endsAs (nextSlot (holdOrder slot left deferred res v))
  rw [← ht] at hends
  have hentry : (nextSlot (holdOrder slot left deferred res v)).entryOf slot =
      some { e with left := left, deferred := deferred, result := res } :=
    entryOf_updateEntry (s := v) (fun e => { e with left := left, deferred := deferred, result := res }) (fun _ => rfl)
      (h.entry he)
  refine ⟨hends.store, hends.lamp, ⟨ht, h.rating, h.voice, h.host, h.lines, h.profile⟩,
    unanswered_of ht (hm.of_out rfl) h.lines hentry hs, ?_⟩
  unfold State.entryOf
  rw [hends.ring]
  exact hentry

end

/-- Settles O54. -/
theorem messageDeleteReleasesTheMessage : Obligations.MessageDeleteReleasesTheMessage := by
  intro s slot copy h i m
  have hlisted : m.state.listed = true := handle_listed (s := s) h.2.2.2.1
  obtain ⟨t, e, hx, houter, htaken, ht, he, hcopy, hstage⟩ := order_acts h (by decide)
  obtain ⟨hfollows, -, hlamps⟩ := releaseListed_follows (s := s.acting slot copy) (i := i) (m := m) rfl (.order slot) hlisted
  obtain ⟨hcore, hothers, hrooms, -, hplaces, hqueue, -, -, -⟩ := releaseMessage_spec i (.order slot) (s.acting slot copy)
  have hmute := (acting_mute h.1 slot copy).releaseMessage i (.order slot)
  have hact : orderAct .messageDelete slot copy (s.acting slot copy) =
      if m.readers > 0 then completeOrder slot .done true (le 4 m.blocks) (releaseMessage i (.order slot) (s.acting slot copy))
      else if m.blocks = 0 then
        completeOrder slot .done false (le 4 m.blocks) (releaseMessage i (.order slot) (s.acting slot copy))
      else holdOrder slot 1 false (le 4 m.blocks) (releaseMessage i (.order slot) (s.acting slot copy)) := rfl
  have hkeep : Keeping s (releaseMessage i (.order slot) (s.acting slot copy)) slot copy :=
    ⟨releaseMessage_base .., releaseMessage_ring .., releaseMessage_rating .., releaseMessage_voice ..,
      releaseMessage_raised _ _ _ (acting_raised s slot copy)⟩
  rw [hact] at ht
  generalize releaseMessage i (.order slot) (s.acting slot copy) = v at hfollows hlamps hcore hothers hrooms hplaces hqueue hmute hkeep ht
  obtain ⟨⟨hstore, hlamp, u, hrest⟩, hheld, hdeferred, hdone⟩ :
      (t.store = v.store ∧ t.lamp = v.lamp ∧ ∃ u, OrderRest s u t) ∧
      (m.readers = 0 → 0 < m.blocks → Unanswered s t slot) ∧
      (0 < m.readers → Answered s t slot copy .done true (le 4 m.blocks)) ∧
      (m.readers = 0 → m.blocks = 0 → Answered s t slot copy .done false (le 4 m.blocks)) := by
    by_cases hr : m.readers > 0
    · rw [if_pos hr] at ht
      obtain ⟨hst, hla, hre⟩ := hkeep.completed ht
      exact ⟨⟨hst, hla, _, hre⟩, fun h0 => by omega, fun _ => hkeep.answered he hcopy ht, fun h0 => by omega⟩
    · rw [if_neg hr] at ht
      by_cases hb : m.blocks = 0
      · rw [if_pos hb] at ht
        obtain ⟨hst, hla, hre⟩ := hkeep.completed ht
        exact ⟨⟨hst, hla, _, hre⟩, fun _ h0 => by omega, fun h0 => by omega, fun _ _ => hkeep.answered he hcopy ht⟩
      · rw [if_neg hb] at ht
        obtain ⟨hst, hla, hre, hun, -⟩ := hkeep.held he hmute hstage ht
        exact ⟨⟨hst, hla, _, hre⟩, fun _ _ => hun, fun h0 => by omega, fun _ h0 => absurd h0 hb⟩
  have hmessage (j) : t.message j = v.message j := message_congr (by rw [hstore]) j
  have hmail (q) : t.mailbox q = v.mailbox q := mailbox_congr (by rw [hstore]) q
  have hlampOf (q) : t.lampOf q = v.lampOf q := by unfold State.lampOf; rw [hlamp]
  have hvshadow : t.roomShadow m.room = v.roomShadow m.room := by
    rw [hrest.shadow]
    unfold State.roomShadow
    rw [hkeep.host]
  have hstate : (t.message i).state = if m.readers = 0 ∧ m.blocks = 0 then .free else .deleting := by
    rw [hmessage]
    exact congrArg Message.state hcore
  refine ⟨t, hx, houter, htaken, (hfollows.of_right hstore hlamp hvshadow).of_left rfl rfl, ?_, hrest.ratings,
    fun j hj => ?_, fun q hq => ?_, hrest.channels, fun hr hb => ⟨?_, ?_, hheld hr hb⟩, fun hr => ⟨?_, ?_, hdeferred hr⟩,
    fun hr hb => ⟨?_, hdone hr hb⟩⟩
  · rw [hmail]
    exact hplaces.trans (if_pos (.inl hlisted))
  · rw [hmessage]
    exact Message.core_state (hothers j hj)
  · rw [hmail, hlampOf]
    exact ⟨hrooms q hq, hlamps q hq⟩
  · rw [hstate, if_neg (by omega)]
  · rw [hstore, hqueue]
    exact if_pos ⟨hr, hb⟩
  · rw [hstate, if_neg (by omega)]
  · rw [hstore, hqueue]
    exact if_neg fun h => absurd h.1 (by show ¬ m.readers = 0; omega)
  · rw [hstate, if_pos ⟨hr, hb⟩]

/-! ### Several messages of one room (R42, R78) -/

/-- What follows a room's list from a first change on, whatever further messages leave it (R34, R36, R90). -/
structure ListTrails (s t : State) (r : Nat) : Prop where
  order    : s.inPlayOrder (s.mailbox r).list → t.inPlayOrder (t.mailbox r).list
  next     : s.inPlayOrder (s.mailbox r).list → ∀ n i, (t.mailbox r).list[n]? = some i →
    (t.message i).next = (t.mailbox r).list.getD (n + 1) 0xFFFF
  left     : ∀ i ∈ (s.mailbox r).list, i ∉ (t.mailbox r).list → (t.message i).next = 0xFFFF
  counts   : (t.mailbox r).counts = t.countsOf (t.mailbox r).list
  marked   : r ∈ t.store.marks
  computed : (t.mailbox r).counts ≠ (s.mailbox r).counts → (t.lampOf r).pattern = t.tablePattern r

theorem ListFollows.trails {s t : State} {r : Nat} {p : Nat → Prop} (h : ListFollows s t r p) : ListTrails s t r :=
  ⟨h.order, h.next, h.left, h.counts, h.marked, h.computed⟩

/-- R90 looks at the counts of a summary, and at no other part of it. -/
theorem tablePattern_counts {s t : State} {r : Nat} (hl : t.lampOf r = s.lampOf r) (hs : t.roomShadow r = s.roomShadow r)
    (hm : (t.mailbox r).counts = (s.mailbox r).counts) : t.tablePattern r = s.tablePattern r := by
  have hnew : (t.mailbox r).newCount = (s.mailbox r).newCount := congrArg (fun c => c.1) hm
  have hurgent : (t.mailbox r).urgentNew = (s.mailbox r).urgentNew := congrArg (fun c => c.2.1) hm
  rw [tablePattern_eq, tablePattern_eq]
  unfold State.patternOf State.occupied effectivePattern
  rw [hl, hs, hnew, hurgent]

theorem releaseMessage_shadow (i : Nat) (cause : Cause) (s : State) (r : Nat) :
    (releaseMessage i cause s).roomShadow r = s.roomShadow r := by
  unfold State.roomShadow
  rw [host_of_base (releaseMessage_base i cause s)]

/-- A further message leaves the list (R37). -/
theorem ListTrails.release {s u : State} {r i : Nat} (h : ListTrails s u r) (cause : Cause) (hroom : (u.message i).room = r)
    (hl : (u.message i).state.listed = true) (hin : i ∈ (u.mailbox r).list) : ListTrails s (releaseMessage i cause u) r := by
  subst hroom
  obtain ⟨hf, hothers, -⟩ := releaseListed_follows (s := u) (i := i) rfl cause hl
  have hshadow := releaseMessage_shadow i cause u (u.message i).room
  generalize releaseMessage i cause u = w at *
  refine ⟨fun ho => hf.order (h.order ho), fun ho => hf.next (h.order ho), fun j hj hn => ?_, hf.counts, hf.marked,
    fun hne => ?_⟩
  · by_cases hju : j ∈ (u.mailbox (u.message i).room).list
    · exact hf.left j hju hn
    · rw [hothers j hju fun hji => hju (hji ▸ hin)]
      exact h.left j hj hju
  · by_cases hsame : (w.mailbox (u.message i).room).counts = (u.mailbox (u.message i).room).counts
    · have hlamp := hf.kept hsame
      rw [hlamp, tablePattern_counts hlamp hshadow hsame]
      exact h.computed (by rw [← hsame]; exact hne)
    · exact hf.computed hsame

/-- A message that stands in no list is released: lists and lamps stay (R37). -/
theorem releaseUnlisted_rest {s : State} {i : Nat} (cause : Cause) (hl : (s.message i).state.listed = false)
    (hr : (s.message i).state ≠ .recording) :
    (∀ q, (releaseMessage i cause s).mailbox q = s.mailbox q) ∧ (releaseMessage i cause s).lamp = s.lamp ∧
    (∀ j, j ≠ i → (releaseMessage i cause s).message j = s.message j) ∧
    (((releaseMessage i cause s).message i).next = (s.message i).next ∨
      ((releaseMessage i cause s).message i).next = 0xFFFF) ∧
    (releaseMessage i cause s).store.marks = s.store.marks := by
  rw [releaseUnlisted_eq rfl cause hl hr]
  have hmessage := updateMessage_message i { s.message i with state := .deleting } s
  have hmail := updateMessage_mailbox i { s.message i with state := .deleting } s
  have hlamp := updateMessage_lamp i { s.message i with state := .deleting } s
  have hmarks := updateMessage_marks i { s.message i with state := .deleting } s
  generalize updateMessage i { s.message i with state := .deleting } s = v at *
  obtain ⟨hemail, helamp, hemarks, -⟩ := endRelease_rest i (s.message i) cause v
  have hemessage := endRelease_message i (s.message i) cause v
  refine ⟨fun q => (hemail q).trans (hmail q), helamp.trans hlamp, fun j hj => ?_, ?_, hemarks.trans hmarks⟩
  · rw [hemessage, if_neg fun h => hj h.2.1, hmessage, if_neg hj]
  · rw [hemessage]
    split
    · exact .inr rfl
    · rw [hmessage, if_pos rfl]
      exact .inl rfl

theorem ListTrails.releaseUnlisted {s u : State} {r i : Nat} (h : ListTrails s u r) (cause : Cause)
    (hl : (u.message i).state.listed = false) (hr : (u.message i).state ≠ .recording) (hin : i ∉ (u.mailbox r).list) :
    ListTrails s (releaseMessage i cause u) r := by
  obtain ⟨hmail, hlamp, hothers, hnext, hmarks⟩ := releaseUnlisted_rest cause hl hr
  have hshadow := releaseMessage_shadow i cause u r
  generalize releaseMessage i cause u = w at *
  have hlampOf : w.lampOf r = u.lampOf r := by unfold State.lampOf; rw [hlamp]
  have hkept (j : Nat) (hj : j ∈ (u.mailbox r).list) : w.message j = u.message j :=
    hothers j fun hji => hin (hji ▸ hj)
  refine ⟨fun ho => ?_, fun ho n j hn => ?_, fun j hj hn => ?_, ?_, by rw [hmarks]; exact h.marked, fun hne => ?_⟩
  · rw [hmail]
    exact inPlayOrder_congr (fun j hj => by rw [hkept j hj]) (h.order ho)
  · rw [hmail] at hn ⊢
    rw [hkept j (List.mem_of_getElem? hn)]
    exact h.next ho n j hn
  · rw [hmail] at hn
    by_cases hji : j = i
    · subst hji
      obtain he | he := hnext
      · rw [he]; exact h.left j hj hn
      · exact he
    · rw [hothers j hji]
      exact h.left j hj hn
  · rw [hmail, h.counts]
    exact (countsOf_congr fun j hj => by rw [hkept j hj]).symm
  · rw [hlampOf, tablePattern_counts hlampOf hshadow (by rw [hmail])]
    exact h.computed (by rw [← hmail]; exact hne)

/-- The message is in the room's list, or released before (R42). -/
def State.releasable (s : State) (r i : Nat) : Prop :=
  (s.message i).room = r ∧ ((s.message i).state.listed = true ∧ i ∈ (s.mailbox r).list ∨
    ((s.message i).state = .deleting ∨ (s.message i).state = .free) ∧ i ∉ (s.mailbox r).list)

theorem State.releasable.listed_or {s : State} {r i : Nat} (h : s.releasable r i) :
    (s.message i).room = r ∧ ((s.message i).state.listed = true ∨ i ∉ (s.mailbox r).list) := by
  obtain ⟨hr, ⟨hl, -⟩ | ⟨-, hn⟩⟩ := h
  · exact ⟨hr, .inl hl⟩
  · exact ⟨hr, .inr hn⟩

/-- One release leaves the others to be released as they were. -/
theorem releaseMessage_releasable {s : State} {r i j : Nat} (cause : Cause) (hi : s.releasable r i) (hj : s.releasable r j) :
    (releaseMessage i cause s).releasable r j := by
  obtain ⟨hothers, hreleased, -, hlist⟩ := releases_spec cause r [i] s fun k hk => by
    rw [List.mem_singleton.mp hk]; exact hi.listed_or
  have hcore := (releaseMessage_spec i cause s).1
  simp only [List.foldl_cons, List.foldl_nil, List.mem_singleton] at hothers hreleased hlist
  generalize releaseMessage i cause s = w at *
  by_cases hji : j = i
  · subst hji
    refine ⟨(congrArg Message.room hcore : _).trans hj.1, .inr ⟨hreleased j rfl, ?_⟩⟩
    rw [hlist]
    simp
  · have hc := hothers j hji
    refine ⟨(Message.core_room hc).trans hj.1, ?_⟩
    rw [Message.core_state hc, hlist]
    obtain ⟨-, ⟨hl, hin⟩ | ⟨hs, hn⟩⟩ := hj
    · exact .inl ⟨hl, List.mem_filter.mpr ⟨hin, by simpa using hji⟩⟩
    · exact .inr ⟨hs, fun h => hn (List.mem_filter.mp h).1⟩

theorem ListTrails.releaseOne {s u : State} {r i : Nat} (h : ListTrails s u r) (cause : Cause) (hi : u.releasable r i) :
    ListTrails s (releaseMessage i cause u) r := by
  obtain ⟨hr, ⟨hl, hin⟩ | ⟨hs, hn⟩⟩ := hi
  · exact h.release cause hr hl hin
  · have hst : (u.message i).state.listed = false ∧ (u.message i).state ≠ .recording := by
      obtain hs | hs := hs <;> rw [hs] <;> exact ⟨rfl, by decide⟩
    exact h.releaseUnlisted cause hst.1 hst.2 hn

theorem ListTrails.releases {s u : State} {r : Nat} (cause : Cause) (l : List Nat) (h : ListTrails s u r)
    (hl : ∀ i ∈ l, u.releasable r i) : ListTrails s (l.foldl (fun t i => releaseMessage i cause t) u) r := by
  induction l generalizing u with
  | nil => exact h
  | cons i l ih =>
    have hi := hl i List.mem_cons_self
    exact ih (h.releaseOne cause hi) fun j hj =>
      releaseMessage_releasable cause hi (hl j (List.mem_cons_of_mem _ hj))

theorem releases_lamps (cause : Cause) (r : Nat) (l : List Nat) (s : State) (hl : ∀ i ∈ l, s.releasable r i) (q : Nat)
    (hq : q ≠ r) : (l.foldl (fun t i => releaseMessage i cause t) s).lampOf q = s.lampOf q := by
  induction l generalizing s with
  | nil => rfl
  | cons i l ih =>
    have hi := hl i List.mem_cons_self
    rw [List.foldl_cons, ih _ fun j hj => releaseMessage_releasable cause hi (hl j (List.mem_cons_of_mem _ hj))]
    obtain ⟨hr, ⟨hlisted, -⟩ | ⟨hs, -⟩⟩ := hi
    · exact (releaseListed_follows rfl cause hlisted).2.2 q (hr ▸ hq)
    · have hst : (s.message i).state.listed = false ∧ (s.message i).state ≠ .recording := by
        obtain hs | hs := hs <;> rw [hs] <;> exact ⟨rfl, by decide⟩
      unfold State.lampOf
      rw [(releaseUnlisted_rest cause hst.1 hst.2).2.1]

/-- The release-queue entry of a message's chain (R26, R37). -/
def State.chainEntry (s : State) (cause : Cause) (i : Nat) : ReleaseEntry :=
  ⟨(s.message i).first, (s.message i).blocks, i, cause⟩

/-- The release of this message puts a chain into the queue (R37). -/
def State.chains (s : State) (i : Nat) : Bool :=
  decide ((s.message i).readers = 0) && decide (0 < (s.message i).blocks)

theorem releaseMessage_chain (i : Nat) (cause : Cause) (s : State) (j : Nat) :
    (releaseMessage i cause s).chains j = s.chains j ∧
    (releaseMessage i cause s).chainEntry cause j = s.chainEntry cause j := by
  obtain ⟨hi, hothers, -⟩ := releaseMessage_spec i cause s
  have hf : ∀ (f : Message → Nat), (∀ m : Message, ∀ st, f { m.core with state := st } = f m) →
      f ((releaseMessage i cause s).message j) = f (s.message j) := by
    intro f hf
    have hc (m : Message) : f m.core = f m := hf m m.state
    by_cases hj : j = i
    · rw [hj, ← hc, hi]
      exact hf _ _
    · rw [← hc, hothers j hj]
      exact hc _
  have hr := hf Message.readers fun _ _ => rfl
  have hb := hf Message.blocks fun _ _ => rfl
  have hfirst := hf Message.first fun _ _ => rfl
  unfold State.chains State.chainEntry
  rw [hr, hb, hfirst]
  exact ⟨rfl, rfl⟩

/-- The chains of the messages released join the queue in turn (R37, R42). -/
theorem releases_queue (cause : Cause) (l : List Nat) (s : State) :
    (l.foldl (fun t i => releaseMessage i cause t) s).store.releaseQueue =
      s.store.releaseQueue ++ (l.filter s.chains).map (s.chainEntry cause) := by
  induction l generalizing s with
  | nil => simp
  | cons i l ih =>
    obtain ⟨-, -, -, -, -, hqueue, -⟩ := releaseMessage_spec i cause s
    have hchains : (releaseMessage i cause s).chains = s.chains := funext fun j => (releaseMessage_chain i cause s j).1
    have hentry : (releaseMessage i cause s).chainEntry cause = s.chainEntry cause :=
      funext fun j => (releaseMessage_chain i cause s j).2
    rw [List.foldl_cons, ih, hchains, hentry, hqueue, List.filter_cons]
    by_cases hc : (s.message i).readers = 0 ∧ 0 < (s.message i).blocks
    · have hci : s.chains i = true := by unfold State.chains; simpa using hc
      rw [if_pos hc, if_pos hci, List.map_cons, List.append_assoc]
      rfl
    · have hci : ¬ s.chains i = true := by unfold State.chains; simpa using hc
      rw [if_neg hc, if_neg hci]

/-- Each listed message that is released gives its place back (R37). -/
theorem releases_places (cause : Cause) (r : Nat) (l : List Nat) (s : State) (hn : l.Nodup)
    (hl : ∀ i ∈ l, (s.message i).room = r ∧ (s.message i).state.listed = true) :
    ((l.foldl (fun t i => releaseMessage i cause t) s).mailbox r).places = (s.mailbox r).places - l.length := by
  induction l generalizing s with
  | nil => rfl
  | cons i l ih =>
    obtain ⟨hi, hn'⟩ := List.nodup_cons.mp hn
    obtain ⟨hroom, hlisted⟩ := hl i List.mem_cons_self
    obtain ⟨-, hothers, -, -, hplaces, -⟩ := releaseMessage_spec i cause s
    rw [hroom, if_pos (.inl hlisted)] at hplaces
    rw [List.foldl_cons, ih _ hn' fun j hj => ?_, hplaces, List.length_cons]
    · omega
    · have hji : j ≠ i := fun he => hi (he ▸ hj)
      have hc := hothers j hji
      rw [Message.core_room hc, Message.core_state hc]
      exact hl j (List.mem_cons_of_mem _ hj)

/-- The counts of a list of listed messages add up to its length (R34). -/
theorem countsOf_total {s : State} {list : List Nat} (h : ∀ i ∈ list, (s.message i).state.listed = true) :
    (s.countsOf list).1 + (s.countsOf list).2.2.1 + (s.countsOf list).2.2.2 = list.length := by
  unfold State.countsOf
  dsimp only
  induction list with
  | nil => rfl
  | cons i l ih =>
    have hi := h i List.mem_cons_self
    have hl := ih fun j hj => h j (List.mem_cons_of_mem _ hj)
    simp only [List.filter_cons]
    cases hst : (s.message i).state with
    | new | heard | saved => simp at hl ⊢; omega
    | free | recording | deleting => rw [hst] at hi; cases hi

/-- MAILBOX PURGE, and every release of listed messages of one room: what follows its list (R42, R78). -/
theorem releases_follow {s : State} {r : Nat} {l : List Nat} (cause : Cause) (hne : l ≠ [])
    (hin : ∀ i ∈ (s.mailbox r).list, (s.message i).room = r ∧ (s.message i).state.listed = true)
    (hsub : ∀ i ∈ l, i ∈ (s.mailbox r).list) (hcounts : (s.mailbox r).counts = s.countsOf (s.mailbox r).list) :
    ListFollows s (l.foldl (fun t i => releaseMessage i cause t) s) r (fun i => i ∈ (s.mailbox r).list ∧ i ∉ l) := by
  have hrel (i) (hi : i ∈ l) : s.releasable r i := ⟨(hin i (hsub i hi)).1, .inl ⟨(hin i (hsub i hi)).2, hsub i hi⟩⟩
  obtain ⟨hothers, -, -, hlist⟩ := releases_spec cause r l s fun i hi => (hrel i hi).listed_or
  have htrails : ListTrails s (l.foldl (fun t i => releaseMessage i cause t) s) r := by
    cases l with
    | nil => exact absurd rfl hne
    | cons i l =>
      have hi := hrel i List.mem_cons_self
      have hfirst := (releaseListed_follows rfl cause (hin i (hsub i List.mem_cons_self)).2).1.trails
      rw [hi.1] at hfirst
      exact hfirst.releases cause l fun j hj => releaseMessage_releasable cause hi (hrel j (List.mem_cons_of_mem _ hj))
  generalize l.foldl (fun t i => releaseMessage i cause t) s = t at *
  refine ⟨fun i => by rw [hlist]; simp, htrails.order, htrails.next, htrails.left, htrails.counts, htrails.marked,
    htrails.computed, fun he => ?_⟩
  have hlisted (j) (hj : j ∈ (t.mailbox r).list) : (t.message j).state.listed = true := by
    rw [hlist, List.mem_filter] at hj
    rw [Message.core_state (hothers j (by simpa using hj.2))]
    exact (hin j hj.1).2
  have htotal := countsOf_total hlisted
  have hbefore := countsOf_total fun j hj => (hin j hj).2
  rw [← htrails.counts, he, hcounts, hbefore, hlist] at htotal
  obtain ⟨i, hi⟩ := List.exists_mem_of_ne_nil l hne
  have hshorter : ((s.mailbox r).list.filter fun j => decide (j ∉ l)).length < (s.mailbox r).list.length :=
    List.length_filter_lt_length_iff_exists.mpr ⟨i, hsub i hi, by simpa using hi⟩
  omega

/-! ### MAILBOX PURGE (R42) -/

theorem placesFor_eq (s : State) (l : List Nat) : s.placesFor l = (l.filter s.chains).length := by
  unfold State.placesFor
  induction l with
  | nil => rfl
  | cons i l ih =>
    rw [List.map_cons, List.sum_cons, ih, List.filter_cons]
    unfold Message.placesNeeded State.chains
    by_cases hc : (s.message i).readers = 0 ∧ 0 < (s.message i).blocks
    · have hb : (decide ((s.message i).readers = 0) && decide (0 < (s.message i).blocks)) = true := by simpa using hc
      rw [if_pos hc, if_pos hb, List.length_cons]
      omega
    · have hb : ¬ (decide ((s.message i).readers = 0) && decide (0 < (s.message i).blocks)) = true := by simpa using hc
      rw [if_neg hc, if_neg hb]
      omega

theorem releases_keeping {s : State} {slot : Nat} {copy : List Byte} (l : List Nat) (cause : Cause) :
    Keeping s (l.foldl (fun t i => releaseMessage i cause t) (s.acting slot copy)) slot copy :=
  ⟨foldl_keeps State.base _ (fun t i => releaseMessage_base i cause t) l _,
    foldl_keeps State.ring _ (fun t i => releaseMessage_ring i cause t) l _,
    foldl_keeps State.rating _ (fun t i => releaseMessage_rating i cause t) l _,
    foldl_keeps State.voice _ (fun t i => releaseMessage_voice i cause t) l _,
    foldl_raised _ (fun t i ht => releaseMessage_raised i cause t ht) l _ (acting_raised s slot copy)⟩

/-- MAILBOX PURGE at its take (R42). -/
theorem purge_taken {s : State} {slot : Nat} {copy : List Byte} (h : s.takesNow .mailboxPurge slot copy)
    (hin : ∀ i ∈ (s.mailbox (param copy 8 2)).list,
      (s.message i).room = param copy 8 2 ∧ (s.message i).state.listed = true) :
    let room := param copy 8 2
    let scope := (s.mailbox room).list.filter fun i =>
      decide (param copy 10 1 = 0) || decide ((s.message i).state = .heard)
    let deferred := scope.filter fun i => decide (0 < (s.message i).readers)
    let chained := scope.filter fun i => decide ((s.message i).readers = 0) && decide (0 < (s.message i).blocks)
    let results := le 2 scope.length ++ le 2 deferred.length
    ∃ t, exec .mailboxPurge s = .next t ∧ sameOuter s t ∧ OrderTaken s t slot copy ∧
      (t.mailbox room).list = (s.mailbox room).list.filter (fun i => decide (i ∉ scope)) ∧
      (scope ≠ [] → (s.mailbox room).counts = s.countsOf (s.mailbox room).list →
        ListFollows s t room fun i => i ∈ (s.mailbox room).list ∧ i ∉ scope) ∧
      ((s.mailbox room).list.Nodup → (t.mailbox room).places = (s.mailbox room).places - scope.length) ∧
      (∀ i ∈ scope, (t.message i).state = .deleting ∨ (t.message i).state = .free) ∧
      (∀ i, i ∉ scope → (t.message i).state = (s.message i).state) ∧
      (∀ q, q ≠ room → t.mailbox q = s.mailbox q ∧ t.lampOf q = s.lampOf q) ∧
      (∀ k, s.stillChannel k → t.channel k = s.channel k) ∧ t.rating = s.rating ∧
      (∃ l, t.store.releaseQueue = s.store.releaseQueue ++ l ∧
        l.Perm (chained.map fun i => ⟨(s.message i).first, (s.message i).blocks, i, .order slot⟩)) ∧
      (scope = [] → Answered s t slot copy .done false (le 2 0 ++ le 2 0)) ∧
      (chained = [] → Answered s t slot copy .done (decide (deferred ≠ [])) results) ∧
      (chained ≠ [] → Unanswered s t slot ∧ ∃ e, t.entryOf slot = some e ∧ e.left = chained.length ∧
        e.deferred = decide (deferred ≠ []) ∧ e.result = results) := by
  intro room scope deferred chained results
  obtain ⟨t, e, hx, houter, htaken, ht, he, hcopy, hstage⟩ := order_acts h (by decide)
  have hsub : ∀ i ∈ scope, i ∈ (s.mailbox room).list := fun i hi => (List.mem_filter.mp hi).1
  have hrel (i) (hi : i ∈ scope) : (s.acting slot copy).releasable room i :=
    ⟨(hin i (hsub i hi)).1, .inl ⟨(hin i (hsub i hi)).2, hsub i hi⟩⟩
  have hwaits : (s.acting slot copy).placesFor scope = chained.length := placesFor_eq _ _
  have hflag : decide (deferred.length > 0) = decide (deferred ≠ []) := by
    congr 1
    exact propext List.length_pos_iff
  have hact : orderAct .mailboxPurge slot copy (s.acting slot copy) =
      if (s.acting slot copy).placesFor scope = 0 then
        completeOrder slot .done (decide (deferred.length > 0)) results
          (scope.foldl (fun t i => releaseMessage i (.order slot) t) (s.acting slot copy))
      else holdOrder slot ((s.acting slot copy).placesFor scope) (decide (deferred.length > 0)) results
          (scope.foldl (fun t i => releaseMessage i (.order slot) t) (s.acting slot copy)) := rfl
  rw [hact, hwaits, hflag] at ht
  have hkeep := releases_keeping (s := s) (slot := slot) (copy := copy) scope (.order slot)
  have hmute := Mute.foldl (fun t i ht => ht.releaseMessage i (.order slot)) scope (acting_mute h.1 slot copy)
  obtain ⟨hothers, hreleased, hrooms, hlist⟩ := releases_spec (.order slot) room scope (s.acting slot copy)
    fun i hi => (hrel i hi).listed_or
  have hlamps := releases_lamps (.order slot) room scope (s.acting slot copy) hrel
  have hqueue := releases_queue (.order slot) scope (s.acting slot copy)
  have hplaces := fun hn : (s.mailbox room).list.Nodup =>
    releases_places (.order slot) room scope (s.acting slot copy) (hn.filter _) fun i hi => hin i (hsub i hi)
  have hfollows := fun hne hc => releases_follow (s := s.acting slot copy) (r := room) (l := scope) (.order slot) hne hin hsub hc
  generalize scope.foldl (fun t i => releaseMessage i (.order slot) t) (s.acting slot copy) = v at *
  obtain ⟨⟨hstore, hlamp, u, hrest⟩, hdone, hheld⟩ :
      (t.store = v.store ∧ t.lamp = v.lamp ∧ ∃ u, OrderRest s u t) ∧
      (chained = [] → Answered s t slot copy .done (decide (deferred ≠ [])) results) ∧
      (chained ≠ [] → Unanswered s t slot ∧ ∃ e, t.entryOf slot = some e ∧ e.left = chained.length ∧
        e.deferred = decide (deferred ≠ []) ∧ e.result = results) := by
    by_cases hc : chained.length = 0
    · rw [if_pos hc] at ht
      obtain ⟨hst, hla, hre⟩ := hkeep.completed ht
      exact ⟨⟨hst, hla, _, hre⟩, fun _ => hkeep.answered he hcopy ht, fun h0 => absurd (List.length_eq_zero_iff.mp hc) h0⟩
    · rw [if_neg hc] at ht
      obtain ⟨hst, hla, hre, hun, hentry⟩ := hkeep.held he hmute hstage ht
      exact ⟨⟨hst, hla, _, hre⟩, fun h0 => absurd (by rw [h0]; rfl) hc, fun _ => ⟨hun, _, hentry, rfl, rfl, rfl⟩⟩
  have hmessage (j) : t.message j = v.message j := message_congr (by rw [hstore]) j
  have hmail (q) : t.mailbox q = v.mailbox q := mailbox_congr (by rw [hstore]) q
  have hlampOf (q) : t.lampOf q = v.lampOf q := by unfold State.lampOf; rw [hlamp]
  have hvshadow : t.roomShadow room = v.roomShadow room := by
    rw [hrest.shadow]
    unfold State.roomShadow
    rw [hkeep.host]
  refine ⟨t, hx, houter, htaken, by rw [hmail]; exact hlist, fun hne hc => ?_, fun hn => by rw [hmail]; exact hplaces hn,
    fun i hi => by rw [hmessage]; exact hreleased i hi, fun i hi => by rw [hmessage]; exact Message.core_state (hothers i hi),
    fun q hq => ?_, hrest.channels, hrest.ratings, ⟨_, by rw [hstore]; exact hqueue, .refl _⟩, fun hs => ?_, hdone, hheld⟩
  · exact ((hfollows hne hc).of_right hstore hlamp hvshadow).of_left rfl rfl
  · rw [hmail, hlampOf]
    exact ⟨hrooms q hq, hlamps q hq⟩
  · have hd : deferred = [] := by show List.filter _ scope = []; rw [hs]; rfl
    have hc : chained = [] := by show List.filter _ scope = []; rw [hs]; rfl
    have hr : results = le 2 0 ++ le 2 0 := by
      show le 2 scope.length ++ le 2 deferred.length = _
      rw [hd, hs]
      rfl
    have := hdone hc
    rw [hd, hr] at this
    exact this

/-! ### The end of a release entry (R27, R29) -/

/-- Its last block in hand released, where no take waits (R22, R27). -/
def lastReleased (w : Walk) (e : ReleaseEntry) (s : State) : State :=
  releaseBlock w.block (setBlocksUsed (s.message e.index).room ((s.mailbox (s.message e.index).room).blocksUsed - 1) s)

theorem releaseBlock_takeLine (b : Nat) (s : State) : (releaseBlock b s).store.takeLine = s.store.takeLine := by
  unfold releaseBlock
  dsimp only
  (repeat' split) <;> rfl

theorem takeLineTurn_idle {s : State} (h : s.store.takeLine = []) : takeLineTurn s = s := by
  unfold takeLineTurn
  rw [h]
  rfl

theorem releaseInHand_idle {s : State} (w : Walk) (e : ReleaseEntry) (h : s.store.takeLine = []) :
    releaseInHand w e s = lastReleased w e s := by
  unfold releaseInHand
  dsimp only
  rw [takeLineTurn_idle]
  · rfl
  · rw [releaseBlock_takeLine]
    exact h

/-- The walk's last header ends its entry (R27, R29). -/
theorem walkReturned_ends {s : State} {w : Walk} {e : ReleaseEntry} {rest : List ReleaseEntry} {header : List Byte}
    (hw : s.store.walk = some w) (hq : s.store.releaseQueue = e :: rest) (ht : s.store.takeLine = [])
    (hend : w.remaining ≤ 1 ∨ s.profile.blocks ≤ headerNext header) :
    walkReturned header s = completeEntry e rest (lastReleased w e s) := by
  unfold walkReturned
  rw [hw, hq]
  dsimp only
  rw [releaseInHand_idle w e ht, if_pos hend]

theorem exec_walkHeaderRead {s : State} {ret : Returned} (hr : s.returnOf Source.isWalk = some ret) :
    exec .walkHeaderRead s = .next (taken (fun t => walkReturned ret.data (takeReturn Source.isWalk t)) s) := by
  show stepReturn Source.isWalk (fun r t => walkReturned r.data t) s = _
  unfold stepReturn
  rw [hr]
  rfl

theorem Mute.releaseBlock {slot : Nat} {s : State} (h : Mute slot s) (b : Nat) : Mute slot (releaseBlock b s) := by
  unfold Machine.releaseBlock
  dsimp only
  (repeat' split) <;> exact h.of_out rfl

theorem lastReleased_rest (w : Walk) (e : ReleaseEntry) (s : State) :
    (lastReleased w e s).base = s.base ∧ (lastReleased w e s).ring = s.ring ∧
    (∀ slot, Mute slot s → Mute slot (lastReleased w e s)) :=
  ⟨(releaseBlock_base ..).trans (setBlocksUsed_base ..), (releaseBlock_ring ..).trans (setBlocksUsed_ring ..),
    fun _ h => Mute.releaseBlock (s := setBlocksUsed _ _ s) (h.of_out rfl) _⟩

/-- An order that waits for more goes on waiting (R29). -/
theorem orderStep_waits {s : State} {slot : Nat} {n : InFlight} (h : s.entryOf slot = some n) (hl : 1 < n.left) :
    orderStep slot s = updateEntry slot (fun e => { e with left := e.left - 1 }) s := by
  unfold orderStep
  rw [h]
  exact if_neg (by omega)

/-- After the last thing it waited for the order is DONE (R29). -/
theorem orderStep_last {s : State} {slot : Nat} {n : InFlight} (h : s.entryOf slot = some n) (hl : n.left ≤ 1) :
    orderStep slot s = completeOrder slot .done n.deferred n.result (updateEntry slot (fun e => { e with left := 0 }) s) := by
  unfold orderStep
  rw [h]
  exact if_pos hl

/-- A release entry of an order ends: one release fewer is waited for (R29, R42). -/
theorem purgeEntry_ends {s : State} {ret : Returned} {w : Walk} {e : ReleaseEntry} {rest : List ReleaseEntry} {slot : Nat}
    {n : InFlight} (ho : s.out = {}) (hr : s.returnOf Source.isWalk = some ret) (hw : s.store.walk = some w)
    (hq : s.store.releaseQueue = e :: rest) (ht : s.store.takeLine = [])
    (hend : w.remaining ≤ 1 ∨ s.profile.blocks ≤ headerNext ret.data) (hcause : e.cause = .order slot)
    (hn : s.entryOf slot = some n) (hstage : n.stage = .executing) :
    ∃ t, exec .walkHeaderRead s = .next t ∧ sameOuter s t ∧
      (1 < n.left → t.entryOf slot = some { n with left := n.left - 1 } ∧ Unanswered s t slot) ∧
      (n.left = 1 → lineGrew s t .directory [completionWrite s slot n.copy .done n.deferred n.result]) := by
  have hact : walkReturned ret.data (takeReturn Source.isWalk s) =
      completeEntry e rest (lastReleased w e (takeReturn Source.isWalk s)) := walkReturned_ends hw hq ht hend
  have hfinish : taken (fun t => walkReturned ret.data (takeReturn Source.isWalk t)) s =
      finish (completeEntry e rest (lastReleased w e (takeReturn Source.isWalk s))) := by
    unfold taken
    dsimp only
    rw [beginStep_eq ho, hact]
  obtain ⟨hlbase, hlring, hlmute⟩ := lastReleased_rest w e (takeReturn Source.isWalk s)
  have hmute : Mute slot (takeReturn Source.isWalk s) := by
    intro r hm
    rw [show (takeReturn Source.isWalk s).out = s.out from rfl, ho] at hm
    cases hm
  have hfree (v : State) (hv : v = freeRecord e.index { lastReleased w e (takeReturn Source.isWalk s) with
      store.releaseQueue := rest, store.walk := none }) :
      v.base = (takeReturn Source.isWalk s).base ∧ v.ring = s.ring ∧ Mute slot v := by
    rw [hv]
    refine ⟨(freeRecord_base ..).trans hlbase, (freeRecord_ring ..).trans hlring, Mute.freeRecord ?_ _⟩
    exact (hlmute slot hmute).of_out rfl
  refine ⟨_, exec_walkHeaderRead hr, ?_⟩
  rw [hfinish]
  unfold completeEntry
  rw [hcause]
  generalize hv : freeRecord e.index _ = v
  obtain ⟨hvbase, hvring, hvmute⟩ := hfree v hv.symm
  have hentry : v.entryOf slot = some n := by
    unfold State.entryOf
    rw [hvring]
    exact hn
  have hvouter : v.outer = s.outer := (State.outer_of_base hvbase).trans rfl
  have hvlines : v.arbiter.lines = s.arbiter.lines := by
    have hl := congrArg (fun b => b.2.2.2.1.lines) hvbase
    exact hl
  have hvprofile : v.profile = s.profile := (profile_of_base hvbase).trans rfl
  generalize hu : startWalk (reportRelease (.order slot) v) = u
  have hureport : u = startWalk (orderStep slot v) := hu.symm
  have hubase : u.base = v.base := by rw [hureport]; exact (startWalk_base _).trans (orderStep_base ..)
  have huring : u.ring = (orderStep slot v).ring := by rw [hureport]; exact startWalk_ring _
  have hends := finish_endsAs u
  have hulines : u.arbiter.lines = s.arbiter.lines := by
    have hl := congrArg (fun b => b.2.2.2.1.lines) hubase
    exact hl.trans hvlines
  refine ⟨hends.sameOuter (outer_sameOuter ((State.outer_of_base hubase).trans hvouter)), fun hl => ?_, fun hl => ?_⟩
  · have hwaits := orderStep_waits hentry hl
    have huentry : u.entryOf slot = some { n with left := n.left - 1 } := by
      have hx := entryOf_updateEntry (s := v) (fun e => { e with left := e.left - 1 }) (fun _ => rfl) hentry
      unfold State.entryOf at hx ⊢
      rw [huring, hwaits]
      exact hx
    have humute : Mute slot u := by
      rw [hureport, hwaits]
      exact Mute.startWalk (hvmute.of_out rfl)
    refine ⟨?_, unanswered_of rfl humute hulines huentry hstage⟩
    unfold State.entryOf
    rw [hends.ring]
    exact huentry
  · have hlast := orderStep_last hentry hl.le
    have hx := entryOf_updateEntry (s := v) (fun e => { e with left := 0 }) (fun _ => rfl) hentry
    have hraised := completeOrder_raises .done n.deferred n.result hx
    refine lineGrew_of_ends hends hulines fun r hm => ?_
    rw [List.mem_singleton.mp hm]
    refine ⟨?_, rfl⟩
    rw [hureport, hlast]
    refine startWalk_raised _ ?_
    have hsame := completionWrite_congr (s := s) (t := updateEntry slot (fun e => { e with left := 0 }) v) hvprofile
    rw [hsame] at hraised
    exact hraised

/-- Settles O55. -/
theorem purgeReleasesItsScope : Obligations.PurgeReleasesItsScope :=
  ⟨fun _ _ _ h hin => purge_taken h hin, fun _ _ _ _ _ _ _ ho hr hw hq ht hend hcause hn hstage =>
    purgeEntry_ends ho hr hw hq ht hend hcause hn hstage⟩

end Sys2Proof.Machine
end

section
/-! PROOFS. The lamp orders (5.7). -/

namespace Sys2Proof.Machine

/-- What an order that acts on lamps alone keeps (R104, R105). -/
theorem keeping_of_unlit {s v : State} {slot : Nat} {copy : List Byte} (h : v.unlit = (s.acting slot copy).unlit)
    (hr : Raised (executingWrite s slot copy) v) : Keeping s v slot copy :=
  have hbase := congrArg State.base h
  have hring := congrArg State.ring h
  have hrating := congrArg State.rating h
  have hvoice := congrArg State.voice h
  ⟨hbase, hring, hrating, hvoice, hr⟩

/-! ### LAMP OVERRIDE (R104) -/

/-- One override after another, as R104 sets them for the rooms selected. -/
theorem overrides_spec (v : Override) (rooms : List Nat) (s : State) :
    (∀ r ∈ rooms, ((rooms.foldl (fun t r => setOverride v r t) s).lampOf r).override = v ∧
      ((rooms.foldl (fun t r => setOverride v r t) s).lampOf r).pattern =
        effectivePattern v (s.roomShadow r).lampPresent (s.occupied r) (s.mailbox r) ∧
      ((s.lampOf r).override ≠ v → r ∈ (rooms.foldl (fun t r => setOverride v r t) s).lamp.marks)) ∧
    (∀ r, r ∉ rooms → (rooms.foldl (fun t r => setOverride v r t) s).lampOf r = s.lampOf r) ∧
    (∀ k ∈ s.lamp.marks, k ∈ (rooms.foldl (fun t r => setOverride v r t) s).lamp.marks) ∧
    (rooms.foldl (fun t r => setOverride v r t) s).unlit = s.unlit := by
  induction rooms generalizing s with
  | nil => exact ⟨nofun, fun _ _ => rfl, fun _ h => h, rfl⟩
  | cons q l ih =>
    obtain ⟨hothers, hover, hpattern, -, -, hmarks, hmarked, hunlit⟩ := setOverride_spec v q s
    obtain ⟨ihin, ihout, ihmarks, ihunlit⟩ := ih (setOverride v q s)
    have hshadow (r) : (setOverride v q s).roomShadow r = s.roomShadow r := congrArg (fun t => t.roomShadow r) hunlit
    have hoccupied (r) : (setOverride v q s).occupied r = s.occupied r := congrArg (fun t => t.occupied r) hunlit
    have hmail (r) : (setOverride v q s).mailbox r = s.mailbox r := congrArg (fun t => t.mailbox r) hunlit
    refine ⟨fun r hr => ?_, fun r hr => ?_, fun k hk => ihmarks k (hmarks k hk), ihunlit.trans hunlit⟩
    · have hmark (hne : (s.lampOf r).override ≠ v) (hl : r ∈ l) :
          r ∈ (l.foldl (fun t r => setOverride v r t) (setOverride v q s)).lamp.marks := by
        by_cases hrq : r = q
        · subst hrq
          exact ihmarks r (hmarked hne)
        · exact (ihin r hl).2.2 (by rw [hothers r hrq]; exact hne)
      by_cases hl : r ∈ l
      · obtain ⟨ho, hp, -⟩ := ihin r hl
        rw [hshadow, hoccupied, hmail] at hp
        exact ⟨ho, hp, fun hne => hmark hne hl⟩
      · have hrq : r = q := (List.mem_cons.mp hr).resolve_right hl
        subst hrq
        have hkept := ihout r hl
        rw [List.foldl_cons, hkept]
        exact ⟨hover, hpattern, fun hne => ihmarks r (hmarked hne)⟩
    · obtain ⟨hrq, hl⟩ := not_or.mp (fun h => hr (List.mem_cons.mpr h))
      exact (ihout r hl).trans (hothers r hrq)

/-! ### LAMP FAULT CLEAR (R105) -/

/-- What R105 does to one room. -/
theorem clearFault_spec (r : Nat) (s : State) :
    (∀ q, q ≠ r → (clearFault r s).lampOf q = s.lampOf q) ∧
    (clearFault r s).lampOf r = { s.lampOf r with latch := .none, mismatch := 0 } ∧
    (∀ k ∈ s.lamp.marks, k ∈ (clearFault r s).lamp.marks) ∧
    ((s.lampOf r).latch ≠ .none → r ∈ (clearFault r s).lamp.marks) ∧ (clearFault r s).unlit = s.unlit := by
  have hlamp (q : Nat) : (clearFault r s).lampOf q =
      if q = r then { s.lampOf r with latch := .none, mismatch := 0 } else s.lampOf q := by
    unfold clearFault
    dsimp only
    split
    · exact State.setLamp_lampOf ..
    · exact (markLamp_lampOf ..).symm ▸ State.setLamp_lampOf ..
  refine ⟨fun q hq => (hlamp q).trans (if_neg hq), (hlamp r).trans (if_pos rfl), fun k hk => ?_, fun hne => ?_, ?_⟩
  · unfold clearFault
    dsimp only
    split
    · exact hk
    · exact (mem_addMark).mpr (.inr hk)
  · unfold clearFault
    rw [if_neg hne]
    exact (mem_addMark).mpr (.inl rfl)
  · unfold clearFault
    dsimp only
    split <;> rfl

/-- One room after another, as R105 clears those selected. -/
theorem clearFaults_spec (rooms : List Nat) (s : State) :
    (∀ r ∈ rooms, (rooms.foldl (fun t r => clearFault r t) s).lampOf r = { s.lampOf r with latch := .none, mismatch := 0 } ∧
      ((s.lampOf r).latch ≠ .none → r ∈ (rooms.foldl (fun t r => clearFault r t) s).lamp.marks)) ∧
    (∀ r, r ∉ rooms → (rooms.foldl (fun t r => clearFault r t) s).lampOf r = s.lampOf r) ∧
    (∀ k ∈ s.lamp.marks, k ∈ (rooms.foldl (fun t r => clearFault r t) s).lamp.marks) ∧
    (rooms.foldl (fun t r => clearFault r t) s).unlit = s.unlit := by
  induction rooms generalizing s with
  | nil => exact ⟨nofun, fun _ _ => rfl, fun _ h => h, rfl⟩
  | cons q l ih =>
    obtain ⟨hothers, hcleared, hmarks, hmarked, hunlit⟩ := clearFault_spec q s
    obtain ⟨ihin, ihout, ihmarks, ihunlit⟩ := ih (clearFault q s)
    refine ⟨fun r hr => ?_, fun r hr => ?_, fun k hk => ihmarks k (hmarks k hk), ihunlit.trans hunlit⟩
    · by_cases hrq : r = q
      · subst hrq
        refine ⟨?_, fun hne => ihmarks r (hmarked hne)⟩
        by_cases hl : r ∈ l
        · exact (ihin r hl).1.trans (by rw [hcleared])
        · exact (ihout r hl).trans hcleared
      · have h := ihin r ((List.mem_cons.mp hr).resolve_left hrq)
        rw [hothers r hrq] at h
        exact h
    · obtain ⟨hrq, hl⟩ := not_or.mp (fun h => hr (List.mem_cons.mpr h))
      exact (ihout r hl).trans (hothers r hrq)

/-- Settles O56. -/
theorem lampOrdersActOnTheirSelection : Obligations.LampOrdersActOnTheirSelection := by
  intro s slot copy rooms hrooms
  refine ⟨fun v h hv => ?_, fun h => ?_⟩
  · obtain ⟨t, e, hx, houter, htaken, ht, he, hcopy, -⟩ := order_acts h (by decide)
    obtain ⟨hin, hout, -, hunlit⟩ := overrides_spec v rooms (s.acting slot copy)
    have hraised : Raised (executingWrite s slot copy)
        (rooms.foldl (fun t r => setOverride v r t) (s.acting slot copy)) :=
      foldl_raised _ (fun t r hr => setOverride_raised v r t hr) rooms _ (acting_raised s slot copy)
    have hact : orderAct .lampOverride slot copy (s.acting slot copy) =
        completeOrder slot .done false (le 2 rooms.length ++ le 2 (rooms.filter fun r =>
          decide (((rooms.foldl (fun t r => setOverride v r t) (s.acting slot copy)).lampOf r).pattern ≠
            (s.lampOf r).pattern)).length) (rooms.foldl (fun t r => setOverride v r t) (s.acting slot copy)) := by
      have hsel : (s.acting slot copy).orderRooms copy = some rooms := hrooms
      show lampOverrideAct slot copy (s.acting slot copy) = _
      unfold lampOverrideAct
      dsimp only
      rw [hsel, hv]
      rfl
    rw [hact] at ht
    generalize rooms.foldl (fun t r => setOverride v r t) (s.acting slot copy) = u at hin hout hunlit hraised ht
    have hkeep := keeping_of_unlit hunlit hraised
    obtain ⟨hstore, hlamp, hrest⟩ := hkeep.completed ht
    have hlampOf (q) : t.lampOf q = u.lampOf q := by unfold State.lampOf; rw [hlamp]
    have hstored : t.store = s.store := by
      have h := congrArg State.store hunlit
      exact hstore.trans h
    refine ⟨t, _, hx, houter, htaken, fun r hr => ?_, fun r hr => (hlampOf r).trans (hout r hr), rfl, ?_, hstored,
      hrest.ratings, hrest.channels⟩
    · rw [hlampOf, hlamp]
      exact hin r hr
    · have h := hkeep.answered he hcopy ht
      simp only [hlampOf]
      exact h
  · obtain ⟨t, e, hx, houter, htaken, ht, he, hcopy, -⟩ := order_acts h (by decide)
    obtain ⟨hin, hout, -, hunlit⟩ := clearFaults_spec rooms (s.acting slot copy)
    have hraised : Raised (executingWrite s slot copy) (rooms.foldl (fun t r => clearFault r t) (s.acting slot copy)) :=
      foldl_raised _ (fun t r hr => clearFault_raised r t hr) rooms _ (acting_raised s slot copy)
    have hact : orderAct .lampFaultClear slot copy (s.acting slot copy) =
        completeOrder slot .done false (le 2 rooms.length ++ le 2 (rooms.filter fun r =>
          decide ((s.lampOf r).latch ≠ .none)).length) (rooms.foldl (fun t r => clearFault r t) (s.acting slot copy)) := by
      have hsel : (s.acting slot copy).orderRooms copy = some rooms := hrooms
      show lampFaultClearAct slot copy (s.acting slot copy) = _
      unfold lampFaultClearAct
      dsimp only
      rw [hsel]
      rfl
    rw [hact] at ht
    generalize rooms.foldl (fun t r => clearFault r t) (s.acting slot copy) = u at hin hout hunlit hraised ht
    have hkeep := keeping_of_unlit hunlit hraised
    obtain ⟨hstore, hlamp, hrest⟩ := hkeep.completed ht
    have hlampOf (q) : t.lampOf q = u.lampOf q := by unfold State.lampOf; rw [hlamp]
    have hstored : t.store = s.store := by
      have h := congrArg State.store hunlit
      exact hstore.trans h
    refine ⟨t, hx, houter, htaken, fun r hr => ?_, fun r hr => (hlampOf r).trans (hout r hr),
      hkeep.answered he hcopy ht, hstored, hrest.ratings, hrest.channels⟩
    obtain ⟨hcleared, hmark⟩ := hin r hr
    rw [hlampOf, hlamp, hcleared]
    exact ⟨rfl, rfl, rfl, hmark⟩

end Sys2Proof.Machine
end

section
/-! PROOFS. The folio orders, the folio write queue, late and unbilled charges (7.3, 7.4, 7.6). -/

namespace Sys2Proof.Machine

/-! ### What an append leaves out of the way of the orders -/

theorem Mute.raiseFolioWrite {slot : Nat} {s : State} (h : Mute slot s) : Mute slot (raiseFolioWrite s) := by
  unfold Machine.raiseFolioWrite
  split
  · exact h
  · split
    · exact h
    · exact (h.of_out (t := { s with rating.queueRaised := true }) rfl).raise nofun

theorem Mute.queueAppend {slot : Nat} {s : State} (h : Mute slot s) (f : Folio) (k : Nat) (c : Charge) (order : Option Nat) :
    Mute slot (queueAppend f k c order s) := by
  unfold Machine.queueAppend
  have hone (w : FolioWrite) (t : State) (ht : Mute slot t) : Mute slot (queueFolioWrite w t) :=
    Mute.raiseFolioWrite (ht.of_out rfl)
  split
  · exact hone _ _ (hone _ _ h)
  · exact hone _ _ h

theorem Mute.endAppend {slot : Nat} {s : State} (h : Mute slot s) (r : Nat) (p : Place) (total : Int) :
    Mute slot (endAppend r p total s) := by
  unfold Machine.endAppend workOutBarred notify
  dsimp only
  (repeat' split) <;> exact h.of_out rfl

theorem Mute.appendCharge_stored {slot r : Nat} {p : Place} {f : Folio} {c : Charge} {order : Option Nat} {s : State} {k : Nat}
    {pool : List Nat} (h : Mute slot s) (hp : s.rating.freePool = k :: pool) (hq : f.entriesNeeded ≤ s.freeEntries) :
    Mute slot (appendCharge r p f c order s).2 := by
  rw [Machine.appendCharge_stored hp hq]
  have hpool : Mute slot { s with rating.freePool := pool } := h.of_out rfl
  refine Mute.endAppend ?_ _ _ _
  exact (hpool.queueAppend f k c order).of_out rfl

theorem completeOrder_quiet (slot : Nat) (st : Status) (deferred : Bool) (res : List Byte) (s : State) :
    Quiet s (completeOrder slot st deferred res s) := by
  unfold completeOrder
  split <;> exact ⟨rfl, rfl⟩

/-- An append to the CLOSED folio does not work out toll-barred (R145). -/
theorem appendCharge_closed_folios {r : Nat} {f : Folio} {c : Charge} {order : Option Nat} {s : State} {k : Nat}
    {pool : List Nat} (hp : s.rating.freePool = k :: pool) (hq : f.entriesNeeded ≤ s.freeEntries) :
    (appendCharge r .closed f c order s).2.folios r =
      { s.folios r with closed := some { f.taking c with records := f.records ++ [k] } } := by
  rw [appendCharge_stored hp hq]
  obtain ⟨raised, hrat⟩ := queueAppend_rating f k c order { s with rating.freePool := pool }
  generalize queueAppend f k c order { s with rating.freePool := pool } = v at hrat
  have hv : v.folios r = s.folios r := by unfold State.folios; rw [hrat]
  unfold endAppend
  rw [if_neg nofun, markFolio_folios, State.setFolios_folios, if_pos rfl, hv]
  rfl

/-! ### The orders (R143, R144) -/

/-- The effect of a taken folio order keeps base, ring, channels, store and lamps of the state it acts in. -/
structure Booking (s v : State) (slot : Nat) (copy : List Byte) : Prop where
  base   : v.base = (s.acting slot copy).base
  ring   : v.ring = (s.acting slot copy).ring
  store  : v.store = s.store
  lamp   : v.lamp = s.lamp
  voice  : v.voice = s.voice
  raised : Raised (executingWrite s slot copy) v

/-- What an order leaves of the engines that it acts in no account of. -/
structure Booked (s v t : State) : Prop where
  rating   : t.rating = v.rating
  store    : t.store = s.store
  lamp     : t.lamp = s.lamp
  channels : ∀ k, s.stillChannel k → t.channel k = s.channel k

section
variable {s v t : State} {slot : Nat} {copy : List Byte} {e : InFlight} (h : Booking s v slot copy)
  (he : (s.acting slot copy).entryOf slot = some e)
include h

theorem Booking.lines : v.arbiter.lines = s.arbiter.lines := by
  have hl := congrArg (fun b => b.2.2.2.1.lines) h.base
  exact hl

theorem Booking.booked {u : State} (hends : EndsAs u t) (hr : u.rating = v.rating) (hs : u.store = v.store)
    (hl : u.lamp = v.lamp) (hv : u.voice = v.voice) : Booked s v t := by
  refine ⟨hends.rating.trans hr, hends.store.trans (hs.trans h.store), hends.lamp.trans (hl.trans h.lamp), fun k hk => ?_⟩
  have hu : u.channel k = s.channel k := channel_congr (hv.trans h.voice) k
  rw [hends.channels k (hk.of_eq hu), hu]

include he

theorem Booking.entry : v.entryOf slot = some e := by
  unfold State.entryOf
  rw [h.ring]
  exact he

/-- The order is complete with that effect (R177). -/
theorem Booking.completed {st : Status} {deferred : Bool} {res : List Byte} (hc : e.copy = copy)
    (ht : t = finish (nextSlot (completeOrder slot st deferred res v))) :
    Booked s v t ∧ Answered s t slot copy st deferred res := by
  obtain ⟨hst, hla, hra, hvo, -⟩ := completed_engines slot st deferred res v
  have hends := finish_endsAs (nextSlot (completeOrder slot st deferred res v))
  rw [← ht] at hends
  exact ⟨h.booked hends hra hst hla hvo,
    answered_by hends ((profile_of_base h.base).trans rfl) h.lines h.raised (h.entry he) hc⟩

/-- The order is held with that effect (R143, R177). -/
theorem Booking.held {left : Nat} {deferred : Bool} {res : List Byte} (hm : Mute slot v) (hs : e.stage = .executing)
    (ht : t = finish (nextSlot (holdOrder slot left deferred res v))) :
    Booked s v t ∧ Unanswered s t slot ∧
      t.entryOf slot = some { e with left := left, deferred := deferred, result := res } := by
  have hends := finish_endsAs (nextSlot (holdOrder slot left deferred res v))
  rw [← ht] at hends
  have hentry : (nextSlot (holdOrder slot left deferred res v)).entryOf slot =
      some { e with left := left, deferred := deferred, result := res } :=
    entryOf_updateEntry (s := v) (fun e => { e with left := left, deferred := deferred, result := res }) (fun _ => rfl)
      (h.entry he)
  refine ⟨h.booked hends rfl rfl rfl rfl, unanswered_of ht (hm.of_out rfl) h.lines hentry hs, ?_⟩
  unfold State.entryOf
  rw [hends.ring]
  exact hentry

end

theorem Booked.folios {s v t : State} (h : Booked s v t) (q : Nat) : t.folios q = v.folios q := folios_of_rating h.rating q

theorem appendCharge_booking (s : State) (slot : Nat) (copy : List Byte) (r : Nat) (p : Place) (f : Folio) (c : Charge) :
    Booking s (appendCharge r p f c (some slot) (s.acting slot copy)).2 slot copy :=
  ⟨appendCharge_base .., appendCharge_ring .., appendCharge_store .., appendCharge_lamp .., appendCharge_voice ..,
    appendCharge_raised _ _ _ _ _ _ (acting_raised s slot copy)⟩

/-- What FOLIO ADJUST does, stored or not (R143). -/
theorem folioAdjust_acts {s : State} {slot : Nat} {copy : List Byte} {f : Folio} (h : s.takesNow .folioAdjust slot copy)
    (hf : (s.folios (param copy 8 2)).place (orderPlace copy) = some f) :
    ∃ t e, exec .folioAdjust s = .next t ∧ sameOuter s t ∧ OrderTaken s t slot copy ∧
      (s.acting slot copy).entryOf slot = some e ∧ e.copy = copy ∧ e.stage = .executing ∧
      (∀ k v, appendCharge (param copy 8 2) (orderPlace copy) f (adjustCharge copy f.serial s) (some slot)
          (s.acting slot copy) = (some k, v) →
        t = finish (nextSlot (holdOrder slot f.entriesNeeded false
          (le 4 f.serial ++ leInt 4 (saturate32 (f.total + signed32 (param copy 16 4))) ++ le 4 k) v))) ∧
      (∀ v, appendCharge (param copy 8 2) (orderPlace copy) f (adjustCharge copy f.serial s) (some slot)
          (s.acting slot copy) = (none, v) →
        t = finish (nextSlot (completeOrder slot .done false
          (le 4 f.serial ++ leInt 4 (saturate32 (f.total + signed32 (param copy 16 4))) ++ le 4 none32) v))) := by
  obtain ⟨t, e, hx, houter, htaken, ht, he, hcopy, hstage⟩ := order_acts h (by decide)
  have hf' : ((s.acting slot copy).folios (param copy 8 2)).place (orderPlace copy) = some f := hf
  have hact : orderAct .folioAdjust slot copy (s.acting slot copy) = folioAdjustAct slot copy (s.acting slot copy) := rfl
  have hcharge : adjustCharge copy f.serial (s.acting slot copy) = adjustCharge copy f.serial s := rfl
  rw [hact] at ht
  unfold folioAdjustAct at ht
  dsimp only at ht
  rw [hf'] at ht
  dsimp only at ht
  rw [hcharge] at ht
  refine ⟨t, e, hx, houter, htaken, he, hcopy, hstage, fun k v happ => ?_, fun v happ => ?_⟩
  · rw [happ] at ht
    exact ht
  · rw [happ] at ht
    exact ht

theorem acting_enabled (s : State) (slot : Nat) (copy : List Byte) (k : NoticeKind) :
    (s.acting slot copy).enabled k = s.enabled k := by
  unfold State.enabled State.profile
  rw [acting_control]

theorem acting_stamp (s : State) (slot : Nat) (copy : List Byte) : (s.acting slot copy).stamp = s.stamp := by
  unfold State.stamp
  rw [acting_time]

theorem acting_folios (s : State) (slot : Nat) (copy : List Byte) (q : Nat) : (s.acting slot copy).folios q = s.folios q :=
  folios_of_rating (acting_rating s slot copy) q

theorem acting_notices (s : State) (slot : Nat) (copy : List Byte) : (s.acting slot copy).notices = s.notices := rfl

theorem acting_told (s : State) (slot : Nat) (copy : List Byte) :
    (s.acting slot copy).out.notices = s.out.notices := rfl

theorem place_setPlace (g : RoomFolios) (p : Place) (f : Folio) (b : Bool) :
    RoomFolios.place { g.setPlace p (some f) with barred := b } p = some f := by
  cases p with
  | opened => rfl
  | closed => rfl

/-- FOLIO ADJUST, its record stored (R139, R143). -/
theorem folioAdjust_stored {s : State} {slot : Nat} {copy : List Byte} {f : Folio} {k : Nat} {pool : List Nat}
    (h : s.takesNow .folioAdjust slot copy) (hf : (s.folios (param copy 8 2)).place (orderPlace copy) = some f)
    (hp : s.rating.freePool = k :: pool) (hn : f.entriesNeeded ≤ 64 - s.rating.queue.length) :
    ∃ t, exec .folioAdjust s = .next t ∧ sameOuter s t ∧ OrderTaken s t slot copy ∧ Unanswered s t slot ∧
      (∃ e, t.entryOf slot = some e ∧ e.left = f.entriesNeeded ∧ e.deferred = false ∧
        e.result = le 4 f.serial ++ leInt 4 (saturate32 (f.total + signed32 (param copy 16 4))) ++ le 4 k) ∧
      (t.folios (param copy 8 2)).place (orderPlace copy) =
        some { f.taking (adjustCharge copy f.serial s) with records := f.records ++ [k] } ∧
      t.rating.freePool = pool ∧
      t.rating.queue = s.rating.queue ++ s.appendWrites f k (adjustCharge copy f.serial s) (some slot) ∧
      param copy 8 2 ∈ t.rating.marks ∧ (∀ q, q ≠ param copy 8 2 → t.folios q = s.folios q) ∧ t.store = s.store ∧
      t.lamp = s.lamp ∧ (∀ k, s.stillChannel k → t.channel k = s.channel k) := by
  obtain ⟨t, e, hx, houter, htaken, he, -, hstage, hend, -⟩ := folioAdjust_acts h hf
  have hstored := appendCharge_stored (r := param copy 8 2) (p := orderPlace copy) (f := f)
    (c := adjustCharge copy f.serial s) (order := some slot) (s := s.acting slot copy) hp hn
  have hbook := appendCharge_booking s slot copy (param copy 8 2) (orderPlace copy) f (adjustCharge copy f.serial s)
  have hspec := appendCharge_stored_spec (r := param copy 8 2) (p := orderPlace copy) (f := f)
    (c := adjustCharge copy f.serial s) (order := some slot) (s := s.acting slot copy) hp hn rfl
  have hmute := (acting_mute h.1 slot copy).appendCharge_stored (r := param copy 8 2) (p := orderPlace copy) (f := f)
    (c := adjustCharge copy f.serial s) (order := some slot) hp hn
  rw [hstored] at hbook hspec hmute
  dsimp only at hbook hspec hmute
  have ht := hend _ _ hstored
  generalize endAppend (param copy 8 2) _ _ _ = v at hbook hspec hmute ht
  obtain ⟨hbooked, hun, hentry⟩ := hbook.held he hmute hstage ht
  obtain ⟨⟨b, hb⟩, hother, ⟨fs, m, raised, hr, hm⟩, -⟩ := hspec
  refine ⟨t, hx, houter, htaken, hun, ⟨_, hentry, rfl, rfl, rfl⟩, ?_, ?_, ?_, ?_, fun q hq => ?_, hbooked.store,
    hbooked.lamp, hbooked.channels⟩
  · rw [hbooked.folios, hb]
    exact place_setPlace ..
  · rw [hbooked.rating, hr]
  · rw [hbooked.rating, hr]
    rfl
  · rw [hbooked.rating, hr]
    exact hm
  · rw [hbooked.folios, hother q hq]
    rfl

/-- FOLIO ADJUST, its record not stored (R140, R143). -/
theorem folioAdjust_refused {s : State} {slot : Nat} {copy : List Byte} {f : Folio}
    (h : s.takesNow .folioAdjust slot copy) (hf : (s.folios (param copy 8 2)).place (orderPlace copy) = some f)
    (hfull : s.rating.freePool = [] ∨ 64 - s.rating.queue.length < f.entriesNeeded) :
    ∃ t, exec .folioAdjust s = .next t ∧ sameOuter s t ∧ OrderTaken s t slot copy ∧
      (t.folios (param copy 8 2)).place (orderPlace copy) =
        some { f.taking (adjustCharge copy f.serial s) with incomplete := true } ∧
      t.rating.freePool = s.rating.freePool ∧ t.rating.queue = s.rating.queue ∧
      t.rating.poolFullCount = sat32 s.rating.poolFullCount ∧ (∀ q, q ≠ param copy 8 2 → t.folios q = s.folios q) ∧
      param copy 8 2 ∈ t.rating.marks ∧
      (s.enabled .poolFull = true → s.notices.queue.length < 16 →
        ⟨.poolFull, param copy 8 2, s.stamp, f.serial, if s.rating.freePool = [] then 1 else 2⟩ ∈ t.notices.queue) ∧
      Answered s t slot copy .done false
        (le 4 f.serial ++ leInt 4 (saturate32 (f.total + signed32 (param copy 16 4))) ++ le 4 0xFFFFFFFF) := by
  obtain ⟨t, e, hx, houter, htaken, he, hcopy, -, -, hend⟩ := folioAdjust_acts h hf
  have hrefused := appendCharge_refused (r := param copy 8 2) (p := orderPlace copy) (f := f)
    (c := adjustCharge copy f.serial s) (order := some slot) (s := s.acting slot copy) hfull
  have hbook := appendCharge_booking s slot copy (param copy 8 2) (orderPlace copy) f (adjustCharge copy f.serial s)
  have hspec := appendCharge_refused_spec (r := param copy 8 2) (p := orderPlace copy) (f := f)
    (c := adjustCharge copy f.serial s) (order := some slot) (s := s.acting slot copy) hfull rfl
  rw [hrefused] at hbook hspec
  dsimp only at hbook hspec
  have ht := hend _ hrefused
  generalize endAppend (param copy 8 2) _ _ _ = v at hbook hspec ht
  obtain ⟨hbooked, hanswered⟩ := hbook.completed he hcopy ht
  obtain ⟨⟨b, hb⟩, hother, ⟨fs, m, hr, hm⟩, l, hl, -⟩ := hspec
  refine ⟨t, hx, houter, htaken, ?_, ?_, ?_, ?_, fun q hq => ?_, ?_, fun hen hlt => ?_, hanswered⟩
  · rw [hbooked.folios, hb]
    exact place_setPlace ..
  · rw [hbooked.rating, hr]
    rfl
  · rw [hbooked.rating, hr]
    rfl
  · rw [hbooked.rating, hr]
    rfl
  · rw [hbooked.folios, hother q hq]
    rfl
  · rw [hbooked.rating, hr]
    exact hm
  · rw [acting_enabled, acting_stamp, acting_rating, if_pos hen] at hl
    have hquiet (res : List Byte) : Quiet v (nextSlot (completeOrder slot .done false res v)) := completeOrder_quiet ..
    have hout : (s.acting slot copy).out.notices = [] := by rw [acting_told, h.1]
    rw [ht, (hl.trans (Told.of_quiet (hquiet _))).queue hout, acting_notices, List.append_nil]
    exact List.mem_append_right _ (mem_take_of_append (a := []) (Nat.sub_pos_of_lt hlt))

/-- FOLIO RELEASE (R144). -/
theorem folioRelease_acts {s : State} {slot : Nat} {copy : List Byte} {f : Folio}
    (h : s.takesNow .folioRelease slot copy) (hf : (s.folios (param copy 8 2)).closed = some f) :
    ∃ t, exec .folioRelease s = .next t ∧ sameOuter s t ∧ OrderTaken s t slot copy ∧
      t.folios (param copy 8 2) = { s.folios (param copy 8 2) with closed := none } ∧
      (∀ k ∈ f.records, k ∈ t.rating.freePool) ∧ (∀ k ∈ s.rating.freePool, k ∈ t.rating.freePool) ∧
      param copy 8 2 ∈ t.rating.marks ∧ (∀ q, q ≠ param copy 8 2 → t.folios q = s.folios q) ∧ t.store = s.store ∧
      t.lamp = s.lamp ∧ (∀ k, s.stillChannel k → t.channel k = s.channel k) ∧
      Answered s t slot copy .done false
        (le 4 f.records.length ++ leInt 4 f.total ++ le 2 f.late ++ boolByte f.incomplete) := by
  obtain ⟨t, e, hx, houter, htaken, ht, he, hcopy, -⟩ := order_acts h (by decide)
  have hf' : ((s.acting slot copy).folios (param copy 8 2)).closed = some f := hf
  have hact : orderAct .folioRelease slot copy (s.acting slot copy) = folioReleaseAct slot copy (s.acting slot copy) := rfl
  rw [hact] at ht
  unfold folioReleaseAct at ht
  dsimp only at ht
  rw [hf'] at ht
  dsimp only at ht
  generalize hv : markFolio (param copy 8 2) ((returnRecords f (s.acting slot copy)).setFolios (param copy 8 2) _) = v at ht
  have hbook : Booking s v slot copy := by
    rw [← hv]
    refine ⟨?_, ?_, ?_, ?_, ?_, ?_⟩
    · simp only [markFolio_base, State.setFolios_base, returnRecords_base]
    · simp only [markFolio_ring, State.setFolios_ring, returnRecords_ring]
    · simp only [markFolio_store, State.setFolios_store, returnRecords_store, acting_store]
    · simp only [markFolio_lamp, State.setFolios_lamp, returnRecords_lamp, acting_lamp]
    · simp only [markFolio_voice, State.setFolios_voice, returnRecords_voice, acting_voice]
    · exact acting_raised s slot copy
  have hpool : v.rating.freePool = f.records.foldl addMark s.rating.freePool := by
    rw [← hv, markFolio_rating]
    show f.records.foldl addMark (s.acting slot copy).rating.freePool = _
    rw [acting_rating]
  have hfolios (q : Nat) : v.folios q =
      if q = param copy 8 2 then { s.folios (param copy 8 2) with closed := none } else s.folios q := by
    have hkept (q : Nat) : (returnRecords f (s.acting slot copy)).folios q = s.folios q := acting_folios s slot copy q
    rw [← hv, markFolio_folios, State.setFolios_folios, hkept, hkept]
  have hmark : param copy 8 2 ∈ v.rating.marks := by
    rw [← hv]
    exact mem_addMark.mpr (.inl rfl)
  obtain ⟨hbooked, hanswered⟩ := hbook.completed he hcopy ht
  refine ⟨t, hx, houter, htaken, ?_, fun k hk => ?_, fun k hk => ?_, ?_, fun q hq => ?_, hbooked.store, hbooked.lamp,
    hbooked.channels, hanswered⟩
  · rw [hbooked.folios, hfolios, if_pos rfl]
  · rw [hbooked.rating, hpool]
    exact mem_foldl_addMark.mpr (.inl hk)
  · rw [hbooked.rating, hpool]
    exact mem_foldl_addMark.mpr (.inr hk)
  · rw [hbooked.rating]
    exact hmark
  · rw [hbooked.folios, hfolios, if_neg hq]

/-! ### The folio write queue (R140) -/

theorem exec_folioQueueWriteDone {s : State} {ret : Returned} (hr : s.returnOf Source.isFolioQueue = some ret) :
    exec .folioQueueWriteDone s = .next (taken (fun t => folioEntryWritten (takeReturn Source.isFolioQueue t)) s) := by
  show stepReturn Source.isFolioQueue (fun _ t => folioEntryWritten t) s = _
  unfold stepReturn
  rw [hr]
  rfl

/-- The state in which an entry has left the queue (R140). -/
def State.entryLeft (s : State) (rest : List FolioWrite) : State :=
  { takeReturn Source.isFolioQueue s with
    rating.queue := rest, rating.queueGranted := s.rating.queueGranted - 1 }

theorem folioEntryWritten_eq {s : State} {e : FolioWrite} {rest : List FolioWrite} (hq : s.rating.queue = e :: rest) :
    (e.order = none → folioEntryWritten (takeReturn Source.isFolioQueue s) = s.entryLeft rest) ∧
    ∀ slot, e.order = some slot →
      folioEntryWritten (takeReturn Source.isFolioQueue s) = orderStep slot (s.entryLeft rest) := by
  have hq' : (takeReturn Source.isFolioQueue s).rating.queue = e :: rest := hq
  unfold folioEntryWritten
  rw [hq']
  dsimp only
  refine ⟨fun h => ?_, fun slot h => ?_⟩
  · rw [h]
    exact rfl
  · rw [h]
    exact rfl

theorem entryLeft_mute {s : State} (ho : s.out = {}) (rest : List FolioWrite) (slot : Nat) : Mute slot (s.entryLeft rest) := by
  intro r hm
  rw [show (s.entryLeft rest).out = s.out from rfl, ho] at hm
  cases hm

/-- An entry of an order has been written: the order waits for one entry fewer, or is DONE (R140, R143). -/
theorem orderEntry_written {s : State} {ret : Returned} {e : FolioWrite} {rest : List FolioWrite} {slot : Nat} {n : InFlight}
    (ho : s.out = {}) (hq : s.rating.queue = e :: rest) (hr : s.returnOf Source.isFolioQueue = some ret)
    (horder : e.order = some slot) (hn : s.entryOf slot = some n) :
    ∃ t, exec .folioQueueWriteDone s = .next t ∧ sameOuter s t ∧ t.rating.queue = rest ∧
      (n.left ≤ 1 → lineGrew s t .directory [completionWrite s slot n.copy .done n.deferred n.result]) ∧
      (1 < n.left → n.stage = .executing → Unanswered s t slot ∧ t.entryOf slot = some { n with left := n.left - 1 }) := by
  have hact := (folioEntryWritten_eq hq).2 slot horder
  have hfinish : taken (fun t => folioEntryWritten (takeReturn Source.isFolioQueue t)) s =
      finish (orderStep slot (s.entryLeft rest)) := by
    unfold taken
    dsimp only
    rw [beginStep_eq ho, hact]
  have hentry : (s.entryLeft rest).entryOf slot = some n := hn
  have hbase : (orderStep slot (s.entryLeft rest)).base = (s.entryLeft rest).base := orderStep_base ..
  have hlines : (orderStep slot (s.entryLeft rest)).arbiter.lines = s.arbiter.lines := by
    have hl := congrArg (fun b => b.2.2.2.1.lines) hbase
    exact hl
  have hends := finish_endsAs (orderStep slot (s.entryLeft rest))
  refine ⟨_, (exec_folioQueueWriteDone hr).trans (congrArg _ hfinish), hends.sameOuter (outer_sameOuter
    ((State.outer_of_base hbase).trans rfl)), ?_, fun hl => ?_, fun hl hstage => ?_⟩
  · rw [hends.rating, orderStep_rating]
    rfl
  · have hx := entryOf_updateEntry (s := s.entryLeft rest) (fun e => { e with left := 0 }) (fun _ => rfl) hentry
    have hraised := completeOrder_raises .done n.deferred n.result hx
    have hsame := completionWrite_congr (s := s) (t := updateEntry slot (fun e => { e with left := 0 }) (s.entryLeft rest)) rfl
    rw [hsame] at hraised
    refine lineGrew_of_ends hends hlines fun r hm => ?_
    rw [List.mem_singleton.mp hm, orderStep_last hentry hl]
    exact ⟨hraised, rfl⟩
  · rw [orderStep_waits hentry hl] at hlines ⊢
    have hx := entryOf_updateEntry (s := s.entryLeft rest) (fun e => { e with left := e.left - 1 }) (fun _ => rfl) hentry
    refine ⟨unanswered_of rfl ((entryLeft_mute ho rest slot).of_out rfl) hlines hx hstage, ?_⟩
    unfold State.entryOf
    rw [(finish_endsAs _).ring]
    exact hx

/-- The next entry is raised when none is (R140). -/
theorem raiseFolioWrite_next {s : State} {w : FolioWrite} (hr : s.rating.queueRaised = false)
    (hw : s.rating.queue[s.rating.queueGranted]? = some w) : raiseFolioWrite s =
      raise { source := .folioQueue, write := true, addr := w.addr, beats := w.lanes.length / 8, lanes := w.lanes }
        { s with rating.queueRaised := true } := by
  unfold raiseFolioWrite
  rw [if_neg (by rw [hr]; decide), hw]

theorem raiseFolioWrite_none {s : State} (hw : s.rating.queue[s.rating.queueGranted]? = none) : raiseFolioWrite s = s := by
  unfold raiseFolioWrite
  rw [hw]
  split <;> rfl

/-- The grant of an entry of the queue (R140). -/
theorem folioQueue_granted {s : State} {d : Decision} {r : Request} (ho : s.out = {}) (hd : s.decision = some d)
    (hr : s.granted = some r) (hsrc : r.source = .folioQueue) :
    (∀ w, s.rating.queue[s.rating.queueGranted + 1]? = some w →
      Completes .arbiterDecision s
        { carry r (settleGrant d s) with
          rating := { s.rating with queueRaised := true, queueGranted := s.rating.queueGranted + 1 }
          out.requests := [{ source := .folioQueue, write := true, addr := w.addr, beats := w.lanes.length / 8
                             lanes := w.lanes }] }) ∧
    (s.rating.queue[s.rating.queueGranted + 1]? = none →
      Completes .arbiterDecision s { carry r (settleGrant d s) with
        rating := { s.rating with queueRaised := false, queueGranted := s.rating.queueGranted + 1 } }) := by
  have heffect (u : State) : grantEffect r u = folioWriteGranted u := by
    unfold grantEffect
    rw [hsrc]
  obtain ⟨m, a, hc⟩ := carry_rest r d s
  refine ⟨fun w hw => decision_completes ho hd hr ?_, fun hw => decision_completes ho hd hr ?_⟩
  · rw [heffect, hc]
    unfold folioWriteGranted
    rw [raiseFolioWrite_next rfl hw]
    unfold raise
    rw [show s.out = {} from ho]
    rfl
  · rw [heffect, hc]
    unfold folioWriteGranted
    rw [raiseFolioWrite_none hw]

/-! ### Late and unbilled charges (R138) -/

/-- A call charged to the CLOSED folio it was captured with, its record stored (R138, R139). -/
theorem CallCounted.late {s x : State} {k rec : Nat} {w : WrittenState} {g : Folio} {pool : List Nat}
    (hx : CallCounted s x k w) (hroom : (s.trunk k).room < s.roomCount) (hserial : (s.trunk k).serial ≠ 0)
    (hf : ∀ f, (s.folios (s.trunk k).room).opened = some f → f.serial ≠ (s.trunk k).serial)
    (hg : (s.folios (s.trunk k).room).closed = some g) (hgs : g.serial = (s.trunk k).serial)
    (hp : s.rating.freePool = rec :: pool) (hq : g.entriesNeeded ≤ 64 - s.rating.queue.length) :
    let c := s.pricedCall k w.implicit
    let y := handOver c x
    y.folios (s.trunk k).room = { s.folios (s.trunk k).room with closed := some { g with
      total := saturate32 (g.total + c.amount), records := g.records ++ [rec], late := min 65535 (g.late + 1) } } ∧
    (∀ q, q ≠ (s.trunk k).room → y.folios q = s.folios q) ∧
    (∃ fs m raised n, y.rating = { s.endCounts w c.kind n with
      folios := fs, marks := m, freePool := pool, queueRaised := raised, lateCount := sat32 s.rating.lateCount
      queue := s.rating.queue ++ s.appendWrites g rec { c with late := true } none } ∧ (s.trunk k).room ∈ m) ∧
    ∃ l l', Told s y (l ++ s.unratedNotice k ++ ((if s.enabled .lateCharge then
      [⟨.lateCharge, (s.trunk k).room, s.stamp, g.serial, word32 c.amount⟩] else []) ++ l')) ∧
      l.length ≤ if w = .unknown then 1 else 0 := by
  intro c
  obtain ⟨hcr, hcs, -⟩ := pricedCall_kept s k w.implicit
  have hcr' : c.room = (s.trunk k).room := hcr
  have hcs' : c.serial = (s.trunk k).serial := hcs
  obtain ⟨n, hrat⟩ := hx.rating
  obtain ⟨l, hl, hlen⟩ := hx.told
  have hhand : handOver c x = lateCharge g c x := by
    refine handOver_late ?_ ?_ ?_ ?_ ?_
    · rw [hcr', hx.roomCount]; exact hroom
    · rw [hcs']; exact hserial
    · rw [hcr', hx.folios, hcs']; exact hf
    · rw [hcr', hx.folios, hg]
    · rw [hcs', hgs]
  dsimp only
  rw [hhand]
  unfold lateCharge
  dsimp only
  generalize hcl : ({ c with late := true } : Charge) = cl
  have hamount : cl.amount = c.amount := by rw [← hcl]
  rw [hcr']
  generalize hu : notify .rating .lateCharge (s.trunk k).room g.serial (word32 c.amount)
    { x with rating.lateCount := sat32 x.rating.lateCount } = u
  have hurat : u.rating = { x.rating with lateCount := sat32 x.rating.lateCount } := by rw [← hu, notify_rating]
  have hufol (q) : u.folios q = s.folios q := by
    rw [← hx.folios q]
    unfold State.folios
    rw [hurat]
  have hucontrol : u.control = x.control := by
    rw [← hu]
    exact control_of_base (notify_base ..)
  have htold := notify_told .lateCharge (s.trunk k).room g.serial (word32 c.amount)
    { x with rating.lateCount := sat32 x.rating.lateCount }
  rw [hu, show State.enabled { x with rating.lateCount := sat32 x.rating.lateCount } .lateCharge = s.enabled .lateCharge
      from hx.enabled _,
    show State.stamp { x with rating.lateCount := sat32 x.rating.lateCount } = s.stamp by
      show x.stamp = _
      unfold State.stamp
      rw [hx.time]] at htold
  have hpool : u.rating.freePool = rec :: pool := by rw [hurat, hrat]; exact hp
  have hfree : Folio.entriesNeeded { g with late := lateStep g.late } ≤ u.freeEntries := by
    unfold State.freeEntries
    rw [hurat, hrat]
    exact hq
  have hclosed := appendCharge_closed_folios (r := (s.trunk k).room) (f := { g with late := lateStep g.late })
    (c := cl) (order := none) hpool hfree
  obtain ⟨-, hother, ⟨fs, m, raised, hr, hm⟩, l', hl', -⟩ := appendCharge_stored_spec (r := (s.trunk k).room) (p := .closed)
    (f := { g with late := lateStep g.late }) (c := cl) (order := none) hpool hfree rfl
  have hwrites : u.appendWrites { g with late := lateStep g.late } rec cl none =
      s.appendWrites g rec cl none := by
    unfold State.appendWrites State.profile
    rw [hucontrol, hx.control]
  refine ⟨?_, fun q hqr => ?_, ⟨fs, m, raised, n, ?_, hm⟩, l, l', ?_, hlen⟩
  · rw [hclosed, hufol, ← hamount]
    rfl
  · rw [hother q hqr, hufol]
  · rw [hr, hwrites, hurat, hrat]
    rfl
  · have hpre : Told x { x with rating.lateCount := sat32 x.rating.lateCount } [] := .of_quiet ⟨rfl, rfl⟩
    exact hl.trans ((hpre.trans htold).trans hl')

/-- A call that no folio holds (R138). -/
theorem CallCounted.unbilled {s x : State} {k : Nat} {w : WrittenState} (hx : CallCounted s x k w)
    (h : s.roomCount ≤ (s.trunk k).room ∨ (s.trunk k).serial = 0 ∨
      ((∀ f, (s.folios (s.trunk k).room).opened = some f → f.serial ≠ (s.trunk k).serial) ∧
        ∀ g, (s.folios (s.trunk k).room).closed = some g → g.serial ≠ (s.trunk k).serial)) :
    let c := s.pricedCall k w.implicit
    let y := handOver c x
    (∃ n, y.rating = { s.endCounts w c.kind n with unbilledCount := sat32 s.rating.unbilledCount }) ∧
    ∃ l, Told s y (l ++ s.unratedNotice k ++ (if s.enabled .unbilledCharge then
      [⟨.unbilledCharge, if (s.trunk k).room < s.roomCount then (s.trunk k).room else 0xFFFF, s.stamp,
        twoItems k c.kind.code, word32 c.amount⟩] else [])) ∧
      l.length ≤ if w = .unknown then 1 else 0 := by
  intro c
  obtain ⟨hcr, hcs, hct⟩ := pricedCall_kept s k w.implicit
  have hcr' : c.room = (s.trunk k).room := hcr
  have hcs' : c.serial = (s.trunk k).serial := hcs
  have hct' : c.trunk = k := hct
  obtain ⟨n, hrat⟩ := hx.rating
  obtain ⟨l, hl, hlen⟩ := hx.told
  have hhand : handOver c x = Machine.unbilled c x := by
    refine handOver_unbilled ?_
    rw [hcr', hcs', hx.roomCount, hx.folios]
    exact h
  dsimp only
  rw [hhand]
  unfold Machine.unbilled
  rw [hcr', hct', hx.roomCount]
  have htold := notify_told .unbilledCharge (if (s.trunk k).room < s.roomCount then (s.trunk k).room else none16)
    (twoItems k c.kind.code) (word32 c.amount) { x with rating.unbilledCount := sat32 x.rating.unbilledCount }
  rw [show State.enabled { x with rating.unbilledCount := sat32 x.rating.unbilledCount } .unbilledCharge =
      s.enabled .unbilledCharge from hx.enabled _,
    show State.stamp { x with rating.unbilledCount := sat32 x.rating.unbilledCount } = s.stamp by
      show x.stamp = _
      unfold State.stamp
      rw [hx.time]] at htold
  refine ⟨⟨n, ?_⟩, l, ?_, hlen⟩
  · rw [notify_rating, hrat]
    rfl
  · have hpre : Told x { x with rating.unbilledCount := sat32 x.rating.unbilledCount } [] := .of_quiet ⟨rfl, rfl⟩
    exact hl.trans (hpre.trans htold)

/-- A CLEARED call that no OPEN folio takes (R138). -/
theorem clearedCall_routed {s : State} {k : Nat} {es : List (Nat × Byte)} {i : Nat} (ho : s.out = {})
    (h : s.leavesCarrying [.trunk k es]) (ha : s.control.state = .active) (hl : (s.trunkShadow k).loaded = true)
    (hany : es.any (fun e => decide (e.1 = 0)) = true)
    (hb : byteAt (mergeBytes trunkField (s.trunkShadow k).bytes es) 0 = 3#8)
    (hs : (s.trunk k).state = .answered) (hin : (s.trunk k).incoming = false)
    (hmatch : s.matchTariff (s.trunk k).digits = some i) :
    let c := priceBy (s.tariffShadow i) i (s.time.elapsed - (s.trunk k).answerCount).toNat (callCharge k false s)
    ∃ t x, exec .trunkClear s = .next t ∧ leavesMemory s t ∧ (t.trunk k).state = .idle ∧ CallCounted s x k .cleared ∧
      s.pricedCall k false = c ∧ (∃ tr, t.rating = { (handOver c x).rating with trunks := tr }) ∧
      (∀ q, t.folios q = (handOver c x).folios q) ∧
      ∀ l l', Told s (handOver c x) (l ++ s.unratedNotice k ++ l') → l.length ≤ 0 →
        t.notices.queue = s.notices.queue ++ l'.take (16 - s.notices.queue.length) := by
  intro c
  have hw : writtenStateOf (byteAt (mergeBytes trunkField (s.trunkShadow k).bytes es) 0) = .cleared := by rw [hb]; rfl
  obtain ⟨u, t, hu, ht, hx, hm⟩ := trunk_leaves (c := .trunkClear) ho rfl h ha hl hany hw
  obtain ⟨v, hv, hend⟩ := call_ends hu ho hw (by decide) hs ht
  obtain ⟨hcounted, hrate⟩ := hv.counted k
  obtain ⟨htk, htr, hfol, hq⟩ := hend (rateCall k WrittenState.cleared.implicit v)
    (by rw [if_neg (by rw [hin]; decide)])
  have hc : s.pricedCall k WrittenState.cleared.implicit = c := pricedCall_of_match hmatch false
  rw [hrate, hc] at htr hfol hq
  refine ⟨t, _, hx, hm, by rw [htk]; rfl, hcounted, hc, htr, hfol, fun l l' hl' hlen => ?_⟩
  rw [unratedNotice_of_match hmatch, List.append_nil, List.length_eq_zero_iff.mp (Nat.le_zero.mp hlen), List.nil_append] at hl'
  exact hq _ hl'

/-- Settles O57. -/
theorem folioOrdersKeepTheAccounts : Obligations.FolioOrdersKeepTheAccounts := by
  refine ⟨fun s slot copy f => ⟨fun k pool h hf hp hn => folioAdjust_stored h hf hp hn,
      fun h hf hfull => folioAdjust_refused h hf hfull, fun h hf => folioRelease_acts h hf⟩,
    fun s ret e rest ho hq hr => ⟨fun horder => ?_, fun slot en horder hn hl => ?_, fun slot en horder hn hl hstage => ?_⟩,
    fun s d r ho hd hr hsrc => folioQueue_granted ho hd hr hsrc,
    fun s k es i ho h ha hl hany hb hs hin hmatch => ?_⟩
  · have hact := (folioEntryWritten_eq hq).1 horder
    exact ⟨_, exec_folioQueueWriteDone hr, taken_endsAs' ho hact⟩
  · obtain ⟨t, hx, houter, hqueue, hdone, -⟩ := orderEntry_written ho hq hr horder hn
    exact ⟨t, hx, houter, hqueue, hdone hl⟩
  · obtain ⟨t, hx, houter, hqueue, -, hwaits⟩ := orderEntry_written ho hq hr horder hn
    exact ⟨t, hx, houter, hqueue, hwaits hl hstage⟩
  · obtain ⟨t, x, hx, hm, hidle, hcounted, hc, ⟨tr, htr⟩, hfol, hqueue⟩ := clearedCall_routed ho h ha hl hany hb hs hin hmatch
    dsimp only
    generalize priceBy (s.tariffShadow i) i (s.time.elapsed - (s.trunk k).answerCount).toNat (callCharge k false s) = c
      at hc htr hfol hqueue ⊢
    refine ⟨fun g rec pool hroom hserial hf hg hgs hp hn => ?_, fun hnone => ?_⟩
    · obtain ⟨hclosed, hother, ⟨fs, m, raised, n, hr, hmark⟩, l, l', hl', hlen⟩ :=
        hcounted.late hroom hserial hf hg hgs hp hn
      have hcost : s.pricedCall k WrittenState.cleared.implicit = c := hc
      rw [hcost] at hclosed hother hr hl'
      rw [hr] at htr
      refine ⟨t, hx, hm, hidle, by rw [hfol, hclosed]; rfl, fun q hqr => by rw [hfol, hother q hqr], by rw [htr], by rw [htr],
        by rw [htr]; exact hmark, by rw [htr], fun hen hlt => ?_⟩
      rw [hqueue _ _ hl' hlen, if_pos hen]
      exact List.mem_append_right _ (mem_take_of_append (a := []) (Nat.sub_pos_of_lt hlt))
    · obtain ⟨⟨n, hr⟩, l, hl', hlen⟩ := hcounted.unbilled hnone
      have hcost : s.pricedCall k WrittenState.cleared.implicit = c := hc
      rw [hcost] at hr hl'
      rw [hr] at htr
      refine ⟨t, hx, hm, hidle, by rw [htr]; rfl, by rw [htr]; rfl, by rw [htr]; rfl, by rw [htr], fun hen hlt => ?_⟩
      rw [hqueue _ _ hl' hlen, if_pos hen]
      exact List.mem_append_right _ (mem_take_of_append (a := []) (Nat.sub_pos_of_lt hlt))

end Sys2Proof.Machine
end

section
/-! PROOFS. Takes of blocks (2.5) and the answers a recording gets to them (3.3). -/

namespace Sys2Proof.Machine

/-! ### What an operation raises -/

/-- From `s` to `u` requests of sources with `p` are raised, and no other. -/
def Adds (p : Source → Prop) (s u : State) : Prop :=
  ∃ rs, u.out.requests = s.out.requests ++ rs ∧ ∀ r ∈ rs, p r.source

theorem Adds.of_same {p : Source → Prop} {s u : State} (h : u.out.requests = s.out.requests) : Adds p s u :=
  ⟨[], by rw [h, List.append_nil], nofun⟩

theorem Adds.trans {p : Source → Prop} {s t u : State} (h : Adds p s t) (g : Adds p t u) : Adds p s u := by
  obtain ⟨rs, hr, hp⟩ := h
  obtain ⟨qs, hq, hp'⟩ := g
  exact ⟨rs ++ qs, by rw [hq, hr, List.append_assoc], fun r hm => (List.mem_append.mp hm).elim (hp r) (hp' r)⟩

theorem Adds.mono {p q : Source → Prop} {s u : State} (h : Adds p s u) (hq : ∀ x, p x → q x) : Adds q s u := by
  obtain ⟨rs, hr, hp⟩ := h
  exact ⟨rs, hr, fun r hm => hq _ (hp r hm)⟩

theorem Adds.raised {p : Source → Prop} {s u : State} {x : Request} (h : Adds p s u) (hx : Raised x s) : Raised x u := by
  obtain ⟨rs, hr, -⟩ := h
  unfold Raised
  rw [hr]
  exact List.mem_append_left _ hx

theorem Adds.mute {p : Source → Prop} {s u : State} {slot : Nat} (h : Adds p s u) (hp : ∀ x, p x → x ≠ .completion slot)
    (hm : Mute slot s) : Mute slot u := by
  obtain ⟨rs, hr, hq⟩ := h
  intro r hin
  rw [hr] at hin
  exact (List.mem_append.mp hin).elim (hm r) fun h => hp _ (hq r h)

theorem Adds.raisedFor {p : Source → Prop} {s u : State} {who : Requester} (h : Adds p s u)
    (hp : ∀ x, p x → x.requester ≠ who) : u.raisedFor who = s.raisedFor who := by
  obtain ⟨rs, hr, hq⟩ := h
  unfold State.raisedFor
  have hnone : rs.filter (fun r => decide (r.source.requester = who)) = [] :=
    List.filter_eq_nil_iff.mpr fun r hm => by simpa using hp _ (hq r hm)
  rw [hr, List.filter_append, hnone, List.append_nil]

/-- A changed record: its write is raised unless one is pending (R30). -/
theorem updateMessage_eq (i : Nat) (m : Message) (s : State) :
    ∃ o, updateMessage i m s = { s.setMessage i m with out := o } ∧ o.notices = s.out.notices ∧
      Adds (· = .record i) s (updateMessage i m s) := by
  unfold updateMessage recordWrite
  split
  · exact ⟨_, rfl, rfl, .of_same rfl⟩
  · exact ⟨_, rfl, rfl, ⟨_, rfl, fun r hm => by rw [List.mem_singleton.mp hm]⟩⟩

/-- A completed order: its completion write is raised (R177). -/
theorem completeFor_eq (order : Option Nat) (st : Status) (res : List Byte) (s : State) :
    ∃ ri o, completeFor order st res s = { s with ring := ri, out := o } ∧ o.notices = s.out.notices ∧
      Adds (fun x => ∃ slot, order = some slot ∧ x = .completion slot) s (completeFor order st res s) := by
  unfold completeFor
  split
  · exact ⟨_, _, rfl, rfl, .of_same rfl⟩
  next slot =>
    unfold completeOrder
    split
    · exact ⟨_, _, rfl, rfl, .of_same rfl⟩
    · exact ⟨_, _, rfl, rfl, ⟨_, rfl, fun r hm => by rw [List.mem_singleton.mp hm]; exact ⟨slot, rfl, rfl⟩⟩⟩

/-! ### Evaluating a take (R23) -/

theorem takeReady_shrinks {l : List PocketEntry} {b : Nat} {below : List PocketEntry} (h : takeReady l = some (b, below)) :
    l.length = below.length + 1 := by
  induction l generalizing b below with
  | nil => cases h
  | cons e l ih =>
    cases e with
    | ready n =>
      obtain ⟨rfl, rfl⟩ := Prod.mk.inj (Option.some.inj h)
      rfl
    | arriving =>
      obtain ⟨⟨b', below'⟩, h', heq⟩ := Option.map_eq_some_iff.mp h
      obtain ⟨rfl, rfl⟩ := Prod.mk.inj heq
      simp [ih h']

/-- The refusal of a channel's take, in the terms of R23. -/
theorem takeRefusal_eq (s : State) (ch : Nat) :
    s.takeRefusal (s.message (s.channel ch).index).room (s.message (s.channel ch).index).urgent =
      if s.takeFull ch s.freeCount then some .storeFull
      else if s.takeBeyond ch (s.mailbox (s.message (s.channel ch).index).room).blocksUsed then some .quota else none := by
  unfold State.takeRefusal State.takeFull State.takeBeyond State.quotaOf
  simp only [decide_eq_true_eq, gt_iff_lt]

/-- The message of a take that was granted block `b`. -/
def Message.withBlock (m : Message) (b : Nat) : Message :=
  { m with blocks := m.blocks + 1, first := if m.first = none32 then b else m.first }

/-- A take from `n` free blocks falls below the store-low threshold (R25). -/
def State.takeFalls (s : State) (n : Nat) : Bool :=
  decide (s.profile.storeLowLevel ≤ n) && decide (n - 1 < s.profile.storeLowLevel)

/-- The store-low state, and the notice, after a take that was granted (R25). -/
theorem storeLowAfterTake_eq (n : Nat) (s : State) : ∃ o,
    storeLowAfterTake n s = { s with
      store.storeLow := if s.store.storeLow = .armed ∧ s.takeFalls n = true then .raised else s.store.storeLow, out := o } ∧
    o.requests = s.out.requests ∧
    o.notices = s.out.notices ++ (if s.store.storeLow = .armed ∧ s.takeFalls n = true then
      (if s.enabled .storeLow then [(.directory, ⟨.storeLow, none16, s.stamp, n - 1, s.profile.storeLowLevel⟩)] else [])
      else []) := by
  have hiff : (s.store.storeLow = .armed ∧ n ≥ s.profile.storeLowLevel ∧ n - 1 < s.profile.storeLowLevel) ↔
      (s.store.storeLow = .armed ∧ s.takeFalls n = true) := by
    unfold State.takeFalls
    simp only [Bool.and_eq_true, decide_eq_true_eq, ge_iff_le]
  unfold storeLowAfterTake
  dsimp only
  by_cases h : s.store.storeLow = .armed ∧ s.takeFalls n = true
  · rw [if_pos (hiff.mpr h), if_pos h, if_pos h]
    unfold notify
    by_cases he : s.enabled .storeLow = true
    · rw [if_pos (show State.enabled { s with store.storeLow := .raised } .storeLow = true from he), if_pos he]
      exact ⟨_, rfl, rfl, rfl⟩
    · rw [if_neg (show ¬ State.enabled { s with store.storeLow := .raised } .storeLow = true from he), if_neg he]
      exact ⟨_, rfl, rfl, (List.append_nil _).symm⟩
  · rw [if_neg (mt hiff.mp h), if_neg h, if_neg h]
    exact ⟨_, rfl, rfl, (List.append_nil _).symm⟩

/-- From `s` to `u` a take of message `i` has been granted block `b`, which leaves `below` in the pocket (R23, R25). -/
structure BlockTaken (s u : State) (i b : Nat) (below : List PocketEntry) : Prop where
  rest     : ∃ ms bs mk sl o, u = { s with
    store := { s.store with messages := ms, mailboxes := bs, marks := mk, storeLow := sl, pocket := below }, out := o }
  adds     : Adds (· = .record i) s u
  message  : ∀ j, u.message j = if j = i then (s.message i).withBlock b else s.message j
  mailbox  : ∀ q, u.mailbox q = if q = (s.message i).room then
    { s.mailbox (s.message i).room with blocksUsed := (s.mailbox (s.message i).room).blocksUsed + 1 } else s.mailbox q
  marks    : u.store.marks = addMark s.store.marks (s.message i).room
  storeLow : u.store.storeLow =
    if s.store.storeLow = .armed ∧ s.takeFalls s.freeCount = true then .raised else s.store.storeLow
  told     : u.out.notices = s.out.notices ++ (if s.store.storeLow = .armed ∧ s.takeFalls s.freeCount = true then
    (if s.enabled .storeLow then
      [(.directory, ⟨.storeLow, none16, s.stamp, s.freeCount - 1, s.profile.storeLowLevel⟩)] else []) else [])

theorem evalTake_granted {s : State} {i b : Nat} {below : List PocketEntry}
    (hr : s.takeRefusal (s.message i).room (s.message i).urgent = none) (hp : takeReady s.store.pocket = some (b, below)) :
    ∃ u, evalTake i s = (.block b, u) ∧ BlockTaken s u i b below := by
  refine ⟨_, by unfold evalTake; dsimp only; rw [hr]; dsimp only; rw [hp], ?_⟩
  generalize hv : ({ s with store.pocket := below } : State) = v
  have hvm : v.message = s.message := by rw [← hv]; rfl
  have hvb : v.mailbox = s.mailbox := by rw [← hv]; rfl
  obtain ⟨o, hu, hon, hadds⟩ := updateMessage_eq i { s.message i with
    blocks := (s.message i).blocks + 1
    first := if (s.message i).first = none32 then b else (s.message i).first } v
  have hum := updateMessage_message i { s.message i with
    blocks := (s.message i).blocks + 1
    first := if (s.message i).first = none32 then b else (s.message i).first } v
  have hub := updateMessage_mailbox i { s.message i with
    blocks := (s.message i).blocks + 1
    first := if (s.message i).first = none32 then b else (s.message i).first } v
  generalize updateMessage i _ v = u at hu hadds hum hub ⊢
  obtain ⟨o', hw, hreq, htold⟩ := storeLowAfterTake_eq s.freeCount
    (setBlocksUsed (s.message i).room ((s.mailbox (s.message i).room).blocksUsed + 1) u)
  have huo : u.out = o := by rw [hu]
  have hustore : u.store = { v.store with messages := Table.set {} v.store.messages i { s.message i with
      blocks := (s.message i).blocks + 1
      first := if (s.message i).first = none32 then b else (s.message i).first } } := by rw [hu]; rfl
  have hlow : (setBlocksUsed (s.message i).room ((s.mailbox (s.message i).room).blocksUsed + 1) u).store.storeLow =
      s.store.storeLow := by
    rw [setBlocksUsed_store_storeLow, hustore, ← hv]
  have hprofile : (setBlocksUsed (s.message i).room ((s.mailbox (s.message i).room).blocksUsed + 1) u).control = s.control := by
    rw [setBlocksUsed_control, hu, ← hv]
    rfl
  have htime : (setBlocksUsed (s.message i).room ((s.mailbox (s.message i).room).blocksUsed + 1) u).time = s.time := by
    rw [setBlocksUsed_time, hu, ← hv]
    rfl
  have hmarks : (setBlocksUsed (s.message i).room ((s.mailbox (s.message i).room).blocksUsed + 1) u).store.marks =
      addMark s.store.marks (s.message i).room := by
    rw [setBlocksUsed_store_marks, hustore, ← hv]
  have hmail := setBlocksUsed_mailbox (s.message i).room ((s.mailbox (s.message i).room).blocksUsed + 1) u
  have hmess := setBlocksUsed_message (s.message i).room ((s.mailbox (s.message i).room).blocksUsed + 1) u
  have hout := setBlocksUsed_out (s.message i).room ((s.mailbox (s.message i).room).blocksUsed + 1) u
  have hbox : ∃ bs mk, setBlocksUsed (s.message i).room ((s.mailbox (s.message i).room).blocksUsed + 1) u =
      { u with store := { u.store with mailboxes := bs, marks := mk } } := ⟨_, _, rfl⟩
  generalize setBlocksUsed (s.message i).room ((s.mailbox (s.message i).room).blocksUsed + 1) u = x at *
  have hfalls : x.takeFalls s.freeCount = s.takeFalls s.freeCount := by
    unfold State.takeFalls State.profile
    rw [hprofile]
  rw [hlow, hfalls] at hw htold
  generalize storeLowAfterTake s.freeCount x = y at hw ⊢
  have hyo : y.out = o' := by rw [hw]
  refine ⟨?_, ?_, fun j => ?_, fun q => ?_, ?_, by rw [hw], ?_⟩
  · obtain ⟨bs, mk, hx⟩ := hbox
    exact ⟨_, bs, mk, _, o', by rw [hw, hx, hu, ← hv]; rfl⟩
  · obtain ⟨rs, hrs, hall⟩ := hadds
    refine ⟨rs, ?_, hall⟩
    rw [hyo, hreq, hout, hrs, ← hv]
  · rw [show y.message j = x.message j by rw [hw]; rfl, hmess, hum, hvm]
    rfl
  · rw [show y.mailbox q = x.mailbox q by rw [hw]; rfl, hmail, hub, hub, hvb]
  · rw [hw]
    exact hmarks
  · rw [hyo, htold, hout, huo, hon, show x.enabled .storeLow = s.enabled .storeLow by
      unfold State.enabled State.profile; rw [hprofile], show x.stamp = s.stamp by unfold State.stamp; rw [htime],
      show x.profile = s.profile by unfold State.profile; rw [hprofile], ← hv]

theorem evalTake_refused {s : State} {i : Nat} {st : Status}
    (hr : s.takeRefusal (s.message i).room (s.message i).urgent = some st) : evalTake i s = (.refused st, s) := by
  unfold evalTake
  dsimp only
  rw [hr]

theorem evalTake_waits {s : State} {i : Nat} (hr : s.takeRefusal (s.message i).room (s.message i).urgent = none)
    (hp : takeReady s.store.pocket = none) : evalTake i s = (.wait, s) := by
  unfold evalTake
  dsimp only
  rw [hr]
  dsimp only
  rw [hp]

/-! ### The buffers of a recording -/

theorem writeBlock_eq (ch : Nat) (second : Bool) (next : Nat) (s : State) :
    writeBlock ch second next s =
      raiseAll (s.blockBursts ch second next) (s.setChannel ch ((s.channel ch).closedIn second next)) := rfl

theorem blockBursts_source {s : State} {ch : Nat} {second : Bool} {next : Nat} {r : Request}
    (h : r ∈ s.blockBursts ch second next) : ∃ k, r.source = .blockWrite ch second k := by
  obtain ⟨k, -, rfl⟩ := List.mem_map.mp h
  exact ⟨k, rfl⟩

/-- A block becomes FILLING in a buffer of channel `ch`: its record takes the pending gap (R8, R54). -/
theorem startFilling_eq (ch : Nat) (second : Bool) (b : Nat) (s : State) :
    ∃ ms o, startFilling ch second b s = { s.setChannel ch ((s.channel ch).fillingIn second b) with
        store := { s.store with messages := ms }, out := o } ∧ o.notices = s.out.notices ∧
      Adds (· = .record (s.channel ch).index) s (startFilling ch second b s) ∧
      ∀ j, (startFilling ch second b s).message j = if j = (s.channel ch).index then
        { s.message (s.channel ch).index with
          gapped := (s.message (s.channel ch).index).gapped || (s.channel ch).pendingGap } else s.message j := by
  have hsame (j) : (s.setChannel ch ((s.channel ch).fillingIn second b)).message j = s.message j := rfl
  unfold startFilling
  dsimp only
  cases hgap : (s.channel ch).pendingGap with
  | false =>
    rw [if_neg (by decide)]
    refine ⟨s.store.messages, s.out, ?_, rfl, .of_same rfl, fun j => ?_⟩
    · unfold Channel.fillingIn
      rw [hgap]
      rfl
    · split
      next hj => rw [hj, Bool.or_false]; rfl
      next => rfl
  | true =>
    rw [if_pos rfl]
    generalize hv : s.setChannel ch _ = v
    have hveq : v = s.setChannel ch ((s.channel ch).fillingIn second b) := by
      rw [← hv]
      unfold Channel.fillingIn
      rw [hgap]
    obtain ⟨o, hu, hon, hadds⟩ := updateMessage_eq (s.channel ch).index
      { v.message (s.channel ch).index with gapped := true } v
    have hmess := updateMessage_message (s.channel ch).index { v.message (s.channel ch).index with gapped := true } v
    generalize updateMessage (s.channel ch).index _ v = u at hu hadds hmess ⊢
    rw [hveq] at hu hadds hmess hon
    refine ⟨_, o, hu, hon, ?_, fun j => ?_⟩
    · obtain ⟨rs, hrs, hall⟩ := hadds
      exact ⟨rs, hrs, hall⟩
    · rw [hmess, hsame, hsame, Bool.or_true]

/-- A recording stops for LENGTH, STORE FULL or QUOTA (R56). -/
theorem stopRecording_eq (ch : Nat) (reason : StopReason) (s : State) :
    ∃ ms o, stopRecording ch reason s = { s.setChannel ch { s.channel ch with state := .stopped, stopReason := reason } with
        store := { s.store with messages := ms }, out := o } ∧
      o.notices = s.out.notices ++ (if s.enabled .recordingStopped then
        [(.directory, ⟨.recordingStopped, (s.message (s.channel ch).index).room, s.stamp, twoItems ch reason.code,
          (s.channel ch).position⟩)] else []) ∧
      Adds (· = .record (s.channel ch).index) s (stopRecording ch reason s) ∧
      ∀ j, (stopRecording ch reason s).message j = if j = (s.channel ch).index then
        { s.message (s.channel ch).index with truncated := true, length := (s.channel ch).position } else s.message j := by
  unfold stopRecording
  dsimp only
  generalize hv : s.setChannel ch { s.channel ch with state := .stopped, stopReason := reason } = v
  have hvm : v.message = s.message := by rw [← hv]; rfl
  have hvo : v.out = s.out := by rw [← hv]; rfl
  have hvc : v.control = s.control := by rw [← hv]; rfl
  have hvt : v.time = s.time := by rw [← hv]; rfl
  have hvs : v.store = s.store := by rw [← hv]; rfl
  have hvch : v.channel ch = { s.channel ch with state := .stopped, stopReason := reason } := by
    rw [← hv, channel_setChannel, if_pos rfl]
  obtain ⟨o, hu, hon, hadds⟩ := updateMessage_eq (s.channel ch).index
    { s.message (s.channel ch).index with truncated := true, length := (s.channel ch).position } v
  have hmess := updateMessage_message (s.channel ch).index
    { s.message (s.channel ch).index with truncated := true, length := (s.channel ch).position } v
  generalize updateMessage (s.channel ch).index _ v = u at hu hadds hmess ⊢
  have huc : u.channel ch = { s.channel ch with state := .stopped, stopReason := reason } := by
    rw [← hvch, hu]
    rfl
  have huen : u.enabled .recordingStopped = s.enabled .recordingStopped := by
    unfold State.enabled State.profile
    rw [show u.control = s.control by rw [hu, ← hvc]; rfl]
  have hust : u.stamp = s.stamp := by
    unfold State.stamp
    rw [show u.time = s.time by rw [hu, ← hvt]; rfl]
  have huo : u.out = o := by rw [hu]
  have hadds' : Adds (· = .record (s.channel ch).index) s u := by
    obtain ⟨rs, hrs, hall⟩ := hadds
    exact ⟨rs, by rw [hrs, hvo], hall⟩
  obtain ⟨ms, hms⟩ : ∃ ms, u = { v with store := { s.store with messages := ms }, out := o } :=
    ⟨_, by rw [hu, ← hvs]; rfl⟩
  unfold noticeStopped
  dsimp only
  rw [huc]
  dsimp only
  rw [hmess, if_pos rfl]
  unfold notify
  rw [huen]
  split
  · refine ⟨ms, { o with notices := o.notices ++ [(.directory, ⟨.recordingStopped,
      (s.message (s.channel ch).index).room, s.stamp, twoItems ch reason.code, (s.channel ch).position⟩)] }, ?_, ?_, ?_,
      fun j => ?_⟩
    · rw [huo, hust, hms]
    · rw [← hvo, ← hon]
    · obtain ⟨rs, hrs, hall⟩ := hadds'
      exact ⟨rs, hrs, hall⟩
    · show u.message j = _
      rw [hmess, hvm]
  · refine ⟨ms, o, hms, ?_, hadds', fun j => ?_⟩
    · rw [hon, hvo, List.append_nil]
    · rw [hmess, hvm]

/-! ### The release of a message that records (R37) -/

theorem freeRecord_eq (i : Nat) (s : State) :
    ∃ ms fr o, freeRecord i s = { s with store := { s.store with messages := ms, freeRecords := fr }, out := o } ∧
      o.notices = s.out.notices ∧ Adds (· = .record i) s (freeRecord i s) ∧
      ((s.message i).generation < 65535 → i ∈ fr) := by
  obtain ⟨o, hu, hon, hadds⟩ := updateMessage_eq i { s.message i with state := .free, next := none16 } s
  unfold freeRecord
  dsimp only
  generalize updateMessage i { s.message i with state := .free, next := none16 } s = u at hu hadds ⊢
  have hstore : u.store = { s.store with messages := u.store.messages } := by rw [hu]; rfl
  split
  next h => exact ⟨u.store.messages, s.store.freeRecords, o, by rw [hu]; rfl, hon, hadds, fun hl => by omega⟩
  next h =>
    refine ⟨u.store.messages, _, o, by rw [hu]; rfl, hon, ?_, fun _ => mem_addMark.mpr (.inl rfl)⟩
    obtain ⟨rs, hrs, hall⟩ := hadds
    exact ⟨rs, hrs, hall⟩

/-- The sources of what the release of message `i` raises. -/
def Source.ofRelease (i : Nat) (x : Source) : Prop := x = .record i ∨ x = .walkHeader

theorem startWalk_eq (s : State) : ∃ wk o, startWalk s = { s with store.walk := wk, out := o } ∧
    o.notices = s.out.notices ∧ Adds (· = .walkHeader) s (startWalk s) ∧ (s.store.walk.isSome = true → startWalk s = s) := by
  unfold startWalk
  split
  next e _ hw _ =>
    exact ⟨_, _, rfl, rfl, ⟨_, rfl, fun r hm => by rw [List.mem_singleton.mp hm]⟩, fun h => by rw [hw] at h; cases h⟩
  next => exact ⟨_, _, rfl, rfl, .of_same rfl, fun _ => rfl⟩

theorem queueChain_eq (i : Nat) (cause : Cause) (s : State) :
    ∃ ms fr rq wk o, queueChain i cause s = { s with
      store := { s.store with messages := ms, freeRecords := fr, releaseQueue := rq, walk := wk }, out := o } ∧
      o.notices = s.out.notices ∧ Adds (Source.ofRelease i) s (queueChain i cause s) ∧
      ((s.message i).blocks = 0 → (s.message i).generation < 65535 → i ∈ fr) ∧
      ((s.message i).blocks = 0 → rq = s.store.releaseQueue) ∧
      (0 < (s.message i).blocks → rq = s.store.releaseQueue ++ [⟨(s.message i).first, (s.message i).blocks, i, cause⟩]) := by
  unfold queueChain
  dsimp only
  by_cases hb : (s.message i).blocks > 0
  · rw [if_pos hb]
    obtain ⟨wk, o, hu, hon, hadds, -⟩ := startWalk_eq { s with
      store.releaseQueue := s.store.releaseQueue ++ [⟨(s.message i).first, (s.message i).blocks, i, cause⟩] }
    refine ⟨s.store.messages, s.store.freeRecords, _, wk, o, hu, hon, ?_, fun h => by omega, fun h => by omega, fun _ => rfl⟩
    obtain ⟨rs, hrs, hall⟩ := hadds
    exact ⟨rs, hrs, fun r hm => .inr (hall r hm)⟩
  · rw [if_neg hb]
    obtain ⟨ms, fr, o, hu, hon, hadds, hfree⟩ := freeRecord_eq i s
    exact ⟨ms, fr, s.store.releaseQueue, s.store.walk, o, hu, hon, hadds.mono fun x hx => .inl hx, fun _ => hfree,
      fun _ => rfl, fun h => absurd h hb⟩

/-- From `s` to `u` message `i`, which records, has been released (R37). -/
structure RecordingReleased (s u : State) (i : Nat) (cause : Cause) : Prop where
  rest     : ∃ ms bs mk fr rq wk o, u = { s with store := { s.store with
    messages := ms, mailboxes := bs, marks := mk, freeRecords := fr, releaseQueue := rq, walk := wk }, out := o }
  told     : u.out.notices = s.out.notices
  adds     : Adds (Source.ofRelease i) s u
  message  : ∀ j, u.message j = if j = i then
    (if (s.message i).readers = 0 ∧ (s.message i).blocks = 0 then { s.message i with state := .free, next := 0xFFFF }
     else { s.message i with state := .deleting }) else s.message j
  mailbox  : ∀ q, u.mailbox q = if q = (s.message i).room then
    { s.mailbox (s.message i).room with places := (s.mailbox (s.message i).room).places - 1 } else s.mailbox q
  freed    : (s.message i).readers = 0 → (s.message i).blocks = 0 → (s.message i).generation < 65535 →
    i ∈ u.store.freeRecords
  marks    : (s.message i).room ∈ u.store.marks ∧ ∀ q ∈ s.store.marks, q ∈ u.store.marks
  queue    : u.store.releaseQueue = if (s.message i).readers = 0 ∧ 0 < (s.message i).blocks then
    s.store.releaseQueue ++ [⟨(s.message i).first, (s.message i).blocks, i, cause⟩] else s.store.releaseQueue

theorem releaseRecorded_eq {s : State} {i : Nat} (cause : Cause) (hst : (s.message i).state = .recording) :
    releaseMessage i cause s = endRelease i (s.message i) cause (setPlaces (s.message i).room
      ((s.mailbox (s.message i).room).places - 1) (updateMessage i { s.message i with state := .deleting } s)) := by
  unfold releaseMessage endRelease
  dsimp only
  rw [if_neg (c := (s.message i).state.listed = true) (by rw [hst]; decide), if_pos (c := (s.message i).state = .recording) hst,
    updateMessage_mailbox]

theorem releaseRecorded {s : State} {i : Nat} (cause : Cause) (hst : (s.message i).state = .recording) :
    RecordingReleased s (releaseMessage i cause s) i cause := by
  rw [releaseRecorded_eq cause hst]
  obtain ⟨o, hu, hon, hadds⟩ := updateMessage_eq i { s.message i with state := .deleting } s
  have hum := updateMessage_message i { s.message i with state := .deleting } s
  have hub := updateMessage_mailbox i { s.message i with state := .deleting } s
  generalize updateMessage i { s.message i with state := .deleting } s = u at hu hadds hum hub ⊢
  have hust : u.store = { s.store with messages := u.store.messages } := by rw [hu]; rfl
  have hvmail := setPlaces_mailbox (s.message i).room ((s.mailbox (s.message i).room).places - 1) u
  have hvmess := setPlaces_message (s.message i).room ((s.mailbox (s.message i).room).places - 1) u
  have hvmarks := setPlaces_store_marks (s.message i).room ((s.mailbox (s.message i).room).places - 1) u
  have hveq : ∃ bs mk, setPlaces (s.message i).room ((s.mailbox (s.message i).room).places - 1) u =
      { u with store := { u.store with mailboxes := bs, marks := mk } } := ⟨_, _, rfl⟩
  generalize setPlaces (s.message i).room ((s.mailbox (s.message i).room).places - 1) u = v at *
  obtain ⟨bs, mk, hv⟩ := hveq
  have hvi : v.message i = { s.message i with state := .deleting } := by rw [hvmess, hum, if_pos rfl]
  have hvadds : Adds (· = .record i) s v := by
    obtain ⟨rs, hrs, hall⟩ := hadds
    exact ⟨rs, by rw [hv]; exact hrs, hall⟩
  have hvout : v.out = o := by rw [hv, hu]
  have hvstore : v.store = { s.store with messages := u.store.messages, mailboxes := bs, marks := mk } := by
    rw [hv, hust]
  have hveq : v = { s with store := v.store, out := o } := by
    rw [hv, hu]
    rfl
  have hmess := endRelease_message i (s.message i) cause v
  obtain ⟨hmail, -, hmarks, -⟩ := endRelease_rest i (s.message i) cause v
  have hmark : (s.message i).room ∈ v.store.marks ∧ ∀ q ∈ s.store.marks, q ∈ v.store.marks := by
    rw [hvmarks, hust]
    exact ⟨mem_addMark.mpr (.inl rfl), fun q hq => mem_addMark.mpr (.inr hq)⟩
  have hmessage (j : Nat) : (endRelease i (s.message i) cause v).message j = if j = i then
      (if (s.message i).readers = 0 ∧ (s.message i).blocks = 0 then { s.message i with state := .free, next := 0xFFFF }
       else { s.message i with state := .deleting }) else s.message j := by
    rw [hmess, hvi, hvmess, hum]
    by_cases hj : j = i
    · rw [if_pos hj, if_pos hj]
      by_cases hfree : (s.message i).readers = 0 ∧ (s.message i).blocks = 0
      · have hnow : (s.message i).readers = 0 ∧ j = i ∧ (s.message i).blocks = 0 := ⟨hfree.1, hj, hfree.2⟩
        exact (if_pos hnow).trans (if_pos hfree).symm
      · have hnow : ¬ ((s.message i).readers = 0 ∧ j = i ∧ (s.message i).blocks = 0) := fun h => hfree ⟨h.1, h.2.2⟩
        exact (if_neg hnow).trans (if_neg hfree).symm
    · rw [if_neg hj, if_neg hj, if_neg fun h => hj h.2.1]
  have hmailbox (q : Nat) : (endRelease i (s.message i) cause v).mailbox q = if q = (s.message i).room then
      { s.mailbox (s.message i).room with places := (s.mailbox (s.message i).room).places - 1 } else s.mailbox q := by
    rw [hmail, hvmail, hub, hub]
  by_cases hr : (s.message i).readers = 0
  · have he : endRelease i (s.message i) cause v = queueChain i cause v := if_pos hr
    obtain ⟨ms, fr, rq, wk, o', hq, hon', hqadds, hfree, hnone, hchain⟩ := queueChain_eq i cause v
    rw [hvi] at hfree hnone hchain
    rw [he] at hmessage hmailbox hmarks ⊢
    refine ⟨⟨ms, bs, mk, fr, rq, wk, o', by rw [hq, hveq, hvstore]⟩, by rw [hq]; exact hon'.trans (by rw [hvout, hon]),
      (hvadds.mono fun x hx => .inl hx).trans hqadds, hmessage, hmailbox, fun _ hb hg => by rw [hq]; exact hfree hb hg,
      by rw [hmarks]; exact hmark, ?_⟩
    rw [show (queueChain i cause v).store.releaseQueue = rq by rw [hq]]
    have hvq : v.store.releaseQueue = s.store.releaseQueue := by rw [hvstore]
    by_cases hb : 0 < (s.message i).blocks
    · rw [hchain hb, hvq, if_pos ⟨hr, hb⟩]
    · rw [hnone (Nat.eq_zero_of_not_pos hb), hvq, if_neg fun h => hb h.2]
  · have he : endRelease i (s.message i) cause v = v := if_neg hr
    rw [he] at hmessage hmailbox ⊢
    refine ⟨⟨_, bs, mk, s.store.freeRecords, s.store.releaseQueue, s.store.walk, o, by rw [hveq, hvstore]⟩,
      by rw [hvout, hon], hvadds.mono fun x hx => .inl hx, hmessage, hmailbox, fun h => absurd h hr, hmark, ?_⟩
    rw [hvstore, if_neg fun h => hr h.1]

end Sys2Proof.Machine
end

section
/-! PROOFS. The answers of takes, in a step that asks and in the take line (2.5, 3.3). -/

namespace Sys2Proof.Machine

/-! ### Fields of a channel that its buffers leave alone -/

@[simp] theorem setBuffer_index (c : Channel) (second : Bool) (b : Buffer) : (c.setBuffer second b).index = c.index := by
  cases second <;> rfl
@[simp] theorem setBuffer_pendingGap (c : Channel) (second : Bool) (b : Buffer) :
    (c.setBuffer second b).pendingGap = c.pendingGap := by cases second <;> rfl
@[simp] theorem setBuffer_state (c : Channel) (second : Bool) (b : Buffer) : (c.setBuffer second b).state = c.state := by
  cases second <;> rfl
@[simp] theorem setBuffer_position (c : Channel) (second : Bool) (b : Buffer) :
    (c.setBuffer second b).position = c.position := by cases second <;> rfl
@[simp] theorem setBuffer_order (c : Channel) (second : Bool) (b : Buffer) : (c.setBuffer second b).order = c.order := by
  cases second <;> rfl
@[simp] theorem closedIn_index (c : Channel) (second : Bool) (next : Nat) : (c.closedIn second next).index = c.index :=
  setBuffer_index ..
@[simp] theorem closedIn_pendingGap (c : Channel) (second : Bool) (next : Nat) :
    (c.closedIn second next).pendingGap = c.pendingGap := setBuffer_pendingGap ..
@[simp] theorem closedIn_position (c : Channel) (second : Bool) (next : Nat) :
    (c.closedIn second next).position = c.position := setBuffer_position ..
theorem closedIn_other (c : Channel) (second : Bool) (next : Nat) :
    (c.closedIn second next).buffer (!second) = c.buffer (!second) := by cases second <;> rfl

/-! ### A take that is granted (R23, R50, R52) -/

/-- The notice of a take that falls below the threshold (R25). -/
def State.lowNotices (s : State) : List (Requester × Notice) :=
  if s.store.storeLow = .armed ∧ s.takeFalls s.freeCount = true then
    (if s.enabled .storeLow then
      [(.directory, ⟨.storeLow, none16, s.stamp, s.freeCount - 1, s.profile.storeLowLevel⟩)] else [])
  else []

/-- From `s` to `w` the take of channel `ch` has been granted block `b`, which leaves `below` in the pocket. -/
structure TakeGranted (s w : State) (ch : Nat) (below : List PocketEntry) : Prop where
  rest     : ∃ vo ms bs mk sl ri o, w = { s with
    voice := vo, ring := ri, out := o
    store := { s.store with messages := ms, mailboxes := bs, marks := mk, storeLow := sl, pocket := below } }
  message  : ∀ j, j ≠ (s.channel ch).index → w.message j = s.message j
  mailbox  : ∀ q, w.mailbox q = if q = (s.message (s.channel ch).index).room then
    { s.mailbox (s.message (s.channel ch).index).room with
      blocksUsed := (s.mailbox (s.message (s.channel ch).index).room).blocksUsed + 1 } else s.mailbox q
  marks    : w.store.marks = addMark s.store.marks (s.message (s.channel ch).index).room
  storeLow : w.store.storeLow =
    if s.store.storeLow = .armed ∧ s.takeFalls s.freeCount = true then .raised else s.store.storeLow
  told     : w.out.notices = s.out.notices ++ s.lowNotices
  channels : ∀ k, k ≠ ch → w.channel k = s.channel k

/-- The steps from the state with the block taken to the answer. -/
theorem takeGranted_of {s u w : State} {ch b : Nat} {below : List PocketEntry}
    (hu : BlockTaken s u (s.channel ch).index b below)
    (hw : ∃ vo ms ri o, w = { u with voice := vo, ring := ri, out := o, store := { u.store with messages := ms } })
    (ho : w.out.notices = u.out.notices) (hm : ∀ j, j ≠ (s.channel ch).index → w.message j = u.message j)
    (hc : ∀ k, k ≠ ch → w.channel k = u.channel k) : TakeGranted s w ch below := by
  obtain ⟨ms, bs, mk, sl, o, hrest⟩ := hu.rest
  obtain ⟨vo, ms', ri, o', hwu⟩ := hw
  have hsame (q) : w.mailbox q = u.mailbox q := by rw [hwu]; rfl
  refine ⟨⟨vo, ms', bs, mk, sl, ri, o', by rw [hwu, hrest]⟩, fun j hj => ?_, fun q => (hsame q).trans (hu.mailbox q), ?_, ?_,
    ?_, fun k hk => ?_⟩
  · rw [hm j hj, hu.message, if_neg hj]
  · rw [hwu]
    exact hu.marks
  · rw [hwu]
    exact hu.storeLow
  · rw [ho, hu.told]
    rfl
  · rw [hc k hk, hrest]
    rfl

/-- An OPENING channel is granted its first block (R50). -/
theorem answer_starts {s u : State} {ch b : Nat} {below : List PocketEntry} (hst : (s.channel ch).state = .opening)
    (hu : BlockTaken s u (s.channel ch).index b below) :
    TakeGranted s (answerTake ch (.block b) u) ch below ∧
    (answerTake ch (.block b) u).channel ch = { (s.channel ch).fillingIn false b with state := .recording, order := none } ∧
    (answerTake ch (.block b) u).message (s.channel ch).index = { (s.message (s.channel ch).index).withBlock b with
      gapped := (s.message (s.channel ch).index).gapped || (s.channel ch).pendingGap } ∧
    Adds (fun x => x = .record (s.channel ch).index ∨ ∃ slot, (s.channel ch).order = some slot ∧ x = .completion slot) s
      (answerTake ch (.block b) u) ∧
    ∀ slot e, (s.channel ch).order = some slot → s.entryOf slot = some e →
      Raised (completionWrite s slot e.copy .done false (recordOpenResults ch (s.channel ch))) (answerTake ch (.block b) u) := by
  obtain ⟨ms, bs, mk, sl, o, hrest⟩ := hu.rest
  have huc : u.channel = s.channel := by rw [hrest]; rfl
  unfold answerTake answerOpening
  rw [huc, if_pos hst]
  dsimp only
  obtain ⟨ms', o', hx, hon, hadds, hmess⟩ := startFilling_eq ch false b u
  rw [huc] at hx hadds hmess
  generalize startFilling ch false b u = x at hx hadds hmess ⊢
  have hxc : x.channel ch = (s.channel ch).fillingIn false b := by
    rw [hx]
    exact (channel_setChannel ..).trans (if_pos rfl)
  generalize hy : x.setChannel ch { x.channel ch with state := .recording, order := none } = y
  have hyo : y.out = x.out := by rw [← hy]; rfl
  obtain ⟨ri, o'', hw, hon', hadds'⟩ := completeFor_eq (s.channel ch).order .done (recordOpenResults ch (s.channel ch)) y
  have hyring : y.ring = s.ring := by rw [← hy, hx, hrest]; rfl
  have hyprofile : y.profile = s.profile := by rw [← hy, hx, hrest]; rfl
  have hdone (slot : Nat) (e : InFlight) (hord : (s.channel ch).order = some slot) (he : s.entryOf slot = some e) :
      Raised (completionWrite s slot e.copy .done false (recordOpenResults ch (s.channel ch)))
        (completeFor (s.channel ch).order .done (recordOpenResults ch (s.channel ch)) y) := by
    have hey : y.entryOf slot = some e := by
      unfold State.entryOf
      rw [hyring]
      exact he
    rw [hord, ← completionWrite_congr hyprofile]
    exact completeOrder_raises .done false _ hey
  generalize completeFor (s.channel ch).order .done (recordOpenResults ch (s.channel ch)) y = w at hw hadds' hdone ⊢
  have hwm (j : Nat) : w.message j = x.message j := by rw [hw, ← hy]; rfl
  have hwc (k : Nat) : w.channel k = y.channel k := by rw [hw]; rfl
  have hyc (k : Nat) : y.channel k = if k = ch then { x.channel ch with state := .recording, order := none } else x.channel k := by
    rw [← hy, channel_setChannel]
  refine ⟨takeGranted_of hu ⟨w.voice, ms', ri, o'', ?_⟩ ?_ (fun j hj => ?_) (fun k hk => ?_), ?_, ?_, ?_, hdone⟩
  · rw [hw, ← hy, hx]
    rfl
  · rw [hw]
    exact hon'.trans (by rw [hyo, hx]; exact hon)
  · rw [hwm, hmess, if_neg hj]
  · rw [hwc, hyc, if_neg hk, hx, ← huc]
    exact (channel_setChannel ..).trans (if_neg hk)
  · rw [hwc, hyc, if_pos rfl, hxc]
  · rw [hwm, hmess, if_pos rfl, hu.message, if_pos rfl]
    rfl
  · have h1 : Adds (· = .record (s.channel ch).index) s x := hu.adds.trans hadds
    have h2 : Adds (· = .record (s.channel ch).index) s y := by
      obtain ⟨rs, hrs, hall⟩ := h1
      exact ⟨rs, by rw [hyo]; exact hrs, hall⟩
    exact (h2.mono fun _ h => .inl h).trans (hadds'.mono fun _ h => .inr h)

/-- A RECORDING channel with a FULL block is granted the next one (R52). -/
theorem answer_goes_on {s u : State} {ch b : Nat} {full : Bool} {below : List PocketEntry}
    (hst : (s.channel ch).state ≠ .opening) (hfull : (s.channel ch).bufferIn .full = some full)
    (hu : BlockTaken s u (s.channel ch).index b below) :
    TakeGranted s (answerTake ch (.block b) u) ch below ∧ (answerTake ch (.block b) u).ring = s.ring ∧
    Adds (fun x => x = .record (s.channel ch).index ∨ ∃ k, x = .blockWrite ch full k) s (answerTake ch (.block b) u) ∧
    (∀ r ∈ s.blockBursts ch full b, Raised r (answerTake ch (.block b) u)) ∧
    (((s.channel ch).buffer (!full)).cond = .empty →
      (answerTake ch (.block b) u).channel ch = ((s.channel ch).closedIn full b).fillingIn (!full) b ∧
      (answerTake ch (.block b) u).message (s.channel ch).index = { (s.message (s.channel ch).index).withBlock b with
        gapped := (s.message (s.channel ch).index).gapped || (s.channel ch).pendingGap }) ∧
    (((s.channel ch).buffer (!full)).cond ≠ .empty →
      (answerTake ch (.block b) u).channel ch = { (s.channel ch).closedIn full b with waitingBlock := some b } ∧
      (answerTake ch (.block b) u).message (s.channel ch).index = (s.message (s.channel ch).index).withBlock b) := by
  obtain ⟨ms, bs, mk, sl, o, hrest⟩ := hu.rest
  have huc : u.channel = s.channel := by rw [hrest]; rfl
  have hub : u.blockBursts ch full b = s.blockBursts ch full b := by
    unfold State.blockBursts State.profile
    rw [huc, hrest]
  unfold answerTake answerRecording
  rw [huc, if_neg hst, hfull]
  dsimp only
  rw [writeBlock_eq, hub, huc]
  generalize hx : raiseAll (s.blockBursts ch full b) (u.setChannel ch ((s.channel ch).closedIn full b)) = x
  have hxc (k : Nat) : x.channel k = if k = ch then (s.channel ch).closedIn full b else s.channel k := by
    rw [← hx, ← huc]
    exact channel_setChannel ..
  have hxo : x.out = { u.out with requests := u.out.requests ++ s.blockBursts ch full b } := by rw [← hx]; rfl
  have hxadds : Adds (fun x => x = .record (s.channel ch).index ∨ ∃ k, x = .blockWrite ch full k) s x := by
    refine (hu.adds.mono fun _ h => .inl h).trans ⟨s.blockBursts ch full b, by rw [hxo], fun r hm => ?_⟩
    exact .inr (blockBursts_source hm)
  have hxr (r : Request) (hm : r ∈ s.blockBursts ch full b) : Raised r x := by
    unfold Raised
    rw [hxo]
    exact List.mem_append_right _ hm
  have hxm (j : Nat) : x.message j = u.message j := by rw [← hx]; rfl
  have hxring : x.ring = s.ring := by rw [← hx, hrest]; rfl
  rw [hxc, if_pos rfl, closedIn_other]
  by_cases hempty : ((s.channel ch).buffer (!full)).cond = .empty
  · rw [if_pos hempty]
    obtain ⟨ms', o', hy, hon, hadds, hmess⟩ := startFilling_eq ch (!full) b x
    rw [hxc, if_pos rfl] at hy hadds hmess
    rw [closedIn_index] at hadds hmess
    rw [closedIn_pendingGap] at hmess
    generalize startFilling ch (!full) b x = y at hy hadds hmess ⊢
    refine ⟨takeGranted_of hu ⟨y.voice, ms', y.ring, o', ?_⟩ ?_ (fun j hj => ?_) (fun k hk => ?_), ?_,
      hxadds.trans (hadds.mono fun _ h => .inl h), fun r hm => hadds.raised (hxr r hm), fun _ => ⟨?_, ?_⟩,
      fun h => absurd hempty h⟩
    · rw [hy, ← hx]
      rfl
    · rw [hy]
      exact hon.trans (by rw [hxo])
    · rw [hmess, if_neg hj, hxm]
    · rw [hy]
      exact ((channel_setChannel ..).trans (if_neg hk)).trans (by rw [hxc, if_neg hk, huc])
    · rw [hy]
      exact hxring
    · rw [hy]
      exact (channel_setChannel ..).trans (if_pos rfl)
    · rw [hmess, if_pos rfl, hxm, hu.message, if_pos rfl]
      rfl
  · rw [if_neg hempty]
    generalize hy : x.setChannel ch _ = y
    have hyc (k : Nat) : y.channel k = if k = ch then { (s.channel ch).closedIn full b with waitingBlock := some b }
        else x.channel k := by rw [← hy, channel_setChannel]
    have hyo : y.out = x.out := by rw [← hy]; rfl
    have hym (j : Nat) : y.message j = x.message j := by rw [← hy]; rfl
    refine ⟨takeGranted_of hu ⟨y.voice, u.store.messages, u.ring, x.out, ?_⟩ ?_ (fun j hj => ?_) (fun k hk => ?_), ?_, ?_,
      fun r hm => ?_, fun h => absurd h hempty, fun _ => ⟨?_, ?_⟩⟩
    · rw [← hy, ← hx]
      rfl
    · rw [hyo, hxo]
    · rw [hym, hxm]
    · rw [hyc, if_neg hk, hxc, if_neg hk, huc]
    · rw [← hy]
      exact hxring
    · obtain ⟨rs, hrs, hall⟩ := hxadds
      exact ⟨rs, by rw [hyo, hrs], hall⟩
    · unfold Raised
      rw [hyo]
      exact hxr r hm
    · rw [hyc, if_pos rfl]
    · rw [hym, hxm, hu.message, if_pos rfl]

/-! ### A take that is refused (R23, R50, R52) -/

/-- From `s` to `w` the take of channel `ch` has been refused: no block moves. -/
structure TakeRefused (s w : State) (ch : Nat) : Prop where
  rest     : ∃ vo ms bs mk fr rq wk ri o, w = { s with
    voice := vo, ring := ri, out := o
    store := { s.store with
      messages := ms, mailboxes := bs, marks := mk, freeRecords := fr, releaseQueue := rq, walk := wk } }
  message  : ∀ j, j ≠ (s.channel ch).index → w.message j = s.message j
  mailbox  : ∀ q, q ≠ (s.message (s.channel ch).index).room → w.mailbox q = s.mailbox q
  used     : ∀ q, (w.mailbox q).blocksUsed = (s.mailbox q).blocksUsed
  channels : ∀ k, k ≠ ch → w.channel k = s.channel k

/-- An OPENING channel is refused its first block (R50). -/
theorem answer_fails {s : State} {ch : Nat} {st : Status} (hst : (s.channel ch).state = .opening)
    (hm : (s.message (s.channel ch).index).state = .recording) :
    TakeRefused s (answerTake ch (.refused st) s) ch ∧
    (answerTake ch (.refused st) s).channel ch = { s.channel ch with state := .free, order := none } ∧
    (answerTake ch (.refused st) s).out.notices = s.out.notices ∧
    ((s.message (s.channel ch).index).readers = 0 → (s.message (s.channel ch).index).blocks = 0 →
      (answerTake ch (.refused st) s).message (s.channel ch).index =
        { s.message (s.channel ch).index with state := .free, next := 0xFFFF } ∧
      (answerTake ch (.refused st) s).mailbox (s.message (s.channel ch).index).room =
        { s.mailbox (s.message (s.channel ch).index).room with
          places := (s.mailbox (s.message (s.channel ch).index).room).places - 1 }) ∧
    Adds (fun x => x.ofRelease (s.channel ch).index ∨ ∃ slot, (s.channel ch).order = some slot ∧ x = .completion slot) s
      (answerTake ch (.refused st) s) ∧
    ∀ slot e, (s.channel ch).order = some slot → s.entryOf slot = some e →
      Raised (completionWrite s slot e.copy st false []) (answerTake ch (.refused st) s) := by
  unfold answerTake answerOpening
  rw [if_pos hst]
  dsimp only
  have hrel := releaseRecorded .silent hm
  generalize releaseMessage (s.channel ch).index .silent s = u at hrel ⊢
  obtain ⟨ms, bs, mk, fr, rq, wk, o, hu⟩ := hrel.rest
  generalize hy : u.setChannel ch { s.channel ch with state := .free, order := none } = y
  have hyo : y.out = u.out := by rw [← hy]; rfl
  have hyc (k : Nat) : y.channel k = if k = ch then { s.channel ch with state := .free, order := none } else s.channel k := by
    rw [← hy, channel_setChannel, hu]
    rfl
  have hym (j : Nat) : y.message j = u.message j := by rw [← hy]; rfl
  have hyb (q : Nat) : y.mailbox q = u.mailbox q := by rw [← hy]; rfl
  have hyring : y.ring = s.ring := by rw [← hy, hu]; rfl
  have hyprofile : y.profile = s.profile := by rw [← hy, hu]; rfl
  obtain ⟨ri, o', hw, hon, hadds⟩ := completeFor_eq (s.channel ch).order st [] y
  have hdone (slot : Nat) (e : InFlight) (hord : (s.channel ch).order = some slot) (he : s.entryOf slot = some e) :
      Raised (completionWrite s slot e.copy st false []) (completeFor (s.channel ch).order st [] y) := by
    have hey : y.entryOf slot = some e := by
      unfold State.entryOf
      rw [hyring]
      exact he
    rw [hord, ← completionWrite_congr hyprofile]
    exact completeOrder_raises st false _ hey
  generalize completeFor (s.channel ch).order st [] y = w at hw hadds hdone ⊢
  have hwm (j : Nat) : w.message j = u.message j := (show w.message j = y.message j by rw [hw]; rfl).trans (hym j)
  have hwb (q : Nat) : w.mailbox q = u.mailbox q := (show w.mailbox q = y.mailbox q by rw [hw]; rfl).trans (hyb q)
  have hwc (k : Nat) : w.channel k = y.channel k := by rw [hw]; rfl
  refine ⟨⟨⟨w.voice, ms, bs, mk, fr, rq, wk, ri, o', ?_⟩, fun j hj => ?_, fun q hq => ?_, fun q => ?_, fun k hk => ?_⟩,
    ?_, ?_, fun hread hb => ⟨?_, ?_⟩, ?_, hdone⟩
  · rw [hw, ← hy, hu]
    rfl
  · rw [hwm, hrel.message, if_neg hj]
  · rw [hwb, hrel.mailbox, if_neg hq]
  · rw [hwb, hrel.mailbox]
    split
    next h => rw [h]
    next => rfl
  · rw [hwc, hyc, if_neg hk]
  · rw [hwc, hyc, if_pos rfl]
  · rw [hw]
    exact hon.trans (by rw [hyo, hrel.told])
  · rw [hwm, hrel.message, if_pos rfl, if_pos ⟨hread, hb⟩]
  · rw [hwb, hrel.mailbox, if_pos rfl]
  · obtain ⟨rs, hrs, hall⟩ := hrel.adds
    have h2 : Adds (Source.ofRelease (s.channel ch).index) s y := ⟨rs, by rw [hyo, hrs], hall⟩
    exact (h2.mono fun _ h => .inl h).trans (hadds.mono fun _ h => .inr h)

/-- The reason a refused take stops its recording for (R52, R56). -/
def Status.stops (st : Status) : StopReason := if st = .quota then .quota else .storeFull

/-- A RECORDING channel with a FULL block is refused the next one (R52, R56). -/
theorem answer_stops {s : State} {ch : Nat} {full : Bool} {st : Status} (hst : (s.channel ch).state ≠ .opening)
    (hfull : (s.channel ch).bufferIn .full = some full) :
    TakeRefused s (answerTake ch (.refused st) s) ch ∧ (answerTake ch (.refused st) s).ring = s.ring ∧ (answerTake ch (.refused st) s).mailbox = s.mailbox ∧
    (answerTake ch (.refused st) s).channel ch =
      { (s.channel ch).closedIn full none32 with state := .stopped, stopReason := st.stops } ∧
    (answerTake ch (.refused st) s).message (s.channel ch).index =
      { s.message (s.channel ch).index with truncated := true, length := (s.channel ch).position } ∧
    (answerTake ch (.refused st) s).out.notices = s.out.notices ++ (if s.enabled .recordingStopped then
      [(.directory, ⟨.recordingStopped, (s.message (s.channel ch).index).room, s.stamp, twoItems ch st.stops.code,
        (s.channel ch).position⟩)] else []) ∧
    Adds (fun x => x = .record (s.channel ch).index ∨ ∃ k, x = .blockWrite ch full k) s (answerTake ch (.refused st) s) ∧
    ∀ r ∈ s.blockBursts ch full none32, Raised r (answerTake ch (.refused st) s) := by
  unfold answerTake answerRecording
  rw [if_neg hst, hfull]
  dsimp only
  rw [show (if st = .quota then StopReason.quota else .storeFull) = st.stops from rfl, writeBlock_eq]
  generalize hx : raiseAll (s.blockBursts ch full none32) (s.setChannel ch ((s.channel ch).closedIn full none32)) = x
  have hxc (k : Nat) : x.channel k = if k = ch then (s.channel ch).closedIn full none32 else s.channel k := by
    rw [← hx]
    exact channel_setChannel ..
  have hxo : x.out = { s.out with requests := s.out.requests ++ s.blockBursts ch full none32 } := by rw [← hx]; rfl
  have hxm (j : Nat) : x.message j = s.message j := by rw [← hx]; rfl
  have hxen : x.enabled .recordingStopped = s.enabled .recordingStopped := by rw [← hx]; rfl
  have hxst : x.stamp = s.stamp := by rw [← hx]; rfl
  obtain ⟨ms, o, hw, htold, hadds, hmess⟩ := stopRecording_eq ch st.stops x
  rw [hxc, if_pos rfl] at hw htold hadds hmess
  rw [closedIn_index] at htold hadds hmess
  rw [closedIn_position] at htold hmess
  rw [hxen, hxst, hxm, hxo] at htold
  generalize stopRecording ch st.stops x = w at hw hadds hmess ⊢
  have hwc (k : Nat) : w.channel k = if k = ch then
      { (s.channel ch).closedIn full none32 with state := .stopped, stopReason := st.stops } else s.channel k := by
    rw [hw]
    refine (channel_setChannel ..).trans ?_
    by_cases hk : k = ch
    · rw [if_pos hk, if_pos hk]
    · rw [if_neg hk, if_neg hk, hxc, if_neg hk]
  have hwb : w.mailbox = s.mailbox := by rw [hw, ← hx]; rfl
  obtain ⟨vo, o', hxs⟩ : ∃ vo o', x = { s with voice := vo, out := o' } := ⟨_, _, by rw [← hx]; rfl⟩
  refine ⟨⟨⟨w.voice, ms, s.store.mailboxes, s.store.marks, s.store.freeRecords, s.store.releaseQueue, s.store.walk, s.ring, o,
    ?_⟩, fun j hj => ?_, fun q _ => by rw [hwb], fun q => by rw [hwb], fun k hk => by rw [hwc, if_neg hk]⟩, ?_, hwb,
    by rw [hwc, if_pos rfl], ?_, ?_, ?_, fun r hm => hadds.raised ?_⟩
  · rw [hw, hxs]
    rfl
  · rw [hmess, if_neg hj, hxm]
  · rw [hw, hxs]
    rfl
  · rw [hmess, if_pos rfl, hxm]
  · rw [hw]
    exact htold
  · have h1 : Adds (fun x => x = .record (s.channel ch).index ∨ ∃ k, x = .blockWrite ch full k) s x :=
      ⟨s.blockBursts ch full none32, by rw [hxo], fun r hm => .inr (blockBursts_source hm)⟩
    exact h1.trans (hadds.mono fun _ h => .inl h)
  · unfold Raised
    rw [hxo]
    exact List.mem_append_right _ hm

/-- Whatever a refused take's channel does, no block moves. -/
theorem answer_refused {s : State} {ch : Nat} {st : Status} (hm : (s.message (s.channel ch).index).state = .recording) :
    TakeRefused s (answerTake ch (.refused st) s) ch := by
  by_cases hst : (s.channel ch).state = .opening
  · exact (answer_fails hst hm).1
  · cases hfull : (s.channel ch).bufferIn .full with
    | some full => exact (answer_stops hst hfull).1
    | none =>
      have he : answerTake ch (.refused st) s = s := by
        unfold answerTake answerRecording
        rw [if_neg hst, hfull]
      rw [he]
      exact ⟨⟨_, _, _, _, _, _, _, _, _, rfl⟩, fun _ _ => rfl, fun _ _ => rfl, fun _ => rfl, fun _ _ => rfl⟩

/-! ### Requests that are made, and the take line (R23, R24) -/

theorem requestTake_granted {s u : State} {ch b : Nat} (h : evalTake (s.channel ch).index s = (.block b, u)) :
    requestTake ch s = answerTake ch (.block b) u := by
  unfold requestTake
  rw [h]

theorem requestTake_refused {s : State} {ch : Nat} {st : Status}
    (hr : s.takeRefusal (s.message (s.channel ch).index).room (s.message (s.channel ch).index).urgent = some st) :
    requestTake ch s = answerTake ch (.refused st) s := by
  unfold requestTake
  rw [evalTake_refused hr]

theorem requestTake_waits {s : State} {ch : Nat}
    (hr : s.takeRefusal (s.message (s.channel ch).index).room (s.message (s.channel ch).index).urgent = none)
    (hp : takeReady s.store.pocket = none) :
    requestTake ch s = { s with store.takeLine := s.store.takeLine ++ [ch] } := by
  unfold requestTake
  rw [evalTake_waits hr hp]

/-- A take that is granted while its request leaves the line (R24). -/
theorem BlockTaken.leaving {s u : State} {i b : Nat} {below : List PocketEntry} (h : BlockTaken s u i b below) (l : List Nat) :
    BlockTaken { s with store.takeLine := l } { u with store.takeLine := l } i b below := by
  obtain ⟨ms, bs, mk, sl, o, hrest⟩ := h.rest
  refine ⟨⟨ms, bs, mk, sl, o, by rw [hrest]⟩, ?_, h.message, h.mailbox, h.marks, h.storeLow, h.told⟩
  obtain ⟨rs, hrs, hall⟩ := h.adds
  exact ⟨rs, hrs, hall⟩

end Sys2Proof.Machine
end

section
/-! PROOFS. The take line served as an entry becomes ready: returned pops, and the walk (2.4, 2.5, 2.7). -/

namespace Sys2Proof.Machine

/-! ### The take line (R24) -/

/-- Whatever the channel does with the block, it is taken (R23). -/
theorem answer_granted {s u : State} {ch b : Nat} {below : List PocketEntry}
    (hu : BlockTaken s u (s.channel ch).index b below) : TakeGranted s (answerTake ch (.block b) u) ch below := by
  by_cases hst : (s.channel ch).state = .opening
  · exact (answer_starts hst hu).1
  · cases hfull : (s.channel ch).bufferIn .full with
    | some full => exact (answer_goes_on hst hfull hu).1
    | none =>
      have huc : u.channel ch = s.channel ch := by
        obtain ⟨ms, bs, mk, sl, o, hrest⟩ := hu.rest
        rw [hrest]
        rfl
      have he : answerTake ch (.block b) u = u := by
        unfold answerTake answerRecording
        rw [huc, if_neg hst, hfull]
      rw [he]
      exact takeGranted_of hu ⟨u.voice, u.store.messages, u.ring, u.out, rfl⟩ rfl (fun _ _ => rfl) fun _ _ => rfl

theorem TakeGranted.pocket {s w : State} {ch : Nat} {below : List PocketEntry} (h : TakeGranted s w ch below) :
    w.store.pocket = below ∧ w.store.takeLine = s.store.takeLine ∧ w.store.pushLine = s.store.pushLine ∧
    w.store.stackOp = s.store.stackOp ∧ w.stackCount = s.stackCount ∧ w.store.walk = s.store.walk := by
  obtain ⟨vo, ms, bs, mk, sl, ri, o, hrest⟩ := h.rest
  rw [hrest]
  exact ⟨rfl, rfl, rfl, rfl, rfl, rfl⟩

theorem TakeGranted.freeCount {s w : State} {ch b : Nat} {below : List PocketEntry} (h : TakeGranted s w ch below)
    (hp : takeReady s.store.pocket = some (b, below)) : w.freeCount = s.freeCount - 1 := by
  obtain ⟨hpocket, -, hpush, -, hstack, -⟩ := h.pocket
  have hlen := takeReady_shrinks hp
  unfold State.freeCount
  rw [hpocket, hpush, hstack]
  omega

theorem TakeRefused.pocket {s w : State} {ch : Nat} (h : TakeRefused s w ch) :
    w.store.pocket = s.store.pocket ∧ w.store.takeLine = s.store.takeLine ∧ w.freeCount = s.freeCount ∧
    w.store.stackOp = s.store.stackOp := by
  obtain ⟨vo, ms, bs, mk, fr, rq, wk, ri, o, hrest⟩ := h.rest
  rw [hrest]
  exact ⟨rfl, rfl, rfl, rfl⟩

theorem serveTakeLine_stops {s : State} (n : Nat) (h : s.store.takeLine = [] ∨ takeReady s.store.pocket = none) :
    serveTakeLine n s = s := by
  cases n with
  | zero => rfl
  | succ n =>
    unfold serveTakeLine
    cases hl : s.store.takeLine with
    | nil => rfl
    | cons ch rest =>
      have hp := h.resolve_left (by rw [hl]; exact List.cons_ne_nil _ _)
      dsimp only
      rw [if_neg (by unfold State.pocketReady; rw [hp]; decide)]

/-- With one ready entry the oldest take gets it, and the line waits again (R24). -/
theorem takeLineTurn_granted {s u : State} {ch b : Nat} {rest : List Nat} {below : List PocketEntry}
    (hl : s.store.takeLine = ch :: rest) (hp : takeReady s.store.pocket = some (b, below)) (hbelow : takeReady below = none)
    (he : evalTake (s.channel ch).index s = (.block b, u)) (hu : BlockTaken s u (s.channel ch).index b below) :
    takeLineTurn s = answerTake ch (.block b) { u with store.takeLine := rest } := by
  have hgrant := answer_granted (s := { s with store.takeLine := rest }) (ch := ch) (hu.leaving rest)
  unfold takeLineTurn
  rw [hl, List.length_cons]
  unfold serveTakeLine
  rw [hl]
  dsimp only
  rw [if_pos (by unfold State.pocketReady; rw [hp]; rfl), he]
  exact serveTakeLine_stops _ (.inr (by rw [hgrant.pocket.1]; exact hbelow))

/-- A refused take that no other one waits behind (R24). -/
theorem takeLineTurn_refused {s : State} {ch b : Nat} {below : List PocketEntry} {st : Status}
    (hl : s.store.takeLine = [ch]) (hp : takeReady s.store.pocket = some (b, below))
    (hm : (s.message (s.channel ch).index).state = .recording)
    (hr : s.takeRefusal (s.message (s.channel ch).index).room (s.message (s.channel ch).index).urgent = some st) :
    takeLineTurn s = answerTake ch (.refused st) { s with store.takeLine := [] } := by
  have hrefused := answer_refused (s := { s with store.takeLine := [] }) (ch := ch) (st := st) hm
  unfold takeLineTurn
  rw [hl]
  show serveTakeLine 1 s = _
  unfold serveTakeLine
  rw [hl]
  dsimp only
  rw [if_pos (by unfold State.pocketReady; rw [hp]; rfl), evalTake_refused hr]
  exact serveTakeLine_stops _ (.inl hrefused.pocket.2.1)

/-! ### A step that makes one entry ready -/

theorem stillChannel_of_state {s : State} {k : Nat} {c : Channel} (h : s.channel k = c) (hp : c.state ≠ .playing)
    (he : c.state ≠ .ended) : s.stillChannel k := by
  unfold State.stillChannel
  rw [h]
  exact ⟨hp, he⟩

/-- In `v`, the state of step `s` in which the take line is served, block `b` is the one ready entry of the pocket. -/
structure TakeFinds (s v : State) (ch b : Nat) (rest : List Nat) (below : List PocketEntry) : Prop where
  line     : v.store.takeLine = ch :: rest
  pocket   : v.store.pocket = .ready b :: below
  scarce   : takeReady below = none
  channels : v.channel = s.channel
  messages : v.message = s.message
  places   : (v.mailbox (s.message (s.channel ch).index).room).places =
    (s.mailbox (s.message (s.channel ch).index).room).places
  shadows  : v.roomShadow = s.roomShadow
  control  : v.control = s.control
  time     : v.time = s.time
  ring     : v.ring = s.ring
  lines    : v.arbiter.lines = s.arbiter.lines
  notices  : v.notices = s.notices
  told     : v.out.notices = []

/-- What is left of the step after the line is served touches neither takes nor channels. -/
def TakeLeaves (w x : State) : Prop :=
  ∃ wk rs, x = { w with store.walk := wk, out.requests := w.out.requests ++ rs }

theorem TakeLeaves.refl (w : State) : TakeLeaves w w := ⟨w.store.walk, [], by rw [List.append_nil]⟩

theorem TakeLeaves.raised {w x : State} {r : Request} (h : TakeLeaves w x) (hr : Raised r w) : Raised r x := by
  obtain ⟨wk, rs, rfl⟩ := h
  exact List.mem_append_left _ hr

/-- The frame of a step that serves one take. -/
structure TakeFrame (s v t : State) (ch : Nat) : Prop where
  message  : ∀ j, j ≠ (s.channel ch).index → t.message j = s.message j
  mailbox  : ∀ q, q ≠ (s.message (s.channel ch).index).room → t.mailbox q = v.mailbox q
  channels : ∀ k, k ≠ ch → s.stillChannel k → t.channel k = s.channel k
  lamp     : t.lamp = v.lamp
  stackOp  : t.store.stackOp = v.store.stackOp

section
variable {s v x t : State} {ch b : Nat} {rest : List Nat} {below : List PocketEntry}
  (hv : TakeFinds s v ch b rest below)
include hv

theorem TakeFinds.profile : v.profile = s.profile := by unfold State.profile; rw [hv.control]

theorem TakeFinds.refusal :
    v.takeRefusal (v.message (v.channel ch).index).room (v.message (v.channel ch).index).urgent =
      if s.takeFull ch v.freeCount then some .storeFull
      else if s.takeBeyond ch (v.mailbox (s.message (s.channel ch).index).room).blocksUsed then some .quota else none := by
  rw [takeRefusal_eq]
  unfold State.takeFull State.takeBeyond
  rw [hv.channels, hv.messages, hv.shadows, hv.profile]

theorem TakeFinds.ready : takeReady v.store.pocket = some (b, below) := by rw [hv.pocket]; rfl

/-- The take is granted (R50, R52). -/
theorem TakeFinds.granted (hx : TakeLeaves (takeLineTurn v) x) (ht : EndsAs x t)
    (hfew : s.takeFull ch v.freeCount = false)
    (hbeyond : s.takeBeyond ch (v.mailbox (s.message (s.channel ch).index).room).blocksUsed = false) :
    TakeServed s t ch b rest below v.freeCount (v.mailbox (s.message (s.channel ch).index).room).blocksUsed ∧
    TakeFrame s v t ch := by
  have hr := hv.refusal
  rw [hfew, hbeyond, if_neg (by decide), if_neg (by decide)] at hr
  obtain ⟨u, he, hu⟩ := evalTake_granted hr hv.ready
  have hturn := takeLineTurn_granted hv.line hv.ready hv.scarce he hu
  have hl := hu.leaving rest
  have hg := answer_granted (s := { v with store.takeLine := rest }) (ch := ch) hl
  generalize hw : answerTake ch (.block b) { u with store.takeLine := rest } = w at hturn hg
  obtain ⟨hpocket, hline, -, hop, -, -⟩ := hg.pocket
  have hfree := hg.freeCount hv.ready
  rw [hturn] at hx
  have hraised (r : Request) (h : Raised r w) : Raised r x := hx.raised h
  obtain ⟨wk, rs, hxw⟩ := hx
  have hbase : w.base = v.base := by
    obtain ⟨vo, ms, bs, mk, sl, ri, o, hrest⟩ := hg.rest
    rw [hrest]
    rfl
  have hxc (k : Nat) : x.channel k = w.channel k := by rw [hxw]; rfl
  have hxm (j : Nat) : x.message j = w.message j := by rw [hxw]; rfl
  have hxb (q : Nat) : x.mailbox q = w.mailbox q := by rw [hxw]; rfl
  have hlines : x.arbiter.lines = s.arbiter.lines := by
    have h := congrArg (fun b => b.2.2.2.1.lines) hbase
    rw [hxw]
    exact (h : w.arbiter.lines = v.arbiter.lines).trans hv.lines
  have hgrew (who : Requester) (l : List Request) (h : ∀ r ∈ l, Raised r w ∧ r.source.requester = who) : lineGrew s t who l :=
    lineGrew_of_ends ht hlines fun r hm => ⟨hraised r (h r hm).1, (h r hm).2⟩
  have hvc : State.channel { v with store.takeLine := rest } = s.channel := hv.channels
  have hvm : State.message { v with store.takeLine := rest } = s.message := hv.messages
  have hbursts (full : Bool) : State.blockBursts { v with store.takeLine := rest } ch full b = s.blockBursts ch full b := by
    unfold State.blockBursts
    rw [hvc, show State.profile { v with store.takeLine := rest } = s.profile from hv.profile]
  have hgm := hg.message
  have hgb := hg.mailbox
  have hgc := hg.channels
  rw [hvc] at hgm hgb
  rw [hvm] at hgm hgb
  rw [hvc] at hgc
  have hstarts (hst : (s.channel ch).state = .opening) := answer_starts (s := { v with store.takeLine := rest }) (ch := ch)
    (by rw [hvc]; exact hst) hl
  have hgoes {full : Bool} (hst : (s.channel ch).state = .recording) (hfull : (s.channel ch).bufferIn .full = some full) :=
    answer_goes_on (s := { v with store.takeLine := rest }) (ch := ch) (full := full)
      (by rw [hvc, hst]; decide) (by rw [hvc]; exact hfull) hl
  rw [hw, hvc, hvm] at hstarts
  rw [hw, hvc, hvm] at hgoes
  simp only [hbursts] at hgoes
  refine ⟨⟨fun _ _ => ⟨?_, ?_, ?_, ?_, fun hst => ⟨?_, ?_, fun slot e hord hent => ?_⟩, fun full hst hfull =>
      ⟨?_, fun hempty => ⟨?_, ?_⟩, fun hempty => ⟨?_, ?_⟩⟩⟩, fun h => ?_⟩, ⟨fun j hj => ?_, fun q hq => ?_, fun k hk hs => ?_, ?_, ?_⟩⟩
  · rw [ht.store, hxw]
    exact hline
  · rw [ht.store, hxw]
    exact hpocket
  · rw [freeCount_congr ht.store ht.control, hxw]
    exact hfree
  · rw [ht.mailbox, hxb, hgb, if_pos rfl]
    rfl
  · obtain ⟨-, hc, -⟩ := hstarts hst
    have hxch : x.channel ch = { (s.channel ch).fillingIn false b with state := .recording, order := none } := by
      rw [hxc, hc]
    rw [ht.channels ch (stillChannel_of_state hxch nofun nofun), hxch]
  · obtain ⟨-, -, hm, -⟩ := hstarts hst
    rw [ht.message, hxm, hm]
    rfl
  · obtain ⟨-, -, -, -, hdone⟩ := hstarts hst
    have hent' : State.entryOf { v with store.takeLine := rest } slot = some e := by
      unfold State.entryOf
      rw [show State.ring { v with store.takeLine := rest } = s.ring from hv.ring]
      exact hent
    have h := hdone slot e hord hent'
    have hsame := completionWrite_congr (s := s) (t := { v with store.takeLine := rest }) hv.profile slot e.copy .done false
      (recordOpenResults ch (s.channel ch))
    rw [hsame] at h
    refine hgrew .directory _ fun r hm => ?_
    rw [List.mem_singleton.mp hm]
    exact ⟨h, rfl⟩
  · obtain ⟨-, -, -, hb, -⟩ := hgoes hst hfull
    refine hgrew .voice _ fun r hm => ⟨hb r hm, ?_⟩
    obtain ⟨k, hk⟩ := blockBursts_source hm
    rw [hk]
    rfl
  · obtain ⟨-, -, -, -, hempt, -⟩ := hgoes hst hfull
    have hxch := (hxc ch).trans (hempt hempty).1
    have hstate : (((s.channel ch).closedIn full b).fillingIn (!full) b).state = (s.channel ch).state :=
      (setBuffer_state ..).trans (setBuffer_state ..)
    rw [ht.channels ch (stillChannel_of_state hxch (by rw [hstate, hst]; decide) (by rw [hstate, hst]; decide)), hxch]
  · obtain ⟨-, -, -, -, hempt, -⟩ := hgoes hst hfull
    rw [ht.message, hxm, (hempt hempty).2]
    rfl
  · obtain ⟨-, -, -, -, -, hother⟩ := hgoes hst hfull
    have hxch := (hxc ch).trans (hother hempty).1
    have hstate : ((s.channel ch).closedIn full b).state = (s.channel ch).state := setBuffer_state ..
    rw [ht.channels ch (stillChannel_of_state hxch (by show Channel.state (Channel.closedIn _ _ _) ≠ _; rw [hstate, hst]; decide)
      (by show Channel.state (Channel.closedIn _ _ _) ≠ _; rw [hstate, hst]; decide)), hxch]
  · obtain ⟨-, -, -, -, -, hother⟩ := hgoes hst hfull
    rw [ht.message, hxm, (hother hempty).2]
    rfl
  · rw [hfew, hbeyond] at h
    exact absurd h (by decide)
  · rw [ht.message, hxm, hgm j hj]
  · rw [ht.mailbox, hxb, hgb, if_neg hq]
    rfl
  · have hk' : x.channel k = s.channel k := by rw [hxc, hgc k hk]
    rw [ht.channels k (hs.of_eq hk'), hk']
  · obtain ⟨vo, ms, bs, mk, sl, ri, o, hrest⟩ := hg.rest
    rw [ht.lamp, hxw, hrest]
  · rw [ht.store, hxw]
    exact hop

/-- The take is refused, no other one waiting behind it (R50, R52, R56). -/
theorem TakeFinds.refused (hx : TakeLeaves (takeLineTurn v) x) (ht : t = finish x) (hrest : rest = [])
    (hm : (s.message (s.channel ch).index).state = .recording)
    (hno : s.takeFull ch v.freeCount = true ∨
      s.takeBeyond ch (v.mailbox (s.message (s.channel ch).index).room).blocksUsed = true) :
    TakeServed s t ch b rest below v.freeCount (v.mailbox (s.message (s.channel ch).index).room).blocksUsed ∧
    TakeFrame s v t ch := by
  subst hrest
  obtain ⟨st, hr, hstatus⟩ : ∃ st, v.takeRefusal (v.message (v.channel ch).index).room (v.message (v.channel ch).index).urgent =
      some st ∧ st = if s.takeFull ch v.freeCount then Status.storeFull else .quota := by
    rw [hv.refusal]
    cases hfull : s.takeFull ch v.freeCount with
    | true => exact ⟨_, rfl, rfl⟩
    | false => exact ⟨.quota, by rw [if_neg (by decide), if_pos (hno.resolve_left (by rw [hfull]; decide))], rfl⟩
  have hvm' : (v.message (v.channel ch).index).state = .recording := by rw [hv.channels, hv.messages]; exact hm
  have hturn := takeLineTurn_refused hv.line hv.ready hvm' hr
  have hg := answer_refused (s := { v with store.takeLine := [] }) (ch := ch) (st := st) hvm'
  have hfails (hst : (v.channel ch).state = .opening) :=
    answer_fails (s := { v with store.takeLine := [] }) (ch := ch) (st := st) hst hvm'
  have hstops {full : Bool} (hst : (v.channel ch).state ≠ .opening) (hfull : (v.channel ch).bufferIn .full = some full) :=
    answer_stops (s := { v with store.takeLine := [] }) (ch := ch) (full := full) (st := st) hst hfull
  generalize answerTake ch (.refused st) { v with store.takeLine := [] } = w at hturn hg hfails hstops
  obtain ⟨hpocket, hline, hfree, hop⟩ := hg.pocket
  rw [hturn] at hx
  have hraised (r : Request) (h : Raised r w) : Raised r x := hx.raised h
  obtain ⟨wk, rs, hxw⟩ := hx
  have hends : EndsAs x t := by rw [ht]; exact finish_endsAs x
  have hbase : w.base = v.base := by
    obtain ⟨vo, ms, bs, mk, fr, rq, wk, ri, o, hrest⟩ := hg.rest
    rw [hrest]
    rfl
  have hxc (k : Nat) : x.channel k = w.channel k := by rw [hxw]; rfl
  have hxm (j : Nat) : x.message j = w.message j := by rw [hxw]; rfl
  have hxb (q : Nat) : x.mailbox q = w.mailbox q := by rw [hxw]; rfl
  have hlines : x.arbiter.lines = s.arbiter.lines := by
    have h := congrArg (fun b => b.2.2.2.1.lines) hbase
    rw [hxw]
    exact (h : w.arbiter.lines = v.arbiter.lines).trans hv.lines
  have hxn : x.notices = s.notices := by
    have h := congrArg (fun b => b.2.2.2.2) hbase
    rw [hxw]
    exact (h : w.notices = v.notices).trans hv.notices
  have hgrew (who : Requester) (l : List Request) (h : ∀ r ∈ l, Raised r w ∧ r.source.requester = who) : lineGrew s t who l :=
    lineGrew_of_ends hends hlines fun r hm => ⟨hraised r (h r hm).1, (h r hm).2⟩
  have hvc : State.channel { v with store.takeLine := [] } = s.channel := hv.channels
  have hvm : State.message { v with store.takeLine := [] } = s.message := hv.messages
  have hven : State.enabled { v with store.takeLine := [] } .recordingStopped = s.enabled .recordingStopped := by
    unfold State.enabled
    rw [show State.profile { v with store.takeLine := [] } = s.profile from hv.profile]
  have hvst : State.stamp { v with store.takeLine := [] } = s.stamp := by
    unfold State.stamp
    rw [show State.time { v with store.takeLine := [] } = s.time from hv.time]
  have hbursts (full : Bool) : State.blockBursts { v with store.takeLine := [] } ch full none32 = s.blockBursts ch full none32 := by
    unfold State.blockBursts
    rw [hvc, show State.profile { v with store.takeLine := [] } = s.profile from hv.profile]
  have hgm := hg.message
  have hgb := hg.mailbox
  have hgc := hg.channels
  rw [hvc] at hgm hgb
  rw [hvm] at hgb hgm
  rw [hvc] at hgc
  rw [hvc, hvm, hv.channels] at hfails
  simp only [hbursts, hvc, hvm, hv.channels, hven, hvst] at hstops
  refine ⟨⟨fun h1 h2 => ?_, fun _ _ => ⟨?_, ?_, ?_, ?_, fun hst hread hblocks => ⟨?_, ?_, ?_, fun slot e hord hent => ?_⟩,
    fun full hst hfull => ⟨?_, ?_, ?_, fun hen hlt => ?_⟩⟩⟩, ⟨fun j hj => ?_, fun q hq => ?_, fun k hk hs => ?_, ?_, ?_⟩⟩
  · exact absurd hno (by rw [h1, h2]; decide)
  · rw [hends.store, hxw]
    exact hline
  · rw [hends.store, hxw]
    exact hpocket.trans hv.pocket
  · rw [freeCount_congr hends.store hends.control, hxw]
    exact hfree
  · rw [hends.mailbox, hxb]
    exact hg.used _
  · obtain ⟨-, hc, -⟩ := hfails hst
    have hxch := (hxc ch).trans hc
    rw [hends.channels ch (stillChannel_of_state hxch nofun nofun), hxch]
  · obtain ⟨-, -, -, hfree, -⟩ := hfails hst
    rw [hends.message, hxm, (hfree hread hblocks).1]
  · obtain ⟨-, -, -, hfree, -⟩ := hfails hst
    have hroom := congrArg Mailbox.places (hfree hread hblocks).2
    rw [hends.mailbox, hxb]
    exact hroom.trans (congrArg (· - 1) hv.places)
  · obtain ⟨-, -, -, -, -, hdone⟩ := hfails hst
    have hent' : State.entryOf { v with store.takeLine := [] } slot = some e := by
      unfold State.entryOf
      rw [show State.ring { v with store.takeLine := [] } = s.ring from hv.ring]
      exact hent
    have h := hdone slot e hord hent'
    have hsame := completionWrite_congr (s := s) (t := { v with store.takeLine := [] }) hv.profile slot e.copy st false []
    rw [hsame] at h
    refine hgrew .directory _ fun r hm => ?_
    rw [List.mem_singleton.mp hm, ← hstatus]
    exact ⟨h, rfl⟩
  · obtain ⟨-, -, -, -, -, -, -, hb⟩ := hstops (by rw [hst]; decide) hfull
    refine hgrew .voice _ fun r hm => ⟨hb r hm, ?_⟩
    obtain ⟨k, hk⟩ := blockBursts_source hm
    rw [hk]
    rfl
  · obtain ⟨-, -, -, hc, -⟩ := hstops (by rw [hst]; decide) hfull
    have hxch := (hxc ch).trans hc
    rw [hends.channels ch (stillChannel_of_state hxch nofun nofun), hxch, hstatus]
    cases s.takeFull ch v.freeCount <;> rfl
  · obtain ⟨-, -, -, -, hmess, -⟩ := hstops (by rw [hst]; decide) hfull
    rw [hends.message, hxm, hmess]
  · obtain ⟨-, -, -, -, -, htold, -⟩ := hstops (by rw [hst]; decide) hfull
    rw [hen, if_pos rfl, show ({ v with store.takeLine := [] } : State).out.notices = [] from hv.told, List.nil_append] at htold
    have hxo : x.out.notices = w.out.notices := by rw [hxw]
    rw [ht, finish_queue_of_one (who := .directory) (by rw [hxo, htold]; exact fun y hy => by rw [List.mem_singleton.mp hy]),
      hxo, htold, hxn, hstatus]
    have hcode : (if s.takeFull ch v.freeCount = true then Status.storeFull else .quota).stops.code =
        if s.takeFull ch v.freeCount = true then 1 else 2 := by cases s.takeFull ch v.freeCount <;> rfl
    rw [hcode]
    refine List.mem_append_right _ (mem_take_of_append (a := []) (b := []) ?_)
    exact Nat.sub_pos_of_lt hlt
  · rw [hends.message, hxm, hgm j hj]
  · rw [hends.mailbox, hxb, hgb q hq]
    rfl
  · have hk' : x.channel k = s.channel k := by rw [hxc, hgc k hk]
    rw [hends.channels k (hs.of_eq hk'), hk']
  · obtain ⟨vo, ms, bs, mk, fr, rq, wk, ri, o, hrest⟩ := hg.rest
    rw [hends.lamp, hxw, hrest]
  · rw [hends.store, hxw]
    exact hop

end

/-- The oldest take is served, granted or, with no one behind it, refused. -/
theorem TakeFinds.served {s v x t : State} {ch b : Nat} {rest : List Nat} {below : List PocketEntry}
    (hv : TakeFinds s v ch b rest below) (hx : TakeLeaves (takeLineTurn v) x) (ht : t = finish x)
    (hm : (s.message (s.channel ch).index).state = .recording)
    (h : (s.takeFull ch v.freeCount = false ∧
      s.takeBeyond ch (v.mailbox (s.message (s.channel ch).index).room).blocksUsed = false) ∨ rest = []) :
    TakeServed s t ch b rest below v.freeCount (v.mailbox (s.message (s.channel ch).index).room).blocksUsed ∧
    TakeFrame s v t ch := by
  by_cases hno : s.takeFull ch v.freeCount = true ∨
      s.takeBeyond ch (v.mailbox (s.message (s.channel ch).index).room).blocksUsed = true
  · obtain hrest | hrest := h
    · exact absurd hno (by rw [hrest.1, hrest.2]; decide)
    · exact hv.refused hx ht hrest hm hno
  · obtain ⟨hfew, hbeyond⟩ := not_or.mp hno
    exact hv.granted hx (by rw [ht]; exact finish_endsAs x) (Bool.eq_false_iff.mpr hfew) (Bool.eq_false_iff.mpr hbeyond)

/-! ### Pops and pushes (R19, R21, R22) -/

theorem arrive_append {above below : List PocketEntry} (b : Nat) (h : ∀ e ∈ above, e ≠ .arriving) :
    arrive b (above ++ .arriving :: below) = above ++ .ready b :: below := by
  induction above with
  | nil => rfl
  | cons e above ih =>
    cases e with
    | arriving => exact absurd rfl (h .arriving List.mem_cons_self)
    | ready n =>
      exact congrArg (PocketEntry.ready n :: ·) (ih fun e he => h e (List.mem_cons_of_mem _ he))

/-- The state in which a returned pop serves the take line (R21). -/
def popArrived (data : List Byte) (s : State) : State :=
  { s with
    store.stackOp := .none, store.pocket := arrive (field data (s.store.stackPtr.toNat % 8) 4) s.store.pocket }

theorem exec_popReadReturn {s : State} {ret : Returned} (hr : s.returnOf Source.isPop = some ret) :
    exec .popReadReturn s =
      .next (taken (fun t => takeLineTurn (popArrived ret.data (takeReturn Source.isPop t))) s) := by
  show stepReturn Source.isPop (fun r t => popReturned r.data t) s = _
  unfold stepReturn
  rw [hr]
  rfl

theorem stackPop_starts {s : State} (ho : s.out = {}) (ha : s.control.state = .active) (hp : s.store.pocket.length ≤ 8)
    (hc : 0 < s.stackCount) (hop : s.store.stackOp = .none) (hline : s.store.pushLine = []) :
    Completes .stackPop s
      { s with
        store := { s.store with
          stackPtr := s.store.stackPtr + 4#34, stackOp := .pop, pocket := .arriving :: s.store.pocket }
        out.requests := [{ source := .pop, write := false, addr := 8 * ((s.store.stackPtr + 4#34).toNat / 8)
                           beats := 1 }] } := by
  have hcan : s.canPop = true := by
    unfold State.canPop State.active Config.refillLevel
    rw [ha, hop, hline]
    simp [hp, hc]
  refine ⟨_, stepIf_of startPop s hcan, taken_endsAs' ho ?_⟩
  unfold startPop raise
  rw [show s.out = {} from ho]
  rfl

theorem stackPush_starts {s : State} {b : Nat} {rest : List Nat} (ho : s.out = {}) (hline : s.store.pushLine = b :: rest)
    (hop : s.store.stackOp = .none) :
    Completes .stackPush s
      { s with
        store := { s.store with pushLine := rest, stackOp := .push, stackPtr := s.store.stackPtr - 4#34 }
        out.requests := [{ source := .push, write := true, addr := 8 * (s.store.stackPtr.toNat / 8), beats := 1
                           lanes := someLanes (s.store.stackPtr.toNat % 8) (le 4 b) 8 }] } := by
  have hcan : s.canPush = true := by
    unfold State.canPush
    rw [hop, hline]
    rfl
  refine ⟨_, stepIf_of startPush s hcan, taken_endsAs' ho ?_⟩
  unfold startPush raise
  rw [hline, show s.out = {} from ho]
  rfl

theorem takeReturn_finds {s : State} {ch : Nat} {rest : List Nat} {below : List PocketEntry} (ho : s.out = {})
    (hl : s.store.takeLine = ch :: rest) (hp : s.store.pocket = .arriving :: below) (hb : takeReady below = none)
    (data : List Byte) :
    TakeFinds s (popArrived data (takeReturn Source.isPop s)) ch (field data (s.store.stackPtr.toNat % 8) 4) rest below := by
  refine ⟨hl, ?_, hb, rfl, rfl, rfl, rfl, rfl, rfl, rfl, rfl, rfl, ?_⟩
  · show arrive _ s.store.pocket = _
    rw [hp]
    rfl
  · exact congrArg Outbox.notices ho

/-- Settles O42. -/
theorem pocketAndStackMoveBlocks : Obligations.PocketAndStackMoveBlocks := by
  refine ⟨fun s ho ha hp hc hop hline => stackPop_starts ho ha hp hc hop hline,
    fun s ret above below ho hr hl habove hp => ⟨_, exec_popReadReturn hr, taken_endsAs' ho ?_⟩,
    fun s ret ch rest below ho hr hl hp hb hm h => ?_,
    fun s b rest ho hline hop => stackPush_starts ho hline hop⟩
  · rw [takeLineTurn_idle (show (popArrived ret.data (takeReturn Source.isPop s)).store.takeLine = [] from hl)]
    unfold popArrived
    rw [show (takeReturn Source.isPop s).store = s.store from rfl, hp, arrive_append _ habove]
  · have hfinds := takeReturn_finds ho hl hp hb ret.data
    have hturn := exec_popReadReturn hr
    have hfinish : taken (fun t => takeLineTurn (popArrived ret.data (takeReturn Source.isPop t))) s =
        finish (takeLineTurn (popArrived ret.data (takeReturn Source.isPop s))) := by
      unfold taken
      dsimp only
      rw [beginStep_eq ho]
    have hcount : (popArrived ret.data (takeReturn Source.isPop s)).freeCount = s.freeCount := by
      have hlen : (arrive (field ret.data (s.store.stackPtr.toNat % 8) 4) s.store.pocket).length = s.store.pocket.length := by
        rw [hp]
        rfl
      show State.stackCount _ + List.length _ + List.length _ = _
      exact congrArg (fun n => s.stackCount + n + s.store.pushLine.length) hlen
    have hbase : (takeLineTurn (popArrived ret.data (takeReturn Source.isPop s))).base =
        (popArrived ret.data (takeReturn Source.isPop s)).base := takeLineTurn_base _
    have hrating : (takeLineTurn (popArrived ret.data (takeReturn Source.isPop s))).rating = s.rating :=
      takeLineTurn_rating _
    have hends := finish_endsAs (takeLineTurn (popArrived ret.data (takeReturn Source.isPop s)))
    rw [hfinish] at hturn
    refine ⟨_, hturn, hends.sameOuter (outer_sameOuter ((State.outer_of_base hbase).trans rfl)), ?_⟩
    obtain ⟨hserved, hframe⟩ := hfinds.served (TakeLeaves.refl _) rfl hm (by rw [hcount]; exact h)
    rw [hcount] at hserved
    exact ⟨hframe.stackOp, hserved, hframe.message, hframe.mailbox, hframe.channels, hends.rating.trans hrating, hframe.lamp⟩

/-! ### The walk (R27) -/

/-- A block released: to the pocket, or to the line of pushes where the pocket holds 16 (R22, R25). -/
theorem releaseBlock_eq (b : Nat) (s : State) :
    ∃ sl, releaseBlock b s = { s with store := { s.store with
        pocket := if s.store.pocket.length < 16 then .ready b :: s.store.pocket else s.store.pocket
        pushLine := if s.store.pocket.length < 16 then s.store.pushLine else s.store.pushLine ++ [b]
        storeLow := sl } } ∧
      (releaseBlock b s).freeCount = s.freeCount + 1 ∧
      sl = if s.profile.storeLowLevel ≤ s.freeCount + 1 then .armed else s.store.storeLow := by
  unfold releaseBlock Config.pocketDepth
  dsimp only
  have key (v : State) (hv : v = { s with store := { s.store with
        pocket := if s.store.pocket.length < 16 then .ready b :: s.store.pocket else s.store.pocket
        pushLine := if s.store.pocket.length < 16 then s.store.pushLine else s.store.pushLine ++ [b] } }) :
      ∃ sl, (if v.freeCount ≥ v.profile.storeLowLevel then { v with store.storeLow := .armed } else v) = { s with
          store := { s.store with
            pocket := if s.store.pocket.length < 16 then .ready b :: s.store.pocket else s.store.pocket
            pushLine := if s.store.pocket.length < 16 then s.store.pushLine else s.store.pushLine ++ [b]
            storeLow := sl } } ∧
        (if v.freeCount ≥ v.profile.storeLowLevel then { v with store.storeLow := .armed } else v).freeCount =
          s.freeCount + 1 ∧
        sl = if s.profile.storeLowLevel ≤ s.freeCount + 1 then .armed else s.store.storeLow := by
    have hcount : v.freeCount = s.freeCount + 1 := by
      have hstack : v.stackCount = s.stackCount := by rw [hv]; rfl
      unfold State.freeCount
      rw [hstack, hv]
      dsimp only
      split
      · simp only [List.length_cons]; omega
      · simp only [List.length_append, List.length_singleton]; omega
    have hprofile : v.profile = s.profile := by rw [hv]; rfl
    rw [hcount, hprofile]
    by_cases hlow : s.profile.storeLowLevel ≤ s.freeCount + 1
    · rw [if_pos hlow, if_pos hlow]
      exact ⟨.armed, by rw [hv], hcount, rfl⟩
    · rw [if_neg hlow, if_neg hlow]
      exact ⟨s.store.storeLow, by rw [hv], hcount, rfl⟩
  by_cases hp : s.store.pocket.length < 16
  · rw [if_pos hp]
    exact key _ (by rw [if_pos hp, if_pos hp])
  · rw [if_neg hp]
    exact key _ (by rw [if_neg hp, if_neg hp])

/-- What the release of the block in hand leaves (R22, R27). -/
theorem lastReleased_eq (w : Walk) (e : ReleaseEntry) (s : State) :
    ∃ bs mk sl, lastReleased w e s = { s with store := { s.store with
        mailboxes := bs, marks := mk, storeLow := sl
        pocket := if s.store.pocket.length < 16 then .ready w.block :: s.store.pocket else s.store.pocket
        pushLine := if s.store.pocket.length < 16 then s.store.pushLine else s.store.pushLine ++ [w.block] } } ∧
      (lastReleased w e s).freeCount = s.freeCount + 1 ∧
      (sl = if s.profile.storeLowLevel ≤ s.freeCount + 1 then .armed else s.store.storeLow) ∧
      ∀ q, (lastReleased w e s).mailbox q = if q = (s.message e.index).room then
        { s.mailbox (s.message e.index).room with
          blocksUsed := (s.mailbox (s.message e.index).room).blocksUsed - 1 } else s.mailbox q := by
  unfold lastReleased
  have hmail := setBlocksUsed_mailbox (s.message e.index).room ((s.mailbox (s.message e.index).room).blocksUsed - 1) s
  obtain ⟨bs, mk, hv⟩ : ∃ bs mk, setBlocksUsed (s.message e.index).room
      ((s.mailbox (s.message e.index).room).blocksUsed - 1) s =
        { s with store := { s.store with mailboxes := bs, marks := mk } } := ⟨_, _, rfl⟩
  generalize setBlocksUsed (s.message e.index).room ((s.mailbox (s.message e.index).room).blocksUsed - 1) s = v at hmail hv ⊢
  obtain ⟨sl, hw, hcount, hlow⟩ := releaseBlock_eq w.block v
  have hvcount : v.freeCount = s.freeCount := by rw [hv]; rfl
  have hvprofile : v.profile = s.profile := by rw [hv]; rfl
  have hvlow : v.store.storeLow = s.store.storeLow := by rw [hv]
  rw [hvcount] at hcount hlow
  rw [hvprofile, hvlow] at hlow
  refine ⟨bs, mk, sl, by rw [hw, hv], hcount, hlow, fun q => ?_⟩
  rw [← hmail, hw]
  rfl

theorem walkReturned_goes_on {s : State} {w : Walk} {e : ReleaseEntry} {rest : List ReleaseEntry} {header : List Byte}
    (hw : s.store.walk = some w) (hq : s.store.releaseQueue = e :: rest) (hleft : 1 < w.remaining)
    (hnext : headerNext header < s.profile.blocks) :
    walkReturned header s =
      raiseWalk ⟨headerNext header, w.remaining - 1⟩ (takeLineTurn (lastReleased w e s)) := by
  unfold walkReturned
  rw [hw, hq]
  dsimp only
  rw [if_neg (by omega)]
  rfl

/-- The step of a header read that has returned, the chain going on. -/
theorem walkStep_goes_on {s : State} {ret : Returned} {w : Walk} {e : ReleaseEntry} {rest : List ReleaseEntry}
    (ho : s.out = {}) (hr : s.returnOf Source.isWalk = some ret) (hw : s.store.walk = some w)
    (hq : s.store.releaseQueue = e :: rest) (hleft : 1 < w.remaining) (hnext : headerNext ret.data < s.profile.blocks) :
    exec .walkHeaderRead s = .next (finish (raiseWalk ⟨headerNext ret.data, w.remaining - 1⟩
      (takeLineTurn (lastReleased w e (takeReturn Source.isWalk s))))) := by
  have hact := walkReturned_goes_on (s := takeReturn Source.isWalk s) (header := ret.data) hw hq hleft hnext
  rw [exec_walkHeaderRead hr]
  unfold taken
  dsimp only
  rw [beginStep_eq ho, hact]

/-- The header read that a step of the walk raises (R27). -/
theorem raiseWalk_grew {s v t : State} {w : Walk} (hv : v.base = (takeReturn Source.isWalk s).base)
    (ht : EndsAs (raiseWalk w v) t) :
    lineGrew s t .directory [{ source := .walkHeader, write := false, addr := s.profile.storeBase + 512 * w.block
                               beats := 1 }] ∧ sameOuter s t ∧ t.store.walk = some w := by
  have hlines : (raiseWalk w v).arbiter.lines = s.arbiter.lines := by
    have h := congrArg (fun b => b.2.2.2.1.lines) hv
    exact h
  have hprofile : v.profile = s.profile := (profile_of_base hv).trans rfl
  refine ⟨lineGrew_of_ends ht hlines fun r hm => ?_, ht.sameOuter (outer_sameOuter ?_), by rw [ht.store]; rfl⟩
  · rw [List.mem_singleton.mp hm, ← hprofile]
    exact ⟨List.mem_append_right _ (List.mem_singleton.mpr rfl), rfl⟩
  · exact (State.outer_of_base (show (raiseWalk w v).base = _ from hv)).trans rfl

/-- (1) of O43: no take waits. -/
theorem walkStep_releases {s : State} {ret : Returned} {w : Walk} {e : ReleaseEntry} {rest : List ReleaseEntry}
    (ho : s.out = {}) (hr : s.returnOf Source.isWalk = some ret) (hw : s.store.walk = some w)
    (hq : s.store.releaseQueue = e :: rest) (htake : s.store.takeLine = []) (hleft : 1 < w.remaining)
    (hnext : headerNext ret.data < s.profile.blocks) :
    ∃ t, exec .walkHeaderRead s = .next t ∧ sameOuter s t ∧
      t.store.pocket = (if s.store.pocket.length < 16 then .ready w.block :: s.store.pocket else s.store.pocket) ∧
      t.store.pushLine = (if s.store.pocket.length < 16 then s.store.pushLine else s.store.pushLine ++ [w.block]) ∧
      t.freeCount = s.freeCount + 1 ∧
      t.store.storeLow = (if s.profile.storeLowLevel ≤ s.freeCount + 1 then .armed else s.store.storeLow) ∧
      (t.mailbox (s.message e.index).room).blocksUsed = (s.mailbox (s.message e.index).room).blocksUsed - 1 ∧
      t.store.walk = some ⟨headerNext ret.data, w.remaining - 1⟩ ∧ t.store.releaseQueue = e :: rest ∧
      lineGrew s t .directory [{ source := .walkHeader, write := false
                                 addr := s.profile.storeBase + 512 * headerNext ret.data, beats := 1 }] ∧
      (∀ i, t.message i = s.message i) ∧ t.ring = s.ring ∧ t.rating = s.rating ∧ t.lamp = s.lamp ∧
      (∀ q, q ≠ (s.message e.index).room → t.mailbox q = s.mailbox q) ∧
      (∀ k, s.stillChannel k → t.channel k = s.channel k) := by
  have hx := walkStep_goes_on ho hr hw hq hleft hnext
  obtain ⟨bs, mk, sl, hv, hcount, hlow, hmail⟩ := lastReleased_eq w e (takeReturn Source.isWalk s)
  have hmail (q : Nat) : (lastReleased w e (takeReturn Source.isWalk s)).mailbox q =
      if q = (s.message e.index).room then { s.mailbox (s.message e.index).room with
        blocksUsed := (s.mailbox (s.message e.index).room).blocksUsed - 1 } else s.mailbox q := hmail q
  generalize lastReleased w e (takeReturn Source.isWalk s) = v at hx hv hcount hmail
  have htake' : v.store.takeLine = [] := by rw [hv]; exact htake
  rw [takeLineTurn_idle htake'] at hx
  have hends := finish_endsAs (raiseWalk ⟨headerNext ret.data, w.remaining - 1⟩ v)
  generalize finish (raiseWalk ⟨headerNext ret.data, w.remaining - 1⟩ v) = t at hx hends
  have hbase : v.base = (takeReturn Source.isWalk s).base := by rw [hv]; rfl
  obtain ⟨hgrew, houter, hwalk⟩ := raiseWalk_grew hbase hends
  have hstore : t.store = { v.store with walk := some ⟨headerNext ret.data, w.remaining - 1⟩ } := hends.store
  have htmail (q : Nat) : t.mailbox q = v.mailbox q := mailbox_congr (by rw [hstore]) q
  refine ⟨t, hx, houter, ?_, ?_, ?_, ?_, ?_, hwalk, ?_, hgrew, fun i => ?_, ?_, ?_, ?_, fun q hqr => ?_, fun k hk => ?_⟩
  · rw [hstore, hv]
    rfl
  · rw [hstore, hv]
    rfl
  · rw [freeCount_congr hends.store hends.control]
    exact hcount
  · rw [hstore, hv]
    exact hlow
  · rw [htmail, hmail, if_pos rfl]
  · rw [hstore, hv]
    exact hq
  · rw [message_congr (s := v) (by rw [hstore]), hv]
    rfl
  · rw [hends.ring, raiseWalk_ring, hv]
    rfl
  · rw [hends.rating, raiseWalk_rating, hv]
    rfl
  · rw [hends.lamp, raiseWalk_lamp, hv]
    rfl
  · rw [htmail, hmail, if_neg hqr]
  · have hk' : (raiseWalk ⟨headerNext ret.data, w.remaining - 1⟩ v).channel k = s.channel k := by
      rw [hv]
      rfl
    rw [hends.channels k (hk.of_eq hk'), hk']

/-- (2) of O43: the oldest take gets the block released. -/
theorem walkStep_serves {s : State} {ret : Returned} {w : Walk} {e : ReleaseEntry} {queue : List ReleaseEntry} {ch : Nat}
    {rest : List Nat} (ho : s.out = {}) (hr : s.returnOf Source.isWalk = some ret) (hw : s.store.walk = some w)
    (hq : s.store.releaseQueue = e :: queue) (htake : s.store.takeLine = ch :: rest) (hscarce : takeReady s.store.pocket = none)
    (hroom : s.store.pocket.length < 16) (hleft : 1 < w.remaining) (hnext : headerNext ret.data < s.profile.blocks) :
    let i := (s.channel ch).index
    let room := (s.message i).room
    let released := (s.message e.index).room
    let used := (s.mailbox room).blocksUsed - if room = released then 1 else 0
    (s.message i).state = .recording →
    (s.takeFull ch (s.freeCount + 1) = false ∧ s.takeBeyond ch used = false) ∨ rest = [] →
    ∃ t, exec .walkHeaderRead s = .next t ∧ sameOuter s t ∧
      t.store.walk = some ⟨headerNext ret.data, w.remaining - 1⟩ ∧
      lineGrew s t .directory [{ source := .walkHeader, write := false
                                 addr := s.profile.storeBase + 512 * headerNext ret.data, beats := 1 }] ∧
      TakeServed s t ch w.block rest s.store.pocket (s.freeCount + 1) used ∧
      (released ≠ room → (t.mailbox released).blocksUsed = (s.mailbox released).blocksUsed - 1) ∧
      (∀ j, j ≠ i → t.message j = s.message j) ∧
      (∀ q, q ≠ room → q ≠ released → t.mailbox q = s.mailbox q) ∧
      (∀ k, k ≠ ch → s.stillChannel k → t.channel k = s.channel k) ∧ t.rating = s.rating ∧ t.lamp = s.lamp := by
  intro i room released used hm h
  have hx := walkStep_goes_on ho hr hw hq hleft hnext
  obtain ⟨bs, mk, sl, hv, hcount, -, hmail⟩ := lastReleased_eq w e (takeReturn Source.isWalk s)
  have hcount : (lastReleased w e (takeReturn Source.isWalk s)).freeCount = s.freeCount + 1 := hcount
  have hmail (q : Nat) : (lastReleased w e (takeReturn Source.isWalk s)).mailbox q =
      if q = released then { s.mailbox released with blocksUsed := (s.mailbox released).blocksUsed - 1 } else s.mailbox q :=
    hmail q
  generalize lastReleased w e (takeReturn Source.isWalk s) = v at hx hv hcount hmail
  have hused : (v.mailbox room).blocksUsed = used := by
    rw [hmail]
    show Mailbox.blocksUsed _ = (s.mailbox room).blocksUsed - if room = released then 1 else 0
    by_cases hsame : room = released
    · rw [if_pos hsame, if_pos hsame, hsame]
    · rw [if_neg hsame, if_neg hsame]
      rfl
  have hfinds : TakeFinds s v ch w.block rest s.store.pocket := by
    refine ⟨by rw [hv]; exact htake, ?_, hscarce, by rw [hv]; rfl, by rw [hv]; rfl, ?_, by rw [hv]; rfl, by rw [hv]; rfl,
      by rw [hv]; rfl, by rw [hv]; rfl, by rw [hv]; rfl, by rw [hv]; rfl, ?_⟩
    · rw [hv]
      exact if_pos hroom
    · show (v.mailbox room).places = _
      rw [hmail]
      split
      next hsame => exact congrArg (fun q => (s.mailbox q).places) hsame.symm
      next => rfl
    · rw [hv]
      exact congrArg Outbox.notices ho
  have hbase : (takeLineTurn v).base = (takeReturn Source.isWalk s).base := by
    rw [takeLineTurn_base, hv]
    rfl
  have hrating : (takeLineTurn v).rating = s.rating := by
    rw [takeLineTurn_rating, hv]
    rfl
  have hleaves : TakeLeaves (takeLineTurn v) (raiseWalk ⟨headerNext ret.data, w.remaining - 1⟩ (takeLineTurn v)) :=
    ⟨_, _, rfl⟩
  obtain ⟨hserved, hframe⟩ := hfinds.served hleaves rfl hm (by rw [hcount]; exact hused ▸ h)
  have hends := finish_endsAs (raiseWalk ⟨headerNext ret.data, w.remaining - 1⟩ (takeLineTurn v))
  generalize finish (raiseWalk ⟨headerNext ret.data, w.remaining - 1⟩ (takeLineTurn v)) = t at hx hserved hframe hends
  obtain ⟨hgrew, houter, hwalk⟩ := raiseWalk_grew hbase hends
  have hserved' : TakeServed s t ch w.block rest s.store.pocket (s.freeCount + 1) used := by
    rw [← hcount, ← hused]
    exact hserved
  refine ⟨t, hx, houter, hwalk, hgrew, hserved', fun hne => ?_, hframe.message, fun q hqr hqe => ?_, hframe.channels, ?_, ?_⟩
  · rw [hframe.mailbox released hne, hmail, if_pos rfl]
  · rw [hframe.mailbox q hqr, hmail, if_neg hqe]
  · rw [hends.rating, raiseWalk_rating, hrating]
  · rw [hframe.lamp, hv]
    rfl

/-- Settles O43. -/
theorem walkReleasesTheBlockInHand : Obligations.WalkReleasesTheBlockInHand :=
  ⟨fun _ _ _ _ _ ho hr hw hq ht hleft hnext => walkStep_releases ho hr hw hq ht hleft hnext,
    fun _ _ _ _ _ _ _ ho hr hw hq ht hscarce hroom hleft hnext => walkStep_serves ho hr hw hq ht hscarce hroom hleft hnext⟩

end Sys2Proof.Machine
end

section
/-! PROOFS. RECORD OPEN (3.3). -/

namespace Sys2Proof.Machine

/-- The message of RECORD OPEN is created (R49, R30, R32). -/
theorem createMessage_eq (c : List Byte) (i : Nat) (s : State) :
    ∃ ms bs mk o, createMessage c i s = { s with
        store := { s.store with
          messages := ms, mailboxes := bs, marks := mk, freeRecords := dropMark s.store.freeRecords i
          serial := sat32 s.store.serial }, out := o } ∧
      o.notices = s.out.notices ∧ Adds (· = .record i) s (createMessage c i s) ∧
      (∀ j, (createMessage c i s).message j = if j = i then newMessage c i s else s.message j) ∧
      (∀ q, (createMessage c i s).mailbox q = if q = param c 8 2 then
        { s.mailbox (param c 8 2) with places := (s.mailbox (param c 8 2)).places + 1 } else s.mailbox q) ∧
      param c 8 2 ∈ (createMessage c i s).store.marks := by
  unfold createMessage
  dsimp only
  obtain ⟨o, hu, hon, hadds⟩ := updateMessage_eq i (newMessage c i s) s
  have hum := updateMessage_message i (newMessage c i s) s
  have hub := updateMessage_mailbox i (newMessage c i s) s
  generalize updateMessage i (newMessage c i s) s = u at hu hadds hum hub ⊢
  generalize hv : ({ u with store.freeRecords := dropMark u.store.freeRecords i, store.serial := sat32 s.store.serial } : State)
    = v
  have hmail := setPlaces_mailbox (param c 8 2) ((s.mailbox (param c 8 2)).places + 1) v
  have hvm (j) : v.message j = u.message j := by rw [← hv]; rfl
  have hvb (q) : v.mailbox q = u.mailbox q := by rw [← hv]; rfl
  obtain ⟨bs, mk, hp⟩ : ∃ bs mk, setPlaces (param c 8 2) ((s.mailbox (param c 8 2)).places + 1) v =
      { v with store := { v.store with mailboxes := bs, marks := mk } } := ⟨_, _, rfl⟩
  have hvo : v.out = o := by rw [← hv, hu]
  refine ⟨u.store.messages, bs, mk, o, ?_, hon, ?_, fun j => ?_, fun q => ?_, ?_⟩
  · rw [hp, ← hv, hu]
    exact rfl
  · obtain ⟨rs, hrs, hall⟩ := hadds
    exact ⟨rs, by rw [setPlaces_out, ← hv]; exact hrs, hall⟩
  · rw [setPlaces_message, hvm, hum]
  · rw [hmail, hvb, hvb, hub, hub]
  · rw [setPlaces_store_marks]
    exact mem_addMark.mpr (.inl rfl)

theorem dropMark_head {i : Nat} {free : List Nat} (h : ∀ j ∈ free, i < j) : dropMark (i :: free) i = free := by
  unfold dropMark
  rw [List.filter_cons_of_neg (by simp)]
  exact List.filter_eq_self.mpr fun j hj => by simpa using Nat.ne_of_gt (h j hj)

/-- The channel RECORD OPEN claims (R50). -/
def openingChannel (slot i : Nat) (copy : List Byte) (s : State) : Channel :=
  { state := .opening, dir := .record, index := i, generation := (s.message i).generation + 1, room := param copy 8 2
    stepIndex := s.profile.stepIndex, order := some slot }

/-- `v` is the state in which RECORD OPEN, taken in `s`, makes its take request for message `i` on channel `ch` (R50). -/
structure Opens (s v : State) (slot ch i : Nat) (copy : List Byte) (free : List Nat) : Prop where
  rest     : ∃ vo ms bs mk o, v = { s.acting slot copy with
    voice := vo, out := o
    store := { s.store with
      messages := ms, mailboxes := bs, marks := mk, freeRecords := free, serial := sat32 s.store.serial } }
  told     : v.out.notices = []
  adds     : Adds (· = .record i) (s.acting slot copy) v
  channels : ∀ k, v.channel k = if k = ch then openingChannel slot i copy s else s.channel k
  message  : ∀ j, v.message j = if j = i then newMessage copy i s else s.message j
  mailbox  : ∀ q, v.mailbox q = if q = param copy 8 2 then
    { s.mailbox (param copy 8 2) with places := (s.mailbox (param copy 8 2)).places + 1 } else s.mailbox q
  marked   : param copy 8 2 ∈ v.store.marks

theorem recordOpen_opens {s : State} {slot i : Nat} {copy : List Byte} {free : List Nat} (ho : s.out = {})
    (hfree : s.store.freeRecords = i :: free) (hrising : ∀ j ∈ free, i < j) :
    ∃ v, Opens s v slot (if param copy 11 1 = 255 then s.freeChannels.headD 0 else param copy 11 1) i copy free ∧
      orderAct .recordOpen slot copy (s.acting slot copy) =
        requestTake (if param copy 11 1 = 255 then s.freeChannels.headD 0 else param copy 11 1) v := by
  have hclaimed : (s.acting slot copy).claimed (param copy 11 1) =
      if param copy 11 1 = 255 then s.freeChannels.headD 0 else param copy 11 1 := rfl
  have hhead : (s.acting slot copy).store.freeRecords.headD 0 = i := by rw [acting_store, hfree]; rfl
  have hact : orderAct .recordOpen slot copy (s.acting slot copy) = recordOpenAct slot copy (s.acting slot copy) := rfl
  rw [hact]
  unfold recordOpenAct
  dsimp only
  rw [hclaimed, hhead]
  obtain ⟨ms, bs, mk, o, hu, hon, hadds, hmess, hmail, hmark⟩ := createMessage_eq copy i (s.acting slot copy)
  rw [acting_store, hfree, dropMark_head hrising] at hu
  generalize createMessage copy i (s.acting slot copy) = u at hu hadds hmess hmail hmark ⊢
  generalize (if param copy 11 1 = 255 then s.freeChannels.headD 0 else param copy 11 1) = ch
  generalize hv : u.setChannel ch _ = v
  have hgen : (u.message i).generation = (s.message i).generation + 1 := by rw [hmess, if_pos rfl]; rfl
  refine ⟨v, ⟨⟨v.voice, ms, bs, mk, o, by rw [← hv, hu]; rfl⟩, ?_, ?_, fun k => ?_, fun j => ?_, fun q => ?_, ?_⟩, rfl⟩
  · have h : v.out = o := by rw [← hv, hu]; rfl
    rw [h, hon]
    exact congrArg Outbox.notices ho
  · obtain ⟨rs, hrs, hall⟩ := hadds
    exact ⟨rs, by rw [← hv]; exact hrs, hall⟩
  · rw [← hv, channel_setChannel, hgen]
    have huc : u.channel k = s.channel k := by rw [hu]; rfl
    rw [huc]
    rfl
  · rw [← hv]
    exact hmess j
  · rw [← hv]
    exact hmail q
  · rw [← hv]
    exact hmark

section
variable {s v : State} {slot ch i : Nat} {copy : List Byte} {free : List Nat} (hv : Opens s v slot ch i copy free)
include hv

theorem Opens.base : v.base = (s.acting slot copy).base := by
  obtain ⟨vo, ms, bs, mk, o, hrest⟩ := hv.rest
  rw [hrest]
  rfl

theorem Opens.store : v.store.pocket = s.store.pocket ∧ v.store.takeLine = s.store.takeLine ∧
    v.store.freeRecords = free ∧ v.store.serial = sat32 s.store.serial ∧ v.store.storeLow = s.store.storeLow ∧
    v.ring = (s.acting slot copy).ring ∧ v.rating = s.rating ∧ v.lamp = s.lamp ∧ v.freeCount = s.freeCount ∧
    v.control = s.control ∧ v.roomShadow = s.roomShadow ∧ v.notices = s.notices ∧ v.stamp = s.stamp ∧
    v.arbiter.lines = s.arbiter.lines := by
  obtain ⟨vo, ms, bs, mk, o, hrest⟩ := hv.rest
  have hcontrol : v.control = s.control := by rw [hrest, ← acting_control s slot copy]
  refine ⟨by rw [hrest], by rw [hrest], by rw [hrest], by rw [hrest], by rw [hrest], by rw [hrest], ?_, ?_, ?_, hcontrol,
    ?_, ?_, ?_, ?_⟩
  · rw [hrest, ← acting_rating s slot copy]
  · rw [hrest, ← acting_lamp s slot copy]
  · unfold State.freeCount State.stackCount State.stackTop State.profile
    rw [hcontrol, hrest]
  · rw [hrest]; exact rfl
  · rw [hrest, ← acting_notices s slot copy]
  · rw [hrest, ← acting_stamp s slot copy]; exact rfl
  · rw [hrest, ← acting_lines s slot copy]

/-- The checks of RECORD OPEN leave its take no refusal (R49, R23). -/
theorem Opens.refusal (h : orderRefusal .recordOpen copy s = none) :
    v.takeRefusal (v.message (v.channel ch).index).room (v.message (v.channel ch).index).urgent = none := by
  obtain ⟨-, -, -, -, -, -, -, -, hcount, hcontrol, hshadow, -⟩ := hv.store
  have hs : s.takeRefusal (param copy 8 2) (decide (param copy 10 1 = 1)) = none := by
    have h' : recordOpenRefusal copy s = none := h
    unfold recordOpenRefusal at h'
    dsimp only at h'
    split at h'
    · cases h'
    · split at h'
      · cases h'
      · split at h'
        · cases h'
        · split at h'
          · cases h'
          · split at h'
            · cases h'
            · exact (Option.or_eq_none_iff.mp h').2
  rw [hv.channels, if_pos rfl]
  have hi : v.message (openingChannel slot i copy s).index = newMessage copy i s := (hv.message i).trans (if_pos rfl)
  rw [hi]
  have hroom : (v.mailbox (param copy 8 2)).blocksUsed = (s.mailbox (param copy 8 2)).blocksUsed := by
    rw [hv.mailbox, if_pos rfl]
  show v.takeRefusal (param copy 8 2) (decide (param copy 10 1 = 1)) = none
  rw [← hs]
  unfold State.takeRefusal State.quotaOf State.profile
  rw [hcount, hcontrol, hshadow, hroom]

end

/-- A block that raises one notice, where a condition holds, finds it at the end of a queue with room (R183). -/
theorem queue_of_one_notice {u : State} {who : Requester} {n : Notice} {c : Prop} [Decidable c]
    (h : u.out.notices = if c then [(who, n)] else []) (hlt : u.notices.queue.length < 16) :
    (finish u).notices.queue = u.notices.queue ++ if c then [n] else [] := by
  have hone : ∀ x ∈ u.out.notices, x.1 = who := by
    rw [h]
    split
    · exact fun x hx => congrArg Prod.fst (List.mem_singleton.mp hx)
    · exact nofun
  rw [finish_queue_of_one hone, h]
  split
  · exact congrArg (u.notices.queue ++ ·) (List.take_of_length_le (Nat.sub_pos_of_lt hlt))
  · simp

/-- (1) of O50. -/
theorem recordOpen_starts {s : State} {slot b i : Nat} {copy : List Byte} {pocket : List PocketEntry} {free : List Nat}
    (h : s.takesNow .recordOpen slot copy) (hready : takeReady s.store.pocket = some (b, pocket))
    (hfree : s.store.freeRecords = i :: free) (hrising : ∀ j ∈ free, i < j) :
    let room := param copy 8 2
    let ch := if param copy 11 1 = 255 then s.freeChannels.headD 0 else param copy 11 1
    let m : Message :=
      { generation := (s.message i).generation + 1, state := .recording, room := room, urgent := param copy 10 1 = 1
        serial := s.store.serial, stamp := s.stamp, digits := callerDigits copy, blocks := 1, first := b }
    let level := s.profile.storeLowLevel
    let falls : Bool := decide (level ≤ s.freeCount) && decide (s.freeCount - 1 < level)
    ∃ t, exec .recordOpen s = .next t ∧ sameOuter s t ∧ OrderTaken s t slot copy ∧
      t.message i = m ∧ t.store.freeRecords = free ∧ t.store.serial = sat32 s.store.serial ∧
      t.store.pocket = pocket ∧ (t.mailbox room).places = (s.mailbox room).places + 1 ∧
      (t.mailbox room).blocksUsed = (s.mailbox room).blocksUsed + 1 ∧ room ∈ t.store.marks ∧
      (t.channel ch).state = .recording ∧ (t.channel ch).dir = .record ∧ (t.channel ch).index = i ∧
      (t.channel ch).generation = m.generation ∧ (t.channel ch).room = room ∧
      (t.channel ch).buffer0 = ⟨b, .filling, zeros 512⟩ ∧ (t.channel ch).prediction = 0 ∧
      (t.channel ch).stepIndex = s.profile.stepIndex ∧ (t.channel ch).position = 0 ∧
      Answered s t slot copy .done false (le 1 ch ++ zeros 1 ++ le 2 i ++ le 2 m.generation) ∧
      t.store.storeLow = (if s.store.storeLow = .armed ∧ falls = true then .raised else s.store.storeLow) ∧
      (s.enabled .storeLow = true → s.notices.queue.length < 16 →
        t.notices.queue = s.notices.queue ++
          if s.store.storeLow = .armed ∧ falls = true then
            [⟨.storeLow, 0xFFFF, s.stamp, s.freeCount - 1, level⟩] else []) ∧
      (∀ j, j ≠ i → t.message j = s.message j) ∧ (∀ q, q ≠ room → t.mailbox q = s.mailbox q) ∧
      (∀ k, k ≠ ch → s.stillChannel k → t.channel k = s.channel k) ∧
      t.rating = s.rating ∧ t.lamp = s.lamp ∧ t.control = s.control := by
  intro room ch m level falls
  obtain ⟨t, e, hx, houter, htaken, ht, he, hcopy, -⟩ := order_acts h (by decide)
  obtain ⟨v, hv, hact⟩ := recordOpen_opens (slot := slot) (copy := copy) h.1 hfree hrising
  have hv : Opens s v slot ch i copy free := hv
  have hact : orderAct .recordOpen slot copy (s.acting slot copy) = requestTake ch v := hact
  obtain ⟨hpocket, -, hrecords, hserial, hlow, hring, hrating, hlamp, hcount, hcontrol, -, hnotices, hstamp, hlines⟩ := hv.store
  have hvc : v.channel ch = openingChannel slot i copy s := (hv.channels ch).trans (if_pos rfl)
  have hvi : v.message i = newMessage copy i s := (hv.message i).trans (if_pos rfl)
  have hidx : (v.channel ch).index = i := by rw [hvc]; rfl
  obtain ⟨u, heval, hu⟩ := evalTake_granted (hv.refusal h.2.2.2.1) (by rw [hpocket]; exact hready)
  obtain ⟨hg, hwc, hwm, hwadds, hdone⟩ := answer_starts (by rw [hvc]; rfl) hu
  rw [hact, requestTake_granted heval] at ht
  generalize answerTake ch (.block b) u = w at ht hg hwc hwm hwadds hdone
  have hends := finish_endsAs (nextSlot w)
  rw [← ht] at hends
  rw [hvc] at hwc hwm
  have hwi : w.message i = m := by
    refine hwm.trans ?_
    rw [show (openingChannel slot i copy s).index = i from rfl, hvi]
    rfl
  obtain ⟨vo, ms, bs, mk, sl, ri, o, hrest⟩ := hg.rest
  have hwb : w.base = v.base := by rw [hrest]; rfl
  have hwlines : w.arbiter.lines = s.arbiter.lines := by rw [hrest]; exact hlines
  have hwr : w.rating = v.rating := by rw [hrest]
  have hwl : w.lamp = v.lamp := by rw [hrest]
  have hwctl : w.control = v.control := by rw [hrest]
  have hwn : w.notices = v.notices := by rw [hrest]
  have hws : w.store.freeRecords = v.store.freeRecords ∧ w.store.serial = v.store.serial := by rw [hrest]; exact ⟨rfl, rfl⟩
  have hroom : (v.message (v.channel ch).index).room = room := by rw [hidx, hvi]; rfl
  have hmail := hg.mailbox
  have hmarks := hg.marks
  have hothers := hg.message
  rw [hroom] at hmail hmarks
  rw [hidx] at hothers
  have htc : t.channel ch = { (openingChannel slot i copy s).fillingIn false b with state := .recording, order := none } := by
    have hstill : (nextSlot w).stillChannel ch := stillChannel_of_state hwc nofun nofun
    rw [hends.channels ch hstill]
    exact hwc
  have htmail (q : Nat) : t.mailbox q = w.mailbox q := hends.mailbox q
  have htmess (j : Nat) : t.message j = w.message j := hends.message j
  have htstore : t.store = w.store := hends.store
  have hfalls : v.takeFalls v.freeCount = falls := by
    unfold State.takeFalls State.profile
    rw [hcount, hcontrol]
    rfl
  refine ⟨t, hx, houter, htaken, (htmess i).trans hwi, ?_, ?_, ?_, ?_, ?_, ?_, ?_, ?_, ?_, ?_, ?_, ?_, ?_, ?_, ?_, ?_, ?_,
    fun hen hlt => ?_, fun j hj => ?_, fun q hq => ?_, fun k hk hs => ?_, ?_, ?_, ?_⟩
  · rw [htstore, hws.1, hrecords]
  · rw [htstore, hws.2, hserial]
  · rw [htstore, hg.pocket.1]
  · rw [htmail, hmail, if_pos rfl, hv.mailbox, if_pos rfl]
  · rw [htmail, hmail, if_pos rfl, hv.mailbox, if_pos rfl]
  · rw [htstore, hmarks]
    exact mem_addMark.mpr (.inl rfl)
  · rw [htc]
  · rw [htc]; rfl
  · rw [htc]; rfl
  · rw [htc]; rfl
  · rw [htc]; rfl
  · rw [htc]; rfl
  · rw [htc]; rfl
  · rw [htc]; rfl
  · rw [htc]; rfl
  · refine lineGrew_of_ends hends hwlines fun r hm => ?_
    obtain rfl | hm := List.mem_cons.mp hm
    · exact ⟨hwadds.raised (hv.adds.raised (acting_raised s slot copy)), rfl⟩
    · rw [List.mem_singleton.mp hm]
      have hev : v.entryOf slot = some e := by
        unfold State.entryOf
        rw [hring]
        exact he
      have hd := hdone slot e (by rw [hvc]; rfl) hev
      have hp : v.profile = s.profile := by unfold State.profile; rw [hcontrol]
      rw [completionWrite_congr hp, hcopy, hvc] at hd
      exact ⟨hd, rfl⟩
  · rw [htstore, hg.storeLow, hlow, hfalls]
  · have hven : v.enabled .storeLow = true := by
      unfold State.enabled State.profile
      rw [hcontrol]
      exact hen
    have hvn : v.lowNotices = if s.store.storeLow = .armed ∧ falls = true then
        [(.directory, ⟨.storeLow, 0xFFFF, s.stamp, s.freeCount - 1, level⟩)] else [] := by
      unfold State.lowNotices
      rw [hfalls, if_pos hven, hlow, hcount, hstamp, show v.profile = s.profile by unfold State.profile; rw [hcontrol]]
      exact rfl
    have htold : (nextSlot w).out.notices = v.lowNotices := by
      have h := hg.told
      rw [hv.told, List.nil_append] at h
      exact h
    have hwq : (nextSlot w).notices = s.notices := hwn.trans hnotices
    rw [ht, queue_of_one_notice (who := .directory) (n := ⟨.storeLow, 0xFFFF, s.stamp, s.freeCount - 1, level⟩)
      (htold.trans hvn) (by rw [hwq]; exact hlt), hwq]
  · rw [htmess, hothers j hj, hv.message, if_neg hj]
  · rw [htmail, hmail, if_neg hq, hv.mailbox, if_neg hq]
  · have hk' : (nextSlot w).channel k = s.channel k := (hg.channels k hk).trans ((hv.channels k).trans (if_neg hk))
    rw [hends.channels k (hs.of_eq hk'), hk']
  · exact hends.rating.trans (hwr.trans hrating)
  · exact hends.lamp.trans (hwl.trans hlamp)
  · exact hends.control.trans (hwctl.trans hcontrol)

/-- (2) of O50. -/
theorem recordOpen_waits {s : State} {slot i : Nat} {copy : List Byte} {free : List Nat}
    (h : s.takesNow .recordOpen slot copy) (hready : takeReady s.store.pocket = none)
    (hfree : s.store.freeRecords = i :: free) (hrising : ∀ j ∈ free, i < j) :
    let room := param copy 8 2
    let ch := if param copy 11 1 = 255 then s.freeChannels.headD 0 else param copy 11 1
    let g := (s.message i).generation + 1
    ∃ t, exec .recordOpen s = .next t ∧ sameOuter s t ∧ OrderTaken s t slot copy ∧ Unanswered s t slot ∧
      t.message i = { generation := g, state := .recording, room := room, urgent := param copy 10 1 = 1
                      serial := s.store.serial, stamp := s.stamp, digits := callerDigits copy } ∧
      t.channel ch = { state := .opening, dir := .record, index := i, generation := g, room := room
                       stepIndex := s.profile.stepIndex, order := some slot } ∧
      t.store.takeLine = s.store.takeLine ++ [ch] ∧ t.store.freeRecords = free ∧
      t.store.serial = sat32 s.store.serial ∧ t.store.pocket = s.store.pocket ∧ t.freeCount = s.freeCount ∧
      (t.mailbox room).places = (s.mailbox room).places + 1 ∧
      (t.mailbox room).blocksUsed = (s.mailbox room).blocksUsed ∧ room ∈ t.store.marks ∧
      (∀ j, j ≠ i → t.message j = s.message j) ∧ (∀ q, q ≠ room → t.mailbox q = s.mailbox q) ∧
      (∀ k, k ≠ ch → s.stillChannel k → t.channel k = s.channel k) ∧
      t.rating = s.rating ∧ t.lamp = s.lamp ∧ t.control = s.control := by
  intro room ch g
  obtain ⟨t, e, hx, houter, htaken, ht, he, -, hstage⟩ := order_acts h (by decide)
  obtain ⟨v, hv, hact⟩ := recordOpen_opens (slot := slot) (copy := copy) h.1 hfree hrising
  have hv : Opens s v slot ch i copy free := hv
  have hact : orderAct .recordOpen slot copy (s.acting slot copy) = requestTake ch v := hact
  obtain ⟨hpocket, hline, hrecords, hserial, -, hring, hrating, hlamp, hcount, hcontrol, -, -, -, hlines⟩ := hv.store
  rw [hact, requestTake_waits (hv.refusal h.2.2.2.1) (by rw [hpocket]; exact hready)] at ht
  have hmute : Mute slot v := hv.adds.mute (fun x hx => by rw [hx]; exact Source.noConfusion) (acting_mute h.1 slot copy)
  generalize hw : ({ v with store.takeLine := v.store.takeLine ++ [ch] } : State) = w at ht
  have hends := finish_endsAs (nextSlot w)
  rw [← ht] at hends
  have hwc (k : Nat) : w.channel k = v.channel k := by rw [← hw]; rfl
  have hwm : Mute slot w := by rw [← hw]; exact hmute.of_out rfl
  have hun : Unanswered s t slot := by
    refine unanswered_of (e := e) ht (hwm.of_out rfl) (by rw [← hlines, ← hw]; rfl) ?_ hstage
    rw [← he]
    unfold State.entryOf
    rw [← hring, ← hw]
    rfl
  have hstill (k : Nat) (hk : w.stillChannel k) : t.channel k = v.channel k := (hends.channels k hk).trans (hwc k)
  have hvc : v.channel ch = openingChannel slot i copy s := (hv.channels ch).trans (if_pos rfl)
  have hsub : t.store = { v.store with takeLine := v.store.takeLine ++ [ch] } := by rw [hends.store, ← hw]; rfl
  have htmail (q : Nat) : t.mailbox q = v.mailbox q := by rw [hends.mailbox q, ← hw]; rfl
  have htmess (j : Nat) : t.message j = v.message j := by rw [hends.message j, ← hw]; rfl
  refine ⟨t, hx, houter, htaken, hun, ?_, ?_, ?_, ?_, ?_, ?_, ?_, ?_, ?_, ?_, fun j hj => ?_, fun q hq => ?_,
    fun k hk hs => ?_, ?_, ?_, ?_⟩
  · rw [htmess, hv.message, if_pos rfl]
    exact rfl
  · rw [hstill ch (stillChannel_of_state (c := openingChannel slot i copy s) ((hwc ch).trans hvc) nofun nofun), hvc]
    exact rfl
  · rw [hsub, hline]
  · rw [hsub, hrecords]
  · rw [hsub, hserial]
  · rw [hsub, hpocket]
  · rw [← hcount]
    unfold State.freeCount State.stackCount State.stackTop State.profile
    rw [hsub, hends.control, ← hw]
    exact rfl
  · rw [htmail, hv.mailbox, if_pos rfl]
  · rw [htmail, hv.mailbox, if_pos rfl]
  · rw [hsub]
    exact hv.marked
  · rw [htmess, hv.message, if_neg hj]
  · rw [htmail, hv.mailbox, if_neg hq]
  · have hk' : w.channel k = s.channel k := (hwc k).trans ((hv.channels k).trans (if_neg hk))
    rw [hends.channels k (hs.of_eq hk')]
    exact hk'
  · exact hends.rating.trans (by rw [← hrating, ← hw]; rfl)
  · exact hends.lamp.trans (by rw [← hlamp, ← hw]; rfl)
  · exact hends.control.trans (by rw [← hcontrol, ← hw]; rfl)

/-- Settles O50: with a ready block the take is granted at once, without one it waits. -/
theorem recordOpenStartsARecording : Obligations.RecordOpenStartsARecording :=
  ⟨fun _ _ _ _ _ _ _ h hready hfree hrising => recordOpen_starts h hready hfree hrising,
    fun _ _ _ _ _ h hready hfree hrising => recordOpen_waits h hready hfree hrising⟩

end Sys2Proof.Machine
end

section
/-! PROOFS. The samples of a record aperture (1.3, 1.8, 3.2, 3.3). -/

namespace Sys2Proof.Machine

/-! ### The positions of a run of lanes (R48) -/

theorem takeLanes_eq_foldl (off : Nat) (ls : List (Option Byte)) (s : State) :
    takeLanes off ls s = (List.range (ls.length / 2)).foldl (fun u j =>
      takePosition (off + 2 * j) (ls.getD (2 * j) none) (ls.getD (2 * j + 1) none) u) s := by
  fun_induction takeLanes off ls s with
  | case1 off lo hi ls s ih =>
    have hlen : (lo :: hi :: ls).length / 2 = ls.length / 2 + 1 := by simp only [List.length_cons]; omega
    rw [ih, hlen, List.range_succ_eq_map, List.foldl_cons, List.foldl_map]
    have hone (u : State) (j : Nat) : takePosition (off + 2 * (j + 1)) ((lo :: hi :: ls).getD (2 * (j + 1)) none)
        ((lo :: hi :: ls).getD (2 * (j + 1) + 1) none) u =
        takePosition (off + 2 + 2 * j) (ls.getD (2 * j) none) (ls.getD (2 * j + 1) none) u := by
      rw [show 2 * (j + 1) = 2 * j + 1 + 1 by omega, show off + (2 * j + 1 + 1) = off + 2 + 2 * j by omega,
        List.getD_cons_succ, List.getD_cons_succ, List.getD_cons_succ, List.getD_cons_succ]
    simp only [Nat.succ_eq_add_one, hone]
    exact rfl
  | case2 ls off s hshort =>
    have hlen : ls.length / 2 = 0 := by
      rcases ls with _ | ⟨a, _ | ⟨b, ls⟩⟩
      · rfl
      · exact Nat.div_eq_of_lt (by decide : 1 < 2)
      · exact absurd rfl (hshort a b ls)
    rw [hlen]
    rfl

/-- (1) of O60. -/
theorem recordAperture_positions {s : State} {req : HostRequest} {w : HeadWork} {p : Part} (ho : s.out = {})
    (hat : s.atVoice true = some (req, w)) (hmode : w.mode = .active) (hparts : w.parts = [p])
    (hin : s.inAperture w.mode p = true) (hobs : s.observations w.mode req = []) (hguard : s.guardedBytes w.mode req = []) :
    ∃ t, exec .recordApertureWrite s = .next t ∧ sameOuter s t ∧
      EndsAs { (List.range (p.lanes.length / 2)).foldl (fun u j =>
                 takePosition (s.apertureOffset p.addr + 2 * j) (p.lanes.getD (2 * j) none)
                   (p.lanes.getD (2 * j + 1) none) u) s with
               host := { s.host with fifo := s.host.fifo.tail, head := none } } t := by
  have hall : w.parts.all (s.inAperture w.mode) = true := by
    rw [hparts, List.all_cons, hin]
    rfl
  have hlanes : partLanes w.parts = p.lanes := by
    rw [hparts]
    exact List.append_nil _
  have hoff : s.voiceOffset w.parts = s.apertureOffset p.addr := by rw [hparts]; rfl
  have h := apertureWriteGivesItsSamples s req w ho hat hmode hall hobs hguard
  rw [hlanes, hoff, takeLanes_eq_foldl] at h
  exact h

/-! ### One sample (R51, R53) -/

/-- The channel with sample `x` coded into its filling block (R3, R6, R51). -/
def Channel.coded (c : Channel) (b : Bool) (x : Int) : Channel :=
  let code := encodeSample c.prediction c.stepIndex x
  { c.setBuffer b { c.buffer b with data := putCode (c.buffer b).data c.sampleCount code } with
    prediction := nextPrediction c.prediction c.stepIndex code, stepIndex := nextIndex c.stepIndex code
    sampleCount := c.sampleCount + 1, position := c.position + 1, accepted := sat32 c.accepted }

/-- The channel with the block in that buffer FULL (R52). -/
def Channel.filled (c : Channel) (b : Bool) : Channel := c.setBuffer b { c.buffer b with cond := .full }

theorem takeSample_coded {s : State} {ch : Nat} {b : Bool} (x : Int) (hd : (s.channel ch).dir = .record)
    (hst : (s.channel ch).state = .recording) (hb : (s.channel ch).bufferIn .filling = some b) :
    takeSample ch x s = afterSample ch b (s.setChannel ch ((s.channel ch).coded b x)) := by
  unfold takeSample
  dsimp only
  rw [if_pos ⟨hd, hst⟩, hb]
  exact rfl

/-- A recording that closes its block with no next one and stops (R51, R52, R56). -/
theorem stops_written (ch : Nat) (b : Bool) (reason : StopReason) (s : State) :
    (stopRecording ch reason (writeBlock ch b none32 s)).channel ch =
      { (s.channel ch).closedIn b none32 with state := .stopped, stopReason := reason } ∧
    (stopRecording ch reason (writeBlock ch b none32 s)).message (s.channel ch).index =
      { s.message (s.channel ch).index with truncated := true, length := (s.channel ch).position } ∧
    (s.enabled .recordingStopped = true →
      (Requester.directory, ⟨.recordingStopped, (s.message (s.channel ch).index).room, s.stamp, twoItems ch reason.code,
        (s.channel ch).position⟩) ∈ (stopRecording ch reason (writeBlock ch b none32 s)).out.notices) ∧
    ∀ r ∈ s.blockBursts ch b none32, Raised r (stopRecording ch reason (writeBlock ch b none32 s)) := by
  rw [writeBlock_eq]
  generalize hx : raiseAll (s.blockBursts ch b none32) (s.setChannel ch ((s.channel ch).closedIn b none32)) = x
  have hxc : x.channel ch = (s.channel ch).closedIn b none32 := by
    rw [← hx]
    exact (channel_setChannel ..).trans (if_pos rfl)
  have hxo : x.out = { s.out with requests := s.out.requests ++ s.blockBursts ch b none32 } := by rw [← hx]; rfl
  have hxm (j : Nat) : x.message j = s.message j := by rw [← hx]; rfl
  have hxen : x.enabled .recordingStopped = s.enabled .recordingStopped := by rw [← hx]; rfl
  have hxst : x.stamp = s.stamp := by rw [← hx]; rfl
  obtain ⟨ms, o, hw, htold, hadds, hmess⟩ := stopRecording_eq ch reason x
  rw [hxc] at hw htold hadds hmess
  rw [closedIn_index] at htold hadds hmess
  rw [closedIn_position] at htold hmess
  rw [hxen, hxst, hxm] at htold
  generalize stopRecording ch reason x = w at hw hadds hmess ⊢
  have hwo : w.out = o := by rw [hw]
  refine ⟨?_, ?_, fun hen => ?_, fun r hm => hadds.raised ?_⟩
  · rw [hw]
    exact (channel_setChannel ..).trans (if_pos rfl)
  · rw [hmess, if_pos rfl, hxm]
  · rw [hwo, htold, if_pos hen]
    exact List.mem_append_right _ (List.mem_singleton.mpr rfl)
  · unfold Raised
    rw [hxo]
    exact List.mem_append_right _ hm

/-- The block in buffer `b` of channel `ch`, which sample `x` ended in `s`, is closed with `next`, and written (R55). -/
def BlockClosed (s w : State) (ch : Nat) (b : Bool) (x : Int) (next : Nat) : Prop :=
  let c := s.channel ch
  ((w.channel ch).buffer b).cond = .writing ∧ (w.channel ch).writes = c.writes + 1 ∧
  ∀ k < 8, { source := .blockWrite ch b k, write := true
             addr := s.profile.storeBase + 512 * (c.buffer b).block + 64 * k, beats := 8
             lanes := allLanes (slice
               (blockHeader next c.startPred c.startIndex c.blockGap (c.sampleCount + 1) ++
                 (putCode (c.buffer b).data c.sampleCount (encodeSample c.prediction c.stepIndex x)).drop 8)
               (64 * k) 64) } ∈ w.out.requests

/-- With sample `x`, which ended its block, the recording of channel `ch` has stopped (R51, R52, R56). -/
def SampleStops (s w : State) (ch : Nat) (b : Bool) (x : Int) (reason : StopReason) (code : Nat) : Prop :=
  let c := s.channel ch
  let m := s.message c.index
  (w.channel ch).state = .stopped ∧ (w.channel ch).stopReason = reason ∧
  (w.message c.index).length = c.position + 1 ∧ (w.message c.index).truncated = true ∧
  BlockClosed s w ch b x none32 ∧
  (s.enabled .recordingStopped = true →
    (Requester.directory, ⟨.recordingStopped, m.room, s.stamp, twoItems ch code, c.position + 1⟩) ∈ w.out.notices)

/-- `v` is the state after sample `x` of channel `ch` is coded, before what it ends is dealt with. -/
structure Codes (s v : State) (ch : Nat) (b : Bool) (x : Int) : Prop where
  channel : v.channel ch = (s.channel ch).coded b x ∨ v.channel ch = ((s.channel ch).coded b x).filled b
  steady  : v.control = s.control ∧ v.time = s.time
  room    : (v.message (s.channel ch).index).room = (s.message (s.channel ch).index).room

section
variable {s v w : State} {ch next : Nat} {b : Bool} {x : Int} (h : Codes s v ch b x)
include h

theorem Codes.fields : (v.channel ch).index = (s.channel ch).index ∧ (v.channel ch).position = (s.channel ch).position + 1 ∧
    ((v.channel ch).closedIn b next).writes = (s.channel ch).writes + 1 ∧
    (((v.channel ch).closedIn b next).buffer b).cond = .writing := by
  rcases h.channel with hc | hc <;> rw [hc] <;> cases b <;> exact ⟨rfl, rfl, rfl, rfl⟩

theorem Codes.bursts : v.blockBursts ch b next = (List.range 8).map fun k =>
    { source := .blockWrite ch b k, write := true
      addr := s.profile.storeBase + 512 * ((s.channel ch).buffer b).block + 64 * k, beats := 8
      lanes := allLanes (slice
        (blockHeader next (s.channel ch).startPred (s.channel ch).startIndex (s.channel ch).blockGap
          ((s.channel ch).sampleCount + 1) ++ (putCode ((s.channel ch).buffer b).data (s.channel ch).sampleCount
            (encodeSample (s.channel ch).prediction (s.channel ch).stepIndex x)).drop 8)
        (64 * k) 64) } := by
  have hp : v.profile = s.profile := by unfold State.profile; rw [h.steady.1]
  unfold State.blockBursts
  rw [hp]
  rcases h.channel with hc | hc <;> rw [hc] <;> cases b <;> exact rfl

theorem Codes.closed (hcond : ((w.channel ch).buffer b).cond = .writing)
    (hwrites : (w.channel ch).writes = ((v.channel ch).closedIn b next).writes)
    (hr : ∀ r ∈ v.blockBursts ch b next, Raised r w) : BlockClosed s w ch b x next := by
  obtain ⟨-, -, hw, -⟩ := h.fields (next := next)
  rw [h.bursts] at hr
  exact ⟨hcond, hwrites.trans hw, fun k hk => hr _ (List.mem_map.mpr ⟨k, List.mem_range.mpr hk, rfl⟩)⟩

/-- What stops a recording does so with the block that the sample ended. -/
theorem Codes.stops {reason : StopReason}
    (hd : w.channel ch = { (v.channel ch).closedIn b none32 with state := .stopped, stopReason := reason })
    (hm : w.message (v.channel ch).index =
      { v.message (v.channel ch).index with truncated := true, length := (v.channel ch).position })
    (hn : v.enabled .recordingStopped = true → (Requester.directory, ⟨.recordingStopped,
      (v.message (v.channel ch).index).room, v.stamp, twoItems ch reason.code, (v.channel ch).position⟩) ∈ w.out.notices)
    (hr : ∀ r ∈ v.blockBursts ch b none32, Raised r w) : SampleStops s w ch b x reason reason.code := by
  obtain ⟨hi, hpos, -, hcond⟩ := h.fields (next := none32)
  rw [hi, hpos] at hn
  rw [hi, hpos] at hm
  have hen : v.enabled .recordingStopped = s.enabled .recordingStopped := by
    unfold State.enabled State.profile
    rw [h.steady.1]
  have hst : v.stamp = s.stamp := by unfold State.stamp; rw [h.steady.2]
  rw [hen, h.room, hst] at hn
  refine ⟨by rw [hd], by rw [hd], by rw [hm], by rw [hm], h.closed ?_ (by rw [hd]) hr, hn⟩
  rw [hd]
  exact hcond

end

/-! ### A block that is FULL (R52, R23) -/

/-- The state in which the channel asks for the block after the one that sample `x` filled (R52). -/
def State.fullWith (s : State) (ch : Nat) (b : Bool) (x : Int) : State :=
  updateLength ch ((s.setChannel ch ((s.channel ch).coded b x)).setChannel ch (((s.channel ch).coded b x).filled b))

section
variable (s : State) (ch : Nat) (b : Bool) (x : Int)

theorem fullWith_eq : ∃ o, s.fullWith ch b x = {
      (s.setChannel ch ((s.channel ch).coded b x)).setChannel ch (((s.channel ch).coded b x).filled b) with
      store := { s.store with messages := (s.fullWith ch b x).store.messages }, out := o } ∧
    Adds (· = .record (s.channel ch).index) s (s.fullWith ch b x) ∧
    ∀ j, (s.fullWith ch b x).message j = if j = (s.channel ch).index then
      { s.message (s.channel ch).index with length := (s.channel ch).position + 1 } else s.message j := by
  unfold State.fullWith updateLength
  dsimp only
  generalize hv : (s.setChannel ch ((s.channel ch).coded b x)).setChannel ch (((s.channel ch).coded b x).filled b) = v
  have hvc : v.channel ch = ((s.channel ch).coded b x).filled b := by
    rw [← hv]
    exact (channel_setChannel ..).trans (if_pos rfl)
  have hvm (j : Nat) : v.message j = s.message j := by rw [← hv]; rfl
  have hfields : (v.channel ch).index = (s.channel ch).index ∧ (v.channel ch).position = (s.channel ch).position + 1 := by
    rw [hvc]
    cases b <;> exact ⟨rfl, rfl⟩
  obtain ⟨hi, hpos⟩ := hfields
  rw [hi, hpos]
  obtain ⟨o, hu, -, hadds⟩ := updateMessage_eq (s.channel ch).index
    { v.message (s.channel ch).index with length := (s.channel ch).position + 1 } v
  have hmess := updateMessage_message (s.channel ch).index
    { v.message (s.channel ch).index with length := (s.channel ch).position + 1 } v
  generalize updateMessage (s.channel ch).index _ v = u at hu hadds hmess ⊢
  refine ⟨o, ?_, ?_, fun j => ?_⟩
  · rw [hu, ← hv]
    exact rfl
  · obtain ⟨rs, hrs, hall⟩ := hadds
    exact ⟨rs, by rw [hrs, ← hv]; rfl, hall⟩
  · rw [hmess, hvm, hvm]

theorem fullWith_channel : (s.fullWith ch b x).channel ch = ((s.channel ch).coded b x).filled b := by
  obtain ⟨o, hv, -⟩ := fullWith_eq s ch b x
  rw [hv]
  exact (channel_setChannel ..).trans (if_pos rfl)

theorem fullWith_codes : Codes s (s.fullWith ch b x) ch b x := by
  obtain ⟨o, hv, -, hm⟩ := fullWith_eq s ch b x
  refine ⟨.inr (fullWith_channel s ch b x), ?_, by rw [hm, if_pos rfl]⟩
  rw [hv]
  exact ⟨rfl, rfl⟩

/-- The refusals of the take for the next block, in the terms of R23. -/
theorem fullWith_refusal :
    (s.fullWith ch b x).takeRefusal
        ((s.fullWith ch b x).message ((s.fullWith ch b x).channel ch).index).room
        ((s.fullWith ch b x).message ((s.fullWith ch b x).channel ch).index).urgent =
      if s.freeCount ≤ (if (s.message (s.channel ch).index).urgent then 0 else s.profile.reserve) then some .storeFull
      else if (if (s.roomShadow (s.message (s.channel ch).index).room).quota = 0 then s.profile.defaultQuota
          else (s.roomShadow (s.message (s.channel ch).index).room).quota) <
        (s.mailbox (s.message (s.channel ch).index).room).blocksUsed + 1 then some .quota else none := by
  obtain ⟨hi, -⟩ := (fullWith_codes s ch b x).fields (next := 0)
  obtain ⟨o, hv, -, hm⟩ := fullWith_eq s ch b x
  have hfree : (s.fullWith ch b x).freeCount = s.freeCount := by rw [hv]; rfl
  have hprofile : (s.fullWith ch b x).profile = s.profile := by rw [hv]; rfl
  have hshadow : (s.fullWith ch b x).roomShadow = s.roomShadow := by rw [hv]; rfl
  have hmail (q : Nat) : (s.fullWith ch b x).mailbox q = s.mailbox q := by rw [hv]; rfl
  rw [hi, hm, if_pos rfl]
  unfold State.takeRefusal State.quotaOf
  rw [hfree, hprofile, hshadow, hmail]

end

/-- Channel `k`, whose block in buffer `b` is written naming `next`, which fills the other buffer (R52). -/
theorem closed_fills (k : Channel) (b : Bool) (next : Nat) :
    ((k.closedIn b next).fillingIn (!b) next).state = k.state ∧
    ((k.closedIn b next).fillingIn (!b) next).writes = (k.closedIn b next).writes ∧
    ((k.closedIn b next).fillingIn (!b) next).buffer b = (k.closedIn b next).buffer b ∧
    ((k.closedIn b next).fillingIn (!b) next).buffer (!b) = ⟨next, .filling, zeros 512⟩ ∧
    ((k.closedIn b next).fillingIn (!b) next).startPred = k.prediction ∧
    ((k.closedIn b next).fillingIn (!b) next).startIndex = k.stepIndex ∧
    ((k.closedIn b next).fillingIn (!b) next).sampleCount = 0 ∧
    ((k.closedIn b next).fillingIn (!b) next).blockGap = k.pendingGap ∧
    ((k.closedIn b next).fillingIn (!b) next).pendingGap = false := by
  cases b <;> exact ⟨rfl, rfl, rfl, rfl, rfl, rfl, rfl, rfl, rfl⟩

/-- Channel `k`, whose block in buffer `b` is written naming `next`, which waits for the other buffer (R52). -/
theorem closed_waits (k : Channel) (b : Bool) (next : Nat) :
    Channel.state { k.closedIn b next with waitingBlock := some next } = k.state ∧
    Channel.buffer { k.closedIn b next with waitingBlock := some next } b = (k.closedIn b next).buffer b := by
  cases b <;> exact ⟨rfl, rfl⟩

theorem filled_fields (k : Channel) (b : Bool) : (k.filled b).state = k.state ∧ (k.filled b).prediction = k.prediction ∧
    (k.filled b).stepIndex = k.stepIndex ∧ (k.filled b).pendingGap = k.pendingGap ∧
    (k.filled b).buffer (!b) = k.buffer (!b) := by
  cases b <;> exact ⟨rfl, rfl, rfl, rfl, rfl⟩

theorem coded_fields (k : Channel) (b : Bool) (x : Int) : (k.coded b x).state = k.state ∧
    (k.coded b x).pendingGap = k.pendingGap ∧ (k.coded b x).buffer (!b) = k.buffer (!b) := by
  cases b <;> exact ⟨rfl, rfl, rfl⟩

/-- (5) of O60: the 1008th sample of a block, below the length limit. -/
theorem fullWith_takes {s : State} {ch : Nat} {b : Bool} {x : Int} (hst : (s.channel ch).state = .recording)
    (hother : ((s.channel ch).buffer (!b)).cond ≠ .full) :
    let c := s.channel ch
    let m := s.message c.index
    let coded := c.coded b x
    let t := requestTake ch (s.fullWith ch b x)
    let d := t.channel ch
    let n := t.message c.index
    let few := s.freeCount ≤ if m.urgent then 0 else s.profile.reserve
    let beyond := (if (s.roomShadow m.room).quota = 0 then s.profile.defaultQuota else (s.roomShadow m.room).quota)
      < (s.mailbox m.room).blocksUsed + 1
    n.length = c.position + 1 ∧
    (few → SampleStops s t ch b x .storeFull 1) ∧ (¬few → beyond → SampleStops s t ch b x .quota 2) ∧
    (¬few → ¬beyond → takeReady s.store.pocket = none →
      d = coded.setBuffer b { coded.buffer b with cond := .full } ∧
      t.store.takeLine = s.store.takeLine ++ [ch] ∧ t.raisedFor .voice = s.raisedFor .voice) ∧
    (∀ block rest, ¬few → ¬beyond → takeReady s.store.pocket = some (block, rest) →
      d.state = .recording ∧ BlockClosed s t ch b x block ∧ t.store.pocket = rest ∧ n.blocks = m.blocks + 1 ∧
      (t.mailbox m.room).blocksUsed = (s.mailbox m.room).blocksUsed + 1 ∧
      ((c.buffer (!b)).cond = .empty →
        d.buffer (!b) = ⟨block, .filling, zeros 512⟩ ∧ d.startPred = coded.prediction ∧
        d.startIndex = coded.stepIndex ∧ d.sampleCount = 0 ∧ d.blockGap = c.pendingGap ∧ d.pendingGap = false) ∧
      ((c.buffer (!b)).cond ≠ .empty → d.waitingBlock = some block)) := by
  intro c m coded t d n few beyond
  have hcodes := fullWith_codes s ch b x
  obtain ⟨o, hv, hadds, hmess⟩ := fullWith_eq s ch b x
  have hvc := fullWith_channel s ch b x
  have hrefusal := fullWith_refusal s ch b x
  have hpocket : (s.fullWith ch b x).store.pocket = s.store.pocket := by rw [hv]
  have hline : (s.fullWith ch b x).store.takeLine = s.store.takeLine := by rw [hv]
  have hmail (q : Nat) : (s.fullWith ch b x).mailbox q = s.mailbox q := by rw [hv]; rfl
  have ht : t = requestTake ch (s.fullWith ch b x) := rfl
  generalize s.fullWith ch b x = v at hcodes hadds hmess hvc hrefusal hpocket hline hmail ht
  have hfull : (v.channel ch).bufferIn .full = some b := by
    rw [hvc]
    revert hother
    cases b with
    | false => exact fun _ => if_pos rfl
    | true => exact fun h => (if_neg h).trans (if_pos rfl)
  obtain ⟨hfs, hfp, hfi, hfg, hfb⟩ := filled_fields coded b
  obtain ⟨hcs, hcg, hcb⟩ := coded_fields c b x
  have hrecords : (v.channel ch).state = .recording := by rw [hvc]; exact hfs.trans (hcs.trans hst)
  have hbuffer : (v.channel ch).buffer (!b) = c.buffer (!b) := by rw [hvc]; exact hfb.trans hcb
  have hopen : (v.channel ch).state ≠ .opening := by
    rw [hrecords]
    exact nofun
  have hi : (v.channel ch).index = c.index := (hcodes.fields (next := 0)).1
  have hvm : v.message c.index = { m with length := c.position + 1 } := (hmess _).trans (if_pos rfl)
  have hstop {st : Status} (hr : v.takeRefusal (v.message (v.channel ch).index).room
      (v.message (v.channel ch).index).urgent = some st) : SampleStops s t ch b x st.stops st.stops.code := by
    obtain ⟨-, -, -, hd, hm, hn, -, hbursts⟩ := answer_stops (st := st) hopen hfull
    rw [ht, requestTake_refused hr]
    refine hcodes.stops hd hm (fun hen => ?_) hbursts
    rw [hn, if_pos hen]
    exact List.mem_append_right _ (List.mem_singleton.mpr rfl)
  by_cases hfew : few
  · have hs := hstop (st := .storeFull) (hrefusal.trans (if_pos hfew))
    exact ⟨hs.2.2.1, fun _ => hs, fun h => absurd hfew h, fun h => absurd hfew h, fun _ _ h => absurd hfew h⟩
  by_cases hbeyond : beyond
  · have hs := hstop (st := .quota) (hrefusal.trans ((if_neg hfew).trans (if_pos hbeyond)))
    exact ⟨hs.2.2.1, fun h => absurd h hfew, fun _ _ => hs, fun _ h => absurd hbeyond h, fun _ _ _ h => absurd hbeyond h⟩
  have hr := hrefusal.trans ((if_neg hfew).trans (if_neg hbeyond))
  cases hp : takeReady s.store.pocket with
  | none =>
    rw [requestTake_waits hr (by rw [hpocket]; exact hp)] at ht
    refine ⟨?_, fun h => absurd h hfew, fun _ h => absurd h hbeyond, fun _ _ _ => ⟨?_, ?_, ?_⟩, fun _ _ _ _ h => nomatch h⟩
    · rw [show n = v.message c.index by show t.message _ = _; rw [ht]; rfl, hvm]
    · rw [show d = v.channel ch by show t.channel _ = _; rw [ht]; rfl]
      exact hvc
    · rw [ht, hline]
    · rw [show t.raisedFor .voice = v.raisedFor .voice by rw [ht]; rfl]
      exact hadds.raisedFor fun x hx => by rw [hx]; exact nofun
  | some taken =>
    obtain ⟨block, rest⟩ := taken
    obtain ⟨u, heval, hu⟩ := evalTake_granted hr (by rw [hpocket]; exact hp)
    obtain ⟨hg, -, -, hbursts, hempty, hbusy⟩ := answer_goes_on hopen hfull hu
    rw [requestTake_granted heval] at ht
    rw [← ht] at hg hbursts hempty hbusy
    rw [hi, hvm] at hempty hbusy
    have hcond : ((v.channel ch).buffer (!b)).cond = (c.buffer (!b)).cond := congrArg Buffer.cond hbuffer
    rw [hcond] at hempty hbusy
    have hclosed := (hcodes.fields (next := block)).2.2.2
    have hgoes : d.state = .recording ∧ BlockClosed s t ch b x block ∧ n.length = c.position + 1 ∧ n.blocks = m.blocks + 1 := by
      by_cases he : (c.buffer (!b)).cond = .empty
      · obtain ⟨hd, hn⟩ := hempty he
        obtain ⟨hds, hdw, hdb, -⟩ := closed_fills (v.channel ch) b block
        rw [← hd] at hds hdw hdb
        exact ⟨hds.trans hrecords, hcodes.closed (by rw [hdb]; exact hclosed) hdw hbursts, congrArg Message.length hn,
          congrArg Message.blocks hn⟩
      · obtain ⟨hd, hn⟩ := hbusy he
        obtain ⟨hds, hdb⟩ := closed_waits (v.channel ch) b block
        rw [← hd] at hds hdb
        exact ⟨hds.trans hrecords, hcodes.closed (by rw [hdb]; exact hclosed) (by rw [hd]) hbursts, congrArg Message.length hn,
          congrArg Message.blocks hn⟩
    obtain ⟨hrun, hblock, hlength, hblocks⟩ := hgoes
    refine ⟨hlength, fun h => absurd h hfew, fun _ h => absurd h hbeyond, nofun, fun block' rest' _ _ heq => ?_⟩
    obtain ⟨rfl, rfl⟩ := Prod.mk.inj (Option.some.inj heq)
    refine ⟨hrun, hblock, hg.pocket.1, hblocks, ?_, fun he => ?_, fun he => ?_⟩
    · rw [hg.mailbox, hi, hvm, if_pos rfl, hmail]
    · obtain ⟨-, -, -, hnext, hpred, hidx, hcount, hgap, hpending⟩ := closed_fills (v.channel ch) b block
      rw [← (hempty he).1] at hnext hpred hidx hcount hgap hpending
      rw [hvc] at hpred hidx hgap
      exact ⟨hnext, hpred.trans hfp, hidx.trans hfi, hcount, hgap.trans (hfg.trans hcg), hpending⟩
    · rw [show d = _ from (hbusy he).1]

/-- (3) to (5) of O60: a sample whose block is filling. -/
theorem takeSample_follows {s : State} {ch : Nat} {b : Bool} (x : Int) (hd : (s.channel ch).dir = .record)
    (hst : (s.channel ch).state = .recording) (hb : (s.channel ch).bufferIn .filling = some b) :
    ((s.channel ch).position + 1 = 800 * s.profile.recordLimit →
      SampleStops s (takeSample ch x s) ch b x .length 3) ∧
    ((s.channel ch).position + 1 ≠ 800 * s.profile.recordLimit →
      ((s.channel ch).sampleCount + 1 ≠ 1008 → takeSample ch x s = s.setChannel ch ((s.channel ch).coded b x)) ∧
      ((s.channel ch).sampleCount + 1 = 1008 → takeSample ch x s = requestTake ch (s.fullWith ch b x))) := by
  rw [takeSample_coded x hd hst hb]
  have hfull : updateLength ch ((s.setChannel ch ((s.channel ch).coded b x)).setChannel ch
    (((s.channel ch).coded b x).filled b)) = s.fullWith ch b x := rfl
  generalize hv : s.setChannel ch ((s.channel ch).coded b x) = v at hfull ⊢
  have hvc : v.channel ch = (s.channel ch).coded b x := by
    rw [← hv]
    exact (channel_setChannel ..).trans (if_pos rfl)
  have hcodes : Codes s v ch b x := ⟨.inl hvc, by rw [← hv]; exact ⟨rfl, rfl⟩, by rw [← hv]; rfl⟩
  have hpos : (v.channel ch).position = (s.channel ch).position + 1 := by rw [hvc]; rfl
  have hcount : (v.channel ch).sampleCount = (s.channel ch).sampleCount + 1 := by rw [hvc]; rfl
  have hlimit : v.recordLimit = 800 * s.profile.recordLimit := by rw [← hv]; rfl
  unfold afterSample
  dsimp only
  rw [hpos, hcount, hlimit]
  refine ⟨fun h => ?_, fun h => ⟨fun hn => ?_, fun hn => ?_⟩⟩
  · rw [if_pos h]
    obtain ⟨hd, hm, hn, hr⟩ := stops_written ch b .length v
    exact hcodes.stops hd hm hn hr
  · rw [if_neg h]
    exact if_neg hn
  · rw [if_neg h, ← hfull, ← hvc]
    exact if_pos hn

/-- (3) to (5) of O60. -/
theorem takePosition_takes (s : State) (ch off : Nat) (lo hi : Byte) (hch : off / 65536 = ch) (hoff : off % 65536 < 32768) :
    takePosition off none none s = s ∧
    takePosition off (some lo) none s = refuseSample ch s ∧ takePosition off none (some hi) s = refuseSample ch s ∧
    takePosition off (some lo) (some hi) s = takeSample ch (signed16 (lo.toNat + 256 * hi.toNat)) s := by
  have hlow : ¬ off % 65536 ≥ 32768 := Nat.not_le.mpr hoff
  subst hch
  unfold takePosition
  exact ⟨if_neg hlow, if_neg hlow, if_neg hlow, if_neg hlow⟩

/-- Settles O60: the positions one by one, and what a coded sample ends. -/
theorem recordSamplesAreCodedOrCounted : Obligations.RecordSamplesAreCodedOrCounted := by
  refine ⟨fun s req w p ho hat hmode hparts hin hobs hguard =>
    recordAperture_positions ho hat hmode hparts hin hobs hguard, fun s off a b h => if_pos h, fun s ch off lo hi hch hoff => ?_⟩
  obtain ⟨hnone, hlo, hhi, hboth⟩ := takePosition_takes s ch off lo hi hch hoff
  dsimp only
  rw [hboth]
  refine ⟨hnone, hlo, hhi, fun h => ?_, fun hd hst hb => ?_, fun b hd hst hb => ?_⟩
  · exact if_neg (by tauto)
  · unfold takeSample
    dsimp only
    rw [if_pos ⟨hd, hst⟩, hb]
    exact rfl
  · obtain ⟨hlimit, hbelow⟩ := takeSample_follows (signed16 (lo.toNat + 256 * hi.toNat)) hd hst hb
    refine ⟨hlimit, fun hp => ⟨(hbelow hp).1, fun hn hother => ?_⟩⟩
    rw [(hbelow hp).2 hn]
    exact fullWith_takes hst hother

end Sys2Proof.Machine
end

section
/-! PROOFS. The end of a recording: its close, and the release of its message (2.7, 3.3). -/

namespace Sys2Proof.Machine

/-! ### A channel that becomes FREE (R29, R57) -/

/-- From `s` to `w` channel `ch` has become `d`, FREE, and its order has been answered. -/
structure Frees (s w : State) (ch : Nat) (st : Status) (res : List Byte) (d : Channel) : Prop where
  rest     : ∃ vo ri o, w = { s with voice := vo, ring := ri, out := o }
  told     : w.out.notices = s.out.notices
  adds     : Adds (fun x => ∃ slot, (s.channel ch).order = some slot ∧ x = .completion slot) s w
  channels : ∀ k, w.channel k = if k = ch then d else s.channel k
  done     : ∀ slot e, (s.channel ch).order = some slot → s.entryOf slot = some e →
    Raised (completionWrite s slot e.copy st false res) w

theorem freeChannel_frees (ch : Nat) (st : Status) (res : List Byte) (s : State) :
    Frees s (freeChannel ch st res s) ch st res { s.channel ch with state := .free, order := none, closing := .none } := by
  unfold freeChannel
  dsimp only
  generalize hu : s.setChannel ch { s.channel ch with state := .free, order := none, closing := .none } = u
  have hue (slot : Nat) : u.entryOf slot = s.entryOf slot := by rw [← hu]; rfl
  have huc (k : Nat) : u.channel k = if k = ch then
      { s.channel ch with state := .free, order := none, closing := .none } else s.channel k := by
    rw [← hu, channel_setChannel]
  obtain ⟨ri, o, hw, hon, hadds⟩ := completeFor_eq (s.channel ch).order st res u
  have hdone (slot : Nat) (e : InFlight) (horder : (s.channel ch).order = some slot) (he : s.entryOf slot = some e) :
      Raised (completionWrite s slot e.copy st false res) (completeFor (s.channel ch).order st res u) := by
    rw [horder, ← completionWrite_congr (s := s) (t := u) (by rw [← hu]; rfl)]
    exact completeOrder_raises st false res ((hue slot).trans he)
  generalize completeFor (s.channel ch).order st res u = w at hw hadds hdone ⊢
  refine ⟨⟨u.voice, ri, o, by rw [hw, ← hu]; rfl⟩, ?_, ?_, fun k => ?_, hdone⟩
  · rw [hw]
    exact hon.trans (by rw [← hu]; rfl)
  · obtain ⟨rs, hrs, hall⟩ := hadds
    exact ⟨rs, by rw [hrs, ← hu]; rfl, hall⟩
  · rw [← huc, hw]
    exact rfl

/-- The release is finished, and the channel is CLOSING: it answers its order (R29). -/
theorem channelReleased_frees {ch : Nat} {s : State} (h : (s.channel ch).state = .closing) :
    Frees s (channelReleased ch s) ch (s.channel ch).verdict []
      { s.channel ch with release := .finished, state := .free, order := none, closing := .none } := by
  unfold channelReleased
  dsimp only
  rw [if_pos h]
  generalize hu : s.setChannel ch { s.channel ch with release := .finished } = u
  have huc (k : Nat) : u.channel k = if k = ch then { s.channel ch with release := .finished } else s.channel k := by
    rw [← hu, channel_setChannel]
  have hue (slot : Nat) : u.entryOf slot = s.entryOf slot := by rw [← hu]; rfl
  have hf := freeChannel_frees ch (s.channel ch).verdict [] u
  generalize freeChannel ch (s.channel ch).verdict [] u = w at hf ⊢
  obtain ⟨⟨vo, ri, o, hw⟩, htold, ⟨rs, hrs, hall⟩, hchannels, hdone⟩ := hf
  rw [huc, if_pos rfl] at hall hchannels hdone
  refine ⟨⟨vo, ri, o, by rw [hw, ← hu]; rfl⟩, htold.trans (by rw [← hu]; rfl), ⟨rs, by rw [hrs, ← hu]; rfl, hall⟩, fun k => ?_,
    fun slot e horder he => ?_⟩
  · rw [hchannels]
    by_cases hk : k = ch
    · rw [if_pos hk, if_pos hk]
    · rw [if_neg hk, if_neg hk, huc, if_neg hk]
  · rw [← completionWrite_congr (s := s) (t := u) (by rw [← hu]; rfl)]
    exact hdone slot e horder ((hue slot).trans he)

/-! ### A channel's release of its message (R26, R37) -/

/-- The channel without what the end of a recording writes into it: state, order, closing, release, verdict. -/
def Channel.progress (c : Channel) : Channel :=
  { c with state := .free, order := none, closing := .none, release := .none, verdict := .done }

/-- From `s` to `w` channel `ch`, whose message records, has had that message released, or has asked for it. -/
structure Releases (s w : State) (ch : Nat) : Prop where
  rest     : ∃ vo ms bs mk fr rq rl wk ri o, w = { s with
    voice := vo, ring := ri, out := o
    store := { s.store with
      messages := ms, mailboxes := bs, marks := mk, freeRecords := fr, releaseQueue := rq, releaseLine := rl, walk := wk } }
  told     : w.out.notices = s.out.notices
  messages : ∀ j, j ≠ (s.channel ch).index → w.message j = s.message j
  rooms    : ∀ q, q ≠ (s.message (s.channel ch).index).room → w.mailbox q = s.mailbox q
  channels : ∀ k, k ≠ ch → w.channel k = s.channel k
  own      : (w.channel ch).progress = (s.channel ch).progress ∧
    ((w.channel ch).state = (s.channel ch).state ∨ (w.channel ch).state = .free)
  message  : ∃ st nx, w.message (s.channel ch).index = { s.message (s.channel ch).index with state := st, next := nx }
  used     : ∀ q, (w.mailbox q).blocksUsed = (s.mailbox q).blocksUsed
  adds     : Adds (fun x => x.ofRelease (s.channel ch).index ∨ ∃ slot, x = .completion slot) s w

/-- The release is finished, whatever the channel's state. -/
theorem channelReleased_rest (ch : Nat) (s : State) :
    ∃ vo ri o, channelReleased ch s = { s with voice := vo, ring := ri, out := o } ∧ o.notices = s.out.notices ∧
      (∀ k, k ≠ ch → (channelReleased ch s).channel k = s.channel k) ∧
      ((channelReleased ch s).channel ch).progress = (s.channel ch).progress ∧
      (((channelReleased ch s).channel ch).state = (s.channel ch).state ∨ ((channelReleased ch s).channel ch).state = .free) ∧
      Adds (fun x => ∃ slot, x = .completion slot) s (channelReleased ch s) := by
  by_cases h : (s.channel ch).state = .closing
  · have hf := channelReleased_frees h
    generalize channelReleased ch s = w at hf ⊢
    obtain ⟨⟨vo, ri, o, rfl⟩, htold, hadds, hchannels, -⟩ := hf
    have hch := (hchannels ch).trans (if_pos rfl)
    exact ⟨vo, ri, o, rfl, htold, fun k hk => (hchannels k).trans (if_neg hk), by rw [hch]; rfl, by rw [hch]; exact .inr rfl,
      hadds.mono fun x hx => hx.elim fun slot h => ⟨slot, h.2⟩⟩
  · have he : channelReleased ch s = s.setChannel ch { s.channel ch with release := .finished } := if_neg h
    rw [he]
    have hch : (s.setChannel ch { s.channel ch with release := .finished }).channel ch =
        { s.channel ch with release := .finished } := (channel_setChannel ..).trans (if_pos rfl)
    exact ⟨_, s.ring, s.out, rfl, rfl, fun k hk => (channel_setChannel ..).trans (if_neg hk), by rw [hch]; rfl,
      by rw [hch]; exact .inl rfl, .of_same rfl⟩

theorem releaseMessage_releases {s u w : State} {ch : Nat} {c : Channel} (hu : s.setChannel ch c = u)
    (hc : c.progress = (s.channel ch).progress ∧ c.state = (s.channel ch).state)
    (hst : (s.message (s.channel ch).index).state = .recording)
    (hw : w = releaseMessage (s.channel ch).index (.channel ch) u ∨
      w = channelReleased ch (releaseMessage (s.channel ch).index (.channel ch) u)) : Releases s w ch := by
  have hum (j : Nat) : u.message j = s.message j := by rw [← hu]; rfl
  have hub (q : Nat) : u.mailbox q = s.mailbox q := by rw [← hu]; rfl
  have huc (k : Nat) (hk : k ≠ ch) : u.channel k = s.channel k := by
    rw [← hu, channel_setChannel, if_neg hk]
  have hrel := releaseRecorded (s := u) (i := (s.channel ch).index) (.channel ch) (by rw [hum]; exact hst)
  generalize releaseMessage (s.channel ch).index (.channel ch) u = x at hrel hw
  obtain ⟨⟨ms, bs, mk, fr, rq, wk, o, hx⟩, htold, ⟨rs, hrs, hall⟩, hmessage, hmailbox, -, -, -⟩ := hrel
  have hxch : x.channel ch = c := by
    rw [hx]
    exact (show State.channel u ch = c by rw [← hu, channel_setChannel, if_pos rfl])
  have hxw : ∃ vo ri o', w = { x with voice := vo, ring := ri, out := o' } ∧ o'.notices = x.out.notices ∧
      (∀ k, k ≠ ch → w.channel k = x.channel k) ∧ (w.channel ch).progress = (x.channel ch).progress ∧
      ((w.channel ch).state = (x.channel ch).state ∨ (w.channel ch).state = .free) ∧
      Adds (fun y => ∃ slot, y = .completion slot) x w := by
    rcases hw with rfl | rfl
    · exact ⟨_, _, _, rfl, rfl, fun _ _ => rfl, rfl, .inl rfl, .of_same rfl⟩
    · exact channelReleased_rest ch x
  obtain ⟨vo, ri, o', hw, hon, hchannels, hown, hstate, hwadds⟩ := hxw
  have hwm (j : Nat) : w.message j = x.message j := by rw [hw]; rfl
  have hwb (q : Nat) : w.mailbox q = x.mailbox q := by rw [hw]; rfl
  rw [hxch] at hown hstate
  rw [hc.1] at hown
  rw [hc.2] at hstate
  have hxadds : Adds (Source.ofRelease (s.channel ch).index) s x := ⟨rs, by rw [hrs, ← hu]; rfl, hall⟩
  refine ⟨⟨vo, ms, bs, mk, fr, rq, s.store.releaseLine, wk, ri, o', ?_⟩, ?_, fun j hj => ?_, fun q hq => ?_, fun k hk => ?_,
    ⟨hown, hstate⟩, ?_, fun q => ?_, (hxadds.mono fun _ h => .inl h).trans (hwadds.mono fun _ h => .inr h)⟩
  · rw [hw, hx, ← hu]
    rfl
  · rw [hw]
    exact hon.trans (htold.trans (by rw [← hu]; rfl))
  · rw [hwm, hmessage, if_neg hj, hum]
  · rw [hwb, hmailbox, if_neg (by rw [hum]; exact hq), hub]
  · rw [hchannels k hk, hx]
    exact huc k hk
  · rw [hwm, hmessage, if_pos rfl, hum]
    split
    · exact ⟨_, _, rfl⟩
    · exact ⟨_, _, rfl⟩
  · rw [hwb, hmailbox, ← hub]
    split
    next hq => rw [hq, hum]
    next => rfl

theorem askRelease_releases {s : State} {ch : Nat} (hst : (s.message (s.channel ch).index).state = .recording) :
    Releases s (askRelease ch s) ch := by
  unfold askRelease startChannelRelease
  dsimp only
  split
  · split
    · exact releaseMessage_releases (c := { s.channel ch with release := .queued }) rfl ⟨rfl, rfl⟩ hst (.inr rfl)
    · exact releaseMessage_releases (c := { s.channel ch with release := .queued }) rfl ⟨rfl, rfl⟩ hst (.inl rfl)
  · generalize hw : joinReleaseLine _ _ _ = w
    have hwc (k : Nat) : w.channel k = if k = ch then { s.channel ch with release := .asked } else s.channel k := by
      rw [← hw]
      exact channel_setChannel ..
    have hwm (j : Nat) : w.message j = s.message j := by rw [← hw]; rfl
    refine ⟨⟨w.voice, s.store.messages, s.store.mailboxes, s.store.marks, s.store.freeRecords, s.store.releaseQueue,
      w.store.releaseLine, s.store.walk, s.ring, s.out, by rw [← hw]; rfl⟩, by rw [← hw]; rfl, fun j _ => hwm j,
      fun q _ => by rw [← hw]; rfl, fun k hk => by rw [hwc, if_neg hk], ?_, ⟨_, _, hwm _⟩, fun q => by rw [← hw]; rfl,
      .of_same (by rw [← hw]; rfl)⟩
    rw [hwc, if_pos rfl]
    exact ⟨rfl, .inl rfl⟩

section
variable {s : State} {ch : Nat} (hst : (s.message (s.channel ch).index).state = .recording)
  (hr : (s.message (s.channel ch).index).readers = 0)
include hst hr

/-- A message without a block is FREE at once, and the CLOSING channel with it (R37, R29). -/
theorem askRelease_frees (hb : (s.message (s.channel ch).index).blocks = 0) (hclosing : (s.channel ch).state = .closing) :
    (askRelease ch s).channel ch =
      { s.channel ch with release := .finished, state := .free, order := none, closing := .none } ∧
    (askRelease ch s).message (s.channel ch).index =
      { s.message (s.channel ch).index with state := .free, next := 0xFFFF } ∧
    ((s.message (s.channel ch).index).generation < 65535 →
      (s.channel ch).index ∈ (askRelease ch s).store.freeRecords) ∧
    (askRelease ch s).mailbox (s.message (s.channel ch).index).room =
      { s.mailbox (s.message (s.channel ch).index).room with
        places := (s.mailbox (s.message (s.channel ch).index).room).places - 1 } ∧
    Adds (fun x => x.ofRelease (s.channel ch).index ∨ ∃ slot, (s.channel ch).order = some slot ∧ x = .completion slot) s
      (askRelease ch s) ∧
    ∀ slot e, (s.channel ch).order = some slot → s.entryOf slot = some e →
      Raised (completionWrite s slot e.copy (s.channel ch).verdict false []) (askRelease ch s) := by
  have hneed : (s.message (s.channel ch).index).placesNeeded = 0 := by
    unfold Message.placesNeeded
    rw [hb]
    exact if_neg fun h => absurd h.2 (Nat.lt_irrefl 0)
  have hask : askRelease ch s = channelReleased ch (releaseMessage (s.channel ch).index (.channel ch)
      (s.setChannel ch { s.channel ch with release := .queued })) := by
    unfold askRelease startChannelRelease
    dsimp only
    rw [hneed, show s.grantsAtOnce 0 = true from rfl, if_pos rfl, if_pos rfl]
  rw [hask]
  generalize hu : s.setChannel ch { s.channel ch with release := .queued } = u
  have hum (j : Nat) : u.message j = s.message j := by rw [← hu]; rfl
  have hub (q : Nat) : u.mailbox q = s.mailbox q := by rw [← hu]; rfl
  have huc (k : Nat) : u.channel k = if k = ch then { s.channel ch with release := .queued } else s.channel k := by
    rw [← hu, channel_setChannel]
  have hrel := releaseRecorded (s := u) (i := (s.channel ch).index) (.channel ch) (by rw [hum]; exact hst)
  generalize releaseMessage (s.channel ch).index (.channel ch) u = x at hrel ⊢
  obtain ⟨⟨ms, bs, mk, fr, rq, wk, o, hx⟩, -, hadds, hmessage, hmailbox, hfreed, -, -⟩ := hrel
  simp only [hum, hub] at hmessage hmailbox hfreed
  have hxc (k : Nat) : x.channel k = u.channel k := by rw [hx]; rfl
  have hxch : x.channel ch = { s.channel ch with release := .queued } := by rw [hxc, huc, if_pos rfl]
  have hxe (slot : Nat) : x.entryOf slot = s.entryOf slot := by rw [hx, ← hu]; rfl
  have hxp : x.profile = s.profile := by rw [hx, ← hu]; rfl
  have hf := channelReleased_frees (s := x) (ch := ch) (by rw [hxch]; exact hclosing)
  generalize channelReleased ch x = w at hf ⊢
  obtain ⟨⟨vo, ri, o', hw⟩, -, hadds', hchannels, hdone⟩ := hf
  rw [hxch] at hadds' hchannels hdone
  have hwm (j : Nat) : w.message j = x.message j := by rw [hw]; rfl
  have hwb (q : Nat) : w.mailbox q = x.mailbox q := by rw [hw]; rfl
  refine ⟨?_, ?_, fun hg => ?_, ?_, ?_, fun slot e horder he => ?_⟩
  · rw [hchannels, if_pos rfl]
  · rw [hwm, hmessage, if_pos rfl, if_pos ⟨hr, hb⟩]
  · rw [show w.store = x.store by rw [hw]]
    exact hfreed hr hb hg
  · rw [hwb, hmailbox, if_pos rfl]
  · have hsu : Adds (Source.ofRelease (s.channel ch).index) s x := by
      obtain ⟨rs, hrs, hall⟩ := hadds
      exact ⟨rs, by rw [hrs, ← hu]; rfl, hall⟩
    exact (hsu.mono fun _ h => .inl h).trans (hadds'.mono fun _ h => .inr h)
  · rw [← completionWrite_congr hxp]
    exact hdone slot e horder ((hxe slot).trans he)

/-- A message with blocks, its place granted: its chain joins the release queue (R26, R37). -/
theorem askRelease_queues (hb : 0 < (s.message (s.channel ch).index).blocks) (hg : s.grantsAtOnce 1 = true) :
    (askRelease ch s).ring = s.ring ∧
    (askRelease ch s).channel ch = { s.channel ch with release := .queued } ∧
    (askRelease ch s).message (s.channel ch).index = { s.message (s.channel ch).index with state := .deleting } ∧
    (askRelease ch s).mailbox (s.message (s.channel ch).index).room =
      { s.mailbox (s.message (s.channel ch).index).room with
        places := (s.mailbox (s.message (s.channel ch).index).room).places - 1 } ∧
    (askRelease ch s).store.releaseQueue = s.store.releaseQueue ++ [⟨(s.message (s.channel ch).index).first,
      (s.message (s.channel ch).index).blocks, (s.channel ch).index, .channel ch⟩] ∧
    Adds (Source.ofRelease (s.channel ch).index) s (askRelease ch s) := by
  have hneed : (s.message (s.channel ch).index).placesNeeded = 1 := if_pos ⟨hr, hb⟩
  have hask : askRelease ch s = releaseMessage (s.channel ch).index (.channel ch)
      (s.setChannel ch { s.channel ch with release := .queued }) := by
    unfold askRelease
    dsimp only
    rw [hneed, if_pos hg]
    exact startChannelRelease_chain (by rw [hneed]; decide)
  rw [hask]
  generalize hu : s.setChannel ch { s.channel ch with release := .queued } = u
  have hum (j : Nat) : u.message j = s.message j := by rw [← hu]; rfl
  have hub (q : Nat) : u.mailbox q = s.mailbox q := by rw [← hu]; rfl
  have huc (k : Nat) : u.channel k = if k = ch then { s.channel ch with release := .queued } else s.channel k := by
    rw [← hu, channel_setChannel]
  have huq : u.store.releaseQueue = s.store.releaseQueue := by rw [← hu]; rfl
  have hrel := releaseRecorded (s := u) (i := (s.channel ch).index) (.channel ch) (by rw [hum]; exact hst)
  generalize releaseMessage (s.channel ch).index (.channel ch) u = w at hrel ⊢
  obtain ⟨⟨ms, bs, mk, fr, rq, wk, o, hw⟩, -, hadds, hmessage, hmailbox, -, -, hqueue⟩ := hrel
  simp only [hum, hub] at hmessage hmailbox hqueue
  have hwc (k : Nat) : w.channel k = u.channel k := by rw [hw]; rfl
  refine ⟨?_, ?_, ?_, ?_, ?_, ?_⟩
  · rw [hw, ← hu]
    rfl
  · rw [hwc, huc, if_pos rfl]
  · rw [hmessage, if_pos rfl, if_neg fun h => absurd h.2 (Nat.ne_of_gt hb)]
  · rw [hmailbox, if_pos rfl]
  · rw [hqueue, if_pos ⟨hr, hb⟩, huq]
  · obtain ⟨rs, hrs, hall⟩ := hadds
    exact ⟨rs, by rw [hrs, ← hu]; rfl, hall⟩

omit hst in
/-- A message with blocks, its place not granted: its request joins the release line (R26). -/
theorem askRelease_asks (hb : 0 < (s.message (s.channel ch).index).blocks) (hg : s.grantsAtOnce 1 = false) :
    askRelease ch s = joinReleaseLine (.channel ch) 1 (s.setChannel ch { s.channel ch with release := .asked }) := by
  have hneed : (s.message (s.channel ch).index).placesNeeded = 1 := if_pos ⟨hr, hb⟩
  unfold askRelease
  dsimp only
  rw [hneed, hg]
  exact if_neg (by decide)

end

/-! ### The end of a recording's writes (R57, R59) -/

section
variable {s : State} {ch : Nat} (hd : (s.channel ch).dir = .record) (hw : (s.channel ch).writes = 0)
  (hst : (s.channel ch).state = .closing)
include hd hw hst

theorem afterWrites_commits (hk : (s.channel ch).closing = .close) (h : closeRefusal ch s = none) :
    afterWrites ch s = commitRecording ch s := by
  unfold afterWrites
  dsimp only
  rw [if_pos ⟨hd, hw⟩, if_pos hst, hk]
  dsimp only
  rw [h]

theorem afterWrites_refuses {st : Status} (hk : (s.channel ch).closing = .close) (h : closeRefusal ch s = some st) :
    afterWrites ch s = closeByRelease ch st s := by
  unfold afterWrites
  dsimp only
  rw [if_pos ⟨hd, hw⟩, if_pos hst, hk]
  dsimp only
  rw [h]

theorem afterWrites_abandons (hk : (s.channel ch).closing = .abandon) : afterWrites ch s = closeByRelease ch .done s := by
  unfold afterWrites
  dsimp only
  rw [if_pos ⟨hd, hw⟩, if_pos hst, hk]

end

/-- `v` is `s` with channel `ch` as `d`, on the way to the end of its recording: store, lamps, accounts and shadows are
those of `s`. -/
structure Ending (s v : State) (ch : Nat) (d : Channel) : Prop where
  channels : ∀ k, v.channel k = if k = ch then d else s.channel k
  store    : v.store = s.store
  lamp     : v.lamp = s.lamp
  rating   : v.rating = s.rating
  control  : v.control = s.control
  host     : v.host = s.host
  lines    : v.arbiter.lines = s.arbiter.lines

section
variable {s v : State} {ch : Nat} {d : Channel} (h : Ending s v ch d)
include h

theorem Ending.channel : v.channel ch = d := (h.channels ch).trans (if_pos rfl)
theorem Ending.profile : v.profile = s.profile := by unfold State.profile; rw [h.control]
theorem Ending.message (i : Nat) : v.message i = s.message i := message_congr (by rw [h.store]) i
theorem Ending.mailbox (q : Nat) : v.mailbox q = s.mailbox q := mailbox_congr (by rw [h.store]) q
theorem Ending.roomShadow (q : Nat) : v.roomShadow q = s.roomShadow q := by unfold State.roomShadow; rw [h.host]
theorem Ending.lampOf (q : Nat) : v.lampOf q = s.lampOf q := by unfold State.lampOf; rw [h.lamp]
theorem Ending.grantsAtOnce (n : Nat) : v.grantsAtOnce n = s.grantsAtOnce n := by
  unfold State.grantsAtOnce State.freePlaces
  rw [h.store]

/-- The decision of R57, in the terms of the state before the step. -/
theorem Ending.refusal : closeRefusal ch v =
    if d.stopReason = .checkedOut then some .roomVacant
    else if d.checkedOut then some .roomVacant
    else if (s.message d.index).length = 0 ∨ (s.message d.index).length < 800 * s.profile.minRecord then some .tooShort
    else if !s.occupied (s.message d.index).room then some .roomVacant
    else none := by
  have hmin : v.minSamples = 800 * s.profile.minRecord := by
    unfold State.minSamples
    rw [h.profile]
    rfl
  have hocc (r : Nat) : v.occupied r = s.occupied r := by
    unfold State.occupied
    rw [h.roomShadow]
  unfold closeRefusal
  dsimp only
  rw [h.channel, h.message, hmin, hocc]

theorem Ending.keeps (hk : s.closeKeeps d) : closeRefusal ch v = none := by
  obtain ⟨hreason, hmark, hpos, hmin, hocc⟩ := hk
  rw [h.refusal, if_neg hreason, hmark, if_neg (by decide), if_neg (by omega), hocc]
  rfl

theorem Ending.meets {st : Status} (hm : s.closeMeets d st) : closeRefusal ch v = some st := by
  rw [h.refusal]
  obtain ⟨hout, rfl⟩ | ⟨hreason, hmark, hshort, rfl⟩ | ⟨hreason, hmark, hpos, hmin, hocc, rfl⟩ := hm
  · by_cases hreason : d.stopReason = .checkedOut
    · rw [if_pos hreason]
    · rw [if_neg hreason, if_pos (hout.resolve_left hreason)]
  · rw [if_neg hreason, hmark, if_neg (by decide), if_pos hshort]
  · rw [if_neg hreason, hmark, if_neg (by decide), if_neg (by omega), hocc]
    rfl

end

/-! ### Case 5 of R57 -/

/-- The engines, the outbox and the lines are in `w'` as in `w`. -/
structure SameWork (w w' : State) : Prop where
  store   : w'.store = w.store
  voice   : w'.voice = w.voice
  lamp    : w'.lamp = w.lamp
  rating  : w'.rating = w.rating
  host    : w'.host = w.host
  lines   : w'.arbiter.lines = w.arbiter.lines
  out     : w'.out = w.out
  entries : ∀ slot, w'.entryOf slot = w.entryOf slot

theorem SameWork.refl (w : State) : SameWork w w :=
  ⟨rfl, rfl, rfl, rfl, rfl, rfl, rfl, fun _ => rfl⟩

theorem SameWork.nextSlot (w : State) : SameWork w (nextSlot w) :=
  ⟨rfl, rfl, rfl, rfl, rfl, rfl, rfl, fun _ => rfl⟩

/-- A RECORD CLOSE that is DONE: the message moves to NEW, and the channel is FREE. -/
theorem commit_kept {s v w t : State} {ch : Nat} {d : Channel} (h : Ending s v ch d)
    (hs : SameWork (commitRecording ch v) w) (ht : EndsAs w t) :
    CloseKept s t ch d ∧ ∀ slot e, d.order = some slot → v.entryOf slot = some e →
      Raised (completionWrite s slot e.copy .done false (s.keptResults d)) w := by
  obtain ⟨hfollows, hcore, hothers, -, hrooms⟩ := moveMessage_follows (s := v) (i := d.index) rfl .new
  have hresults : recordCloseResults d ((moveMessage d.index .new v).message d.index) = s.keptResults d := by
    have hf {α : Type} (f : Message → α) (hf : ∀ x : Message, f x = f x.core) (hc : ∀ x y, f { x with state := y } = f x) :
        f ((moveMessage d.index .new v).message d.index) = f (s.message d.index) := by
      rw [hf, hcore, hc, ← hf, h.message]
    unfold recordCloseResults State.keptResults
    rw [hf Message.length (fun _ => rfl) (fun _ _ => rfl), hf Message.blocks (fun _ => rfl) (fun _ _ => rfl),
      hf Message.gapped (fun _ => rfl) (fun _ _ => rfl), hf Message.truncated (fun _ => rfl) (fun _ _ => rfl)]
  have hcommit : commitRecording ch v = freeChannel ch .done (s.keptResults d) (moveMessage d.index .new v) := by
    unfold commitRecording
    dsimp only
    rw [h.channel, hresults]
  have hvoice := moveMessage_voice d.index .new v
  have hring := moveMessage_ring d.index .new v
  have hbase := moveMessage_base d.index .new v
  have hrating := moveMessage_rating d.index .new v
  rw [h.message] at hfollows hrooms
  rw [hcommit] at hs
  generalize moveMessage d.index .new v = x at hfollows hcore hothers hrooms hs hvoice hring hbase hrating
  have hf := freeChannel_frees ch .done (s.keptResults d) x
  generalize freeChannel ch .done (s.keptResults d) x = y at hs hf
  have hxc (k : Nat) : x.channel k = v.channel k := channel_congr hvoice k
  obtain ⟨⟨vo, ri, o, hy⟩, -, -, hchannels, hdone⟩ := hf
  rw [hxc, h.channel] at hchannels hdone
  have hwc (k : Nat) : w.channel k = if k = ch then { d with state := .free, order := none, closing := .none } else s.channel k := by
    rw [channel_congr hs.voice k, hchannels]
    by_cases hk : k = ch
    · rw [if_pos hk, if_pos hk]
    · rw [if_neg hk, if_neg hk, hxc, h.channels, if_neg hk]
  have hwstore : w.store = x.store := hs.store.trans (by rw [hy])
  have hwlamp : w.lamp = x.lamp := hs.lamp.trans (by rw [hy])
  have hwhost : w.host = x.host := hs.host.trans (by rw [hy])
  have htstore : t.store = x.store := ht.store.trans hwstore
  have htlamp : t.lamp = x.lamp := ht.lamp.trans hwlamp
  have hmess (j : Nat) : t.message j = x.message j := message_congr (by rw [htstore]) j
  have hmail (q : Nat) : t.mailbox q = x.mailbox q := mailbox_congr (by rw [htstore]) q
  have hlampOf (q : Nat) : t.lampOf q = x.lampOf q := by unfold State.lampOf; rw [htlamp]
  have hshadow (q : Nat) : t.roomShadow q = x.roomShadow q := by
    unfold State.roomShadow
    rw [ht.rooms, hwhost]
  refine ⟨⟨?_, ?_, ?_, fun i hi => ?_, fun q hq => ?_, fun k hk hstill => ?_, ?_⟩, fun slot e horder he => ?_⟩
  · rw [ht.channels ch (stillChannel_of_state ((hwc ch).trans (if_pos (rfl))) nofun nofun), hwc, if_pos (rfl)]
  · rw [hmess]
    exact congrArg Message.state hcore
  · refine (hfollows.of_right htstore htlamp (hshadow _)).of_left h.store.symm h.lamp.symm |> fun g => ?_
    rw [h.mailbox] at g
    exact g
  · rw [hmess, Message.core_state (hothers i hi), h.message]
  · rw [hmail, hlampOf, (hrooms q hq).1, (hrooms q hq).2, h.mailbox, h.lampOf]
    exact ⟨rfl, rfl⟩
  · have hk' : w.channel k = s.channel k := (hwc k).trans (if_neg hk)
    rw [ht.channels k (hstill.of_eq hk'), hk']
  · rw [ht.rating, hs.rating, hy]
    exact hrating.trans h.rating
  · have hxe : x.entryOf slot = some e := by
      unfold State.entryOf
      rw [hring]
      exact he
    have hr := hdone slot e horder hxe
    rw [completionWrite_congr ((profile_of_base hbase).trans h.profile)] at hr
    unfold Raised
    rw [hs.out]
    exact hr

/-! ### Cases 1 to 4 of R57, and the end of an abandon -/

theorem Frees.releases {s w : State} {ch : Nat} {st : Status} {res : List Byte} {d : Channel} (h : Frees s w ch st res d)
    (hd : d.progress = (s.channel ch).progress ∧ d.state = .free) : Releases s w ch := by
  obtain ⟨⟨vo, ri, o, rfl⟩, htold, hadds, hchannels, -⟩ := h
  have hch := (hchannels ch).trans (if_pos rfl)
  exact ⟨⟨vo, s.store.messages, s.store.mailboxes, s.store.marks, s.store.freeRecords, s.store.releaseQueue,
    s.store.releaseLine, s.store.walk, ri, o, rfl⟩, htold, fun _ _ => rfl, fun _ _ => rfl,
    fun k hk => (hchannels k).trans (if_neg hk), by rw [hch]; exact ⟨hd.1, .inr hd.2⟩, ⟨_, _, rfl⟩, fun _ => rfl,
    hadds.mono fun x hx => hx.elim fun slot h => .inr ⟨slot, h.2⟩⟩

theorem Releases.refl (s : State) (ch : Nat) : Releases s s ch :=
  ⟨⟨_, _, _, _, _, _, _, _, _, _, rfl⟩, rfl, fun _ _ => rfl, fun _ _ => rfl, fun _ _ => rfl, ⟨rfl, .inl rfl⟩, ⟨_, _, rfl⟩,
    fun _ => rfl, .of_same rfl⟩

/-- The channel with the status its order will be given. -/
def State.judged (s : State) (ch : Nat) (st : Status) : State :=
  s.setChannel ch { s.channel ch with verdict := st }

theorem Ending.judged {s v : State} {ch : Nat} {d : Channel} (h : Ending s v ch d) (st : Status) :
    Ending s (v.judged ch st) ch { d with verdict := st } := by
  refine ⟨fun k => ?_, h.store, h.lamp, h.rating, h.control, h.host, h.lines⟩
  unfold State.judged
  rw [channel_setChannel, h.channel]
  by_cases hk : k = ch
  · rw [if_pos hk, if_pos hk]
  · rw [if_neg hk, if_neg hk, h.channels, if_neg hk]

section
variable {s : State} {ch : Nat} (st : Status)

theorem closeByRelease_asks (h : (s.channel ch).release = .none) :
    closeByRelease ch st s = askRelease ch (s.judged ch st) := by
  unfold closeByRelease
  dsimp only
  split
  next => rfl
  next hr => rw [h] at hr; cases hr
  next hn _ => exact absurd h hn

theorem closeByRelease_answers (h : (s.channel ch).release = .finished) :
    closeByRelease ch st s = freeChannel ch st [] (s.judged ch st) := by
  unfold closeByRelease
  dsimp only
  split
  next hr => rw [h] at hr; cases hr
  next => rfl
  next _ hn => exact absurd h hn

theorem closeByRelease_waits (h : (s.channel ch).release = .asked ∨ (s.channel ch).release = .queued) :
    closeByRelease ch st s = s.judged ch st := by
  unfold closeByRelease
  dsimp only
  split
  next hr => rw [hr] at h; exact absurd h (by decide)
  next hr => rw [hr] at h; exact absurd h (by decide)
  next => rfl

end

/-- What every case of a RECORD CLOSE that is refused, or of an abandon, leaves alone. -/
theorem closeByRelease_releases {s v : State} {ch : Nat} {d : Channel} (h : Ending s v ch d) (st : Status)
    (hrec : d.release = .none → (s.message d.index).state = .recording) :
    Releases (v.judged ch st) (closeByRelease ch st v) ch := by
  have hj := h.judged st
  cases hr : d.release with
  | none =>
    rw [closeByRelease_asks st (by rw [h.channel]; exact hr)]
    refine askRelease_releases ?_
    rw [hj.channel, hj.message]
    exact hrec hr
  | asked =>
    rw [closeByRelease_waits st (by rw [h.channel]; exact .inl hr)]
    exact .refl ..
  | queued =>
    rw [closeByRelease_waits st (by rw [h.channel]; exact .inr hr)]
    exact .refl ..
  | finished =>
    rw [closeByRelease_answers st (by rw [h.channel]; exact hr)]
    exact (freeChannel_frees ..).releases ⟨rfl, rfl⟩

/-- A RECORD CLOSE that is refused with `st`, and an abandon that is DONE: the order waits for the release. -/
theorem close_refused {s v w t : State} {ch slot : Nat} {d : Channel} {st : Status} {e : InFlight} (h : Ending s v ch d)
    (hst : d.state = .closing) (horder : d.order = some slot) (he : v.entryOf slot = some e) (hstage : e.stage = .executing)
    (hmute : Mute slot v) (hrec : d.release = .none → (s.message d.index).state = .recording)
    (hs : SameWork (closeByRelease ch st v) w) (ht : t = finish w) : CloseRefused s t ch slot e.copy d st := by
  have hj := h.judged st
  have hrel := closeByRelease_releases h st hrec
  have hjm : Mute slot (v.judged ch st) := hmute.of_out rfl
  have hje : (v.judged ch st).entryOf slot = some e := he
  have hasks : d.release = .none → closeByRelease ch st v = askRelease ch (v.judged ch st) :=
    fun hr => closeByRelease_asks st (by rw [h.channel]; exact hr)
  have hwaits : d.release = .asked ∨ d.release = .queued → closeByRelease ch st v = v.judged ch st :=
    fun hr => closeByRelease_waits st (by rw [h.channel]; exact hr)
  have hfinished : d.release = .finished → closeByRelease ch st v = freeChannel ch st [] (v.judged ch st) :=
    fun hr => closeByRelease_answers st (by rw [h.channel]; exact hr)
  generalize v.judged ch st = j at hj hrel hjm hje hasks hwaits hfinished
  generalize closeByRelease ch st v = y at hs hrel hasks hwaits hfinished
  have hends : EndsAs w t := ht ▸ finish_endsAs w
  have hlines : w.arbiter.lines = s.arbiter.lines := by
    obtain ⟨vo, ms, bs, mk, fr, rq, rl, wk, ri, o, hy⟩ := hrel.rest
    rw [hs.lines, hy]
    exact hj.lines
  have hchannel {c : Channel} (hc : y.channel ch = c) (hp : c.state ≠ .playing) (hn : c.state ≠ .ended) : t.channel ch = c := by
    have hwc : w.channel ch = c := (channel_congr hs.voice ch).trans hc
    rw [hends.channels ch (stillChannel_of_state hwc hp hn), hwc]
  have hstore : t.store = y.store := hends.store.trans hs.store
  have hmess (i : Nat) : t.message i = y.message i := message_congr (by rw [hstore]) i
  have hmail (q : Nat) : t.mailbox q = y.mailbox q := mailbox_congr (by rw [hstore]) q
  have hun (hadds : Adds (Source.ofRelease d.index) j y) (hring : y.ring = j.ring) : Unanswered s t slot := by
    refine unanswered_of (e := e) ht ?_ hlines ?_ hstage
    · have hy : Mute slot y := hadds.mute (fun x hx => by rcases hx with rfl | rfl <;> exact Source.noConfusion) hjm
      exact hy.of_out (by rw [hs.out])
    · rw [hs.entries, ← hje]
      unfold State.entryOf
      rw [hring]
  have hdone (hr : Raised (completionWrite j slot e.copy st false []) y) :
      lineGrew s t .directory [completionWrite s slot e.copy st false []] := by
    refine lineGrew_of_ends hends hlines fun r hm => ?_
    rw [List.mem_singleton.mp hm]
    rw [completionWrite_congr hj.profile] at hr
    exact ⟨by unfold Raised; rw [hs.out]; exact hr, rfl⟩
  refine ⟨fun hr hread => ?_, fun hr => ?_, fun hr => ?_, fun i hi => ?_, fun q hq => ?_, fun k hk hstill => ?_, ?_, ?_⟩
  · have hy := hasks hr
    have hi : (j.channel ch).index = d.index := by rw [hj.channel]
    have hm : j.message (j.channel ch).index = s.message d.index := by rw [hi, hj.message]
    have hrec' : (j.message (j.channel ch).index).state = .recording := by rw [hm]; exact hrec hr
    have hread' : (j.message (j.channel ch).index).readers = 0 := by rw [hm]; exact hread
    refine ⟨fun hb => ?_, fun hb hg => ?_, fun hb hg => ?_⟩
    · obtain ⟨hc, hmi, hfreed, hbox, -, hraised⟩ := askRelease_frees hrec' hread' (by rw [hm]; exact hb)
        (by rw [hj.channel]; exact hst)
      rw [← hy] at hc hmi hfreed hbox hraised
      rw [hj.channel] at hc hmi hfreed hbox hraised
      rw [hj.message] at hmi hfreed hbox
      rw [hj.mailbox] at hbox
      refine ⟨hchannel hc nofun nofun, (hmess _).trans hmi, fun hgen => ?_, ?_, hdone (hraised slot e horder hje)⟩
      · rw [hstore]
        exact hfreed hgen
      · rw [hmail, hbox]
    · obtain ⟨hring, hc, hmi, hbox, hqueue, hadds⟩ := askRelease_queues hrec' hread' (by rw [hm]; exact hb)
        (by rw [hj.grantsAtOnce]; exact hg)
      rw [← hy] at hring hc hmi hbox hqueue hadds
      rw [hj.channel] at hc hmi hbox hqueue hadds
      rw [hj.message] at hmi hbox hqueue
      rw [hj.mailbox] at hbox
      rw [hj.store] at hqueue
      refine ⟨hchannel hc (by rw [hst]; exact nofun) (by rw [hst]; exact nofun), (hmess _).trans hmi, ?_, ?_,
        hun hadds hring⟩
      · rw [hmail, hbox]
      · rw [hstore, hqueue]
    · have hask := askRelease_asks hread' (by rw [hm]; exact hb) (by rw [hj.grantsAtOnce]; exact hg)
      rw [← hy, hj.channel] at hask
      have hc : y.channel ch = { d with verdict := st, release := .asked } := by
        rw [hask]
        exact (channel_setChannel ..).trans (if_pos rfl)
      refine ⟨hchannel hc (by rw [hst]; exact nofun) (by rw [hst]; exact nofun), ?_, hun ?_ (by rw [hask]; rfl)⟩
      · rw [hstore, hask, ← hj.store]
        exact rfl
      · rw [hask]
        exact .of_same rfl
  · have hy := hwaits hr
    refine ⟨hchannel (by rw [hy, hj.channel]) (by rw [hst]; exact nofun) (by rw [hst]; exact nofun), ?_,
      hun (by rw [hy]; exact .of_same rfl) (by rw [hy])⟩
    rw [hstore, hy, hj.store]
  · have hy := hfinished hr
    have hf := freeChannel_frees ch st [] j
    rw [← hy, hj.channel] at hf
    obtain ⟨⟨vo, ri, o, hyr⟩, -, -, hchannels, hd⟩ := hf
    rw [hj.channel] at hd
    refine ⟨hchannel ((hchannels ch).trans (if_pos rfl)) nofun nofun, ?_, hdone (hd slot e horder hje)⟩
    rw [hstore, ← hj.store, hyr]
  · rw [hmess, hrel.messages i (by rw [hj.channel]; exact hi), hj.message]
  · rw [hmail, hrel.rooms q (by rw [hj.channel, hj.message]; exact hq), hj.mailbox]
  · have hk' : w.channel k = s.channel k := by
      rw [channel_congr hs.voice k, hrel.channels k hk, hj.channels, if_neg hk]
    rw [hends.channels k (hstill.of_eq hk'), hk']
  · obtain ⟨vo, ms, bs, mk, fr, rq, rl, wk, ri, o, hyr⟩ := hrel.rest
    rw [hends.rating, hs.rating, hyr]
    exact hj.rating
  · obtain ⟨vo, ms, bs, mk, fr, rq, rl, wk, ri, o, hyr⟩ := hrel.rest
    rw [hends.lamp, hs.lamp, hyr]
    exact hj.lamp

/-! ### The finished write of a block, and the last write of a recording (R55, R57) -/

theorem afterWrites_idle {ch : Nat} {s : State} (hc : (s.channel ch).state ≠ .closing) (hs : (s.channel ch).state ≠ .stopped) :
    afterWrites ch s = s := by
  unfold afterWrites
  dsimp only
  rw [if_neg hc, if_neg (c := (s.channel ch).state = .stopped ∧ _) fun h => hs h.1]
  exact ite_self _

theorem exec_blockWriteFinish {s : State} {ret : Returned} {ch k : Nat} {second : Bool}
    (hr : s.returnOf Source.isBlockWrite = some ret) (hsrc : ret.source = .blockWrite ch second k) :
    exec .blockWriteFinish s = .next (taken (fun t => blockWritten ch second (takeReturn Source.isBlockWrite t)) s) := by
  have hf : (fun t => blockFinished ret (takeReturn Source.isBlockWrite t)) =
      fun t => blockWritten ch second (takeReturn Source.isBlockWrite t) := by
    funext t
    unfold blockFinished
    rw [hsrc]
  rw [← hf]
  exact stepReturn_of blockFinished s hr

theorem exec_headerPatchFinish {s : State} {ret : Returned} {ch : Nat}
    (hr : s.returnOf Source.isPatch = some ret) (hsrc : ret.source = .headerPatch ch) :
    exec .headerPatchFinish s = .next (taken (fun t => patchWritten ch (takeReturn Source.isPatch t)) s) := by
  have hf : (fun t => patchFinished ret (takeReturn Source.isPatch t)) =
      fun t => patchWritten ch (takeReturn Source.isPatch t) := by
    funext t
    unfold patchFinished
    rw [hsrc]
  rw [← hf]
  exact stepReturn_of patchFinished s hr

/-- A recording goes on after the write of a block (R55). -/
theorem blockWritten_recording {s : State} {ch : Nat} {second : Bool} (hst : (s.channel ch).state = .recording) :
    ∃ ms vo o, blockWritten ch second s = { s with voice := vo, out := o, store := { s.store with messages := ms } } ∧
      (∀ k, k ≠ ch → (blockWritten ch second s).channel k = s.channel k) ∧
      ((s.channel ch).waitingBlock = none → (blockWritten ch second s).channel ch =
        { (s.channel ch).setBuffer second {} with writes := (s.channel ch).writes - 1 }) ∧
      ∀ b, (s.channel ch).waitingBlock = some b →
        (blockWritten ch second s).channel ch =
          Channel.fillingIn { (s.channel ch).setBuffer second {} with writes := (s.channel ch).writes - 1 } second b ∧
        ((s.channel ch).pendingGap = true → ((blockWritten ch second s).message (s.channel ch).index).gapped = true) := by
  have hset : ∀ c : Channel, (c.setBuffer second {}).state = c.state ∧ (c.setBuffer second {}).index = c.index ∧
      (c.setBuffer second {}).pendingGap = c.pendingGap := fun c => ⟨by simp, by simp, by simp⟩
  obtain ⟨hstate, hindex, hgap⟩ := hset (s.channel ch)
  unfold blockWritten
  dsimp only
  generalize hu : s.setChannel ch { (s.channel ch).setBuffer second {} with writes := (s.channel ch).writes - 1 } = u
  have huc (k : Nat) : u.channel k =
      if k = ch then { (s.channel ch).setBuffer second {} with writes := (s.channel ch).writes - 1 } else s.channel k := by
    rw [← hu, channel_setChannel]
  cases hwait : (s.channel ch).waitingBlock with
  | none =>
    dsimp only
    have hus : (u.channel ch).state = .recording := by rw [huc, if_pos rfl]; exact hstate.trans hst
    rw [afterWrites_idle (by rw [hus]; exact nofun) (by rw [hus]; exact nofun)]
    refine ⟨s.store.messages, u.voice, s.out, by rw [← hu]; rfl, fun k hk => by rw [huc, if_neg hk],
      fun _ => by rw [huc, if_pos rfl], nofun⟩
  | some b =>
    dsimp only
    obtain ⟨ms, o, hw, -, -, hmess⟩ := startFilling_eq ch second b u
    generalize startFilling ch second b u = w at hw hmess ⊢
    rw [huc, if_pos rfl] at hw hmess
    have hwc (k : Nat) : w.channel k = if k = ch then
        Channel.fillingIn { (s.channel ch).setBuffer second {} with writes := (s.channel ch).writes - 1 } second b
        else s.channel k := by
      rw [hw]
      refine (channel_setChannel ..).trans ?_
      by_cases hk : k = ch
      · rw [if_pos hk, if_pos hk]
      · rw [if_neg hk, if_neg hk, huc, if_neg hk]
    have hws : (w.channel ch).state = .recording := by
      rw [hwc, if_pos rfl]
      exact (setBuffer_state ..).trans (hstate.trans hst)
    rw [afterWrites_idle (by rw [hws]; exact nofun) (by rw [hws]; exact nofun)]
    refine ⟨ms, w.voice, o, by rw [hw, ← hu]; rfl, fun k hk => by rw [hwc, if_neg hk], nofun, fun b' hb' => ?_⟩
    obtain rfl := Option.some.inj hb'
    refine ⟨by rw [hwc, if_pos rfl], fun hg => ?_⟩
    rw [← hindex, hmess, if_pos rfl]
    exact (congrArg₂ or rfl (hgap.trans hg)).trans (Bool.or_true _)

/-- (1) of O45. -/
theorem blockWriteFinish_recording {s : State} {ch k : Nat} {second : Bool} {ret : Returned} (ho : s.out = {})
    (hr : s.returnOf Source.isBlockWrite = some ret) (hsrc : ret.source = .blockWrite ch second k)
    (hst : (s.channel ch).state = .recording) :
    let c := s.channel ch
    ∃ t, exec .blockWriteFinish s = .next t ∧ sameOuter s t ∧
      t.ring = s.ring ∧ t.rating = s.rating ∧ t.lamp = s.lamp ∧ t.store.mailboxes = s.store.mailboxes ∧
      (∀ k, k ≠ ch → s.stillChannel k → t.channel k = s.channel k) ∧
      (c.waitingBlock = none → t.channel ch = { c.setBuffer second {} with writes := c.writes - 1 }) ∧
      (∀ b, c.waitingBlock = some b →
        ((t.channel ch).buffer second).cond = .filling ∧ ((t.channel ch).buffer second).block = b ∧
        (t.channel ch).current = second ∧ (t.channel ch).startPred = c.prediction ∧
        (t.channel ch).startIndex = c.stepIndex ∧ (t.channel ch).sampleCount = 0 ∧
        (t.channel ch).blockGap = c.pendingGap ∧ (t.channel ch).pendingGap = false ∧
        (t.channel ch).waitingBlock = none ∧
        (c.pendingGap = true → (t.message c.index).gapped = true)) := by
  intro c
  obtain ⟨ms, vo, o, hw, hothers, hnone, hsome⟩ :=
    blockWritten_recording (s := takeReturn Source.isBlockWrite s) (ch := ch) (second := second) hst
  have hothers (k : Nat) (hk : k ≠ ch) :
      (blockWritten ch second (takeReturn Source.isBlockWrite s)).channel k = s.channel k := hothers k hk
  have hnone : c.waitingBlock = none → (blockWritten ch second (takeReturn Source.isBlockWrite s)).channel ch =
      { c.setBuffer second {} with writes := c.writes - 1 } := hnone
  have hsome (b : Nat) : c.waitingBlock = some b → (blockWritten ch second (takeReturn Source.isBlockWrite s)).channel ch =
      Channel.fillingIn { c.setBuffer second {} with writes := c.writes - 1 } second b ∧
      (c.pendingGap = true → ((blockWritten ch second (takeReturn Source.isBlockWrite s)).message c.index).gapped = true) :=
    hsome b
  have hends := taken_endsAs' (f := fun t => blockWritten ch second (takeReturn Source.isBlockWrite t)) ho rfl
  refine ⟨_, exec_blockWriteFinish hr hsrc, hends.sameOuter (by rw [hw]; exact ⟨rfl, rfl, rfl, rfl, rfl⟩), ?_, ?_, ?_, ?_,
    fun k hk hstill => ?_, fun h => ?_, fun b hb => ?_⟩
  · rw [hends.ring, hw]
    rfl
  · rw [hends.rating, hw]
    rfl
  · rw [hends.lamp, hw]
    rfl
  · rw [hends.store, hw]
    rfl
  · rw [hends.channels k (hstill.of_eq (hothers k hk)), hothers k hk]
  · rw [hends.channels ch (stillChannel_of_state (hnone h) ?_ ?_), hnone h]
    · rw [show Channel.state { c.setBuffer second {} with writes := c.writes - 1 } = .recording from
        (setBuffer_state ..).trans hst]
      exact nofun
    · rw [show Channel.state { c.setBuffer second {} with writes := c.writes - 1 } = .recording from
        (setBuffer_state ..).trans hst]
      exact nofun
  · obtain ⟨hc, hg⟩ := hsome b hb
    have hstate : (Channel.fillingIn { c.setBuffer second {} with writes := c.writes - 1 } second b).state = .recording :=
      (setBuffer_state ..).trans ((setBuffer_state ..).trans hst)
    rw [hends.channels ch (stillChannel_of_state hc (by rw [hstate]; exact nofun) (by rw [hstate]; exact nofun)), hc,
      hends.message]
    cases second <;> exact ⟨rfl, rfl, rfl, rfl, rfl, rfl, rfl, rfl, rfl, hg⟩

/-- The last write of a recording finishes: what hangs on it is decided with the channel as `d` (R57). -/
theorem lastWrite_ends {s : State} {cmd : Instr} {ch : Nat} {d : Channel} (ho : s.out = {}) (h : s.lastWrite cmd ch d) :
    ∃ v, Ending s v ch d ∧ v.ring = s.ring ∧ v.out = {} ∧ v.outer = s.outer ∧
      exec cmd s = .next (finish (afterWrites ch v)) := by
  have hset (p : Source → Bool) (c : Channel) : Ending s ((takeReturn p s).setChannel ch c) ch c :=
    ⟨fun k => channel_setChannel .., rfl, rfl, rfl, rfl, rfl, rfl⟩
  obtain ⟨hwrites, ⟨rfl, hd, ret, hr, hsrc⟩ | ⟨rfl, hwait, ret, second, k, hr, hsrc, hd⟩⟩ := h
  · have hpatch : patchWritten ch (takeReturn Source.isPatch s) = afterWrites ch ((takeReturn Source.isPatch s).setChannel ch d) := by
      rw [hd, show 0 = (s.channel ch).writes - 1 by rw [hwrites]]
      exact rfl
    refine ⟨_, hset Source.isPatch d, rfl, ho, rfl, ?_⟩
    rw [exec_headerPatchFinish hr hsrc, ← hpatch]
    unfold taken
    rw [beginStep_eq ho]
  · have hblock : blockWritten ch second (takeReturn Source.isBlockWrite s) =
        afterWrites ch ((takeReturn Source.isBlockWrite s).setChannel ch d) := by
      unfold blockWritten
      dsimp only
      rw [show (State.channel (takeReturn Source.isBlockWrite s) ch).waitingBlock = none from hwait, hd,
        show 0 = (s.channel ch).writes - 1 by rw [hwrites]]
      exact rfl
    refine ⟨_, hset Source.isBlockWrite d, rfl, ho, rfl, ?_⟩
    rw [exec_blockWriteFinish hr hsrc, ← hblock]
    unfold taken
    rw [beginStep_eq ho]

/-- (2) of O45. -/
theorem lastWrite_decides {s : State} {cmd : Instr} {ch : Nat} {d : Channel} (ho : s.out = {}) (h : s.lastWrite cmd ch d)
    (hdir : d.dir = .record) (hwrites : d.writes = 0) (hst : d.state = .closing) (hk : d.closing = .close) :
    (s.closeKeeps d →
      ∃ t, exec cmd s = .next t ∧ sameOuter s t ∧ CloseKept s t ch d ∧
        ∀ slot e, d.order = some slot → s.entryOf slot = some e →
          lineGrew s t .directory [completionWrite s slot e.copy .done false (s.keptResults d)]) ∧
    (∀ slot e st, d.order = some slot → s.entryOf slot = some e → e.stage = .executing →
      (d.release = .none → (s.message d.index).state = .recording) → s.closeMeets d st →
      ∃ t, exec cmd s = .next t ∧ sameOuter s t ∧ CloseRefused s t ch slot e.copy d st) := by
  obtain ⟨v, hv, hring, hout, houter, hx⟩ := lastWrite_ends ho h
  have hends := finish_endsAs (afterWrites ch v)
  have hentry (slot : Nat) : v.entryOf slot = s.entryOf slot := by unfold State.entryOf; rw [hring]
  have hc := hv.channel
  have hsame : sameOuter s (finish (afterWrites ch v)) :=
    hends.sameOuter (outer_sameOuter ((State.outer_of_base (afterWrites_base ch v)).trans houter))
  refine ⟨fun hkeeps => ⟨_, hx, hsame, ?_⟩, fun slot e st horder he hstage hrec hmeets => ⟨_, hx, hsame, ?_⟩⟩
  · have hcommit := afterWrites_commits (s := v) (ch := ch) (by rw [hc]; exact hdir) (by rw [hc]; exact hwrites)
      (by rw [hc]; exact hst) (by rw [hc]; exact hk) (hv.keeps hkeeps)
    have hlines : (afterWrites ch v).arbiter.lines = s.arbiter.lines :=
      (congrArg (fun b => b.2.2.2.1.lines) (afterWrites_base ch v) : _).trans hv.lines
    obtain ⟨hkept, hdone⟩ := commit_kept hv (by rw [hcommit]; exact .refl _) hends
    refine ⟨hkept, fun slot e horder he => lineGrew_of_ends hends hlines fun r hm => ?_⟩
    rw [List.mem_singleton.mp hm]
    exact ⟨hdone slot e horder ((hentry slot).trans he), rfl⟩
  · have hrefuse := afterWrites_refuses (s := v) (ch := ch) (by rw [hc]; exact hdir) (by rw [hc]; exact hwrites)
      (by rw [hc]; exact hst) (by rw [hc]; exact hk) (hv.meets hmeets)
    have hmute : Mute slot v := by
      unfold Mute
      rw [hout]
      exact nofun
    exact close_refused hv hst horder ((hentry slot).trans he) hstage hmute hrec (by rw [hrefuse]; exact .refl _) rfl

/-- (3) of O45. -/
theorem recordClose_stopped {s : State} {slot : Nat} {copy : List Byte} (h : s.takesNow .recordClose slot copy) :
    let ch := param copy 8 1
    let c := s.channel ch
    let d : Channel := { c with state := .closing, closing := .close, order := some slot }
    c.state = .stopped → c.writes = 0 →
    (s.closeKeeps d →
      ∃ t, exec .recordClose s = .next t ∧ sameOuter s t ∧ OrderTaken s t slot copy ∧ CloseKept s t ch d ∧
        Answered s t slot copy .done false (s.keptResults d)) ∧
    (∀ st, (c.release = .none → (s.message c.index).state = .recording) → s.closeMeets d st →
      ∃ t, exec .recordClose s = .next t ∧ sameOuter s t ∧ OrderTaken s t slot copy ∧
        CloseRefused s t ch slot copy d st) := by
  intro ch c d hst hwrites
  obtain ⟨t, e, hx, houter, htaken, ht, he, hcopy, hstage⟩ := order_acts h (by decide)
  have hdir : c.dir = .record := by
    have href : recordEndRefusal copy s = none := h.2.2.2.1
    unfold recordEndRefusal at href
    dsimp only at href
    split at href
    · cases href
    · split at href
      next hd => exact hd.1
      · cases href
  generalize hv : (s.acting slot copy).setChannel ch d = v
  have hend : Ending s v ch d := by
    rw [← hv]
    exact ⟨fun k => channel_setChannel .., acting_store s slot copy, acting_lamp s slot copy, acting_rating s slot copy,
      acting_control s slot copy, acting_host s slot copy, acting_lines s slot copy⟩
  have hact : orderAct .recordClose slot copy (s.acting slot copy) = afterWrites ch v := by
    show recordCloseAct slot copy (s.acting slot copy) = _
    have hstate : ((s.acting slot copy).channel ch).state = .stopped := hst
    unfold recordCloseAct enterClosing
    dsimp only
    rw [if_neg (by rw [hstate]; exact nofun), if_neg (by rw [hstate]; exact nofun), ← hv]
    exact rfl
  have hc := hend.channel
  have hve : v.entryOf slot = some e := by rw [← he, ← hv]; rfl
  have hvm : Mute slot v := by rw [← hv]; exact (acting_mute h.1 slot copy).of_out rfl
  have hvr : Raised (executingWrite s slot copy) v := by rw [← hv]; exact acting_raised s slot copy
  rw [hact] at ht
  have hends : EndsAs (nextSlot (afterWrites ch v)) t := ht ▸ finish_endsAs _
  refine ⟨fun hkeeps => ⟨t, hx, houter, htaken, ?_⟩, fun st hrec hmeets => ⟨t, hx, houter, htaken, ?_⟩⟩
  · have hcommit := afterWrites_commits (s := v) (ch := ch) (by rw [hc]; exact hdir) (by rw [hc]; exact hwrites)
      (by rw [hc]) (by rw [hc]) (hend.keeps hkeeps)
    obtain ⟨hkept, hdone⟩ := commit_kept hend (by rw [hcommit]; exact .nextSlot _) hends
    have hlines : (nextSlot (afterWrites ch v)).arbiter.lines = s.arbiter.lines :=
      (congrArg (fun b => b.2.2.2.1.lines) (afterWrites_base ch v) : _).trans hend.lines
    refine ⟨hkept, lineGrew_of_ends hends hlines fun r hm => ?_⟩
    obtain rfl | hm := List.mem_cons.mp hm
    · exact ⟨afterWrites_raised ch v hvr, rfl⟩
    · rw [List.mem_singleton.mp hm, ← hcopy]
      exact ⟨hdone slot e rfl hve, rfl⟩
  · have hrefuse := afterWrites_refuses (s := v) (ch := ch) (by rw [hc]; exact hdir) (by rw [hc]; exact hwrites)
      (by rw [hc]) (by rw [hc]) (hend.meets hmeets)
    rw [← hcopy]
    exact close_refused hend rfl rfl hve hstage hvm hrec (by rw [hrefuse]; exact .nextSlot _) ht

/-- Settles O45. -/
theorem finishedWritesMoveTheRecording : Obligations.FinishedWritesMoveTheRecording := by
  refine ⟨fun s ch k second ret ho hr hsrc hst => blockWriteFinish_recording ho hr hsrc hst,
    fun s cmd ch d ho hlast => ?_, fun s slot copy h => recordClose_stopped h⟩
  intro c hdir hst hk
  have hd : d.dir = c.dir ∧ d.state = c.state ∧ d.closing = c.closing ∧ d.writes = 0 ∧ d.order = c.order ∧
      d.release = c.release ∧ d.index = c.index := by
    obtain ⟨-, ⟨-, rfl, -⟩ | ⟨-, -, -, second, -, -, -, rfl⟩⟩ := hlast
    · exact ⟨rfl, rfl, rfl, rfl, rfl, rfl, rfl⟩
    · cases second <;> exact ⟨rfl, rfl, rfl, rfl, rfl, rfl, rfl⟩
  obtain ⟨hd1, hd2, hd3, hd4, hd5, hd6, hd7⟩ := hd
  have hends := lastWrite_decides ho hlast (hd1.trans hdir) hd4 (hd2.trans hst) (hd3.trans hk)
  rw [hd5, hd6, hd7] at hends
  exact hends

end Sys2Proof.Machine
end

section
/-! PROOFS. The end of a release entry, and what its cause is told (2.7, 2.10). -/

namespace Sys2Proof.Machine

/-- In `v` entry `e` has left the release queue of `s`: its last block is released and its record FREE (R27, R29). -/
structure EntryFreed (s v : State) (e : ReleaseEntry) (queue : List ReleaseEntry) : Prop where
  rest     : ∃ ms bs mk sl po pu fr o, v = { takeReturn Source.isWalk s with
    out := o
    store := { s.store with
      messages := ms, mailboxes := bs, marks := mk, storeLow := sl, pocket := po, pushLine := pu, freeRecords := fr
      releaseQueue := queue, walk := none } }
  told     : v.out.notices = s.out.notices
  adds     : Adds (· = .record e.index) s v
  message  : ∀ j, v.message j = if j = e.index then
    { s.message e.index with state := .free, next := 0xFFFF } else s.message j
  freed    : (s.message e.index).generation < 65535 → e.index ∈ v.store.freeRecords
  count    : v.freeCount = s.freeCount + 1
  mailbox  : ∀ q, v.mailbox q = if q = (s.message e.index).room then
    { s.mailbox (s.message e.index).room with
      blocksUsed := (s.mailbox (s.message e.index).room).blocksUsed - 1 } else s.mailbox q

theorem entryFreed (w : Walk) (e : ReleaseEntry) (queue : List ReleaseEntry) (s : State) :
    EntryFreed s (freeRecord e.index { lastReleased w e (takeReturn Source.isWalk s) with
      store.releaseQueue := queue, store.walk := none }) e queue := by
  obtain ⟨bs, mk, sl, hz, hcount, -, hmail⟩ := lastReleased_eq w e (takeReturn Source.isWalk s)
  have hmail (q : Nat) : (lastReleased w e (takeReturn Source.isWalk s)).mailbox q =
      if q = (s.message e.index).room then { s.mailbox (s.message e.index).room with
        blocksUsed := (s.mailbox (s.message e.index).room).blocksUsed - 1 } else s.mailbox q := hmail q
  have hcount : (lastReleased w e (takeReturn Source.isWalk s)).freeCount = s.freeCount + 1 := hcount
  generalize lastReleased w e (takeReturn Source.isWalk s) = z at hz hcount hmail ⊢
  generalize hx : ({ z with store.releaseQueue := queue, store.walk := none } : State) = x
  have hxm (j : Nat) : x.message j = s.message j := by rw [← hx, hz]; rfl
  have hxb (q : Nat) : x.mailbox q = z.mailbox q := by rw [← hx]; rfl
  have hxo : x.out = s.out := by rw [← hx, hz]; rfl
  have hxn : x.freeCount = z.freeCount := by rw [← hx]; rfl
  obtain ⟨ms, fr, o, hv, hon, ⟨rs, hrs, hall⟩, hfreed⟩ := freeRecord_eq e.index x
  have hmess := freeRecord_message e.index x
  rw [hxm] at hfreed hmess
  generalize freeRecord e.index x = v at hv hrs hmess ⊢
  obtain ⟨po, pu, hxs⟩ : ∃ po pu, x = { takeReturn Source.isWalk s with
      store := { s.store with
        mailboxes := bs, marks := mk, storeLow := sl, pocket := po, pushLine := pu, releaseQueue := queue, walk := none } } :=
    ⟨_, _, by rw [← hx, hz]; rfl⟩
  refine ⟨⟨ms, bs, mk, sl, po, pu, fr, o, by rw [hv, hxs]⟩, ?_, ⟨rs, by rw [hrs, hxo], hall⟩, fun j => ?_, fun hg => ?_, ?_,
    fun q => ?_⟩
  · rw [hv]
    exact hon.trans (by rw [hxo])
  · rw [hmess, hxm]
    rfl
  · rw [hv]
    exact hfreed hg
  · rw [← hcount, ← hxn, hv]
    rfl
  · rw [← hmail, ← hxb, hv]
    rfl

/-- What the cause of a release is told changes no store (R29). -/
theorem reportRelease_rest (cause : Cause) (s : State) :
    ∃ vo ri o, reportRelease cause s = { s with voice := vo, ring := ri, out := o } ∧
      Adds (fun x => ∃ slot, x = .completion slot) s (reportRelease cause s) ∧
      ∀ k, (∀ ch, cause = .channel ch → k ≠ ch) → (reportRelease cause s).channel k = s.channel k := by
  cases cause with
  | silent => exact ⟨_, _, _, rfl, .of_same rfl, fun _ _ => rfl⟩
  | channel ch =>
    obtain ⟨vo, ri, o, hw, -, hc, -, -, hadds⟩ := channelReleased_rest ch s
    exact ⟨vo, ri, o, hw, hadds, fun k hk => hc k (hk ch rfl)⟩
  | order slot =>
    show ∃ vo ri o, orderStep slot s = _ ∧ Adds _ s (orderStep slot s) ∧ ∀ k, _ → (orderStep slot s).channel k = _
    cases he : s.entryOf slot with
    | none =>
      have h : orderStep slot s = s := by unfold orderStep; rw [he]
      rw [h]
      exact ⟨_, _, _, rfl, .of_same rfl, fun _ _ => rfl⟩
    | some n =>
      by_cases hl : n.left ≤ 1
      · rw [orderStep_last he hl]
        have hx := entryOf_updateEntry (s := s) (fun e => { e with left := 0 }) (fun _ => rfl) he
        rw [completeOrder_eq .done n.deferred n.result hx]
        refine ⟨_, _, _, rfl, ⟨_, rfl, fun r hm => ⟨slot, ?_⟩⟩, fun _ _ => rfl⟩
        rw [List.mem_singleton.mp hm]
        rfl
      · rw [orderStep_waits he (by omega)]
        exact ⟨_, _, _, rfl, .of_same rfl, fun _ _ => rfl⟩

/-- The walk of the next entry starts, where there is one (R27). -/
theorem startWalk_next {s : State} {e : ReleaseEntry} {queue : List ReleaseEntry} (hw : s.store.walk = none)
    (hq : s.store.releaseQueue = e :: queue) : startWalk s = raiseWalk ⟨e.first, e.count⟩ s := by
  unfold startWalk
  rw [hw, hq]

theorem startWalk_none {s : State} (hq : s.store.releaseQueue = []) : startWalk s = s := by
  unfold startWalk
  rw [hq]
  split
  next h => cases h
  next => rfl

/-- The end of a release entry where no take waits: the state before the next walk starts. -/
def State.entryTold (s : State) (w : Walk) (e : ReleaseEntry) (queue : List ReleaseEntry) : State :=
  reportRelease e.cause (freeRecord e.index { lastReleased w e (takeReturn Source.isWalk s) with
    store.releaseQueue := queue, store.walk := none })

theorem walkEntry_exec {s : State} {ret : Returned} {w : Walk} {e : ReleaseEntry} {queue : List ReleaseEntry}
    (ho : s.out = {}) (hr : s.returnOf Source.isWalk = some ret) (hw : s.store.walk = some w)
    (hq : s.store.releaseQueue = e :: queue) (ht : s.store.takeLine = [])
    (hend : w.remaining ≤ 1 ∨ s.profile.blocks ≤ headerNext ret.data) :
    exec .walkHeaderRead s = .next (finish (startWalk (s.entryTold w e queue))) := by
  have hact : walkReturned ret.data (takeReturn Source.isWalk s) = startWalk (s.entryTold w e queue) :=
    walkReturned_ends hw hq ht hend
  rw [exec_walkHeaderRead hr]
  unfold taken
  dsimp only
  rw [beginStep_eq ho, hact]

/-- In `x` the cause of a release in `s` has been told of its end (R29). -/
structure Tells (s x : State) (cause : Cause) : Prop where
  done    : ∀ slot n, cause = .order slot → s.entryOf slot = some n → n.left ≤ 1 →
    Raised (completionWrite s slot n.copy .done n.deferred n.result) x
  waits   : ∀ slot n, cause = .order slot → s.entryOf slot = some n → 1 < n.left →
    x.entryOf slot = some { n with left := n.left - 1 } ∧ Mute slot x
  closing : ∀ ch, cause = .channel ch → (s.channel ch).state = .closing →
    (x.channel ch).state = .free ∧ (x.channel ch).order = none ∧
    ∀ slot n, (s.channel ch).order = some slot → s.entryOf slot = some n →
      Raised (completionWrite s slot n.copy (s.channel ch).verdict false []) x
  stopped : ∀ ch, cause = .channel ch → (s.channel ch).state = .stopped →
    x.channel ch = { s.channel ch with release := .finished } ∧ x.ring = s.ring
  silent  : cause = .silent → x.ring = s.ring

theorem reportRelease_tells {s v : State} (cause : Cause) (hring : v.ring = s.ring) (hvoice : v.voice = s.voice)
    (hp : v.profile = s.profile) (hmute : ∀ slot, Mute slot v) : Tells s (reportRelease cause v) cause := by
  have hve (slot : Nat) : v.entryOf slot = s.entryOf slot := by unfold State.entryOf; rw [hring]
  have hvc (k : Nat) : v.channel k = s.channel k := channel_congr hvoice k
  cases cause with
  | silent => exact ⟨nofun, nofun, nofun, nofun, fun _ => hring⟩
  | order slot =>
    show Tells s (orderStep slot v) _
    refine ⟨fun slot' n hc hn hl => ?_, fun slot' n hc hn hl => ?_, nofun, nofun, nofun⟩ <;> obtain rfl := Cause.order.inj hc
    · rw [orderStep_last ((hve slot).trans hn) hl]
      have hy := entryOf_updateEntry (s := v) (fun e => { e with left := 0 }) (fun _ => rfl) ((hve slot).trans hn)
      have hraised := completeOrder_raises .done n.deferred n.result hy
      rw [completionWrite_congr (s := s) (t := updateEntry slot (fun e => { e with left := 0 }) v) hp] at hraised
      exact hraised
    · rw [orderStep_waits ((hve slot).trans hn) hl]
      exact ⟨entryOf_updateEntry (s := v) (fun e => { e with left := e.left - 1 }) (fun _ => rfl) ((hve slot).trans hn),
        (hmute slot).of_out rfl⟩
  | channel ch =>
    show Tells s (channelReleased ch v) _
    refine ⟨nofun, nofun, fun ch' hc hst => ?_, fun ch' hc hst => ?_, nofun⟩ <;> obtain rfl := Cause.channel.inj hc
    · have hf := channelReleased_frees (s := v) (ch := ch) (by rw [hvc]; exact hst)
      have hch := (hf.channels ch).trans (if_pos rfl)
      have hd := hf.done
      rw [hvc] at hd
      refine ⟨(congrArg Channel.state hch : _), (congrArg Channel.order hch : _), fun slot n horder hn => ?_⟩
      have hraised := hd slot n horder ((hve slot).trans hn)
      rw [completionWrite_congr hp] at hraised
      exact hraised
    · have he : channelReleased ch v = v.setChannel ch { v.channel ch with release := .finished } :=
        if_neg (by rw [hvc, hst]; exact nofun)
      rw [he, ← hvc]
      exact ⟨(channel_setChannel ..).trans (if_pos rfl), hring⟩

/-- (5) of O51. -/
theorem walkEntry_ends {s : State} {ret : Returned} {w : Walk} {e : ReleaseEntry} {rest : List ReleaseEntry}
    (ho : s.out = {}) (hr : s.returnOf Source.isWalk = some ret) (hw : s.store.walk = some w)
    (hq : s.store.releaseQueue = e :: rest) (htake : s.store.takeLine = [])
    (hend : w.remaining ≤ 1 ∨ s.profile.blocks ≤ headerNext ret.data) :
    let m := s.message e.index
    ∃ t, exec .walkHeaderRead s = .next t ∧ sameOuter s t ∧ t.store.releaseQueue = rest ∧
      t.message e.index = { m with state := .free, next := 0xFFFF } ∧
      (m.generation < 65535 → e.index ∈ t.store.freeRecords) ∧ t.freeCount = s.freeCount + 1 ∧
      (t.mailbox m.room).blocksUsed = (s.mailbox m.room).blocksUsed - 1 ∧
      (∀ i, i ≠ e.index → t.message i = s.message i) ∧ (rest = [] → t.store.walk = none) ∧
      (∀ next more, rest = next :: more → t.store.walk = some ⟨next.first, next.count⟩ ∧
        lineGrew s t .directory [{ source := .walkHeader, write := false
                                   addr := s.profile.storeBase + 512 * next.first, beats := 1 }]) ∧
      (∀ slot n, e.cause = .order slot → s.entryOf slot = some n →
        (n.left ≤ 1 → lineGrew s t .directory [completionWrite s slot n.copy .done n.deferred n.result]) ∧
        (1 < n.left → n.stage = .executing → t.entryOf slot = some { n with left := n.left - 1 } ∧
          Unanswered s t slot)) ∧
      (∀ ch, e.cause = .channel ch →
        let c := s.channel ch
        (c.state = .closing → (t.channel ch).state = .free ∧ (t.channel ch).order = none ∧
          ∀ slot n, c.order = some slot → s.entryOf slot = some n →
            lineGrew s t .directory [completionWrite s slot n.copy c.verdict false []]) ∧
        (c.state = .stopped → t.channel ch = { c with release := .finished } ∧ t.ring = s.ring)) ∧
      (e.cause = .silent → t.ring = s.ring) ∧ t.rating = s.rating ∧ t.lamp = s.lamp := by
  intro m
  have hx := walkEntry_exec ho hr hw hq htake hend
  have hv := entryFreed w e rest s
  unfold State.entryTold at hx
  generalize freeRecord e.index { lastReleased w e (takeReturn Source.isWalk s) with
    store.releaseQueue := rest, store.walk := none } = v at hx hv
  obtain ⟨⟨ms, bs, mk, sl, po, pu, fr, o, hvs⟩, -, hvadds, hmess, hfreed, hcount, hmail⟩ := hv
  have hmute (slot : Nat) : Mute slot v := hvadds.mute (fun x hx => by rw [hx]; exact Source.noConfusion)
    (by unfold Mute; rw [ho]; exact nofun)
  obtain ⟨vo, ri, o', hxs, -, -⟩ := reportRelease_rest e.cause v
  have htells := reportRelease_tells (s := s) (v := v) e.cause (by rw [hvs]; rfl) (by rw [hvs]; rfl) (by rw [hvs]; rfl) hmute
  generalize reportRelease e.cause v = x at hx hxs htells
  obtain ⟨wk, o'', hu, -, huadds, -⟩ := startWalk_eq x
  have hends := finish_endsAs (startWalk x)
  have hxwalk : x.store.walk = none := by rw [hxs, hvs]
  have hxqueue : x.store.releaseQueue = rest := by rw [hxs, hvs]
  have hnone (h : rest = []) : (startWalk x).store.walk = none := by
    rw [startWalk_none (hxqueue.trans h)]
    exact hxwalk
  have hnext (next : ReleaseEntry) (more : List ReleaseEntry) (h : rest = next :: more) :
      startWalk x = raiseWalk ⟨next.first, next.count⟩ x := startWalk_next hxwalk (hxqueue.trans h)
  generalize startWalk x = u at hx hu huadds hends hnone hnext
  have hulines : u.arbiter.lines = s.arbiter.lines := by rw [hu, hxs, hvs]; rfl
  have hut : (finish u).store = u.store := hends.store
  have hum (j : Nat) : u.message j = v.message j := by rw [hu, hxs]; rfl
  have hub (q : Nat) : u.mailbox q = v.mailbox q := by rw [hu, hxs]; rfl
  have huc (k : Nat) : u.channel k = x.channel k := by rw [hu]; rfl
  have huring : u.ring = x.ring := by rw [hu]
  have hraised {r : Request} (hr : Raised r x) (hd : r.source.requester = .directory) : lineGrew s (finish u) .directory [r] :=
    lineGrew_of_ends hends hulines fun r' hm => by rw [List.mem_singleton.mp hm]; exact ⟨huadds.raised hr, hd⟩
  refine ⟨finish u, hx, hends.sameOuter (by rw [hu, hxs, hvs]; exact ⟨rfl, rfl, rfl, rfl, rfl⟩), ?_, ?_, fun hg => ?_, ?_, ?_,
    fun i hi => ?_, fun h => by rw [hut]; exact hnone h, fun next more h => ⟨?_, ?_⟩, fun slot n hc hn => ⟨fun hl => ?_,
    fun hl hstage => ⟨?_, ?_⟩⟩, fun ch hc => ⟨fun hst => ?_, fun hst => ?_⟩, fun hc => ?_, ?_, ?_⟩
  · rw [hut, hu]
    exact hxqueue
  · rw [hends.message, hum, hmess, if_pos rfl]
  · rw [hut, hu, hxs]
    exact hfreed hg
  · rw [freeCount_congr hends.store hends.control, ← hcount, hu, hxs]
    rfl
  · rw [hends.mailbox, hub, hmail, if_pos rfl]
  · rw [hends.message, hum, hmess, if_neg hi]
  · rw [hut, hnext next more h]
    rfl
  · refine lineGrew_of_ends hends hulines fun r hm => ?_
    rw [List.mem_singleton.mp hm, hnext next more h]
    refine ⟨List.mem_append_right _ (List.mem_singleton.mpr ?_), rfl⟩
    rw [hxs, hvs]
    rfl
  · exact hraised (htells.done slot n hc hn hl) rfl
  · unfold State.entryOf
    rw [hends.ring, huring]
    exact (htells.waits slot n hc hn hl).1
  · obtain ⟨hentry, hm⟩ := htells.waits slot n hc hn hl
    refine unanswered_of (e := { n with left := n.left - 1 }) rfl (huadds.mute (fun y hy => by rw [hy]; exact Source.noConfusion) hm) hulines ?_ hstage
    unfold State.entryOf
    rw [huring]
    exact hentry
  · obtain ⟨hfree, horder, hd⟩ := htells.closing ch hc hst
    have hch : (finish u).channel ch = x.channel ch := by
      rw [hends.channels ch (stillChannel_of_state (huc ch) (by rw [hfree]; exact nofun) (by rw [hfree]; exact nofun)), huc]
    rw [hch]
    exact ⟨hfree, horder, fun slot n ho hn => hraised (hd slot n ho hn) rfl⟩
  · obtain ⟨hch, hring⟩ := htells.stopped ch hc hst
    have hwc : u.channel ch = { s.channel ch with release := .finished } := (huc ch).trans hch
    refine ⟨?_, hends.ring.trans (huring.trans hring)⟩
    rw [hends.channels ch (stillChannel_of_state hwc (by rw [hst]; exact nofun) (by rw [hst]; exact nofun)), hwc]
  · exact hends.ring.trans (huring.trans (htells.silent hc))
  · rw [hends.rating, hu, hxs, hvs]
    rfl
  · rw [hends.lamp, hu, hxs, hvs]
    rfl

end Sys2Proof.Machine
end

section
/-! PROOFS. RECORD CLOSE and RECORD ABANDON of a channel that records (3.3). -/

namespace Sys2Proof.Machine

/-! ### A line nothing joins -/

/-- The step raises nothing for `who`. -/
def Idle (who : Requester) (s : State) : Prop := ∀ r ∈ s.out.requests, r.source.requester ≠ who

theorem commitNotices_idle {s : State} (h : Idle .voice s) : Idle .voice (commitNotices s) := by
  unfold commitNotices
  dsimp only
  have hout := congrArg Outbox.requests
    (interleave_out (fun n : Requester × Notice => requesterIndex n.1) s.out.notices [] s)
  have hstart : Idle .voice { (interleave (fun n : Requester × Notice => requesterIndex n.1) s.out.notices [] s).2 with
      out.notices := [] } := by
    intro r hm
    exact h r (by rw [← hout]; exact hm)
  generalize ({ (interleave (fun n : Requester × Notice => requesterIndex n.1) s.out.notices [] s).2 with
      out.notices := [] } : State) = u at hstart
  generalize (interleave (fun n : Requester × Notice => requesterIndex n.1) s.out.notices [] s).1 = batch
  induction batch generalizing u with
  | nil => exact hstart
  | cons n batch ih =>
    refine ih _ ?_
    show Idle .voice (queueNotice n.2 u)
    unfold queueNotice
    split
    · exact hstart
    · intro r hm
      obtain hm | hm := List.mem_append.mp hm
      · exact hstart r hm
      · rw [List.mem_singleton.mp hm]
        exact nofun

theorem commitLines_idle {rs : List Request} {w : Requester} (h : ∀ r ∈ rs, r.source.requester ≠ w) (ws : List Requester)
    (s : State) : (ws.foldl (fun t who => commitLine who rs t) s).arbiter.lines.get w = s.arbiter.lines.get w := by
  induction ws generalizing s with
  | nil => rfl
  | cons who ws ih =>
    obtain ⟨l, hl, hp⟩ := commitLine_perm who rs s w
    have hnone : (if w = who then rs.filter (fun r => decide (r.source.requester = w)) else []) = [] := by
      split
      · exact List.filter_eq_nil_iff.mpr fun r hm => by simpa using h r hm
      · rfl
    rw [hnone] at hp
    rw [List.foldl_cons, ih, hl, hp.eq_nil, List.append_nil]

/-- Where the host path waits, a step that raises nothing for the voice engine leaves its line (R164). -/
theorem finish_idle {u : State} (h : Idle .voice u) (hw : u.headWaits) :
    (finish u).arbiter.lines.get .voice = u.arbiter.lines.get .voice := by
  obtain ⟨n, he⟩ := finish_waits u hw
  have hv : Idle .voice (fillFifo n u) := by
    unfold Idle
    rw [fillFifo_out]
    exact h
  have ha := (fillFifo_grows n u).arbiter
  rw [he]
  generalize fillFifo n u = v at hv ha
  have hc := (commitNotices_grows v).arbiter
  unfold commit
  dsimp only
  rw [commitLines_idle (commitNotices_idle hv)]
  show (commitNotices v).arbiter.lines.get .voice = _
  rw [hc, ha]

/-! ### The channel enters CLOSING (R51, R58, R59) -/

/-- The channel that enters CLOSING for the order of `slot`. -/
def Channel.entering (c : Channel) (slot : Nat) (how : Closing) : Channel :=
  { c with state := .closing, closing := how, order := some slot }

theorem enterClosing_recording {s : State} {ch : Nat} (slot : Nat) (how : Closing) (hst : (s.channel ch).state = .recording) :
    ∃ ms o, enterClosing slot ch how s = { s.setChannel ch ((s.channel ch).entering slot how) with
        out := o, store := { s.store with messages := ms } } ∧
      o.notices = s.out.notices ∧ Adds (· = .record (s.channel ch).index) s (enterClosing slot ch how s) ∧
      ∀ j, (enterClosing slot ch how s).message j = if j = (s.channel ch).index then
        { s.message (s.channel ch).index with length := (s.channel ch).position } else s.message j := by
  unfold enterClosing updateLength
  dsimp only
  rw [if_pos hst]
  obtain ⟨o, hu, hon, hadds⟩ := updateMessage_eq (s.channel ch).index
    { s.message (s.channel ch).index with length := (s.channel ch).position } s
  have hmess := updateMessage_message (s.channel ch).index
    { s.message (s.channel ch).index with length := (s.channel ch).position } s
  generalize updateMessage (s.channel ch).index _ s = u at hu hadds hmess ⊢
  refine ⟨u.store.messages, o, by rw [hu]; rfl, hon, ?_, hmess⟩
  obtain ⟨rs, hrs, hall⟩ := hadds
  exact ⟨rs, hrs, hall⟩

theorem afterWrites_busy {ch : Nat} {s : State} (h : (s.channel ch).writes ≠ 0) : afterWrites ch s = s := by
  unfold afterWrites
  dsimp only
  exact if_neg fun hc => h hc.2

/-! ### A block that is returned (R28) -/

/-- From `s` to `w` block `b` has left the chain of message `i` and has been released (R28). -/
structure BlockReturned (s w : State) (i b : Nat) : Prop where
  rest    : ∃ ms bs mk sl o, w = { s with
    out := o
    store := { s.store with
      messages := ms, mailboxes := bs, marks := mk, storeLow := sl
      pocket := if s.store.pocket.length < 16 then .ready b :: s.store.pocket else s.store.pocket
      pushLine := if s.store.pocket.length < 16 then s.store.pushLine else s.store.pushLine ++ [b] } }
  told    : w.out.notices = s.out.notices
  adds    : Adds (· = .record i) s w
  message : ∀ j, w.message j = if j = i then
    { s.message i with
      blocks := (s.message i).blocks - 1
      first := if (s.message i).blocks - 1 = 0 then none32 else (s.message i).first } else s.message j
  mailbox : ∀ q, w.mailbox q = if q = (s.message i).room then
    { s.mailbox (s.message i).room with blocksUsed := (s.mailbox (s.message i).room).blocksUsed - 1 } else s.mailbox q
  count   : w.freeCount = s.freeCount + 1

theorem returnBlock_returns {s : State} (ch b : Nat) (h : s.store.takeLine = []) :
    BlockReturned s (returnBlock ch b s) (s.channel ch).index b := by
  unfold returnBlock
  dsimp only
  generalize (s.channel ch).index = i
  obtain ⟨o, hu, hon, hadds⟩ := updateMessage_eq i { s.message i with
    blocks := (s.message i).blocks - 1
    first := if (s.message i).blocks - 1 = 0 then none32 else (s.message i).first } s
  have hum := updateMessage_message i { s.message i with
    blocks := (s.message i).blocks - 1
    first := if (s.message i).blocks - 1 = 0 then none32 else (s.message i).first } s
  have hub := updateMessage_mailbox i { s.message i with
    blocks := (s.message i).blocks - 1
    first := if (s.message i).blocks - 1 = 0 then none32 else (s.message i).first } s
  generalize updateMessage i _ s = u at hu hadds hum hub ⊢
  have hmail := setBlocksUsed_mailbox (s.message i).room ((u.mailbox (s.message i).room).blocksUsed - 1) u
  obtain ⟨bs, mk, hv⟩ : ∃ bs mk, setBlocksUsed (s.message i).room ((u.mailbox (s.message i).room).blocksUsed - 1) u =
      { u with store := { u.store with mailboxes := bs, marks := mk } } := ⟨_, _, rfl⟩
  generalize setBlocksUsed (s.message i).room ((u.mailbox (s.message i).room).blocksUsed - 1) u = v at hmail hv ⊢
  obtain ⟨ms, hvs⟩ : ∃ ms, v = { s with
      out := o, store := { s.store with messages := ms, mailboxes := bs, marks := mk } } := ⟨_, by rw [hv, hu]; rfl⟩
  obtain ⟨sl, hw, hcount, -⟩ := releaseBlock_eq b v
  have hidle : takeLineTurn (releaseBlock b v) = releaseBlock b v :=
    takeLineTurn_idle (by rw [releaseBlock_takeLine, hvs]; exact h)
  rw [hidle]
  generalize releaseBlock b v = w at hw hcount ⊢
  have hwm (j : Nat) : w.message j = v.message j := by rw [hw]; rfl
  have hwb (q : Nat) : w.mailbox q = v.mailbox q := by rw [hw]; rfl
  have hvm (j : Nat) : v.message j = u.message j := by rw [hv]; rfl
  refine ⟨⟨ms, bs, mk, sl, o, by rw [hw, hvs]⟩, by rw [hw, hvs]; exact hon, ?_, fun j => by rw [hwm, hvm, hum],
    fun q => by rw [hwb, hmail, hub, hub], by rw [hcount, hvs]; rfl⟩
  obtain ⟨rs, hrs, hall⟩ := hadds
  exact ⟨rs, by rw [hw, hv]; exact hrs, hall⟩

/-- From `s` to `w` channel `ch` has returned `n` blocks of its message (R28, R59). -/
structure Drops (s w : State) (ch n : Nat) : Prop where
  rest     : ∃ vo ms bs mk sl po pu o, w = { s with
    voice := vo, out := o
    store := { s.store with messages := ms, mailboxes := bs, marks := mk, storeLow := sl, pocket := po, pushLine := pu } }
  told     : w.out.notices = s.out.notices
  adds     : Adds (· = .record (s.channel ch).index) s w
  index    : (w.channel ch).index = (s.channel ch).index
  message  : ∃ f, w.message (s.channel ch).index =
      { s.message (s.channel ch).index with blocks := (s.message (s.channel ch).index).blocks - n, first := f } ∧
    (n < (s.message (s.channel ch).index).blocks → f = (s.message (s.channel ch).index).first)
  messages : ∀ j, j ≠ (s.channel ch).index → w.message j = s.message j
  rooms    : ∀ q, q ≠ (s.message (s.channel ch).index).room → w.mailbox q = s.mailbox q
  channels : ∀ k, k ≠ ch → w.channel k = s.channel k
  count    : w.freeCount = s.freeCount + n

theorem Drops.refl (s : State) (ch : Nat) : Drops s s ch 0 :=
  ⟨⟨_, _, _, _, _, _, _, _, rfl⟩, rfl, .of_same rfl, rfl, ⟨_, rfl, fun _ => rfl⟩, fun _ _ => rfl, fun _ _ => rfl, fun _ _ => rfl,
    rfl⟩

theorem Drops.trans {s v w : State} {ch n m : Nat} (h : Drops s v ch n) (g : Drops v w ch m) : Drops s w ch (n + m) := by
  obtain ⟨⟨vo, ms, bs, mk, sl, po, pu, o, hv⟩, hvt, hva, hvi, ⟨f, hvm, hf⟩, hvms, hvr, hvc, hvn⟩ := h
  obtain ⟨⟨vo', ms', bs', mk', sl', po', pu', o', hw⟩, hwt, hwa, hwi, ⟨f', hwm, hf'⟩, hwms, hwr, hwc, hwn⟩ := g
  rw [hvi] at hwa hwi hwm hf' hwms hwr
  rw [hvm] at hwm hf' hwr
  refine ⟨⟨vo', ms', bs', mk', sl', po', pu', o', by rw [hw, hv]⟩, hwt.trans hvt, hva.trans hwa, hwi, ⟨f', ?_, fun hl => ?_⟩,
    fun j hj => (hwms j hj).trans (hvms j hj), fun q hq => (hwr q hq).trans (hvr q hq),
    fun k hk => (hwc k hk).trans (hvc k hk), by rw [hwn, hvn, Nat.add_assoc]⟩
  · rw [hwm]
    dsimp only
    rw [Nat.sub_sub]
  · rw [hf' (show m < (s.message (s.channel ch).index).blocks - n by omega)]
    exact hf (by omega)

theorem returnBlock_drops {s : State} {ch : Nat} {c : Channel} (b : Nat) (h : s.store.takeLine = [])
    (hc : c.index = (s.channel ch).index) :
    Drops s (returnBlock ch b (s.setChannel ch c)) ch 1 ∧ (returnBlock ch b (s.setChannel ch c)).channel ch = c := by
  generalize hu : s.setChannel ch c = u
  have huc (k : Nat) : u.channel k = if k = ch then c else s.channel k := by rw [← hu, channel_setChannel]
  have hum (j : Nat) : u.message j = s.message j := by rw [← hu]; rfl
  have hub (q : Nat) : u.mailbox q = s.mailbox q := by rw [← hu]; rfl
  have hr := returnBlock_returns (s := u) ch b (by rw [← hu]; exact h)
  rw [huc, if_pos rfl, hc] at hr
  generalize returnBlock ch b u = w at hr ⊢
  obtain ⟨⟨ms, bs, mk, sl, o, hw⟩, htold, ⟨rs, hrs, hall⟩, hmess, hmail, hcount⟩ := hr
  have hwc (k : Nat) : w.channel k = u.channel k := by rw [hw]; rfl
  simp only [hum, hub] at hmess hmail
  refine ⟨⟨⟨u.voice, ms, bs, mk, sl, _, _, o, by rw [hw, ← hu]; rfl⟩, by rw [htold, ← hu]; rfl,
    ⟨rs, by rw [hrs, ← hu]; rfl, hall⟩, by rw [hwc, huc, if_pos rfl, hc], ⟨_, by rw [hmess, if_pos rfl], fun hl => if_neg (by omega)⟩,
    fun j hj => by rw [hmess, if_neg hj], fun q hq => by rw [hmail, if_neg hq], fun k hk => by rw [hwc, huc, if_neg hk],
    by rw [hcount, ← hu]; rfl⟩, by rw [hwc, huc, if_pos rfl]⟩

/-! ### Unwritten blocks (R28, R59) -/

/-- The buffer holds a block that no write has been raised for. -/
def Buffer.unwritten (b : Buffer) : Bool := decide (b.cond = .filling) || decide (b.cond = .full)

theorem returnBuffer_drops {s : State} (ch : Nat) (second : Bool) (h : s.store.takeLine = []) :
    Drops s (returnBuffer ch second s) ch (if ((s.channel ch).buffer second).unwritten then 1 else 0) ∧
    (returnBuffer ch second s).channel ch =
      if ((s.channel ch).buffer second).unwritten then (s.channel ch).setBuffer second {} else s.channel ch := by
  have hiff : (((s.channel ch).buffer second).cond = .filling ∨ ((s.channel ch).buffer second).cond = .full) ↔
      ((s.channel ch).buffer second).unwritten = true := by
    unfold Buffer.unwritten
    simp only [Bool.or_eq_true, decide_eq_true_eq]
  unfold returnBuffer
  dsimp only
  by_cases hb : ((s.channel ch).buffer second).unwritten = true
  · rw [if_pos (hiff.mpr hb), if_pos hb, if_pos hb]
    exact returnBlock_drops _ h (setBuffer_index ..)
  · rw [if_neg (mt hiff.mp hb), if_neg hb, if_neg hb]
    exact ⟨.refl .., rfl⟩

theorem returnWaiting_drops {s : State} (ch : Nat) (h : s.store.takeLine = []) :
    Drops s (returnWaiting ch s) ch (s.channel ch).waitingBlock.toList.length ∧
    (returnWaiting ch s).channel ch = { s.channel ch with waitingBlock := none } := by
  cases hw : (s.channel ch).waitingBlock with
  | none =>
    have he : returnWaiting ch s = s := by
      unfold returnWaiting
      dsimp only
      rw [hw]
    have hc : { s.channel ch with waitingBlock := none } = s.channel ch := by rw [← hw]
    rw [he, hc]
    exact ⟨.refl .., rfl⟩
  | some b =>
    have he : returnWaiting ch s = returnBlock ch b (s.setChannel ch { s.channel ch with waitingBlock := none }) := by
      unfold returnWaiting
      dsimp only
      rw [hw]
    rw [he]
    exact returnBlock_drops b h rfl

/-- The channel whose unwritten blocks have been returned (R59). -/
def Channel.emptied (c : Channel) : Channel :=
  { c with
    buffer0 := if c.buffer0.unwritten then {} else c.buffer0
    buffer1 := if c.buffer1.unwritten then {} else c.buffer1
    waitingBlock := none }

/-- The number of blocks that a channel has taken and not begun to write. -/
def Channel.unwritten (c : Channel) : Nat :=
  ([c.buffer0, c.buffer1].filter Buffer.unwritten).length + c.waitingBlock.toList.length

/-- Unwritten blocks are returned where no other take waits (R59). -/
theorem dropUnwritten_drops {s : State} (ch : Nat) (h : ∀ k ∈ s.store.takeLine, k = ch) :
    Drops { s with store.takeLine := [] } (dropUnwritten ch s) ch (s.channel ch).unwritten ∧
    (dropUnwritten ch s).channel ch = (s.channel ch).emptied := by
  have hline : s.store.takeLine.filter (fun c => decide (c ≠ ch)) = [] :=
    List.filter_eq_nil_iff.mpr fun k hk => by simpa using h k hk
  have hwith : withdrawTake ch s = { s with store.takeLine := [] } := by
    unfold withdrawTake
    rw [hline]
  unfold dropUnwritten
  rw [hwith]
  generalize hs0 : ({ s with store.takeLine := [] } : State) = s0
  have hc0 : s0.channel ch = s.channel ch := by rw [← hs0]; rfl
  have ht0 : s0.store.takeLine = [] := by rw [← hs0]
  obtain ⟨d1, hc1⟩ := returnBuffer_drops ch false ht0
  generalize returnBuffer ch false s0 = s1 at d1 hc1 ⊢
  have ht1 : s1.store.takeLine = [] := by
    obtain ⟨vo, ms, bs, mk, sl, po, pu, o, hr⟩ := d1.rest
    rw [hr]
    exact ht0
  obtain ⟨d2, hc2⟩ := returnBuffer_drops ch true ht1
  generalize returnBuffer ch true s1 = s2 at d2 hc2 ⊢
  have ht2 : s2.store.takeLine = [] := by
    obtain ⟨vo, ms, bs, mk, sl, po, pu, o, hr⟩ := d2.rest
    rw [hr]
    exact ht1
  obtain ⟨d3, hc3⟩ := returnWaiting_drops ch ht2
  generalize returnWaiting ch s2 = s3 at d3 hc3 ⊢
  rw [hc0] at hc1 d1
  generalize s.channel ch = c at hc1 d1 ⊢
  have hbuffers : s1.channel ch = { c with buffer0 := if c.buffer0.unwritten then {} else c.buffer0 } := by
    rw [hc1]
    show (if c.buffer0.unwritten = true then _ else _) = _
    split
    · rfl
    · rfl
  have hboth : s2.channel ch = { c with
      buffer0 := if c.buffer0.unwritten then {} else c.buffer0
      buffer1 := if c.buffer1.unwritten then {} else c.buffer1 } := by
    rw [hc2, hbuffers]
    show (if c.buffer1.unwritten = true then _ else _) = _
    split
    · rfl
    · rfl
  have hn2 : ((s1.channel ch).buffer true).unwritten = c.buffer1.unwritten := by rw [hbuffers]; rfl
  have hn3 : (s2.channel ch).waitingBlock = c.waitingBlock := by rw [hboth]
  rw [hn2] at d2
  rw [hn3] at d3
  refine ⟨?_, by rw [hc3, hboth]; rfl⟩
  have hcount : c.unwritten = (if (c.buffer false).unwritten then 1 else 0) + (if c.buffer1.unwritten then 1 else 0) +
      c.waitingBlock.toList.length := by
    unfold Channel.unwritten
    show _ = (if c.buffer0.unwritten then 1 else 0) + _ + _
    rw [List.filter_cons, List.filter_cons, List.filter_nil]
    by_cases h0 : c.buffer0.unwritten = true <;> by_cases h1 : c.buffer1.unwritten = true <;> simp [h0, h1]
  rw [hcount]
  exact (d1.trans d2).trans d3

/-! ### The take of RECORD CLOSE and RECORD ABANDON -/

/-- `v` is the state in which the RECORDING channel `ch` has entered CLOSING at the take of an order in `s`. -/
structure Entered (s v : State) (slot ch : Nat) (how : Closing) (copy : List Byte) : Prop where
  rest     : ∃ vo ms o, v = { s.acting slot copy with voice := vo, out := o, store := { s.store with messages := ms } }
  told     : v.out.notices = []
  adds     : Adds (· = .record (s.channel ch).index) (s.acting slot copy) v
  channels : ∀ k, v.channel k = if k = ch then (s.channel ch).entering slot how else s.channel k
  message  : ∀ j, v.message j = if j = (s.channel ch).index then
    { s.message (s.channel ch).index with length := (s.channel ch).position } else s.message j

theorem enters {s : State} {slot ch : Nat} (how : Closing) (copy : List Byte) (ho : s.out = {})
    (hst : (s.channel ch).state = .recording) : Entered s (enterClosing slot ch how (s.acting slot copy)) slot ch how copy := by
  obtain ⟨ms, o, hv, hon, hadds, hmess⟩ := enterClosing_recording (s := s.acting slot copy) (ch := ch) slot how hst
  have hc (k : Nat) : (s.acting slot copy).channel k = s.channel k := rfl
  generalize enterClosing slot ch how (s.acting slot copy) = v at hv hadds hmess ⊢
  refine ⟨⟨v.voice, ms, o, by rw [hv, ← acting_store s slot copy]; rfl⟩, ?_, hadds, fun k => ?_, hmess⟩
  · rw [hv]
    exact hon.trans (congrArg Outbox.notices ho)
  · rw [hv]
    exact channel_setChannel ..

section
variable {s v : State} {slot ch : Nat} {how : Closing} {copy : List Byte} (h : Entered s v slot ch how copy)
include h

theorem Entered.same : v.ring = (s.acting slot copy).ring ∧ v.rating = s.rating ∧ v.lamp = s.lamp ∧ v.control = s.control ∧
    v.host = s.host ∧ v.arbiter.lines = s.arbiter.lines ∧ v.store.takeLine = s.store.takeLine ∧
    v.store.pocket = s.store.pocket ∧ v.store.mailboxes = s.store.mailboxes ∧
    v.store.releaseQueue = s.store.releaseQueue ∧ v.store.releaseLine = s.store.releaseLine ∧
    v.freeCount = s.freeCount := by
  obtain ⟨vo, ms, o, hrest⟩ := h.rest
  rw [hrest]
  refine ⟨rfl, acting_rating s slot copy, acting_lamp s slot copy, acting_control s slot copy, acting_host s slot copy,
    acting_lines s slot copy, rfl, rfl, rfl, rfl, rfl, ?_⟩
  unfold State.freeCount State.stackCount State.stackTop State.profile
  rw [← acting_control s slot copy]

theorem Entered.channel : v.channel ch = (s.channel ch).entering slot how := (h.channels ch).trans (if_pos rfl)

theorem Entered.raised : Raised (executingWrite s slot copy) v := h.adds.raised (acting_raised s slot copy)

theorem Entered.mute (ho : s.out = {}) : Mute slot v :=
  h.adds.mute (fun x hx => by rw [hx]; exact Source.noConfusion) (acting_mute ho slot copy)

theorem Entered.profile : v.profile = s.profile := by
  obtain ⟨-, -, -, hcontrol, -⟩ := h.same
  unfold State.profile
  rw [hcontrol]

theorem Entered.entry {e : InFlight} (he : (s.acting slot copy).entryOf slot = some e) : v.entryOf slot = some e := by
  rw [← he]
  unfold State.entryOf
  rw [h.same.1]

end

/-- A block that RECORD CLOSE still has to write (R58). -/
theorem closeBlocks_writes {v : State} {ch : Nat} {second : Bool}
    (h : (v.channel ch).bufferIn .full = some second ∨ ((v.channel ch).bufferIn .full = none ∧
      (v.channel ch).bufferIn .filling = some second ∧ 0 < (v.channel ch).sampleCount)) :
    closeBlocks ch v = writeBlock ch second none32 { v with
      store.takeLine := if (v.channel ch).bufferIn .full = none then v.store.takeLine
        else v.store.takeLine.filter fun k => decide (k ≠ ch) } := by
  unfold closeBlocks
  dsimp only
  rcases h with h | ⟨hfull, hfill, hcount⟩
  · rw [h]
    exact rfl
  · rw [hfull, hfill]
    dsimp only
    rw [if_pos hcount, if_pos rfl]

/-- RECORD CLOSE of a RECORDING channel, its block closed and written (R58). -/
theorem recordClose_writes {s : State} {slot : Nat} {copy : List Byte} {second : Bool}
    (h : s.takesNow .recordClose slot copy) :
    let ch := param copy 8 1
    let c := s.channel ch
    let m := s.message c.index
    c.state = .recording →
    c.bufferIn .full = some second ∨ (c.bufferIn .full = none ∧ c.bufferIn .filling = some second ∧ 0 < c.sampleCount) →
    ∃ t, exec .recordClose s = .next t ∧ sameOuter s t ∧ OrderTaken s t slot copy ∧ Unanswered s t slot ∧
      t.channel ch = { c.closedIn second none32 with state := .closing, closing := .close, order := some slot } ∧
      t.message c.index = { m with length := c.position } ∧
      lineGrew s t .voice (s.blockBursts ch second none32) ∧
      t.store.takeLine = (if c.bufferIn .full = none then s.store.takeLine
        else s.store.takeLine.filter fun k => decide (k ≠ ch)) ∧
      t.store.mailboxes = s.store.mailboxes ∧ (∀ j, j ≠ c.index → t.message j = s.message j) ∧
      (∀ k, k ≠ ch → s.stillChannel k → t.channel k = s.channel k) ∧
      t.rating = s.rating ∧ t.lamp = s.lamp := by
  intro ch c m hst hbuffer
  obtain ⟨t, e, hx, houter, htaken, ht, he, -, hstage⟩ := order_acts h (by decide)
  have hv := enters (slot := slot) (ch := ch) .close copy h.1 hst
  have hact : orderAct .recordClose slot copy (s.acting slot copy) =
      afterWrites ch (closeBlocks ch (enterClosing slot ch .close (s.acting slot copy))) := by
    show recordCloseAct slot copy (s.acting slot copy) = _
    have hstate : ((s.acting slot copy).channel ch).state = .recording := hst
    unfold recordCloseAct
    dsimp only
    rw [if_pos hstate]
  rw [hact] at ht
  generalize enterClosing slot ch .close (s.acting slot copy) = v at hv ht
  obtain ⟨hring, hrating, hlamp, -, -, hlines, hline, -, hmailboxes, -, -, -⟩ := hv.same
  have hvc := hv.channel
  have hin (cond : BufferCond) : (v.channel ch).bufferIn cond = c.bufferIn cond := by rw [hvc]; rfl
  rw [closeBlocks_writes (second := second) (by rw [hin, hin, hvc]; exact hbuffer), writeBlock_eq, hin, hline] at ht
  have hbursts : v.blockBursts ch second none32 = s.blockBursts ch second none32 := by
    unfold State.blockBursts
    rw [hvc, hv.profile]
    exact rfl
  generalize hline' : (if c.bufferIn .full = none then s.store.takeLine
    else s.store.takeLine.filter fun k => decide (k ≠ ch)) = line at ht ⊢
  generalize hw : raiseAll (State.blockBursts { v with store.takeLine := line } ch second none32) _ = w at ht
  have hw : raiseAll (s.blockBursts ch second none32)
      (State.setChannel { v with store.takeLine := line } ch ((v.channel ch).closedIn second none32)) = w := by
    rw [← hbursts]
    exact hw
  have hwc (k : Nat) : w.channel k = if k = ch then
      { c.closedIn second none32 with state := .closing, closing := .close, order := some slot } else s.channel k := by
    rw [← hw]
    refine (channel_setChannel ..).trans ?_
    by_cases hk : k = ch
    · rw [if_pos hk, if_pos hk, hvc]
      cases second <;> exact rfl
    · rw [if_neg hk, if_neg hk]
      exact (hv.channels k).trans (if_neg hk)
  have hwo : w.out.requests = v.out.requests ++ s.blockBursts ch second none32 := by rw [← hw]; rfl
  have hwm (j : Nat) : w.message j = v.message j := by rw [← hw]; rfl
  rw [afterWrites_busy (by rw [hwc, if_pos rfl]; exact Nat.succ_ne_zero _)] at ht
  have hends := finish_endsAs (nextSlot w)
  rw [← ht] at hends
  have hwlines : (nextSlot w).arbiter.lines = s.arbiter.lines := by rw [← hlines, ← hw]; rfl
  have hstill : (nextSlot w).stillChannel ch :=
    stillChannel_of_state (s := nextSlot w) ((hwc ch).trans (if_pos rfl)) nofun nofun
  have hmute : Mute slot w := by
    intro r hm
    rw [hwo] at hm
    obtain hm | hm := List.mem_append.mp hm
    · exact hv.mute h.1 r hm
    · obtain ⟨k, hk⟩ := blockBursts_source hm
      rw [hk]
      exact Source.noConfusion
  have hwe : w.entryOf slot = some e := by rw [← hv.entry he, ← hw]; rfl
  refine ⟨t, hx, houter, htaken, unanswered_of (e := e) ht (hmute.of_out rfl) hwlines hwe hstage, ?_, ?_, ?_, ?_, ?_,
    fun j hj => ?_, fun k hk hs => ?_, ?_, ?_⟩
  · rw [hends.channels ch hstill]
    exact (hwc ch).trans (if_pos rfl)
  · rw [hends.message]
    exact (hwm _).trans ((hv.message _).trans (if_pos rfl))
  · refine lineGrew_of_ends hends hwlines fun r hm => ⟨?_, ?_⟩
    · show r ∈ w.out.requests
      rw [hwo]
      exact List.mem_append_right _ hm
    · obtain ⟨k, hk⟩ := blockBursts_source hm
      rw [hk]
      rfl
  · rw [hends.store, ← hw]
    rfl
  · rw [hends.store, ← hmailboxes, ← hw]
    rfl
  · rw [hends.message]
    exact (hwm j).trans ((hv.message j).trans (if_neg hj))
  · have hk' : (nextSlot w).channel k = s.channel k := (hwc k).trans (if_neg hk)
    rw [hends.channels k (hs.of_eq hk'), hk']
  · rw [hends.rating, ← hrating, ← hw]
    rfl
  · rw [hends.lamp, ← hlamp, ← hw]
    rfl

/-! ### What hangs on the writes of a CLOSING channel -/

theorem Releases.of_judged {s w : State} {ch : Nat} {st : Status} (h : Releases (s.judged ch st) w ch) : Releases s w ch := by
  have hc (k : Nat) : (s.judged ch st).channel k = if k = ch then { s.channel ch with verdict := st } else s.channel k :=
    channel_setChannel ..
  obtain ⟨⟨vo, ms, bs, mk, fr, rq, rl, wk, ri, o, hw⟩, htold, hm, hr, hch, ⟨hown, hstate⟩, hmess, hused, ⟨rs, hrs, hall⟩⟩ := h
  have hi : ((s.judged ch st).channel ch).index = (s.channel ch).index := by rw [hc, if_pos rfl]
  rw [hi] at hm hr hmess hall
  rw [hc, if_pos rfl] at hown hstate
  refine ⟨⟨vo, ms, bs, mk, fr, rq, rl, wk, ri, o, hw⟩, htold, hm, hr, fun k hk => ?_, ⟨hown, hstate⟩, hmess, hused,
    ⟨rs, hrs, hall⟩⟩
  rw [hch k hk, hc, if_neg hk]

theorem ending_self {s : State} {ch : Nat} {d : Channel} (h : s.channel ch = d) : Ending s s ch d := by
  refine ⟨fun k => ?_, rfl, rfl, rfl, rfl, rfl, rfl⟩
  split
  next hk => rw [hk, h]
  next => rfl

theorem closeByRelease_trails {s : State} {ch : Nat} (st : Status)
    (hrec : (s.channel ch).release = .none → (s.message (s.channel ch).index).state = .recording) :
    Releases s (closeByRelease ch st s) ch :=
  (closeByRelease_releases (ending_self rfl) st hrec).of_judged

section
variable {s x t : State} {slot : Nat} {copy : List Byte}

theorem lineGrew_congr {who : Requester} {rs : List Request} (hl : x.arbiter.lines = s.arbiter.lines)
    (h : lineGrew x t who rs) : lineGrew s t who rs := by
  unfold lineGrew at h ⊢
  rw [← hl]
  exact h

theorem unanswered_congr (hl : x.arbiter.lines = s.arbiter.lines) (h : Unanswered x t slot) : Unanswered s t slot := by
  unfold Unanswered at h ⊢
  rw [← hl]
  exact h

/-- The EXECUTING write and the completion write of one take (R175, R177). -/
theorem answered_of_grew {st : Status} {deferred : Bool} {res : List Byte} (h : OrderTaken s t slot copy)
    (hl : x.arbiter.lines = s.arbiter.lines) (hp : x.profile = s.profile)
    (hg : lineGrew x t .directory [completionWrite x slot copy st deferred res]) :
    Answered s t slot copy st deferred res := by
  obtain ⟨l, hline, hm⟩ := h.executing
  obtain ⟨l', hline', hm'⟩ := lineGrew_congr hl hg
  obtain rfl : l = l' := List.append_cancel_left (hline.symm.trans hline')
  rw [completionWrite_congr hp] at hm'
  refine ⟨l, hline, fun r hr => ?_⟩
  obtain rfl | hr := List.mem_cons.mp hr
  · exact hm _ (List.mem_singleton.mpr rfl)
  · exact hm' r hr

end

theorem progress_fields {c d : Channel} (h : c.progress = d.progress) : c.buffer0 = d.buffer0 ∧ c.buffer1 = d.buffer1 ∧
    c.waitingBlock = d.waitingBlock ∧ c.writes = d.writes := by
  have h0 := congrArg Channel.buffer0 h
  have h1 := congrArg Channel.buffer1 h
  have h2 := congrArg Channel.waitingBlock h
  have h3 := congrArg Channel.writes h
  exact ⟨h0, h1, h2, h3⟩

/-! ### RECORD ABANDON (R59) -/

theorem recordAbandon_acts {s : State} {slot : Nat} {copy : List Byte} :
    orderAct .recordAbandon slot copy (s.acting slot copy) = afterWrites (param copy 8 1)
      (if (s.channel (param copy 8 1)).state = .recording then
        dropUnwritten (param copy 8 1) (enterClosing slot (param copy 8 1) .abandon (s.acting slot copy))
      else enterClosing slot (param copy 8 1) .abandon (s.acting slot copy)) := rfl

/-- RECORD ABANDON of a STOPPED recording with writes in flight (R59). -/
theorem recordAbandon_stopped {s : State} {slot : Nat} {copy : List Byte} (h : s.takesNow .recordAbandon slot copy) :
    let ch := param copy 8 1
    let c := s.channel ch
    c.state = .stopped → 0 < c.writes →
    ∃ t, exec .recordAbandon s = .next t ∧ sameOuter s t ∧ OrderTaken s t slot copy ∧ Unanswered s t slot ∧
      t.channel ch = { c with state := .closing, closing := .abandon, order := some slot } ∧
      t.store = s.store ∧ t.rating = s.rating ∧ t.lamp = s.lamp ∧
      (∀ k, k ≠ ch → s.stillChannel k → t.channel k = s.channel k) := by
  intro ch c hst hwrites
  obtain ⟨t, e, hx, houter, htaken, ht, he, -, hstage⟩ := order_acts h (by decide)
  have hnot : c.state ≠ .recording := by rw [hst]; exact nofun
  have henter : enterClosing slot ch .abandon (s.acting slot copy) =
      (s.acting slot copy).setChannel ch { c with state := .closing, closing := .abandon, order := some slot } := by
    have hstate : ((s.acting slot copy).channel ch).state ≠ .recording := hnot
    unfold enterClosing
    dsimp only
    rw [if_neg hstate]
    exact rfl
  rw [recordAbandon_acts, if_neg hnot, henter] at ht
  generalize hv : State.setChannel (s.acting slot copy) _ _ = v at ht
  have hvc (k : Nat) : v.channel k = if k = ch then
      { c with state := .closing, closing := .abandon, order := some slot } else s.channel k := by
    rw [← hv]
    exact channel_setChannel ..
  have ht : t = finish (nextSlot (afterWrites ch v)) := ht
  rw [afterWrites_busy (by rw [hvc, if_pos rfl]; exact Nat.ne_of_gt hwrites)] at ht
  have hends := finish_endsAs (nextSlot v)
  rw [← ht] at hends
  have hstore : v.store = s.store := by rw [← acting_store s slot copy, ← hv]; rfl
  have hrating : v.rating = s.rating := by rw [← acting_rating s slot copy, ← hv]; rfl
  have hlamp : v.lamp = s.lamp := by rw [← acting_lamp s slot copy, ← hv]; rfl
  have hlines : v.arbiter.lines = s.arbiter.lines := by rw [← acting_lines s slot copy, ← hv]; rfl
  have hve : v.entryOf slot = some e := by rw [← he, ← hv]; rfl
  have hmute : Mute slot v := by rw [← hv]; exact (acting_mute h.1 slot copy).of_out rfl
  refine ⟨t, hx, houter, htaken, unanswered_of (e := e) ht (hmute.of_out rfl) hlines hve hstage, ?_, hends.store.trans hstore,
    hends.rating.trans hrating, hends.lamp.trans hlamp, fun k hk hs => ?_⟩
  · rw [hends.channels ch (stillChannel_of_state (s := nextSlot v) ((hvc ch).trans (if_pos rfl)) nofun nofun)]
    exact (hvc ch).trans (if_pos rfl)
  · have hk' : (nextSlot v).channel k = s.channel k := (hvc k).trans (if_neg hk)
    rw [hends.channels k (hs.of_eq hk'), hk']

/-- RECORD ABANDON of a RECORDING channel no other take waits behind (R59). -/
theorem recordAbandon_recording {s : State} {slot : Nat} {copy : List Byte} (h : s.takesNow .recordAbandon slot copy) :
    let ch := param copy 8 1
    let c := s.channel ch
    let m := s.message c.index
    let n := c.unwritten
    c.state = .recording → m.state = .recording → (∀ k ∈ s.store.takeLine, k = ch) →
    ∃ t, exec .recordAbandon s = .next t ∧ sameOuter s t ∧ OrderTaken s t slot copy ∧
      (t.channel ch).buffer0 = (if c.buffer0.unwritten then {} else c.buffer0) ∧
      (t.channel ch).buffer1 = (if c.buffer1.unwritten then {} else c.buffer1) ∧
      (t.channel ch).waitingBlock = none ∧ (t.channel ch).writes = c.writes ∧ ch ∉ t.store.takeLine ∧
      (t.message c.index).length = c.position ∧ (t.message c.index).blocks = m.blocks - n ∧
      t.freeCount = s.freeCount + n ∧ (s.headWaits → t.arbiter.lines.get .voice = s.arbiter.lines.get .voice) ∧
      (∀ j, j ≠ c.index → t.message j = s.message j) ∧ (∀ q, q ≠ m.room → t.mailbox q = s.mailbox q) ∧
      (∀ k, k ≠ ch → s.stillChannel k → t.channel k = s.channel k) ∧ t.rating = s.rating ∧ t.lamp = s.lamp ∧
      (0 < c.writes → (t.channel ch).state = .closing ∧ (t.channel ch).closing = .abandon ∧
        (t.channel ch).order = some slot ∧ (t.message c.index).state = m.state ∧ Unanswered s t slot) ∧
      (c.writes = 0 → c.release = .none → m.readers = 0 →
        (m.blocks = n → (t.message c.index).state = .free ∧ (t.channel ch).state = .free ∧
          Answered s t slot copy .done false []) ∧
        (n < m.blocks → s.grantsAtOnce 1 = true → (t.message c.index).state = .deleting ∧
          t.store.releaseQueue = s.store.releaseQueue ++ [⟨m.first, m.blocks - n, c.index, .channel ch⟩] ∧
          (t.channel ch).state = .closing ∧ Unanswered s t slot) ∧
        (n < m.blocks → s.grantsAtOnce 1 = false → (t.message c.index).state = .recording ∧
          t.store.releaseLine = s.store.releaseLine ++ [⟨.channel ch, 1⟩] ∧
          (t.channel ch).state = .closing ∧ Unanswered s t slot)) := by
  intro ch c m n hst hrec htake
  obtain ⟨t, e, hx, houter, htaken, ht, he, hcopy, hstage⟩ := order_acts h (by decide)
  have hv := enters (slot := slot) (ch := ch) .abandon copy h.1 hst
  rw [recordAbandon_acts, if_pos hst] at ht
  have ht : t = finish (nextSlot (afterWrites ch (dropUnwritten ch (enterClosing slot ch .abandon (s.acting slot copy))))) := ht
  generalize enterClosing slot ch .abandon (s.acting slot copy) = v at hv ht
  obtain ⟨-, hrating, hlamp, hcontrol, hhost, hlines, hline, -, -, hqueue, hrline, hcount⟩ := hv.same
  obtain ⟨hdrops, hxc⟩ := dropUnwritten_drops (s := v) ch (by rw [hline]; exact htake)
  have hvm : v.message c.index = { m with length := c.position } := (hv.message _).trans (if_pos rfl)
  rw [hv.channel] at hdrops hxc
  have hn : (c.entering slot .abandon).unwritten = n := rfl
  rw [hn] at hdrops
  generalize dropUnwritten ch v = x at hdrops hxc ht
  obtain ⟨⟨vo, ms, bs, mk, sl, po, pu, o, hxr⟩, htold, hxadds, -, ⟨f, hxm, hf⟩, hxms, hxrooms, hxch, hxcount⟩ := hdrops
  have hvi : (State.channel { v with store.takeLine := [] } ch).index = c.index := by
    show (v.channel ch).index = _
    rw [hv.channel]
    rfl
  have hv0 (j : Nat) : State.message { v with store.takeLine := [] } j = v.message j := rfl
  have hv0b (q : Nat) : State.mailbox { v with store.takeLine := [] } q = v.mailbox q := rfl
  rw [hvi] at hxadds hxm hf hxms hxrooms
  simp only [hv0, hv0b, hvm] at hxm hf hxms hxrooms
  generalize hd : (c.entering slot .abandon).emptied = d at hxc
  have hdi : d.index = c.index := by rw [← hd]; rfl
  have hdw : d.writes = c.writes := by rw [← hd]; rfl
  have hds : d.state = .closing := by rw [← hd]; rfl
  have hdr : d.release = c.release := by rw [← hd]; rfl
  have hdo : d.order = some slot := by rw [← hd]; rfl
  have hxrec : (x.message c.index).state = .recording := by rw [hxm]; exact hrec
  have hdir : d.dir = .record := by
    have href : recordEndRefusal copy s = none := h.2.2.2.1
    rw [← hd]
    unfold recordEndRefusal at href
    dsimp only at href
    split at href
    · cases href
    · split at href
      next hd => exact hd.1
      · cases href
  -- what hangs on the writes
  have htrails : Releases x (afterWrites ch x) ch := by
    by_cases hw : c.writes = 0
    · rw [afterWrites_abandons (by rw [hxc]; exact hdir) (by rw [hxc]; exact hdw.trans hw) (by rw [hxc]; exact hds)
        (by rw [hxc, ← hd]; rfl)]
      exact closeByRelease_trails .done fun _ => by rw [hxc, hdi]; exact hxrec
    · rw [afterWrites_busy (by rw [hxc, hdw]; exact hw)]
      exact .refl ..
  have hxlines : x.arbiter.lines = s.arbiter.lines := by rw [hxr]; exact hlines
  have hxprofile : x.profile = s.profile := by rw [hxr]; exact hv.profile
  have hxe : x.entryOf slot = some e := by rw [← hv.entry he, hxr]; rfl
  have hxmute : Mute slot x := hxadds.mute (fun y hy => by rw [hy]; exact Source.noConfusion) (hv.mute h.1)
  have hends := finish_endsAs (nextSlot (afterWrites ch x))
  rw [← ht] at hends
  obtain ⟨⟨vo', ms', bs', mk', fr', rq', rl', wk', ri', o', hz⟩, -, hzms, hzrooms, hzch, ⟨hown, hstate⟩, ⟨st, nx, hzm⟩, -, hzadds⟩ :=
    htrails
  have hbusy (hw : 0 < c.writes) : afterWrites ch x = x := afterWrites_busy (by rw [hxc, hdw]; exact Nat.ne_of_gt hw)
  have hidle (hw : c.writes = 0) (hr : c.release = .none) (hread : m.readers = 0) :
      CloseRefused x t ch slot e.copy d .done := by
    have hab := afterWrites_abandons (s := x) (ch := ch) (by rw [hxc]; exact hdir) (by rw [hxc]; exact hdw.trans hw)
      (by rw [hxc]; exact hds) (by rw [hxc, ← hd]; rfl)
    exact close_refused (ending_self hxc) hds hdo hxe hstage hxmute (fun _ => by rw [hdi]; exact hxrec)
      (by rw [hab]; exact .nextSlot _) ht
  generalize afterWrites ch x = z at ht hends hz hzms hzrooms hzch hown hstate hzm hzadds hbusy
  rw [hxc] at hown hstate
  rw [hxc, hdi] at hzm hzms hzadds hzrooms
  obtain ⟨hb0, hb1, hwb, hwr⟩ := progress_fields hown
  have htc : t.channel ch = z.channel ch := by
    refine hends.channels ch (stillChannel_of_state (s := nextSlot z) rfl ?_ ?_)
    · rcases hstate with hs | hs
      · rw [show ((nextSlot z).channel ch).state = _ from hs, hds]; exact nofun
      · rw [show ((nextSlot z).channel ch).state = _ from hs]; exact nofun
    · rcases hstate with hs | hs
      · rw [show ((nextSlot z).channel ch).state = _ from hs, hds]; exact nofun
      · rw [show ((nextSlot z).channel ch).state = _ from hs]; exact nofun
  have htm (j : Nat) : t.message j = z.message j := hends.message j
  have hzstore : t.store = z.store := hends.store
  have hxm' : x.message c.index = { m with length := c.position, blocks := m.blocks - n, first := f } := hxm
  have hgrants (k : Nat) : x.grantsAtOnce k = s.grantsAtOnce k := by
    unfold State.grantsAtOnce State.freePlaces
    rw [hxr, ← hqueue, ← hrline]
  refine ⟨t, hx, houter, htaken, ?_, ?_, ?_, ?_, ?_, ?_, ?_, ?_, fun hwaits => ?_, fun j hj => ?_, fun q hq => ?_,
    fun k hk hs => ?_, ?_, ?_, fun hw => ?_, fun hw hr hread => ⟨fun hb => ?_, fun hb hg => ?_, fun hb hg => ?_⟩⟩
  · rw [htc, hb0, ← hd]
    rfl
  · rw [htc, hb1, ← hd]
    rfl
  · rw [htc, hwb, ← hd]
    rfl
  · rw [htc, hwr, hdw]
  · rw [hzstore, hz, hxr]
    exact List.not_mem_nil
  · rw [htm, hzm, hxm']
  · rw [htm, hzm, hxm']
  · rw [freeCount_congr hends.store hends.control, ← hcount, hz]
    exact hxcount
  · rw [ht, finish_idle]
    · rw [← hxlines, hz]
      rfl
    · intro r hm
      have hall : Adds (fun y => y = .record c.index ∨ y = .walkHeader ∨ ∃ slot, y = .completion slot) (s.acting slot copy) z := by
        refine ((hv.adds.mono fun _ hy => .inl hy).trans (hxadds.mono fun _ hy => .inl hy)).trans (hzadds.mono fun y hy => ?_)
        rcases hy with (hy | hy) | hy
        · exact .inl hy
        · exact .inr (.inl hy)
        · exact .inr (.inr hy)
      obtain ⟨rs, hrs, hp⟩ := hall
      have hm : r ∈ z.out.requests := hm
      rw [hrs] at hm
      obtain hm | hm := List.mem_append.mp hm
      · rw [show (s.acting slot copy).out.requests = s.out.requests ++ [executingWrite s slot copy] from rfl, h.1] at hm
        rw [List.mem_singleton.mp hm]
        exact nofun
      · rcases hp r hm with hy | hy | ⟨k, hy⟩ <;> rw [hy] <;> exact nofun
    · have hzh : (nextSlot z).host = s.host := by
        rw [← hhost]
        show z.host = v.host
        rw [hz, hxr]
      unfold State.headWaits at hwaits ⊢
      rw [hzh]
      exact hwaits
  · rw [htm, hzms j hj, hxms j hj, hv.message, if_neg hj]
  · have hroom : (x.message c.index).room = m.room := by rw [hxm']
    rw [hends.mailbox]
    refine (hzrooms q (by rw [hroom]; exact hq)).trans ((hxrooms q hq).trans ?_)
    exact mailbox_congr (by rw [hv.same.2.2.2.2.2.2.2.2.1]) q
  · have hk' : (nextSlot z).channel k = s.channel k :=
      (hzch k hk).trans ((hxch k hk).trans ((hv.channels k).trans (if_neg hk)))
    rw [hends.channels k (hs.of_eq hk'), hk']
  · rw [hends.rating, ← hrating]
    show z.rating = _
    rw [hz, hxr]
  · rw [hends.lamp, ← hlamp]
    show z.lamp = _
    rw [hz, hxr]
  · have hzx := hbusy hw
    rw [htc, htm, hzx, hxc, hxm', ← hd]
    refine ⟨rfl, rfl, rfl, rfl, unanswered_of (e := e) ht (by rw [hzx]; exact hxmute.of_out rfl)
      (by rw [hzx]; exact hxlines) (by rw [hzx]; exact hxe) hstage⟩
  · obtain ⟨hfree, -, -⟩ := (hidle hw hr hread).fresh (hdr.trans hr) (by rw [hdi, hxm']; exact hread)
    obtain ⟨hc, hm, -, -, hg⟩ := hfree (by rw [hdi, hxm']; exact Nat.sub_eq_zero_of_le hb.le)
    rw [hdi] at hm
    rw [hcopy] at hg
    exact ⟨by rw [hm], by rw [hc], answered_of_grew htaken hxlines hxprofile hg⟩
  · obtain ⟨-, hqueues, -⟩ := (hidle hw hr hread).fresh (hdr.trans hr) (by rw [hdi, hxm']; exact hread)
    obtain ⟨hc, hm, -, hq, hun⟩ := hqueues (by rw [hdi, hxm']; exact Nat.sub_pos_of_lt hb) (by rw [hgrants]; exact hg)
    rw [hdi, hxm'] at hq
    rw [hdi] at hm
    refine ⟨by rw [hm], ?_, by rw [hc]; exact hds, unanswered_congr hxlines hun⟩
    have hxq : x.store.releaseQueue = s.store.releaseQueue := by rw [hxr]; exact hqueue
    rw [hq, hxq, hf hb]
  · obtain ⟨-, -, hasks⟩ := (hidle hw hr hread).fresh (hdr.trans hr) (by rw [hdi, hxm']; exact hread)
    obtain ⟨hc, hs, hun⟩ := hasks (by rw [hdi, hxm']; exact Nat.sub_pos_of_lt hb) (by rw [hgrants]; exact hg)
    refine ⟨?_, ?_, by rw [hc]; exact hds, unanswered_congr hxlines hun⟩
    · rw [message_congr (s := x) (t := t) (by rw [hs]) c.index]
      exact hxrec
    · have hxl : x.store.releaseLine = s.store.releaseLine := by rw [hxr]; exact hrline
      rw [hs, hxl]

/-! ### RECORD CLOSE with a block that holds no sample (R58) -/

/-- The block that RECORD CLOSE returns, and the channel then. -/
theorem closeBlocks_returns {v : State} {ch b : Nat} {second : Bool} {d : Channel}
    (hfull : (v.channel ch).bufferIn .full = none)
    (h : ((v.channel ch).bufferIn .filling = some second ∧ (v.channel ch).sampleCount = 0 ∧
        b = ((v.channel ch).buffer second).block ∧ d = (v.channel ch).setBuffer second {}) ∨
      ((v.channel ch).bufferIn .filling = none ∧ (v.channel ch).waitingBlock = some b ∧
        d = { v.channel ch with waitingBlock := none })) :
    closeBlocks ch v = returnEmpty ch b (v.setChannel ch d) := by
  unfold closeBlocks
  dsimp only
  rw [hfull]
  dsimp only
  obtain ⟨hfill, hcount, rfl, rfl⟩ | ⟨hfill, hwait, rfl⟩ := h
  · rw [hfill]
    dsimp only
    rw [if_neg (by omega)]
  · rw [hfill]
    dsimp only
    rw [hwait]

/-- The header patch of the block closed last (R55, R58). -/
theorem patchLast_eq {s : State} {ch last : Nat} {header : List Byte} (h : (s.channel ch).lastBlock = some (last, header)) :
    patchLast ch s = raise { source := .headerPatch ch, write := true, addr := s.profile.storeBase + 512 * last, beats := 1
                             lanes := allLanes (patchedHeader header) }
      (s.setChannel ch { s.channel ch with writes := (s.channel ch).writes + 1, lastBlock := some (last, patchedHeader header) }) := by
  unfold patchLast
  dsimp only
  rw [h]
  exact rfl

theorem patchLast_channel {s : State} {ch last : Nat} {header : List Byte} (h : (s.channel ch).lastBlock = some (last, header)) :
    (patchLast ch s).channel ch =
      { s.channel ch with writes := (s.channel ch).writes + 1, lastBlock := some (last, patchedHeader header) } := by
  rw [patchLast_eq h]
  exact (channel_setChannel ..).trans (if_pos rfl)

/-- From `x` to `y` the header patch of channel `ch` has been raised, where there is a block to patch. -/
structure Patches (x y : State) (ch : Nat) : Prop where
  store    : y.store = x.store
  same     : y.ring = x.ring ∧ y.rating = x.rating ∧ y.lamp = x.lamp ∧ y.control = x.control ∧
    y.arbiter.lines = x.arbiter.lines
  channels : ∀ k, k ≠ ch → y.channel k = x.channel k
  adds     : Adds (· = .headerPatch ch) x y

theorem patchLast_patches (ch : Nat) (x : State) : Patches x (patchLast ch x) ch := by
  cases hl : (x.channel ch).lastBlock with
  | none =>
    have he : patchLast ch x = x := by
      unfold patchLast
      dsimp only
      rw [hl]
    rw [he]
    exact ⟨rfl, ⟨rfl, rfl, rfl, rfl, rfl⟩, fun _ _ => rfl, .of_same rfl⟩
  | some p =>
    rw [patchLast_eq (show _ = some (p.1, p.2) from hl)]
    exact ⟨rfl, ⟨rfl, rfl, rfl, rfl, rfl⟩, fun k hk => (channel_setChannel ..).trans (if_neg hk),
      ⟨_, rfl, fun r hm => by rw [List.mem_singleton.mp hm]⟩⟩

/-- From `x` to `z` the end of the recording of channel `ch` has moved no block. -/
structure Carries (x z : State) (ch : Nat) : Prop where
  count    : z.freeCount = x.freeCount
  pocket   : z.store.pocket = x.store.pocket
  message  : ∃ st nx, z.message (x.channel ch).index = { x.message (x.channel ch).index with state := st, next := nx }
  used     : ∀ q, (z.mailbox q).blocksUsed = (x.mailbox q).blocksUsed
  messages : ∀ j, j ≠ (x.channel ch).index → z.message j = x.message j
  rooms    : ∀ q, q ≠ (x.message (x.channel ch).index).room → z.mailbox q = x.mailbox q
  channels : ∀ k, k ≠ ch → z.channel k = x.channel k
  rating   : z.rating = x.rating
  lamp     : z.lamp = x.lamp

theorem Releases.carries {x z : State} {ch : Nat} (h : Releases x z ch) : Carries x z ch := by
  obtain ⟨⟨vo, ms, bs, mk, fr, rq, rl, wk, ri, o, hz⟩, -, hm, hr, hc, -, hi, hu, -⟩ := h
  exact ⟨by rw [hz]; rfl, by rw [hz], hi, hu, hm, hr, hc, by rw [hz], by rw [hz]⟩

theorem Patches.carries {x y : State} {ch : Nat} (h : Patches x y ch) : Carries x y ch := by
  obtain ⟨hs, ⟨-, hr, hl, hc, -⟩, hch, -⟩ := h
  have hm (j : Nat) : y.message j = x.message j := message_congr (by rw [hs]) j
  have hb (q : Nat) : y.mailbox q = x.mailbox q := mailbox_congr (by rw [hs]) q
  exact ⟨freeCount_congr hs hc, by rw [hs], ⟨_, _, hm _⟩, fun q => by rw [hb], fun j _ => hm j, fun q _ => hb q, hch, hr, hl⟩

/-- RECORD CLOSE of a RECORDING channel whose taken block holds no sample (R58). -/
theorem recordClose_returns {s : State} {slot b : Nat} {copy : List Byte} {second : Bool} {d : Channel}
    (h : s.takesNow .recordClose slot copy) :
    let ch := param copy 8 1
    let c := s.channel ch
    let m := s.message c.index
    c.state = .recording → s.store.takeLine = [] → c.bufferIn .full = none →
    (1 < m.blocks ∧ c.lastBlock ≠ none) ∨ (m.blocks ≤ 1 ∧ 0 < c.writes) ∨
      (m.blocks ≤ 1 ∧ c.writes = 0 ∧ c.stopReason ≠ .checkedOut ∧ c.checkedOut = false ∧ c.position = 0 ∧
        c.release = .none ∧ m.state = .recording ∧ m.readers = 0) →
    (c.bufferIn .filling = some second ∧ c.sampleCount = 0 ∧ b = (c.buffer second).block ∧
        d = { c.setBuffer second {} with state := .closing, closing := .close, order := some slot }) ∨
      (c.bufferIn .filling = none ∧ c.waitingBlock = some b ∧
        d = { c with waitingBlock := none, state := .closing, closing := .close, order := some slot }) →
    ∃ t, exec .recordClose s = .next t ∧ sameOuter s t ∧ OrderTaken s t slot copy ∧
      (t.message c.index).length = c.position ∧ (t.message c.index).blocks = m.blocks - 1 ∧
      (t.message c.index).first = (if m.blocks ≤ 1 then none32 else m.first) ∧
      t.freeCount = s.freeCount + 1 ∧
      (s.store.pocket.length < 16 → t.store.pocket = .ready b :: s.store.pocket) ∧
      (t.mailbox m.room).blocksUsed = (s.mailbox m.room).blocksUsed - 1 ∧
      (∀ j, j ≠ c.index → t.message j = s.message j) ∧ (∀ q, q ≠ m.room → t.mailbox q = s.mailbox q) ∧
      (∀ k, k ≠ ch → s.stillChannel k → t.channel k = s.channel k) ∧ t.rating = s.rating ∧ t.lamp = s.lamp ∧
      (∀ last header, 1 < m.blocks → c.lastBlock = some (last, header) →
        t.channel ch = { d with writes := c.writes + 1, lastBlock := some (last, patchedHeader header) } ∧
        lineGrew s t .voice [{ source := .headerPatch ch, write := true, addr := s.profile.storeBase + 512 * last
                               beats := 1, lanes := allLanes (patchedHeader header) }] ∧
        (t.message c.index).state = m.state ∧ Unanswered s t slot) ∧
      (m.blocks ≤ 1 → 0 < c.writes →
        t.channel ch = d ∧ (t.message c.index).state = m.state ∧ Unanswered s t slot) ∧
      (m.blocks ≤ 1 → c.writes = 0 →
        (t.channel ch).state = .free ∧ (t.channel ch).order = none ∧ (t.message c.index).state = .free ∧
        (t.mailbox m.room).places = (s.mailbox m.room).places - 1 ∧
        Answered s t slot copy .tooShort false []) := by
  intro ch c m hst htake hfull hcases hblock
  obtain ⟨t, e, hx, houter, htaken, ht, he, hcopy, hstage⟩ := order_acts h (by decide)
  have hv := enters (slot := slot) (ch := ch) .close copy h.1 hst
  have hact : orderAct .recordClose slot copy (s.acting slot copy) =
      afterWrites ch (closeBlocks ch (enterClosing slot ch .close (s.acting slot copy))) := by
    show recordCloseAct slot copy (s.acting slot copy) = _
    have hstate : ((s.acting slot copy).channel ch).state = .recording := hst
    unfold recordCloseAct
    dsimp only
    rw [if_pos hstate]
  rw [hact] at ht
  generalize enterClosing slot ch .close (s.acting slot copy) = v at hv ht
  obtain ⟨-, hrating, hlamp, -, -, hlines, hline, hpocket, hboxes, -, -, hcount⟩ := hv.same
  have hvb (q : Nat) : v.mailbox q = s.mailbox q := mailbox_congr (by rw [hboxes]) q
  have hvc := hv.channel
  have hvm : v.message c.index = { m with length := c.position } := (hv.message _).trans (if_pos rfl)
  have hd : ∃ c' : Channel, d = c'.entering slot .close ∧ c'.index = c.index ∧ c'.dir = c.dir ∧ c'.writes = c.writes ∧
      c'.stopReason = c.stopReason ∧ c'.checkedOut = c.checkedOut ∧ c'.release = c.release ∧ c'.lastBlock = c.lastBlock := by
    obtain ⟨-, -, -, rfl⟩ | ⟨-, -, rfl⟩ := hblock
    · refine ⟨c.setBuffer second {}, rfl, ?_⟩
      cases second <;> exact ⟨rfl, rfl, rfl, rfl, rfl, rfl, rfl⟩
    · exact ⟨{ c with waitingBlock := none }, rfl, rfl, rfl, rfl, rfl, rfl, rfl, rfl⟩
  have hclose : closeBlocks ch v = returnEmpty ch b (v.setChannel ch d) := by
    refine closeBlocks_returns (second := second) (by rw [hvc]; exact hfull) ?_
    rw [hvc]
    refine hblock.imp (fun ⟨h1, h2, h3, h4⟩ => ⟨h1, h2, h3, h4.trans ?_⟩) fun ⟨h1, h2, h3⟩ => ⟨h1, h2, h3⟩
    cases second <;> exact rfl
  rw [hclose] at ht
  obtain ⟨c', hdc, hi', hdir', hw', hreason', hmark', hrel', hlast'⟩ := hd
  have hdi : d.index = c.index := by rw [hdc]; exact hi'
  have hdw : d.writes = c.writes := by rw [hdc]; exact hw'
  have hds : d.state = .closing := by rw [hdc]; rfl
  have hdk : d.closing = .close := by rw [hdc]; rfl
  have hdo : d.order = some slot := by rw [hdc]; rfl
  have hdl : d.lastBlock = c.lastBlock := by rw [hdc]; exact hlast'
  have hdr : d.release = c.release := by rw [hdc]; exact hrel'
  have hdreason : d.stopReason = c.stopReason := by rw [hdc]; exact hreason'
  have hdmark : d.checkedOut = c.checkedOut := by rw [hdc]; exact hmark'
  have hdir : d.dir = .record := by
    have href : recordEndRefusal copy s = none := h.2.2.2.1
    rw [hdc]
    refine hdir'.trans ?_
    unfold recordEndRefusal at href
    dsimp only at href
    split at href
    · cases href
    · split at href
      next hd => exact hd.1
      · cases href
  unfold returnEmpty at ht
  dsimp only at ht
  generalize hu : v.setChannel ch d = u at ht
  have huc (k : Nat) : u.channel k = if k = ch then d else v.channel k := by rw [← hu, channel_setChannel]
  have hum (j : Nat) : u.message j = v.message j := by rw [← hu]; rfl
  have hub (q : Nat) : u.mailbox q = v.mailbox q := by rw [← hu]; rfl
  have hret := returnBlock_returns (s := u) ch b (by rw [← hu]; exact hline.trans htake)
  rw [huc, if_pos rfl, hdi] at hret
  generalize returnBlock ch b u = x at hret ht
  obtain ⟨⟨ms, bs, mk, sl, o, hxr⟩, -, ⟨rs, hrs, hall⟩, hxm, hxb, hxcount⟩ := hret
  simp only [hum, hub, hvm, hvb] at hxm hxb
  have hxc (k : Nat) : x.channel k = if k = ch then d else v.channel k := by
    rw [← huc, hxr]
    rfl
  have hxch : x.channel ch = d := (hxc ch).trans (if_pos rfl)
  have hxadds : Adds (· = .record c.index) v x := ⟨rs, by rw [hrs, ← hu]; rfl, hall⟩
  have hxlines : x.arbiter.lines = s.arbiter.lines := by rw [hxr, ← hu]; exact hlines
  have hxring : x.ring = v.ring := by rw [hxr, ← hu]; rfl
  have hxprofile : x.profile = s.profile := by rw [hxr, ← hu]; exact hv.profile
  have hxpocket : s.store.pocket.length < 16 → x.store.pocket = .ready b :: s.store.pocket := fun hl => by
    rw [hxr]
    have hup : u.store.pocket = s.store.pocket := by rw [← hu]; exact hpocket
    rw [hup]
    exact if_pos hl
  have hxfree : x.freeCount = s.freeCount + 1 := by rw [hxcount, ← hcount, ← hu]; rfl
  have hxi := (hxm c.index).trans (if_pos rfl)
  have hxrating : x.rating = s.rating := by rw [hxr, ← hu]; exact hrating
  have hxlamp : x.lamp = s.lamp := by rw [hxr, ← hu]; exact hlamp
  have hxe : x.entryOf slot = some e := by
    rw [← hv.entry he]
    unfold State.entryOf
    rw [hxring]
  have hxmute : Mute slot x := hxadds.mute (fun y hy => by rw [hy]; exact Source.noConfusion) (hv.mute h.1)
  have hxms (j : Nat) (hj : j ≠ c.index) : x.message j = s.message j := by
    rw [hxm, if_neg hj, hv.message, if_neg hj]
  -- what is still written, and what hangs on the writes
  have hblocks : (x.message (x.channel ch).index).blocks = m.blocks - 1 := by rw [hxch, hdi, hxi]
  rw [hblocks] at ht
  have hpatch : 1 < m.blocks → t = finish (nextSlot (patchLast ch x)) := by
    intro hb
    rw [if_neg (by omega)] at ht
    have hlast : c.lastBlock ≠ none := by
      obtain ⟨-, hl⟩ | ⟨hb', -⟩ | ⟨hb', -⟩ := hcases
      · exact hl
      · omega
      · omega
    obtain ⟨⟨last, header⟩, hl⟩ := Option.ne_none_iff_exists'.mp hlast
    rwa [afterWrites_busy] at ht
    rw [patchLast_channel (last := last) (header := header) (by rw [hxch, hdl, hl])]
    exact Nat.succ_ne_zero _
  have hwaits : m.blocks ≤ 1 → 0 < c.writes → t = finish (nextSlot x) := by
    intro hb hw
    rw [if_pos (by omega), afterWrites_busy (by rw [hxch, hdw]; exact Nat.ne_of_gt hw)] at ht
    exact ht
  have hrefuses : m.blocks ≤ 1 → c.writes = 0 → (x.message d.index).state = .recording ∧ m.readers = 0 ∧ d.release = .none ∧
      t = finish (nextSlot (closeByRelease ch .tooShort x)) := by
    intro hb hw
    obtain ⟨hb', -⟩ | ⟨-, hw'⟩ | ⟨-, -, hreason, hmark, hpos, hrel, hrec, hread⟩ := hcases
    · omega
    · omega
    have hmeets : x.closeMeets d .tooShort :=
      .inr (.inl ⟨by rw [hdreason]; exact hreason, by rw [hdmark]; exact hmark, .inl (by rw [hdi, hxi]; exact hpos), rfl⟩)
    rw [if_pos (by omega), afterWrites_refuses (by rw [hxch]; exact hdir) (by rw [hxch]; exact hdw.trans hw)
      (by rw [hxch]; exact hds) (by rw [hxch]; exact hdk) ((ending_self hxch).meets hmeets)] at ht
    exact ⟨by rw [hdi, hxi]; exact hrec, hread, hdr.trans hrel, ht⟩
  obtain ⟨z, hz, hcarries⟩ : ∃ z, t = finish (nextSlot z) ∧ Carries x z ch := by
    by_cases hb : 1 < m.blocks
    · exact ⟨_, hpatch hb, (patchLast_patches ch x).carries⟩
    by_cases hw : 0 < c.writes
    · exact ⟨x, hwaits (by omega) hw, (Releases.refl x ch).carries⟩
    · obtain ⟨hrec, -, -, hz⟩ := hrefuses (by omega) (by omega)
      exact ⟨_, hz, (closeByRelease_trails .tooShort fun _ => by rw [hxch]; exact hrec).carries⟩
  obtain ⟨hzcount, hzpocket, ⟨st, nx, hzm⟩, hzused, hzms, hzrooms, hzch, hzrating, hzlamp⟩ := hcarries
  rw [hxch, hdi] at hzm hzms hzrooms
  have hends := finish_endsAs (nextSlot z)
  rw [← hz] at hends
  refine ⟨t, hx, houter, htaken, ?_, ?_, ?_, ?_, fun hl => ?_, ?_, fun j hj => ?_, fun q hq => ?_, fun k hk hs => ?_, ?_, ?_,
    fun last header hb hl => ?_, fun hb hw => ?_, fun hb hw => ?_⟩
  · rw [hends.message]
    exact (congrArg Message.length hzm).trans (by rw [hxi])
  · rw [hends.message]
    exact (congrArg Message.blocks hzm).trans (by rw [hxi])
  · rw [hends.message]
    refine (congrArg Message.first hzm).trans ?_
    rw [hxi]
    by_cases hb : m.blocks ≤ 1
    · exact (if_pos (by omega)).trans (if_pos hb).symm
    · exact (if_neg (by omega)).trans (if_neg hb).symm
  · rw [freeCount_congr hends.store hends.control]
    exact hzcount.trans hxfree
  · rw [hends.store]
    exact hzpocket.trans (hxpocket hl)
  · rw [hends.mailbox]
    exact (hzused m.room).trans (by rw [hxb, if_pos rfl])
  · rw [hends.message]
    exact (hzms j hj).trans (hxms j hj)
  · rw [hends.mailbox]
    exact (hzrooms q (by rw [hxi]; exact hq)).trans (by rw [hxb, if_neg hq])
  · have hk' : (nextSlot z).channel k = s.channel k :=
      (hzch k hk).trans ((hxc k).trans ((if_neg hk).trans ((hv.channels k).trans (if_neg hk))))
    rw [hends.channels k (hs.of_eq hk'), hk']
  · exact hends.rating.trans (hzrating.trans hxrating)
  · exact hends.lamp.trans (hzlamp.trans hxlamp)
  · have ht := hpatch hb
    have hp := patchLast_patches ch x
    have hpe := patchLast_eq (s := x) (ch := ch) (last := last) (header := header) (by rw [hxch, hdl, hl])
    rw [hxch, hxprofile, hdw] at hpe
    generalize patchLast ch x = y at ht hp hpe
    have hends := finish_endsAs (nextSlot y)
    rw [← ht] at hends
    have hyc : y.channel ch = { d with writes := c.writes + 1, lastBlock := some (last, patchedHeader header) } := by
      rw [hpe]
      exact (channel_setChannel ..).trans (if_pos rfl)
    have hylines : y.arbiter.lines = s.arbiter.lines := hp.same.2.2.2.2.trans hxlines
    refine ⟨?_, lineGrew_of_ends hends hylines fun r hm => ?_, ?_, unanswered_of (e := e) ht ?_ hylines ?_ hstage⟩
    · rw [hends.channels ch (stillChannel_of_state (s := nextSlot y) hyc (by rw [hds]; exact nofun) (by rw [hds]; exact nofun))]
      exact hyc
    · rw [List.mem_singleton.mp hm]
      refine ⟨?_, rfl⟩
      show _ ∈ y.out.requests
      rw [hpe]
      exact List.mem_append_right _ (List.mem_singleton.mpr rfl)
    · rw [hends.message]
      have hym : y.message c.index = x.message c.index := message_congr (by rw [hp.store]) _
      exact (congrArg Message.state hym).trans (by rw [hxi])
    · exact (hp.adds.mute (fun a ha => by rw [ha]; exact Source.noConfusion) hxmute).of_out rfl
    · show y.entryOf slot = _
      rw [← hxe]
      unfold State.entryOf
      rw [hp.same.1]
  · have ht := hwaits hb hw
    have hends := finish_endsAs (nextSlot x)
    rw [← ht] at hends
    refine ⟨?_, ?_, unanswered_of (e := e) ht (hxmute.of_out rfl) hxlines hxe hstage⟩
    · rw [hends.channels ch (stillChannel_of_state (s := nextSlot x) hxch (by rw [hds]; exact nofun) (by rw [hds]; exact nofun))]
      exact hxch
    · rw [hends.message]
      exact (congrArg Message.state hxi : _)
  · obtain ⟨hrec, hread, hrel, ht⟩ := hrefuses hb hw
    have hrefused := close_refused (ending_self hxch) hds hdo hxe hstage hxmute (fun _ => hrec) (.nextSlot _) ht
    obtain ⟨hfree, -, -⟩ := hrefused.fresh hrel (by rw [hdi, hxi]; exact hread)
    obtain ⟨hc, hm, -, hplaces, hg⟩ := hfree (by rw [hdi, hxi]; exact Nat.sub_eq_zero_of_le hb)
    rw [hdi] at hm hplaces
    rw [hxi] at hplaces
    rw [hcopy] at hg
    refine ⟨by rw [hc], by rw [hc], by rw [hm], ?_, answered_of_grew htaken hxlines hxprofile hg⟩
    refine hplaces.trans ?_
    rw [hxb, if_pos rfl]

/-- (2) of O51: the last write of an abandoned recording starts the release. -/
theorem abandoned_writes_end {s : State} {ch k slot : Nat} {second : Bool} {ret : Returned} {e : InFlight} (ho : s.out = {})
    (hr : s.returnOf Source.isBlockWrite = some ret) (hsrc : ret.source = .blockWrite ch second k) :
    let c := s.channel ch
    let m := s.message c.index
    c.dir = .record → c.state = .closing → c.closing = .abandon → c.writes = 1 → c.waitingBlock = none →
    c.release = .none → c.order = some slot → s.entryOf slot = some e → e.stage = .executing →
    m.state = .recording → m.readers = 0 → 0 < m.blocks → s.grantsAtOnce 1 = true →
    ∃ t, exec .blockWriteFinish s = .next t ∧ sameOuter s t ∧ Unanswered s t slot ∧
      t.channel ch = { c.setBuffer second {} with writes := 0, verdict := .done, release := .queued } ∧
      t.message c.index = { m with state := .deleting } ∧
      t.store.releaseQueue = s.store.releaseQueue ++ [⟨m.first, m.blocks, c.index, .channel ch⟩] ∧
      (∀ j, j ≠ c.index → t.message j = s.message j) ∧ t.ring = s.ring ∧ t.rating = s.rating := by
  intro c m hdir hst hk hwrites hwait hrel horder he hstage hrec hread hb hg
  obtain ⟨v, hv, hring, hout, houter, hx⟩ := lastWrite_ends (cmd := .blockWriteFinish) (ch := ch)
    (d := { c.setBuffer second {} with writes := 0 }) ho ⟨hwrites, .inr ⟨rfl, hwait, ret, second, k, hr, hsrc, rfl⟩⟩
  have hfields : ∀ q : Channel, (q.setBuffer second {}).dir = q.dir ∧ (q.setBuffer second {}).state = q.state ∧
      (q.setBuffer second {}).closing = q.closing ∧ (q.setBuffer second {}).release = q.release ∧
      (q.setBuffer second {}).order = q.order ∧ (q.setBuffer second {}).index = q.index := fun q => by
    cases second <;> exact ⟨rfl, rfl, rfl, rfl, rfl, rfl⟩
  obtain ⟨hd1, hd2, hd3, hd4, hd5, hd6⟩ := hfields c
  generalize hd : ({ c.setBuffer second {} with writes := 0 } : Channel) = d at hv
  have hdi : d.index = c.index := by rw [← hd]; exact hd6
  have hds : d.state = .closing := by rw [← hd]; exact hd2.trans hst
  have hdr : d.release = .none := by rw [← hd]; exact hd4.trans hrel
  have hdw : d.writes = 0 := by rw [← hd]
  have hdd : d.dir = .record := by rw [← hd]; exact hd1.trans hdir
  have hdk : d.closing = .abandon := by rw [← hd]; exact hd3.trans hk
  have hdo : d.order = some slot := by rw [← hd]; exact hd5.trans horder
  have hc := hv.channel
  rw [afterWrites_abandons (by rw [hc]; exact hdd) (by rw [hc]; exact hdw) (by rw [hc]; exact hds) (by rw [hc]; exact hdk)] at hx
  have hmute : Mute slot v := by
    unfold Mute
    rw [hout]
    exact nofun
  have hve : v.entryOf slot = some e := by rw [← he]; unfold State.entryOf; rw [hring]
  have hrefused := close_refused (st := .done) hv hds hdo hve hstage hmute (fun _ => by rw [hdi]; exact hrec) (.refl _) rfl
  obtain ⟨-, hqueues, -⟩ := hrefused.fresh hdr (by rw [hdi]; exact hread)
  obtain ⟨hch, hm, -, hq, hun⟩ := hqueues (by rw [hdi]; exact hb) hg
  have hasks := closeByRelease_asks (s := v) (ch := ch) .done (by rw [hc]; exact hdr)
  have hj := hv.judged .done
  have hji : ((v.judged ch .done).channel ch).index = c.index := by rw [hj.channel]; exact hdi
  obtain ⟨hjring, -⟩ := askRelease_queues (s := v.judged ch .done) (ch := ch) (by rw [hji, hj.message]; exact hrec)
    (by rw [hji, hj.message]; exact hread) (by rw [hji, hj.message]; exact hb) (by rw [hj.grantsAtOnce]; exact hg)
  have hends := finish_endsAs (closeByRelease ch .done v)
  rw [hdi] at hm hq
  refine ⟨_, hx, hends.sameOuter (outer_sameOuter ((State.outer_of_base (closeByRelease_base ..)).trans houter)), hun, ?_, hm,
    hq, fun j hj => hrefused.messages j (by rw [hdi]; exact hj), ?_, hrefused.rating⟩
  · rw [hch, ← hd]
  · rw [hends.ring, hasks, hjring]
    exact hring

/-- Settles O51: what RECORD CLOSE and ABANDON do at their take, the last write, and the end of the release. -/
theorem recordEndsEnterClosing : Obligations.RecordEndsEnterClosing :=
  ⟨fun _ _ _ _ => ⟨fun h => recordClose_writes h, fun _ _ h => recordClose_returns h, fun h => recordAbandon_stopped h,
      fun h => recordAbandon_recording h⟩,
    fun _ _ _ _ _ _ _ ho hr hsrc => abandoned_writes_end ho hr hsrc,
    fun _ _ _ _ _ ho hr hw hq ht hend => walkEntry_ends ho hr hw hq ht hend⟩

end Sys2Proof.Machine
end

section
/-! PROOFS. PLAY OPEN and PLAY CLOSE (3.4, 2.10). -/

namespace Sys2Proof.Machine

/-! ### PLAY OPEN (R61, R62, R15) -/

/-- The channel that PLAY OPEN claims for message `i` from offset `o` (R61). -/
def playingChannel (c : Channel) (m : Message) (slot i o : Nat) : Channel :=
  { state := .opening, dir := .play, stopReason := c.stopReason, checkedOut := c.checkedOut
    index := i, generation := m.generation, room := m.room, position := min o none32, order := some slot
    walkLeft := o / 1008, discard := o - 1008 * (o / 1008), offset := o, reached := 1008 * (o / 1008) }

/-- The message with one reader more (R61). -/
def Message.opened (m : Message) : Message := { m with readers := m.readers + 1 }

/-- `v` is the state in which PLAY OPEN, taken in `s`, has claimed channel `ch` for message `i` (R61). -/
structure PlayClaims (s v : State) (slot ch i o : Nat) (copy : List Byte) : Prop where
  rest     : ∃ vo ms out, v = { s.acting slot copy with
    voice := vo, out := out, store := { s.store with messages := ms } }
  adds     : Adds (· = .record i) (s.acting slot copy) v
  channels : ∀ k, v.channel k = if k = ch then playingChannel (s.channel ch) (s.message i) slot i o else s.channel k
  message  : ∀ j, v.message j = if j = i then { s.message i with readers := (s.message i).readers + 1 } else s.message j

theorem playClaims (s : State) (slot ch i offset : Nat) (copy : List Byte) :
    PlayClaims s (claimPlay slot ch i offset (updateMessage i (s.message i).opened (s.acting slot copy)))
      slot ch i (8 * offset) copy := by
  have hgen : (s.message i).opened.generation = (s.message i).generation ∧ (s.message i).opened.room = (s.message i).room :=
    ⟨rfl, rfl⟩
  generalize hm : (s.message i).opened = m at hgen ⊢
  obtain ⟨o, hu, -, hadds⟩ := updateMessage_eq i m (s.acting slot copy)
  have hum := updateMessage_message i m (s.acting slot copy)
  generalize updateMessage i m (s.acting slot copy) = u at hu hadds hum ⊢
  have huv : u.voice = s.voice := by rw [hu, ← acting_voice s slot copy]; rfl
  have huc (k : Nat) : u.channel k = s.channel k := channel_congr huv k
  have hclaim : claimPlay slot ch i offset u =
      u.setChannel ch (playingChannel (u.channel ch) (u.message i) slot i (8 * offset)) := rfl
  have hplay : playingChannel (s.channel ch) m slot i (8 * offset) =
      playingChannel (s.channel ch) (s.message i) slot i (8 * offset) := by
    unfold playingChannel
    rw [hgen.1, hgen.2]
  rw [hclaim, huc, hum, if_pos rfl, hplay]
  refine ⟨⟨_, u.store.messages, o, by rw [hu, ← acting_store s slot copy]; rfl⟩, ?_, fun k => ?_, fun j => (show _ = _ from hum j).trans (by rw [← hm]; rfl)⟩
  · obtain ⟨rs, hrs, hall⟩ := hadds
    exact ⟨rs, hrs, hall⟩
  · rw [channel_setChannel, huc]

section
variable {s v : State} {slot ch i o : Nat} {copy : List Byte} (h : PlayClaims s v slot ch i o copy)
include h

theorem PlayClaims.same : v.ring = (s.acting slot copy).ring ∧ v.rating = s.rating ∧ v.lamp = s.lamp ∧
    v.control = s.control ∧ v.host = s.host ∧ v.arbiter.lines = s.arbiter.lines ∧
    v.store.mailboxes = s.store.mailboxes := by
  obtain ⟨vo, ms, out, hrest⟩ := h.rest
  exact ⟨by rw [hrest], by rw [hrest, ← acting_rating s slot copy], by rw [hrest, ← acting_lamp s slot copy],
    by rw [hrest, ← acting_control s slot copy], by rw [hrest, ← acting_host s slot copy],
    by rw [hrest, ← acting_lines s slot copy], by rw [hrest]⟩

theorem PlayClaims.mute (ho : s.out = {}) : Mute slot v :=
  h.adds.mute (fun x hx => by rw [hx]; exact Source.noConfusion) (acting_mute ho slot copy)

theorem PlayClaims.entry {e : InFlight} (he : (s.acting slot copy).entryOf slot = some e) : v.entryOf slot = some e := by
  rw [← he]
  unfold State.entryOf
  rw [h.same.1]

end

theorem playOpen_acts {s : State} {slot : Nat} {copy : List Byte} :
    let i := if param copy 10 2 = 0xFFFF then (s.mailbox (param copy 8 2)).list.headD none16 else param copy 10 2
    let ch := if param copy 14 1 = 255 then s.freeChannels.headD 0 else param copy 14 1
    let v := claimPlay slot ch i (param copy 16 4) (updateMessage i (s.message i).opened (s.acting slot copy))
    orderAct .playOpen slot copy (s.acting slot copy) =
      if 8 * param copy 16 4 ≥ (s.message i).length then openEnded ch v
      else if 8 * param copy 16 4 < 1008 then fetchBlock ch false (s.message i).first v
      else raiseOffsetRead ch (s.message i).first v := by
  intro i ch v
  have hi : (s.acting slot copy).playIndex copy = i := by
    unfold State.playIndex byNext
    rw [acting_mailbox]
    by_cases h : param copy 10 2 = none16
    · rw [decide_eq_true h, if_pos rfl]
      exact (if_pos h).symm
    · rw [decide_eq_false h, if_neg (by decide)]
      exact (if_neg h).symm
  have hch : (s.acting slot copy).claimed (param copy 14 1) = ch := rfl
  show playOpenAct slot copy (s.acting slot copy) = _
  unfold playOpenAct
  dsimp only
  rw [hi, hch]
  exact rfl

/-- With the start offset at or beyond the length the channel is ENDED at once (R62). -/
theorem openEnded_ends {v : State} {ch : Nat} {c : Channel} (hc : v.channel ch = c) :
    ∃ vo ri out, openEnded ch v = { v with voice := vo, ring := ri, out := out } ∧
      (∀ k, (openEnded ch v).channel k = if k = ch then { c with state := .ended, order := none } else v.channel k) ∧
      ∀ slot e, c.order = some slot → v.entryOf slot = some e →
        Raised (completionWrite v slot e.copy .done false
          (playOpenResults ch c true (v.message c.index).length)) (openEnded ch v) := by
  subst hc
  unfold openEnded openDone
  dsimp only
  generalize hu : v.setChannel ch { v.channel ch with state := .ended } = u
  have huc (k : Nat) : u.channel k = if k = ch then { v.channel ch with state := .ended } else v.channel k := by
    rw [← hu, channel_setChannel]
  generalize hx : u.setChannel ch { u.channel ch with order := none } = x
  have hxc (k : Nat) : x.channel k = if k = ch then { v.channel ch with state := .ended, order := none } else v.channel k := by
    rw [← hx, channel_setChannel]
    by_cases hk : k = ch
    · rw [if_pos hk, if_pos hk, huc, if_pos rfl]
    · rw [if_neg hk, if_neg hk, huc, if_neg hk]
  have huch := (huc ch).trans (if_pos rfl)
  have hum (j : Nat) : u.message j = v.message j := by rw [← hu]; rfl
  have hxs : ∃ vo, x = { v with voice := vo } := ⟨_, by rw [← hx, ← hu]; rfl⟩
  obtain ⟨vo, hxs⟩ := hxs
  rw [huch]
  dsimp only
  rw [hum]
  have hres : playOpenResults ch { v.channel ch with state := .ended } true (v.message (v.channel ch).index).length =
      playOpenResults ch (v.channel ch) true (v.message (v.channel ch).index).length := rfl
  rw [hres]
  generalize playOpenResults ch (v.channel ch) true (v.message (v.channel ch).index).length = res
  obtain ⟨ri, out, hw, -, -⟩ := completeFor_eq (v.channel ch).order .done res x
  refine ⟨vo, ri, out, by rw [hw, hxs], fun k => ?_, fun slot e horder he => ?_⟩
  · rw [← hxc, hw]
    rfl
  · rw [horder, ← completionWrite_congr (s := v) (t := x) (by rw [hxs]; rfl)]
    exact completeOrder_raises .done false res (by rw [hxs]; exact he)

/-- (1) of O52. -/
theorem playOpen_opens {s : State} {slot : Nat} {copy : List Byte} (h : s.takesNow .playOpen slot copy) (hwaits : s.headWaits) :
    let i := if param copy 10 2 = 0xFFFF then (s.mailbox (param copy 8 2)).list.headD none16 else param copy 10 2
    let ch := if param copy 14 1 = 255 then s.freeChannels.headD 0 else param copy 14 1
    let m := s.message i
    let o := 8 * param copy 16 4
    ∃ t, exec .playOpen s = .next t ∧ sameOuter s t ∧ OrderTaken s t slot copy ∧
      (t.message i).readers = m.readers + 1 ∧ (t.channel ch).dir = .play ∧ (t.channel ch).index = i ∧
      (t.channel ch).generation = m.generation ∧ (t.channel ch).room = m.room ∧ (t.channel ch).accepted = 0 ∧
      (t.channel ch).position = min o 0xFFFFFFFF ∧
      (∀ j, j ≠ i → t.message j = s.message j) ∧ t.store.mailboxes = s.store.mailboxes ∧
      (∀ k, k ≠ ch → t.channel k = s.channel k) ∧ t.rating = s.rating ∧ t.lamp = s.lamp ∧
      (o < m.length → (t.channel ch).state = .opening ∧ (t.channel ch).discard = o % 1008 ∧ Unanswered s t slot) ∧
      (o < m.length → o < 1008 → (t.channel ch).buffer0 = ⟨m.first, .fetching, []⟩ ∧
        lineGrew s t .voice ((List.range 8).map fun k =>
          { source := .blockFetch ch false k, write := false
            addr := s.profile.storeBase + 512 * m.first + 64 * k, beats := 8 })) ∧
      (o < m.length → 1008 ≤ o → (t.channel ch).walkLeft = o / 1008 ∧ (t.channel ch).walkBlock = m.first ∧
        lineGrew s t .voice [{ source := .offsetWalk ch, write := false
                               addr := s.profile.storeBase + 512 * m.first, beats := 1 }]) ∧
      (m.length ≤ o → (t.channel ch).state = .ended ∧
        Answered s t slot copy .done false
          (le 1 ch ++ le 1 1 ++ le 2 i ++ le 2 m.generation ++ zeros 2 ++ le 4 m.length ++ le 4 (min o 0xFFFFFFFF))) := by
  intro i ch m o
  obtain ⟨t, e, hx, houter, htaken, ht, he, hcopy, hstage⟩ := order_acts h (by decide)
  have hact : orderAct .playOpen slot copy (s.acting slot copy) = _ := playOpen_acts
  rw [hact] at ht
  have hv : PlayClaims s _ slot ch i o copy := playClaims s slot ch i (param copy 16 4) copy
  generalize hvd : claimPlay slot ch i (param copy 16 4) (updateMessage i m.opened (s.acting slot copy)) = v at hv
  have ht : t = finish (nextSlot (if o ≥ m.length then openEnded ch v
      else if o < 1008 then fetchBlock ch false m.first v else raiseOffsetRead ch m.first v)) := by
    rw [ht, ← hvd]
  obtain ⟨hring, hrating, hlamp, hcontrol, hhost, hlines, hboxes⟩ := hv.same
  have hvp : v.profile = s.profile := by unfold State.profile; rw [hcontrol]
  have hvc : v.channel ch = playingChannel (s.channel ch) m slot i o := (hv.channels ch).trans (if_pos rfl)
  have hve := hv.entry he
  have hvm : v.message i = { m with readers := m.readers + 1 } := (hv.message i).trans (if_pos rfl)
  -- the channel and the requests of the three cases
  have hcommon (w : State) (c : Channel) (hw : ∃ vo ri out, w = { v with voice := vo, ring := ri, out := out })
      (hc : ∀ k, w.channel k = if k = ch then c else v.channel k) (htw : t = finish (nextSlot w)) :
      EndsAs (nextSlot w) t ∧ w.arbiter.lines = s.arbiter.lines ∧ t.channel ch = c ∧
      (∀ k, k ≠ ch → t.channel k = s.channel k) ∧ (∀ j, t.message j = v.message j) ∧
      t.store.mailboxes = s.store.mailboxes ∧ t.rating = s.rating ∧ t.lamp = s.lamp := by
    have hends := finish_endsAs (nextSlot w)
    rw [← htw] at hends
    obtain ⟨vo, ri, out, hw⟩ := hw
    have hwh : (nextSlot w).headWaits := by
      have hh : (nextSlot w).host = s.host := by rw [← hhost]; show w.host = _; rw [hw]
      unfold State.headWaits at hwaits ⊢
      rw [hh]
      exact hwaits
    have htc (k : Nat) : t.channel k = w.channel k := channel_congr (hends.voice hwh) k
    refine ⟨hends, by rw [hw]; exact hlines, (htc ch).trans ((hc ch).trans (if_pos rfl)), fun k hk => ?_, fun j => ?_, ?_, ?_, ?_⟩
    · rw [htc, hc, if_neg hk, hv.channels, if_neg hk]
    · rw [hends.message]
      show w.message j = _
      rw [hw]
      rfl
    · rw [hends.store, ← hboxes]
      show w.store.mailboxes = _
      rw [hw]
    · rw [hends.rating, ← hrating]
      show w.rating = _
      rw [hw]
    · rw [hends.lamp, ← hlamp]
      show w.lamp = _
      rw [hw]
  have hdiscard : o - 1008 * (o / 1008) = o % 1008 := by omega
  have hmess (j : Nat) (hj : j ≠ i) : v.message j = s.message j := (hv.message j).trans (if_neg hj)
  by_cases hend : o ≥ m.length
  · rw [if_pos hend] at ht
    obtain ⟨vo, ri, out, hw, hc, hdone⟩ := openEnded_ends hvc
    have hraised : Raised (executingWrite s slot copy) (openEnded ch v) :=
      openEnded_raised ch v (hv.adds.raised (acting_raised s slot copy))
    generalize openEnded ch v = w at ht hw hc hdone hraised
    obtain ⟨hends, hwl, htc, htch, htm, htb, htr, htl⟩ := hcommon w _ ⟨vo, ri, out, hw⟩ hc ht
    refine ⟨t, hx, houter, htaken, by rw [htm, hvm], by rw [htc]; rfl, by rw [htc]; rfl, by rw [htc]; rfl, by rw [htc]; rfl,
      by rw [htc]; rfl, by rw [htc]; rfl, fun j hj => (htm j).trans (hmess j hj), htb, htch, htr, htl, fun hl => by omega,
      fun hl => by omega, fun hl => by omega, fun _ => ⟨by rw [htc], ?_⟩⟩
    have hd := hdone slot e rfl hve
    rw [completionWrite_congr hvp, hcopy] at hd
    refine lineGrew_of_ends hends hwl fun r hm => ?_
    obtain rfl | hm := List.mem_cons.mp hm
    · exact ⟨hraised, rfl⟩
    · rw [List.mem_singleton.mp hm]
      refine ⟨?_, rfl⟩
      rw [show (playingChannel (s.channel ch) m slot i o).index = i from rfl, hvm] at hd
      exact hd
  rw [if_neg hend] at ht
  have hlt : o < m.length := Nat.lt_of_not_le hend
  by_cases hfirst : o < 1008
  · rw [if_pos hfirst] at ht
    have hmute := Mute.fetchBlock (hv.mute h.1) ch false m.first
    have hw : ∃ vo ri out, fetchBlock ch false m.first v = { v with voice := vo, ring := ri, out := out } := ⟨_, _, _, rfl⟩
    have hc (k : Nat) : (fetchBlock ch false m.first v).channel k =
        if k = ch then (playingChannel (s.channel ch) m slot i o).setBuffer false ⟨m.first, .fetching, []⟩ else v.channel k := by
      rw [← hvc]
      exact channel_setChannel ..
    have hreads (r : Request) (hm : r ∈ fetchReads v ch false m.first) : Raised r (fetchBlock ch false m.first v) :=
      List.mem_append_right _ hm
    have hwe : (fetchBlock ch false m.first v).entryOf slot = some e := hve
    generalize fetchBlock ch false m.first v = w at ht hw hc hmute hreads hwe
    obtain ⟨hends, hwl, htc, htch, htm, htb, htr, htl⟩ := hcommon w _ hw hc ht
    refine ⟨t, hx, houter, htaken, by rw [htm, hvm], by rw [htc]; rfl, by rw [htc]; rfl, by rw [htc]; rfl, by rw [htc]; rfl,
      by rw [htc]; rfl, by rw [htc]; rfl, fun j hj => (htm j).trans (hmess j hj), htb, htch, htr, htl,
      fun _ => ⟨by rw [htc]; rfl, by rw [htc]; exact hdiscard, unanswered_of (e := e) ht (hmute.of_out rfl) hwl hwe hstage⟩,
      fun _ _ => ⟨by rw [htc]; rfl, lineGrew_of_ends hends hwl fun r hm => ⟨hreads r ?_, ?_⟩⟩, fun _ h1 => by omega,
      fun h1 => by omega⟩
    · unfold fetchReads State.blockAddr
      rw [hvp]
      exact hm
    · obtain ⟨k, -, rfl⟩ := List.mem_map.mp hm
      rfl
  · rw [if_neg hfirst] at ht
    have hmute : Mute slot (raiseOffsetRead ch m.first v) :=
      Mute.raise ((hv.mute h.1).setChannel _ _) Source.noConfusion
    have hw : ∃ vo ri out, raiseOffsetRead ch m.first v = { v with voice := vo, ring := ri, out := out } := ⟨_, _, _, rfl⟩
    have hc (k : Nat) : (raiseOffsetRead ch m.first v).channel k =
        if k = ch then { playingChannel (s.channel ch) m slot i o with walkBlock := m.first } else v.channel k := by
      rw [← hvc]
      exact channel_setChannel ..
    have hread : Raised { source := .offsetWalk ch, write := false, addr := v.profile.storeBase + 512 * m.first, beats := 1 }
        (raiseOffsetRead ch m.first v) := List.mem_append_right _ (List.mem_singleton.mpr rfl)
    have hwe : (raiseOffsetRead ch m.first v).entryOf slot = some e := hve
    rw [hvp] at hread
    generalize raiseOffsetRead ch m.first v = w at ht hw hc hmute hread hwe
    obtain ⟨hends, hwl, htc, htch, htm, htb, htr, htl⟩ := hcommon w _ hw hc ht
    refine ⟨t, hx, houter, htaken, by rw [htm, hvm], by rw [htc]; rfl, by rw [htc]; rfl, by rw [htc]; rfl, by rw [htc]; rfl,
      by rw [htc]; rfl, by rw [htc]; rfl, fun j hj => (htm j).trans (hmess j hj), htb, htch, htr, htl,
      fun _ => ⟨by rw [htc]; rfl, by rw [htc]; exact hdiscard, unanswered_of (e := e) ht (hmute.of_out rfl) hwl hwe hstage⟩,
      fun _ h1 => absurd h1 hfirst, fun _ _ => ⟨by rw [htc]; rfl, by rw [htc], lineGrew_of_ends hends hwl fun r hm => ?_⟩,
      fun h1 => by omega⟩
    rw [List.mem_singleton.mp hm]
    exact ⟨hread, rfl⟩

/-! ### PLAY CLOSE (R67, R38) -/

/-- A change of the reader counts leaves the play order as it is (R34). -/
theorem ListFollows.of_readers {s w t : State} {r : Nat} {p : Nat → Prop} (h : ListFollows w t r p)
    (hb : s.mailbox r = w.mailbox r) (hl : s.lampOf r = w.lampOf r)
    (hc : ∀ j, ∃ n, w.message j = { s.message j with readers := n }) : ListFollows s t r p := by
  have hbefore (i j : Nat) (hij : s.standsBefore i j) : w.standsBefore i j := by
    obtain ⟨n, hi⟩ := hc i
    obtain ⟨k, hj⟩ := hc j
    unfold State.standsBefore
    rw [hi, hj]
    exact hij
  have horder (ho : s.inPlayOrder (s.mailbox r).list) : w.inPlayOrder (w.mailbox r).list :=
    hb ▸ List.Pairwise.imp (fun {i j} => hbefore i j) ho
  refine ⟨h.members, fun ho => h.order (horder ho), fun ho => h.next (horder ho), fun i hi => h.left i (by rw [← hb]; exact hi),
    h.counts, h.marked, fun hne => h.computed (by rw [← hb]; exact hne), fun he => ?_⟩
  rw [hl]
  exact h.kept (by rw [← hb]; exact he)

/-- The state a disposition gives a message that is not released (R67, R38). -/
def disposedState (d : Nat) (st : MessageState) : MessageState :=
  if d = 1 ∧ st = .new then .heard else if d = 2 ∧ (st = .new ∨ st = .heard) then .saved else st

/-- A disposition of a message that is not DELETING already (R38). -/
theorem dispose_eq {u : State} {i : Nat} {m : Message} (hm : u.message i = m) (d : Nat) (hn : m.state ≠ .deleting) :
    dispose i d u =
      if d = 3 ∧ m.state.listed = true then releaseMessage i .silent u
      else if disposedState d m.state = m.state then u
      else moveMessage i (disposedState d m.state) u := by
  subst hm
  unfold dispose disposedState
  dsimp only
  rw [if_neg hn]
  by_cases h1 : d = 1 ∧ (u.message i).state = .new
  · rw [if_pos h1, if_pos h1, if_neg (c := d = 3 ∧ _) (by omega), if_neg (by rw [h1.2]; decide)]
  · rw [if_neg h1, if_neg h1]
    by_cases h2 : d = 2 ∧ ((u.message i).state = .new ∨ (u.message i).state = .heard)
    · rw [if_pos h2, if_pos h2, if_neg (c := d = 3 ∧ _) (by omega), if_neg]
      obtain ⟨-, h | h⟩ := h2 <;> rw [h] <;> decide
    · rw [if_neg h2, if_neg h2, if_pos (c := (u.message i).state = _) rfl]

/-- A disposition of a message that is DELETING: its last reader lets its chain go (R38). -/
theorem dispose_deleting {u : State} {i : Nat} {m : Message} (hm : u.message i = m) (d : Nat) (hd : m.state = .deleting) :
    dispose i d u = endRelease i m .silent u := by
  subst hm
  unfold dispose endRelease
  dsimp only
  rw [if_pos hd]

/-- The channel after PLAY CLOSE (R67). -/
def Channel.playClosed (c : Channel) : Channel :=
  { c with
    buffer0 := c.buffer0.dropped, buffer1 := c.buffer1.dropped
    state := if c.buffer0.cond = .fetching ∨ c.buffer1.cond = .fetching then .closing else .free }

theorem dropBuffers_channel (ch : Nat) (w : State) (k : Nat) :
    (dropBuffers ch w).channel k = if k = ch then (w.channel ch).playClosed else w.channel k := by
  unfold dropBuffers Channel.playClosed
  dsimp only
  rw [channel_setChannel]
  simp only [Bool.or_eq_true, decide_eq_true_eq]

/-- PLAY CLOSE once its message has been seen to: the channel drops its buffers and the order is DONE (R67). -/
theorem playClose_ends {s w t : State} {slot ch : Nat} {copy : List Byte} {e : InFlight} {f : Bool} {res : List Byte}
    (hk : Keeping s w slot copy) (he : (s.acting slot copy).entryOf slot = some e) (hc : e.copy = copy) (hwaits : s.headWaits)
    (ht : t = finish (nextSlot (completeOrder slot .done f res (dropBuffers ch w)))) :
    t.store = w.store ∧ t.lamp = w.lamp ∧ t.rating = s.rating ∧ (∀ q, t.roomShadow q = w.roomShadow q) ∧
      (∀ k, t.channel k = if k = ch then (s.channel ch).playClosed else s.channel k) ∧
      Answered s t slot copy .done f res := by
  have hanswered : Answered s t slot copy .done f res := by
    rw [ht]
    exact answered_by (finish_endsAs _) hk.profile hk.lines (dropBuffers_raised ch w hk.raised) (hk.entry he) hc
  have hdrop := dropBuffers_channel ch w
  obtain ⟨hst, hla, hra, hvo, hba⟩ := completed_engines slot .done f res (dropBuffers ch w)
  have hends := finish_endsAs (nextSlot (completeOrder slot .done f res (dropBuffers ch w)))
  rw [← ht] at hends
  generalize nextSlot (completeOrder slot .done f res (dropBuffers ch w)) = y at hst hla hra hvo hba hends
  have hhost : y.host = w.host := host_of_base hba
  have hy : y.headWaits := by
    unfold State.headWaits at hwaits ⊢
    rw [hhost, hk.host]
    exact hwaits
  refine ⟨hends.store.trans hst, hends.lamp.trans hla, (hends.rating.trans hra).trans hk.rating, fun q => ?_, fun k => ?_,
    hanswered⟩
  · rw [hends.roomShadow]
    unfold State.roomShadow
    rw [hhost]
  · rw [channel_congr ((hends.voice hy).trans hvo), hdrop, channel_congr hk.voice, channel_congr hk.voice]

/-- The message with one reader fewer (R67). -/
def Message.closed (m : Message) : Message := { m with readers := m.readers - 1 }

/-- The reader count of the message falls (R67). -/
theorem readersFall (s : State) (slot i : Nat) (copy : List Byte) :
    ∃ ms out, updateMessage i (s.message i).closed (s.acting slot copy) =
        { s.acting slot copy with out := out, store := { s.store with messages := ms } } ∧
      Keeping s (updateMessage i (s.message i).closed (s.acting slot copy)) slot copy ∧
      ∀ j, (updateMessage i (s.message i).closed (s.acting slot copy)).message j =
        if j = i then (s.message i).closed else s.message j := by
  generalize (s.message i).closed = m
  obtain ⟨o, hu, -, -⟩ := updateMessage_eq i m (s.acting slot copy)
  exact ⟨((s.acting slot copy).setMessage i m).store.messages, o, by rw [hu]; rfl,
    ⟨updateMessage_base .., updateMessage_ring .., updateMessage_rating .., updateMessage_voice ..,
      updateMessage_raised _ _ _ (acting_raised s slot copy)⟩,
    updateMessage_message i m (s.acting slot copy)⟩

theorem Keeping.disposed {s u : State} {slot : Nat} {copy : List Byte} (h : Keeping s u slot copy) (i d : Nat) :
    Keeping s (dispose i d u) slot copy :=
  ⟨(dispose_base ..).trans h.base, (dispose_ring ..).trans h.ring, (dispose_rating ..).trans h.rating,
    (dispose_voice ..).trans h.voice, dispose_raised i d u h.raised⟩

/-- What a disposition does to a listed, kept or DELETING message and its room (R38). -/
structure Disposed (u w : State) (i d : Nat) (m : Message) : Prop where
  readers : (w.message i).readers = m.readers
  others  : ∀ j, j ≠ i → (w.message j).state = (u.message j).state
  rooms   : ∀ q, q ≠ m.room → w.mailbox q = u.mailbox q ∧ w.lampOf q = u.lampOf q
  kept    : m.state ≠ .deleting → ¬(d = 3 ∧ m.state.listed = true) →
    (w.message i).state = disposedState d m.state ∧
      (disposedState d m.state ≠ m.state → ListFollows u w m.room fun j => j = i ∨ j ∈ (u.mailbox m.room).list) ∧
      (disposedState d m.state = m.state → w = u)
  queue   : (d = 3 ∧ m.state.listed = true) ∨ m.state = .deleting →
    (w.message i).state = (if m.readers = 0 ∧ m.blocks = 0 then .free else .deleting) ∧
      w.store.releaseQueue = if m.readers = 0 ∧ 0 < m.blocks then u.store.releaseQueue ++ [⟨m.first, m.blocks, i, .silent⟩]
        else u.store.releaseQueue
  listed  : d = 3 → m.state.listed = true →
    (ListFollows u w m.room fun j => j ≠ i ∧ j ∈ (u.mailbox m.room).list) ∧
      (w.mailbox m.room).places = (u.mailbox m.room).places - 1
  unlisted : m.state = .deleting → w.store.mailboxes = u.store.mailboxes

theorem dispose_disposes {u : State} {i : Nat} {m : Message} (hm : u.message i = m) (d : Nat) :
    Disposed u (dispose i d u) i d m := by
  by_cases hdel : m.state = .deleting
  · have hl : ¬ m.state.listed = true := by rw [hdel]; decide
    rw [dispose_deleting hm d hdel]
    have hmessage := endRelease_message i m .silent u
    have hqueue : (endRelease i m .silent u).store.releaseQueue =
          (if m.readers = 0 ∧ 0 < m.blocks then u.store.releaseQueue ++ [⟨m.first, m.blocks, i, .silent⟩]
           else u.store.releaseQueue) ∧ (endRelease i m .silent u).store.mailboxes = u.store.mailboxes := by
      unfold endRelease
      by_cases hr : m.readers = 0
      · obtain ⟨-, -, -, -, hq, -⟩ := queueChain_spec i .silent u
        obtain ⟨_, _, _, _, _, hc, -⟩ := queueChain_eq i .silent u
        rw [if_pos hr, hq, hm]
        exact ⟨by simp only [hr, true_and], by rw [hc]⟩
      · rw [if_neg hr, if_neg (fun h => hr h.1)]
        exact ⟨rfl, rfl⟩
    obtain ⟨hmail, hlamp, -, -⟩ := endRelease_rest i m .silent u
    generalize endRelease i m .silent u = w at hmessage hqueue hmail hlamp
    have hi : (w.message i).state = (if m.readers = 0 ∧ m.blocks = 0 then .free else .deleting) ∧
        (w.message i).readers = m.readers := by
      rw [hmessage, hm]
      by_cases h0 : m.readers = 0 ∧ m.blocks = 0
      · rw [if_pos ⟨h0.1, rfl, h0.2⟩, if_pos h0]
        exact ⟨rfl, rfl⟩
      · rw [if_neg (fun h => h0 ⟨h.1, h.2.2⟩), if_neg h0]
        exact ⟨hdel, rfl⟩
    refine ⟨hi.2, fun j hj => by rw [hmessage, if_neg (fun h => hj h.2.1)], fun q _ => ⟨hmail q, ?_⟩,
      fun hn => absurd hdel hn, fun _ => ⟨hi.1, hqueue.1⟩, fun _ h => absurd h hl, fun _ => hqueue.2⟩
    unfold State.lampOf
    rw [hlamp]
  have hkept (w : State) (hk : w = u) (hg : disposedState d m.state = m.state) (hno : ¬(d = 3 ∧ m.state.listed = true)) :
      Disposed u w i d m := by
    subst hk
    exact ⟨by rw [hm], fun _ _ => rfl, fun _ _ => ⟨rfl, rfl⟩, fun _ _ => ⟨by rw [hm, hg], fun h => absurd hg h, fun _ => rfl⟩,
      fun h => absurd h (not_or.mpr ⟨hno, hdel⟩), fun h1 h2 => absurd ⟨h1, h2⟩ hno, fun h => absurd h hdel⟩
  rw [dispose_eq hm d hdel]
  by_cases hrel : d = 3 ∧ m.state.listed = true
  · rw [if_pos hrel]
    obtain ⟨hfollows, -, hlamps⟩ := releaseListed_follows hm .silent hrel.2
    obtain ⟨hcore, hothers, hrooms, -, hplaces, hqueue, -, -, -⟩ := releaseMessage_spec i .silent u
    generalize releaseMessage i .silent u = w at *
    rw [hm] at hcore hrooms hplaces hqueue
    have hstate := congrArg Message.state hcore
    have hreaders := congrArg Message.readers hcore
    exact ⟨hreaders, fun j hj => Message.core_state (hothers j hj), fun q hq => ⟨hrooms q hq, hlamps q hq⟩,
      fun _ h => absurd hrel h, fun _ => ⟨hstate, hqueue⟩,
      fun _ _ => ⟨hfollows, hplaces.trans (if_pos (.inl hrel.2))⟩, fun h => absurd h hdel⟩
  · rw [if_neg hrel]
    by_cases hg : disposedState d m.state = m.state
    · rw [if_pos hg]
      exact hkept u rfl hg hrel
    · rw [if_neg hg]
      obtain ⟨hfollows, hcore, hothers, -, hrooms⟩ := moveMessage_follows hm (disposedState d m.state)
      generalize moveMessage i (disposedState d m.state) u = w at *
      have hstate := congrArg Message.state hcore
      have hreaders := congrArg Message.readers hcore
      exact ⟨hreaders, fun j hj => Message.core_state (hothers j hj), hrooms,
        fun _ _ => ⟨hstate, fun _ => hfollows, fun h => absurd h hg⟩,
        fun h => absurd h (not_or.mpr ⟨hrel, hdel⟩), fun h1 h2 => absurd ⟨h1, h2⟩ hrel, fun h => absurd h hdel⟩

theorem acting_index (s : State) (slot : Nat) (copy : List Byte) (ch : Nat) :
    ((s.acting slot copy).channel ch).index = (s.channel ch).index := by
  rw [channel_congr (acting_voice s slot copy)]

/-- What PLAY CLOSE does at its take (R67). -/
theorem playClose_acts {u : State} {slot ch i d : Nat} {copy : List Byte} {m : Message} (hch : param copy 8 1 = ch)
    (hi : (u.channel ch).index = i) (hm : u.message i = m) (hd : param copy 9 1 = d) :
    orderAct .playClose slot copy u =
      completeOrder slot .done (decide (d = 3) && m.state.listed && decide (m.readers - 1 > 0))
        (le 1 ((dispose i d (updateMessage i m.closed u)).message i).state.code)
        (dropBuffers ch (dispose i d (updateMessage i m.closed u))) := by
  subst hch hi hm hd
  rfl

/-- (2) of O52. -/
theorem playClose_closes {s : State} {slot : Nat} {copy : List Byte} (h : s.takesNow .playClose slot copy)
    (hwaits : s.headWaits) :
    let ch := param copy 8 1
    let d := param copy 9 1
    let c := s.channel ch
    let i := c.index
    let m := s.message i
    let goal := disposedState d m.state
    ∃ t, exec .playClose s = .next t ∧ sameOuter s t ∧ OrderTaken s t slot copy ∧
      t.channel ch = c.playClosed ∧ (t.message i).readers = m.readers - 1 ∧
      (∀ j, j ≠ i → (t.message j).state = (s.message j).state) ∧
      (∀ q, q ≠ m.room → t.mailbox q = s.mailbox q ∧ t.lampOf q = s.lampOf q) ∧
      (∀ k, k ≠ ch → t.channel k = s.channel k) ∧ t.rating = s.rating ∧
      (m.state ≠ .deleting → ¬(d = 3 ∧ m.state.listed = true) →
        (t.message i).state = goal ∧ Answered s t slot copy .done false (le 1 goal.code) ∧
        (goal ≠ m.state → ListFollows s t m.room fun j => j = i ∨ j ∈ (s.mailbox m.room).list) ∧
        (goal = m.state → t.message i = { m with readers := m.readers - 1 } ∧ t.lamp = s.lamp ∧
          t.store.mailboxes = s.store.mailboxes ∧ ∀ j, j ≠ i → t.message j = s.message j)) ∧
      (d = 3 → m.state.listed = true →
        (ListFollows s t m.room fun j => j ≠ i ∧ j ∈ (s.mailbox m.room).list) ∧
        (t.mailbox m.room).places = (s.mailbox m.room).places - 1 ∧
        (1 < m.readers → (t.message i).state = .deleting ∧ t.store.releaseQueue = s.store.releaseQueue ∧
          Answered s t slot copy .done true (le 1 5)) ∧
        (m.readers ≤ 1 → 0 < m.blocks → (t.message i).state = .deleting ∧
          t.store.releaseQueue = s.store.releaseQueue ++ [⟨m.first, m.blocks, i, .silent⟩] ∧
          Answered s t slot copy .done false (le 1 5)) ∧
        (m.readers ≤ 1 → m.blocks = 0 → (t.message i).state = .free ∧
          Answered s t slot copy .done false (le 1 0))) ∧
      (m.state = .deleting → t.store.mailboxes = s.store.mailboxes ∧
        (1 < m.readers → (t.message i).state = .deleting ∧ t.store.releaseQueue = s.store.releaseQueue ∧
          Answered s t slot copy .done false (le 1 5)) ∧
        (m.readers ≤ 1 → 0 < m.blocks → (t.message i).state = .deleting ∧
          t.store.releaseQueue = s.store.releaseQueue ++ [⟨m.first, m.blocks, i, .silent⟩] ∧
          Answered s t slot copy .done false (le 1 5)) ∧
        (m.readers ≤ 1 → m.blocks = 0 → (t.message i).state = .free ∧
          Answered s t slot copy .done false (le 1 0))) := by
  intro ch d c i m goal
  obtain ⟨t, e, hx, houter, htaken, ht, he, hcopy, -⟩ := order_acts h (by decide)
  have hact := playClose_acts (u := s.acting slot copy) (slot := slot) (copy := copy) (ch := ch) (i := i) (m := m) (d := d) rfl
    (acting_index s slot copy ch) (acting_message s slot copy i) rfl
  rw [hact] at ht
  obtain ⟨ms, out, hu, hkeep, hum⟩ := readersFall s slot i copy
  have hdisposed := dispose_disposes (u := updateMessage i m.closed (s.acting slot copy)) (m := m.closed)
    ((hum i).trans (if_pos rfl)) d
  have hkeep := hkeep.disposed i d
  generalize updateMessage i m.closed (s.acting slot copy) = u at ht hu hum hdisposed hkeep
  obtain ⟨hreaders, hothers, hrooms, hkept, hqueue, hlisted, hunlisted⟩ := hdisposed
  generalize hw : dispose i d u = w at ht hkeep hreaders hothers hrooms hkept hqueue hlisted hunlisted
  obtain ⟨hst, hla, hra, hshadow, hch, hans⟩ := playClose_ends hkeep he hcopy hwaits ht
  have hus : u.store.mailboxes = s.store.mailboxes ∧ u.store.releaseQueue = s.store.releaseQueue := by
    rw [hu]
    exact ⟨rfl, rfl⟩
  have hul : u.lamp = s.lamp := by rw [hu, ← acting_lamp s slot copy]
  have hmail (q) : s.mailbox q = u.mailbox q := mailbox_congr hus.1.symm q
  have hlampOf (q) : s.lampOf q = u.lampOf q := by unfold State.lampOf; rw [hul]
  have htm (j) : t.message j = w.message j := message_congr (by rw [hst]) j
  have htb (q) : t.mailbox q = w.mailbox q := mailbox_congr (by rw [hst]) q
  have hread (j : Nat) : ∃ n, u.message j = { s.message j with readers := n } := by
    rw [hum]
    by_cases hj : j = i
    · exact ⟨m.readers - 1, by rw [if_pos hj, hj]; rfl⟩
    · exact ⟨(s.message j).readers, by rw [if_neg hj]⟩
  have hfollow {p : Nat → Prop} (hf : ListFollows u w m.room p) : ListFollows s t m.room p :=
    (hf.of_right hst hla (hshadow _)).of_readers (hmail _) (hlampOf _) hread
  have hothers' (j : Nat) (hj : j ≠ i) : (t.message j).state = (s.message j).state := by
    rw [htm, hothers j hj, hum, if_neg hj]
  -- the three outcomes of a release
  have hout (hrel : (d = 3 ∧ m.state.listed = true) ∨ m.state = .deleting) (f : Bool)
      (hf : f = (decide (d = 3) && m.state.listed)) :
      (1 < m.readers → (t.message i).state = .deleting ∧ t.store.releaseQueue = s.store.releaseQueue ∧
        Answered s t slot copy .done f (le 1 5)) ∧
      (m.readers ≤ 1 → 0 < m.blocks → (t.message i).state = .deleting ∧
        t.store.releaseQueue = s.store.releaseQueue ++ [⟨m.first, m.blocks, i, .silent⟩] ∧
        Answered s t slot copy .done false (le 1 5)) ∧
      (m.readers ≤ 1 → m.blocks = 0 → (t.message i).state = .free ∧ Answered s t slot copy .done false (le 1 0)) := by
    obtain ⟨hstate, hq⟩ := hqueue hrel
    have hr : m.closed.readers = m.readers - 1 := rfl
    have hb : m.closed.blocks = m.blocks := rfl
    rw [hr, hb] at hstate hq
    rw [hstate, ← hf] at hans
    rw [htm, hst, hstate, hq, hus.2]
    refine ⟨fun h1 => ?_, fun h1 hb0 => ?_, fun h1 hb0 => ?_⟩
    · rw [if_neg (c := m.readers - 1 = 0 ∧ m.blocks = 0) (by omega), if_neg (c := m.readers - 1 = 0 ∧ 0 < m.blocks) (by omega)]
      rw [if_neg (c := m.readers - 1 = 0 ∧ m.blocks = 0) (by omega), decide_eq_true (by omega), Bool.and_true] at hans
      exact ⟨rfl, rfl, hans⟩
    · rw [if_neg (c := m.readers - 1 = 0 ∧ m.blocks = 0) (by omega), if_pos (c := m.readers - 1 = 0 ∧ 0 < m.blocks) (by omega)]
      rw [if_neg (c := m.readers - 1 = 0 ∧ m.blocks = 0) (by omega), decide_eq_false (by omega), Bool.and_false] at hans
      exact ⟨rfl, rfl, hans⟩
    · rw [if_pos (c := m.readers - 1 = 0 ∧ m.blocks = 0) (by omega)]
      rw [if_pos (c := m.readers - 1 = 0 ∧ m.blocks = 0) (by omega), decide_eq_false (by omega), Bool.and_false] at hans
      exact ⟨rfl, hans⟩
  refine ⟨t, hx, houter, htaken, (hch ch).trans (if_pos rfl), by rw [htm, hreaders]; rfl, hothers', fun q hq => ?_,
    fun k hk => (hch k).trans (if_neg hk), hra, fun hn hno => ?_, fun hd3 hl => ?_, fun hdel => ?_⟩
  · obtain ⟨hb, hl⟩ := hrooms q hq
    refine ⟨by rw [htb, hb, hmail], ?_⟩
    rw [hlampOf, ← hl]
    unfold State.lampOf
    rw [hla]
  · obtain ⟨hstate, hmoved, hsame⟩ := hkept hn hno
    have hstate : (w.message i).state = goal := hstate
    have hf : (decide (d = 3) && m.state.listed) = false := by
      rw [Bool.and_eq_false_iff, decide_eq_false_iff_not, Bool.eq_false_iff]
      exact Classical.not_and_iff_not_or_not.mp hno
    rw [hstate, hf, Bool.false_and] at hans
    refine ⟨by rw [htm, hstate], hans, fun hg => by rw [hmail]; exact hfollow (hmoved hg), fun hg => ?_⟩
    have hwu := hsame hg
    refine ⟨by rw [htm, hwu, hum, if_pos rfl]; rfl, by rw [hla, hwu, hul], by rw [hst, hwu, hus.1], fun j hj => ?_⟩
    rw [htm, hwu, hum, if_neg hj]
  · obtain ⟨hf, hp⟩ := hlisted hd3 hl
    have hp : (w.mailbox m.room).places = (u.mailbox m.room).places - 1 := hp
    refine ⟨by rw [hmail m.room]; exact hfollow hf, by rw [htb, hp, hmail], hout (.inl ⟨hd3, hl⟩) true ?_⟩
    rw [hl, decide_eq_true hd3]
    rfl
  · refine ⟨by rw [hst, hunlisted hdel, hus.1], hout (.inr hdel) false ?_⟩
    rw [hdel]
    simp [MessageState.listed]

/-- Settles O52. -/
theorem playOpenAndClose : Obligations.PlayOpenAndClose :=
  fun _ _ _ => ⟨playOpen_opens, playClose_closes⟩

end Sys2Proof.Machine
end

section
/-! PROOFS. The fetch of a block and the offset walk of a playback (3.4, 1.12). -/

namespace Sys2Proof.Machine

theorem raiseAll_from_nothing {s : State} (h : s.out = {}) (rs : List Request) : raiseAll rs s = { s with out.requests := rs } := by
  unfold raiseAll
  rw [h]
  rfl

theorem requests_nil {s : State} (h : s.out = {}) : { s with out.requests := [] } = s := by
  cases s
  cases h
  rfl

theorem raise_from_nothing {s : State} (h : s.out = {}) (r : Request) : raise r s = { s with out.requests := [r] } := by
  unfold raise
  rw [h]
  rfl

/-! ### A table written twice at one place -/

theorem erase_erase {α : Type} (t : Table α) (i : Nat) : Table.erase (Table.erase t i) i = Table.erase t i := by
  unfold Table.erase
  rw [List.filter_filter]
  simp only [Bool.and_self]

theorem erase_insert {α : Type} (t : Table α) (i : Nat) (v : α) :
    Table.erase (Table.insert t i v) i = Table.erase t i := by
  have hv : Table.erase [(i, v)] i = ([] : Table α) := by
    unfold Table.erase
    simp
  induction t with
  | nil => exact hv
  | cons e t ih =>
    obtain ⟨k, w⟩ := e
    unfold Table.insert
    by_cases hk : i < k
    · rw [if_pos hk]
      unfold Table.erase
      rw [List.filter_cons_of_neg (by simp)]
    · rw [if_neg hk]
      unfold Table.erase at ih ⊢
      rw [List.filter_cons, List.filter_cons, ih]

theorem set_set {α : Type} [DecidableEq α] (d : α) (t : Table α) (i : Nat) (v w : α) :
    Table.set d (Table.set d t i v) i w = Table.set d t i w := by
  have he : Table.erase (Table.set d t i v) i = Table.erase t i := by
    unfold Table.set
    split
    · exact erase_erase t i
    · rw [erase_insert, erase_erase]
  unfold Table.set at he ⊢
  rw [he]

theorem setChannel_setChannel (s : State) (ch : Nat) (c d : Channel) :
    (s.setChannel ch c).setChannel ch d = s.setChannel ch d := by
  unfold State.setChannel
  rw [set_set]

/-! ### The samples discarded before the start offset (R15) -/

/-- The channel with `j` samples of its block decoded and discarded (R15). -/
def Channel.passes (c : Channel) : Nat → Channel
  | 0 => c
  | j + 1 => { (c.passes j).decode with reached := (c.passes j).reached + 1, discard := (c.passes j).discard - 1 }

/-- Prediction and step index after `j` codes of a block (R5, R12). -/
def decodedTo (data : List Byte) (p : Int) (i j : Nat) : Int × Nat :=
  (List.range j).foldl (fun x k =>
    (nextPrediction x.1 x.2 (nibble (data.drop 8) k), nextIndex x.2 (nibble (data.drop 8) k))) (p, i)

theorem decodedTo_succ (data : List Byte) (p : Int) (i j : Nat) :
    decodedTo data p i (j + 1) =
      (nextPrediction (decodedTo data p i j).1 (decodedTo data p i j).2 (nibble (data.drop 8) j),
        nextIndex (decodedTo data p i j).2 (nibble (data.drop 8) j)) := by
  unfold decodedTo
  rw [List.range_succ, List.foldl_append]
  rfl

theorem passes_eq {c : Channel} (h : c.blockPos = 0) (j : Nat) :
    c.passes j = { c with
      prediction := (decodedTo (c.buffer c.current).data c.prediction c.stepIndex j).1
      stepIndex := (decodedTo (c.buffer c.current).data c.prediction c.stepIndex j).2
      blockPos := j, reached := c.reached + j, discard := c.discard - j } := by
  induction j with
  | zero =>
    cases c
    cases h
    rfl
  | succ j ih =>
    unfold Channel.passes
    rw [ih, decodedTo_succ]
    exact rfl

theorem discardSamples_passes {s : State} {c : Channel} {n j : Nat} (hj : j ≤ n)
    (hin : ∀ i, i < j → (c.passes i).blockPos < (c.passes i).sampleCount)
    (hgo : ∀ i, i < j → s.streamEnded (c.passes (i + 1)) (c.passes (i + 1)).reached = false) :
    discardSamples s n c = discardSamples s (n - j) (c.passes j) := by
  induction j with
  | zero => rfl
  | succ j ih =>
    rw [ih (by omega) (fun i hi => hin i (by omega)) fun i hi => hgo i (by omega)]
    obtain ⟨k, hk⟩ : ∃ k, n - j = k + 1 := ⟨n - j - 1, by omega⟩
    rw [hk, show n - (j + 1) = k by omega]
    conv_lhs => unfold discardSamples
    rw [if_pos (hin j (by omega))]
    exact if_neg (by rw [Bool.not_eq_true]; exact hgo j (by omega))

theorem discardSamples_ends {s : State} {c : Channel} {n j : Nat} (hj : j < n)
    (hin : ∀ i, i ≤ j → (c.passes i).blockPos < (c.passes i).sampleCount)
    (hgo : ∀ i, i < j → s.streamEnded (c.passes (i + 1)) (c.passes (i + 1)).reached = false)
    (hend : s.streamEnded (c.passes (j + 1)) (c.passes (j + 1)).reached = true) :
    discardSamples s n c = (c.passes (j + 1)).finish := by
  rw [discardSamples_passes (Nat.le_of_lt hj) (fun i hi => hin i (Nat.le_of_lt hi)) hgo]
  obtain ⟨k, hk⟩ : ∃ k, n - j = k + 1 := ⟨n - j - 1, by omega⟩
  rw [hk]
  unfold discardSamples
  rw [if_pos (hin j (Nat.le_refl j))]
  exact if_pos hend

theorem discardSamples_stops {s : State} {c : Channel} (n : Nat) (h : c.sampleCount ≤ c.blockPos) :
    discardSamples s n c = c := by
  cases n with
  | zero => rfl
  | succ n =>
    unfold discardSamples
    exact if_neg (by omega)

/-! ### The block of an opening playback has arrived (R62, R15) -/

/-- The channel with the block that arrived in a buffer loaded and the other buffer EMPTY (R12, R62). -/
def Channel.loaded (c : Channel) (second : Bool) (data : List Byte) : Channel :=
  ((c.setBuffer second { c.buffer second with cond := .arrived, data := data }).setBuffer (!second) {}).load second

/-- The channel with `j` samples of that block discarded, and the two buffers as given (R15). -/
def Channel.passed (c : Channel) (second : Bool) (data : List Byte) (j : Nat) (buffer other : Buffer) : Channel :=
  { (c.setBuffer second buffer).setBuffer (!second) other with
    current := second
    prediction := (decodedTo data (headerPrediction (data.take 8)) (headerIndex (data.take 8)) j).1
    stepIndex := (decodedTo data (headerPrediction (data.take 8)) (headerIndex (data.take 8)) j).2
    sampleCount := headerCount (data.take 8), blockPos := j, reached := c.reached + j, discard := c.discard - j }

theorem loaded_passes (c : Channel) (second : Bool) (data : List Byte) (j : Nat) :
    (c.loaded second data).passes j =
      c.passed second data j { c.buffer second with cond := .arrived, data := data } {} := by
  rw [passes_eq rfl]
  cases second <;> rfl

theorem passed_nextBlock (s : State) (c : Channel) (second : Bool) (data : List Byte) (j : Nat) (other : Buffer) :
    s.nextBlock (c.passed second data j { c.buffer second with cond := .arrived, data := data } other) =
      if headerNext (data.take 8) < s.profile.blocks then some (headerNext (data.take 8)) else none := by
  cases second <;> rfl

theorem passed_streamEnded (s : State) (c : Channel) (second : Bool) (data : List Byte) (j : Nat) :
    s.streamEnded ((c.loaded second data).passes j) ((c.loaded second data).passes j).reached = true ↔
      (s.message c.index).length ≤ c.reached + j ∨
        (headerCount (data.take 8) ≤ j ∧ s.profile.blocks ≤ headerNext (data.take 8)) := by
  rw [loaded_passes]
  unfold State.streamEnded
  rw [passed_nextBlock, Bool.or_eq_true, Bool.and_eq_true, decide_eq_true_eq, decide_eq_true_eq]
  have hi : (c.passed second data j { c.buffer second with cond := .arrived, data := data } {}).index = c.index := by
    cases second <;> rfl
  rw [hi]
  have hnone (n b : Nat) : (if n < b then some n else none : Option Nat).isNone = true ↔ b ≤ n := by
    by_cases h : n < b
    · rw [if_pos h]
      exact ⟨fun h0 => Bool.noConfusion h0, fun h' => by omega⟩
    · rw [if_neg h]
      exact ⟨fun _ => by omega, fun _ => rfl⟩
  rw [hnone]
  exact Iff.rfl

/-- The fetch ahead, with the other buffer EMPTY (R63). -/
theorem prefetch_passed {s : State} {ch : Nat} {d : Channel} {second : Bool} {data : List Byte}
    (hd : s.channel ch = d) (hcur : d.current = second) (hother : (d.buffer (!second)).cond = .empty)
    (hn : s.nextBlock d = if headerNext (data.take 8) < s.profile.blocks then some (headerNext (data.take 8)) else none) :
    prefetch ch s =
      if headerNext (data.take 8) < s.profile.blocks then fetchBlock ch (!second) (headerNext (data.take 8)) s else s := by
  subst hd hcur
  unfold prefetch
  dsimp only
  rw [hn]
  by_cases hb : headerNext (data.take 8) < s.profile.blocks
  · rw [if_pos hb, if_pos hb]
    exact if_pos hother
  · rw [if_neg hb, if_neg hb]

/-- PLAY OPEN of an OPENING channel is DONE (R62). -/
theorem openDone_eq {x : State} {ch slot : Nat} {d : Channel} {e : InFlight} (hd : x.channel ch = d)
    (ho : d.order = some slot) (he : x.entryOf slot = some e) (ended : Bool) :
    openDone ch ended x =
      { x.setChannel ch { d with order := none } with
        ring.inFlight := x.ring.inFlight.map fun y => if y.slot = slot then { y with stage := .completing } else y
        out.requests := x.out.requests ++ [completionWrite x slot e.copy .done false
          (playOpenResults ch d ended (x.message d.index).length)] } := by
  subst hd
  unfold openDone
  dsimp only
  rw [ho]
  exact completeOrder_eq (s := x.setChannel ch _) .done false _ he

/-- What `fetchArrived` does for an OPENING channel, said once (R62, R15). -/
theorem openArrived_eq {s : State} {ch : Nat} {c : Channel} (hc : s.channel ch = c) (ho : c.state = .opening) (second : Bool)
    (bytes data : List Byte) (hdata : (c.buffer second).data ++ bytes = data) (d : Channel)
    (hd : discardSamples s c.discard (c.loaded second data) = d) :
    fetchArrived ch second bytes s =
      if d.state = .ended then openDone ch true (s.setChannel ch { d with position := d.reached })
      else if d.discard = 0 then
        openDone ch false (prefetch ch (s.setChannel ch { d with state := .playing, position := d.offset }))
      else prefetch ch (s.setChannel ch d) := by
  subst hc hdata
  unfold fetchArrived
  dsimp only
  rw [if_neg (by rw [ho]; decide), if_pos ho]
  generalize hv : s.setChannel ch ((s.channel ch).setBuffer second
    { s.channel ch |>.buffer second with cond := .arrived, data := ((s.channel ch).buffer second).data ++ bytes }) = v
  have hvc : v.channel ch = (s.channel ch).setBuffer second
      { (s.channel ch).buffer second with cond := .arrived, data := ((s.channel ch).buffer second).data ++ bytes } := by
    rw [← hv, channel_setChannel, if_pos rfl]
  have hset (x : Channel) : v.setChannel ch x = s.setChannel ch x := by rw [← hv, setChannel_setChannel]
  have hload : ((v.channel ch).setBuffer (!second) {}).load second =
      (s.channel ch).loaded second (((s.channel ch).buffer second).data ++ bytes) := by rw [hvc]; rfl
  have hsame (n : Nat) (x : Channel) : discardSamples v n x = discardSamples s n x := by
    have hend (y : Channel) (k : Nat) : v.streamEnded y k = s.streamEnded y k := by rw [← hv]; rfl
    induction n generalizing x with
    | zero => rfl
    | succ n ih =>
      unfold discardSamples
      simp only [ih, hend]
  unfold openArrived
  dsimp only
  rw [hload, hsame, show ((s.channel ch).loaded second (((s.channel ch).buffer second).data ++ bytes)).discard =
    (s.channel ch).discard by cases second <;> rfl, hd, hset, hset, hset]

theorem exec_blockFetchArrival {s : State} {ret : Returned} {ch k : Nat} {second : Bool}
    (hr : s.returnOf Source.isFetch = some ret) (hsrc : ret.source = .blockFetch ch second k) :
    exec .blockFetchArrival s =
      .next (taken (fun t => fetchArrived ch second ret.data (takeReturn Source.isFetch t)) s) := by
  have hf : (fun t => fetchFinished ret (takeReturn Source.isFetch t)) =
      fun t => fetchArrived ch second ret.data (takeReturn Source.isFetch t) := by
    funext t
    unfold fetchFinished
    rw [hsrc]
  rw [← hf]
  exact stepReturn_of fetchFinished s hr

theorem exec_offsetWalkRead {s : State} {ret : Returned} {ch : Nat}
    (hr : s.returnOf Source.isOffsetWalk = some ret) (hsrc : ret.source = .offsetWalk ch) :
    exec .offsetWalkRead s =
      .next (taken (fun t => walkStep ch ret.data (takeReturn Source.isOffsetWalk t)) s) := by
  have hf : (fun t => offsetRead ret (takeReturn Source.isOffsetWalk t)) =
      fun t => walkStep ch ret.data (takeReturn Source.isOffsetWalk t) := by
    funext t
    unfold offsetRead
    rw [hsrc]
  rw [← hf]
  exact stepReturn_of offsetRead s hr

/-- (1) of O46. -/
theorem fetchArrived_fills {s : State} {ch k : Nat} {second : Bool} {ret : Returned} (hout : s.out = {})
    (hr : s.returnOf Source.isFetch = some ret) (hsrc : ret.source = .blockFetch ch second k) :
    let c := s.channel ch
    (c.state = .playing →
      Completes .blockFetchArrival s
        ((takeReturn Source.isFetch s).setChannel ch
          (c.setBuffer second { c.buffer second with cond := .arrived, data := (c.buffer second).data ++ ret.data }))) ∧
    (c.state = .closing →
      Completes .blockFetchArrival s
        ((takeReturn Source.isFetch s).setChannel ch { c.setBuffer second {} with state := .free })) := by
  intro c
  refine ⟨fun hst => ⟨_, exec_blockFetchArrival hr hsrc, taken_endsAs' hout ?_⟩,
    fun hst => ⟨_, exec_blockFetchArrival hr hsrc, taken_endsAs' hout ?_⟩⟩ <;>
  have hst : ((takeReturn Source.isFetch s).channel ch).state = _ := hst
  · unfold fetchArrived
    dsimp only
    rw [hst, if_neg (by decide), if_neg (by decide)]
    rfl
  · unfold fetchArrived
    dsimp only
    rw [hst, if_pos rfl]
    rfl

/-- (2) of O46. -/
theorem offsetWalk_follows {s : State} {ch : Nat} {ret : Returned} (hout : s.out = {})
    (hr : s.returnOf Source.isOffsetWalk = some ret) (hsrc : ret.source = .offsetWalk ch) :
    let c := s.channel ch
    let n := headerNext ret.data
    (n < s.profile.blocks → 1 < c.walkLeft →
      Completes .offsetWalkRead s
        { (takeReturn Source.isOffsetWalk s).setChannel ch { c with walkLeft := c.walkLeft - 1, walkBlock := n } with
          out.requests := [{ source := .offsetWalk ch, write := false, addr := s.profile.storeBase + 512 * n
                             beats := 1 }] }) ∧
    (n < s.profile.blocks → c.walkLeft = 1 →
      Completes .offsetWalkRead s
        { (takeReturn Source.isOffsetWalk s).setChannel ch { c with walkLeft := 0, buffer0 := ⟨n, .fetching, []⟩ } with
          out.requests := (List.range 8).map fun k =>
            { source := .blockFetch ch false k, write := false, addr := s.profile.storeBase + 512 * n + 64 * k
              beats := 8 } }) ∧
    (s.profile.blocks ≤ n → s.headWaits →
      ∃ t, exec .offsetWalkRead s = .next t ∧ sameOuter s t ∧
        t.channel ch = { c with walkLeft := c.walkLeft - 1, state := .ended, order := none } ∧
        ∀ slot e, c.order = some slot → s.entryOf slot = some e →
          lineGrew s t .directory [completionWrite s slot e.copy .done false
            (le 1 ch ++ le 1 1 ++ le 2 c.index ++ le 2 c.generation ++ zeros 2 ++ le 4 (s.message c.index).length
              ++ le 4 (min c.offset none32))]) := by
  intro c n
  have hp : (takeReturn Source.isOffsetWalk s).profile.blocks = s.profile.blocks := rfl
  have hc : (takeReturn Source.isOffsetWalk s).channel ch = c := rfl
  have hto : (takeReturn Source.isOffsetWalk s).out = {} := hout
  have hstep : walkStep ch ret.data (takeReturn Source.isOffsetWalk s) =
      if n ≥ s.profile.blocks then
        openEnded ch ((takeReturn Source.isOffsetWalk s).setChannel ch { c with walkLeft := c.walkLeft - 1 })
      else if c.walkLeft ≤ 1 then
        fetchBlock ch false n ((takeReturn Source.isOffsetWalk s).setChannel ch { c with walkLeft := c.walkLeft - 1 })
      else raiseOffsetRead ch n ((takeReturn Source.isOffsetWalk s).setChannel ch { c with walkLeft := c.walkLeft - 1 }) := rfl
  refine ⟨fun hn hw => ⟨_, exec_offsetWalkRead hr hsrc, taken_endsAs' hout ?_⟩,
    fun hn hw => ⟨_, exec_offsetWalkRead hr hsrc, taken_endsAs' hout ?_⟩, fun hn hwaits => ?_⟩
  · rw [hstep, if_neg (by omega), if_neg (by omega)]
    unfold raiseOffsetRead
    rw [channel_setChannel, if_pos rfl, setChannel_setChannel]
    exact raise_from_nothing (s := (takeReturn Source.isOffsetWalk s).setChannel ch _) hto _
  · rw [hstep, if_neg (by omega), if_pos (by omega)]
    unfold fetchBlock
    rw [channel_setChannel, if_pos rfl, setChannel_setChannel, show c.walkLeft - 1 = 0 by omega]
    exact raiseAll_from_nothing (s := (takeReturn Source.isOffsetWalk s).setChannel ch _) hto _
  · generalize hv : (takeReturn Source.isOffsetWalk s).setChannel ch { c with walkLeft := c.walkLeft - 1 } = v at hstep
    have hvc : v.channel ch = { c with walkLeft := c.walkLeft - 1 } := by rw [← hv, channel_setChannel, if_pos rfl]
    have hvs : v.profile = s.profile ∧ v.ring = s.ring ∧ v.arbiter.lines = s.arbiter.lines ∧ v.host = s.host ∧
        ∀ j, v.message j = s.message j := by rw [← hv]; exact ⟨rfl, rfl, rfl, rfl, fun _ => rfl⟩
    obtain ⟨hvp, hvr, hvl, hvh, hvm⟩ := hvs
    obtain ⟨vo, ri, out, hw, hwc, hdone⟩ := openEnded_ends hvc
    have hact : walkStep ch ret.data (takeReturn Source.isOffsetWalk s) = openEnded ch v := by
      rw [hstep, if_pos hn]
    have hends := taken_endsAs' (f := fun t => walkStep ch ret.data (takeReturn Source.isOffsetWalk t)) hout hact
    have houter := hends.sameOuter (outer_sameOuter ((State.outer_of_base (show (openEnded ch v).base = v.base by simp)).trans
      (show v.outer = s.outer by rw [← hv]; rfl)))
    generalize openEnded ch v = w at hw hwc hdone hact hends houter
    have hwh : w.headWaits := by
      unfold State.headWaits at hwaits ⊢
      rw [show w.host = s.host by rw [hw, ← hvh]]
      exact hwaits
    refine ⟨_, exec_offsetWalkRead hr hsrc, houter, ?_, fun slot e horder he => ?_⟩
    · rw [channel_congr (hends.voice hwh), hwc, if_pos rfl]
    · refine lineGrew_of_ends hends (by rw [hw]; exact hvl) fun r hm => ?_
      rw [List.mem_singleton.mp hm]
      refine ⟨?_, rfl⟩
      have hd := hdone slot e horder (by unfold State.entryOf; rw [hvr]; exact he)
      rw [completionWrite_congr hvp, hvm] at hd
      exact hd

/-- (3) of O46. -/
theorem openArrived_opens {s : State} {ch k slot : Nat} {second : Bool} {ret : Returned} {e : InFlight} (hout : s.out = {})
    (hr : s.returnOf Source.isFetch = some ret) (hsrc : ret.source = .blockFetch ch second k)
    (hst : (s.channel ch).state = .opening) (hord : (s.channel ch).order = some slot) (he : s.entryOf slot = some e) :
    let c := s.channel ch
    let data := (c.buffer second).data ++ ret.data
    let count := headerCount (data.take 8)
    let next := headerNext (data.take 8)
    let length := (s.message c.index).length
    let ahead : Buffer := if next < s.profile.blocks then ⟨next, .fetching, []⟩ else {}
    let reads : List Request := if next < s.profile.blocks then
        (List.range 8).map fun i =>
          { source := .blockFetch ch (!second) i, write := false, addr := s.profile.storeBase + 512 * next + 64 * i
            beats := 8 }
      else []
    let held : Buffer := { c.buffer second with cond := .arrived, data := data }
    let answered (ended : Nat) (d : Channel) (raised : List Request) : Prop :=
      Completes .blockFetchArrival s
        { (takeReturn Source.isFetch s).setChannel ch { d with order := none } with
          ring := { s.ring with
            inFlight := s.ring.inFlight.map fun x => if x.slot = slot then { x with stage := .completing } else x }
          out.requests := raised ++ [completionWrite s slot e.copy .done false
            (le 1 ch ++ le 1 ended ++ le 2 c.index ++ le 2 c.generation ++ zeros 2 ++ le 4 length
              ++ le 4 (min c.offset none32))] }
    (c.discard ≤ count → c.discard = 0 ∨ (c.reached + c.discard < length ∧
        (c.discard < count ∨ next < s.profile.blocks)) →
      answered 0 { c.passed second data c.discard held ahead with state := .playing, position := c.offset } reads) ∧
    (∀ j, 0 < j → j ≤ c.discard → j ≤ count → (1 < j → c.reached + (j - 1) < length) →
      length ≤ c.reached + j ∨ (j = count ∧ s.profile.blocks ≤ next) →
      answered 1 { c.passed second data j {} {} with state := .ended, position := c.reached + j } []) ∧
    (count < c.discard → c.reached + count < length → next < s.profile.blocks →
      Completes .blockFetchArrival s
        { (takeReturn Source.isFetch s).setChannel ch (c.passed second data count held ahead) with out.requests := reads }) := by
  intro c data count next length ahead reads held answered
  have hu : ∃ u, u = takeReturn Source.isFetch s := ⟨_, rfl⟩
  obtain ⟨u, hu⟩ := hu
  have huc : u.channel ch = c := by rw [hu]; rfl
  have huo : u.out = {} := by rw [hu]; exact hout
  have hup : u.profile = s.profile := by rw [hu]; rfl
  have hum (j : Nat) : u.message j = s.message j := by rw [hu]; rfl
  have hue : u.entryOf slot = some e := by rw [hu]; exact he
  have hur : u.ring = s.ring := by rw [hu]; rfl
  have hact := openArrived_eq huc hst second ret.data data rfl
  rw [← hu]
  have hcomp (w : State) (hw : fetchArrived ch second ret.data u = w) : Completes .blockFetchArrival s w :=
    ⟨_, exec_blockFetchArrival hr hsrc, taken_endsAs' hout (by rw [← hw, hu])⟩
  have hp (j : Nat) : (c.loaded second data).passes j = c.passed second data j held {} := loaded_passes c second data j
  -- the samples that may be passed before the stream ends
  have hin (i : Nat) (hi : i < count) :
      ((c.loaded second data).passes i).blockPos < ((c.loaded second data).passes i).sampleCount := by
    rw [hp]
    exact hi
  have hend (j : Nat) : u.streamEnded ((c.loaded second data).passes j) ((c.loaded second data).passes j).reached = true ↔
      length ≤ c.reached + j ∨ (count ≤ j ∧ s.profile.blocks ≤ next) := by
    rw [passed_streamEnded, hum, hup]
  have hgo (j : Nat) (h1 : c.reached + j < length) (h2 : j < count ∨ next < s.profile.blocks) :
      u.streamEnded ((c.loaded second data).passes j) ((c.loaded second data).passes j).reached = false := by
    rw [Bool.eq_false_iff, ne_eq, hend]
    omega
  -- the fetch ahead
  have hahead (d : Channel) (hcur : d.current = second) (hother : d.buffer (!second) = {})
      (hn : u.nextBlock d = if next < s.profile.blocks then some next else none) :
      prefetch ch (u.setChannel ch d) =
        { u.setChannel ch (d.setBuffer (!second) ahead) with out.requests := reads } := by
    have hch : (u.setChannel ch d).channel ch = d := by rw [channel_setChannel, if_pos rfl]
    rw [prefetch_passed (second := second) (data := data) hch hcur (by rw [hother]) (by exact (hn.trans (by rw [← hup]; rfl)))]
    by_cases hb : next < s.profile.blocks
    · have hb' : headerNext (data.take 8) < (u.setChannel ch d).profile.blocks := (by rw [← hup] at hb; exact hb)
      have hfetch : fetchReads (u.setChannel ch d) ch (!second) next = reads := by
        rw [show reads = _ from if_pos hb]
        unfold fetchReads State.blockAddr
        rw [show (u.setChannel ch d).profile = s.profile from hup]
      rw [if_pos hb', show ahead = _ from if_pos hb]
      unfold fetchBlock
      rw [hch, setChannel_setChannel, hfetch]
      exact raiseAll_from_nothing (s := u.setChannel ch _) huo _
    · have hb' : ¬ headerNext (data.take 8) < (u.setChannel ch d).profile.blocks := (by rw [← hup] at hb; exact hb)
      have hsame : d.setBuffer (!second) {} = d := by
        cases d
        cases second <;> cases hother <;> rfl
      rw [if_neg hb', show ahead = _ from if_neg hb, show reads = _ from if_neg hb, hsame]
      exact (requests_nil (s := u.setChannel ch d) huo).symm
  have hdone (b : Bool) (d : Channel) (rs : List Request) (ho : d.order = some slot)
      (hres : playOpenResults ch d b (s.message d.index).length = playOpenResults ch c b length) :
      openDone ch b { u.setChannel ch d with out.requests := rs } =
        { u.setChannel ch { d with order := none } with
          ring := { s.ring with
            inFlight := s.ring.inFlight.map fun x => if x.slot = slot then { x with stage := .completing } else x }
          out.requests := rs ++ [completionWrite s slot e.copy .done false (playOpenResults ch c b length)] } := by
    generalize hx : ({ u.setChannel ch d with out.requests := rs } : State) = x
    have hxc : x.channel ch = d := by rw [← hx]; exact (channel_setChannel ..).trans (if_pos rfl)
    rw [openDone_eq hxc ho (e := e) (by rw [← hx]; exact hue) b, completionWrite_congr (s := s) (by rw [← hx]; exact hup),
      show x.message d.index = s.message d.index by rw [← hx]; exact hum _, hres, ← hur]
    have hset : x.setChannel ch { d with order := none } =
        { (u.setChannel ch d).setChannel ch { d with order := none } with out.requests := rs } := by rw [← hx]; rfl
    rw [hset, setChannel_setChannel, ← hx]
    rfl
  have hopening (j : Nat) : (c.passed second data j held {}).state = .opening := by cases second <;> exact hst
  have hans (n : Nat) (b : Bool) (d : Channel) (rs : List Request) (hb : boolByte b = le 1 n) (ho : d.order = some slot)
      (hres : playOpenResults ch d b (s.message d.index).length = playOpenResults ch c b length)
      (h : fetchArrived ch second ret.data u = openDone ch b { u.setChannel ch d with out.requests := rs }) :
      answered n d rs := by
    have hc := hcomp _ (h.trans (hdone b d rs ho hres))
    unfold playOpenResults at hc
    rw [hb, hu] at hc
    exact hc
  refine ⟨fun hcount hgoes => hans 0 false _ reads rfl ?_ ?_ ?_, fun j h0 hj hjc hlt hends => hans 1 true _ [] rfl ?_ ?_ ?_,
    fun hc hl hn => hcomp _ ?_⟩
  · cases second <;> exact hord
  · cases second <;> rfl
  · have hpass := discardSamples_passes (s := u) (c := c.loaded second data) (n := c.discard) (j := c.discard) (Nat.le_refl _)
      (fun i hi => hin i (by omega)) (fun i hi => hgo (i + 1) (by omega) (by omega))
    rw [Nat.sub_self, hp] at hpass
    have hpass : discardSamples u c.discard (c.loaded second data) = c.passed second data c.discard held {} := hpass
    rw [hact _ hpass, if_neg, if_pos]
    · rw [hahead]
      · cases second <;> rfl
      · cases second <;> rfl
      · cases second <;> rfl
      · exact (passed_nextBlock u c second data c.discard {}).trans (by rw [hup])
    · exact Nat.sub_self _
    · rw [hopening]
      decide
  · cases second <;> exact hord
  · cases second <;> rfl
  · obtain ⟨i, rfl⟩ : ∃ i, j = i + 1 := ⟨j - 1, by omega⟩
    have hpass := discardSamples_ends (s := u) (c := c.loaded second data) (n := c.discard) (j := i) (by omega)
      (fun x hx => hin x (by omega)) (fun x hx => hgo (x + 1) (by omega) (by omega)) ((hend (i + 1)).mpr (by omega))
    rw [hp] at hpass
    rw [hact _ hpass, if_pos (show ((c.passed second data (i + 1) held {}).finish).state = .ended from rfl),
      requests_nil (s := u.setChannel ch _) huo]
    cases second <;> rfl
  · have hpass := discardSamples_passes (s := u) (c := c.loaded second data) (n := c.discard) (j := count) (by omega)
      (fun i hi => hin i (by omega)) (fun i hi => hgo (i + 1) (by omega) (by omega))
    rw [hp, discardSamples_stops (s := u) (c := c.passed second data count held {}) (c.discard - count)
      (Nat.le_refl count)] at hpass
    rw [hact _ hpass, if_neg, if_neg, hahead]
    · cases second <;> rfl
    · cases second <;> rfl
    · cases second <;> rfl
    · exact (passed_nextBlock u c second data count {}).trans (by rw [hup])
    · show ¬ c.discard - count = 0
      omega
    · rw [hopening]
      decide

/-- Settles O46. -/
theorem fetchAndOffsetWalkMoveThePlayback : Obligations.FetchAndOffsetWalkMoveThePlayback :=
  ⟨fun _ _ _ _ _ hout _ hr hsrc => fetchArrived_fills hout hr hsrc,
    fun _ _ _ hout hr hsrc _ => offsetWalk_follows hout hr hsrc,
    fun _ _ _ _ _ _ _ hout hr hsrc hst hord he => openArrived_opens hout hr hsrc hst hord he⟩

end Sys2Proof.Machine
end

section
/-! PROOFS. Reads of the play apertures (3.4). -/

namespace Sys2Proof.Machine

/-! ### One position (R64) -/

/-- (1) of O27. -/
theorem playStep_yields {s : State} {ch : Nat} (hend : s.streamEnded (s.channel ch) (s.channel ch).position = false)
    (hpos : (s.channel ch).blockPos < (s.channel ch).sampleCount) : playStep ch s = yieldSample ch s := by
  unfold playStep
  dsimp only
  rw [if_neg (by rw [hend]; decide), if_pos hpos]

/-! ### The positions of one aperture (R64 to R66) -/

/-- The channel gives no sample and lets no read wait (R64, R66). -/
def State.silent (s : State) (ch : Nat) : Prop :=
  (s.channel ch).state ≠ .playing ∧ ¬((s.channel ch).state = .opening ∧ (s.channel ch).dir = .play)

theorem meetChannel_met {ch : Nat} {seen : List Nat} (h : ch ∈ seen) (s : State) : meetChannel ch seen s = s := by
  unfold meetChannel
  exact if_neg fun hc => hc.1 h

/-- The positions of the play aperture of a channel met before read 0 where none has both bytes enabled, where the
channel's stall has expired, and where it is silent (R64 to R66). -/
theorem serveRead_zeros {s : State} {zeroed : Option Nat} {ch : Nat} {seen : List Nat} (hseen : ch ∈ seen) :
    ∀ (ls : List (Option Byte)) (off : Nat), ls.length % 2 = 0 → 65536 * ch + 32768 ≤ off →
      off + ls.length ≤ 65536 * (ch + 1) → (∀ x ∈ ls, x = none) ∨ zeroed = some ch ∨ s.silent ch →
      serveRead zeroed off ls seen s = (List.replicate ls.length (some 0#8), none, s)
  | [], _, _, _, _, _ => rfl
  | [_], _, heven, _, _, _ => absurd heven (show ¬ 1 % 2 = 0 by decide)
  | lo :: hi :: ls, off, heven, hlow, hhigh, hzero => by
    simp only [List.length_cons] at heven hhigh
    have hch : off / 65536 = ch := by omega
    have ih := serveRead_zeros (s := s) (zeroed := zeroed) hseen ls (off + 2) (by omega) (by omega) (by omega)
      (hzero.imp_left fun h x hx => h x (List.mem_cons_of_mem _ (List.mem_cons_of_mem _ hx)))
    unfold serveRead
    dsimp only
    rw [if_neg (by omega), hch, meetChannel_met hseen, if_pos hseen, ih]
    have hrep : (some 0#8 :: some 0#8 :: List.replicate ls.length (some 0#8), (none : Option Stall), s) =
        (List.replicate (lo :: hi :: ls).length (some 0#8), none, s) := rfl
    by_cases hfirst : lo.isNone = true ∨ hi.isNone = true ∨ zeroed = some ch
    · rw [if_pos hfirst, hrep]
    · rw [if_neg hfirst]
      obtain hnone | hexp | ⟨hplay, hopen⟩ := hzero
      · exact absurd (.inl (by rw [hnone lo (List.mem_cons_self ..)]; rfl)) hfirst
      · exact absurd (.inr (.inr hexp)) hfirst
      · rw [if_neg hopen, if_neg hplay, hrep]

/-- The channel as a read that first meets it leaves it (R66). -/
theorem meetChannel_first (ch : Nat) (s : State) :
    meetChannel ch [] s =
      if (s.channel ch).state = .ended then
        s.setChannel ch { s.channel ch with pastEnd := sat32 (s.channel ch).pastEnd } else s := by
  unfold meetChannel
  dsimp only
  by_cases h : (s.channel ch).state = .ended
  · rw [if_pos ⟨List.not_mem_nil, h⟩, if_pos h]
  · rw [if_neg fun hc => h hc.2, if_neg h]

theorem meetChannel_silent {s : State} {ch : Nat} (h : s.silent ch) : (meetChannel ch [] s).silent ch := by
  rw [meetChannel_first]
  split
  next =>
    unfold State.silent at h ⊢
    rw [channel_setChannel, if_pos rfl]
    exact h
  next => exact h

/-- A read of a channel that plays nothing (R64, R66). -/
theorem serveRead_silent {s : State} {ch off : Nat} {ls : List (Option Byte)} (hpos : 0 < ls.length)
    (heven : ls.length % 2 = 0) (hlow : 65536 * ch + 32768 ≤ off) (hhigh : off + ls.length ≤ 65536 * (ch + 1))
    (hs : s.silent ch) :
    serveRead none off ls [] s = (List.replicate ls.length (some 0#8), none, meetChannel ch [] s) := by
  match ls, hpos, heven, hhigh with
  | [_], _, heven, _ => exact absurd heven (show ¬ 1 % 2 = 0 by decide)
  | lo :: hi :: ls, _, heven, hhigh =>
    simp only [List.length_cons] at heven hhigh
    have hch : off / 65536 = ch := by omega
    have hmet := meetChannel_silent hs
    have hrest := serveRead_zeros (s := meetChannel ch [] s) (zeroed := none) (List.mem_singleton.mpr rfl) ls (off + 2) (by omega)
      (by omega) (by omega) (.inr (.inr hmet))
    unfold serveRead
    dsimp only
    rw [if_neg (by omega), hch, if_neg List.not_mem_nil, hrest, if_neg hmet.2, if_neg hmet.1]
    have hrep : (some 0#8 :: some 0#8 :: List.replicate ls.length (some 0#8), (none : Option Stall), meetChannel ch [] s) =
        (List.replicate (lo :: hi :: ls).length (some 0#8), none, meetChannel ch [] s) := rfl
    rw [hrep, ite_self]

/-- A read of one position of a PLAYING channel (R64). -/
theorem serveRead_sample {s : State} {ch off n : Nat} {v : Int} {b1 b2 : Byte} (heven : n % 2 = 0)
    (hlow : 65536 * ch + 32768 ≤ off) (hhigh : off + (n + 2) ≤ 65536 * (ch + 1)) (hplay : (s.channel ch).state = .playing)
    (hv : (playStep ch s).1 = .sample v) :
    serveRead none off (some b1 :: some b2 :: List.replicate n none) [] s =
      (allLanes (leInt 2 v) ++ List.replicate n (some 0#8), none, (playStep ch s).2) := by
  have hch : off / 65536 = ch := by omega
  have hmeet : meetChannel ch [] s = s := by rw [meetChannel_first, if_neg (by rw [hplay]; decide)]
  have hrest := serveRead_zeros (s := (playStep ch s).2) (zeroed := none) (ch := ch) (List.mem_singleton.mpr rfl)
    (List.replicate n none) (off + 2) (by rwa [List.length_replicate]) (by omega)
    (by rw [List.length_replicate]; omega) (.inl fun x hx => List.eq_of_mem_replicate hx)
  rw [List.length_replicate] at hrest
  have hstep : playStep ch s = (.sample v, (playStep ch s).2) := Prod.ext hv rfl
  unfold serveRead
  dsimp only
  rw [if_neg (by omega), hch, if_neg List.not_mem_nil, hmeet, hplay, if_neg (by simp), if_neg (by simp), if_pos rfl, hstep]
  dsimp only
  rw [hrest]
  rfl

/-! ### The read at the head (R151) -/

/-- A read whose only part is served in full is answered and leaves (R64, R151). -/
theorem serveHead_answers {s u : State} {req : HostRequest} {w : HeadWork} {p : Part} {zeroed : Option Nat} {seen : List Nat}
    {out : List (Option Byte)} (hread : req.write = false) (hmode : w.mode = .active) (hparts : w.parts = [p])
    (hin : s.inAperture w.mode p = true)
    (hserve : serveRead zeroed (s.apertureOffset p.addr) p.lanes seen s = (out, none, u)) :
    ∃ past c, givenPast req past ∧ serveHead req zeroed seen w s =
      { u with
        host.fifo := u.host.fifo.tail, host.head := none, host.answers := u.host.answers ++ [w.answer ++ out ++ past]
        choices := c } := by
  have hvoice : s.voiceParts w = [p] := by
    unfold State.voiceParts
    rw [hparts, List.takeWhile_cons, hin]
    rfl
  obtain ⟨past, c, hpast, hadv⟩ := advanceHead_answers (s := u) (w := { w with parts := [], answer := w.answer ++ out }) hread rfl
  refine ⟨past, c, hpast, ?_⟩
  rw [← hadv]
  have hlanes : partLanes [p] = p.lanes := by
    unfold partLanes
    rw [List.flatMap_singleton]
  have hserved : serveVoice zeroed seen w s = ({ w with parts := [], answer := w.answer ++ out }, none, u) := by
    unfold serveVoice
    dsimp only
    rw [if_neg (by rw [hmode]; decide), hvoice, hlanes, show s.voiceOffset [p] = s.apertureOffset p.addr from rfl, hserve, hparts]
    rfl
  unfold serveHead
  rw [hserved]

/-- The answer of a read that leaves at its step. -/
theorem completes_answer {cmd : Instr} {s u : State} {req : HostRequest} {answer : List (Option Byte)}
    {f : State → State} {ls : List (Option Byte)} (ho : s.out = {}) (hfifo : s.host.fifo = [.host req]) (hu : u.host = s.host)
    (hx : exec cmd s = .next (taken f s))
    (hf : ∃ past c, givenPast req past ∧ f s =
      { u with
        host.fifo := u.host.fifo.tail, host.head := none, host.answers := u.host.answers ++ [answer ++ ls ++ past]
        choices := c }) :
    ∃ past, givenPast req past ∧ Completes cmd s
      { u with host := { s.host with fifo := [], head := none, answers := s.host.answers ++ [answer ++ ls ++ past] } } := by
  obtain ⟨past, c, hpast, hf⟩ := hf
  refine ⟨past, hpast, _, hx, EndsAs.of_choices (c := c) (taken_endsAs' ho ?_)⟩
  rw [hf]
  show ({ u with host := { u.host with fifo := u.host.fifo.tail, head := none, answers := _ }, choices := c } : State) = _
  rw [hu, hfifo]
  rfl

theorem atVoice_reads {s : State} {req : HostRequest} {w : HeadWork} (h : s.atVoice false = some (req, w)) :
    req.write = false := by
  unfold State.atVoice at h
  split at h
  · split at h
    next hc =>
      obtain ⟨rfl, rfl⟩ := Prod.mk.inj (Option.some.inj h)
      exact hc.1
    next => cases h
  · cases h

/-- What PLAY_APERTURE_READ does with the read at the head (R64). -/
def playHead (x : HostRequest × HeadWork) (s : State) : State := serveHead x.1 none [] x.2 s

theorem exec_playApertureRead {s : State} {req : HostRequest} {w : HeadWork} (h : s.atVoice false = some (req, w)) :
    exec .playApertureRead s = .next (taken (playHead (req, w)) s) := by
  have hplay : playHead = fun x t => serveHead x.1 none [] x.2 t := by
    funext x t
    rfl
  have hexec : exec .playApertureRead s = execPlayApertureRead s := rfl
  rw [hexec, hplay]
  unfold execPlayApertureRead
  exact stepOn_of _ s h

theorem exec_stallExpiry {s : State} {x : HostRequest × HeadWork × Nat × List Nat} (h : s.stalledRead = some x) :
    exec .stallExpiry s = .next (taken (expireStall x) s) :=
  stepOn_of expireStall s h

theorem expireStall_eq (req : HostRequest) (w : HeadWork) (ch : Nat) (seen : List Nat) (s : State) :
    expireStall (req, w, ch, seen) s = serveHead req (some ch) seen w
      (s.setChannel ch { s.channel ch with underruns := sat32 (s.channel ch).underruns }) := rfl

/-- Settles O27. -/
theorem playReadsOfTheAperture : Obligations.PlayReadsOfTheAperture := by
  refine ⟨fun s ch hend hpos => ?_, fun s req w p ch v ho hat hmode hparts hin hfifo _ _ hlanes hlow hhigh hplay hv => ?_,
    fun s req w p ch ho hat hmode hparts hin hfifo _ _ hpos heven hlow hhigh hplay hopen => ?_,
    fun s req w p ch seen ho hst hread hseen hmode hparts hin hfifo _ _ hpos heven hlow hhigh => ?_⟩
  · intro c code d
    rw [playStep_yields hend hpos]
    exact ⟨rfl, rfl⟩
  · refine completes_answer (f := playHead (req, w)) ho hfifo (playStep_hostNotices ch s).1 (exec_playApertureRead hat) ?_
    refine serveHead_answers (zeroed := none) (seen := []) (atVoice_reads hat) hmode hparts hin ?_
    rw [hlanes]
    exact serveRead_sample (n := 6) (by decide) hlow hhigh hplay hv
  · intro c
    refine completes_answer (f := playHead (req, w)) ho hfifo (by split <;> rfl) (exec_playApertureRead hat) ?_
    refine serveHead_answers (zeroed := none) (seen := []) (atVoice_reads hat) hmode hparts hin ?_
    rw [← meetChannel_first]
    exact serveRead_silent hpos heven hlow hhigh ⟨hplay, hopen⟩
  · intro c
    have hsat (n : Nat) : (if n ≥ 0xFFFFFFFF then 0xFFFFFFFF else n + 1) = sat32 n := by
      unfold sat32 none32
      rfl
    rw [hsat]
    refine completes_answer ho hfifo rfl (exec_stallExpiry hst) ?_
    rw [expireStall_eq]
    have hoffset (d : Channel) : (s.setChannel ch d).apertureOffset p.addr = s.apertureOffset p.addr := rfl
    refine serveHead_answers hread hmode hparts ((inAperture_congr (by exact rfl) (by exact rfl) w.mode p).trans hin) ?_
    rw [hoffset]
    exact serveRead_zeros hseen p.lanes _ heven hlow hhigh (.inr (.inl rfl))

end Sys2Proof.Machine
end

section
/-! PROOFS. The work of STARTING (11.4, 11.5): its bursts, its stages, what begins and sorts it. -/

namespace Sys2Proof.Machine

/-! ### The bursts of the work -/

theorem le_length (n v : Nat) : (le n v).length = n := by
  induction n generalizing v with
  | zero => rfl
  | succ n ih =>
    unfold le
    rw [List.length_cons, ih]

theorem zeros_length (n : Nat) : (zeros n).length = n := List.length_replicate

theorem allLanes_length (bs : List Byte) : (allLanes bs).length = bs.length := List.length_map ..

theorem packDigits_length (ds : List Nat) (n : Nat) : (packDigits ds n).length = n := by
  induction n generalizing ds with
  | zero => rfl
  | succ n ih =>
    unfold packDigits
    rw [List.length_cons, ih]

theorem messageRecord_length (m : Message) : (messageRecord m).length = 64 := by
  unfold messageRecord
  simp [le_length, zeros_length, packDigits_length]

/-- A write burst of the work (R189, R190). -/
def workBurst (a : Nat) (lanes : List (Option Byte)) : Request :=
  { source := .startWork, write := true, addr := a, beats := lanes.length / 8, lanes := lanes }

/-- A read burst of the work (R190). -/
def workFetch (a beats : Nat) : Request := { source := .startWork, write := false, addr := a, beats := beats }

theorem workWrite_eq {s : State} (h : s.out = {}) (a : Nat) (lanes : List (Option Byte)) :
    workWrite a lanes s =
      { s with
        control := { s.control with work := { s.control.work with writes := [(a, lanes)] } }
        out.requests := [workBurst a lanes] } :=
  raise_from_nothing (s := { s with control.work.writes := [(a, lanes)] }) h _

theorem workRead_eq {s : State} (h : s.out = {}) (a beats : Nat) :
    workRead a beats s =
      { s with
        control := { s.control with work := { s.control.work with reading := true } }
        out.requests := [workFetch a beats] } :=
  raise_from_nothing (s := { s with control.work.reading := true }) h _

theorem workBurst_record (a : Nat) (m : Message) : workBurst a (allLanes (messageRecord m)) =
    { source := .startWork, write := true, addr := a, beats := 8, lanes := allLanes (messageRecord m) } := by
  unfold workBurst
  rw [allLanes_length, messageRecord_length]

/-! ### The stages of the work, one equation each (R189 to R192) -/

section
variable {s : State} (n : Nat)

theorem nextWork_records_burst (h : s.control.work.stage = .records) (hi : s.control.work.index < s.profile.records) :
    nextWork (n + 1) s = workWrite (s.recordAddr s.control.work.index) (allLanes (messageRecord {})) s := by
  conv_lhs => unfold nextWork
  dsimp only
  rw [h]
  exact if_pos hi

theorem nextWork_records_done (h : s.control.work.stage = .records) (hi : ¬ s.control.work.index < s.profile.records) :
    nextWork (n + 1) s = nextWork n (toStage .stack
      { s with store.freeRecords := List.range s.profile.records, store.serial := 1 }) := by
  conv_lhs => unfold nextWork
  dsimp only
  rw [h]
  exact if_neg hi

theorem nextWork_stackLine {l : Nat} (h : s.control.work.stage = .stack)
    (hl : (stackLines s.profile.blocks s.unclaimed.length)[s.control.work.index]? = some l) : nextWork (n + 1) s =
    workWrite (s.profile.stackBase + 64 * l) (stackLine s.profile.blocks s.unclaimed.length s.unclaimed l) s := by
  conv_lhs => unfold nextWork
  dsimp only
  rw [h]
  dsimp only
  rw [hl]

theorem nextWork_stackDone (h : s.control.work.stage = .stack)
    (hl : (stackLines s.profile.blocks s.unclaimed.length)[s.control.work.index]? = none) : nextWork (n + 1) s =
    nextWork n (toStage (if s.control.work.kind = .format then .pool else .adoptFolios) (endStack s)) := by
  conv_lhs => unfold nextWork
  dsimp only
  rw [h]
  dsimp only
  rw [hl]

theorem nextWork_pool_burst (h : s.control.work.stage = .pool) (hi : s.control.work.index < s.profile.poolRecords) :
    nextWork (n + 1) s = workWrite (s.poolAddr s.control.work.index) (allLanes (zeros 64)) s := by
  conv_lhs => unfold nextWork
  dsimp only
  rw [h]
  exact if_pos hi

theorem nextWork_pool_done (h : s.control.work.stage = .pool) (hi : ¬ s.control.work.index < s.profile.poolRecords) :
    nextWork (n + 1) s = nextWork n (toStage .roomHalves
      { s with rating.freePool := List.range s.profile.poolRecords, rating.serial := 1 }) := by
  conv_lhs => unfold nextWork
  dsimp only
  rw [h]
  exact if_neg hi

theorem nextWork_roomHalves_burst (h : s.control.work.stage = .roomHalves) (hi : s.control.work.index < s.roomCount) :
    nextWork (n + 1) s = workWrite (s.roomPartAddr s.control.work.index) (allLanes (zeros 64)) s := by
  conv_lhs => unfold nextWork
  dsimp only
  rw [h]
  exact if_pos hi

theorem nextWork_roomHalves_done (h : s.control.work.stage = .roomHalves) (hi : ¬ s.control.work.index < s.roomCount) :
    nextWork (n + 1) s = nextWork n (toStage .slots s) := by
  conv_lhs => unfold nextWork
  dsimp only
  rw [h]
  exact if_neg hi

theorem nextWork_slots_burst (h : s.control.work.stage = .slots) (hi : s.control.work.index < s.profile.orderSlots) :
    nextWork (n + 1) s = workWrite (s.slotAddr s.control.work.index) (allLanes (zeros 64)) s := by
  conv_lhs => unfold nextWork
  dsimp only
  rw [h]
  exact if_pos hi

theorem nextWork_slots_done (h : s.control.work.stage = .slots) (hi : ¬ s.control.work.index < s.profile.orderSlots) :
    nextWork (n + 1) s = nextWork n (toStage .noticeSlots s) := by
  conv_lhs => unfold nextWork
  dsimp only
  rw [h]
  exact if_neg hi

theorem nextWork_noticeSlots_burst (h : s.control.work.stage = .noticeSlots) (hi : s.control.work.index < s.profile.noticeSlots) :
    nextWork (n + 1) s = workWrite (s.noticeSlotAddr s.control.work.index) (allLanes (zeros 32)) s := by
  conv_lhs => unfold nextWork
  dsimp only
  rw [h]
  exact if_pos hi

theorem nextWork_noticeSlots_done (h : s.control.work.stage = .noticeSlots) (hi : ¬ s.control.work.index < s.profile.noticeSlots) :
    nextWork (n + 1) s = nextWork n (toStage .noticeHeader s) := by
  conv_lhs => unfold nextWork
  dsimp only
  rw [h]
  exact if_neg hi

theorem nextWork_noticeHeader_burst (h : s.control.work.stage = .noticeHeader) (hi : s.control.work.index = 0) :
    nextWork (n + 1) s = workWrite s.profile.noticeBase (allLanes s.headerLine) s := by
  conv_lhs => unfold nextWork
  dsimp only
  rw [h]
  exact if_pos hi

theorem nextWork_noticeHeader_done (h : s.control.work.stage = .noticeHeader) (hi : ¬ s.control.work.index = 0) :
    nextWork (n + 1) s = if s.control.work.kind = .format then endFormat s else nextWork n (toStage .adoptRecords s) := by
  conv_lhs => unfold nextWork
  dsimp only
  rw [h]
  exact if_neg hi

theorem nextWork_adoptSlots_burst (h : s.control.work.stage = .adoptSlots) (hi : s.control.work.index < s.profile.orderSlots) :
    nextWork (n + 1) s = workRead (s.slotAddr s.control.work.index) 8 s := by
  conv_lhs => unfold nextWork
  dsimp only
  rw [h]
  exact if_pos hi

theorem nextWork_adoptSlots_done (h : s.control.work.stage = .adoptSlots) (hi : ¬ s.control.work.index < s.profile.orderSlots) :
    nextWork (n + 1) s = nextWork n (toStage .noticeSlots s) := by
  conv_lhs => unfold nextWork
  dsimp only
  rw [h]
  exact if_neg hi

theorem nextWork_adoptRecords_burst (h : s.control.work.stage = .adoptRecords) (hi : s.control.work.index < s.profile.records) :
    nextWork (n + 1) s = workRead (s.recordAddr s.control.work.index) 8 s := by
  conv_lhs => unfold nextWork
  dsimp only
  rw [h]
  exact if_pos hi

theorem nextWork_adoptRecords_done (h : s.control.work.stage = .adoptRecords) (hi : ¬ s.control.work.index < s.profile.records) :
    nextWork (n + 1) s = nextWork n (toStage .adoptWalk s) := by
  conv_lhs => unfold nextWork
  dsimp only
  rw [h]
  exact if_neg hi

theorem nextWork_adoptWalk (h : s.control.work.stage = .adoptWalk) {b : Bool} {t : State}
    (hc : startChains s.profile.records s.control.work.index s = (b, t)) : nextWork (n + 1) s =
    if b then t else nextWork n (toStage .adoptWrite (rebuildMailboxes t)) := by
  conv_lhs => unfold nextWork
  dsimp only
  rw [h]
  dsimp only
  rw [hc]

theorem nextWork_adoptWrite {j : Nat} (h : s.control.work.stage = .adoptWrite)
    (hj : s.writtenFrom s.control.work.index = some j) : nextWork (n + 1) s =
    workWrite (s.recordAddr j) (allLanes (messageRecord (s.message j).adopted))
      { s.setMessage j (s.message j).adopted with control.work.index := j } := by
  conv_lhs => unfold nextWork
  dsimp only
  rw [h]
  dsimp only
  rw [hj]

theorem nextWork_adoptWritten (h : s.control.work.stage = .adoptWrite)
    (hj : s.writtenFrom s.control.work.index = none) : nextWork (n + 1) s =
    nextWork n (toStage .stack { s with store.freeRecords := s.freeBitmap }) := by
  conv_lhs => unfold nextWork
  dsimp only
  rw [h]
  dsimp only
  rw [hj]

theorem nextWork_adoptFolios (h : s.control.work.stage = .adoptFolios) :
    nextWork (n + 1) s = readSummary s.control.work.index s := by
  conv_lhs => unfold nextWork
  dsimp only
  rw [h]

end

/-! ### The lowest record with a property (R190) -/

theorem find_range_some {n j : Nat} {p : Nat → Bool} (hj : j < n) (hp : p j = true) (hlow : ∀ k < j, p k = false) :
    (List.range n).find? p = some j := by
  rw [List.find?_range_eq_some]
  exact ⟨hp, List.mem_range.mpr hj, fun k hk => by rw [hlow k hk]; rfl⟩

theorem find_range_none {n : Nat} {p : Nat → Bool} (h : ∀ k < n, p k = false) : (List.range n).find? p = none := by
  rw [List.find?_range_eq_none]
  exact fun k hk => by rw [h k hk]; rfl

theorem keptFrom_some {s : State} {i j : Nat} (h : s.keptFrom i = some j) :
    i ≤ j ∧ j < s.profile.records ∧ (s.message j).state.listed = true := by
  have hp := List.find?_some h
  rw [Bool.and_eq_true, decide_eq_true_eq] at hp
  exact ⟨hp.1, List.mem_range.mp (List.mem_of_find?_eq_some h), hp.2⟩

theorem keptFrom_eq_none {s : State} {i : Nat} (h : ∀ k, i ≤ k → k < s.profile.records → (s.message k).state.listed = false) :
    s.keptFrom i = none :=
  find_range_none fun k hk => by
    by_cases hi : i ≤ k
    · rw [h k hi hk, Bool.and_false]
    · rw [decide_eq_false hi, Bool.false_and]

theorem keptFrom_eq_some {s : State} {i j : Nat} (hi : i ≤ j) (hj : j < s.profile.records)
    (hl : (s.message j).state.listed = true) (hlow : ∀ k, i ≤ k → k < j → (s.message k).state.listed = false) :
    s.keptFrom i = some j :=
  find_range_some hj (by rw [hl, decide_eq_true hi]; rfl) fun k hk => by
    by_cases hk' : i ≤ k
    · rw [hlow k hk' hk, Bool.and_false]
    · rw [decide_eq_false hk', Bool.false_and]

theorem writtenFrom_eq_none {s : State} {i : Nat} (h : ∀ k, i ≤ k → k < s.profile.records → (s.message k).state = .free) :
    s.writtenFrom i = none :=
  find_range_none fun k hk => by
    by_cases hi : i ≤ k
    · rw [h k hi hk]; simp
    · rw [decide_eq_false hi, Bool.false_and]

theorem writtenFrom_eq_some {s : State} {i j : Nat} (hi : i ≤ j) (hj : j < s.profile.records)
    (hl : (s.message j).state ≠ .free) (hlow : ∀ k, i ≤ k → k < j → (s.message k).state = .free) :
    s.writtenFrom i = some j :=
  find_range_some hj (by rw [decide_eq_true hl, decide_eq_true hi]; rfl) fun k hk => by
    by_cases hk' : i ≤ k
    · rw [hlow k hk' hk]; simp
    · rw [decide_eq_false hk', Bool.false_and]

theorem writtenFrom_isSome {s : State} {j : Nat} (hj : j < s.profile.records) (hl : (s.message j).state ≠ .free) :
    ∃ k, s.writtenFrom 0 = some k ∧ k < s.profile.records ∧ (s.message k).state ≠ .free := by
  cases hw : s.writtenFrom 0 with
  | none =>
    have hnone := (List.find?_range_eq_none.mp hw) j hj
    simp [hl] at hnone
  | some k =>
    have hp := List.find?_some hw
    rw [Bool.and_eq_true, decide_eq_true_eq, decide_eq_true_eq] at hp
    exact ⟨k, rfl, List.mem_range.mp (List.mem_of_find?_eq_some hw), hp.2⟩

/-! ### The walk of the next kept record (R190) -/

/-- A kept record whose first block passes the tests has it claimed, and its header is read (R190). -/
theorem startChains_reads {s : State} {n i j : Nat} (hk : s.keptFrom i = some j) (hfirst : (s.message j).first < s.profile.blocks)
    (hfree : (s.message j).first ∉ s.control.work.claims) (hblocks : 0 < (s.message j).blocks) :
    startChains (n + 1) i s = (true, claimBlock j (s.message j).first
      { s with control.work.index := j, control.work.samples := 0, control.work.header := [] }) := by
  unfold startChains
  rw [hk]
  dsimp only
  have hstart : startChain j s = (true, claimBlock j (s.message j).first
      { s with control.work.index := j, control.work.samples := 0, control.work.header := [] }) := by
    unfold startChain State.stopsAt
    dsimp only
    rw [if_neg]
    simp only [Bool.or_eq_true, decide_eq_true_eq]
    rintro ((h | h) | h)
    · omega
    · exact hfree h
    · omega
  rw [hstart]
  exact if_pos rfl

theorem startChains_none {s : State} {n i : Nat} (hk : s.keptFrom i = none) : startChains n i s = (false, s) := by
  cases n with
  | zero => rfl
  | succ n =>
    unfold startChains
    rw [hk]

theorem claimBlock_eq {s : State} (h : s.out = {}) (i b : Nat) :
    claimBlock i b s =
      { s with
        control := { s.control with work := { s.control.work with
          reading := true, block := b, claims := addMark s.control.work.claims b
          chains := Table.set [] s.control.work.chains i (b :: s.chainOf i) } }
        out.requests := [workFetch (s.profile.storeBase + 512 * b) 1] } :=
  workRead_eq (s := { s with
    control.work.block := b
    control.work.claims := addMark s.control.work.claims b
    control.work.chains := Table.set [] s.control.work.chains i (b :: s.chainOf i) }) h _ _

/-- The walk of the lowest kept record from the one in hand on begins (R190). -/
theorem nextWork_walks {s : State} {j b : Nat} (n : Nat) (ho : s.out = {}) (h : s.control.work.stage = .adoptWalk)
    (hk : s.keptFrom s.control.work.index = some j) (hb : (s.message j).first = b) (hfirst : b < s.profile.blocks)
    (hfree : b ∉ s.control.work.claims) (hblocks : 0 < (s.message j).blocks) :
    nextWork (n + 1) s =
      { s with
        control := { s.control with work := { s.control.work with
          index := j, reading := true, samples := 0, header := [], block := b
          claims := addMark s.control.work.claims b
          chains := Table.set [] s.control.work.chains j (b :: s.chainOf j) } }
        out.requests := [workFetch (s.profile.storeBase + 512 * b) 1] } := by
  subst hb
  obtain ⟨k, hrecords⟩ : ∃ k, s.profile.records = k + 1 :=
    ⟨s.profile.records - 1, by have := (keptFrom_some hk).2.1; omega⟩
  have hchains := startChains_reads (n := k) hk hfirst hfree hblocks
  rw [← hrecords] at hchains
  rw [nextWork_adoptWalk n h hchains, if_pos rfl]
  exact claimBlock_eq (s := { s with control.work.index := j, control.work.samples := 0, control.work.header := [] }) ho j _

/-! ### The mailboxes rebuilt (R191) -/

/-- The kept records of room `r` below `n`, in play order (R191). -/
def State.placed (s : State) (r n : Nat) : List Nat :=
  ((List.range n).filter fun j => (s.message j).state.listed && decide ((s.message j).room = r)).foldl
    (fun l j => insertPlay s j l) []

theorem insertPlay_congr {s t : State} (h : ∀ j, t.message j = s.message j) (i : Nat) (l : List Nat) :
    insertPlay t i l = insertPlay s i l := by
  induction l with
  | nil => rfl
  | cons j l ih =>
    unfold insertPlay
    rw [h, h, ih]

theorem mem_placed {s : State} {r n j : Nat} :
    j ∈ s.placed r n ↔ j < n ∧ (s.message j).state.listed = true ∧ (s.message j).room = r := by
  have hfold (js l : List Nat) : j ∈ js.foldl (fun l j => insertPlay s j l) l ↔ j ∈ js ∨ j ∈ l := by
    induction js generalizing l with
    | nil => simp
    | cons k js ih =>
      rw [List.foldl_cons, ih, mem_insertPlay, List.mem_cons]
      tauto
  unfold State.placed
  rw [hfold]
  simp

theorem placeKept_eq (i : Nat) (s : State) :
    (∃ bs, placeKept i s = { s with store := { s.store with mailboxes := bs } }) ∧
    ∀ r, (placeKept i s).mailbox r =
      if (s.message i).state.listed = true ∧ (s.message i).room = r then
        { s.mailbox r with list := insertPlay s i (s.mailbox r).list }
      else s.mailbox r := by
  unfold placeKept
  dsimp only
  by_cases hl : (s.message i).state.listed = true
  · rw [if_pos hl]
    refine ⟨⟨_, rfl⟩, fun r => ?_⟩
    rw [State.setMailbox_mailbox]
    by_cases hr : (s.message i).room = r
    · subst hr
      rw [if_pos rfl, if_pos ⟨hl, rfl⟩]
    · rw [if_neg (fun h => hr h.symm), if_neg (fun h => hr h.2)]
  · rw [if_neg hl]
    exact ⟨⟨_, rfl⟩, fun r => (if_neg fun h => hl h.1).symm⟩

/-- Every kept record stands in its room's list, in play order (R191). -/
theorem placeAll_places (s : State) (h : ∀ r, (s.mailbox r).list = []) (n : Nat) :
    (∃ bs, (List.range n).foldl (fun t i => placeKept i t) s = { s with store := { s.store with mailboxes := bs } }) ∧
    ∀ r, ((List.range n).foldl (fun t i => placeKept i t) s).mailbox r = { s.mailbox r with list := s.placed r n } := by
  induction n with
  | zero =>
    refine ⟨⟨_, rfl⟩, fun r => ?_⟩
    show s.mailbox r = { s.mailbox r with list := [] }
    rw [← h r]
  | succ n ih =>
    obtain ⟨⟨bs, hb⟩, hm⟩ := ih
    rw [List.range_succ, List.foldl_append]
    generalize (List.range n).foldl (fun t i => placeKept i t) s = t at hb hm
    obtain ⟨⟨bs', hb'⟩, hm'⟩ := placeKept_eq n t
    have hmess (j : Nat) : t.message j = s.message j := by rw [hb]; rfl
    refine ⟨⟨bs', by show placeKept n t = _; rw [hb', hb]⟩, fun r => ?_⟩
    show (placeKept n t).mailbox r = _
    rw [hm', hmess, hm, insertPlay_congr hmess]
    unfold State.placed
    rw [List.range_succ, List.filter_append, List.foldl_append]
    by_cases hr : (s.message n).state.listed = true ∧ (s.message n).room = r
    · rw [if_pos hr, List.filter_cons_of_pos (by simp [hr])]
      rfl
    · rw [if_neg hr, List.filter_cons_of_neg (by simpa using hr)]
      rfl

theorem insertPlay_perm (s : State) (i : Nat) (l : List Nat) : (insertPlay s i l).Perm (i :: l) := by
  induction l with
  | nil => exact List.Perm.refl _
  | cons j l ih =>
    unfold insertPlay
    split
    · exact List.Perm.refl _
    · exact (ih.cons j).trans (List.Perm.swap i j l)

theorem placed_nodup (s : State) (r n : Nat) : (s.placed r n).Nodup := by
  have hfold (js l : List Nat) : (js.foldl (fun l j => insertPlay s j l) l).Perm (js ++ l) := by
    induction js generalizing l with
    | nil => exact List.Perm.refl _
    | cons j js ih =>
      refine (ih _).trans (((insertPlay_perm s j l).append_left js).trans ?_)
      exact List.perm_middle
  unfold State.placed
  rw [(hfold _ _).nodup_iff, List.append_nil]
  exact List.Nodup.filter _ List.nodup_range

/-- A message past the 32nd of its room is released, counted damaged, and its claims cleared (R191). -/
theorem releaseAll_releases (s : State) (l : List Nat) :
    (∃ ms cl dm, l.foldl (fun t i => releaseSurplus i t) s = { s with
      store := { s.store with messages := ms }
      control := { s.control with work := { s.control.work with claims := cl, damaged := dm } } }) ∧
    (∀ j, (l.foldl (fun t i => releaseSurplus i t) s).message j =
      if j ∈ l then { s.message j with state := .deleting } else s.message j) ∧
    (∀ x, x ∈ (l.foldl (fun t i => releaseSurplus i t) s).control.work.claims ↔
      x ∈ s.control.work.claims ∧ ∀ j ∈ l, x ∉ s.chainOf j) ∧
    (∀ x, x ∈ (l.foldl (fun t i => releaseSurplus i t) s).control.work.damaged ↔ x ∈ l ∨ x ∈ s.control.work.damaged) := by
  induction l generalizing s with
  | nil => exact ⟨⟨_, _, _, rfl⟩, fun j => by simp, fun x => by simp, fun x => by simp⟩
  | cons i l ih =>
    rw [List.foldl_cons]
    have hone : ∃ ms, releaseSurplus i s = { s with
        store := { s.store with messages := ms }
        control := { s.control with work := { s.control.work with
          claims := s.control.work.claims.filter fun b => b ∉ s.chainOf i
          damaged := addMark s.control.work.damaged i } } } := ⟨_, rfl⟩
    have hmess (j : Nat) : (releaseSurplus i s).message j =
        if j = i then { s.message i with state := .deleting } else s.message j := State.setMessage_message ..
    obtain ⟨hrest, hm, hc, hd⟩ := ih (releaseSurplus i s)
    generalize l.foldl (fun t i => releaseSurplus i t) (releaseSurplus i s) = u at hrest hm hc hd
    generalize releaseSurplus i s = t at hone hmess hrest hm hc hd
    obtain ⟨ms, ht⟩ := hone
    have hchain (j : Nat) : t.chainOf j = s.chainOf j := by rw [ht]; rfl
    have hcl : t.control.work.claims = s.control.work.claims.filter fun b => b ∉ s.chainOf i := by rw [ht]
    have hdm : t.control.work.damaged = addMark s.control.work.damaged i := by rw [ht]
    refine ⟨?_, fun j => ?_, fun x => ?_, fun x => ?_⟩
    · obtain ⟨ms', cl, dm, hu⟩ := hrest
      exact ⟨ms', cl, dm, by rw [hu, ht]⟩
    · rw [hm, hmess]
      by_cases hj : j = i
      · subst hj
        simp
      · rw [if_neg hj]
        simp [hj]
    · rw [hc, hcl]
      simp only [hchain, List.mem_filter, List.mem_cons, decide_eq_true_eq, forall_eq_or_imp]
      tauto
    · rw [hd, hdm, mem_addMark, List.mem_cons]
      tauto

/-- The kept messages of a room get the next indexes of its list (R191). -/
theorem linkAll_links (s : State) (list l : List Nat) :
    (∃ ms, l.foldl (fun t i => t.setMessage i { t.message i with next := successor list i }) s =
      { s with store := { s.store with messages := ms } }) ∧
    ∀ j, (l.foldl (fun t i => t.setMessage i { t.message i with next := successor list i }) s).message j =
      if j ∈ l then { s.message j with next := successor list j } else s.message j := by
  induction l generalizing s with
  | nil => exact ⟨⟨_, rfl⟩, fun j => by simp⟩
  | cons i l ih =>
    rw [List.foldl_cons]
    have hone : ∃ ms, s.setMessage i { s.message i with next := successor list i } =
        { s with store := { s.store with messages := ms } } := ⟨_, rfl⟩
    have hmess := State.setMessage_message s i { s.message i with next := successor list i }
    obtain ⟨⟨ms', hu⟩, hm⟩ := ih (s.setMessage i { s.message i with next := successor list i })
    generalize s.setMessage i { s.message i with next := successor list i } = t at hone hmess hu hm
    obtain ⟨ms, ht⟩ := hone
    refine ⟨⟨ms', by rw [hu, ht]⟩, fun j => ?_⟩
    rw [hm, hmess]
    by_cases hj : j = i
    · subst hj
      simp
    · rw [if_neg hj]
      simp [hj]

/-- The summary of a room whose kept messages are `list` (R191). -/
def State.summaryOf (s : State) (list : List Nat) : Mailbox :=
  { recounted s {} list with places := list.length, blocksUsed := (list.map fun i => (s.message i).blocks).sum }

theorem summaryOf_congr {s t : State} {list : List Nat} (h : ∀ j ∈ list, ∃ n, t.message j = { s.message j with next := n }) :
    t.summaryOf list = s.summaryOf list := by
  have hcount (p : Message → Bool) (hp : ∀ m n, p { m with next := n } = p m) : countListed t p list = countListed s p list := by
    unfold countListed
    congr 1
    refine List.filter_congr fun j hj => ?_
    obtain ⟨n, hn⟩ := h j hj
    rw [hn, hp]
  have hblocks : (list.map fun i => (t.message i).blocks) = list.map fun i => (s.message i).blocks :=
    List.map_congr_left fun j hj => by
      obtain ⟨n, hn⟩ := h j hj
      rw [hn]
  unfold State.summaryOf recounted
  rw [hcount _ fun _ _ => rfl, hcount _ fun _ _ => rfl, hcount _ fun _ _ => rfl, hcount _ fun _ _ => rfl, hblocks]

/-- A room's mailbox is settled (R191). -/
theorem settleMailbox_settles {s : State} {r : Nat} (hn : (s.mailbox r).list.Nodup) :
    (∃ ms bs cl dm, settleMailbox r s = { s with
      store := { s.store with messages := ms, mailboxes := bs }
      control := { s.control with work := { s.control.work with claims := cl, damaged := dm } } }) ∧
    (∀ q, (settleMailbox r s).mailbox q =
      if q = r then s.summaryOf ((s.mailbox r).list.take 32) else s.mailbox q) ∧
    (∀ j, (settleMailbox r s).message j =
      if j ∈ (s.mailbox r).list.take 32 then
        { s.message j with next := successor ((s.mailbox r).list.take 32) j }
      else if j ∈ (s.mailbox r).list.drop 32 then { s.message j with state := .deleting } else s.message j) ∧
    (∀ x, x ∈ (settleMailbox r s).control.work.claims ↔
      x ∈ s.control.work.claims ∧ ∀ j ∈ (s.mailbox r).list.drop 32, x ∉ s.chainOf j) ∧
    (∀ x, x ∈ (settleMailbox r s).control.work.damaged ↔
      x ∈ (s.mailbox r).list.drop 32 ∨ x ∈ s.control.work.damaged) := by
  have hdisjoint (j : Nat) (hj : j ∈ (s.mailbox r).list.take 32) : j ∉ (s.mailbox r).list.drop 32 :=
    List.disjoint_take_drop hn (Nat.le_refl 32) hj
  unfold settleMailbox
  dsimp only
  rw [show Config.mailboxMax = 32 from rfl]
  obtain ⟨⟨ms, cl, dm, hu⟩, hum, huc, hud⟩ := releaseAll_releases s ((s.mailbox r).list.drop 32)
  generalize ((s.mailbox r).list.drop 32).foldl (fun t i => releaseSurplus i t) s = u at hu hum huc hud ⊢
  obtain ⟨⟨ms', hw⟩, hwm⟩ := linkAll_links u ((s.mailbox r).list.take 32) ((s.mailbox r).list.take 32)
  generalize ((s.mailbox r).list.take 32).foldl
    (fun t i => t.setMessage i { t.message i with next := successor ((s.mailbox r).list.take 32) i }) u = w at hw hwm ⊢
  have hwc : w.control = u.control := by rw [hw]
  have hlisted (j : Nat) (hj : j ∈ (s.mailbox r).list.take 32) :
      w.message j = { s.message j with next := successor ((s.mailbox r).list.take 32) j } := by
    rw [hwm, if_pos hj, hum, if_neg (hdisjoint j hj)]
  refine ⟨⟨ms', _, cl, dm, by rw [hw, hu]; rfl⟩, fun q => ?_, fun j => ?_, fun x => ?_, fun x => ?_⟩
  · rw [State.setMailbox_mailbox]
    by_cases hq : q = r
    · rw [if_pos hq, if_pos hq, ← summaryOf_congr (s := s) (t := w) fun j hj => ⟨_, hlisted j hj⟩]
      rfl
    · rw [if_neg hq, if_neg hq, hw, hu]
      rfl
  · show w.message j = _
    by_cases hj : j ∈ (s.mailbox r).list.take 32
    · rw [if_pos hj, hlisted j hj]
    · rw [if_neg hj, hwm, if_neg hj, hum]
  · show x ∈ w.control.work.claims ↔ _
    rw [hwc, huc]
  · show x ∈ w.control.work.damaged ↔ _
    rw [hwc, hud]

/-- The mailboxes of the rooms below `n` have been rebuilt from the records of `s` (R191). -/
structure Rebuilding (s t : State) (n : Nat) : Prop where
  rest    : ∃ ms bs cl dm, t = { s with
    store := { s.store with messages := ms, mailboxes := bs }
    control := { s.control with work := { s.control.work with claims := cl, damaged := dm } } }
  boxes   : ∀ r < n, t.mailbox r = s.summaryOf ((s.placed r s.profile.records).take 32)
  todo    : ∀ r, n ≤ r → (t.mailbox r).list = s.placed r s.profile.records
  listed  : ∀ r < n, ∀ j ∈ (s.placed r s.profile.records).take 32,
    t.message j = { s.message j with next := successor ((s.placed r s.profile.records).take 32) j }
  surplus : ∀ r < n, ∀ j ∈ (s.placed r s.profile.records).drop 32, (t.message j).state = .deleting ∧
    j ∈ t.control.work.damaged ∧ ∀ x ∈ s.chainOf j, x ∉ t.control.work.claims
  claims  : ∀ x ∈ t.control.work.claims, x ∈ s.control.work.claims
  others  : ∀ j, (∀ r < n, j ∉ s.placed r s.profile.records) → t.message j = s.message j

theorem rebuilding_step {s t : State} {n : Nat} (h : Rebuilding s t n) : Rebuilding s (settleMailbox n t) (n + 1) := by
  obtain ⟨hrest, hboxes, htodo, hlisted, hsurplus, hclaims, hothers⟩ := h
  have hn : (t.mailbox n).list = s.placed n s.profile.records := htodo n (Nat.le_refl n)
  obtain ⟨hu, hum, humess, huc, hud⟩ := settleMailbox_settles (s := t) (r := n) (by rw [hn]; exact placed_nodup ..)
  rw [hn] at hum humess huc hud
  generalize settleMailbox n t = u at hu hum humess huc hud
  have hchain (j : Nat) : t.chainOf j = s.chainOf j := by
    obtain ⟨ms, bs, cl, dm, ht⟩ := hrest
    rw [ht]
    rfl
  have hapart (r j : Nat) (hr : r < n) (hj : j ∈ s.placed r s.profile.records) : j ∉ s.placed n s.profile.records := fun hjn => by
    have := (mem_placed.mp hj).2.2.symm.trans (mem_placed.mp hjn).2.2
    omega
  have hsame (j : Nat) (hj : j ∉ s.placed n s.profile.records) : u.message j = t.message j := by
    rw [humess, if_neg fun h => hj (List.mem_of_mem_take h), if_neg fun h => hj (List.mem_of_mem_drop h)]
  have hnew (j : Nat) (hj : j ∈ s.placed n s.profile.records) : t.message j = s.message j :=
    hothers j fun r hr hjr => hapart r j hr hjr hj
  refine ⟨?_, fun r hr => ?_, fun r hr => ?_, fun r hr j hj => ?_, fun r hr j hj => ?_,
    fun x hx => hclaims x ((huc x).mp hx).1, fun j hj => ?_⟩
  · obtain ⟨ms, bs, cl, dm, ht⟩ := hrest
    obtain ⟨ms', bs', cl', dm', hu⟩ := hu
    exact ⟨ms', bs', cl', dm', by rw [hu, ht]⟩
  · rw [hum]
    by_cases hrn : r = n
    · subst hrn
      rw [if_pos rfl]
      exact summaryOf_congr fun j hj => ⟨(s.message j).next, hnew j (List.mem_of_mem_take hj)⟩
    · rw [if_neg hrn, hboxes r (by omega)]
  · rw [hum, if_neg (by omega)]
    exact htodo r (by omega)
  · by_cases hrn : r = n
    · subst hrn
      rw [humess, if_pos hj, hnew j (List.mem_of_mem_take hj)]
    · rw [hsame j (hapart r j (by omega) (List.mem_of_mem_take hj))]
      exact hlisted r (by omega) j hj
  · by_cases hrn : r = n
    · subst hrn
      have hnot : j ∉ (s.placed r s.profile.records).take 32 := fun h =>
        List.disjoint_take_drop (placed_nodup ..) (Nat.le_refl 32) h hj
      refine ⟨by rw [humess, if_neg hnot, if_pos hj], (hud j).mpr (.inl hj), fun x hx hc => ?_⟩
      exact ((huc x).mp hc).2 j hj (by rw [hchain]; exact hx)
    · obtain ⟨hst, hdam, hcl⟩ := hsurplus r (by omega) j hj
      refine ⟨by rw [hsame j (hapart r j (by omega) (List.mem_of_mem_drop hj))]; exact hst, (hud j).mpr (.inr hdam),
        fun x hx hc => hcl x hx ((huc x).mp hc).1⟩
  · rw [hsame j (hj n (by omega))]
    exact hothers j fun r hr => hj r (by omega)

/-- The mailboxes and the serial are rebuilt once every chain has been walked (R191). -/
theorem rebuildMailboxes_rebuilds {s : State} (h : ∀ r, (s.mailbox r).list = []) :
    ∃ t, rebuildMailboxes s = { t with store.serial := t.adoptedSerial } ∧ Rebuilding s t s.roomCount := by
  obtain ⟨⟨bs, hp⟩, hpm⟩ := placeAll_places s h s.profile.records
  have hall (n : Nat) : Rebuilding s ((List.range n).foldl (fun t r => settleMailbox r t)
      ((List.range s.profile.records).foldl (fun t i => placeKept i t) s)) n := by
    induction n with
    | zero =>
      refine ⟨⟨_, bs, _, _, by rw [List.range_zero, List.foldl_nil, hp]⟩, fun r hr => absurd hr (Nat.not_lt_zero r), fun r _ => ?_,
        fun r hr => absurd hr (Nat.not_lt_zero r), fun r hr => absurd hr (Nat.not_lt_zero r), fun x hx => ?_, fun j _ => ?_⟩
      · rw [List.range_zero, List.foldl_nil, hpm]
      · rw [List.range_zero, List.foldl_nil, hp] at hx
        exact hx
      · rw [List.range_zero, List.foldl_nil, hp]
        rfl
    | succ n ih =>
      rw [List.range_succ, List.foldl_append]
      exact rebuilding_step ih
  refine ⟨_, ?_, hall s.roomCount⟩
  unfold rebuildMailboxes
  dsimp only

/-- With no kept record every mailbox is empty, and the records stand (R191). -/
theorem rebuildMailboxes_empties {s : State} (h : ∀ r, (s.mailbox r).list = [])
    (hnone : ∀ k < s.profile.records, (s.message k).state.listed = false) :
    ∃ t ms bs cl dm n, rebuildMailboxes s = t ∧ t = { s with
        store := { s.store with messages := ms, mailboxes := bs, serial := n }
        control := { s.control with work := { s.control.work with claims := cl, damaged := dm } } } ∧
      (∀ x ∈ cl, x ∈ s.control.work.claims) ∧ (∀ r < s.roomCount, t.mailbox r = {}) ∧ ∀ j, t.message j = s.message j := by
  have hplaced (r : Nat) : s.placed r s.profile.records = [] := by
    rw [List.eq_nil_iff_forall_not_mem]
    intro j hj
    obtain ⟨hlt, hl, -⟩ := mem_placed.mp hj
    rw [hnone j hlt] at hl
    cases hl
  obtain ⟨t, ht, ⟨⟨ms, bs, cl, dm, hrest⟩, hboxes, -, -, -, hclaims, hothers⟩⟩ := rebuildMailboxes_rebuilds h
  refine ⟨_, ms, bs, cl, dm, t.adoptedSerial, ht, by rw [hrest], by rw [hrest] at hclaims; exact hclaims, fun r hr => ?_, fun j => ?_⟩
  · exact (hboxes r hr).trans (by rw [hplaced]; rfl)
  · exact hothers j fun r _ => by rw [hplaced]; exact List.not_mem_nil

/-! ### The lines of the free stack (R19) -/

/-- The lines of the free stack that hold pushed entries, from the top of the region down (R19). -/
theorem stackLines_get {n u : Nat} (hu : 0 < u) (hn : u ≤ n) (i : Nat) :
    (stackLines n u)[i]? =
      if i ≤ (n + 15) / 16 - 1 ∧ n - u < 16 * ((n + 15) / 16 - 1 - i) + 16 then some ((n + 15) / 16 - 1 - i) else none := by
  obtain ⟨m, hm⟩ : ∃ m, (n + 15) / 16 = (n - u) / 16 + (m + 1) := ⟨(n + 15) / 16 - 1 - (n - u) / 16, by omega⟩
  have hlines : stackLines n u = ((List.range (m + 1)).map fun k => (n - u) / 16 + k).reverse := by
    unfold stackLines
    rw [if_neg (by omega), hm, List.range_add, List.filter_append, List.filter_eq_nil_iff.mpr, List.nil_append,
      List.filter_eq_self.mpr]
    · intro l hl
      obtain ⟨k, -, rfl⟩ := List.mem_map.mp hl
      rw [decide_eq_true_eq]
      omega
    · intro l hl
      have := List.mem_range.mp hl
      rw [decide_eq_true_eq]
      omega
  rw [hlines, hm]
  by_cases hi : i < m + 1
  · rw [if_pos (by omega), List.getElem?_reverse (by simpa using hi)]
    simp only [List.length_map, List.length_range, List.getElem?_map, Nat.add_sub_cancel]
    rw [List.getElem?_range (by omega)]
    simp only [Option.map_some, Option.some.injEq]
    omega
  · rw [if_neg (by omega), List.getElem?_eq_none]
    simp only [List.length_reverse, List.length_map, List.length_range]
    omega

/-- Slot `j` of the free stack holds a pushed block or is not enabled (R19). -/
theorem stackLine_eq (n u : Nat) (blocks : List Nat) (l : Nat) (entry : Nat → List (Option Byte))
    (h : ∀ k < 16, entry (16 * l + k) = stackEntry n u blocks (16 * l + k)) :
    stackLine n u blocks l = (List.range 16).flatMap fun k => entry (16 * l + k) := by
  unfold stackLine
  exact List.flatMap_congr fun k hk => (h k (List.mem_range.mp hk)).symm

theorem stackEntry_length (n u : Nat) (blocks : List Nat) (j : Nat) : (stackEntry n u blocks j).length = 4 := by
  unfold stackEntry
  split
  · rw [allLanes_length, le_length]
  · rw [List.length_replicate]

theorem stackLine_length (n u : Nat) (blocks : List Nat) (l : Nat) : (stackLine n u blocks l).length = 64 := by
  unfold stackLine
  rw [List.length_flatMap]
  simp only [stackEntry_length]
  rfl

/-! ### The work begins, and the slots and records are sorted (R179, R188 to R190) -/

theorem exec_startingWorkBegin {s : State} (hst : s.control.state = .starting) (hload : s.control.work.stage = .loading)
    (hloads : s.host.loads = []) (hfifo : s.host.fifo.any FifoEntry.isLoad = false) :
    exec .startingWorkBegin s = .next (taken beginWork s) :=
  stepIf_of beginWork s (by unfold State.loadsDone; rw [hst, hload, hloads, hfifo]; rfl)

/-- (1) of O31. -/
theorem work_begins {s : State} (ho : s.out = {}) (hst : s.control.state = .starting)
    (hload : s.control.work.stage = .loading) (hloads : s.host.loads = []) (hfifo : s.host.fifo.any FifoEntry.isLoad = false) :
    (s.control.work.kind = .format → 0 < s.profile.records →
      Completes .startingWorkBegin s
        { s with
          control := { s.control with work := { s.control.work with
            stage := .records, index := 0, writes := [(s.profile.messageBase, allLanes (messageRecord {}))] } }
          out.requests := [{ source := .startWork, write := true, addr := s.profile.messageBase, beats := 8
                             lanes := allLanes (messageRecord {}) }] }) ∧
    (s.control.work.kind = .adopt → 0 < s.profile.orderSlots →
      Completes .startingWorkBegin s
        { s with
          control := { s.control with work := { s.control.work with stage := .adoptSlots, index := 0, reading := true } }
          out.requests := [{ source := .startWork, write := false, addr := s.profile.orderBase, beats := 8 }] }) := by
  refine ⟨fun hk hpos => ⟨_, exec_startingWorkBegin hst hload hloads hfifo, taken_endsAs' ho ?_⟩,
    fun hk hpos => ⟨_, exec_startingWorkBegin hst hload hloads hfifo, taken_endsAs' ho ?_⟩⟩
  · unfold beginWork workFuel
    rw [if_pos hk, nextWork_records_burst (s := toStage .records s) 11 rfl hpos, workWrite_eq (s := toStage .records s) ho,
      workBurst_record]
    rfl
  · unfold beginWork workFuel
    rw [if_neg (by rw [hk]; decide), nextWork_adoptSlots_burst (s := toStage .adoptSlots s) 11 rfl hpos,
      workRead_eq (s := toStage .adoptSlots s) ho]
    rfl

/-- The state in which the work deals with what its read returned (R190). -/
def State.workTaken (s : State) : State := { takeReturn Source.isWork s with control.work.reading := false }

theorem exec_adoptSlotRead {s : State} {ret : Returned} (hst : s.control.work.stage = .adoptSlots)
    (hr : s.returnOf Source.isWork = some ret) :
    exec .adoptSlotRead s = .next (taken (workData adoptSlot ret) s) :=
  stepOn_of (workData adoptSlot) s (by unfold State.workReturn; rw [if_pos hst, hr])

theorem exec_adoptRecordRead {s : State} {ret : Returned} (hst : s.control.work.stage = .adoptRecords)
    (hr : s.returnOf Source.isWork = some ret) :
    exec .adoptRecordRead s = .next (taken (workData adoptRecord ret) s) :=
  stepOn_of (workData adoptRecord) s (by unfold State.workReturn; rw [if_pos hst, hr])

/-- (2) of O31. -/
theorem slots_read {s : State} {ret : Returned} (ho : s.out = {}) (hst : s.control.work.stage = .adoptSlots)
    (hr : s.returnOf Source.isWork = some ret) :
    let i := s.control.work.index
    let marked : State :=
      { takeReturn Source.isWork s with
        ring.marks := if byteAt ret.data 0 = 1#8 then addMark s.ring.marks i else s.ring.marks }
    (i + 1 < s.profile.orderSlots →
      Completes .adoptSlotRead s
        { marked with
          control := { s.control with work := { s.control.work with index := i + 1, reading := true } }
          out.requests := [{ source := .startWork, write := false, addr := s.profile.orderBase + 64 * (i + 1)
                             beats := 8 }] }) ∧
    (i + 1 = s.profile.orderSlots → 0 < s.profile.noticeSlots →
      Completes .adoptSlotRead s
        { marked with
          control := { s.control with work := { s.control.work with
            stage := .noticeSlots, index := 0, reading := false
            writes := [(s.profile.noticeBase + 64, allLanes (zeros 32))] } }
          out.requests := [{ source := .startWork, write := true, addr := s.profile.noticeBase + 64, beats := 4
                             lanes := allLanes (zeros 32) }] }) := by
  intro i marked
  let next : State :=
    { marked with control := { s.control with work := { s.control.work with index := i + 1, reading := false } } }
  have hmarked : adoptSlot ret.data s.workTaken = nextWork workFuel next := by
    have hm : (if copyPosted ret.data = true then { s.workTaken with ring.marks := addMark s.workTaken.ring.marks i }
        else s.workTaken) =
        { s.workTaken with
          ring.marks := if byteAt ret.data 0 = 1#8 then addMark s.workTaken.ring.marks i else s.workTaken.ring.marks } := by
      by_cases hp : byteAt ret.data 0 = 1#8
      · rw [if_pos (show copyPosted ret.data = true from decide_eq_true hp), if_pos hp]
      · rw [if_neg (show ¬ copyPosted ret.data = true from fun h => hp (of_decide_eq_true h)), if_neg hp]
    show nextWork workFuel (nextElement (if copyPosted ret.data = true then
      { s.workTaken with ring.marks := addMark s.workTaken.ring.marks i } else s.workTaken)) = _
    rw [hm]
    rfl
  refine ⟨fun hi => ⟨_, exec_adoptSlotRead hst hr, taken_endsAs' ho ?_⟩,
    fun hi hpos => ⟨_, exec_adoptSlotRead hst hr, taken_endsAs' ho ?_⟩⟩
  · exact (hmarked.trans (nextWork_adoptSlots_burst (s := next) 11 hst hi)).trans (workRead_eq (s := next) ho _ _)
  · have hend : ¬ i + 1 < s.profile.orderSlots := by omega
    exact ((hmarked.trans (nextWork_adoptSlots_done (s := next) 11 hst hend)).trans
      (nextWork_noticeSlots_burst (s := toStage .noticeSlots next) 10 rfl hpos)).trans
        (workWrite_eq (s := toStage .noticeSlots next) ho _ _)

/-- The record as ADOPT sorts it (R190). -/
def State.sorted (s : State) (d : List Byte) : Message :=
  if byteAt d 2 = 0#8 then { generation := field d 0 2 }
  else { messageOfRecord d .free with
    state :=
      if byteAt d 2 = 2#8 ∧ field d 4 2 < s.roomCount ∧ s.occupied (field d 4 2) = true then .new
      else if byteAt d 2 = 3#8 ∧ field d 4 2 < s.roomCount ∧ s.occupied (field d 4 2) = true then .heard
      else if byteAt d 2 = 4#8 ∧ field d 4 2 < s.roomCount ∧ s.occupied (field d 4 2) = true then .saved
      else .deleting }

theorem kept_iff (s : State) (d : List Byte) (st : MessageState) :
    s.kept (messageOfRecord d st) = true ↔
      st.listed = true ∧ field d 4 2 < s.roomCount ∧ s.occupied (field d 4 2) = true := by
  unfold State.kept
  rw [Bool.and_eq_true, Bool.and_eq_true, decide_eq_true_eq, and_assoc]
  exact Iff.rfl

/-- A record of a code other than FREE is kept, or stands as DELETING (R190). -/
theorem sortRecord_some {s : State} {d : List Byte} {st : MessageState} (h : messageStateOf (byteAt d 2) = some st)
    (hst : st ≠ .free) :
    sortRecord d s = { messageOfRecord d .free with
      state := if st.listed = true ∧ field d 4 2 < s.roomCount ∧ s.occupied (field d 4 2) = true then st else .deleting } := by
  have hsort : sortRecord d s = if s.kept (messageOfRecord d st) = true then messageOfRecord d st
      else { messageOfRecord d st with state := .deleting } := by
    unfold sortRecord
    rw [h]
    cases st with
    | free => exact absurd rfl hst
    | _ => rfl
  rw [hsort]
  by_cases hk : st.listed = true ∧ field d 4 2 < s.roomCount ∧ s.occupied (field d 4 2) = true
  · rw [if_pos ((kept_iff s d st).mpr hk), if_pos hk]
    rfl
  · rw [if_neg fun hc => hk ((kept_iff s d st).mp hc), if_neg hk]
    rfl

theorem sortRecord_eq (s : State) (d : List Byte) : sortRecord d s = s.sorted d := by
  unfold State.sorted
  by_cases h0 : byteAt d 2 = 0#8
  · rw [if_pos h0]
    unfold sortRecord messageStateOf
    rw [if_pos h0]
  · rw [if_neg h0]
    by_cases h1 : byteAt d 2 = 1#8
    · rw [sortRecord_some (st := .recording) (by rw [h1]; rfl) (by decide), h1]
      simp [MessageState.listed]
    by_cases h2 : byteAt d 2 = 2#8
    · rw [sortRecord_some (st := .new) (by rw [h2]; rfl) (by decide), h2]
      simp [MessageState.listed]
    by_cases h3 : byteAt d 2 = 3#8
    · rw [sortRecord_some (st := .heard) (by rw [h3]; rfl) (by decide), h3]
      simp [MessageState.listed]
    by_cases h4 : byteAt d 2 = 4#8
    · rw [sortRecord_some (st := .saved) (by rw [h4]; rfl) (by decide), h4]
      simp [MessageState.listed]
    rw [if_neg fun h => h2 h.1, if_neg fun h => h3 h.1, if_neg fun h => h4 h.1]
    by_cases h5 : byteAt d 2 = 5#8
    · rw [sortRecord_some (st := .deleting) (by rw [h5]; rfl) (by decide)]
      simp [MessageState.listed]
    · unfold sortRecord messageStateOf
      rw [if_neg h0, if_neg h1, if_neg h2, if_neg h3, if_neg h4, if_neg h5]
      rfl

/-- The state in which record `i` has been sorted as `m`, and the work goes on (R190). -/
def State.recordSorted (s : State) (i : Nat) (m : Message) : State := nextElement (s.workTaken.setMessage i m)

theorem recordSorted_message (s : State) (i : Nat) (m : Message) (k : Nat) :
    (s.recordSorted i m).message k = if k = i then m else s.message k := State.setMessage_message ..

/-- ADOPT_RECORD_READ, with the work that follows named (R190). -/
theorem recordRead_ends {s : State} {ret : Returned} {m : Message} (ho : s.out = {})
    (hst : s.control.work.stage = .adoptRecords) (hr : s.returnOf Source.isWork = some ret)
    (hm : s.sorted ret.data = m) {u : State} (hu : nextWork workFuel (s.recordSorted s.control.work.index m) = u) :
    ∃ t, exec .adoptRecordRead s = .next t ∧ EndsAs u t := by
  refine ⟨_, exec_adoptRecordRead hst hr, taken_endsAs' ho ?_⟩
  rw [← hu, ← hm]
  show nextWork workFuel (nextElement (s.workTaken.setMessage s.control.work.index (sortRecord ret.data s.workTaken))) = _
  rw [sortRecord_eq]
  rfl

section
variable {s : State} {ret : Returned} {m : Message} (ho : s.out = {}) (hst : s.control.work.stage = .adoptRecords)
  (hr : s.returnOf Source.isWork = some ret) (hm : s.sorted ret.data = m)
include ho hst hr hm

/-- The next record is read (R190). -/
theorem recordRead_next (hi : s.control.work.index + 1 < s.profile.records) :
    Completes .adoptRecordRead s
      { (takeReturn Source.isWork s).setMessage s.control.work.index m with
        control := { s.control with work := { s.control.work with index := s.control.work.index + 1, reading := true } }
        out.requests := [{ source := .startWork, write := false
                           addr := s.profile.messageBase + 64 * (s.control.work.index + 1), beats := 8 }] } :=
  recordRead_ends ho hst hr hm ((nextWork_adoptRecords_burst (s := s.recordSorted s.control.work.index m) 11 hst hi).trans
    (workRead_eq (s := s.recordSorted s.control.work.index m) ho _ _))

/-- After the last record the chain walks begin (R190). -/
theorem recordRead_walks {j : Nat} (hi : s.control.work.index + 1 = s.profile.records) (hj : j < s.profile.records)
    (hl : ((s.recordSorted s.control.work.index m).message j).state.listed = true)
    (hlow : ∀ k < j, ((s.recordSorted s.control.work.index m).message k).state.listed = false) {b : Nat}
    (hb : ((s.recordSorted s.control.work.index m).message j).first = b) (hblock : b < s.profile.blocks)
    (hfree : b ∉ s.control.work.claims) (hblocks : 0 < ((s.recordSorted s.control.work.index m).message j).blocks) :
    Completes .adoptRecordRead s
      { (takeReturn Source.isWork s).setMessage s.control.work.index m with
        control := { s.control with work := { s.control.work with
          stage := .adoptWalk, index := j, reading := true, samples := 0, header := [], block := b
          claims := addMark s.control.work.claims b
          chains := Table.set [] s.control.work.chains j (b :: s.chainOf j) } }
        out.requests := [{ source := .startWork, write := false, addr := s.profile.storeBase + 512 * b, beats := 1 }] } := by
  have hdone := nextWork_adoptRecords_done (s := s.recordSorted s.control.work.index m) 11 hst (by
    show ¬ s.control.work.index + 1 < s.profile.records
    omega)
  generalize hz : toStage .adoptWalk (s.recordSorted s.control.work.index m) = z at hdone
  have hzm (k : Nat) : z.message k = (s.recordSorted s.control.work.index m).message k := by rw [← hz]; rfl
  have hzp : z.profile = s.profile := by rw [← hz]; rfl
  have hkept : z.keptFrom z.control.work.index = some j := by
    rw [show z.control.work.index = 0 by rw [← hz]; rfl]
    exact keptFrom_eq_some (Nat.zero_le j) (by rw [hzp]; exact hj) (by rw [hzm]; exact hl) fun k _ hk => by rw [hzm]; exact hlow k hk
  have hwalk := nextWork_walks (s := z) (b := b) 10 (by rw [← hz]; exact ho) (by rw [← hz]; rfl) hkept (by rw [hzm]; exact hb)
    (by rw [hzp]; exact hblock) (by rw [← hz]; exact hfree) (by rw [hzm]; exact hblocks)
  refine recordRead_ends ho hst hr hm ((hdone.trans hwalk).trans ?_)
  rw [← hz]
  rfl

omit ho hr hm in
/-- With no kept record the mailboxes are empty, and the records are written from the lowest on (R190, R191). -/
theorem recordRead_empties (hi : s.control.work.index + 1 = s.profile.records)
    (hnone : ∀ k < s.profile.records, ((s.recordSorted s.control.work.index m).message k).state.listed = false)
    (hlists : ∀ r, (s.mailbox r).list = []) :
    ∃ x st ct a, nextWork workFuel (s.recordSorted s.control.work.index m) = nextWork 10 x ∧
      x = { s with store := st, control := { s.control with work := ct }, arbiter := a } ∧
      a.lines = s.arbiter.lines ∧ ct.stage = .adoptWrite ∧ ct.index = 0 ∧ ct.kind = s.control.work.kind ∧
      (∀ b ∈ ct.claims, b ∈ s.control.work.claims) ∧ (∀ r < s.roomCount, x.mailbox r = {}) ∧
      ∀ j, x.message j = (s.recordSorted s.control.work.index m).message j := by
  have hdone := nextWork_adoptRecords_done (s := s.recordSorted s.control.work.index m) 11 hst (by
    show ¬ s.control.work.index + 1 < s.profile.records
    omega)
  have hzs : ∃ st ct a, toStage .adoptWalk (s.recordSorted s.control.work.index m) =
      { s with store := st, control := { s.control with work := ct }, arbiter := a } ∧ a.lines = s.arbiter.lines ∧
      ct.stage = .adoptWalk ∧ ct.index = 0 ∧ ct.kind = s.control.work.kind ∧ ct.claims = s.control.work.claims ∧
      st.mailboxes = s.store.mailboxes := ⟨_, _, _, rfl, rfl, rfl, rfl, rfl, rfl, rfl⟩
  have hzm (k : Nat) : (toStage .adoptWalk (s.recordSorted s.control.work.index m)).message k =
      (s.recordSorted s.control.work.index m).message k := rfl
  generalize toStage .adoptWalk (s.recordSorted s.control.work.index m) = z at hdone hzs hzm
  obtain ⟨st, ct, a, hz, hal, hstage, hidx, hkind, hcl, hbx⟩ := hzs
  have hzp : z.profile = s.profile := by rw [hz]; rfl
  have hzr : z.roomCount = s.roomCount := by rw [hz]; rfl
  have hzb (r : Nat) : (z.mailbox r).list = [] := by
    rw [mailbox_congr (s := s) (t := z) (by rw [hz]; exact hbx)]
    exact hlists r
  have hkept (i : Nat) : z.keptFrom i = none := keptFrom_eq_none fun k _ hk => by
    rw [hzm]
    exact hnone k (by rw [← hzp]; exact hk)
  obtain ⟨t, ms, bs, cl, dm, n, hreb, ht, hclaims, hboxes, hmess⟩ := rebuildMailboxes_empties (s := z) hzb
    fun k hk => by rw [hzm]; exact hnone k (by rw [← hzp]; exact hk)
  have hwalk := (nextWork_adoptWalk (s := z) 10 (by rw [hz]; exact hstage) (startChains_none (hkept _))).trans
    (if_neg Bool.false_ne_true)
  rw [hreb] at hwalk
  refine ⟨toStage .adoptWrite t, t.store, { t.control.work with stage := .adoptWrite, index := 0 }, a, hdone.trans hwalk, ?_,
    hal, rfl, rfl, ?_, ?_, fun r hr => ?_, fun j => ?_⟩
  · rw [ht, hz]
    rfl
  · rw [ht, hz]
    exact hkind
  · rw [ht]
    intro b hb
    have := hclaims b hb
    rw [hz] at this
    rw [← hcl]
    exact this
  · exact hboxes r (by rw [hzr]; exact hr)
  · exact (hmess j).trans (hzm j)

/-- The lowest record that is not FREE is written, a released one as FREE (R190). -/
theorem recordRead_writes (hi : s.control.work.index + 1 = s.profile.records)
    (hnone : ∀ k < s.profile.records, ((s.recordSorted s.control.work.index m).message k).state.listed = false)
    (hlists : ∀ r, (s.mailbox r).list = []) {j : Nat} (hj : j < s.profile.records) {mj : Message}
    (hmj : (s.recordSorted s.control.work.index m).message j = mj) (hused : mj.state ≠ .free)
    (hlow : ∀ k < j, ((s.recordSorted s.control.work.index m).message k).state = .free) :
    ∃ t, exec .adoptRecordRead s = .next t ∧ sameOuter s t ∧ (∀ r < s.roomCount, t.mailbox r = {}) ∧
      t.control.work.stage = .adoptWrite ∧ t.control.work.index = j ∧ t.message j = mj.adopted ∧
      (∀ k, k ≠ j → t.message k = (s.recordSorted s.control.work.index m).message k) ∧ t.ring = s.ring ∧
      t.rating = s.rating ∧ t.lamp = s.lamp ∧
      lineGrew s t .directory [{ source := .startWork, write := true, addr := s.profile.messageBase + 64 * j, beats := 8
                                 lanes := allLanes (messageRecord mj.adopted) }] := by
  subst hmj
  obtain ⟨x, st, ct, a, hnext, hx, hal, hstage, hidx, -, -, hboxes, hmess⟩ := recordRead_empties hst hi hnone hlists
  have hxo : x.out = {} := by rw [hx]; exact ho
  have hwritten : x.writtenFrom x.control.work.index = some j := by
    rw [show x.control.work.index = 0 by rw [hx]; exact hidx]
    exact writtenFrom_eq_some (Nat.zero_le j) (by rw [hx]; exact hj) (by rw [hmess]; exact hused)
      fun k _ hk => by rw [hmess]; exact hlow k hk
  have hwrite := nextWork_adoptWrite (s := x) 9 (by rw [hx]; exact hstage) hwritten
  rw [workWrite_eq (by exact hxo), hmess, workBurst_record] at hwrite
  obtain ⟨t, hexec, hends⟩ := recordRead_ends ho hst hr hm (hnext.trans hwrite)
  have htm (k : Nat) : t.message k = if k = j then ((s.recordSorted s.control.work.index m).message j).adopted
      else (s.recordSorted s.control.work.index m).message k := by
    rw [hends.message, ← hmess, ← hmess]
    exact State.setMessage_message x j (x.message j).adopted k
  have htc := hends.control
  refine ⟨t, hexec, hends.sameOuter (by rw [hx]; exact ⟨rfl, rfl, rfl, rfl, rfl⟩), fun r hr => ?_, by rw [htc]; rw [hx]; exact hstage,
    by rw [htc], (htm j).trans (if_pos rfl), fun k hk => (htm k).trans (if_neg hk), by rw [hends.ring, hx]; rfl,
    by rw [hends.rating, hx]; rfl, by rw [hends.lamp, hx]; rfl, ?_⟩
  · rw [hends.mailbox]
    exact hboxes r hr
  · refine lineGrew_of_ends hends (by rw [hx]; exact hal) fun r hm => ?_
    rw [List.mem_singleton.mp hm]
    refine ⟨?_, rfl⟩
    rw [hx]
    exact List.mem_singleton.mpr rfl

/-- With every record FREE the whole stack is written from its top line down (R19, R191). -/
theorem recordRead_stacks (hi : s.control.work.index + 1 = s.profile.records)
    (hlists : ∀ r, (s.mailbox r).list = [])
    (hfree : ∀ k < s.profile.records, ((s.recordSorted s.control.work.index m).message k).state = .free)
    (hclaims : s.control.work.claims = []) (hblocks : 0 < s.profile.blocks) :
    let top := (s.profile.blocks + 15) / 16 - 1
    ∃ t, exec .adoptRecordRead s = .next t ∧ sameOuter s t ∧ (∀ r < s.roomCount, t.mailbox r = {}) ∧
      t.control.work.stage = .stack ∧ t.control.work.index = 0 ∧
      (∀ k, t.message k = (s.recordSorted s.control.work.index m).message k) ∧
      t.store.freeRecords = ((List.range s.profile.records).filter fun k =>
        decide (((s.recordSorted s.control.work.index m).message k).generation ≠ 65535)) ∧
      t.ring = s.ring ∧ t.rating = s.rating ∧ t.lamp = s.lamp ∧
      lineGrew s t .directory [{ source := .startWork, write := true, addr := s.profile.stackBase + 64 * top, beats := 8
                                 lanes := (List.range 16).flatMap fun k =>
                                   if 16 * top + k < s.profile.blocks then allLanes (le 4 (16 * top + k))
                                   else List.replicate 4 none }] := by
  intro top
  obtain ⟨x, st, ct, a, hnext, hx, hal, hstage, hidx, -, hcl, hboxes, hmess⟩ := recordRead_empties (m := m) hst hi
    (fun k hk => by rw [hfree k hk]; rfl) hlists
  have hxp : x.profile = s.profile := by rw [hx]; rfl
  have hwritten : x.writtenFrom x.control.work.index = none :=
    writtenFrom_eq_none fun k _ hk => by rw [hmess]; exact hfree k (by rw [← hxp]; exact hk)
  have hbitmap : x.freeBitmap = (List.range s.profile.records).filter fun k =>
      decide (((s.recordSorted s.control.work.index m).message k).generation ≠ 65535) := by
    unfold State.freeBitmap
    rw [hxp]
    refine List.filter_congr fun k hk => ?_
    rw [hmess, hfree k (List.mem_range.mp hk)]
    simp
  have hdone := nextWork_adoptWritten (s := x) 9 (by rw [hx]; exact hstage) hwritten
  have hys : ∃ st, toStage .stack { x with store.freeRecords := x.freeBitmap } =
      { s with store := st, control := { s.control with work := { ct with stage := .stack, index := 0 } }, arbiter := a } ∧
      st.freeRecords = x.freeBitmap ∧ st.messages = x.store.messages ∧ st.mailboxes = x.store.mailboxes :=
    ⟨{ x.store with freeRecords := x.freeBitmap }, by rw [hx]; rfl, rfl, rfl, rfl⟩
  generalize toStage .stack { x with store.freeRecords := x.freeBitmap } = y at hdone hys
  obtain ⟨st', hy, hst', hms, hbs⟩ := hys
  have hunclaimed : y.unclaimed = List.range s.profile.blocks := by
    have hnil : ct.claims = [] := List.eq_nil_iff_forall_not_mem.mpr fun b hb => by
      have := hcl b hb
      rw [hclaims] at this
      exact List.not_mem_nil this
    unfold State.unclaimed
    rw [show y.control.work.claims = [] by rw [hy]; exact hnil, show y.profile = s.profile by rw [hy]; rfl]
    exact List.filter_eq_self.mpr fun b _ => by simp
  have hyp : y.profile = s.profile := by rw [hy]; rfl
  have hline : (stackLines y.profile.blocks y.unclaimed.length)[y.control.work.index]? = some top := by
    rw [hunclaimed, List.length_range, hyp, show y.control.work.index = 0 by rw [hy],
      stackLines_get hblocks (Nat.le_refl _), if_pos (by omega)]
    rfl
  have hstack := nextWork_stackLine (s := y) 8 (by rw [hy]) hline
  have hlanes : stackLine y.profile.blocks y.unclaimed.length y.unclaimed top = (List.range 16).flatMap fun k =>
      if 16 * top + k < s.profile.blocks then allLanes (le 4 (16 * top + k)) else List.replicate 4 none := by
    rw [hunclaimed, hyp, List.length_range]
    refine stackLine_eq _ _ _ _ (fun j => if j < s.profile.blocks then allLanes (le 4 j) else List.replicate 4 none) fun k _ => ?_
    unfold stackEntry
    rw [Nat.sub_self, Nat.sub_zero]
    by_cases hk : 16 * top + k < s.profile.blocks
    · rw [if_pos hk, if_pos ⟨Nat.zero_le _, hk⟩, List.getD_eq_getElem?_getD, List.getElem?_range hk]
      rfl
    · rw [if_neg hk, if_neg fun h => hk h.2]
  rw [workWrite_eq (by rw [hy]; exact ho)] at hstack
  obtain ⟨t, hexec, hends⟩ := recordRead_ends ho hst hr hm ((hnext.trans hdone).trans hstack)
  refine ⟨t, hexec, hends.sameOuter (by rw [hy]; exact ⟨rfl, rfl, rfl, rfl, rfl⟩), fun r hr => ?_,
    by rw [hends.control, hy], by rw [hends.control, hy], fun k => ?_, by rw [hends.store, hy, ← hbitmap, ← hst'],
    by rw [hends.ring, hy], by rw [hends.rating, hy], by rw [hends.lamp, hy],
    lineGrew_of_ends hends (by rw [hy]; exact hal) fun r hm => ?_⟩
  · rw [hends.mailbox, ← hboxes r hr]
    exact mailbox_congr (by rw [hy]; exact hbs) r
  · rw [hends.message, ← hmess k]
    exact message_congr (by rw [hy]; exact hms) k
  · rw [List.mem_singleton.mp hm]
    refine ⟨List.mem_singleton.mpr ?_, rfl⟩
    have hlen := stackLine_length y.profile.blocks y.unclaimed.length y.unclaimed top
    unfold workBurst
    rw [hlen, hlanes, hyp]

end

/-- Settles O31. -/
theorem startingWorkBeginsAndSorts : Obligations.StartingWorkBeginsAndSorts := by
  refine ⟨fun s ho hst hload hloads hfifo => work_begins ho hst hload hloads hfifo, fun s ret ho hst hr => slots_read ho hst hr,
    fun s ret ho hst hr => ?_⟩
  intro i p d flags read stays m sorted record
  have hm : s.sorted ret.data = m := rfl
  have hrecord (k : Nat) : (s.recordSorted s.control.work.index m).message k = record k := recordSorted_message ..
  refine ⟨fun hi => recordRead_next ho hst hr hm hi, fun hi => ⟨fun j hj hl hlow hfirst hfree hblocks => ?_,
    fun hnone hlists => ⟨fun j hj hused hlow => ?_, fun hfree hclaims hpos => ?_⟩⟩⟩
  · exact recordRead_walks ho hst hr hm hi hj (by rw [hrecord]; exact hl) (fun k hk => by rw [hrecord]; exact hlow k hk)
      (by rw [hrecord]) hfirst hfree (by rw [hrecord]; exact hblocks)
  · have hwrites := recordRead_writes ho hst hr hm hi (fun k hk => by rw [hrecord]; exact hnone k hk) hlists hj (hrecord j) hused
      (fun k hk => by rw [hrecord]; exact hlow k hk)
    simp only [hrecord] at hwrites
    exact hwrites
  · have hstacks := recordRead_stacks ho hst hr hm hi hlists (fun k hk => by rw [hrecord]; exact hfree k hk) hclaims hpos
    simp only [hrecord] at hstacks
    exact hstacks

end Sys2Proof.Machine
end

section
/-! PROOFS. What a grant carries, and the writes of FORMAT and ADOPT that follow each other (9.3, 11.4, 11.5). -/

namespace Sys2Proof.Machine

/-! ### The grant of a burst that only moves its data (R165, R171) -/

theorem grantEffect_onlyData {r : Request} (h : r.source.onlyData = true) (s : State) : grantEffect r s = s := by
  unfold grantEffect
  split
  case h_10 => rfl
  all_goals
    next hs =>
      rw [hs] at h
      exact absurd h Bool.false_ne_true

theorem grantLanes_onlyData {r : Request} (h : r.source.onlyData = true) (s : State) : s.grantLanes r = r.lanes := by
  unfold State.grantLanes
  split
  case h_6 => rfl
  all_goals
    next hs =>
      rw [hs] at h
      exact absurd h Bool.false_ne_true

/-- The arbiter once a grant is settled: counts and positions of R168, R169, R171. -/
theorem settleGrant_arbiter (d : Decision) (s : State) :
    (settleGrant d s).arbiter.lines.get d.who = (s.arbiter.lines.get d.who).tail ∧
    (∀ w, w ≠ d.who → (settleGrant d s).arbiter.lines.get w = s.arbiter.lines.get w) := by
  have hget (w : Requester) : (settleGrant d s).arbiter.lines.get w =
      if d.who = w then (s.arbiter.lines.get d.who).tail else s.arbiter.lines.get w := Lines.get_set ..
  exact ⟨(hget d.who).trans (if_pos rfl), fun w hw => (hget w).trans (if_neg fun h => hw h.symm)⟩

theorem carry_write {r : Request} (h : r.source.onlyData = true) (hw : r.write = true) (d : Decision) (s : State) :
    carry r (settleGrant d s) = { s with
      mem := writeLanes s.mem r.addr r.lanes
      arbiter := { (settleGrant d s).arbiter with port := some { req := r, under := lanesUnder s.mem r.addr r.lanes } } } := by
  unfold carry
  rw [if_pos hw, grantLanes_onlyData h]
  rfl

theorem carry_read {r : Request} (hw : r.write = false) (d : Decision) (s : State) :
    carry r (settleGrant d s) = { s with
      arbiter := { (settleGrant d s).arbiter with port := some { req := r, data := readBytes s.mem r.addr (8 * r.beats) } } } := by
  unfold carry
  rw [if_neg (by rw [hw]; decide)]
  rfl

/-- (1) of O38. -/
theorem grant_carries {s : State} {d : Decision} {r : Request} (ho : s.out = {}) (hd : s.decision = some d)
    (hr : s.granted = some r) (h : r.source.onlyData = true) :
    let a := s.arbiter
    let u := carry r (settleGrant d s)
    Completes .arbiterDecision s u ∧
    (r.write = true → u.mem = writeLanes s.mem r.addr r.lanes ∧
      u.arbiter.port = some { req := r, under := lanesUnder s.mem r.addr r.lanes }) ∧
    (r.write = false → u.mem = s.mem ∧
      u.arbiter.port = some { req := r, data := readBytes s.mem r.addr (8 * r.beats) }) ∧
    u.arbiter.lines.get d.who = (a.lines.get d.who).tail ∧
    (∀ w, w ≠ d.who → u.arbiter.lines.get w = a.lines.get w) ∧
    u.arbiter = { (a.count d).advance d with lines := u.arbiter.lines, port := u.arbiter.port } ∧
    u = { s with mem := u.mem, arbiter := u.arbiter } := by
  intro a u
  have hcompletes : Completes .arbiterDecision s u := decision_completes ho hd hr (grantEffect_onlyData h u)
  obtain ⟨htail, hothers⟩ := settleGrant_arbiter d s
  cases hw : r.write with
  | true =>
    have hu : u = _ := carry_write h hw d s
    refine ⟨hcompletes, fun _ => ⟨by rw [hu], by rw [hu]⟩, fun hn => Bool.noConfusion hn, ?_, fun w hwd => ?_, ?_, ?_⟩
    · rw [hu]
      exact htail
    · rw [hu]
      exact hothers w hwd
    · rw [hu]
      rfl
    · rw [hu]
  | false =>
    have hu : u = _ := carry_read hw d s
    refine ⟨hcompletes, fun hn => Bool.noConfusion hn, fun _ => ⟨by rw [hu], by rw [hu]⟩, ?_, fun w hwd => ?_, ?_, ?_⟩
    · rw [hu]
      exact htail
    · rw [hu]
      exact hothers w hwd
    · rw [hu]
      rfl
    · rw [hu]

/-! ### The grants of the work (R188 to R192) -/

/-- The work goes on at element `j` of stage `g`, and writes a burst (R189, R190). -/
def State.goesOn (u v : State) (g : WorkStage) (j a : Nat) (lanes : List (Option Byte)) : State :=
  { v with
    control := { u.control with work := { u.control.work with stage := g, index := j, writes := [(a, lanes)] } }
    out.requests := [workBurst a lanes] }

/-- The work goes on at the first element of stage `g`, and reads (R190 to R192). -/
def State.readsOn (u v : State) (g : WorkStage) (a beats : Nat) : State :=
  { v with
    control := { u.control with work := { u.control.work with stage := g, index := 0, writes := [], reading := true } }
    out.requests := [workFetch a beats] }

/-- The state in which the work goes on to its next element after a granted write (R189). -/
def State.onward (s : State) : State := nextElement { s with control.work.writes := [] }

theorem workGranted_onward {u : State} (h : u.control.work.stage ≠ .adoptFolios) :
    workGranted u = nextWork workFuel (workGrantEffect u).onward := by
  unfold workGranted
  split
  next hs => exact absurd hs h
  next => rfl

/-- The grants that do nothing on chip (R179, R189). -/
theorem workGranted_plain {u : State} (h : u.control.work.stage ≠ .adoptFolios) (h1 : u.control.work.stage ≠ .slots)
    (h2 : u.control.work.stage ≠ .noticeHeader) : workGranted u = nextWork workFuel u.onward := by
  rw [workGranted_onward h]
  unfold workGrantEffect
  split
  next hs => exact absurd hs h1
  next hs => exact absurd hs h2
  next => rfl

theorem workGranted_slots {u : State} (h : u.control.work.stage = .slots) :
    workGranted u = nextWork workFuel
      { u with ring.marks := dropMark u.ring.marks u.control.work.index }.onward := by
  rw [workGranted_onward (by rw [h]; decide)]
  unfold workGrantEffect
  rw [h]

theorem workGranted_header {u : State} (h : u.control.work.stage = .noticeHeader) :
    workGranted u = nextWork workFuel (openNotices u).onward := by
  rw [workGranted_onward (by rw [h]; decide)]
  unfold workGrantEffect
  rw [h]

section
variable {u : State} (ho : u.out = {})
include ho

/-- The notice slots, and then the header line, are written (R189). -/
theorem granted_noticeSlots (h : u.control.work.stage = .noticeSlots) :
    (u.control.work.index + 1 < u.profile.noticeSlots → workGranted u =
      u.goesOn u .noticeSlots (u.control.work.index + 1)
        (u.profile.noticeBase + 64 + 32 * (u.control.work.index + 1)) (allLanes (zeros 32))) ∧
    (u.control.work.index + 1 = u.profile.noticeSlots → workGranted u =
      u.goesOn u .noticeHeader 0 u.profile.noticeBase
        (allLanes (headerBytes 0 false 0 u.profile.noticeSlots ++ zeros 32))) := by
  have hg := workGranted_plain (u := u) (by rw [h]; decide) (by rw [h]; decide) (by rw [h]; decide)
  refine ⟨fun hi => ?_, fun hi => ?_⟩
  · refine (hg.trans (nextWork_noticeSlots_burst (s := u.onward) 11 h hi)).trans ((workWrite_eq (s := u.onward) ho _ _).trans ?_)
    rw [← h]
    rfl
  · have hn : ¬ u.control.work.index + 1 < u.profile.noticeSlots := by omega
    exact (hg.trans (nextWork_noticeSlots_done (s := u.onward) 11 h hn)).trans
      ((nextWork_noticeHeader_burst (s := toStage .noticeHeader u.onward) 10 rfl rfl).trans
        (workWrite_eq (s := toStage .noticeHeader u.onward) ho _ _))

/-- FORMAT's message records, and then the stack (R189). -/
theorem granted_records (h : u.control.work.stage = .records) :
    (u.control.work.index + 1 < u.profile.records → workGranted u =
      u.goesOn u .records (u.control.work.index + 1) (u.profile.messageBase + 64 * (u.control.work.index + 1))
        (allLanes (messageRecord {}))) ∧
    (u.control.work.index + 1 = u.profile.records → workGranted u = nextWork 11 (toStage .stack
      { u.onward with store := { u.store with freeRecords := List.range u.profile.records, serial := 1 } })) := by
  have hg := workGranted_plain (u := u) (by rw [h]; decide) (by rw [h]; decide) (by rw [h]; decide)
  refine ⟨fun hi => ?_, fun hi => ?_⟩
  · refine (hg.trans (nextWork_records_burst (s := u.onward) 11 h hi)).trans ((workWrite_eq (s := u.onward) ho _ _).trans ?_)
    rw [← h]
    rfl
  · have hn : ¬ u.control.work.index + 1 < u.profile.records := by omega
    exact hg.trans (nextWork_records_done (s := u.onward) 11 h hn)

/-- FORMAT's pool lines, and then the room part halves (R189). -/
theorem granted_pool (h : u.control.work.stage = .pool) :
    (u.control.work.index + 1 < u.profile.poolRecords → workGranted u =
      u.goesOn u .pool (u.control.work.index + 1) (u.profile.poolBase + 64 * (u.control.work.index + 1))
        (allLanes (zeros 64))) ∧
    (u.control.work.index + 1 = u.profile.poolRecords → 0 < u.roomCount → workGranted u =
      u.goesOn { u with rating := { u.rating with freePool := List.range u.profile.poolRecords, serial := 1 } }
        .roomHalves 0 (u.profile.roomBase + 64) (allLanes (zeros 64))) := by
  have hg := workGranted_plain (u := u) (by rw [h]; decide) (by rw [h]; decide) (by rw [h]; decide)
  refine ⟨fun hi => ?_, fun hi hpos => ?_⟩
  · refine (hg.trans (nextWork_pool_burst (s := u.onward) 11 h hi)).trans ((workWrite_eq (s := u.onward) ho _ _).trans ?_)
    rw [← h]
    rfl
  · have hn : ¬ u.control.work.index + 1 < u.profile.poolRecords := by omega
    let v : State := { u.onward with rating := { u.rating with freePool := List.range u.profile.poolRecords, serial := 1 } }
    have hv : nextWork 11 (toStage .roomHalves { u.onward with
        rating.freePool := List.range u.onward.profile.poolRecords, rating.serial := 1 }) =
        nextWork 11 (toStage .roomHalves v) := rfl
    exact ((hg.trans (nextWork_pool_done (s := u.onward) 11 h hn)).trans hv).trans
      ((nextWork_roomHalves_burst (s := toStage .roomHalves v) 10 rfl hpos).trans
        (workWrite_eq (s := toStage .roomHalves v) ho _ _))

/-- FORMAT's room part halves, and then the order slots (R189). -/
theorem granted_roomHalves (h : u.control.work.stage = .roomHalves) :
    (u.control.work.index + 1 < u.roomCount → workGranted u =
      u.goesOn u .roomHalves (u.control.work.index + 1)
        (u.profile.roomBase + 128 * (u.control.work.index + 1) + 64) (allLanes (zeros 64))) ∧
    (u.control.work.index + 1 = u.roomCount → 0 < u.profile.orderSlots → workGranted u =
      u.goesOn u .slots 0 u.profile.orderBase (allLanes (zeros 64))) := by
  have hg := workGranted_plain (u := u) (by rw [h]; decide) (by rw [h]; decide) (by rw [h]; decide)
  refine ⟨fun hi => ?_, fun hi hpos => ?_⟩
  · refine (hg.trans (nextWork_roomHalves_burst (s := u.onward) 11 h hi)).trans ((workWrite_eq (s := u.onward) ho _ _).trans ?_)
    rw [← h]
    rfl
  · have hn : ¬ u.control.work.index + 1 < u.roomCount := by omega
    exact (hg.trans (nextWork_roomHalves_done (s := u.onward) 11 h hn)).trans
      ((nextWork_slots_burst (s := toStage .slots u.onward) 10 rfl hpos).trans
        (workWrite_eq (s := toStage .slots u.onward) ho _ _))

/-- FORMAT's order slots, each mark cleared, and then the notice slots (R179, R189). -/
theorem granted_slots (h : u.control.work.stage = .slots) :
    let v : State := { u with ring.marks := u.ring.marks.filter fun k => decide (k ≠ u.control.work.index) }
    (u.control.work.index + 1 < u.profile.orderSlots → workGranted u =
      u.goesOn v .slots (u.control.work.index + 1) (u.profile.orderBase + 64 * (u.control.work.index + 1))
        (allLanes (zeros 64))) ∧
    (u.control.work.index + 1 = u.profile.orderSlots → 0 < u.profile.noticeSlots → workGranted u =
      u.goesOn v .noticeSlots 0 (u.profile.noticeBase + 64) (allLanes (zeros 32))) := by
  intro v
  have hg : workGranted u = nextWork workFuel v.onward := workGranted_slots h
  refine ⟨fun hi => ?_, fun hi hpos => ?_⟩
  · refine (hg.trans (nextWork_slots_burst (s := v.onward) 11 h hi)).trans ((workWrite_eq (s := v.onward) ho _ _).trans ?_)
    rw [← h]
    rfl
  · have hn : ¬ u.control.work.index + 1 < u.profile.orderSlots := by omega
    exact (hg.trans (nextWork_slots_done (s := v.onward) 11 h hn)).trans
      ((nextWork_noticeSlots_burst (s := toStage .noticeSlots v.onward) 10 rfl hpos).trans
        (workWrite_eq (s := toStage .noticeSlots v.onward) ho _ _))

omit ho in
/-- The header line opens notice writing, and ends FORMAT (R188, R189). -/
theorem granted_header_format (h : u.control.work.stage = .noticeHeader) (hk : u.control.work.kind = .format) :
    workGranted u = { u with
      control := { u.control with work := { u.control.work with stage := .finished, index := 0, writes := [] } }
      notices := { u.notices with isOpen := true, producer := 0, consumer := 0, overflow := false, dropped := 0 } } :=
  (workGranted_header h).trans ((nextWork_noticeHeader_done (s := (openNotices u).onward) 11 h (Nat.succ_ne_zero _)).trans
    ((if_pos hk).trans rfl))

/-- The header line opens notice writing, and ADOPT reads the records (R189, R190). -/
theorem granted_header_adopt (h : u.control.work.stage = .noticeHeader) (hk : u.control.work.kind = .adopt)
    (hpos : 0 < u.profile.records) :
    workGranted u = u.readsOn
      { u with notices := { u.notices with isOpen := true, producer := 0, consumer := 0, overflow := false, dropped := 0 } }
      .adoptRecords u.profile.messageBase 8 :=
  (workGranted_header h).trans ((nextWork_noticeHeader_done (s := (openNotices u).onward) 11 h (Nat.succ_ne_zero _)).trans
    ((if_neg (by rw [show (openNotices u).onward.control.work.kind = _ from hk]; decide)).trans
      ((nextWork_adoptRecords_burst (s := toStage .adoptRecords (openNotices u).onward) 10 rfl hpos).trans
        (workRead_eq (s := toStage .adoptRecords (openNotices u).onward) ho _ _))))

end

/-! ### The free stack (R19, R189, R191) -/

/-- The block that stack slot `j` is given, if any (R19). -/
def State.stackSlot (s : State) (j : Nat) : Option Nat :=
  if s.profile.blocks - s.unclaimed.length ≤ j then
    if j < s.profile.blocks then s.unclaimed[j - (s.profile.blocks - s.unclaimed.length)]? else none
  else none

/-- The lanes of a stack entry; one that is not pushed is not enabled. -/
def slotLanes (o : Option Nat) : List (Option Byte) := o.elim (List.replicate 4 none) fun b => allLanes (le 4 b)

/-- The lanes of line `l` of the stack. -/
def stackLanes (entry : Nat → Option Nat) (l : Nat) : List (Option Byte) :=
  (List.range 16).flatMap fun k => slotLanes (entry (16 * l + k))

theorem unclaimed_length_le (s : State) : s.unclaimed.length ≤ s.profile.blocks := by
  have h := List.length_filter_le (fun b => decide (b ∉ s.control.work.claims)) (List.range s.profile.blocks)
  rw [List.length_range] at h
  exact h

theorem stackLine_slots (s : State) (l : Nat) :
    stackLine s.profile.blocks s.unclaimed.length s.unclaimed l = stackLanes s.stackSlot l := by
  have hle := unclaimed_length_le s
  refine stackLine_eq _ _ _ _ (fun j => slotLanes (s.stackSlot j)) fun k _ => ?_
  generalize 16 * l + k = j
  unfold stackEntry State.stackSlot
  by_cases h1 : s.profile.blocks - s.unclaimed.length ≤ j
  · by_cases h2 : j < s.profile.blocks
    · have hlt : j - (s.profile.blocks - s.unclaimed.length) < s.unclaimed.length := by omega
      rw [if_pos h1, if_pos h2, if_pos ⟨h1, h2⟩, List.getD_eq_getElem?_getD, List.getElem?_eq_getElem hlt]
      rfl
    · rw [if_pos h1, if_neg h2, if_neg fun h => h2 h.2]
      rfl
  · rw [if_neg h1, if_neg fun h => h1 h.1]
    rfl

/-- The top line of the stack. -/
def Profile.lastLine (p : Profile) : Nat := (p.blocks + 15) / 16 - 1

/-- A line with pushed entries is written (R19). -/
theorem nextWork_stack_writes {y : State} (n : Nat) (ho : y.out = {}) (h : y.control.work.stage = .stack)
    (hne : y.unclaimed ≠ []) (hi : y.control.work.index ≤ y.profile.lastLine)
    (hd : y.profile.blocks - y.unclaimed.length < 16 * (y.profile.lastLine - y.control.work.index) + 16) :
    nextWork (n + 1) y = y.goesOn y .stack y.control.work.index
      (y.profile.stackBase + 64 * (y.profile.lastLine - y.control.work.index))
      (stackLanes y.stackSlot (y.profile.lastLine - y.control.work.index)) := by
  have hline : (stackLines y.profile.blocks y.unclaimed.length)[y.control.work.index]? =
      some (y.profile.lastLine - y.control.work.index) :=
    (stackLines_get (List.length_pos_of_ne_nil hne) (unclaimed_length_le y) _).trans (if_pos ⟨hi, hd⟩)
  rw [nextWork_stackLine n h hline, workWrite_eq ho, stackLine_slots]
  unfold State.goesOn
  rw [← h]

/-- With no line left that holds pushed entries the stack stands (R19). -/
theorem nextWork_stack_stands {y : State} (n : Nat) (h : y.control.work.stage = .stack)
    (hd : y.unclaimed ≠ [] → y.control.work.index ≤ y.profile.lastLine →
      16 * (y.profile.lastLine - y.control.work.index) + 16 ≤ y.profile.blocks - y.unclaimed.length) :
    nextWork (n + 1) y =
      nextWork n (toStage (if y.control.work.kind = .format then .pool else .adoptFolios) (endStack y)) := by
  refine nextWork_stackDone n h ?_
  by_cases hne : y.unclaimed = []
  · rw [hne]
    rfl
  · rw [stackLines_get (List.length_pos_of_ne_nil hne) (unclaimed_length_le y)]
    refine if_neg fun hc => ?_
    have := hd hne hc.1
    have hc2 : y.profile.blocks - y.unclaimed.length < 16 * (y.profile.lastLine - y.control.work.index) + 16 := hc.2
    omega

/-- The stack pointer for `u` entries stands one below the lowest of them (R19). -/
theorem stackPtrFor_eq (s : State) {u : Nat} (hu : u ≤ s.profile.blocks) :
    s.stackPtrFor u = BitVec.ofNat 34 (s.profile.stackBase + 4 * (s.profile.blocks - u)) - 4#34 := by
  have hsum : s.profile.stackBase + 4 * s.profile.blocks =
      s.profile.stackBase + 4 * (s.profile.blocks - u) + 4 * u := by omega
  unfold State.stackPtrFor State.stackTop
  rw [hsum, BitVec.ofNat_add]
  ring

section
variable {u : State} (ho : u.out = {})
include ho

/-- The next line of the stack is written (R19). -/
theorem granted_stack_writes (h : u.control.work.stage = .stack) (hne : u.unclaimed ≠ [])
    (hd : u.profile.blocks - u.unclaimed.length < 16 * (u.profile.lastLine - u.control.work.index)) :
    workGranted u = u.goesOn u .stack (u.control.work.index + 1)
      (u.profile.stackBase + 64 * (u.profile.lastLine - (u.control.work.index + 1)))
      (stackLanes u.stackSlot (u.profile.lastLine - (u.control.work.index + 1))) := by
  have hg := workGranted_plain (u := u) (by rw [h]; decide) (by rw [h]; decide) (by rw [h]; decide)
  have hlast : u.control.work.index + 1 ≤ u.profile.lastLine := by omega
  have hline := nextWork_stack_writes (y := u.onward) 11 ho h hne hlast (by
    show u.profile.blocks - u.unclaimed.length < 16 * (u.profile.lastLine - (u.control.work.index + 1)) + 16
    omega)
  exact hg.trans (hline.trans rfl)

/-- The stack stands: FORMAT goes on with the pool (R189). -/
theorem granted_stack_format (h : u.control.work.stage = .stack) (hk : u.control.work.kind = .format)
    (hd : 16 * (u.profile.lastLine - u.control.work.index) ≤ u.profile.blocks - u.unclaimed.length)
    (hpos : 0 < u.profile.poolRecords) :
    workGranted u = u.goesOn { u with store.stackPtr := u.stackPtrFor u.unclaimed.length }
      .pool 0 u.profile.poolBase (allLanes (zeros 64)) := by
  have hg := workGranted_plain (u := u) (by rw [h]; decide) (by rw [h]; decide) (by rw [h]; decide)
  have hstands := nextWork_stack_stands (y := u.onward) 11 h fun _ hi => by
    have hi : u.control.work.index + 1 ≤ u.profile.lastLine := hi
    show 16 * (u.profile.lastLine - (u.control.work.index + 1)) + 16 ≤ u.profile.blocks - u.unclaimed.length
    omega
  rw [if_pos (show u.onward.control.work.kind = .format from hk)] at hstands
  exact (hg.trans hstands).trans ((nextWork_pool_burst (s := toStage .pool (endStack u.onward)) 10 rfl hpos).trans
    (workWrite_eq (s := toStage .pool (endStack u.onward)) ho _ _))

omit ho in
/-- ADOPT's stack stands: the first folio summary is read (R192). -/
theorem nextWork_stack_adopts {y : State} (n : Nat) (hyo : y.out = {}) (h : y.control.work.stage = .stack)
    (hk : y.control.work.kind = .adopt)
    (hd : y.unclaimed ≠ [] → y.control.work.index ≤ y.profile.lastLine →
      16 * (y.profile.lastLine - y.control.work.index) + 16 ≤ y.profile.blocks - y.unclaimed.length) :
    nextWork (n + 2) y =
      { y with
        store := { y.store with stackPtr := y.stackPtrFor y.unclaimed.length }
        control := { y.control with work := { y.control.work with stage := .adoptFolios, index := 0, reading := true } }
        out.requests := [workFetch (y.profile.roomBase + 80) 4] } := by
  have hstands := nextWork_stack_stands (y := y) (n + 1) h hd
  rw [if_neg (by rw [hk]; decide)] at hstands
  exact hstands.trans ((nextWork_adoptFolios (s := toStage .adoptFolios (endStack y)) n rfl).trans
    (workRead_eq (s := toStage .adoptFolios (endStack y)) hyo _ _))

theorem granted_stack_adopt (h : u.control.work.stage = .stack) (hk : u.control.work.kind = .adopt)
    (hd : 16 * (u.profile.lastLine - u.control.work.index) ≤ u.profile.blocks - u.unclaimed.length) :
    workGranted u = u.readsOn { u with store.stackPtr := u.stackPtrFor u.unclaimed.length }
      .adoptFolios (u.profile.roomBase + 80) 4 := by
  have hg := workGranted_plain (u := u) (by rw [h]; decide) (by rw [h]; decide) (by rw [h]; decide)
  have hstands := nextWork_stack_adopts (y := u.onward) 10 ho h hk fun _ hi => by
    have hi : u.control.work.index + 1 ≤ u.profile.lastLine := hi
    show 16 * (u.profile.lastLine - (u.control.work.index + 1)) + 16 ≤ u.profile.blocks - u.unclaimed.length
    omega
  exact hg.trans (hstands.trans rfl)

/-- ADOPT's records are written, one after the other (R190). -/
theorem granted_adoptWrite_next {j : Nat} (h : u.control.work.stage = .adoptWrite)
    (hj : u.writtenFrom (u.control.work.index + 1) = some j) :
    workGranted u = u.goesOn (u.setMessage j (u.message j).adopted) .adoptWrite j (u.profile.messageBase + 64 * j)
      (allLanes (messageRecord (u.message j).adopted)) := by
  have hg := workGranted_plain (u := u) (by rw [h]; decide) (by rw [h]; decide) (by rw [h]; decide)
  have hwrite := nextWork_adoptWrite (s := u.onward) 11 h hj
  rw [workWrite_eq (by exact ho)] at hwrite
  refine hg.trans (hwrite.trans ?_)
  rw [← h]
  rfl

omit ho in
/-- After the last record the free bitmap takes the FREE records, and the stack follows (R190, R191). -/
theorem granted_adoptWrite_done (h : u.control.work.stage = .adoptWrite)
    (hj : u.writtenFrom (u.control.work.index + 1) = none) :
    workGranted u = nextWork 11 (toStage .stack { u.onward with store.freeRecords := u.freeBitmap }) :=
  (workGranted_plain (u := u) (by rw [h]; decide) (by rw [h]; decide) (by rw [h]; decide)).trans
    (nextWork_adoptWritten (s := u.onward) 11 h hj)

end

/-! ### After the last chain walk (R191) -/

theorem adopted_of_listed {m : Message} (h : m.state.listed = true) : m.adopted = m := by
  unfold Message.adopted
  exact if_neg fun hd => by rw [hd] at h; exact Bool.false_ne_true h

theorem adopted_of_deleting {m : Message} (h : m.state = .deleting) : m.adopted.state = .free := by
  unfold Message.adopted
  rw [if_pos h]

/-- With no kept record left to walk the mailboxes are rebuilt, and the records are written (R190, R191). -/
theorem nextWork_rebuilds {z : State} {i : Nat} (n : Nat) (ho : z.out = {}) (h : z.control.work.stage = .adoptWalk)
    (hk : z.keptFrom z.control.work.index = none) (hlists : ∀ r, (z.mailbox r).list = []) (hi : i < z.profile.records)
    (hl : (z.message i).state.listed = true) :
    ∃ st ct o, nextWork (n + 2) z = { z with store := st, control := { z.control with work := ct }, out := o } ∧
      ct.stage = .adoptWrite ∧ MailboxesRebuilt z (nextWork (n + 2) z) z.message := by
  obtain ⟨t, hreb, ⟨⟨ms, bs, cl, dm, hrest⟩, hboxes, -, hlisted, hsurplus, -, hothers⟩⟩ := rebuildMailboxes_rebuilds hlists
  have hwalk := (nextWork_adoptWalk (s := z) (n + 1) h (startChains_none hk)).trans (if_neg Bool.false_ne_true)
  rw [hreb] at hwalk
  have hxs : ∃ st ct, toStage .adoptWrite { t with store.serial := t.adoptedSerial } =
      { z with store := st, control := { z.control with work := ct } } ∧ ct.stage = .adoptWrite ∧ ct.index = 0 ∧
      ct.claims = t.control.work.claims ∧ ct.damaged = t.control.work.damaged ∧ st.messages = t.store.messages ∧
      st.mailboxes = t.store.mailboxes := ⟨_, _, by rw [hrest]; rfl, rfl, rfl, by rw [hrest], by rw [hrest], by rw [hrest], by rw [hrest]⟩
  generalize toStage .adoptWrite { t with store.serial := t.adoptedSerial } = x at hwalk hxs
  obtain ⟨st, ct, hx, hstage, hidx, hcl, hdm, hms, hbs⟩ := hxs
  have hxm (j : Nat) : x.message j = t.message j := message_congr (by rw [hx]; exact hms) j
  have hxb (r : Nat) : x.mailbox r = t.mailbox r := mailbox_congr (by rw [hx]; exact hbs) r
  -- the record `i` is still to be written
  have hused : (x.message i).state ≠ .free := by
    rw [hxm]
    by_cases hr : (z.message i).room < z.roomCount
    · have hin : i ∈ z.placed (z.message i).room z.profile.records := mem_placed.mpr ⟨hi, hl, rfl⟩
      rw [← List.take_append_drop 32 (z.placed (z.message i).room z.profile.records), List.mem_append] at hin
      obtain hin | hin := hin
      · rw [hlisted _ hr i hin]
        intro hf
        rw [show (z.message i).state = .free from hf] at hl
        exact Bool.false_ne_true hl
      · rw [(hsurplus _ hr i hin).1]
        decide
    · rw [hothers i fun r hr' hin => hr (by rw [(mem_placed.mp hin).2.2]; exact hr')]
      intro hf
      rw [hf] at hl
      exact Bool.false_ne_true hl
  obtain ⟨j, hj, -, -⟩ := writtenFrom_isSome (s := x) (by rw [hx]; exact hi) hused
  have hwrite := nextWork_adoptWrite (s := x) (j := j) n (by rw [hx]; exact hstage) (by
    rw [show x.control.work.index = 0 by rw [hx]; exact hidx]
    exact hj)
  rw [workWrite_eq (by rw [hx]; exact ho)] at hwrite
  have hall := hwalk.trans hwrite
  have hwm (k : Nat) : (nextWork (n + 2) z).message k = if k = j then (x.message j).adopted else x.message k := by
    rw [hall]
    exact State.setMessage_message x j (x.message j).adopted k
  have hwb (r : Nat) : (nextWork (n + 2) z).mailbox r = t.mailbox r := by
    rw [hall, ← hxb]
    rfl
  have hwc : (nextWork (n + 2) z).control.work.claims = t.control.work.claims ∧
      (nextWork (n + 2) z).control.work.damaged = t.control.work.damaged := by
    rw [hall, ← hcl, ← hdm, hx]
    exact ⟨rfl, rfl⟩
  obtain ⟨st', ct', o, hw, hstage'⟩ : ∃ st ct o, nextWork (n + 2) z =
      { z with store := st, control := { z.control with work := ct }, out := o } ∧ ct.stage = .adoptWrite := by
    rw [hall, hx]
    exact ⟨_, _, _, rfl, hstage⟩
  refine ⟨st', ct', o, hw, hstage', fun r hr => ?_⟩
  intro all list count
  have hbox : (nextWork (n + 2) z).mailbox r = z.summaryOf list := (hwb r).trans (hboxes r hr)
  refine ⟨by rw [hbox]; rfl, by rw [hbox]; rfl, by rw [hbox]; rfl, by rw [hbox]; rfl, fun k hk => ?_, fun k hk => ?_⟩
  · have hkl : (z.message k).state.listed = true := (mem_placed.mp (List.mem_of_mem_take (l := z.placed r z.profile.records) hk)).2.1
    have hkm : x.message k = { z.message k with next := successor list k } := (hxm k).trans (hlisted r hr k hk)
    rw [hwm]
    by_cases hkj : k = j
    · subst hkj
      rw [if_pos rfl, hkm]
      exact adopted_of_listed hkl
    · rw [if_neg hkj, hkm]
  · obtain ⟨hst, hdam, hclaims⟩ := hsurplus r hr k hk
    rw [hwc.1, hwc.2, hwm]
    refine ⟨?_, hdam, hclaims⟩
    by_cases hkj : k = j
    · subst hkj
      rw [if_pos rfl]
      exact .inr (adopted_of_deleting (by rw [hxm]; exact hst))
    · rw [if_neg hkj, hxm]
      exact .inl hst

/-- The rebuilt mailboxes as seen from before the last walk was settled (R191). -/
theorem MailboxesRebuilt.of_settled {s z w t : State} {settled : Nat → Message} (h : MailboxesRebuilt z w z.message)
    (hz : ∀ j, z.message j = settled j) (hs : ∀ j, ∃ l n, settled j = { s.message j with length := l, readers := n })
    (hp : s.profile = z.profile) (hc : ∀ j, s.chainOf j = z.chainOf j) (hm : ∀ j, t.message j = w.message j)
    (hb : ∀ r, t.mailbox r = w.mailbox r) (hw : t.control = w.control) : MailboxesRebuilt s t settled := by
  have hfields (j : Nat) : (z.message j).state = (s.message j).state ∧ (z.message j).room = (s.message j).room ∧
      (z.message j).urgent = (s.message j).urgent ∧ (z.message j).serial = (s.message j).serial ∧
      (z.message j).blocks = (s.message j).blocks := by
    obtain ⟨l, n, hj⟩ := hs j
    rw [hz, hj]
    exact ⟨rfl, rfl, rfl, rfl, rfl⟩
  have hclass (j : Nat) : (z.message j).playClass = (s.message j).playClass := by
    unfold Message.playClass
    rw [(hfields j).1, (hfields j).2.2.1]
  have hinsert (j : Nat) (l : List Nat) : insertPlay z j l = insertPlay s j l := by
    induction l with
    | nil => rfl
    | cons k l ih =>
      unfold insertPlay playBefore
      rw [hclass, hclass, (hfields j).2.2.2.1, (hfields k).2.2.2.1, ih]
  have hplaced (r : Nat) : z.placed r z.profile.records = s.placed r s.profile.records := by
    unfold State.placed
    rw [hp]
    simp only [hinsert, (hfields _).1, (hfields _).2.1]
  intro r hr
  obtain ⟨hlist, hplaces, hblocks, hcounts, hlinks, hsurplus⟩ :=
    h r (by rw [show z.roomCount = s.roomCount from congrArg (fun p : Profile => 64 * p.floors) hp.symm]; exact hr)
  have hlist : (w.mailbox r).list = (z.placed r z.profile.records).take 32 := hlist
  have hplaces : (w.mailbox r).places = ((z.placed r z.profile.records).take 32).length := hplaces
  have hlinks : ∀ j ∈ (z.placed r z.profile.records).take 32,
      w.message j = { z.message j with next := successor ((z.placed r z.profile.records).take 32) j } := hlinks
  have hsurplus : ∀ j ∈ (z.placed r z.profile.records).drop 32, ((w.message j).state = .deleting ∨ (w.message j).state = .free) ∧
      j ∈ w.control.work.damaged ∧ ∀ x ∈ z.chainOf j, x ∉ w.control.work.claims := hsurplus
  have hblocks : (w.mailbox r).blocksUsed =
      (((z.placed r z.profile.records).take 32).map fun j => (z.message j).blocks).sum := hblocks
  have hcounts : (w.mailbox r).counts = z.countsOf ((z.placed r z.profile.records).take 32) := hcounts
  have hcountsOf (l : List Nat) : z.countsOf l = s.countsOf l := by
    unfold State.countsOf
    simp only [(hfields _).1, (hfields _).2.2.1]
  rw [hplaced] at hlist hplaces hlinks hsurplus hblocks hcounts
  simp only [(hfields _).2.2.2.2] at hblocks
  intro all list count
  refine ⟨by rw [hb]; exact hlist, by rw [hb]; exact hplaces, ?_, ?_, fun j hj => ?_, fun j hj => ?_⟩
  · rw [hb]
    exact hblocks
  · rw [hb, hcounts, hcountsOf]
    rfl
  · rw [hm, hlinks j hj, hz]
    rfl
  · rw [hm, hw, hc]
    exact hsurplus j hj

section
variable {u : State} (ho : u.out = {}) (h : u.control.work.stage = .adoptWalk)
include ho h

/-- The header patch of a chain that was cut is followed by the walk of the next kept record (R190). -/
theorem granted_adoptWalk_next {j b : Nat} (hk : u.keptFrom (u.control.work.index + 1) = some j)
    (hb : (u.message j).first = b) (hfirst : b < u.profile.blocks) (hfree : b ∉ u.control.work.claims)
    (hblocks : 0 < (u.message j).blocks) :
    workGranted u = { u with
      control := { u.control with work := { u.control.work with
        index := j, writes := [], reading := true, samples := 0, header := [], block := b
        claims := addMark u.control.work.claims b
        chains := Table.set [] u.control.work.chains j (b :: u.chainOf j) } }
      out.requests := [workFetch (u.profile.storeBase + 512 * b) 1] } := by
  have hg := workGranted_plain (u := u) (by rw [h]; decide) (by rw [h]; decide) (by rw [h]; decide)
  exact hg.trans ((nextWork_walks (s := u.onward) 11 ho h hk hb hfirst hfree hblocks).trans rfl)

/-- After the last kept record the mailboxes are rebuilt (R191). -/
theorem granted_adoptWalk_last {i : Nat} (hk : u.keptFrom (u.control.work.index + 1) = none)
    (hlists : ∀ r, (u.mailbox r).list = []) (hi : i < u.profile.records) (hl : (u.message i).state.listed = true) :
    ∃ st ct o, workGranted u = { u with store := st, control := { u.control with work := ct }, out := o } ∧
      ct.stage = .adoptWrite ∧ MailboxesRebuilt u (workGranted u) u.message := by
  have hg := workGranted_plain (u := u) (by rw [h]; decide) (by rw [h]; decide) (by rw [h]; decide)
  obtain ⟨st, ct, o, hw, hstage, hreb⟩ := nextWork_rebuilds (z := u.onward) 10 ho h hk hlists hi hl
  refine ⟨st, ct, o, hg.trans hw, hstage, ?_⟩
  rw [hg]
  exact hreb.of_settled (fun _ => rfl) (fun j => ⟨(u.message j).length, (u.message j).readers, rfl⟩) rfl (fun _ => rfl)
    (fun _ => rfl) (fun _ => rfl) rfl

end

end Sys2Proof.Machine
end

section
/-! PROOFS. The folio walks of ADOPT (11.5), and what the grants of start-up carry (9.3). -/

namespace Sys2Proof.Machine

/-! ### A room's folios under way (R192) -/

/-- In `y`, ADOPT has settled the folios of room `r` as `f`, with the pool records `claims` claimed and `cuts` folios cut,
and nothing of them is outstanding (R192). -/
structure FolioRoom (s y : State) (r : Nat) (f : RoomFolios) (claims : List Nat) (cuts : Nat) : Prop where
  rest   : ∃ fs ct a, y = { s with
    rating := { s.rating with folios := fs }, control := { s.control with work := ct }, arbiter := a } ∧
    a.lines = s.arbiter.lines ∧ ct.stage = .adoptFolios ∧ ct.index = r ∧ ct.folio = none ∧
    ct.damaged = s.control.work.damaged ∧ ct.cutFolios = cuts ∧ ∀ k, k ∈ ct.poolClaims ↔ k ∈ claims
  place  : y.folios r = f
  others : ∀ q, q ≠ r → y.folios q = s.folios q

theorem foldl_max_eq {l : List Nat} {m : Nat} (hm : m ∈ l) (h : ∀ x ∈ l, x ≤ m) : l.foldl max 0 = m := by
  have hle (a : Nat) (ha : a ≤ m) : ∀ l : List Nat, (∀ x ∈ l, x ≤ m) → l.foldl max a ≤ m ∧ (m ∈ l ∨ a = m → l.foldl max a = m) := by
    intro l
    induction l generalizing a with
    | nil => exact fun _ => ⟨ha, fun h => h.elim (fun h => absurd h List.not_mem_nil) id⟩
    | cons x l ih =>
      intro hl
      have hx := hl x (List.mem_cons_self ..)
      obtain ⟨h1, h2⟩ := ih (max a x) (by omega) fun y hy => hl y (List.mem_cons_of_mem _ hy)
      refine ⟨h1, fun hc => h2 ?_⟩
      rw [List.mem_cons] at hc
      obtain (rfl | hc) | hc := hc
      · right
        omega
      · exact .inl hc
      · right
        omega
  exact (hle 0 (Nat.zero_le m) l h).2 (.inl hm)

/-- The summary of the next room is read (R192). -/
theorem nextRoomFolios_reads {y : State} (ho : y.out = {}) (hr : y.control.work.index + 1 < y.roomCount) :
    nextRoomFolios y = { y with
      control := { y.control with work := { y.control.work with index := y.control.work.index + 1, reading := true } }
      out.requests := [workFetch (y.profile.roomBase + 128 * (y.control.work.index + 1) + 80) 4] } := by
  have hreads : nextRoomFolios y = readSummary (y.control.work.index + 1) (nextElement y) := if_pos hr
  rw [hreads]
  exact workRead_eq (s := nextElement y) ho _ _

/-- The serials of the folios that stand (R192). -/
def Rating.serials (r : Rating) : List Nat :=
  r.folios.flatMap fun e => (e.2.opened.toList ++ e.2.closed.toList).map fun f => f.serial

/-- The rating engine as ADOPT leaves it (R192). -/
def Rating.adopted (r : Rating) (records : Nat) (claims : List Nat) : Rating :=
  { r with
    freePool := (List.range records).filter fun k => k ∉ claims
    serial := if r.serials = [] then 1 else nextSerial (r.serials.foldl max 0) }

theorem notify_from_nothing {z : State} (ho : z.out = {}) (who : Requester) (k : NoticeKind) (room d1 d2 : Nat) :
    notify who k room d1 d2 z = { z with
      out.notices := if z.profile.noticeEnable.getLsbD k.code = true then [(who, ⟨k, room, z.stamp, d1, d2⟩)] else [] } := by
  unfold notify State.enabled
  split
  next =>
    rw [ho]
    rfl
  next =>
    cases z
    cases ho
    rfl

/-- After the last room ADOPT is finished (R192). -/
theorem nextRoomFolios_ends {y : State} (ho : y.out = {}) (hr : ¬ y.control.work.index + 1 < y.roomCount) :
    nextRoomFolios y = { y with
      control := { y.control with work := { y.control.work with stage := .finished, index := 0 } }
      rating := y.rating.adopted y.profile.poolRecords y.control.work.poolClaims
      out.notices := if y.profile.noticeEnable.getLsbD 15 = true then
          [(.directory, ⟨.adoptRepair, none16, y.stamp, y.control.work.damaged.length, y.control.work.cutFolios⟩)]
        else [] } := by
  have hends : nextRoomFolios y = endAdopt (nextElement y) := if_neg hr
  have hserials : (y.rating.folios.flatMap fun e =>
      (e.2.opened.map fun f => f.serial).toList ++ (e.2.closed.map fun f => f.serial).toList) = y.rating.serials := by
    unfold Rating.serials
    refine List.flatMap_congr fun e _ => ?_
    obtain ⟨k, o, c, b⟩ := e
    cases o <;> cases c <;> rfl
  rw [hends]
  unfold endAdopt
  dsimp only
  rw [show (nextElement y).rating = y.rating from rfl, hserials]
  exact notify_from_nothing (z := { toStage .finished (nextElement y) with
    rating := y.rating.adopted y.profile.poolRecords y.control.work.poolClaims }) ho _ _ _ _ _

/-- ADOPT goes on with the next room, or ends (R192). -/
theorem FolioRoom.done {s y : State} {r cuts : Nat} {f : RoomFolios} {claims : List Nat} (h : FolioRoom s y r f claims cuts)
    (ho : s.out = {}) {t : State} (ht : EndsAs (nextRoomFolios y) t) :
    AdoptRoomDone s t r f claims cuts ∧ t.store = s.store ∧ ∀ q, q ≠ r → t.folios q = s.folios q := by
  obtain ⟨⟨fs, ct, a, hy, hal, hstage, hidx, hfolio, hdam, hcuts, hclaims⟩, hplace, hothers⟩ := h
  have hyo : y.out = {} := by rw [hy]; exact ho
  have hyi : y.control.work.index = r := by rw [hy]; exact hidx
  have hyr : y.roomCount = s.roomCount := by rw [hy]; rfl
  by_cases hr : r + 1 < s.roomCount
  · have hnext := nextRoomFolios_reads hyo (by rw [hyi, hyr]; exact hr)
    rw [hyi] at hnext
    rw [hnext] at ht
    have hfol (q : Nat) : t.folios q = y.folios q := ht.folios q
    have hwork := congrArg Control.work ht.control
    refine ⟨⟨by rw [hfol, hplace], by rw [hwork, hy]; exact hcuts, fun k => by rw [hwork, hy]; exact hclaims k, fun _ => ?_,
      fun hle => absurd hr (by omega)⟩, ?_, fun q hq => by rw [hfol, hothers q hq]⟩
    · refine ⟨by rw [hwork, hy]; exact hstage, by rw [hwork], by rw [hwork, hy]; exact hfolio,
        lineGrew_of_ends ht (by rw [hy]; exact hal) fun x hx => ⟨?_, ?_⟩⟩
      · rw [List.mem_singleton.mp hx, hy]
        exact List.mem_singleton.mpr rfl
      · rw [List.mem_singleton.mp hx]
        rfl
    · rw [ht.store, hy]
  · have hnext := nextRoomFolios_ends hyo (by rw [hyi, hyr]; exact hr)
    rw [hnext] at ht
    have hfol (q : Nat) : t.folios q = y.folios q := ht.folios q
    have hwork := congrArg Control.work ht.control
    have hrating := ht.rating
    refine ⟨⟨by rw [hfol, hplace], by rw [hwork, hy]; exact hcuts, fun k => by rw [hwork, hy]; exact hclaims k,
      fun hlt => absurd hlt hr, fun _ => ⟨by rw [hwork], fun k => ?_, ⟨fun hnil => ?_, fun m hm hmax hlt => ?_⟩, fun hen hq => ?_⟩⟩,
      ?_, fun q hq => by rw [hfol, hothers q hq]⟩
    · rw [hrating]
      show k ∈ (List.range y.profile.poolRecords).filter (fun k => k ∉ y.control.work.poolClaims) ↔ _
      rw [List.mem_filter, List.mem_range, decide_eq_true_eq, hy, not_congr (hclaims k)]
      rfl
    · rw [hrating] at hnil ⊢
      exact if_pos hnil
    · rw [hrating] at hm hmax ⊢
      have hne : y.rating.serials ≠ [] := fun hn => by
        have hm' : m ∈ y.rating.serials := hm
        rw [hn] at hm'
        exact List.not_mem_nil hm'
      have hserial : (y.rating.adopted y.profile.poolRecords y.control.work.poolClaims).serial =
          nextSerial (y.rating.serials.foldl max 0) := if_neg hne
      rw [show State.rating _ = y.rating.adopted y.profile.poolRecords y.control.work.poolClaims from rfl, hserial,
        foldl_max_eq (l := y.rating.serials) hm hmax]
      unfold nextSerial
      exact if_neg (by omega)
    · have hen' : y.profile.noticeEnable.getLsbD 15 = true := by rw [hy]; exact hen
      obtain ⟨q, hq1, hq2⟩ := ht.notices (by
        show y.notices.queue.length + (if _ then _ else _ : List (Requester × Notice)).length ≤ 16
        rw [if_pos hen', hy]
        exact hq)
      have hone : (if y.profile.noticeEnable.getLsbD 15 = true then
          [(Requester.directory, (⟨.adoptRepair, none16, y.stamp, y.control.work.damaged.length, y.control.work.cutFolios⟩ : Notice))]
          else []).map Prod.snd = [⟨.adoptRepair, none16, y.stamp, y.control.work.damaged.length, y.control.work.cutFolios⟩] := by
        rw [if_pos hen']
        rfl
      have hq3 : q = [⟨.adoptRepair, none16, y.stamp, y.control.work.damaged.length, y.control.work.cutFolios⟩] :=
        List.perm_singleton.mp (hone ▸ hq2)
      rw [hq1, hq3, hy]
      show s.notices.queue ++ [⟨.adoptRepair, 0xFFFF, s.stamp, ct.damaged.length, ct.cutFolios⟩] = _
      rw [hdam, hcuts]
    · rw [ht.store, hy]

/-! ### One place of a room (R192) -/

theorem FolioRoom.ended {s y : State} {r cuts : Nat} {f : RoomFolios} {claims : List Nat} (h : FolioRoom s y r f claims cuts)
    (w : FolioWalk) (cut : Bool) : FolioRoom s (endFolio r w cut y) r
      (f.setPlace (if w.inClosed then .closed else .opened) (some (w.folio cut))) claims (cuts + if cut then 1 else 0) := by
  obtain ⟨⟨fs, ct, a, hy, hal, hstage, hidx, hfolio, hdam, hcuts, hclaims⟩, hplace, hothers⟩ := h
  have hfol (q : Nat) : (endFolio r w cut y).folios q =
      if q = r then f.setPlace (if w.inClosed then .closed else .opened) (some (w.folio cut)) else y.folios q := by
    rw [← hplace]
    unfold endFolio
    dsimp only
    split
    · exact State.setFolios_folios ..
    · exact State.setFolios_folios ..
  refine ⟨?_, (hfol r).trans (if_pos rfl), fun q hq => (hfol q).trans ((if_neg hq).trans (hothers q hq))⟩
  unfold endFolio
  dsimp only
  cases cut with
  | true => exact ⟨_, { ct with cutFolios := ct.cutFolios + 1 }, a, by rw [if_pos rfl, hy]; rfl, hal, hstage, hidx, hfolio, hdam,
      by rw [if_pos rfl, ← hcuts], hclaims⟩
  | false => exact ⟨_, ct, a, by rw [if_neg Bool.false_ne_true, hy]; rfl, hal, hstage, hidx, hfolio, hdam,
      by rw [if_neg Bool.false_ne_true, ← hcuts, Nat.add_zero], hclaims⟩

theorem FolioRoom.nothing {s y : State} {r cuts : Nat} {f : RoomFolios} {claims : List Nat}
    (h : FolioRoom s y r f claims cuts) (ho : s.out = {}) : y.out = {} := by
  obtain ⟨⟨fs, ct, a, hy, -⟩, -, -⟩ := h
  rw [hy]
  exact ho

theorem FolioRoom.settledState {s y : State} {r cuts : Nat} {f : RoomFolios} {claims : List Nat}
    (h : FolioRoom s y r f claims cuts) : { y with control.work.folio := none } = y := by
  obtain ⟨⟨fs, ct, a, hy, -, -, -, hfolio, -, -, -⟩, -, -⟩ := h
  rw [hy]
  cases ct
  cases hfolio
  rfl

theorem FolioRoom.pool {s y : State} {r cuts : Nat} {f : RoomFolios} {claims : List Nat} (h : FolioRoom s y r f claims cuts) :
    y.profile = s.profile ∧ ∀ k, k ∈ y.control.work.poolClaims ↔ k ∈ claims := by
  obtain ⟨⟨fs, ct, a, hy, -, -, -, -, -, -, hclaims⟩, -, -⟩ := h
  rw [hy]
  exact ⟨rfl, hclaims⟩

/-- A place of which no record has been read ends, cut where its head is refused (R192). -/
theorem folioOn_ends {s y : State} {r cuts : Nat} {f : RoomFolios} {claims : List Nat} (h : FolioRoom s y r f claims cuts)
    {w : FolioWalk} (hrec : w.records = []) (hend : w.next = none32 ∨ s.profile.poolRecords ≤ w.next ∨ w.next ∈ claims) :
    folioOn r w y = (false, endFolio r w (decide (w.next ≠ none32)) y) := by
  obtain ⟨hp, hclaims⟩ := h.pool
  unfold folioOn
  dsimp only
  rw [h.settledState]
  by_cases h1 : w.next = none32
  · rw [if_pos h1, decide_eq_false (fun hn => hn h1)]
  · have h2 : w.next ≥ y.profile.poolRecords ∨ w.next ∈ y.control.work.poolClaims := by
      rw [hclaims, hp]
      exact hend.resolve_left h1
    rw [if_neg h1, if_pos h2, decide_eq_true h1, hrec]
    rfl

/-- The next record of a place is read (R192). -/
theorem folioOn_reads {s y : State} {r cuts : Nat} {f : RoomFolios} {claims : List Nat} (h : FolioRoom s y r f claims cuts)
    (ho : y.out = {}) {w : FolioWalk} (h1 : w.next ≠ none32) (h2 : w.next < s.profile.poolRecords) (h3 : w.next ∉ claims) :
    folioOn r w y = (true, { y with
      control := { y.control with work := { y.control.work with folio := some w, reading := true } }
      out.requests := [workFetch (y.profile.poolBase + 64 * w.next) 8] }) := by
  obtain ⟨hp, hclaims⟩ := h.pool
  unfold folioOn
  dsimp only
  have h4 : ¬(w.next ≥ y.profile.poolRecords ∨ w.next ∈ y.control.work.poolClaims) := by
    rw [hclaims, hp]
    exact not_or.mpr ⟨Nat.not_le_of_lt h2, h3⟩
  rw [if_neg h1, if_neg h4]
  exact congrArg (Prod.mk true) (workRead_eq (s := { y with control.work.folio := some w }) ho _ _)

/-- What follows the places of a room: the burst they raised, or the next room (R192). -/
def roomGoes (p : Bool × State) : State := if p.1 then p.2 else nextRoomFolios p.2

theorem folioPlaces_ended {r n : Nat} {w : FolioWalk} {y z : State} (h : folioOn r w y = (false, z)) :
    folioPlaces r (n + 1) (some w) y = folioPlaces r n w.following z := by
  conv_lhs => unfold folioPlaces
  dsimp only
  rw [h]
  rfl

theorem folioPlaces_busy {r n : Nat} {w : FolioWalk} {y z : State} (h : folioOn r w y = (true, z)) :
    folioPlaces r (n + 1) (some w) y = (true, z) := by
  unfold folioPlaces
  rw [h]
  rfl

theorem folioPlaces_none (r n : Nat) (y : State) : folioPlaces r n none y = (false, y) := by
  cases n <;> rfl

theorem field_lt (bs : List Byte) (off n : Nat) : field bs off n < 256 ^ n := by
  have hof (l : List Byte) : ofLe l < 256 ^ l.length := by
    induction l with
    | nil => exact Nat.one_pos
    | cons b l ih =>
      have hb := b.isLt
      unfold ofLe
      rw [List.length_cons, Nat.pow_succ]
      omega
  refine Nat.lt_of_lt_of_le (hof _) (Nat.pow_le_pow_right (by decide) ?_)
  unfold slice
  exact List.length_take_le ..

/-- How many records a summary counts in the place at `o` (R195). -/
def summaryCount (sum : List Byte) (o big : Nat) : Nat :=
  field sum (o + 8) 2 + if (field sum 0 1).testBit big then 65536 else 0

/-- The walk of a place as its summary gives it (R192). -/
def placeStart (sum : List Byte) (inClosed : Bool) (o inc big : Nat) : FolioWalk :=
  { inClosed := inClosed, serial := field sum o 4, flagged := (field sum 0 1).testBit inc
    next := if summaryCount sum o big = 0 then none32 else field sum (o + 10) 2, summary := sum }

theorem placeWalk_some {sum : List Byte} {inClosed : Bool} {o present inc big : Nat}
    (h : (field sum 0 1).testBit present = true ∧ field sum o 4 ≠ 0) :
    placeWalk sum inClosed o present inc big = some (placeStart sum inClosed o inc big) := by
  unfold placeWalk
  dsimp only
  rw [if_pos h]
  have hnext : summaryHead (field sum (o + 8) 2) (bit ((field sum 0 1).testBit big) 0) (field sum (o + 10) 2) =
      if summaryCount sum o big = 0 then none32 else field sum (o + 10) 2 := by
    unfold summaryHead summaryCount bit
    cases (field sum 0 1).testBit big <;> simp
  rw [hnext]
  rfl

theorem lt_none32 {n : Nat} (h : n < 65536) : n ≠ none32 := fun he => absurd (he ▸ h) (by decide)

/-- A place as its summary gives it has no record to read: none is counted, or its head is refused (R192). -/
theorem folioOn_empty {s y : State} {r cuts : Nat} {f : RoomFolios} {claims : List Nat} (h : FolioRoom s y r f claims cuts)
    {w : FolioWalk} (hrec : w.records = []) {count head : Nat} (hn : w.next = if count = 0 then none32 else head)
    (hh : head < 65536) (he : count = 0 ∨ s.profile.poolRecords ≤ head ∨ head ∈ claims) :
    folioOn r w y = (false, endFolio r w (decide (0 < count)) y) := by
  by_cases h0 : count = 0
  · rw [if_pos h0] at hn
    rw [folioOn_ends h hrec (.inl hn), hn, h0]
    rfl
  · rw [if_neg h0] at hn
    rw [folioOn_ends h hrec (.inr (hn ▸ he.resolve_left h0)), hn, decide_eq_true (lt_none32 hh),
      decide_eq_true (Nat.pos_of_ne_zero h0)]

/-- The first record of a place as its summary gives it is read (R192). -/
theorem folioOn_head {s y : State} {r cuts : Nat} {f : RoomFolios} {claims : List Nat} (h : FolioRoom s y r f claims cuts)
    (ho : y.out = {}) {w : FolioWalk} {count head : Nat} (hn : w.next = if count = 0 then none32 else head)
    (hh : head < 65536) (he : ¬(count = 0 ∨ s.profile.poolRecords ≤ head ∨ head ∈ claims)) :
    folioOn r w y = (true, { y with
      control := { y.control with work := { y.control.work with folio := some w, reading := true } }
      out.requests := [workFetch (y.profile.poolBase + 64 * head) 8] }) := by
  obtain ⟨h0, h1⟩ := not_or.mp he
  obtain ⟨h1, h2⟩ := not_or.mp h1
  rw [if_neg h0] at hn
  have hon := folioOn_reads h ho (w := w) (hn ▸ lt_none32 hh) (hn ▸ Nat.lt_of_not_le h1) (hn ▸ h2)
  rw [hn] at hon
  exact hon

/-- The CLOSED place of a summary, what stood before it settled (R192). -/
theorem FolioRoom.closedPlace {s y : State} {r cuts : Nat} {f : RoomFolios} {claims : List Nat}
    (h : FolioRoom s y r f claims cuts) (ho : s.out = {}) (n : Nat) (sum : List Byte) {t : State}
    (ht : EndsAs (roomGoes (folioPlaces r (n + 1) (closedWalk sum) y)) t) :
    AdoptClosedPlace s t r sum f claims cuts ∧ t.store = s.store ∧ ∀ q, q ≠ r → t.folios q = s.folios q := by
  have hcount : (field sum 26 2 + if (field sum 0 1).testBit 6 then 65536 else 0) = summaryCount sum 18 6 := rfl
  unfold AdoptClosedPlace
  dsimp only
  rw [hcount]
  split
  next hp =>
    have hw : closedWalk sum = some (placeStart sum true 18 3 6) := placeWalk_some hp
    rw [hw] at ht
    by_cases hemp : summaryCount sum 18 6 = 0 ∨ s.profile.poolRecords ≤ field sum 28 2 ∨ field sum 28 2 ∈ claims
    · rw [if_pos hemp]
      have hon := folioOn_empty h (w := placeStart sum true 18 3 6) rfl rfl (field_lt sum 28 2) hemp
      rw [folioPlaces_ended hon, show FolioWalk.following _ = none from rfl, folioPlaces_none] at ht
      have hcuts (c : Nat) : (if decide (0 < c) = true then 1 else 0) = if 0 < c then 1 else 0 := by
        simp only [decide_eq_true_eq]
      have hdone := (h.ended _ _).done ho ht
      rw [hcuts] at hdone
      exact hdone
    · rw [if_neg hemp]
      have hyo : y.out = {} := h.nothing ho
      have hon := folioOn_head h hyo (w := placeStart sum true 18 3 6) rfl (field_lt sum 28 2) hemp
      obtain ⟨⟨fs, ct, a, hy, hal, hstage, hidx, hfolio, hdam, hcuts, hclaims⟩, hplace, hothers⟩ := h
      rw [folioPlaces_busy hon] at ht
      have hfol (q : Nat) : t.folios q = y.folios q := ht.folios q
      have hwork := congrArg Control.work ht.control
      refine ⟨⟨(hfol r).trans hplace, by rw [hwork, hy]; exact hcuts, fun k => by rw [hwork, hy]; exact hclaims k,
        by rw [hwork, hy]; exact hidx, ⟨_, by rw [hwork]; rfl, rfl, rfl, rfl, ?_, rfl, rfl, rfl⟩,
        lineGrew_of_ends ht (by rw [hy]; exact hal) fun x hx => ⟨?_, ?_⟩⟩, ?_, fun q hq => (hfol q).trans (hothers q hq)⟩
      · exact if_neg (not_or.mp hemp).1
      · rw [List.mem_singleton.mp hx, hy]
        exact List.mem_singleton.mpr rfl
      · rw [List.mem_singleton.mp hx]
        rfl
      · rw [ht.store, hy]
        rfl
  next hp =>
    have hw : closedWalk sum = none := if_neg hp
    rw [hw, folioPlaces_none] at ht
    exact h.done ho ht

/-! ### What the walk of a room leaves as it was (R192) -/

/-- In `y` the walk of room `r` has gone on: only the rating engine and the work differ, and no other room's folios. -/
structure FolioFrame (r : Nat) (s y : State) : Prop where
  rest   : ∃ rt ct o, y = { s with rating := rt, control := { s.control with work := ct }, out := o }
  others : ∀ q, q ≠ r → y.folios q = s.folios q

theorem FolioFrame.of_work {r : Nat} {s y : State}
    (h : ∃ ct o, y = { s with control := { s.control with work := ct }, out := o }) : FolioFrame r s y := by
  obtain ⟨ct, o, hy⟩ := h
  exact ⟨⟨s.rating, ct, o, hy⟩, fun q _ => by rw [hy]; rfl⟩

theorem FolioFrame.trans {r : Nat} {s y z : State} (h : FolioFrame r s y) (hz : FolioFrame r y z) : FolioFrame r s z := by
  obtain ⟨⟨rt, ct, o, hy⟩, hothers⟩ := h
  obtain ⟨⟨rt', ct', o', hz⟩, hothers'⟩ := hz
  exact ⟨⟨rt', ct', o', by rw [hz, hy]⟩, fun q hq => (hothers' q hq).trans (hothers q hq)⟩

theorem workRead_frames (r a n : Nat) (s : State) : FolioFrame r s (workRead a n s) := .of_work ⟨_, _, rfl⟩

theorem workWrite_frames (r a : Nat) (l : List (Option Byte)) (s : State) : FolioFrame r s (workWrite a l s) :=
  .of_work ⟨_, _, rfl⟩

theorem endFolio_frames (r : Nat) (w : FolioWalk) (cut : Bool) (s : State) : FolioFrame r s (endFolio r w cut s) := by
  have hset (f : RoomFolios) : FolioFrame r s (s.setFolios r f) :=
    ⟨⟨_, s.control.work, s.out, rfl⟩, fun q hq => (State.setFolios_folios ..).trans (if_neg hq)⟩
  unfold endFolio
  dsimp only
  split
  · exact (hset _).trans (.of_work ⟨_, _, rfl⟩)
  · exact hset _

theorem notify_frames (r : Nat) (who : Requester) (k : NoticeKind) (room d1 d2 : Nat) (s : State) :
    FolioFrame r s (notify who k room d1 d2 s) := by
  unfold notify
  split
  · exact .of_work ⟨s.control.work, _, rfl⟩
  · exact .of_work ⟨s.control.work, s.out, rfl⟩

theorem nextRoomFolios_frames (r : Nat) (s : State) : FolioFrame r s (nextRoomFolios s) := by
  unfold nextRoomFolios
  dsimp only
  split
  · exact .of_work ⟨_, _, rfl⟩
  · unfold endAdopt
    refine FolioFrame.trans ?_ (notify_frames ..)
    exact ⟨⟨_, _, s.out, rfl⟩, fun _ _ => rfl⟩

theorem folioOn_frames (r : Nat) (w : FolioWalk) (s : State) : FolioFrame r s (folioOn r w s).2 := by
  have hwork (v : Option FolioWalk) : FolioFrame r s { s with control.work.folio := v } := .of_work ⟨_, _, rfl⟩
  have hended (v : Option FolioWalk) (cut : Bool) : FolioFrame r s (endFolio r w cut { s with control.work.folio := v }) :=
    (hwork v).trans (endFolio_frames ..)
  have hcut (a : Nat) (l : List (Option Byte)) :
      FolioFrame r s (workWrite a l (endFolio r w true { s with control.work.folio := w.following })) :=
    (hended ..).trans (workWrite_frames ..)
  have hread (a n : Nat) : FolioFrame r s (workRead a n { s with control.work.folio := some w }) :=
    (hwork _).trans (workRead_frames ..)
  unfold folioOn
  dsimp only
  split
  · exact hended none false
  · split
    · split
      · exact hcut _ _
      · exact hended none true
    · exact hread _ _

theorem folioPlaces_frames (r : Nat) : ∀ (n : Nat) (w : Option FolioWalk) (s : State), FolioFrame r s (folioPlaces r n w s).2
  | 0, _, s => .of_work ⟨s.control.work, s.out, rfl⟩
  | n + 1, none, s => .of_work ⟨s.control.work, s.out, rfl⟩
  | n + 1, some w, s => by
    have hon := folioOn_frames r w s
    unfold folioPlaces
    dsimp only
    split
    · exact hon
    · exact hon.trans (folioPlaces_frames r n _ _)

theorem roomGoes_frames {r : Nat} {s : State} {p : Bool × State} (h : FolioFrame r s p.2) : FolioFrame r s (roomGoes p) := by
  unfold roomGoes
  split
  · exact h
  · exact h.trans (nextRoomFolios_frames ..)

theorem folioWork_frames (w : Option FolioWalk) (s : State) : FolioFrame s.control.work.index s (folioWork w s) :=
  roomGoes_frames (folioPlaces_frames ..)

/-- What an end of such a step leaves as it was. -/
theorem FolioFrame.of_ends {r : Nat} {s y t : State} (h : FolioFrame r s y) (ht : EndsAs y t) :
    sameOuter s t ∧ t.store = s.store ∧ ∀ q, q ≠ r → t.folios q = s.folios q := by
  obtain ⟨⟨rt, ct, o, hy⟩, hothers⟩ := h
  refine ⟨ht.sameOuter (by rw [hy]; exact ⟨rfl, rfl, rfl, rfl, rfl⟩), ht.store.trans (by rw [hy]),
    fun q hq => (ht.folios q).trans (hothers q hq)⟩

/-! ### A place that is walked on (R192) -/

/-- The record in hand and the place follow a walk that has records (R192). -/
theorem folioOn_cuts {r k : Nat} {w : FolioWalk} {y : State} (h1 : w.next ≠ none32)
    (h2 : w.next ≥ y.profile.poolRecords ∨ w.next ∈ y.control.work.poolClaims) (hk : w.records.getLast? = some k) :
    folioOn r w y = (true, workWrite (y.poolAddr k + 56) (someLanes 4 (le 4 none32) 8)
      (endFolio r w true { y with control.work.folio := w.following })) := by
  unfold folioOn
  dsimp only
  rw [if_neg h1, if_pos h2, hk]
  rfl

/-- The CLOSED place of a room whose walk waited behind a link write (R192). -/
theorem FolioRoom.waiting {s y : State} {r cuts : Nat} {f : RoomFolios} {claims : List Nat}
    (h : FolioRoom s y r f claims cuts) (ho : s.out = {}) (n : Nat) {w : FolioWalk} (hc : w.inClosed = true)
    (hrec : w.records = []) {t : State} (ht : EndsAs (roomGoes (folioPlaces r (n + 1) (some w) y)) t) :
    (w.next = none32 → AdoptRoomDone s t r { f with closed := some (w.folio false) } claims cuts) ∧
    (w.next ≠ none32 → s.profile.poolRecords ≤ w.next ∨ w.next ∈ claims →
      AdoptRoomDone s t r { f with closed := some (w.folio true) } claims (cuts + 1)) ∧
    (w.next < s.profile.poolRecords → w.next ≠ none32 → w.next ∉ claims →
      t.rating = y.rating ∧ t.control.work = { y.control.work with folio := some w, reading := true } ∧
      lineGrew s t .directory [{ source := .startWork, write := false
                                 addr := s.profile.poolBase + 64 * w.next, beats := 8 }]) := by
  have hfollow : w.following = none := if_pos hc
  have hended (cut : Bool) (hon : folioOn r w y = (false, endFolio r w cut y)) :
      AdoptRoomDone s t r { f with closed := some (w.folio cut) } claims (cuts + if cut then 1 else 0) := by
    rw [folioPlaces_ended hon, hfollow, folioPlaces_none] at ht
    have hdone := ((h.ended w cut).done ho ht).1
    rw [if_pos hc] at hdone
    exact hdone
  refine ⟨fun hn => ?_, fun hne href => ?_, fun hlt hne hfree => ?_⟩
  · have hon := folioOn_ends h hrec (.inl hn)
    rw [decide_eq_false (fun h => h hn)] at hon
    exact hended false hon
  · have hon := folioOn_ends h hrec (.inr href)
    rw [decide_eq_true hne] at hon
    exact hended true hon
  · have hon := folioOn_reads h (h.nothing ho) hne hlt hfree
    rw [folioPlaces_busy hon] at ht
    obtain ⟨⟨fs, ct, a, hy, hal, -⟩, -, -⟩ := h
    refine ⟨ht.rating, congrArg Control.work ht.control, lineGrew_of_ends ht (by rw [hy]; exact hal) fun x hx => ⟨?_, ?_⟩⟩
    · rw [List.mem_singleton.mp hx, hy]
      exact List.mem_singleton.mpr rfl
    · rw [List.mem_singleton.mp hx]
      rfl

end Sys2Proof.Machine
end

section
/-! PROOFS. What every grant carries, and the writes of start-up (9.3, 11.4, 11.5). -/

namespace Sys2Proof.Machine

theorem unclaimed_of_no_claims {s : State} (h : s.control.work.claims = []) : s.unclaimed = List.range s.profile.blocks := by
  unfold State.unclaimed
  rw [h]
  exact List.filter_eq_self.mpr fun _ _ => decide_eq_true List.not_mem_nil

/-- FORMAT pushes every block, block `j` from slot `j` (R19). -/
theorem stackSlot_of_no_claims {s : State} (h : s.control.work.claims = []) :
    s.stackSlot = fun j => if j < s.profile.blocks then some j else none := by
  funext j
  unfold State.stackSlot
  rw [unclaimed_of_no_claims h, List.length_range, Nat.sub_self, if_pos (Nat.zero_le j), Nat.sub_zero]
  split
  next hj => exact (List.getElem?_range hj)
  next => rfl

theorem le_lastLine {p : Profile} (_ : 0 < p.blocks) : p.blocks ≤ 16 * p.lastLine + 16 := by
  unfold Profile.lastLine
  omega

section
variable {u : State} (ho : u.out = {})
include ho

/-- The grants of FORMAT's message records (R189). -/
theorem granted_records_last (h : u.control.work.stage = .records) (hc : u.control.work.claims = []) (hb : 0 < u.profile.blocks)
    (hi : u.control.work.index + 1 = u.profile.records) :
    workGranted u = u.goesOn { u with store := { u.store with freeRecords := List.range u.profile.records, serial := 1 } }
      .stack 0 (u.profile.stackBase + 64 * u.profile.lastLine)
      (stackLanes (fun j => if j < u.profile.blocks then some j else none) u.profile.lastLine) := by
  have hlen : u.unclaimed.length = u.profile.blocks := by rw [unclaimed_of_no_claims hc, List.length_range]
  have hwrites := nextWork_stack_writes (y := toStage .stack
      { u.onward with store := { u.store with freeRecords := List.range u.profile.records, serial := 1 } }) 10 ho rfl
    (List.ne_nil_of_length_pos (by show 0 < u.unclaimed.length; omega)) (Nat.zero_le _)
    (by show u.profile.blocks - u.unclaimed.length < 16 * (u.profile.lastLine - 0) + 16; omega)
  refine (((granted_records ho h).2 hi).trans hwrites).trans ?_
  rw [← stackSlot_of_no_claims hc]
  rfl

/-- FORMAT's stack lines, and then the pool (R189). -/
theorem granted_stack_of_no_claims (h : u.control.work.stage = .stack) (hk : u.control.work.kind = .format)
    (hc : u.control.work.claims = []) (hb : 0 < u.profile.blocks) :
    (u.control.work.index < u.profile.lastLine → workGranted u = u.goesOn u .stack (u.control.work.index + 1)
      (u.profile.stackBase + 64 * (u.profile.lastLine - (u.control.work.index + 1)))
      (stackLanes (fun j => if j < u.profile.blocks then some j else none)
        (u.profile.lastLine - (u.control.work.index + 1)))) ∧
    (u.control.work.index = u.profile.lastLine → 0 < u.profile.poolRecords → workGranted u =
      u.goesOn { u with store.stackPtr := BitVec.ofNat 34 u.profile.stackBase - 4#34 } .pool 0 u.profile.poolBase
        (allLanes (zeros 64))) := by
  have hlen : u.unclaimed.length = u.profile.blocks := by rw [unclaimed_of_no_claims hc, List.length_range]
  refine ⟨fun hi => ?_, fun hi hpos => ?_⟩
  · rw [← stackSlot_of_no_claims hc]
    exact granted_stack_writes ho h (List.ne_nil_of_length_pos (by omega)) (by omega)
  · refine (granted_stack_format ho h hk (by omega) hpos).trans ?_
    rw [stackPtrFor_eq u (unclaimed_length_le u), hlen, Nat.sub_self]
    rfl

/-- After ADOPT's last record write the stack is written, or stands empty (R190, R191). -/
theorem granted_adoptWrite_last (h : u.control.work.stage = .adoptWrite) (hk : u.control.work.kind = .adopt)
    (hfree : ∀ k, u.control.work.index < k → k < u.profile.records → (u.message k).state = .free) :
    (u.unclaimed ≠ [] → workGranted u = u.goesOn { u with store := { u.store with freeRecords := u.freeBitmap } }
      .stack 0 (u.profile.stackBase + 64 * u.profile.lastLine) (stackLanes u.stackSlot u.profile.lastLine)) ∧
    (u.unclaimed = [] → workGranted u = u.readsOn
      { u with store := { u.store with
          freeRecords := u.freeBitmap, stackPtr := BitVec.ofNat 34 (u.profile.stackBase + 4 * u.profile.blocks) - 4#34 } }
      .adoptFolios (u.profile.roomBase + 80) 4) := by
  have hdone := granted_adoptWrite_done h (writtenFrom_eq_none hfree)
  refine ⟨fun hne => hdone.trans ?_, fun he => hdone.trans ?_⟩
  · have hpos := List.length_pos_of_ne_nil hne
    have hle := unclaimed_length_le u
    have hlast := le_lastLine (p := u.profile) (by omega)
    exact (nextWork_stack_writes (y := toStage .stack { u.onward with store.freeRecords := u.freeBitmap }) 10 ho rfl
      hne (Nat.zero_le _) (by show u.profile.blocks - u.unclaimed.length < 16 * (u.profile.lastLine - 0) + 16; omega)).trans rfl
  · refine (nextWork_stack_adopts (y := toStage .stack { u.onward with store.freeRecords := u.freeBitmap }) 9 ho rfl hk
      fun hne => absurd he hne).trans ?_
    have hptr : (toStage .stack { u.onward with store.freeRecords := u.freeBitmap }).stackPtrFor
        (toStage .stack { u.onward with store.freeRecords := u.freeBitmap }).unclaimed.length =
        BitVec.ofNat 34 (u.profile.stackBase + 4 * u.profile.blocks) - 4#34 := by
      have := stackPtrFor_eq u (unclaimed_length_le u)
      rw [he] at this
      show u.stackPtrFor u.unclaimed.length = _
      rw [he]
      exact this
    rw [hptr]
    rfl

end

/-! ### After the link write of a folio (R192) -/

/-- The work of `u` once the link write that cut a folio has been granted. -/
def State.linked (u : State) : State :=
  { u with control.work := { u.control.work with writes := [], folio := none } }

theorem granted_adoptFolios {u : State} (h : u.control.work.stage = .adoptFolios) :
    workGranted u = roomGoes (folioPlaces u.control.work.index 2 u.control.work.folio u.linked) := by
  unfold workGranted workGrantEffect
  rw [h]
  rfl

theorem linked_frames (u : State) (r : Nat) : FolioFrame r u u.linked := .of_work ⟨_, u.out, rfl⟩

theorem linked_room {u : State} (h : u.control.work.stage = .adoptFolios) :
    FolioRoom u u.linked u.control.work.index (u.folios u.control.work.index) u.control.work.poolClaims
      u.control.work.cutFolios :=
  ⟨⟨u.rating.folios, u.linked.control.work, u.arbiter, rfl, rfl, h, rfl, rfl, rfl, rfl, fun _ => Iff.rfl⟩, rfl,
    fun _ _ => rfl⟩

/-- The grant of a burst of the work (R188 to R192). -/
theorem grant_of_work {s : State} {d : Decision} {r : Request} (ho : s.out = {}) (hd : s.decision = some d)
    (hr : s.granted = some r) (hs : r.source = .startWork) (hw : r.write = true) {v : State}
    (hv : workGranted (carry r (settleGrant d s)) = v) : Completes .arbiterDecision s v := by
  refine decision_completes ho hd hr ?_
  unfold grantEffect
  rw [hs]
  exact (if_pos hw).trans hv

/-- Settles O38. -/
theorem grantCarriesTheRequest : Obligations.GrantCarriesTheRequest := by
  unfold Obligations.GrantCarriesTheRequest
  refine ⟨fun s d r ho hd hr h => grant_carries ho hd hr h, fun s d r ho hd hr hs hw => ?_⟩
  have hgoes {v : State} := grant_of_work (v := v) ho hd hr hs hw
  obtain ⟨m, a, hu⟩ := carry_rest r d s
  rw [hu] at hgoes ⊢
  intro p i u line goes zeroed last unmarked opened
  have huo : u.out = {} := ho
  have hline (entry : Nat → Option Nat) (k : Nat) : line entry k = stackLanes entry k :=
    List.flatMap_congr fun j _ => by
      cases entry (16 * k + j) <;> rfl
  clear_value line
  refine ⟨fun hst => ⟨fun hi => hgoes ((granted_noticeSlots huo hst).1 hi), fun hi => hgoes ((granted_noticeSlots huo hst).2 hi)⟩,
    fun hk hc hb => ⟨fun hst => ⟨fun hi => ?_, fun hi => ?_⟩, fun hst => ⟨fun hi => ?_, fun hi hpos => ?_⟩,
      fun hst => ⟨fun hi => ?_, fun hi hpos => ?_⟩, fun hst => ⟨fun hi => ?_, fun hi hpos => ?_⟩,
      fun hst => ⟨fun hi => ?_, fun hi hpos => ?_⟩, fun hst => ?_⟩,
    fun hk => ⟨fun hst hpos => ?_, fun hst => ⟨fun j hj hf hfree hbl => ?_, fun hi hl hnone hlists => ?_⟩,
      fun hst => ⟨fun j hij hj hne hlow => ?_, fun hlow hne => ?_, fun hlow he => ?_⟩, fun hst hlt hne => ?_,
      fun hst hle hi => ?_, fun hst => ?_⟩⟩
  · exact hgoes ((granted_records huo hst).1 hi)
  · rw [hline]
    exact hgoes (granted_records_last huo hst hc hb hi)
  · rw [hline]
    exact hgoes ((granted_stack_of_no_claims huo hst hk hc hb).1 hi)
  · exact hgoes ((granted_stack_of_no_claims huo hst hk hc hb).2 hi hpos)
  · exact hgoes ((granted_pool huo hst).1 hi)
  · exact hgoes ((granted_pool huo hst).2 hi hpos)
  · exact hgoes ((granted_roomHalves huo hst).1 hi)
  · exact hgoes ((granted_roomHalves huo hst).2 hi hpos)
  · exact hgoes ((granted_slots huo hst).1 hi)
  · exact hgoes ((granted_slots huo hst).2 hi hpos)
  · exact hgoes (granted_header_format hst hk)
  · exact hgoes (granted_header_adopt huo hst hk hpos)
  · exact hgoes (granted_adoptWalk_next huo hst hj rfl hf hfree hbl)
  · obtain ⟨st, ct, o, hgr, hstage, hreb⟩ := granted_adoptWalk_last huo hst hnone hlists hi hl
    obtain ⟨t, he, ht⟩ := hgoes rfl
    refine ⟨t, he, ht.sameOuter (by rw [hgr]; exact ⟨rfl, rfl, rfl, rfl, rfl⟩), ?_,
      MailboxesRebuilt.of_settled hreb (fun _ => rfl) (fun j => ⟨(s.message j).length, (s.message j).readers, rfl⟩) rfl
        (fun _ => rfl) ht.message ht.mailbox ht.control⟩
    rw [ht.control, hgr]
    exact hstage
  · exact hgoes (granted_adoptWrite_next huo hst (writtenFrom_eq_some hij hj hne hlow))
  · rw [hline]
    exact hgoes ((granted_adoptWrite_last huo hst hk hlow).1 hne)
  · exact hgoes ((granted_adoptWrite_last huo hst hk hlow).2 he)
  · rw [hline]
    exact hgoes (granted_stack_writes huo hst hne hlt)
  · refine hgoes ((granted_stack_adopt huo hst hk hle).trans ?_)
    rw [stackPtrFor_eq u (unclaimed_length_le u)]
    rfl
  · have hgr := granted_adoptFolios (u := u) hst
    obtain ⟨t, he, ht⟩ := hgoes hgr
    obtain ⟨hsame, hstore, hothers⟩ := ((linked_frames u i).trans (roomGoes_frames (folioPlaces_frames ..))).of_ends ht
    have hroom := linked_room (u := u) hst
    refine ⟨t, he, hsame, hstore, hothers, fun hn => ?_, fun v hv hc hrec => ?_⟩
    · rw [show u.control.work.folio = none from hn, folioPlaces_none] at ht
      exact (hroom.done huo ht).1
    · rw [show u.control.work.folio = some v from hv] at ht
      obtain ⟨hends, hcut, hreads⟩ := hroom.waiting huo 1 hc hrec ht
      have hfolio (cut : Bool) : v.folio cut =
          { serial := v.serial, total := v.total, incomplete := v.flagged || cut, late := v.late } := by
        unfold FolioWalk.folio
        rw [if_pos hc, hrec]
      rw [hfolio, Bool.or_false] at hends
      rw [hfolio, Bool.or_true] at hcut
      refine ⟨hends, hcut, fun h1 h2 h3 => ?_⟩
      obtain ⟨hrating, hwork, hline'⟩ := hreads h1 h2 h3
      refine ⟨hrating, hwork.trans ?_, hline'⟩
      rw [← hv]
      rfl

end Sys2Proof.Machine
end

section
/-! PROOFS. What ADOPT does with the folio summaries and charge records it reads (11.5). -/

namespace Sys2Proof.Machine

/-! ### Its reads (R192) -/

/-- The state in which a read of the folio walk is dealt with: no walk in hand, the pool records `l` claimed. -/
def State.walkRead (s : State) (l : List Nat) : State :=
  { s.workTaken with control.work := { s.workTaken.control.work with folio := none, poolClaims := l } }

theorem walkRead_room {s : State} (h : s.control.work.stage = .adoptFolios) {l claims : List Nat} (hl : ∀ k, k ∈ l ↔ k ∈ claims) :
    FolioRoom s (s.walkRead l) s.control.work.index (s.folios s.control.work.index) claims s.control.work.cutFolios :=
  ⟨⟨s.rating.folios, (s.walkRead l).control.work, (takeReturn Source.isWork s).arbiter, rfl, rfl, h, rfl, rfl, rfl, rfl, hl⟩,
    rfl, fun _ _ => rfl⟩

theorem folio_read {s : State} {ret : Returned} (ho : s.out = {}) (hst : s.control.work.stage = .adoptFolios)
    (hr : s.returnOf Source.isWork = some ret) {u : State} (hu : adoptFolio ret.data s.workTaken = u) :
    Completes .adoptFolioRead s u :=
  ⟨_, stepOn_of (workData adoptFolio) s (by unfold State.workReturn; rw [if_pos hst, hr]), taken_endsAs' ho hu⟩

/-- A summary has been read (R192). -/
theorem adoptFolio_summary {s : State} (d : List Byte) (h : s.control.work.folio = none) :
    adoptFolio d s.workTaken =
      roomGoes (folioPlaces s.control.work.index 2 ((openWalk d).or (closedWalk d)) (s.walkRead s.control.work.poolClaims)) := by
  have hz : s.walkRead s.control.work.poolClaims = s.workTaken := by
    show ({ s.workTaken with control.work := { s.workTaken.control.work with folio := none } } : State) = _
    rw [← h]
    rfl
  rw [hz]
  unfold adoptFolio
  dsimp only
  rw [show s.workTaken.control.work.folio = none from h]
  rfl

theorem folioRecordOk_iff {r : Nat} {w : FolioWalk} {d : List Byte} :
    folioRecordOk r w d = true ↔ field d 4 2 = r ∧ field d 12 4 = w.serial := by
  unfold folioRecordOk
  rw [Bool.and_eq_true, decide_eq_true_eq, decide_eq_true_eq]

/-- A record of the folio in hand has been read (R192). -/
theorem adoptFolio_joins {s : State} {d : List Byte} {w : FolioWalk} (h : s.control.work.folio = some w)
    (hj : field d 4 2 = s.control.work.index ∧ field d 12 4 = w.serial) :
    adoptFolio d s.workTaken = roomGoes (folioPlaces s.control.work.index 2 (some (w.keep d))
      (s.walkRead (addMark s.control.work.poolClaims w.next))) := by
  unfold adoptFolio
  dsimp only
  rw [show s.workTaken.control.work.folio = some w from h]
  exact if_pos (folioRecordOk_iff.mpr hj)

/-- A record of another folio has been read (R192). -/
theorem adoptFolio_leaves {s : State} {d : List Byte} {w : FolioWalk} (h : s.control.work.folio = some w)
    (hj : ¬ (field d 4 2 = s.control.work.index ∧ field d 12 4 = w.serial)) :
    (∀ k, w.records.getLast? = some k → adoptFolio d s.workTaken =
      workWrite (s.poolAddr k + 56) (someLanes 4 (le 4 none32) 8)
        { endFolio s.control.work.index w true s.workTaken with control.work.folio := w.following }) ∧
    (w.records = [] → adoptFolio d s.workTaken = roomGoes (folioPlaces s.control.work.index 2 w.following
      (endFolio s.control.work.index w true (s.walkRead s.control.work.poolClaims)))) := by
  have hno : ¬ folioRecordOk s.control.work.index w d = true := fun h => hj (folioRecordOk_iff.mp h)
  have hw : s.workTaken.control.work.folio = some w := h
  refine ⟨fun k hk => ?_, fun hk => ?_⟩
  · unfold adoptFolio
    dsimp only
    rw [hw]
    dsimp only
    rw [hk]
    exact if_neg hno
  · unfold adoptFolio
    dsimp only
    rw [hw]
    dsimp only
    rw [hk]
    exact if_neg hno

/-! ### What follows (R192) -/

theorem if_counted (c : Nat) : (if decide (0 < c) = true then 1 else 0) = if 0 < c then 1 else 0 := by
  simp only [decide_eq_true_eq]

/-- The link write that cuts a folio's list at record `k` (R192). -/
def State.cutBurst (s : State) (k : Nat) : Request :=
  { source := .startWork, write := true, addr := s.profile.poolBase + 64 * k + 56, beats := 1
    lanes := List.replicate 4 none ++ allLanes (le 4 none32) }

/-- A folio that was cut has its link written (R192). -/
theorem FolioRoom.cutAt {s y : State} {r cuts : Nat} {f : RoomFolios} {claims : List Nat} (h : FolioRoom s y r f claims cuts)
    (ho : s.out = {}) (k : Nat) (v : Option FolioWalk) {t : State}
    (ht : EndsAs (workWrite (s.poolAddr k + 56) (someLanes 4 (le 4 none32) 8) { y with control.work.folio := v }) t) :
    t.folios r = f ∧ t.control.work.cutFolios = cuts ∧ t.control.work.poolClaims = y.control.work.poolClaims ∧
    lineGrew s t .directory [s.cutBurst k] := by
  have hyo : y.out = {} := h.nothing ho
  rw [workWrite_eq (s := { y with control.work.folio := v }) hyo] at ht
  obtain ⟨⟨fs, ct, a, hy, hal, -, -, -, -, hcuts, -⟩, hplace, -⟩ := h
  have hwork := congrArg Control.work ht.control
  refine ⟨(ht.folios r).trans hplace, by rw [hwork, hy]; exact hcuts, by rw [hwork],
    lineGrew_of_ends ht (by rw [hy]; exact hal) fun x hx => ⟨?_, ?_⟩⟩
  · rw [List.mem_singleton.mp hx]
    exact List.mem_singleton.mpr rfl
  · rw [List.mem_singleton.mp hx]
    rfl

/-- A list that ends by itself is whole (R192). -/
theorem folioOn_whole {s y : State} {r cuts : Nat} {f : RoomFolios} {claims : List Nat} (h : FolioRoom s y r f claims cuts)
    {w : FolioWalk} (hend : w.next = none32) : folioOn r w y = (false, endFolio r w false y) := by
  unfold folioOn
  dsimp only
  rw [h.settledState]
  exact if_pos hend

/-- A place that ended is followed by the CLOSED one of its summary, or by the next room (R192). -/
theorem FolioRoom.followed {s y : State} {r cuts : Nat} {f : RoomFolios} {claims : List Nat} (h : FolioRoom s y r f claims cuts)
    (ho : s.out = {}) (n : Nat) (w : FolioWalk) {t : State}
    (ht : EndsAs (roomGoes (folioPlaces r (n + 1) w.following y)) t) :
    if w.inClosed then AdoptRoomDone s t r f claims cuts else AdoptClosedPlace s t r w.summary f claims cuts := by
  split
  next hc =>
    rw [show w.following = none from if_pos hc, folioPlaces_none] at ht
    exact (h.done ho ht).1
  next hc =>
    rw [show w.following = closedWalk w.summary from if_neg hc] at ht
    exact (h.closedPlace ho n w.summary ht).1

section
variable {s t : State} {d : List Byte} (ho : s.out = {}) (hst : s.control.work.stage = .adoptFolios)
  (ht : EndsAs (adoptFolio d s.workTaken) t)
include ho hst ht

/-- A summary has been read: each place present is walked from its head, the OPEN one first (R192). -/
theorem summary_read (hf : s.control.work.folio = none) :
    (¬ ((field d 0 1).testBit 0 = true ∧ field d 4 4 ≠ 0) → AdoptClosedPlace s t s.control.work.index d
      (s.folios s.control.work.index) s.control.work.poolClaims s.control.work.cutFolios) ∧
    ((field d 0 1).testBit 0 = true ∧ field d 4 4 ≠ 0 →
      summaryCount d 4 5 = 0 ∨ s.profile.poolRecords ≤ field d 14 2 ∨ field d 14 2 ∈ s.control.work.poolClaims →
      AdoptClosedPlace s t s.control.work.index d
        { s.folios s.control.work.index with
          opened := some { serial := field d 4 4, incomplete := (field d 0 1).testBit 1 || decide (0 < summaryCount d 4 5) } }
        s.control.work.poolClaims (s.control.work.cutFolios + if 0 < summaryCount d 4 5 then 1 else 0)) ∧
    ((field d 0 1).testBit 0 = true ∧ field d 4 4 ≠ 0 →
      ¬ (summaryCount d 4 5 = 0 ∨ s.profile.poolRecords ≤ field d 14 2 ∨ field d 14 2 ∈ s.control.work.poolClaims) →
      t.rating = s.rating ∧
      t.control.work = { s.control.work with folio := some (placeStart d false 4 1 5), reading := true } ∧
      lineGrew s t .directory [workFetch (s.profile.poolBase + 64 * field d 14 2) 8]) := by
  have hroom := walkRead_room (s := s) hst (l := s.control.work.poolClaims) fun _ => Iff.rfl
  rw [adoptFolio_summary d hf] at ht
  have hopen (hp : (field d 0 1).testBit 0 = true ∧ field d 4 4 ≠ 0) :
      (openWalk d).or (closedWalk d) = some (placeStart d false 4 1 5) := by
    rw [show openWalk d = some _ from placeWalk_some hp]
    rfl
  refine ⟨fun hp => ?_, fun hp he => ?_, fun hp he => ?_⟩
  · rw [show openWalk d = none from if_neg hp, Option.none_or] at ht
    exact (hroom.closedPlace ho 1 d ht).1
  · have hon := folioOn_empty hroom (w := placeStart d false 4 1 5) rfl rfl (field_lt d 14 2) he
    rw [hopen hp, folioPlaces_ended hon] at ht
    have hplace := (hroom.ended (placeStart d false 4 1 5) (decide (0 < summaryCount d 4 5))).followed ho 0 _ ht
    rw [if_counted] at hplace
    exact hplace
  · have hon := folioOn_head hroom ho (w := placeStart d false 4 1 5) rfl (field_lt d 14 2) he
    rw [hopen hp, folioPlaces_busy hon] at ht
    refine ⟨ht.rating, congrArg Control.work ht.control, lineGrew_of_ends ht rfl fun x hx => ⟨?_, ?_⟩⟩
    · rw [List.mem_singleton.mp hx]
      exact List.mem_singleton.mpr rfl
    · rw [List.mem_singleton.mp hx]
      rfl

end

section
variable {s t : State} {d : List Byte} {w : FolioWalk} (ho : s.out = {}) (hst : s.control.work.stage = .adoptFolios)
  (hw : s.control.work.folio = some w) (ht : EndsAs (adoptFolio d s.workTaken) t)
include ho hst hw ht

/-- A record joins the folio in hand (R192). -/
theorem record_joins (hj : field d 4 2 = s.control.work.index ∧ field d 12 4 = w.serial) :
    (field d 60 4 = none32 → (if w.inClosed then
        AdoptRoomDone s t s.control.work.index ((s.folios s.control.work.index).setPlace
          (if w.inClosed then .closed else .opened) (some ((w.keep d).folio false)))
          (w.next :: s.control.work.poolClaims) s.control.work.cutFolios
      else AdoptClosedPlace s t s.control.work.index w.summary ((s.folios s.control.work.index).setPlace
          (if w.inClosed then .closed else .opened) (some ((w.keep d).folio false)))
          (w.next :: s.control.work.poolClaims) s.control.work.cutFolios)) ∧
    (field d 60 4 ≠ none32 →
      s.profile.poolRecords ≤ field d 60 4 ∨ field d 60 4 = w.next ∨ field d 60 4 ∈ s.control.work.poolClaims →
      t.folios s.control.work.index = (s.folios s.control.work.index).setPlace
          (if w.inClosed then .closed else .opened) (some ((w.keep d).folio true)) ∧
      t.control.work.cutFolios = s.control.work.cutFolios + 1 ∧
      t.control.work.poolClaims = addMark s.control.work.poolClaims w.next ∧
      lineGrew s t .directory [s.cutBurst w.next]) ∧
    (field d 60 4 ≠ none32 → field d 60 4 < s.profile.poolRecords → field d 60 4 ≠ w.next →
      field d 60 4 ∉ s.control.work.poolClaims →
      t.control.work.folio = some (w.keep d) ∧ t.control.work.poolClaims = addMark s.control.work.poolClaims w.next ∧
      t.rating = s.rating ∧ lineGrew s t .directory [workFetch (s.profile.poolBase + 64 * field d 60 4) 8]) := by
  have hroom := walkRead_room (s := s) hst (l := addMark s.control.work.poolClaims w.next)
    (claims := w.next :: s.control.work.poolClaims) fun k => by rw [mem_addMark, List.mem_cons]
  rw [adoptFolio_joins hw hj] at ht
  refine ⟨fun hn => ?_, fun hn href => ?_, fun hn hlt hne hfree => ?_⟩
  · rw [folioPlaces_ended (folioOn_whole hroom (w := w.keep d) hn)] at ht
    exact (hroom.ended (w.keep d) false).followed ho 0 (w.keep d) ht
  · have hk : (w.keep d).records.getLast? = some w.next := List.getLast?_concat
    have hon := folioOn_cuts (r := s.control.work.index) (w := w.keep d)
      (y := s.walkRead (addMark s.control.work.poolClaims w.next)) hn (href.imp_right mem_addMark.mpr) hk
    rw [folioPlaces_busy hon] at ht
    exact (hroom.ended (w.keep d) true).cutAt ho w.next (w.keep d).following ht
  · have hon := folioOn_reads hroom ho (w := w.keep d) hn hlt (by
      rw [List.mem_cons]
      exact not_or.mpr ⟨hne, hfree⟩)
    rw [folioPlaces_busy hon] at ht
    have hwork := congrArg Control.work ht.control
    refine ⟨by rw [hwork]; rfl, by rw [hwork]; rfl, ht.rating, lineGrew_of_ends ht rfl fun x hx => ⟨?_, ?_⟩⟩
    · rw [List.mem_singleton.mp hx]
      exact List.mem_singleton.mpr rfl
    · rw [List.mem_singleton.mp hx]
      rfl

/-- A record of another folio ends the list before it (R192). -/
theorem record_leaves (hj : ¬ (field d 4 2 = s.control.work.index ∧ field d 12 4 = w.serial)) :
    (∀ k, w.records.getLast? = some k →
      t.folios s.control.work.index = (s.folios s.control.work.index).setPlace
          (if w.inClosed then .closed else .opened) (some (w.folio true)) ∧
      t.control.work.cutFolios = s.control.work.cutFolios + 1 ∧ t.control.work.poolClaims = s.control.work.poolClaims ∧
      lineGrew s t .directory [s.cutBurst k]) ∧
    (w.records = [] → if w.inClosed then
        AdoptRoomDone s t s.control.work.index ((s.folios s.control.work.index).setPlace
          (if w.inClosed then .closed else .opened) (some (w.folio true)))
          s.control.work.poolClaims (s.control.work.cutFolios + 1)
      else AdoptClosedPlace s t s.control.work.index w.summary ((s.folios s.control.work.index).setPlace
          (if w.inClosed then .closed else .opened) (some (w.folio true)))
          s.control.work.poolClaims (s.control.work.cutFolios + 1)) := by
  have hroom := walkRead_room (s := s) hst (l := s.control.work.poolClaims) fun _ => Iff.rfl
  obtain ⟨hlink, hempty⟩ := adoptFolio_leaves hw hj
  refine ⟨fun k hk => ?_, fun hk => ?_⟩
  · rw [hlink k hk] at ht
    exact (hroom.ended w true).cutAt ho k w.following ht
  · rw [hempty hk] at ht
    exact (hroom.ended w true).followed ho 1 w ht

end

theorem adoptFolio_frames (d : List Byte) (s : State) : FolioFrame s.control.work.index s (adoptFolio d s) := by
  have hclaims (l : List Nat) : FolioFrame s.control.work.index s { s with control.work.poolClaims := l } :=
    .of_work ⟨_, s.out, rfl⟩
  have hended (w : FolioWalk) (v : Option FolioWalk) : FolioFrame s.control.work.index s
      { endFolio s.control.work.index w true s with control.work.folio := v } :=
    (endFolio_frames ..).trans (.of_work ⟨_, _, rfl⟩)
  unfold adoptFolio
  dsimp only
  split
  · exact folioWork_frames _ s
  next w _ =>
    split
    · exact (hclaims _).trans (folioWork_frames _ { s with control.work.poolClaims := addMark s.control.work.poolClaims w.next })
    · split
      · exact (hended w _).trans (workWrite_frames ..)
      · exact (hended w _).trans (roomGoes_frames (folioPlaces_frames ..))

/-! ### The header reads of the chain walks (R190, R191) -/

theorem header_read {s : State} {ret : Returned} (ho : s.out = {}) (hst : s.control.work.stage = .adoptWalk)
    (hr : s.returnOf Source.isWork = some ret) {u : State} (hu : adoptHeader ret.data s.workTaken = u) :
    Completes .adoptHeaderRead s u :=
  ⟨_, stepOn_of (workData adoptHeader) s (by unfold State.workReturn; rw [if_pos hst, hr]), taken_endsAs' ho hu⟩

/-- The state in which a header has been taken over (R190). -/
def State.headed (s : State) (d : List Byte) : State :=
  { s.workTaken with control.work := { s.workTaken.control.work with
      samples := s.control.work.samples + headerCount d, header := d } }

/-- The chain goes on (R190). -/
theorem adoptHeader_goes {s : State} {d : List Byte} (h1 : headerNext d < s.profile.blocks) (h2 : headerNext d ≠ none32)
    (h3 : headerNext d ∉ s.control.work.claims)
    (h4 : (s.chainOf s.control.work.index).length < (s.message s.control.work.index).blocks) :
    adoptHeader d s.workTaken = claimBlock s.control.work.index (headerNext d) (s.headed d) := by
  have h : ¬ ((s.chainOf s.control.work.index).length ≥ (s.message s.control.work.index).blocks ∨
      (s.headed d).stopsAt (headerNext d) = true) := by
    unfold State.stopsAt
    rw [Bool.or_eq_true, decide_eq_true_eq, decide_eq_true_eq]
    exact not_or.mpr ⟨Nat.not_le_of_lt h4, not_or.mpr ⟨Nat.not_le_of_lt h1, h3⟩⟩
  unfold adoptHeader
  dsimp only
  rw [if_neg h2]
  exact if_neg h

/-- The chain ends (R190). -/
theorem adoptHeader_ends {s : State} {d : List Byte} (hn : headerNext d = none32) :
    adoptHeader d s.workTaken = endChain s.control.work.index
      (decide ((s.chainOf s.control.work.index).length < (s.message s.control.work.index).blocks)) s.control.work.block d
      (s.headed d) := by
  unfold adoptHeader
  dsimp only
  exact if_pos hn

/-- The chain is cut (R190). -/
theorem adoptHeader_cuts {s : State} {d : List Byte} (hn : headerNext d ≠ none32)
    (h : (s.message s.control.work.index).blocks ≤ (s.chainOf s.control.work.index).length ∨
      s.profile.blocks ≤ headerNext d ∨ headerNext d ∈ s.control.work.claims) :
    adoptHeader d s.workTaken = endChain s.control.work.index true s.control.work.block d (s.headed d) := by
  have hstops : (s.chainOf s.control.work.index).length ≥ (s.message s.control.work.index).blocks ∨
      (s.headed d).stopsAt (headerNext d) = true := by
    refine h.imp_right fun h => ?_
    unfold State.stopsAt
    rw [Bool.or_eq_true, decide_eq_true_eq, decide_eq_true_eq]
    exact h
  unfold adoptHeader
  dsimp only
  rw [if_neg hn]
  exact if_pos hstops

theorem keptFrom_congr {s t : State} {i : Nat} (hp : t.profile = s.profile)
    (h : ∀ k, i ≤ k → (t.message k).state = (s.message k).state) : t.keptFrom i = s.keptFrom i := by
  unfold State.keptFrom
  rw [hp]
  congr 1
  funext k
  by_cases hk : i ≤ k
  · rw [h k hk]
  · rw [decide_eq_false hk, Bool.false_and, Bool.false_and]

/-- A kept record whose first block is refused is released, and the walk goes on to the next (R190). -/
theorem startChains_refused {s : State} {n i j : Nat} (hk : s.keptFrom i = some j)
    (href : s.profile.blocks ≤ (s.message j).first ∨ (s.message j).first ∈ s.control.work.claims ∨ (s.message j).blocks = 0) :
    startChains (n + 1) i s = startChains n (j + 1) (releaseDamaged j
      { s with control.work := { s.control.work with index := j, samples := 0, header := [] } }) := by
  have hstart : startChain j s = (false, releaseDamaged j
      { s with control.work := { s.control.work with index := j, samples := 0, header := [] } }) := by
    have hcond : s.stopsAt (s.message j).first = true ∨ (s.message j).blocks = 0 := by
      unfold State.stopsAt
      rw [Bool.or_eq_true, decide_eq_true_eq, decide_eq_true_eq, or_assoc]
      exact href
    unfold startChain
    dsimp only
    exact if_pos hcond
  conv_lhs => unfold startChains
  rw [hk]
  dsimp only
  rw [hstart]
  rfl

/-- The walk of the record in hand ends (R190): it takes the blocks and the samples kept. -/
theorem settleRecord_eq (i : Nat) (cut : Bool) (s : State) :
    ∃ st dm, settleRecord i cut s = { s with store := st, control := { s.control with work := { s.control.work with damaged := dm } } } ∧
      st.mailboxes = s.store.mailboxes ∧ (cut = true → i ∈ dm) ∧
      ∀ k, (settleRecord i cut s).message k = if k = i then { s.message i with
        blocks := (s.chainOf i).length, length := s.control.work.samples
        damaged := (s.message i).damaged || cut, readers := 0 } else s.message k := by
  unfold settleRecord countDamaged
  dsimp only
  cases cut with
  | true => exact ⟨_, _, if_pos rfl, rfl, fun _ => mem_addMark.mpr (.inl rfl), fun k => State.setMessage_message ..⟩
  | false => exact ⟨_, s.control.work.damaged, if_neg Bool.false_ne_true, rfl, fun h => Bool.noConfusion h,
      fun k => State.setMessage_message ..⟩

/-- The length a record takes when its walk ends (R190). -/
def State.walkedLength (s : State) (d : List Byte) : Nat := s.control.work.samples + headerCount d

/-- A record as its walk leaves it, kept whole (R190). -/
def State.settledAs (s : State) (d : List Byte) (j : Nat) : Message :=
  if j = s.control.work.index then { s.message s.control.work.index with length := s.walkedLength d, readers := 0 }
  else s.message j

/-- The state in which the record in hand is settled whole, the next one in turn (R190). -/
def State.wholeChain (s : State) (d : List Byte) : State :=
  nextElement (settleRecord s.control.work.index false (s.headed d))

section
variable {s : State} {d : List Byte}

theorem wholeChain_message (h : (s.chainOf s.control.work.index).length = (s.message s.control.work.index).blocks) (k : Nat) :
    (s.wholeChain d).message k = s.settledAs d k := by
  obtain ⟨st, dm, -, -, -, hm⟩ := settleRecord_eq s.control.work.index false (s.headed d)
  refine (hm k).trans ?_
  unfold State.settledAs
  rw [Bool.or_false, show (s.headed d).chainOf s.control.work.index = s.chainOf s.control.work.index from rfl, h]
  rfl

theorem wholeChain_eq (s : State) (d : List Byte) : ∃ st dm a, s.wholeChain d = { s with
    store := st, arbiter := a, control := { s.control with work := { s.control.work with
      reading := false, samples := s.walkedLength d, header := d, damaged := dm, index := s.control.work.index + 1 } } } ∧
    st.mailboxes = s.store.mailboxes ∧ a.lines = s.arbiter.lines := by
  obtain ⟨st, dm, hs, hb, -, -⟩ := settleRecord_eq s.control.work.index false (s.headed d)
  refine ⟨st, dm, (takeReturn Source.isWork s).arbiter, ?_, hb, rfl⟩
  unfold State.wholeChain
  rw [hs]
  rfl

theorem settledAs_other {k : Nat} (h : k ≠ s.control.work.index) : s.settledAs d k = s.message k := if_neg h

/-- The chain ends whole (R190). -/
theorem adoptHeader_whole (hn : headerNext d = none32)
    (h : (s.chainOf s.control.work.index).length = (s.message s.control.work.index).blocks) :
    adoptHeader d s.workTaken = nextWork workFuel (s.wholeChain d) := by
  rw [adoptHeader_ends hn, decide_eq_false (Nat.not_lt_of_le (Nat.le_of_eq h.symm))]
  rfl

theorem wholeChain_kept (h : (s.chainOf s.control.work.index).length = (s.message s.control.work.index).blocks) {i : Nat}
    (hi : s.control.work.index < i) : (s.wholeChain d).keptFrom i = s.keptFrom i := by
  obtain ⟨st, dm, a, hz, -, -⟩ := wholeChain_eq s d
  refine keptFrom_congr (by rw [hz]; rfl) fun k hk => ?_
  rw [wholeChain_message h, settledAs_other (by omega)]

end

section
variable {s t : State} {d : List Byte} (ho : s.out = {}) (hst : s.control.work.stage = .adoptWalk)
  (ht : EndsAs (adoptHeader d s.workTaken) t)
include ho hst ht

omit hst in
/-- The chain goes on: its next block is claimed, and the header of that is read (R190). -/
theorem header_goes {n : Nat} (hd : headerNext d = n) (h1 : n < s.profile.blocks) (h2 : n ≠ none32)
    (h3 : n ∉ s.control.work.claims)
    (h4 : (s.chainOf s.control.work.index).length < (s.message s.control.work.index).blocks) :
    sameOuter s t ∧ n ∈ t.control.work.claims ∧ t.control.work.block = n ∧
    t.chainOf s.control.work.index = n :: s.chainOf s.control.work.index ∧
    t.control.work.samples = s.walkedLength d ∧ (∀ j, t.message j = s.message j) ∧
    lineGrew s t .directory [workFetch (s.profile.storeBase + 512 * n) 1] := by
  subst hd
  rw [adoptHeader_goes h1 h2 h3 h4, claimBlock_eq (s := s.headed d) ho] at ht
  have hwork := congrArg Control.work ht.control
  refine ⟨ht.sameOuter ⟨rfl, rfl, rfl, rfl, rfl⟩, ?_, ?_, ?_, ?_, fun j => ht.message j, lineGrew_of_ends ht rfl fun x hx => ⟨?_, ?_⟩⟩
  · rw [hwork]
    exact mem_addMark.mpr (.inl rfl)
  · rw [hwork]
  · unfold State.chainOf
    rw [hwork]
    exact Table.get_set_same [] s.control.work.chains s.control.work.index (headerNext d :: s.chainOf s.control.work.index)
  · rw [hwork]
    rfl
  · rw [List.mem_singleton.mp hx]
    exact List.mem_singleton.mpr rfl
  · rw [List.mem_singleton.mp hx]
    rfl

/-- The chain ends whole: the walk of the next kept record begins (R190). -/
theorem header_whole {j b : Nat} (hn : headerNext d = none32)
    (hw : (s.chainOf s.control.work.index).length = (s.message s.control.work.index).blocks)
    (hk : s.keptFrom (s.control.work.index + 1) = some j) (hb : (s.message j).first = b) (hfirst : b < s.profile.blocks)
    (hfree : b ∉ s.control.work.claims) (hblocks : 0 < (s.message j).blocks) :
    sameOuter s t ∧ (∀ k, t.message k = s.settledAs d k) ∧ t.control.work.index = j ∧ t.control.work.block = b ∧
    b ∈ t.control.work.claims ∧ lineGrew s t .directory [workFetch (s.profile.storeBase + 512 * b) 1] := by
  have hmsg := wholeChain_message (d := d) hw
  have hkept : (s.wholeChain d).keptFrom (s.control.work.index + 1) = some j := (wholeChain_kept hw (Nat.lt_succ_self _)).trans hk
  have hj : s.settledAs d j = s.message j := settledAs_other (by have := (keptFrom_some hk).1; omega)
  rw [adoptHeader_whole hn hw] at ht
  obtain ⟨st, dm, a, hz, -, hal⟩ := wholeChain_eq s d
  generalize s.wholeChain d = z at ht hmsg hkept hz
  have hwalks := nextWork_walks (s := z) (j := j) (b := b) 11 (by rw [hz]; exact ho) (by rw [hz]; exact hst)
    (by rw [show z.control.work.index = s.control.work.index + 1 by rw [hz]]; exact hkept) (by rw [hmsg, hj]; exact hb)
    (by rw [hz]; exact hfirst) (by rw [hz]; exact hfree) (by rw [hmsg, hj]; exact hblocks)
  rw [show nextWork workFuel z = _ from hwalks] at ht
  have hwork := congrArg Control.work ht.control
  refine ⟨ht.sameOuter (by rw [hz]; exact ⟨rfl, rfl, rfl, rfl, rfl⟩), fun k => (ht.message k).trans (hmsg k), by rw [hwork],
    by rw [hwork], by rw [hwork]; exact mem_addMark.mpr (.inl rfl), lineGrew_of_ends ht (by rw [hz]; exact hal) fun x hx => ⟨?_, ?_⟩⟩
  · rw [List.mem_singleton.mp hx, hz]
    exact List.mem_singleton.mpr rfl
  · rw [List.mem_singleton.mp hx]
    rfl

/-- The next kept record has no block to keep: it is released, and the walk of the one after it begins (R190). -/
theorem header_released {j k b : Nat} (hn : headerNext d = none32)
    (hw : (s.chainOf s.control.work.index).length = (s.message s.control.work.index).blocks)
    (hj : s.keptFrom (s.control.work.index + 1) = some j)
    (href : s.profile.blocks ≤ (s.message j).first ∨ (s.message j).first ∈ s.control.work.claims ∨ (s.message j).blocks = 0)
    (hk : s.keptFrom (j + 1) = some k) (hb : (s.message k).first = b) (hfirst : b < s.profile.blocks)
    (hfree : b ∉ s.control.work.claims) (hblocks : 0 < (s.message k).blocks) :
    sameOuter s t ∧ t.message j = { s.message j with state := .deleting } ∧ j ∈ t.control.work.damaged ∧
    (∀ x, x ≠ s.control.work.index → x ≠ j → t.message x = s.message x) ∧ t.control.work.index = k ∧
    (∀ c, c ∈ t.control.work.claims ↔ c = b ∨ c ∈ s.control.work.claims) ∧
    lineGrew s t .directory [workFetch (s.profile.storeBase + 512 * b) 1] := by
  have hij := (keptFrom_some hj).1
  obtain ⟨hjk, hkr, -⟩ := keptFrom_some hk
  obtain ⟨n, hrecords⟩ : ∃ n, s.profile.records = n + 2 := ⟨s.profile.records - 2, by omega⟩
  have hmsg (x : Nat) (hx : x ≠ s.control.work.index) : (s.wholeChain d).message x = s.message x :=
    (wholeChain_message hw x).trans (settledAs_other hx)
  have hkept1 : (s.wholeChain d).keptFrom (s.control.work.index + 1) = some j := (wholeChain_kept hw (Nat.lt_succ_self _)).trans hj
  have hkept2 : (s.wholeChain d).keptFrom (j + 1) = some k := (wholeChain_kept hw (by omega)).trans hk
  rw [adoptHeader_whole hn hw] at ht
  obtain ⟨st, dm, a, hz, -, hal⟩ := wholeChain_eq s d
  generalize s.wholeChain d = z at ht hmsg hkept1 hkept2 hz
  have hzi : z.control.work.index = s.control.work.index + 1 := by rw [hz]
  have hzj := hmsg j (by omega)
  -- the record `j` released
  have hrefz : z.profile.blocks ≤ (z.message j).first ∨ (z.message j).first ∈ z.control.work.claims ∨ (z.message j).blocks = 0 := by
    rw [hzj, hz]
    exact href
  have hfirstWalk := startChains_refused (n := n + 1) hkept1 hrefz
  have hx : ∃ st' dm', releaseDamaged j { z with control.work := { z.control.work with index := j, samples := 0, header := [] } } =
      { z with store := st', control := { z.control with work := { z.control.work with
          index := j, samples := 0, header := [], damaged := dm' } } } ∧ j ∈ dm' ∧
      ∀ x, (releaseDamaged j { z with control.work := { z.control.work with index := j, samples := 0, header := [] } }).message x =
        if x = j then { z.message j with state := .deleting } else z.message x :=
    ⟨_, _, rfl, mem_addMark.mpr (.inl rfl), fun x => State.setMessage_message ..⟩
  generalize releaseDamaged j { z with control.work := { z.control.work with index := j, samples := 0, header := [] } } = x
    at hx hfirstWalk
  obtain ⟨st', dm', hx, hdm', hxm⟩ := hx
  have hxk : x.message k = s.message k := ((hxm k).trans (if_neg (by omega))).trans (hmsg k (by omega))
  have hkept3 : x.keptFrom (j + 1) = some k :=
    (keptFrom_congr (by rw [hx]; rfl) fun y hy => by rw [hxm, if_neg (by omega)]).trans hkept2
  have hsecondWalk := startChains_reads (s := x) (n := n) hkept3 (by rw [hxk, hb, hx, hz]; exact hfirst)
    (by rw [hxk, hb, hx, hz]; exact hfree) (by rw [hxk]; exact hblocks)
  have hwalks : startChains z.profile.records z.control.work.index z = (true, claimBlock k (x.message k).first
      { x with control.work.index := k, control.work.samples := 0, control.work.header := [] }) := by
    rw [show z.profile.records = n + 1 + 1 from (congrArg (fun y : State => y.profile.records) hz).trans hrecords, hzi]
    exact hfirstWalk.trans hsecondWalk
  have hwalk := nextWork_adoptWalk (s := z) 11 (by rw [hz]; exact hst) hwalks
  rw [show nextWork workFuel z = _ from hwalk, if_pos rfl, hxk, hb,
    claimBlock_eq (s := { x with control.work.index := k, control.work.samples := 0, control.work.header := [] })
      (by rw [hx, hz]; exact ho)] at ht
  have hwork := congrArg Control.work ht.control
  have htm (y : Nat) : t.message y = x.message y := ht.message y
  refine ⟨ht.sameOuter (by rw [hx, hz]; exact ⟨rfl, rfl, rfl, rfl, rfl⟩), ?_, ?_, fun y hyi hyj => ?_, by rw [hwork], fun c => ?_,
    lineGrew_of_ends ht (by rw [hx, hz]; exact hal) fun y hy => ⟨?_, ?_⟩⟩
  · rw [htm, hxm, if_pos rfl, hzj]
  · rw [hwork, hx]
    exact hdm'
  · rw [htm, hxm, if_neg hyj, hmsg y hyi]
  · rw [hwork, hx, hz]
    exact mem_addMark
  · rw [List.mem_singleton.mp hy, hx, hz]
    exact List.mem_singleton.mpr rfl
  · rw [List.mem_singleton.mp hy]
    rfl

/-- The last chain ends whole: the mailboxes are rebuilt (R191). -/
theorem header_last (hn : headerNext d = none32)
    (hw : (s.chainOf s.control.work.index).length = (s.message s.control.work.index).blocks)
    (hi : s.control.work.index < s.profile.records) (hl : (s.message s.control.work.index).state.listed = true)
    (hk : s.keptFrom (s.control.work.index + 1) = none) (hlists : ∀ r, (s.mailbox r).list = []) :
    sameOuter s t ∧ t.control.work.stage = .adoptWrite ∧ MailboxesRebuilt s t (s.settledAs d) := by
  have hmsg := wholeChain_message (d := d) hw
  have hkept := (wholeChain_kept (d := d) hw (Nat.lt_succ_self _)).trans hk
  rw [adoptHeader_whole hn hw] at ht
  obtain ⟨st, dm, a, hz, hbox, -⟩ := wholeChain_eq s d
  generalize s.wholeChain d = z at ht hmsg hkept hz
  have hself : s.settledAs d s.control.work.index = { s.message s.control.work.index with
      length := s.walkedLength d, readers := 0 } := if_pos rfl
  obtain ⟨st', ct, o, hgo, hstage, hreb⟩ := nextWork_rebuilds (z := z) (i := s.control.work.index) 10 (by rw [hz]; exact ho)
    (by rw [hz]; exact hst) (by rw [show z.control.work.index = s.control.work.index + 1 by rw [hz]]; exact hkept)
    (fun r => (congrArg Mailbox.list (mailbox_congr (by rw [hz]; exact hbox) r)).trans (hlists r)) (by rw [hz]; exact hi)
    (by rw [hmsg, hself]; exact hl)
  refine ⟨ht.sameOuter (by rw [show nextWork workFuel z = _ from hgo, hz]; exact ⟨rfl, rfl, rfl, rfl, rfl⟩), ?_,
    hreb.of_settled hmsg (fun j => ?_) (by rw [hz]; rfl) (fun j => by rw [hz]; rfl) ht.message ht.mailbox ht.control⟩
  · rw [ht.control, show nextWork workFuel z = _ from hgo]
    exact hstage
  · unfold State.settledAs
    split
    next h => exact ⟨s.walkedLength d, 0, by rw [h]⟩
    next => exact ⟨(s.message j).length, (s.message j).readers, rfl⟩

omit hst in
/-- The chain is cut: the header of its last block is written with no next block (R190). -/
theorem header_cut (hd : d.length = 8)
    (hcut : (headerNext d = none32 ∧ (s.chainOf s.control.work.index).length < (s.message s.control.work.index).blocks) ∨
      (headerNext d ≠ none32 ∧ ((s.message s.control.work.index).blocks ≤ (s.chainOf s.control.work.index).length ∨
        s.profile.blocks ≤ headerNext d ∨ headerNext d ∈ s.control.work.claims))) :
    sameOuter s t ∧ t.message s.control.work.index = { s.message s.control.work.index with
      blocks := (s.chainOf s.control.work.index).length, length := s.walkedLength d, damaged := true, readers := 0 } ∧
    (∀ j, j ≠ s.control.work.index → t.message j = s.message j) ∧ s.control.work.index ∈ t.control.work.damaged ∧
    t.control.work.claims = s.control.work.claims ∧ t.control.work.index = s.control.work.index ∧
    lineGrew s t .directory [{ source := .startWork, write := true, addr := s.profile.storeBase + 512 * s.control.work.block
                               beats := 1, lanes := allLanes (patchedHeader d) }] := by
  have hends : adoptHeader d s.workTaken = endChain s.control.work.index true s.control.work.block d (s.headed d) := by
    obtain ⟨hn, hlt⟩ | ⟨hn, href⟩ := hcut
    · rw [adoptHeader_ends hn, decide_eq_true hlt]
    · exact adoptHeader_cuts hn href
  obtain ⟨st, dm, hs, -, hdm, hm⟩ := settleRecord_eq s.control.work.index true (s.headed d)
  have hwrites : endChain s.control.work.index true s.control.work.block d (s.headed d) =
      workWrite (s.profile.storeBase + 512 * s.control.work.block) (allLanes (patchedHeader d))
        (settleRecord s.control.work.index true (s.headed d)) := rfl
  rw [hends, hwrites] at ht
  generalize settleRecord s.control.work.index true (s.headed d) = z at ht hs hm
  rw [workWrite_eq (by rw [hs]; exact ho)] at ht
  have hwork := congrArg Control.work ht.control
  have hlen : (allLanes (patchedHeader d)).length = 8 := by
    rw [allLanes_length]
    unfold patchedHeader slice
    rw [List.length_append, le_length, List.length_take, List.length_drop, hd]
    rfl
  refine ⟨ht.sameOuter (by rw [hs]; exact ⟨rfl, rfl, rfl, rfl, rfl⟩), ?_, fun j hj => ?_, ?_, ?_, ?_,
    lineGrew_of_ends ht (by rw [hs]; rfl) fun x hx => ⟨?_, ?_⟩⟩
  · refine (ht.message _).trans ((hm _).trans ((if_pos rfl).trans ?_))
    rw [Bool.or_true]
    rfl
  · exact (ht.message j).trans ((hm j).trans (if_neg hj))
  · rw [hwork, hs]
    exact hdm rfl
  · rw [hwork, hs]
    rfl
  · rw [hwork, hs]
    rfl
  · rw [List.mem_singleton.mp hx]
    unfold workBurst
    rw [hlen]
    exact List.mem_singleton.mpr rfl
  · rw [List.mem_singleton.mp hx]
    rfl

end

/-! ### The obligation -/

/-- The folio of a walk that has kept the record read (R192). -/
theorem keep_folio (w : FolioWalk) (d : List Byte) (cut : Bool) : (w.keep d).folio cut =
    { serial := w.serial, total := max (-2147483648) (min 2147483647 (w.total + signed32 (field d 40 4)))
      records := w.records ++ [w.next], incomplete := w.flagged || cut
      late := if w.inClosed then (if (field d 1 1).testBit 3 then min 65535 (w.late + 1) else w.late) else 0 } := rfl

/-- The places of a room with one settled (R192). -/
theorem setPlace_eq (f : RoomFolios) (c : Bool) (x : Folio) :
    f.setPlace (if c then .closed else .opened) (some x) =
      if c then { f with closed := some x } else { f with opened := some x } := by
  cases c <;> rfl

/-- Settles O32. -/
theorem adoptWalksChainsAndFolios : Obligations.AdoptWalksChainsAndFolios := by
  unfold Obligations.AdoptWalksChainsAndFolios
  refine ⟨fun s ret ho hst hr => ?_, fun s ret w ho hst hr hw h1 h2 h3 h4 h5 h6 => ?_, fun s ret ho hst hr => ?_,
    fun s ret ho hst hr hf => ?_, fun s ret w ho hst hr hw => ?_⟩
  · intro i n
    obtain ⟨t, he, ht⟩ := header_read ho hst hr rfl
    refine ⟨fun h1 h2 h3 h4 => ⟨t, he, header_goes ho ht rfl h1 h2 h3 h4⟩, fun j hn hc hk h1 h2 h3 => ?_,
      fun j k hn hc hj href hk h1 h2 h3 => ⟨t, he, header_released ho hst ht hn hc hj href hk rfl h1 h2 h3⟩⟩
    obtain ⟨hsame, hmsg, hidx, hblock, hclaims, hline⟩ := header_whole ho hst ht hn hc hk rfl h1 h2 h3
    exact ⟨t, he, hsame, (hmsg i).trans (if_pos rfl), fun k hk => (hmsg k).trans (settledAs_other hk), hidx, hblock,
      hclaims, hline⟩
  · obtain ⟨t, he, ht⟩ := folio_read ho hst hr rfl
    obtain ⟨hfolio, hclaims, hrating, hline⟩ := (record_joins ho hst hw ht ⟨h1, h2⟩).2.2 h4 h3 h5 h6
    exact ⟨t, he, ((adoptFolio_frames ret.data s.workTaken).of_ends ht).1, hfolio,
      by rw [hclaims]; exact mem_addMark.mpr (.inl rfl), hrating, hline⟩
  · intro i m n walked
    obtain ⟨t, he, ht⟩ := header_read ho hst hr rfl
    exact ⟨fun hd hcut => ⟨t, he, header_cut ho ht hd hcut⟩,
      fun hn hc hi hl hk hlists => ⟨t, he, header_last ho hst ht hn hc hi hl hk hlists⟩⟩
  · intro r claims cuts flags present count head empty f
    obtain ⟨t, he, ht⟩ := folio_read ho hst hr rfl
    obtain ⟨hsame, hstore, hothers⟩ := (adoptFolio_frames ret.data s.workTaken).of_ends ht
    obtain ⟨habsent, hempty, hreads⟩ := summary_read ho hst ht hf
    refine ⟨t, he, hsame, hstore, hothers, habsent, hempty, fun hp hne => ?_⟩
    obtain ⟨hrating, hwork, hline⟩ := hreads hp hne
    exact ⟨hrating, ⟨placeStart ret.data false 4 1 5, hwork, rfl, rfl, rfl, if_neg (not_or.mp hne).1, rfl, rfl, rfl, rfl⟩, hline⟩
  · intro r claims cuts joins next refused placed late whole before link
    obtain ⟨t, he, ht⟩ := folio_read ho hst hr rfl
    obtain ⟨hsame, hstore, hothers⟩ := (adoptFolio_frames ret.data s.workTaken).of_ends ht
    have hjoin (hj : joins) := record_joins ho hst hw ht hj
    have hleave (hj : ¬ joins) := record_leaves ho hst hw ht hj
    simp only [setPlace_eq, keep_folio, Bool.or_false, Bool.or_true] at hjoin
    simp only [setPlace_eq, FolioWalk.folio, Bool.or_true] at hleave
    refine ⟨t, he, hsame, hstore, hothers, fun hj hn => ?_, fun hj hn href => ?_, fun k hj hk => ?_, fun hj hk => ?_⟩
    · exact (hjoin hj).1 hn
    · obtain ⟨hf, hc, hcl, hline⟩ := (hjoin hj).2.1 hn href
      exact ⟨hf, hc, fun k => by rw [hcl, mem_addMark, List.mem_cons], hline⟩
    · exact (hleave hj).1 k hk
    · exact (hleave hj).2 hk

end Sys2Proof.Machine
end

section
/-! PROOFS. A checkout in a state where a message stands in two mailboxes (4.4, 2.9). -/

namespace Sys2Proof.Machine

/-- The write of VACANT to the status byte of room 5. -/
def vacateRequest : HostRequest :=
  { write := true, addr := 0x200280#34, beats := 1, lanes := some 0#8 :: List.replicate 7 none }

/-- That write at the head of the FIFO, its places still to be asked for. -/
def vacateHead : HeadWork := { mode := .active, parts := reqParts vacateRequest, phase := .checkout }

/-- Room 5 is OCCUPIED, its one message is 30, and channel 0 opens a recording for it. The lists disagree with the records:
the list of room 6 holds message 30 too, before message 9, and the channel's record is a NEW message of room 6. -/
def strayState : State :=
  { control :=
      { state := .active
        profile :=
          { apertureBase := 0x100000, roomBase := 0x200000, trunkBase := 0x210000, tariffBase := 0x220000
            orderBase := 0x230000, noticeBase := 0x240000, messageBase := 0x250000, poolBase := 0x260000
            stackBase := 0x270000, storeBase := 0x300000, floors := 1, orderSlots := 8, noticeSlots := 16, records := 64
            poolRecords := 64, blocks := 64 } }
    host :=
      { fifo := [.host vacateRequest], head := some vacateHead
        rooms := [(5, ⟨true, 1#8 :: zeros 63⟩)] }
    voice.channels := [(0, { state := .opening, dir := .record, room := 5, index := 7 })]
    store.mailboxes := [(5, { list := [30], places := 1, newCount := 1 }), (6, { list := [30, 9], places := 2 })]
    store.messages :=
      [(7, { state := .new, room := 6 }), (9, { state := .new, room := 6 }), (30, { state := .new, room := 5 })] }

/-- The state after the checkout. -/
def strayAfter : State :=
  match exec .checkout strayState with
  | .next t => t
  | _ => strayState

theorem strayState_leaves : strayState.leavesAtOnce = some (vacateRequest, vacateHead) := by decide +kernel

theorem strayState_observes : (∀ p ∈ vacateHead.parts, strayState.inAperture vacateHead.mode p = false) ∧
    strayState.observations vacateHead.mode vacateRequest = [.room 5 [(0, 0#8)]] ∧
    strayState.guardedBytes vacateHead.mode vacateRequest = [] := by decide +kernel

theorem strayState_checksOut : (strayState.roomShadow 5).loaded = true ∧
    isCheckout (strayState.roomShadow 5) (strayState.roomAfter 5 [(0, 0#8)]) = true ∧
    ∀ i ∈ (strayState.mailbox 5).list, (strayState.message i).room = 5 ∧ (strayState.message i).state.listed = true := by
  decide +kernel

/-- The list of room 6 gives message 30 a next index again, when the record of the opening channel leaves that list. -/
theorem strayAfter_links : (strayAfter.message 30).next = 9 := by decide +kernel

theorem strayAfter_of_exec {t : State} (h : exec .checkout strayState = .next t) : strayAfter = t := by
  unfold strayAfter
  rw [h]

/-- Refutes O14: clause (1) claims next index none for every message that was listed. Where the list of another room holds
that message too, the checkout links it again: the release of the record of an OPENING channel relinks that list. No
hypothesis keeps a message out of the lists of other rooms. -/
theorem not_checkoutEmptiesTheMailbox : ¬ Obligations.CheckoutEmptiesTheMailbox := by
  unfold Obligations.CheckoutEmptiesTheMailbox
  intro h
  obtain ⟨hparts, hobs, hguarded⟩ := strayState_observes
  obtain ⟨hloaded, hcheckout, hlisted⟩ := strayState_checksOut
  obtain ⟨⟨t, hexec, -, -, -, -, -, -, -, hmessages⟩, -⟩ := h strayState vacateRequest vacateHead 5 [(0, 0#8)] rfl
    (.inl strayState_leaves) hparts hobs hguarded rfl hloaded hcheckout hlisted
  have hnext : (t.message 30).next = 0xFFFF := (hmessages 30 (List.mem_singleton.mpr rfl)).2.1
  rw [← strayAfter_of_exec hexec, strayAfter_links] at hnext
  exact absurd hnext (by decide)

end Sys2Proof.Machine
end
